-- ==== Sys2Proof/Word.lean ====
section
/-! DEFINITION. The word types of the machine and the plain finite maps its state is made of. -/

namespace Sys2Proof

/-- A register of a hart, an address, a memory word (R4, R36). -/
abbrev W64 := BitVec 64

/-- An f32 pattern or half a word. -/
abbrev W32 := BitVec 32

/-- One byte. -/
abbrev Byte := BitVec 8

/-- A vector register: 4,096 bits (R137). -/
abbrev VReg := BitVec 4096

/-- A mask register: 512 bits (R136). -/
abbrev MReg := BitVec 512

/-- A finite map held as plain data: at most one pair is meant for each key, and the first counts. -/
abbrev KMap (κ α : Type) := List (κ × α)

end Sys2Proof
end

