-- ==== Sys2Proof/Syntax.lean ====
section
/-! DEFINITION. The instructions and steps of the machine: one constructor of Instr per row of the opcode table, with decoded operands. -/

namespace Sys2Proof

/-- Neighbour links of a lap core (R13, R74): north, east, south, west. -/
inductive Dir where
  | north | east | south | west
deriving DecidableEq, Repr

/-- A register an 8-bit lap specifier names (R74); p i is predicate p(i+1). -/
inductive LSpec where
  | s (n : BitVec 7)
  | z
  | port (d : Dir)
  | aq | dq | mb
  | tid | cid | kid | lap | clk
  | h (n : BitVec 4)
  | p (i : Fin 7)
deriving DecidableEq, Repr

/-- The guard of a lap word (R71): always, when p(i+1) is 1, when p(i+1) is 0. -/
inductive Guard where
  | always
  | on (i : Fin 7)
  | off (i : Fin 7)
deriving DecidableEq, Repr

/-- Source B: a register, or a literal word of 32 or 64 bits (R70). -/
inductive BSrc where
  | reg (r : LSpec)
  | lit32 (v : W32)
  | lit64 (v : W64)
deriving DecidableEq, Repr

/-- The displacement of an M-format word: 19 signed bits, or a literal (R69, R70). -/
inductive Disp where
  | imm (v : BitVec 19)
  | lit32 (v : W32)
  | lit64 (v : W64)
deriving DecidableEq, Repr

/-- The operand types (R76). -/
inductive Ty where
  | b64 | i64 | i32 | i16 | i8 | n64 | n32 | n16 | n8 | f64 | f32 | f16 | bf16 | i4 | narrow | dt
deriving DecidableEq, Repr

/-- The narrow kinds (R77). -/
inductive Nk where
  | e4m3 | e5m2 | e4m3z | e3m2 | e2m3 | e2m1 | e8m0 | mxe4m3 | mxe5m2 | mxe3m2 | mxe2m3 | mxe2m1 | mxi8
deriving DecidableEq, Repr

/-- The rounding modes of the RM field (R44). -/
inductive Rm where
  | rne | rtz | rdn | rup | rna | sr | dyn
deriving DecidableEq, Repr

/-- The scopes (R78, R278). -/
inductive Scope where
  | thread | core | cluster | die | package | system
deriving DecidableEq, Repr

/-- The memory classes (R78), with the scope an aq or rl access carries (R79). -/
inductive Cls where
  | plain | relaxed
  | acquire (sc : Scope)
  | release (sc : Scope)
  | take | give | peek
deriving DecidableEq, Repr

/-- The relations of CMP, FCMP and VCMP (R121, R130, R156); the last two are for float types only. -/
inductive Rel where
  | eq | ne | lt | le | gt | ge | unordered | ordered
deriving DecidableEq, Repr

/-- The operations of AMO (R250). -/
inductive AmoOp where
  | add | and | or | xor | min | max | minn | maxn | swap
deriving DecidableEq, Repr

/-- What FSGN and VSGN do with the sign (R132, R158). -/
inductive SgnOp where
  | copy | neg | xor
deriving DecidableEq, Repr

/-- Which decode table DTLD and DTRD name (R344). -/
inductive TabSel where
  | own | cc0 | cc1
deriving DecidableEq, Repr

/-- Operands of the integer instructions with two sources. -/
structure Alu where
  g : Guard
  ty : Ty
  d : LSpec
  a : LSpec
  b : BSrc
deriving DecidableEq, Repr

/-- Operands of the instructions with one typed source. -/
structure Alu1 where
  g : Guard
  ty : Ty
  d : LSpec
  a : LSpec
deriving DecidableEq, Repr

/-- Operands of the rounding instructions with two sources. -/
structure FAlu where
  g : Guard
  ty : Ty
  rm : Rm
  d : LSpec
  a : LSpec
  b : BSrc
deriving DecidableEq, Repr

/-- Operands of the rounding instructions with one source. -/
structure FAlu1 where
  g : Guard
  ty : Ty
  rm : Rm
  d : LSpec
  a : LSpec
deriving DecidableEq, Repr

/-- A word whose only operand is B at an address or index A, with a result D. -/
structure Dab where
  g : Guard
  d : LSpec
  a : LSpec
  b : BSrc
deriving DecidableEq, Repr

/-- Operands of SEND and CALLR (R315): ctr none is FN bit 7. The FN field holds the counter in bits 6-3. -/
structure Msg where
  g : Guard
  d : LSpec
  a : LSpec
  b : LSpec
  words : BitVec 3
  ctr : BitVec 4
  noCtr : Bool
deriving DecidableEq, Repr

/-- The entity kinds (R277): lap thread, control-core context, copy engine, routing engine, command stream hart.
kid is the package cluster index (R11). -/
inductive Ent where
  | lap (kid core slot : Nat)
  | ctx (kid cc x : Nat)
  | ce (kid : Nat)
  | re (die : Nat)
  | hart (die : Nat)
  /-- another node of the Creurn fabric, as the sender of inbound traffic (R394) -/
  | far (node : Nat)
deriving DecidableEq, Repr

/-- Where a decode table is held (R342). -/
inductive TabId where
  | core (kid core : Nat)
  | cc (kid cc : Nat)
  | ce (kid : Nat)
  | re (die : Nat)
  | hart (die : Nat)
deriving DecidableEq, Repr

/-! ### Bundles (R86 to R89) -/

/-- A vector specifier (R87). -/
inductive VSpec where
  | v (n : Nat)
  | fl
  | vz
deriving DecidableEq, Repr

/-- The scalar operations with a register and an immediate form (R152). -/
inductive SOp where
  | add | sub | mul | and | or | xor | shl | shr | sra | min | max
deriving DecidableEq, Repr

/-- The second scalar operand: a register (SR) or a 32-bit immediate (SI). -/
inductive SSrc where
  | reg (c : BitVec 6)
  | imm (v : W32)
deriving DecidableEq, Repr

/-- The conditions of the S-slot CMP (R89). -/
inductive SCond where
  | eq | ne | lt | le | gt | ge | ltu | leu | gtu | geu
deriving DecidableEq, Repr

/-- S-slot syllables (R152, R153, R352). -/
inductive SSyl where
  | bin (op : SOp) (d a : BitVec 6) (b : SSrc)
  | mov (d : BitVec 6) (b : SSrc)
  | cmp (q : BitVec 4) (c : SCond) (a : BitVec 6) (b : SSrc)
  | sel (d a : BitVec 6) (b : SSrc) (q : BitVec 4)
  | lea (d a b : BitVec 6) (sh : BitVec 3)
  | leaImm (d a : BitVec 6) (v : W32)
  | grpfind (d a b : BitVec 6)
  | br (disp : W32)
  | jmp (a : BitVec 6) (disp : W32)
  | loopc (d : BitVec 6) (disp : W32)
  | call (d : BitVec 6) (disp : W32)
  | ret (a : BitVec 6)
  | haltc
deriving DecidableEq, Repr

/-- Lane operations of two sources (R155). -/
inductive VBin where
  | add | sub | mul | min | max | and | or | xor | shl
deriving DecidableEq, Repr

/-- The reductions of VRED (R161). -/
inductive VRedOp where
  | sum | min | max
deriving DecidableEq, Repr

/-- The transcendentals (R163). -/
inductive VTrans where
  | exp2 | log2 | rcp | rsq
deriving DecidableEq, Repr

/-- V0 and V1 syllables (R154 to R163); k is the mask field. -/
inductive VSyl where
  | bin (op : VBin) (ty : Ty) (rm : Rm) (k : BitVec 3) (d a b : VSpec)
  | shr (ty : Ty) (arith : Bool) (k : BitVec 3) (d a b : VSpec)
  | fma (ty : Ty) (rm : Rm) (k : BitVec 3) (d a b c : VSpec)
  | pcnt (ty : Ty) (k : BitVec 3) (d a : VSpec)
  | sgn (ty : Ty) (op : SgnOp) (k : BitVec 3) (d a b : VSpec)
  | cmp (ty : Ty) (rel : Rel) (k : BitVec 3) (m : BitVec 3) (a b : VSpec)
  | sel (ty : Ty) (k : BitVec 3) (d a b : VSpec)
  | cls (ty : Ty) (k : BitVec 3) (d a : VSpec)
  | ocFill (ty : Ty) (k : BitVec 3) (d a b : VSpec)
  | ocGet (ty : Ty) (k : BitVec 3) (d a : VSpec)
  | cvt (dty : Ty) (dnk : Nk) (sty : Ty) (snk : Nk) (rm : Rm) (ns : Bool) (k : BitVec 3) (d a : VSpec)
  | scale (ty : Ty) (rm : Rm) (k : BitVec 3) (d a b : VSpec)
  | red (ty : Ty) (op : VRedOp) (rm : Rm) (k : BitVec 3) (d a : VSpec)
  | shuf (ty : Ty) (k : BitVec 3) (d a b : VSpec)
  | bcast (ty : Ty) (lane : BitVec 10) (k : BitVec 3) (d a : VSpec)
  | norm (ty : Ty) (rm : Rm) (k : BitVec 3) (d a : VSpec)
  | trans (op : VTrans) (ty : Ty) (rm : Rm) (ns : Bool) (k : BitVec 3) (d a : VSpec)
  | mov (ty : Ty) (k : BitVec 3) (d a : VSpec)
  | movm (d a : BitVec 3)
  | li (ty : Ty) (imm : BitVec 30) (k : BitVec 3) (d : VSpec)
deriving DecidableEq, Repr

/-- M-slot syllables (R187). -/
inductive MSyl where
  | mma (acc : BitVec 2) (x y : BitVec 6)
  | mmaf (acc : BitVec 2) (x : BitVec 6)
  | mbld (x : BitVec 6)
  | mbldPod (acc : BitVec 2)
  | mrot
  | accdecl (acc : BitVec 2) (x : BitVec 6) (decl : BitVec 25)
  | acczero (acc : BitVec 2)
  | accdrain (acc : BitVec 2) (v : VSpec)
  | accld (acc : BitVec 2) (v : VSpec) (x y : BitVec 6)
  | pins (acc : BitVec 2) (v : VSpec) (x : BitVec 6) (k : BitVec 3)
  | pmerge (acc : BitVec 2) (v : VSpec) (x : BitVec 6)
  | pmergeL (acc : BitVec 2)
  | pfloor (acc : BitVec 2) (v : VSpec)
  | praise (acc : BitVec 2) (v : VSpec)
  | verdrd (acc : BitVec 2) (v : VSpec)
deriving DecidableEq, Repr

/-- LD-slot syllables (R166). -/
inductive LdSyl where
  | vld (d : VSpec) (a b : BitVec 6) (imm : BitVec 18)
  | vlds (ty : Ty) (d : VSpec) (a b : BitVec 6) (imm : BitVec 18)
  | vldh (d : VSpec) (a b : BitVec 6) (imm : BitVec 18)
deriving DecidableEq, Repr

/-- ST-slot syllables (R168). -/
inductive StSyl where
  | vst (ty : Ty) (give : Bool) (k : BitVec 3) (v : VSpec) (a b : BitVec 6) (imm : BitVec 18)
  | vstm (ty : Ty) (give : Bool) (k : BitVec 3) (v : VSpec) (a b : BitVec 6) (imm : BitVec 18)
deriving DecidableEq, Repr

/-- CP-slot syllables (R328). -/
inductive CpSyl where
  | cpgo (x : BitVec 6)
  | cpstat (x : BitVec 6) (wait : Bool)
deriving DecidableEq, Repr

/-- SY-slot syllables (R271, R301, R328). -/
inductive SySyl where
  | hwait (d : BitVec 6)
  | hpeek (d : BitVec 6)
  | hrel (a : BitVec 6)
  | jigld (a : BitVec 6) (n : BitVec 5)
  | jigrun (a : BitVec 6)
  | jigend (wait : Bool)
  | mbwait (d a : BitVec 6)
  | switch
  | rqseed (d a : BitVec 6)
  | seal (a : BitVec 6)
  | fencec
deriving DecidableEq, Repr

/-- One slot of a bundle: NOP, a guarded syllable (q 0 is always), or a word that is no syllable of the slot (R86, R91). -/
inductive Slot (α : Type) where
  | nop
  | op (q : BitVec 4) (x : α)
  | illegal (w : W64)
deriving DecidableEq, Repr

/-- A decoded bundle (R86). -/
structure Bundle where
  s : Slot SSyl
  v0 : Slot VSyl
  v1 : Slot VSyl
  m : Slot MSyl
  ld : Slot LdSyl
  st : Slot StSyl
  cp : Slot CpSyl
  sy : Slot SySyl
deriving DecidableEq, Repr

/-- The five syllables a jig entry holds (R331). -/
structure JigEntry where
  v0 : Slot VSyl
  v1 : Slot VSyl
  m : Slot MSyl
  ld : Slot LdSyl
  st : Slot StSyl
deriving DecidableEq, Repr

/-- An inbound Creurn access as it arrives at this node (R394): a write of bytes, an update, or a message. -/
inductive Inbound where
  | write (node pasid : Nat) (addr : W64) (bytes : Nat) (value : W64)
  | nibble (node pasid : Nat) (addr : W64) (hi : Bool) (value : W64)
  | addm (node pasid : Nat) (addr : W64) (ty : Ty) (value : W64)
  | amo (node pasid : Nat) (addr : W64) (op : AmoOp) (ty : Ty) (value : W64)
  | message (pasid : Nat) (dest : W64) (header : W64) (payload : List W64)
  | reply (node pasid : Nat) (dest : W64) (tag : Nat) (value : W64)
  | answer (req : Nat) (code : Nat)
deriving DecidableEq, Repr

/-- The result of a host ATS translation or PRI request (R235, R210): a DPA page with read, write and execute permission, or none. -/
inductive AtsResult where
  | page (addr : Nat) (rd wr ex : Bool)
  | notPresent
deriving DecidableEq, Repr

/-- A host snoop of a line of host memory (R390), with what the host leaves in it (log 95). -/
structure Snoop where
  line : Nat
  data : BitVec 512
deriving DecidableEq, Repr

/-- Bytes of BAR2 (R387). -/
structure Bar2Span where
  off : Nat
  bytes : Nat
deriving DecidableEq, Repr

/-- The instructions and steps of the opcode table, one constructor per row. -/
inductive Instr where
  | nop
  | br (g : Guard) (disp : BitVec 34)
  | jmp (g : Guard) (d a : LSpec)
  | call (g : Guard) (d : LSpec) (disp : BitVec 34)
  | ret (g : Guard) (a : LSpec)
  | loop (g : Guard) (d : LSpec) (disp : BitVec 34)
  | halt (g : Guard)
  | trap (g : Guard) (imm : BitVec 8)
  | hret (g : Guard)
  | scall (g : Guard) (imm : BitVec 8)
  | srrd (g : Guard) (d : LSpec) (num : BitVec 12)
  | srwr (g : Guard) (a : LSpec) (num : BitVec 12)
  | flgrd (g : Guard) (d : LSpec)
  | flgclr (g : Guard) (m : BitVec 5)
  | bkpt (g : Guard) (imm : BitVec 8)
  | modeset (g : Guard) (a : LSpec) (num : BitVec 12)
  | add (o : Alu) | sub (o : Alu) | mul (o : Alu) | mulh (o : Alu) | mulhn (o : Alu)
  | div (o : Alu) | divn (o : Alu) | rem (o : Alu) | remn (o : Alu)
  | neg (o : Alu1) | abs (o : Alu1)
  | min (o : Alu) | max (o : Alu) | minn (o : Alu) | maxn (o : Alu)
  | mov (g : Guard) (d : LSpec) (b : BSrc)
  | and (o : Alu) | or (o : Alu) | xor (o : Alu) | andn (o : Alu)
  | shl (o : Alu) | shr (o : Alu) | sra (o : Alu) | rot (o : Alu)
  | bfx (g : Guard) (d a : LSpec) (pos len : BitVec 6)
  | bfi (g : Guard) (d a : LSpec) (pos len : BitVec 6)
  | pcnt (o : Alu1) | clz (o : Alu1) | ctz (o : Alu1) | brev (o : Alu1) | bswap (o : Alu1)
  | lea (g : Guard) (d a : LSpec) (disp : Disp)
  | cmp (g : Guard) (ty : Ty) (rel : Rel) (p : Fin 7) (a : LSpec) (b : BSrc)
  | plog (g : Guard) (p pa pb : Fin 7) (tt : BitVec 4)
  | pmov (g : Guard) (d a : LSpec)
  | sel (g : Guard) (d a : LSpec) (b : BSrc) (p : Fin 7)
  | pfxc (g : Guard) (d a b : LSpec)
  | intx (g : Guard) (d a b c : LSpec)
  | fadd (o : FAlu) | fsub (o : FAlu) | fmul (o : FAlu) | fdiv (o : FAlu)
  | fsqrt (o : FAlu1)
  | fma (o : FAlu) (c : LSpec)
  | fmin (o : Alu) | fmax (o : Alu)
  | fcmp (g : Guard) (ty : Ty) (rel : Rel) (p : Fin 7) (a : LSpec) (b : BSrc)
  | fclass (o : Alu1)
  | fsgn (o : Alu) (op : SgnOp)
  | cvt (g : Guard) (dty : Ty) (dnk : Nk) (sty : Ty) (snk : Nk) (rm : Rm) (ns : Bool) (d a : LSpec)
  | cvtd (o : FAlu1)
  | cvte (o : FAlu1) (ns : Bool)
  | frnd (o : FAlu1)
  | ld (g : Guard) (cls : Cls) (ty : Ty) (hi : Bool) (d a : LSpec) (disp : Disp)
  | st (g : Guard) (cls : Cls) (ty : Ty) (hi : Bool) (d a : LSpec) (disp : Disp)
  | ldt (g : Guard) (ty : Ty) (d a eps : LSpec) (disp : Disp)
  | addm (g : Guard) (cls : Cls) (ty : Ty) (d a : LSpec) (disp : Disp)
  | amo (g : Guard) (cls : Cls) (op : AmoOp) (ty : Ty) (d a : LSpec) (b : BSrc)
  | cas (g : Guard) (cls : Cls) (ty : Ty) (d a b : LSpec)
  | sts (g : Guard) (cls : Cls) (ty : Ty) (d a b : LSpec)
  | pref (g : Guard) (a : LSpec) (disp : Disp)
  | topen (g : Guard) (ty : Ty) (nk : Nk) (wide : Bool) (d a b : LSpec)
  | tvalid (g : Guard) (a : LSpec) (b : BSrc)
  | seal (g : Guard) (a : LSpec)
  | tfree (g : Guard) (a : LSpec)
  | tstat (g : Guard) (d a : LSpec)
  | fence (g : Guard) (sc : Scope) (rel acq : Bool)
  | drain (g : Guard) (sc : Scope) (reg : Option LSpec)
  | gidx (g : Guard) (ty : Ty) (a b : LSpec) (sh : BitVec 3)
  | sidx (g : Guard) (ty : Ty) (d a b : LSpec) (sh : BitVec 3)
  | aqclr (g : Guard) (d : LSpec)
  | qstat (g : Guard) (d : LSpec)
  | send (o : Msg)
  | callr (o : Msg)
  | reply (g : Guard) (a b : LSpec)
  | slpush (g : Guard) (a b : LSpec)
  | slpop (g : Guard) (d : LSpec)
  | slsteal (g : Guard) (d : LSpec)
  | mjob (g : Guard) (d a b : LSpec) (cc : BitVec 1)
  | launch (g : Guard) (d a b : LSpec)
  | dtld (g : Guard) (a : LSpec) (t : TabSel)
  | dtrd (g : Guard) (d : LSpec) (b : BSrc) (t : TabSel)
  | srfence (g : Guard) (re : Bool) (rec : Option LSpec)
  | tbfill (g : Guard) (a b : LSpec)
  | tbfillVec (g : Guard) (a : LSpec)
  | tbinv (g : Guard) (d : LSpec) (key : Option LSpec) (seqOnly : Bool)
  | tbprobe (g : Guard) (d a : LSpec)
  | grpfind (o : Dab)
  | sqset (o : Dab) | sqsetOp (o : Dab) | sqsetUser (o : Dab) | sqsetPrio (o : Dab)
  | sqget (g : Guard) (d a : LSpec) (w : BitVec 2)
  | sqbuild (g : Guard) (d a b c : LSpec)
  | erset (g : Guard) (a b c : LSpec)
  | erget (o : Dab) (w : Fin 3)
  | tolset (g : Guard) (a b c : LSpec) (die : BitVec 2)
  | tbind (g : Guard) (ctr : BitVec 4)
  | tcset (g : Guard) (b : BSrc) (ctr : BitVec 4)
  | tcrd (g : Guard) (d : LSpec) (ctr : BitVec 4)
  | pegarm (o : Dab) | pegarmAdd (o : Dab) | pegwait (o : Dab)
  | rcsnap (g : Guard) (a : LSpec) (b : BSrc)
  | rcrd (g : Guard) (d : LSpec) (b : BSrc)
  | bump (g : Guard) (d : LSpec) (b : BSrc) (al : BitVec 3)
  | bumpset (g : Guard) (d a b : LSpec) (al : BitVec 3)
  | xcopy (g : Guard) (ty : Ty) (d a b c : LSpec)
  | xconv (g : Guard) (dty : Ty) (dnk : Nk) (sty : Ty) (snk : Nk) (rm : Rm) (ns : Bool) (d a b c : LSpec)
  | route (g : Guard) (d a : LSpec)
  | cmdnext (g : Guard) (d : BitVec 7)
  | cmddone (g : Guard) (a b c : LSpec) (sys irq : Bool)
  | bundleIssue (b : Bundle)
  | resultLanding (kid cc : Nat)
  | storeBufferWrite (kid cc x : Nat)
  | sealEffect (kid cc x : Nat)
  | cpgoPush (kid cc x : Nat)
  | freezeOverrun (kid cc : Nat)
  | stepStart (kid cc : Nat)
  | stepRetire (kid cc : Nat)
  | randomBlock (kid : Nat)
  | ctxResume (kid cc x : Nat)
  | ctxResumeAt (kid cc x : Nat) (a : W64)
  | ctxKill (kid cc x : Nat)
  | threadResume (kid core slot : Nat)
  | threadResumeAt (kid core slot : Nat) (a : W64)
  | threadKill (kid core slot : Nat)
  | escalatedFault (e : Ent)
  | longOpLanding (e : Ent)
  | accessAnswerLands (e : Ent)
  | gatherLanding (e : Ent)
  | postedStorePlace (req : Nat)
  | releaseComplete (e : Ent)
  | mumodeWrite (e : Ent)
  | decodeTableReplace (e : Ent)
  | syncStallWatchdog (kid core slot : Nat)
  | controllerRetry (req : Nat)
  | fabricAccess (req : Nat)
  | messageAccept (req : Nat)
  | messageResend (req : Nat)
  | replyLanding (req : Nat)
  | sealTimer (kid idx : Nat)
  | writeArrivesHome (req : Nat)
  | globalReadAnswer (req : Nat)
  | leaseExpiry (kid pasid line : Nat)
  | translationRequest (req : Nat)
  | walkEnd (die pasid page : Nat)
  | translationInvalidate (pasid base pages : Nat)
  | invalidationComplete
  | cchEviction (kid pasid line : Nat)
  | forcedDrain (kid line : Nat)
  | drainFold (req : Nat)
  | tolerantLoadAnswer (req : Nat)
  | regionSwitch (e : Ent)
  | mjobStart (kid cc : Nat)
  | mjobReply (e : Ent)
  | engineCommandStart (e : Ent)
  | engineRunEnd (e : Ent)
  | qtailWrite (q : Nat) (v : W64)
  | queueEnable (q : Nat)
  | queueStop (q : Nat)
  | queueDestroy (q : Nat)
  | queueKill (q : Nat)
  | queueClear (q : Nat)
  | registerWrite (addr : W64) (v : W64)
  | launchStart (die : Nat)
  | launchFinish (die gen : Nat)
  | dependenceCheck (die : Nat)
  | barrierCompletion (q : Nat)
  | preemption (die gen : Nat)
  | restore (die gen : Nat)
  | hostRead (addr : Nat) (bytes : Nat)
  | hostWrite (addr : Nat) (bytes : Nat) (v : BitVec 512)
  | backInvalidationResponse (line : Nat)
  | hostSnoop (x : Snoop)
  | barAccess (write : Bool) (off bytes : Nat) (v : W64)
  | inboundCreurnAccess (x : Inbound)
  | flitRetry (port : Nat)
  | linkSilenceTimeout (port : Nat)
  | resetNotice (port : Nat)
  | linkTraining (port peer : Nat)
  | farLinkFailure (port : Nat)
  | powerWindow (watts : Nat) (temp : Nat)
  | thermalTrip
  | packageReset
  | bootStage
  | getVersion
  | getCapabilities
  | negotiateAlgorithms (sm2 sm3 : Bool)
  | getDigests
  | getCertificate (slot : Nat)
  | challenge (slot : Nat) (nonce : W64)
  | getMeasurements (index : Nat)
  | spdmSessionRequest
  | firmwareUpdate (index version : Nat)
  | illegalInstruction (w : W64)
  | atsTranslationAnswer (pasid page : Nat) (r : AtsResult)
  | pageRequestAnswer (e : Ent) (ok : Bool)
  | temperature95c
  | haltOnBreakArm (arm : Bool) (restart : Option Ent)
  /-- a read, or a write of a value -/
  | msixTableAccess (a : Bar2Span) (write : Option W64)
deriving DecidableEq, Repr

end Sys2Proof
end

