-- ==== Sys2Proof/WellFormed.lean ====
section
/-! DEFINITION. Which instructions are well formed: the checks of R70, R74, R76 to R80, R82, R87 and of the entries that depend on the word alone. -/

namespace Sys2Proof

/-- R74: a code legal as a source. -/
def LSpec.canRead : LSpec → Bool
  | .aq => false
  | _ => true

/-- R74: a code legal as a destination of an instruction other than CMP, FCMP, PLOG and PMOV. -/
def LSpec.canWrite : LSpec → Bool
  | .s _ | .z | .port _ | .aq => true
  | .h n => decide (8 ≤ n.toNat)
  | _ => false

/-- R74: a predicate code. -/
def LSpec.isPred : LSpec → Bool
  | .p _ => true
  | _ => false

/-- R76: integer TY. -/
def Ty.isInt : Ty → Bool
  | .i64 | .i32 | .i16 | .i8 | .n64 | .n32 | .n16 | .n8 => true
  | _ => false

/-- R76: float TY. -/
def Ty.isFloat : Ty → Bool
  | .f64 | .f32 | .f16 | .bf16 => true
  | _ => false

/-- R43: the signed integer kinds, i4 included. -/
def Ty.isSigned : Ty → Bool
  | .i64 | .i32 | .i16 | .i8 | .i4 => true
  | _ => false

/-- An integer kind of R43 in a conversion: integer TY or i4 (R133). -/
def Ty.isIntKind (t : Ty) : Bool := t.isInt || t == .i4

/-- TY 0x0 to 0xC: the types that fill whole bytes and name themselves. -/
def Ty.isPlain : Ty → Bool
  | .i4 | .narrow | .dt => false
  | _ => true

/-- R77: NK 0x0 to 0x6. -/
def Nk.isScalar : Nk → Bool
  | .e4m3 | .e5m2 | .e4m3z | .e3m2 | .e2m3 | .e2m1 | .e8m0 => true
  | _ => false

/-- R77: the block formats, NK 0x8 to 0xD. -/
def Nk.isMx (n : Nk) : Bool := !n.isScalar

/-- R48: an NK that `.ns` excludes as a destination; mxi8, which R48 does not name, is taken as one (DEDUCED, log 81). -/
def Nk.nsExcluded : Nk → Bool
  | .e3m2 | .e2m3 | .e2m1 | .mxe3m2 | .mxe2m3 | .mxe2m1 | .mxi8 => true
  | _ => false

/-- R70: source B; a 32-bit literal of an f16 or bf16 operation has bits 31-16 zero. -/
def BSrc.okFor (t : Ty) : BSrc → Bool
  | .reg r => r.canRead
  | .lit32 v => !(t == .f16 || t == .bf16) || decide (v.toNat < 65536)
  | .lit64 _ => true

/-- R44: the modes of a lap rounding instruction (not SR). -/
def Rm.lapOk : Rm → Bool
  | .sr => false
  | _ => true

/-- R76, R77: an NK stands only beside TY 0xE. -/
def nkFor (t : Ty) (n : Nk) : Bool := t == .narrow || n == .e4m3

/-- R133, R48: what makes a conversion legal, but for the types it takes. -/
def cvtOk (dty : Ty) (dnk : Nk) (sty : Ty) (snk : Nk) (rm : Rm) (ns : Bool) : Bool :=
  nkFor dty dnk && nkFor sty snk && !(dty == sty && dnk == snk)
  && (!(dty.isIntKind && sty.isIntKind) || rm == .rne)
  && (!ns || !(dty.isIntKind || (dty == .narrow && dnk.nsExcluded)))

/-- R121: the relations CMP takes. -/
def Rel.isOrder : Rel → Bool
  | .unordered | .ordered => false
  | _ => true

def Alu.okInt (o : Alu) : Bool := o.ty.isInt && o.d.canWrite && o.a.canRead && o.b.okFor o.ty

def Alu1.okInt (o : Alu1) : Bool := o.ty.isInt && o.d.canWrite && o.a.canRead

def FAlu.ok (o : FAlu) : Bool :=
  o.ty.isFloat && o.rm.lapOk && o.d.canWrite && o.a.canRead && o.b.okFor o.ty

def FAlu1.ok (o : FAlu1) : Bool := o.ty.isFloat && o.rm.lapOk && o.d.canWrite && o.a.canRead

def Alu.okFloat (o : Alu) : Bool := o.ty.isFloat && o.d.canWrite && o.a.canRead && o.b.okFor o.ty

def Dab.ok (o : Dab) : Bool := o.d.canWrite && o.a.canRead && o.b.okFor .b64

def Msg.ok (o : Msg) (hasD : Bool) : Bool :=
  (if hasD then o.d.canWrite else o.d == .s 0) && o.a.canRead && o.b.canRead

/-- R243: the classes and types of LD. -/
def ldOk (cls : Cls) (ty : Ty) (hi : Bool) (d : LSpec) : Bool :=
  (match cls with
    | .plain | .acquire _ | .take | .peek => d.canWrite && d != .aq
    | .relaxed => d == .aq
    | _ => false)
  && (ty.isPlain || ty == .i4) && (ty != .i4 || cls == .plain || cls == .relaxed) && (!hi || ty == .i4)

/-- R243: the classes and types of ST. -/
def stOk (cls : Cls) (ty : Ty) (hi : Bool) (d : LSpec) : Bool :=
  (match cls with | .plain | .relaxed | .release _ | .give => true | _ => false)
  && d.canRead && (ty.isPlain || ty == .i4) && (ty != .i4 || cls == .plain || cls == .relaxed) && (!hi || ty == .i4)

/-- SC 0 to 3: plain, relaxed, acquire, release. -/
def Cls.isRmw : Cls → Bool
  | .plain | .relaxed | .acquire _ | .release _ => true
  | _ => false

/-- R87: a vector source of the V slots. -/
def VSpec.okSrc : VSpec → Bool
  | .v n => decide (n < 768)
  | _ => true

/-- R87: a vector destination, or a vector field of another slot: no `fl`. -/
def VSpec.okDst : VSpec → Bool
  | .v n => decide (n < 768)
  | .fl => false
  | .vz => true

/-- A real register number at most m. -/
def VSpec.le (m : Nat) : VSpec → Bool
  | .v n => decide (n ≤ m)
  | _ => false

/-- R157: the lane types that hold whole lanes. -/
def Ty.isLane : Ty → Bool
  | .i4 => false
  | _ => true

/-- S-slot checks (R152). -/
def SSyl.wf : SSyl → Bool
  | .cmp q _ _ _ => q != 0
  | .sel _ _ _ q => q != 0
  | _ => true

/-- Rounding field of a V operation that rounds floats (R154). -/
def vrm (t : Ty) (rm : Rm) : Bool := if t.isFloat then rm.lapOk else rm == .rne

/-- V-slot checks (R154 to R163). -/
def VSyl.wf : VSyl → Bool
  | .bin op ty rm _ d a b => d.okDst && a.okSrc && b.okSrc &&
      (match op with
        | .add | .sub | .mul => (ty.isFloat || ty.isInt) && vrm ty rm
        | .min | .max => (ty.isFloat || ty.isInt) && rm == .rne
        | .and | .or | .xor | .shl => (ty.isInt || ty == .b64) && rm == .rne)
  | .shr ty _ _ d a b => (ty.isInt || ty == .b64) && d.okDst && a.okSrc && b.okSrc
  | .fma ty rm _ d a b c => ty.isFloat && rm.lapOk && d.okDst && a.okSrc && b.okSrc && c.okSrc
  | .pcnt ty _ d a => (ty.isInt || ty == .b64) && d.okDst && a.okSrc
  | .sgn ty _ _ d a b => ty.isFloat && d.okDst && a.okSrc && b.okSrc
  | .cmp ty rel _ _ a b => (ty.isFloat || ((ty.isInt || ty == .b64) && rel.isOrder)) && a.okSrc && b.okSrc
  | .sel ty _ d a b => ty.isLane && d.okDst && a.okSrc && b.okSrc
  | .cls ty _ d a => ty.isFloat && d.okDst && a.okSrc
  | .ocFill ty _ d a b => (ty == .f32 || ty == .f64) && d.okDst && a.okSrc && b.okSrc
  | .ocGet ty _ d a => (ty == .f32 || ty == .f64) && d.okDst && a.okSrc
  | .cvt dty dnk sty snk rm ns k d a =>
      dty != .b64 && sty != .b64 && cvtOk dty dnk sty snk rm ns && d.okDst && a.okSrc
      && (!(dnk.isMx || snk.isMx) || (k == 0 && (d == .vz || d.le 766) && a.le 766))
  | .scale ty rm _ d a b => ty.isFloat && rm.lapOk && d.okDst && a.okSrc && b.okSrc
  | .red ty op rm _ d a => (ty.isFloat || ty.isInt) && d.okDst && a.okSrc
      && (if op == .sum then vrm ty rm else rm == .rne)
  | .shuf ty _ d a b => ty.isLane && d.okDst && a.okSrc && b.okSrc
  | .bcast ty _ _ d a => ty.isLane && d.okDst && a.okSrc
  | .norm ty rm _ d a => ty.isFloat && rm.lapOk && d.okDst && a.okSrc
  | .trans _ ty rm ns _ d a => (ty.isFloat || ty == .dt) && rm.lapOk && (!ns || ty == .dt) && d.okDst && a.okSrc
  | .mov ty _ d a => ty.isLane && d.okDst && a.okSrc
  | .movm _ _ => true
  | .li ty imm _ d => (ty.isInt || ty.isFloat) && d.okDst
      && (!(ty == .f16 || ty == .bf16) || decide (imm.toNat < 65536))

/-- M-slot checks (R187 to R194). -/
def MSyl.wf : MSyl → Bool
  | .accdrain _ v => v == .vz || v.le 704
  | .accld _ v _ _ => v.le 704
  | .pins _ v _ _ => v.le 766
  | .pmerge _ v _ => v.okDst
  | .pfloor _ v => v.okDst
  | .praise _ v => v.okDst
  | .verdrd _ v => v.le 766
  | .accdecl _ x d => x == 0 || d.extractLsb' 4 2 == 2#2
  | _ => true

def LdSyl.wf : LdSyl → Bool
  | .vld d _ _ _ => d.okDst
  | .vlds ty d _ _ _ => ty.isPlain && d.okDst
  | .vldh d _ _ _ => d.okDst

def StSyl.wf : StSyl → Bool
  | .vst ty _ _ v _ _ _ => ty.isPlain && v.okDst
  | .vstm ty _ _ v _ _ _ => ty.isPlain && v.okDst

def SySyl.wf : SySyl → Bool
  | .jigld _ n => decide (1 ≤ n.toNat ∧ n.toNat ≤ 16)
  | _ => true

/-- A slot that is NOP or a well-formed syllable. -/
def Slot.wf {α : Type} (f : α → Bool) : Slot α → Bool
  | .nop => true
  | .op _ x => f x
  | .illegal _ => false

/-- A bundle R86 to R89 make legal in every slot. -/
def Bundle.wf (b : Bundle) : Bool :=
  b.s.wf SSyl.wf && b.v0.wf VSyl.wf && b.v1.wf VSyl.wf && b.m.wf MSyl.wf
  && b.ld.wf LdSyl.wf && b.st.wf StSyl.wf && b.cp.wf (fun _ => true) && b.sy.wf SySyl.wf

/-- The instruction words the opcode maps allow (R72 step 3 and R91 step 1, for what the word alone decides). Steps that are
no instruction words are not well-formed instructions: no word stands for them. -/
def Instr.wf : Instr → Bool
  | .nop => true
  | .br _ _ => true
  | .jmp _ d a => d.canWrite && a.canRead
  | .call _ d _ => d.canWrite
  | .ret _ a => a.canRead
  | .loop _ d _ => d.canWrite && d.canRead
  | .halt _ | .trap _ _ | .hret _ | .scall _ _ => true
  | .srrd _ d n => d.canWrite && (n.toNat ∈ [0, 1, 2, 3, 4, 5, 6, 0x100, 0x200, 0x201, 0x202, 0x203]
      || decide (0x210 ≤ n.toNat ∧ n.toNat ≤ 0x247))
  | .srwr _ a n => a.canRead && (n.toNat ∈ [0, 2, 6, 0x200, 0x201, 0x202]
      || decide (0x218 ≤ n.toNat ∧ n.toNat ≤ 0x21F) || decide (0x238 ≤ n.toNat ∧ n.toNat ≤ 0x23F))
  | .flgrd _ d => d.canWrite
  | .flgclr _ _ | .bkpt _ _ => true
  | .modeset _ a n => a.canRead && (n.toNat == 0x203 || decide (0x240 ≤ n.toNat ∧ n.toNat ≤ 0x247))
  | .add o | .sub o | .mul o | .mulh o | .mulhn o | .div o | .divn o | .rem o | .remn o
  | .min o | .max o | .minn o | .maxn o | .and o | .or o | .xor o | .andn o
  | .shl o | .shr o | .sra o | .rot o => o.okInt
  | .neg o | .abs o | .pcnt o | .clz o | .ctz o | .brev o => o.okInt
  | .bswap o => o.okInt && o.ty != .i8 && o.ty != .n8
  | .mov _ d b => d.canWrite && b.okFor .b64
  | .bfx _ d a pos len => d.canWrite && a.canRead && decide (pos.toNat + len.toNat + 1 ≤ 64)
  | .bfi _ d a pos len => d.canWrite && d.canRead && a.canRead && decide (pos.toNat + len.toNat + 1 ≤ 64)
  | .lea _ d a _ => d.canWrite && a.canRead
  | .cmp _ ty rel _ a b => ty.isInt && rel.isOrder && a.canRead && b.okFor ty
  | .plog _ _ _ _ _ => true
  | .pmov _ d a => (d.isPred && a.canRead) || (d.canWrite && a.isPred)
  | .sel _ d a b _ => d.canWrite && a.canRead && b.okFor .b64
  | .pfxc _ d a b => d.canWrite && a.canRead && b.canRead
  | .intx _ d a b c => d.canWrite && a.canRead && b.canRead && c.canRead
  | .fadd o | .fsub o | .fmul o | .fdiv o => o.ok
  | .fsqrt o | .frnd o => o.ok
  | .fma o c => o.ok && c.canRead
  | .fmin o | .fmax o => o.okFloat
  | .fcmp _ ty _ _ a b => ty.isFloat && a.canRead && b.okFor ty
  | .fclass o => o.ty.isFloat && o.d.canWrite && o.a.canRead
  | .fsgn o _ => o.okFloat
  | .cvt _ dty dnk sty snk rm ns d a =>
      dty != .b64 && dty != .dt && sty != .b64 && sty != .dt && dnk.isScalar && snk.isScalar
      && rm.lapOk && cvtOk dty dnk sty snk rm ns && d.canWrite && a.canRead
  | .cvtd o => (o.ty.isInt || o.ty.isFloat) && o.rm.lapOk && o.d.canWrite && o.a.canRead
  | .cvte o _ => (o.ty.isInt || o.ty.isFloat) && o.rm.lapOk && o.d.canWrite && o.a.canRead
  | .ld _ cls ty hi d a _ => ldOk cls ty hi d && a.canRead
  | .st _ cls ty hi d a _ => stOk cls ty hi d && a.canRead
  | .ldt _ ty d a e _ => (ty == .f64 || ty == .f32 || ty == .bf16) && d.canWrite && a.canRead && e.canRead
  | .addm _ cls ty d a _ => (cls == .plain || cls == .relaxed)
      && (ty == .i64 || ty == .i32 || ty == .f64 || ty == .f32 || ty == .bf16) && d.canRead && a.canRead
  | .amo _ cls _ ty d a b => cls.isRmw && (ty == .i64 || ty == .i32 || ty == .n64 || ty == .n32)
      && (cls != .relaxed || d == .z) && d.canWrite && a.canRead && b.okFor ty
  | .cas _ cls ty d a b => cls.isRmw
      && (ty == .b64 || ty == .i64 || ty == .i32 || ty == .n64 || ty == .n32)
      && d.canWrite && d.canRead && a.canRead && b.canRead
  | .sts _ cls ty d a b => (match cls with | .plain | .relaxed | .release _ => true | _ => false)
      && (ty.isInt || ty.isFloat) && d.canRead && a.canRead && b.canRead
  | .pref _ a _ => a.canRead
  | .topen _ ty nk wide d a b => !(ty.isInt || ty == .b64) && nkFor ty nk && (!wide || ty == .i4)
      && d.canWrite && a.canRead && b.canRead
  | .tvalid _ a b => a.canRead && b.okFor .b64
  | .seal _ a | .tfree _ a => a.canRead
  | .tstat _ d a => d.canWrite && a.canRead
  | .fence _ _ rel acq => rel || acq
  | .drain _ _ r => match r with | some x => x.canRead | none => true
  | .gidx _ ty a b _ => ty.isPlain && a.canRead && b.canRead
  | .sidx _ ty d a b _ => ty.isPlain && d.canRead && a.canRead && b.canRead
  | .aqclr _ d | .qstat _ d => d.canWrite
  | .send o => o.ok false
  | .callr o => o.ok true
  | .reply _ a b | .slpush _ a b => a.canRead && b.canRead
  | .slpop _ d | .slsteal _ d => d.canWrite
  | .mjob _ d a b _ | .launch _ d a b => d.canWrite && a.canRead && b.canRead
  | .dtld _ a _ => a.canRead
  | .dtrd _ d b _ => d.canWrite && b.okFor .b64
  | .srfence _ _ r => match r with | some x => x.canRead | none => true
  | .tbfill _ a b => a.canRead && b.canRead
  | .tbfillVec _ a => a.canRead
  | .tbinv _ d k q => d.canWrite && (match k with | some x => x.canRead | none => !q)
  | .tbprobe _ d a => d.canWrite && a.canRead
  | .grpfind o | .sqset o | .sqsetOp o | .sqsetUser o | .sqsetPrio o => o.ok
  | .sqget _ d a _ => d.canWrite && a.canRead
  | .sqbuild _ d a b c => d.canWrite && a.canRead && b.canRead && c.canRead
  | .erset _ a b c => a.canRead && b.canRead && c.canRead
  | .erget o _ => o.ok
  | .tolset _ a b c _ => a.canRead && b.canRead && c.canRead
  | .tbind _ _ => true
  | .tcset _ b _ => b.okFor .b64
  | .tcrd _ d _ => d.canWrite
  | .pegarm o | .pegarmAdd o | .pegwait o => o.ok
  | .rcsnap _ a b => a.canRead && b.okFor .b64
  | .rcrd _ d b | .bump _ d b _ => d.canWrite && b.okFor .b64
  | .bumpset _ d a b _ => d.canWrite && a.canRead && b.canRead
  | .xcopy _ ty d a b c => ty.isPlain && d.canWrite && d.canRead && a.canRead && b.canRead && c.canRead
  | .xconv _ dty dnk sty snk rm ns d a b c =>
      dty != .b64 && sty != .b64 && !(dty == .narrow && sty == .narrow) && dnk.isScalar && snk.isScalar
      && rm.lapOk && cvtOk dty dnk sty snk rm ns
      && d.canWrite && d.canRead && a.canRead && b.canRead && c.canRead
  | .route _ d a => d.canWrite && d.canRead && a.canRead
  | .cmdnext _ d => decide (d.toNat ≤ 119)
  | .cmddone _ a b c _ _ => a.canRead && b.canRead && c.canRead
  | .bundleIssue b => b.wf
  | .resultLanding _ _ | .storeBufferWrite _ _ _ | .sealEffect _ _ _ | .cpgoPush _ _ _ | .freezeOverrun _ _
  | .stepStart _ _ | .stepRetire _ _ | .randomBlock _ | .ctxResume _ _ _ | .ctxResumeAt _ _ _ _ | .ctxKill _ _ _
  | .threadResume _ _ _ | .threadResumeAt _ _ _ _ | .threadKill _ _ _ | .escalatedFault _ | .longOpLanding _
  | .accessAnswerLands _ | .gatherLanding _ | .postedStorePlace _ | .releaseComplete _ | .mumodeWrite _
  | .decodeTableReplace _ | .syncStallWatchdog _ _ _ | .controllerRetry _ | .fabricAccess _ | .messageAccept _
  | .messageResend _ | .replyLanding _ | .sealTimer _ _ | .writeArrivesHome _ | .globalReadAnswer _
  | .leaseExpiry _ _ _ | .translationRequest _ | .walkEnd _ _ _ | .translationInvalidate _ _ _
  | .invalidationComplete | .cchEviction _ _ _ | .forcedDrain _ _ | .drainFold _ | .tolerantLoadAnswer _
  | .regionSwitch _ | .mjobStart _ _ | .mjobReply _ | .engineCommandStart _ | .engineRunEnd _ | .qtailWrite _ _
  | .queueEnable _ | .queueStop _ | .queueDestroy _ | .queueKill _ | .queueClear _ | .registerWrite _ _
  | .launchStart _ | .launchFinish _ _ | .dependenceCheck _ | .barrierCompletion _ | .preemption _ _ | .restore _ _
  | .hostRead _ _ | .hostWrite _ _ _ | .backInvalidationResponse _ | .hostSnoop _ | .barAccess _ _ _ _
  | .inboundCreurnAccess _ | .flitRetry _ | .linkSilenceTimeout _ | .resetNotice _ | .linkTraining _ _
  | .farLinkFailure _ | .powerWindow _ _ | .thermalTrip | .packageReset | .bootStage | .getVersion
  | .getCapabilities | .negotiateAlgorithms _ _ | .getDigests | .getCertificate _ | .challenge _ _
  | .getMeasurements _ | .spdmSessionRequest | .firmwareUpdate _ _ | .illegalInstruction _
  | .atsTranslationAnswer _ _ _ | .pageRequestAnswer _ _ | .temperature95c | .haltOnBreakArm _ _
  | .msixTableAccess _ _ => false

end Sys2Proof
end

