-- ==== Sys2Proof/Decode.lean ====
section
/-! DEFINITION. The decoder of lap words and bundles, total on any words, rejecting by name; after it the encoder, from the
same layouts (R68 to R70, R82, R86 to R89, and the tables R315, R328, R344, R368, R187). -/

namespace Sys2Proof

/-- Why a word is no instruction; every one of these raises illegal instruction, 0x01 (R72 steps 1 to 3). -/
inductive DecErr where
  /-- The guard 0b1000 (R71). -/
  | guard
  /-- L = 0b11, a literal where none is allowed, or a literal word with its reserved half set (R70). -/
  | literal
  /-- No instruction has this opcode (R81). -/
  | unassigned (op : BitVec 8)
  /-- A reserved field is nonzero (R72). -/
  | reserved
  /-- A specifier, type, kind, rounding mode, class, scope or function code that names nothing (R74 to R80). -/
  | code
  /-- A code that the opcode's entry does not allow (R82). -/
  | operand
deriving DecidableEq, Repr

/-- The fields of a lap word in the R layout (R69), with the literal word (0 when there is none). The other layouts are
groups of these fields. -/
structure LapFields where
  g : BitVec 4
  l : BitVec 2
  op : BitVec 8
  d : BitVec 8
  a : BitVec 8
  b : BitVec 8
  rm : BitVec 3
  ty : BitVec 4
  sc : BitVec 3
  c : BitVec 8
  fn : BitVec 8
  lit : W64
deriving DecidableEq, Repr

/-- R68, R69: the fields of a word and the literal word that follows it. -/
def LapFields.ofWord (w lit : W64) : LapFields :=
  { g := w.extractLsb' 60 4, l := w.extractLsb' 58 2, op := w.extractLsb' 50 8, d := w.extractLsb' 42 8,
    a := w.extractLsb' 34 8, b := w.extractLsb' 26 8, rm := w.extractLsb' 23 3, ty := w.extractLsb' 19 4,
    sc := w.extractLsb' 16 3, c := w.extractLsb' 8 8, fn := w.extractLsb' 0 8, lit := lit }

/-- R68, R69: the word of the fields. -/
def LapFields.toWord (f : LapFields) : W64 :=
  f.g ++ f.l ++ f.op ++ f.d ++ f.a ++ f.b ++ f.rm ++ f.ty ++ f.sc ++ f.c ++ f.fn

/-- R69: the 34-bit immediate of I and J format. -/
def LapFields.imm34 (f : LapFields) : BitVec 34 := f.b ++ f.rm ++ f.ty ++ f.sc ++ f.c ++ f.fn

/-- R69: the displacement of M format. -/
def LapFields.disp19 (f : LapFields) : BitVec 19 := f.sc ++ f.c ++ f.fn

/-- R70: the words an instruction with this L field takes. -/
def LapFields.words (f : LapFields) : Nat := if f.l = 0 then 1 else 2

/-! ### Codes of the fields -/

/-- R74: p1 to p7 have the codes 0xA1 to 0xA7. -/
def decPred (x : BitVec 8) : Option (Fin 7) :=
  if h : 0xA1 ≤ x.toNat ∧ x.toNat ≤ 0xA7 then some ⟨x.toNat - 0xA1, by omega⟩ else none

def encPred (i : Fin 7) : BitVec 8 := BitVec.ofNat 8 (0xA1 + i.val)

/-- R74: the register a specifier names. -/
def decSpec (x : BitVec 8) : Option LSpec :=
  if x.toNat < 0x80 then some (.s (x.extractLsb' 0 7))
  else if 0x90 ≤ x.toNat ∧ x.toNat ≤ 0x9F then some (.h (x.extractLsb' 0 4))
  else match x.toNat with
    | 0x80 => some .z
    | 0x81 => some (.port .north)
    | 0x82 => some (.port .east)
    | 0x83 => some (.port .south)
    | 0x84 => some (.port .west)
    | 0x85 => some .aq
    | 0x86 => some .dq
    | 0x87 => some .mb
    | 0x88 => some .tid
    | 0x89 => some .cid
    | 0x8A => some .kid
    | 0x8B => some .lap
    | 0x8C => some .clk
    | _ => (decPred x).map .p

def encSpec : LSpec → BitVec 8
  | .s n => n.setWidth 8
  | .z => 0x80
  | .port .north => 0x81
  | .port .east => 0x82
  | .port .south => 0x83
  | .port .west => 0x84
  | .aq => 0x85
  | .dq => 0x86
  | .mb => 0x87
  | .tid => 0x88
  | .cid => 0x89
  | .kid => 0x8A
  | .lap => 0x8B
  | .clk => 0x8C
  | .h n => (9#4) ++ n
  | .p i => encPred i

/-- R71: the guard. -/
def decGuard (x : BitVec 4) : Option Guard :=
  if h0 : x.toNat = 0 then some .always
  else if h : x.toNat ≤ 7 then some (.on ⟨x.toNat - 1, by omega⟩)
  else if h8 : x.toNat = 8 then none
  else some (.off ⟨x.toNat - 9, by omega⟩)

def encGuard : Guard → BitVec 4
  | .always => 0
  | .on i => BitVec.ofNat 4 (i.val + 1)
  | .off i => BitVec.ofNat 4 (i.val + 9)

/-- R76: the type of a TY code. -/
def decTy (x : BitVec 4) : Ty :=
  match x.toNat with
  | 0 => .b64 | 1 => .i64 | 2 => .i32 | 3 => .i16 | 4 => .i8 | 5 => .n64 | 6 => .n32 | 7 => .n16
  | 8 => .n8 | 9 => .f64 | 10 => .f32 | 11 => .f16 | 12 => .bf16 | 13 => .i4 | 14 => .narrow | _ => .dt

def encTy : Ty → BitVec 4
  | .b64 => 0 | .i64 => 1 | .i32 => 2 | .i16 => 3 | .i8 => 4 | .n64 => 5 | .n32 => 6 | .n16 => 7
  | .n8 => 8 | .f64 => 9 | .f32 => 10 | .f16 => 11 | .bf16 => 12 | .i4 => 13 | .narrow => 14 | .dt => 15

/-- R77: the format of an NK code. -/
def decNk (x : BitVec 4) : Option Nk :=
  match x.toNat with
  | 0 => some .e4m3 | 1 => some .e5m2 | 2 => some .e4m3z | 3 => some .e3m2 | 4 => some .e2m3 | 5 => some .e2m1
  | 6 => some .e8m0 | 8 => some .mxe4m3 | 9 => some .mxe5m2 | 10 => some .mxe3m2 | 11 => some .mxe2m3
  | 12 => some .mxe2m1 | 13 => some .mxi8 | _ => none

def encNk : Nk → BitVec 4
  | .e4m3 => 0 | .e5m2 => 1 | .e4m3z => 2 | .e3m2 => 3 | .e2m3 => 4 | .e2m1 => 5 | .e8m0 => 6
  | .mxe4m3 => 8 | .mxe5m2 => 9 | .mxe3m2 => 10 | .mxe2m3 => 11 | .mxe2m1 => 12 | .mxi8 => 13

/-- R80, R44: the rounding mode of an RM code. -/
def decRm (x : BitVec 3) : Option Rm :=
  match x.toNat with
  | 0 => some .rne | 1 => some .rtz | 2 => some .rdn | 3 => some .rup | 4 => some .rna | 5 => some .sr | 6 => some .dyn
  | _ => none

def encRm : Rm → BitVec 3
  | .rne => 0 | .rtz => 1 | .rdn => 2 | .rup => 3 | .rna => 4 | .sr => 5 | .dyn => 6

/-- R78: the scope of a code. -/
def decScope (x : BitVec 3) : Option Scope :=
  match x.toNat with
  | 0 => some .thread | 1 => some .core | 2 => some .cluster | 3 => some .die | 4 => some .package | 5 => some .system
  | _ => none

def encScope : Scope → BitVec 3
  | .thread => 0 | .core => 1 | .cluster => 2 | .die => 3 | .package => 4 | .system => 5

/-- R78, R79: the class of an SC code, with its scope bits. -/
def decCls (sc scope : BitVec 3) : Option Cls :=
  match sc.toNat with
  | 2 => (decScope scope).map .acquire
  | 3 => (decScope scope).map .release
  | 0 => if scope = 0 then some .plain else none
  | 1 => if scope = 0 then some .relaxed else none
  | 4 => if scope = 0 then some .take else none
  | 5 => if scope = 0 then some .give else none
  | 6 => if scope = 0 then some .peek else none
  | _ => none

/-- R78: the SC code of a class. -/
def encCls : Cls → BitVec 3
  | .plain => 0 | .relaxed => 1 | .acquire _ => 2 | .release _ => 3 | .take => 4 | .give => 5 | .peek => 6

/-- R79: the scope bits of a class. -/
def encClsScope : Cls → BitVec 3
  | .acquire s | .release s => encScope s
  | _ => 0

/-- R82: the relation of an FN value. -/
def decRel (n : Nat) : Option Rel :=
  match n with
  | 0 => some .eq | 1 => some .ne | 2 => some .lt | 3 => some .le | 4 => some .gt | 5 => some .ge
  | 6 => some .unordered | 7 => some .ordered | _ => none

def encRel : Rel → Nat
  | .eq => 0 | .ne => 1 | .lt => 2 | .le => 3 | .gt => 4 | .ge => 5 | .unordered => 6 | .ordered => 7

/-- R82: the operation of AMO's FN. -/
def decAmo (n : Nat) : Option AmoOp :=
  match n with
  | 0 => some .add | 1 => some .and | 2 => some .or | 3 => some .xor | 4 => some .min | 5 => some .max
  | 6 => some .minn | 7 => some .maxn | 8 => some .swap | _ => none

def encAmo : AmoOp → Nat
  | .add => 0 | .and => 1 | .or => 2 | .xor => 3 | .min => 4 | .max => 5 | .minn => 6 | .maxn => 7 | .swap => 8

/-- R82, R158: the sign operation of a code. -/
def decSgn (n : Nat) : Option SgnOp :=
  match n with
  | 0 => some .copy | 1 => some .neg | 2 => some .xor | _ => none

def encSgn : SgnOp → Nat
  | .copy => 0 | .neg => 1 | .xor => 2

/-- R344: the table of an FN value. -/
def decTab (n : Nat) : Option TabSel :=
  match n with
  | 0 => some .own | 1 => some .cc0 | 2 => some .cc1 | _ => none

def encTab : TabSel → Nat
  | .own => 0 | .cc0 => 1 | .cc1 => 2

/-! ### Operand forms -/

/-- R70: source B, or the literal in its place. -/
def LapFields.bsrc (f : LapFields) : Option BSrc :=
  match f.l.toNat with
  | 0 => (decSpec f.b).map .reg
  | 1 => if f.b = 0 ∧ f.lit.extractLsb' 32 32 = 0#32 then some (.lit32 (f.lit.setWidth 32)) else none
  | 2 => if f.b = 0 then some (.lit64 f.lit) else none
  | _ => none

/-- R70: the displacement of M format, or the literal in its place. -/
def LapFields.disp (f : LapFields) : Option Disp :=
  match f.l.toNat with
  | 0 => some (.imm f.disp19)
  | 1 => if f.disp19 = 0 ∧ f.lit.extractLsb' 32 32 = 0#32 then some (.lit32 (f.lit.setWidth 32)) else none
  | 2 => if f.disp19 = 0 then some (.lit64 f.lit) else none
  | _ => none

/-- Fields that must be zero where an instruction does not name them (R74, R80, R82). -/
def LapFields.noRm (f : LapFields) : Bool := f.rm == 0
def LapFields.noMid (f : LapFields) : Bool := f.rm == 0 && f.ty == 0 && f.sc == 0
def LapFields.noLit (f : LapFields) : Bool := f.l == 0

/-- A fallible decoding: a reserved field that is set, then a code that names nothing. -/
def decWith (zero : Bool) (x : Option Instr) : Except DecErr Instr :=
  if zero then (match x with | some i => .ok i | none => .error .code) else .error .reserved

/-- D, A, B and a type; RM, SC, C and FN are zero. -/
def LapFields.alu (f : LapFields) (g : Guard) : Option Alu := do
  let d ← decSpec f.d
  let a ← decSpec f.a
  let b ← f.bsrc
  some { g := g, ty := decTy f.ty, d := d, a := a, b := b }

def LapFields.alu1 (f : LapFields) (g : Guard) : Option Alu1 := do
  let d ← decSpec f.d
  let a ← decSpec f.a
  some { g := g, ty := decTy f.ty, d := d, a := a }

def LapFields.falu (f : LapFields) (g : Guard) : Option FAlu := do
  let d ← decSpec f.d
  let a ← decSpec f.a
  let b ← f.bsrc
  let rm ← decRm f.rm
  some { g := g, ty := decTy f.ty, rm := rm, d := d, a := a, b := b }

def LapFields.falu1 (f : LapFields) (g : Guard) (ty : Ty) : Option FAlu1 := do
  let d ← decSpec f.d
  let a ← decSpec f.a
  let rm ← decRm f.rm
  some { g := g, ty := ty, rm := rm, d := d, a := a }

def LapFields.dab (f : LapFields) (g : Guard) : Option Dab := do
  let d ← decSpec f.d
  let a ← decSpec f.a
  let b ← f.bsrc
  some { g := g, d := d, a := a, b := b }

/-- R315: SEND and CALLR. -/
def LapFields.msg (f : LapFields) (g : Guard) : Option Msg := do
  let d ← decSpec f.d
  let a ← decSpec f.a
  let b ← decSpec f.b
  some { g := g, d := d, a := a, b := b, words := f.fn.extractLsb' 0 3, ctr := f.fn.extractLsb' 3 4,
         noCtr := f.fn.getLsbD 7 }

/-- R81, R82: row 0x0 of the opcode map. -/
def decRow0 (f : LapFields) (g : Guard) : Except DecErr Instr :=
  match f.op.toNat with
  | 0x00 => decWith (f.g == 0 && f.noLit && f.d == 0 && f.a == 0 && f.imm34 == 0) (some .nop)
  | 0x01 => decWith (f.d == 0x80 && f.a == 0 && f.noLit) (some (.br g f.imm34))
  | 0x02 => decWith (f.b == 0 && f.noMid && f.c == 0 && f.fn == 0 && f.noLit) (do
      some (.jmp g (← decSpec f.d) (← decSpec f.a)))
  | 0x03 => decWith (f.a == 0 && f.noLit) (do some (.call g (← decSpec f.d) f.imm34))
  | 0x04 => decWith (f.d == 0 && f.b == 0 && f.noMid && f.c == 0 && f.fn == 0 && f.noLit) (do
      some (.ret g (← decSpec f.a)))
  | 0x05 => decWith (f.a == 0 && f.noLit) (do some (.loop g (← decSpec f.d) f.imm34))
  | 0x06 => decWith (f.d == 0 && f.a == 0 && f.imm34 == 0 && f.noLit) (some (.halt g))
  | 0x07 => decWith (f.d == 0 && f.a == 0 && f.imm34.extractLsb' 8 26 == 0#26 && f.noLit) (some (.trap g f.fn))
  | 0x08 => decWith (f.d == 0 && f.a == 0 && f.imm34 == 0 && f.noLit) (some (.hret g))
  | 0x09 => decWith (f.d == 0 && f.a == 0 && f.imm34.extractLsb' 8 26 == 0#26 && f.noLit) (some (.scall g f.fn))
  | 0x0A => decWith (f.a == 0 && f.imm34.extractLsb' 12 22 == 0#22 && f.noLit) (do
      some (.srrd g (← decSpec f.d) (f.imm34.extractLsb' 0 12)))
  | 0x0B => decWith (f.d == 0 && f.imm34.extractLsb' 12 22 == 0#22 && f.noLit) (do
      some (.srwr g (← decSpec f.a) (f.imm34.extractLsb' 0 12)))
  | 0x0C => decWith (f.a == 0 && f.imm34 == 0 && f.noLit) (do some (.flgrd g (← decSpec f.d)))
  | 0x0D => decWith (f.d == 0 && f.a == 0 && f.b == 0 && f.noMid && f.c == 0 && f.fn.extractLsb' 5 3 == 0#3 && f.noLit)
      (some (.flgclr g (f.fn.extractLsb' 0 5)))
  | 0x0E => decWith (f.d == 0 && f.a == 0 && f.imm34.extractLsb' 8 26 == 0#26 && f.noLit) (some (.bkpt g f.fn))
  | 0x0F => decWith (f.d == 0 && f.imm34.extractLsb' 12 22 == 0#22 && f.noLit) (do
      some (.modeset g (← decSpec f.a) (f.imm34.extractLsb' 0 12)))
  | _ => .error (.unassigned f.op)

/-- An R-format word with D, A, B and an integer type. -/
def decAlu (f : LapFields) (g : Guard) (k : Alu → Instr) : Except DecErr Instr :=
  decWith (f.rm == 0 && f.sc == 0 && f.c == 0 && f.fn == 0) ((f.alu g).map k)

/-- An R-format word with D, A and a type. -/
def decAlu1 (f : LapFields) (g : Guard) (k : Alu1 → Instr) : Except DecErr Instr :=
  decWith (f.b == 0 && f.rm == 0 && f.sc == 0 && f.c == 0 && f.fn == 0 && f.noLit) ((f.alu1 g).map k)

/-- R81, R82: row 0x1. -/
def decRow1 (f : LapFields) (g : Guard) : Except DecErr Instr :=
  match f.op.toNat with
  | 0x10 => decAlu f g .add
  | 0x11 => decAlu f g .sub
  | 0x12 => decAlu f g .mul
  | 0x13 => decAlu f g .mulh
  | 0x14 => decAlu f g .mulhn
  | 0x15 => decAlu f g .div
  | 0x16 => decAlu f g .divn
  | 0x17 => decAlu f g .rem
  | 0x18 => decAlu f g .remn
  | 0x19 => decAlu1 f g .neg
  | 0x1A => decAlu1 f g .abs
  | 0x1B => decAlu f g .min
  | 0x1C => decAlu f g .max
  | 0x1D => decAlu f g .minn
  | 0x1E => decAlu f g .maxn
  | 0x1F => decWith (f.a == 0 && f.noMid && f.c == 0 && f.fn == 0) (do some (.mov g (← decSpec f.d) (← f.bsrc)))
  | _ => .error (.unassigned f.op)

/-- R81, R82, R118: row 0x2. -/
def decRow2 (f : LapFields) (g : Guard) : Except DecErr Instr :=
  match f.op.toNat with
  | 0x20 => decAlu f g .and
  | 0x21 => decAlu f g .or
  | 0x22 => decAlu f g .xor
  | 0x23 => decAlu f g .andn
  | 0x24 => decAlu f g .shl
  | 0x25 => decAlu f g .shr
  | 0x26 => decAlu f g .sra
  | 0x27 => decAlu f g .rot
  | 0x28 => decWith (f.b == 0 && f.noMid && f.fn.extractLsb' 6 2 == 0#2 && f.c.extractLsb' 6 2 == 0#2 && f.noLit) (do
      some (.bfx g (← decSpec f.d) (← decSpec f.a) (f.fn.extractLsb' 0 6) (f.c.extractLsb' 0 6)))
  | 0x29 => decWith (f.b == 0 && f.noMid && f.fn.extractLsb' 6 2 == 0#2 && f.c.extractLsb' 6 2 == 0#2 && f.noLit) (do
      some (.bfi g (← decSpec f.d) (← decSpec f.a) (f.fn.extractLsb' 0 6) (f.c.extractLsb' 0 6)))
  | 0x2A => decAlu1 f g .pcnt
  | 0x2B => decAlu1 f g .clz
  | 0x2C => decAlu1 f g .ctz
  | 0x2D => decAlu1 f g .brev
  | 0x2E => decAlu1 f g .bswap
  | 0x2F => decWith (f.b == 0 && f.rm == 0 && f.ty == 0) (do
      some (.lea g (← decSpec f.d) (← decSpec f.a) (← f.disp)))
  | _ => .error (.unassigned f.op)

/-- R81, R82, R121 to R125: row 0x3. -/
def decRow3 (f : LapFields) (g : Guard) : Except DecErr Instr :=
  match f.op.toNat with
  | 0x30 => decWith (f.rm == 0 && f.sc == 0 && f.c == 0) (do
      some (.cmp g (decTy f.ty) (← decRel f.fn.toNat) (← decPred f.d) (← decSpec f.a) (← f.bsrc)))
  | 0x31 => decWith (f.noMid && f.c == 0 && f.fn.extractLsb' 4 4 == 0#4 && f.noLit) (do
      some (.plog g (← decPred f.d) (← decPred f.a) (← decPred f.b) (f.fn.extractLsb' 0 4)))
  | 0x32 => decWith (f.b == 0 && f.noMid && f.c == 0 && f.fn == 0 && f.noLit) (do
      some (.pmov g (← decSpec f.d) (← decSpec f.a)))
  | 0x33 => decWith (f.noMid && f.fn == 0) (do
      some (.sel g (← decSpec f.d) (← decSpec f.a) (← f.bsrc) (← decPred f.c)))
  | 0x34 => decWith (f.noMid && f.c == 0 && f.fn == 0 && f.noLit) (do
      some (.pfxc g (← decSpec f.d) (← decSpec f.a) (← decSpec f.b)))
  | 0x35 => decWith (f.noMid && f.fn == 0 && f.noLit) (do
      some (.intx g (← decSpec f.d) (← decSpec f.a) (← decSpec f.b) (← decSpec f.c)))
  | _ => .error (.unassigned f.op)

/-- An R-format rounding word with D, A and B. -/
def decFAlu (f : LapFields) (g : Guard) (k : FAlu → Instr) : Except DecErr Instr :=
  decWith (f.sc == 0 && f.c == 0 && f.fn == 0) ((f.falu g).map k)

/-- R81, R82: row 0x4. -/
def decRow4 (f : LapFields) (g : Guard) : Except DecErr Instr :=
  match f.op.toNat with
  | 0x40 => decFAlu f g .fadd
  | 0x41 => decFAlu f g .fsub
  | 0x42 => decFAlu f g .fmul
  | 0x43 => decFAlu f g .fdiv
  | 0x44 => decWith (f.b == 0 && f.sc == 0 && f.c == 0 && f.fn == 0 && f.noLit) ((f.falu1 g (decTy f.ty)).map .fsqrt)
  | 0x45 => decWith (f.sc == 0 && f.fn == 0) (do some (.fma (← f.falu g) (← decSpec f.c)))
  | 0x46 => decAlu f g .fmin
  | 0x47 => decAlu f g .fmax
  | 0x48 => decWith (f.rm == 0 && f.sc == 0 && f.c == 0) (do
      some (.fcmp g (decTy f.ty) (← decRel f.fn.toNat) (← decPred f.d) (← decSpec f.a) (← f.bsrc)))
  | 0x49 => decAlu1 f g .fclass
  | 0x4A => decWith (f.rm == 0 && f.sc == 0 && f.c == 0) (do
      some (.fsgn (← f.alu g) (← decSgn f.fn.toNat)))
  | _ => .error (.unassigned f.op)

/-- R81, R82, R133, R134: row 0x5. -/
def decRow5 (f : LapFields) (g : Guard) : Except DecErr Instr :=
  match f.op.toNat with
  | 0x50 => decWith (f.b == 0 && f.sc == 0 && f.fn.extractLsb' 4 3 == 0#3 && f.noLit) (do
      some (.cvt g (decTy f.ty) (← decNk (f.fn.extractLsb' 0 4)) (decTy (f.c.extractLsb' 0 4))
        (← decNk (f.c.extractLsb' 4 4)) (← decRm f.rm) (f.fn.getLsbD 7) (← decSpec f.d) (← decSpec f.a)))
  | 0x51 => decWith (f.b == 0 && f.sc == 0 && f.c == 0 && f.fn == 0 && f.noLit) ((f.falu1 g (decTy f.ty)).map .cvtd)
  | 0x52 => decWith (f.b == 0 && f.ty == 15 && f.sc == 0 && f.c.extractLsb' 4 4 == 0#4 && f.fn.extractLsb' 0 7 == 0#7
        && f.noLit)
      (do some (.cvte (← f.falu1 g (decTy (f.c.extractLsb' 0 4))) (f.fn.getLsbD 7)))
  | 0x53 => decWith (f.b == 0 && f.sc == 0 && f.c == 0 && f.fn == 0 && f.noLit) ((f.falu1 g (decTy f.ty)).map .frnd)
  | _ => .error (.unassigned f.op)

/-- R81, R82, R79: row 0x6. -/
def decRow6 (f : LapFields) (g : Guard) : Except DecErr Instr :=
  match f.op.toNat with
  | 0x60 => decWith (f.b.extractLsb' 3 4 == 0#4) (do
      some (.ld g (← decCls f.rm (f.b.extractLsb' 0 3)) (decTy f.ty) (f.b.getLsbD 7) (← decSpec f.d) (← decSpec f.a)
        (← f.disp)))
  | 0x61 => decWith (f.b.extractLsb' 3 4 == 0#4) (do
      some (.st g (← decCls f.rm (f.b.extractLsb' 0 3)) (decTy f.ty) (f.b.getLsbD 7) (← decSpec f.d) (← decSpec f.a)
        (← f.disp)))
  | 0x62 => decWith (f.rm == 7) (do
      some (.ldt g (decTy f.ty) (← decSpec f.d) (← decSpec f.a) (← decSpec f.b) (← f.disp)))
  | 0x63 => decWith (f.b == 0) (do
      some (.addm g (← decCls f.rm 0) (decTy f.ty) (← decSpec f.d) (← decSpec f.a) (← f.disp)))
  | 0x64 => decWith (f.rm == 0 && f.c.extractLsb' 3 5 == 0#5) (do
      some (.amo g (← decCls f.sc (f.c.extractLsb' 0 3)) (← decAmo f.fn.toNat) (decTy f.ty) (← decSpec f.d)
        (← decSpec f.a) (← f.bsrc)))
  | 0x65 => decWith (f.rm == 0 && f.c.extractLsb' 3 5 == 0#5 && f.fn == 0 && f.noLit) (do
      some (.cas g (← decCls f.sc (f.c.extractLsb' 0 3)) (decTy f.ty) (← decSpec f.d) (← decSpec f.a) (← decSpec f.b)))
  | 0x66 => decWith (f.rm == 0 && f.c.extractLsb' 3 5 == 0#5 && f.fn == 0 && f.noLit) (do
      some (.sts g (← decCls f.sc (f.c.extractLsb' 0 3)) (decTy f.ty) (← decSpec f.d) (← decSpec f.a) (← decSpec f.b)))
  | 0x67 => decWith (f.d == 0 && f.b == 0 && f.rm == 0 && f.ty == 0) (do
      some (.pref g (← decSpec f.a) (← f.disp)))
  | _ => .error (.unassigned f.op)

/-- R81, R82, and the entries of Memories II and III: row 0x8. -/
def decRow8 (f : LapFields) (g : Guard) : Except DecErr Instr :=
  match f.op.toNat with
  | 0x80 => decWith (f.rm == 0 && f.sc == 0 && f.c == 0 && f.fn.extractLsb' 5 3 == 0#3 && f.noLit) (do
      some (.topen g (decTy f.ty) (← decNk (f.fn.extractLsb' 0 4)) (f.fn.getLsbD 4) (← decSpec f.d) (← decSpec f.a)
        (← decSpec f.b)))
  | 0x81 => decWith (f.d == 0 && f.noMid && f.c == 0 && f.fn == 0) (do
      some (.tvalid g (← decSpec f.a) (← f.bsrc)))
  | 0x82 => decWith (f.d == 0 && f.b == 0 && f.noMid && f.c == 0 && f.fn == 0 && f.noLit) (do
      some (.seal g (← decSpec f.a)))
  | 0x83 => decWith (f.d == 0 && f.b == 0 && f.noMid && f.c == 0 && f.fn == 0 && f.noLit) (do
      some (.tfree g (← decSpec f.a)))
  | 0x84 => decWith (f.b == 0 && f.noMid && f.c == 0 && f.fn == 0 && f.noLit) (do
      some (.tstat g (← decSpec f.d) (← decSpec f.a)))
  | 0x88 => decWith (f.d == 0 && f.a == 0 && f.b == 0 && f.rm == 0 && f.ty == 0 && f.c == 0 && f.noLit) (do
      let sc ← decScope f.sc
      match f.fn.toNat with
      | 0 => some (.fence g sc true true)
      | 1 => some (.fence g sc true false)
      | 2 => some (.fence g sc false true)
      | _ => none)
  | 0x89 => decWith (f.d == 0 && f.b == 0 && f.rm == 0 && f.ty == 0 && f.c == 0 && f.noLit) (do
      let sc ← decScope f.sc
      match f.fn.toNat with
      | 0 => if f.a = 0 then some (.drain g sc none) else none
      | 1 => some (.drain g sc (some (← decSpec f.a)))
      | _ => none)
  | _ => .error (.unassigned f.op)

/-- R81, R315: row 0x9. -/
def decRow9 (f : LapFields) (g : Guard) : Except DecErr Instr :=
  match f.op.toNat with
  | 0x90 => decWith (f.d == 0 && f.rm == 0 && f.sc == 0 && f.c == 0 && f.fn.extractLsb' 3 5 == 0#5 && f.noLit) (do
      some (.gidx g (decTy f.ty) (← decSpec f.a) (← decSpec f.b) (f.fn.extractLsb' 0 3)))
  | 0x91 => decWith (f.rm == 0 && f.sc == 0 && f.c == 0 && f.fn.extractLsb' 3 5 == 0#5 && f.noLit) (do
      some (.sidx g (decTy f.ty) (← decSpec f.d) (← decSpec f.a) (← decSpec f.b) (f.fn.extractLsb' 0 3)))
  | 0x92 => decWith (f.a == 0 && f.imm34 == 0 && f.noLit) (do some (.aqclr g (← decSpec f.d)))
  | 0x93 => decWith (f.a == 0 && f.imm34 == 0 && f.noLit) (do some (.qstat g (← decSpec f.d)))
  | 0x94 => decWith (f.d == 0 && f.noMid && f.c == 0 && f.noLit) ((f.msg g).map .send)
  | 0x95 => decWith (f.noMid && f.c == 0 && f.noLit) ((f.msg g).map .callr)
  | 0x96 => decWith (f.d == 0 && f.noMid && f.c == 0 && f.fn == 0 && f.noLit) (do
      some (.reply g (← decSpec f.a) (← decSpec f.b)))
  | 0x97 => decWith (f.d == 0 && f.noMid && f.c == 0 && f.fn == 0 && f.noLit) (do
      some (.slpush g (← decSpec f.a) (← decSpec f.b)))
  | 0x98 => decWith (f.a == 0 && f.imm34 == 0 && f.noLit) (do some (.slpop g (← decSpec f.d)))
  | 0x99 => decWith (f.a == 0 && f.imm34 == 0 && f.noLit) (do some (.slsteal g (← decSpec f.d)))
  | 0x9A => decWith (f.noMid && f.c == 0 && f.fn.extractLsb' 1 7 == 0#7 && f.noLit) (do
      some (.mjob g (← decSpec f.d) (← decSpec f.a) (← decSpec f.b) (f.fn.extractLsb' 0 1)))
  | 0x9B => decWith (f.noMid && f.c == 0 && f.fn == 0 && f.noLit) (do
      some (.launch g (← decSpec f.d) (← decSpec f.a) (← decSpec f.b)))
  | _ => .error (.unassigned f.op)

/-- R81, R344: row 0xA. -/
def decRowA (f : LapFields) (g : Guard) : Except DecErr Instr :=
  match f.op.toNat with
  | 0xA0 => decWith (f.d == 0 && f.b == 0 && f.noMid && f.c == 0 && f.noLit) (do
      some (.dtld g (← decSpec f.a) (← decTab f.fn.toNat)))
  | 0xA1 => decWith (f.a == 0 && f.noMid && f.c == 0) (do
      some (.dtrd g (← decSpec f.d) (← f.bsrc) (← decTab f.fn.toNat)))
  | 0xA2 => decWith (f.d == 0 && f.b == 0 && f.noMid && f.c == 0 && f.fn.extractLsb' 2 6 == 0#6 && f.noLit) (
      if f.fn.getLsbD 0 then (if f.a = 0 then some (.srfence g (f.fn.getLsbD 1) none) else none)
      else (decSpec f.a).map fun a => .srfence g (f.fn.getLsbD 1) (some a))
  | 0xA3 => decWith (f.d == 0 && f.noMid && f.c == 0 && f.noLit) (
      match f.fn.toNat with
      | 0 => do some (.tbfill g (← decSpec f.a) (← decSpec f.b))
      | 1 => if f.b = 0 then (decSpec f.a).map (.tbfillVec g) else none
      | _ => none)
  | 0xA4 => decWith (f.b == 0 && f.noMid && f.c == 0 && f.noLit) (do
      let d ← decSpec f.d
      match f.fn.toNat with
      | 0 => some (.tbinv g d (some (← decSpec f.a)) false)
      | 1 => some (.tbinv g d (some (← decSpec f.a)) true)
      | 2 => if f.a = 0 then some (.tbinv g d none false) else none
      | _ => none)
  | 0xA5 => decWith (f.b == 0 && f.noMid && f.c == 0 && f.fn == 0 && f.noLit) (do
      some (.tbprobe g (← decSpec f.d) (← decSpec f.a)))
  | 0xA6 => decWith (f.noMid && f.c == 0 && f.fn == 0) ((f.dab g).map .grpfind)
  | 0xA7 => decWith (f.noMid && f.c == 0) (do
      let o ← f.dab g
      match f.fn.toNat with
      | 0 => some (.sqset o)
      | 1 => some (.sqsetOp o)
      | 2 => some (.sqsetUser o)
      | 3 => some (.sqsetPrio o)
      | _ => none)
  | 0xA8 => decWith (f.b == 0 && f.noMid && f.c == 0 && f.fn.extractLsb' 2 6 == 0#6 && f.noLit) (do
      some (.sqget g (← decSpec f.d) (← decSpec f.a) (f.fn.extractLsb' 0 2)))
  | 0xA9 => decWith (f.noMid && f.fn == 0 && f.noLit) (do
      some (.sqbuild g (← decSpec f.d) (← decSpec f.a) (← decSpec f.b) (← decSpec f.c)))
  | 0xAA => decWith (f.d == 0 && f.noMid && f.fn == 0 && f.noLit) (do
      some (.erset g (← decSpec f.a) (← decSpec f.b) (← decSpec f.c)))
  | 0xAB => decWith (f.noMid && f.c == 0) (do
      let o ← f.dab g
      match f.fn.toNat with
      | 0 => some (.erget o 0)
      | 1 => some (.erget o 1)
      | 2 => some (.erget o 2)
      | _ => none)
  | 0xAC => decWith (f.d == 0 && f.noMid && f.fn.extractLsb' 2 6 == 0#6 && f.noLit) (do
      some (.tolset g (← decSpec f.a) (← decSpec f.b) (← decSpec f.c) (f.fn.extractLsb' 0 2)))
  | _ => .error (.unassigned f.op)

/-- R81, R368: row 0xB. -/
def decRowB (f : LapFields) (g : Guard) : Except DecErr Instr :=
  match f.op.toNat with
  | 0xB0 => decWith (f.d == 0 && f.a == 0 && f.b == 0 && f.noMid && f.c == 0 && f.fn.extractLsb' 4 4 == 0#4 && f.noLit)
      (some (.tbind g (f.fn.extractLsb' 0 4)))
  | 0xB1 => decWith (f.d == 0 && f.a == 0 && f.noMid && f.c == 0 && f.fn.extractLsb' 4 4 == 0#4) (do
      some (.tcset g (← f.bsrc) (f.fn.extractLsb' 0 4)))
  | 0xB2 => decWith (f.a == 0 && f.b == 0 && f.noMid && f.c == 0 && f.fn.extractLsb' 4 4 == 0#4 && f.noLit) (do
      some (.tcrd g (← decSpec f.d) (f.fn.extractLsb' 0 4)))
  | 0xB3 => decWith (f.noMid && f.c == 0) (do
      let o ← f.dab g
      match f.fn.toNat with
      | 0 => some (.pegarm o)
      | 1 => some (.pegarmAdd o)
      | _ => none)
  | 0xB4 => decWith (f.noMid && f.c == 0 && f.fn == 0) ((f.dab g).map .pegwait)
  | 0xB5 => decWith (f.d == 0 && f.noMid && f.c == 0 && f.fn == 0) (do
      some (.rcsnap g (← decSpec f.a) (← f.bsrc)))
  | 0xB6 => decWith (f.a == 0 && f.noMid && f.c == 0 && f.fn == 0) (do
      some (.rcrd g (← decSpec f.d) (← f.bsrc)))
  | 0xB7 => decWith (f.a == 0 && f.noMid && f.c == 0 && f.fn.extractLsb' 3 5 == 0#5) (do
      some (.bump g (← decSpec f.d) (← f.bsrc) (f.fn.extractLsb' 0 3)))
  | 0xB8 => decWith (f.noMid && f.c == 0 && f.fn.extractLsb' 3 5 == 0#5 && f.noLit) (do
      some (.bumpset g (← decSpec f.d) (← decSpec f.a) (← decSpec f.b) (f.fn.extractLsb' 0 3)))
  | _ => .error (.unassigned f.op)

/-- R81, R315, R340, R344: row 0xC. -/
def decRowC (f : LapFields) (g : Guard) : Except DecErr Instr :=
  match f.op.toNat with
  | 0xC0 => decWith (f.rm == 0 && f.sc == 0 && f.fn == 0 && f.noLit) (do
      some (.xcopy g (decTy f.ty) (← decSpec f.d) (← decSpec f.a) (← decSpec f.b) (← decSpec f.c)))
  | 0xC1 => decWith (f.sc.extractLsb' 1 2 == 0#2 && f.noLit) (do
      let nk ← decNk (f.fn.extractLsb' 4 4)
      let dty := decTy f.ty
      let sty := decTy (f.fn.extractLsb' 0 4)
      if dty == .narrow || sty == .narrow || nk == .e4m3 then
        some (.xconv g dty (if dty = .narrow then nk else .e4m3) sty (if sty = .narrow then nk else .e4m3) (← decRm f.rm)
          (f.sc.getLsbD 0) (← decSpec f.d) (← decSpec f.a) (← decSpec f.b) (← decSpec f.c))
      else none)
  | 0xC2 => decWith (f.b == 0 && f.noMid && f.c == 0 && f.fn == 0 && f.noLit) (do
      some (.route g (← decSpec f.d) (← decSpec f.a)))
  | 0xC3 => decWith (f.a == 0 && f.imm34 == 0 && f.d.getLsbD 7 == false && f.noLit)
      (some (.cmdnext g (f.d.extractLsb' 0 7)))
  | 0xC4 => decWith (f.d == 0 && f.noMid && f.fn.extractLsb' 2 6 == 0#6 && f.noLit) (do
      some (.cmddone g (← decSpec f.a) (← decSpec f.b) (← decSpec f.c) (f.fn.getLsbD 0) (f.fn.getLsbD 1)))
  | _ => .error (.unassigned f.op)

/-- R81: the row of the opcode map. -/
def decOp (f : LapFields) (g : Guard) : Except DecErr Instr :=
  match (f.op.extractLsb' 4 4).toNat with
  | 0x0 => decRow0 f g
  | 0x1 => decRow1 f g
  | 0x2 => decRow2 f g
  | 0x3 => decRow3 f g
  | 0x4 => decRow4 f g
  | 0x5 => decRow5 f g
  | 0x6 => decRow6 f g
  | 0x8 => decRow8 f g
  | 0x9 => decRow9 f g
  | 0xA => decRowA f g
  | 0xB => decRowB f g
  | 0xC => decRowC f g
  | _ => .error (.unassigned f.op)

/-- R72 steps 1 to 3: the instruction of a lap word, for what the word alone decides. -/
def decodeLap (f : LapFields) : Except DecErr Instr :=
  match decGuard f.g with
  | none => .error .guard
  | some g =>
    if f.l = 3 then .error .literal
    else match decOp f g with
      | .error e => .error e
      | .ok i => if i.wf then .ok i else .error .operand

/-! ### Bundles -/

/-- R86: the guard, the opcode and the slot fields of a syllable. -/
def sylQ (w : W64) : BitVec 4 := w.extractLsb' 60 4
def sylOp (w : W64) : Nat := (w.extractLsb' 52 8).toNat

/-- R86: a slot of a bundle: NOP, a syllable that passes its checks, or an illegal word. -/
def decSlot {α : Type} (dec : W64 → Option α) (wf : α → Bool) (w : W64) : Slot α :=
  if w = 0 then .nop
  else match dec w with
    | some x => if wf x then .op (sylQ w) x else .illegal w
    | none => .illegal w

/-- R89, R152: the scalar operation of opcodes 0x01 to 0x0B. -/
def decSOp (n : Nat) : Option SOp :=
  match n with
  | 1 => some .add | 2 => some .sub | 3 => some .mul | 4 => some .and | 5 => some .or | 6 => some .xor
  | 7 => some .shl | 8 => some .shr | 9 => some .sra | 10 => some .min | 11 => some .max | _ => none

def encSOp : SOp → BitVec 8
  | .add => 1 | .sub => 2 | .mul => 3 | .and => 4 | .or => 5 | .xor => 6 | .shl => 7 | .shr => 8 | .sra => 9
  | .min => 10 | .max => 11

/-- R89: the condition of the S-slot CMP. -/
def decSCond (n : Nat) : Option SCond :=
  match n with
  | 0 => some .eq | 1 => some .ne | 2 => some .lt | 3 => some .le | 4 => some .gt | 5 => some .ge
  | 6 => some .ltu | 7 => some .leu | 8 => some .gtu | 9 => some .geu | _ => none

def encSCond : SCond → BitVec 8
  | .eq => 0 | .ne => 1 | .lt => 2 | .le => 3 | .gt => 4 | .ge => 5 | .ltu => 6 | .leu => 7 | .gtu => 8 | .geu => 9

/-- R88, R152: the S slot, forms SR and SI, from the operation, D, A, FN and the second operand. -/
def decSRI (op : Nat) (d a : BitVec 6) (fn : BitVec 8) (b : SSrc) (w : W64) (imm : Bool) : Option SSyl :=
  match op with
  | 0x0C => if a = 0 ∧ fn = 0 then some (.mov d b) else none
  | 0x0D => if d.extractLsb' 4 2 = 0#2 then do some (.cmp (d.extractLsb' 0 4) (← decSCond fn.toNat) a b) else none
  | 0x0E => if fn.extractLsb' 4 4 = 0#4 then some (.sel d a b (fn.extractLsb' 0 4)) else none
  | 0x0F =>
    if imm then (if fn = 0 then some (.leaImm d a (w.extractLsb' 0 32)) else none)
    else if fn.extractLsb' 3 5 = 0#5 then some (.lea d a (w.extractLsb' 34 6) (fn.extractLsb' 0 3)) else none
  | 0x16 => if !imm ∧ fn = 0 then some (.grpfind d a (w.extractLsb' 34 6)) else none
  | n => if fn = 0 then do some (.bin (← decSOp n) d a b) else none

/-- R88, R89, R152, R153: the S slot. -/
def decS (w : W64) : Option SSyl :=
  let d : BitVec 6 := w.extractLsb' 46 6
  let a : BitVec 6 := w.extractLsb' 40 6
  let disp : W32 := w.extractLsb' 0 32
  let mid : BitVec 8 := w.extractLsb' 32 8
  let op := sylOp w
  if 0x41 ≤ op ∧ op ≤ 0x4F then decSRI (op - 0x40) d a mid (.imm disp) w true
  else if op ≤ 0x0F ∨ op = 0x16 then
    (if w.extractLsb' 0 26 = 0#26 then decSRI op d a (w.extractLsb' 26 8) (.reg (w.extractLsb' 34 6)) w false else none)
  else if mid ≠ 0 then none
  else match op with
    | 0x10 => if d = 0 ∧ a = 0 then some (.br disp) else none
    | 0x11 => if d = 0 then some (.jmp a disp) else none
    | 0x12 => if a = 0 then some (.loopc d disp) else none
    | 0x13 => if a = 0 then some (.call d disp) else none
    | 0x14 => if d = 0 ∧ disp = 0 then some (.ret a) else none
    | 0x15 => if d = 0 ∧ a = 0 ∧ disp = 0 then some .haltc else none
    | _ => none

/-- R87: a vector specifier. -/
def decV (x : BitVec 10) : Option VSpec :=
  if x.toNat < 768 then some (.v x.toNat) else if x.toNat = 768 then some .fl
  else if x.toNat = 769 then some .vz else none

def encV : VSpec → BitVec 10
  | .v n => BitVec.ofNat 10 n
  | .fl => 768
  | .vz => 769

/-- R88: the fields of a V-slot syllable. -/
structure VFields where
  d : BitVec 10
  a : BitVec 10
  b : BitVec 10
  c : BitVec 10
  ty : BitVec 4
  rm : BitVec 3
  k : BitVec 3
  r1 : BitVec 1
  ns : BitVec 1
deriving DecidableEq, Repr

def VFields.ofWord (w : W64) : VFields :=
  { d := w.extractLsb' 42 10, a := w.extractLsb' 32 10, b := w.extractLsb' 22 10, c := w.extractLsb' 12 10,
    ty := w.extractLsb' 8 4, rm := w.extractLsb' 5 3, k := w.extractLsb' 2 3, r1 := w.extractLsb' 1 1,
    ns := w.extractLsb' 0 1 }

/-- R88: the V-slot bits 51 to 0 of the fields. -/
def VFields.bits (f : VFields) : BitVec 52 :=
  f.d ++ f.a ++ f.b ++ f.c ++ f.ty ++ f.rm ++ f.k ++ f.r1 ++ f.ns

/-- A V-slot operation of two sources. -/
def decVBin (op : VBin) (f : VFields) : Option VSyl :=
  if f.c = 0 ∧ f.ns = 0 then do
    some (.bin op (decTy f.ty) (← decRm f.rm) f.k (← decV f.d) (← decV f.a) (← decV f.b)) else none

def decVTrans (op : VTrans) (f : VFields) : Option VSyl :=
  if f.b = 0 ∧ f.c = 0 then do
    some (.trans op (decTy f.ty) (← decRm f.rm) (f.ns == 1) f.k (← decV f.d) (← decV f.a)) else none

/-- R89, R154 to R163: the V slots, opcodes up to 0x0B. -/
def decVLow (op : Nat) (f : VFields) : Option VSyl :=
  match op with
  | 0x01 => decVBin .add f
  | 0x02 => decVBin .sub f
  | 0x03 => decVBin .mul f
  | 0x04 => if f.ns = 0 then do
      some (.fma (decTy f.ty) (← decRm f.rm) f.k (← decV f.d) (← decV f.a) (← decV f.b) (← decV f.c)) else none
  | 0x05 => decVBin .min f
  | 0x06 => decVBin .max f
  | 0x07 => if f.ns = 0 ∧ f.rm = 0 then do
      some (.sgn (decTy f.ty) (← decSgn f.c.toNat) f.k (← decV f.d) (← decV f.a) (← decV f.b)) else none
  | 0x08 => if f.ns = 0 ∧ f.rm = 0 ∧ f.d.extractLsb' 3 7 = 0#7 then do
      some (.cmp (decTy f.ty) (← decRel f.c.toNat) f.k (f.d.extractLsb' 0 3) (← decV f.a) (← decV f.b)) else none
  | 0x09 => if f.ns = 0 ∧ f.rm = 0 ∧ f.c = 0 then do
      some (.sel (decTy f.ty) f.k (← decV f.d) (← decV f.a) (← decV f.b)) else none
  | 0x0A => if f.ns = 0 ∧ f.rm = 0 ∧ f.b = 0 ∧ f.c = 0 then do
      some (.cls (decTy f.ty) f.k (← decV f.d) (← decV f.a)) else none
  | 0x0B => if f.ns = 0 ∧ f.rm = 0 then
      (match f.c.toNat with
        | 0 => do some (.ocFill (decTy f.ty) f.k (← decV f.d) (← decV f.a) (← decV f.b))
        | 1 => if f.b = 0 then do some (.ocGet (decTy f.ty) f.k (← decV f.d) (← decV f.a)) else none
        | _ => none) else none
  | _ => none

/-- R89, R154 to R163: the V slots, opcodes from 0x0C. -/
def decVHigh (op : Nat) (f : VFields) : Option VSyl :=
  match op with
  | 0x0C => if f.b.extractLsb' 4 6 = 0#6 ∧ f.c.extractLsb' 0 2 = 0#2 then do
      some (.cvt (decTy f.ty) (← decNk (f.b.extractLsb' 0 4)) (decTy (f.c.extractLsb' 6 4))
        (← decNk (f.c.extractLsb' 2 4)) (← decRm f.rm) (f.ns == 1) f.k (← decV f.d) (← decV f.a)) else none
  | 0x0D => if f.ns = 0 ∧ f.c = 0 then do
      some (.scale (decTy f.ty) (← decRm f.rm) f.k (← decV f.d) (← decV f.a) (← decV f.b)) else none
  | 0x0E => if f.ns = 0 ∧ f.b = 0 then
      (match f.c.toNat with
        | 0 => do some (.red (decTy f.ty) .sum (← decRm f.rm) f.k (← decV f.d) (← decV f.a))
        | 1 => do some (.red (decTy f.ty) .min (← decRm f.rm) f.k (← decV f.d) (← decV f.a))
        | 2 => do some (.red (decTy f.ty) .max (← decRm f.rm) f.k (← decV f.d) (← decV f.a))
        | _ => none) else none
  | 0x0F => if f.ns = 0 ∧ f.rm = 0 ∧ f.c = 0 then do
      some (.shuf (decTy f.ty) f.k (← decV f.d) (← decV f.a) (← decV f.b)) else none
  | 0x10 => if f.ns = 0 ∧ f.rm = 0 ∧ f.b = 0 then do
      some (.bcast (decTy f.ty) f.c f.k (← decV f.d) (← decV f.a)) else none
  | 0x11 => if f.ns = 0 ∧ f.b = 0 ∧ f.c = 0 then do
      some (.norm (decTy f.ty) (← decRm f.rm) f.k (← decV f.d) (← decV f.a)) else none
  | 0x12 => decVTrans .exp2 f
  | 0x13 => decVTrans .log2 f
  | 0x14 => decVTrans .rcp f
  | 0x15 => decVTrans .rsq f
  | 0x16 => decVBin .and f
  | 0x17 => decVBin .or f
  | 0x18 => decVBin .xor f
  | 0x19 => decVBin .shl f
  | 0x1A => if f.ns = 0 ∧ f.rm = 0 then
      (match f.c.toNat with
        | 0 => do some (.shr (decTy f.ty) false f.k (← decV f.d) (← decV f.a) (← decV f.b))
        | 1 => do some (.shr (decTy f.ty) true f.k (← decV f.d) (← decV f.a) (← decV f.b))
        | _ => none) else none
  | 0x1B => if f.ns = 0 ∧ f.rm = 0 ∧ f.b = 0 ∧ f.c = 0 then do
      some (.pcnt (decTy f.ty) f.k (← decV f.d) (← decV f.a)) else none
  | 0x1C => if f.ns = 0 ∧ f.rm = 0 ∧ f.b = 0 then
      (match f.c.toNat with
        | 0 => do some (.mov (decTy f.ty) f.k (← decV f.d) (← decV f.a))
        | 1 => if f.ty = 0 ∧ f.k = 0 ∧ f.d.extractLsb' 3 7 = 0#7 ∧ f.a.extractLsb' 3 7 = 0#7 then
            some (.movm (f.d.extractLsb' 0 3) (f.a.extractLsb' 0 3)) else none
        | _ => none) else none
  | 0x1D => if f.ns = 0 ∧ f.rm = 0 then do
      some (.li (decTy f.ty) (f.a ++ f.b ++ f.c) f.k (← decV f.d)) else none
  | _ => none

/-- R88, R89: a V slot. -/
def decVSyl (w : W64) : Option VSyl :=
  let f := VFields.ofWord w
  if f.r1 = 0 then (if sylOp w ≤ 0x0B then decVLow (sylOp w) f else decVHigh (sylOp w) f) else none

/-- R187: the fields of an M syllable. -/
structure MFields where
  acc : BitVec 2
  v : BitVec 10
  x : BitVec 6
  y : BitVec 6
  low : BitVec 28
deriving DecidableEq, Repr

def MFields.ofWord (w : W64) : MFields :=
  { acc := w.extractLsb' 50 2, v := w.extractLsb' 40 10, x := w.extractLsb' 34 6, y := w.extractLsb' 28 6,
    low := w.extractLsb' 0 28 }

def MFields.bits (f : MFields) : BitVec 52 := f.acc ++ f.v ++ f.x ++ f.y ++ f.low

/-- R187: the M slot. A PMERGE.l whose V or X is not zero is illegal, as it names neither (log 94). -/
def decMSyl (w : W64) : Option MSyl :=
  let f := MFields.ofWord w
  match sylOp w with
  | 0x01 => if f.v = 0 ∧ f.low = 0 then some (.mma f.acc f.x f.y) else none
  | 0x02 => if f.v = 0 ∧ f.y = 0 ∧ f.low = 0 then some (.mmaf f.acc f.x) else none
  | 0x03 => if f.v = 0 ∧ f.y = 0 then
      (if f.low = 0 ∧ f.acc = 0 then some (.mbld f.x)
       else if f.low = 1 ∧ f.x = 0 then some (.mbldPod f.acc) else none) else none
  | 0x04 => if f.acc = 0 ∧ f.v = 0 ∧ f.x = 0 ∧ f.y = 0 ∧ f.low = 0 then some .mrot else none
  | 0x05 => if f.v = 0 ∧ f.y = 0 ∧ f.low.extractLsb' 25 3 = 0#3 then
      some (.accdecl f.acc f.x (f.low.extractLsb' 0 25)) else none
  | 0x06 => if f.v = 0 ∧ f.x = 0 ∧ f.y = 0 ∧ f.low = 0 then some (.acczero f.acc) else none
  | 0x07 => if f.x = 0 ∧ f.y = 0 ∧ f.low = 0 then (decV f.v).map (.accdrain f.acc) else none
  | 0x08 => if f.low = 0 then (decV f.v).map fun v => .accld f.acc v f.x f.y else none
  | 0x09 => if f.y = 0 ∧ f.low.extractLsb' 3 25 = 0#25 then
      (decV f.v).map fun v => .pins f.acc v f.x (f.low.extractLsb' 0 3) else none
  | 0x0A => if f.y = 0 then
      (if f.low = 0 then (decV f.v).map fun v => .pmerge f.acc v f.x
       else if f.low = 1 ∧ f.v = 0 ∧ f.x = 0 then some (.pmergeL f.acc) else none) else none
  | 0x0B => if f.x = 0 ∧ f.y = 0 ∧ f.low = 0 then (decV f.v).map (.pfloor f.acc) else none
  | 0x0C => if f.x = 0 ∧ f.y = 0 ∧ f.low = 0 then (decV f.v).map (.praise f.acc) else none
  | 0x0D => if f.x = 0 ∧ f.y = 0 ∧ f.low = 0 then (decV f.v).map (.verdrd f.acc) else none
  | _ => none

/-- R88, R166: the LD slot. -/
def decLd (w : W64) : Option LdSyl :=
  let a : BitVec 6 := w.extractLsb' 36 6
  let b : BitVec 6 := w.extractLsb' 30 6
  let imm : BitVec 18 := w.extractLsb' 12 18
  let ty : BitVec 4 := w.extractLsb' 8 4
  if w.extractLsb' 0 8 = 0#8 then do
    let d ← decV (w.extractLsb' 42 10)
    match sylOp w with
    | 0x01 => if ty = 0 then some (.vld d a b imm) else none
    | 0x02 => some (.vlds (decTy ty) d a b imm)
    | 0x03 => if ty = 0 then some (.vldh d a b imm) else none
    | _ => none
  else none

/-- R88, R168: the ST slot. -/
def decSt (w : W64) : Option StSyl :=
  let a : BitVec 6 := w.extractLsb' 36 6
  let b : BitVec 6 := w.extractLsb' 30 6
  let imm : BitVec 18 := w.extractLsb' 12 18
  let ty := decTy (w.extractLsb' 8 4)
  let sc : BitVec 3 := w.extractLsb' 5 3
  let k : BitVec 3 := w.extractLsb' 2 3
  if w.extractLsb' 0 2 = 0#2 ∧ (sc = 0 ∨ sc = 5) then do
    let v ← decV (w.extractLsb' 42 10)
    match sylOp w with
    | 0x01 => some (.vst ty (sc == 5) k v a b imm)
    | 0x02 => some (.vstm ty (sc == 5) k v a b imm)
    | _ => none
  else none

/-- R328: the CP slot. -/
def decCp (w : W64) : Option CpSyl :=
  let x : BitVec 6 := w.extractLsb' 46 6
  match sylOp w with
  | 0x01 => if w.extractLsb' 0 46 = 0#46 then some (.cpgo x) else none
  | 0x02 => if w.extractLsb' 1 45 = 0#45 then some (.cpstat x (w.getLsbD 0)) else none
  | _ => none

/-- R328, and the SY syllables of Memories II and III: the SY slot. -/
def decSy (w : W64) : Option SySyl :=
  let d : BitVec 6 := w.extractLsb' 46 6
  let a : BitVec 6 := w.extractLsb' 40 6
  let fn : BitVec 8 := w.extractLsb' 32 8
  let imm : W32 := w.extractLsb' 0 32
  match sylOp w with
  | 0x01 => if a = 0 ∧ fn = 0 ∧ imm = 0 then some (.hwait d) else none
  | 0x02 => if a = 0 ∧ fn = 0 ∧ imm = 0 then some (.hpeek d) else none
  | 0x03 => if d = 0 ∧ fn = 0 ∧ imm = 0 then some (.hrel a) else none
  | 0x04 => if d = 0 ∧ fn = 0 ∧ imm.extractLsb' 5 27 = 0#27 then some (.jigld a (imm.extractLsb' 0 5)) else none
  | 0x05 => if d = 0 ∧ fn = 0 ∧ imm = 0 then some (.jigrun a) else none
  | 0x06 => if d = 0 ∧ a = 0 ∧ fn.extractLsb' 1 7 = 0#7 ∧ imm = 0 then some (.jigend (fn.getLsbD 0)) else none
  | 0x07 => if fn = 0 ∧ imm = 0 then some (.mbwait d a) else none
  | 0x08 => if d = 0 ∧ a = 0 ∧ fn = 0 ∧ imm = 0 then some .switch else none
  | 0x09 => if fn = 0 ∧ imm = 0 then some (.rqseed d a) else none
  | 0x0A => if d = 0 ∧ fn = 0 ∧ imm = 0 then some (.seal a) else none
  | 0x0B => if d = 0 ∧ a = 0 ∧ fn = 0 ∧ imm = 0 then some .fencec else none
  | _ => none

/-- R86: the bundle of eight words, the S syllable first. -/
def decodeBundle (w0 w1 w2 w3 w4 w5 w6 w7 : W64) : Bundle :=
  { s := decSlot decS SSyl.wf w0, v0 := decSlot decVSyl VSyl.wf w1, v1 := decSlot decVSyl VSyl.wf w2,
    m := decSlot decMSyl MSyl.wf w3, ld := decSlot decLd LdSyl.wf w4, st := decSlot decSt StSyl.wf w5,
    cp := decSlot decCp (fun _ => true) w6, sy := decSlot decSy SySyl.wf w7 }

/-! ### The encoder -/

/-- R69: the fields of an R-format word with these codes and the rest zero. -/
def LapFields.base (op : BitVec 8) (g : Guard) : LapFields :=
  { g := encGuard g, l := 0, op := op, d := 0, a := 0, b := 0, rm := 0, ty := 0, sc := 0, c := 0, fn := 0, lit := 0 }

/-- R69: the fields with this 34-bit immediate. -/
def LapFields.withImm (f : LapFields) (v : BitVec 34) : LapFields :=
  { f with b := v.extractLsb' 26 8, rm := v.extractLsb' 23 3, ty := v.extractLsb' 19 4, sc := v.extractLsb' 16 3,
           c := v.extractLsb' 8 8, fn := v.extractLsb' 0 8 }

/-- R70: the fields with this B source. -/
def LapFields.withB (f : LapFields) : BSrc → LapFields
  | .reg r => { f with b := encSpec r }
  | .lit32 v => { f with l := 1, b := 0, lit := v.setWidth 64 }
  | .lit64 v => { f with l := 2, b := 0, lit := v }

/-- R70: the fields with this displacement. -/
def LapFields.withDisp (f : LapFields) : Disp → LapFields
  | .imm v => { f with sc := v.extractLsb' 16 3, c := v.extractLsb' 8 8, fn := v.extractLsb' 0 8 }
  | .lit32 v => { f with l := 1, sc := 0, c := 0, fn := 0, lit := v.setWidth 64 }
  | .lit64 v => { f with l := 2, sc := 0, c := 0, fn := 0, lit := v }

def Alu.enc (o : Alu) (op : BitVec 8) : LapFields :=
  { LapFields.base op o.g with ty := encTy o.ty, d := encSpec o.d, a := encSpec o.a }.withB o.b

def Alu1.enc (o : Alu1) (op : BitVec 8) : LapFields :=
  { LapFields.base op o.g with ty := encTy o.ty, d := encSpec o.d, a := encSpec o.a }

def FAlu.enc (o : FAlu) (op : BitVec 8) : LapFields :=
  { LapFields.base op o.g with ty := encTy o.ty, rm := encRm o.rm, d := encSpec o.d, a := encSpec o.a }.withB o.b

def FAlu1.enc (o : FAlu1) (op : BitVec 8) : LapFields :=
  { LapFields.base op o.g with ty := encTy o.ty, rm := encRm o.rm, d := encSpec o.d, a := encSpec o.a }

def Dab.enc (o : Dab) (op fn : BitVec 8) : LapFields :=
  { LapFields.base op o.g with d := encSpec o.d, a := encSpec o.a, fn := fn }.withB o.b

def Msg.enc (o : Msg) (op : BitVec 8) (hasD : Bool) : LapFields :=
  { LapFields.base op o.g with
      d := (if hasD then encSpec o.d else 0), a := encSpec o.a, b := encSpec o.b
      fn := (BitVec.ofBool o.noCtr ++ o.ctr ++ o.words) }

/-- D, A, B and C registers with an FN value. -/
def encDabc (op : BitVec 8) (g : Guard) (d a b c : BitVec 8) (fn : BitVec 8) : LapFields :=
  { LapFields.base op g with d := d, a := a, b := b, c := c, fn := fn }

/-- R79: the B field of a memory word: the nibble bit and the scope. -/
def encMemB (cls : Cls) (hi : Bool) : BitVec 8 := BitVec.ofBool hi ++ 0#4 ++ encClsScope cls

/-- The fields of a lap instruction; a bundle or a step has none. -/
def encodeLap : Instr → Option LapFields
  | .nop => some (.base 0x00 .always)
  | .br g v => some ({ LapFields.base 0x01 g with d := 0x80 }.withImm v)
  | .jmp g d a => some (encDabc 0x02 g (encSpec d) (encSpec a) 0 0 0)
  | .call g d v => some ({ LapFields.base 0x03 g with d := encSpec d }.withImm v)
  | .ret g a => some (encDabc 0x04 g 0 (encSpec a) 0 0 0)
  | .loop g d v => some ({ LapFields.base 0x05 g with d := encSpec d }.withImm v)
  | .halt g => some (.base 0x06 g)
  | .trap g m => some { LapFields.base 0x07 g with fn := m }
  | .hret g => some (.base 0x08 g)
  | .scall g m => some { LapFields.base 0x09 g with fn := m }
  | .srrd g d n => some ({ LapFields.base 0x0A g with d := encSpec d }.withImm (n.setWidth 34))
  | .srwr g a n => some ({ LapFields.base 0x0B g with a := encSpec a }.withImm (n.setWidth 34))
  | .flgrd g d => some (encDabc 0x0C g (encSpec d) 0 0 0 0)
  | .flgclr g m => some { LapFields.base 0x0D g with fn := m.setWidth 8 }
  | .bkpt g m => some { LapFields.base 0x0E g with fn := m }
  | .modeset g a n => some ({ LapFields.base 0x0F g with a := encSpec a }.withImm (n.setWidth 34))
  | .add o => some (o.enc 0x10)
  | .sub o => some (o.enc 0x11)
  | .mul o => some (o.enc 0x12)
  | .mulh o => some (o.enc 0x13)
  | .mulhn o => some (o.enc 0x14)
  | .div o => some (o.enc 0x15)
  | .divn o => some (o.enc 0x16)
  | .rem o => some (o.enc 0x17)
  | .remn o => some (o.enc 0x18)
  | .neg o => some (o.enc 0x19)
  | .abs o => some (o.enc 0x1A)
  | .min o => some (o.enc 0x1B)
  | .max o => some (o.enc 0x1C)
  | .minn o => some (o.enc 0x1D)
  | .maxn o => some (o.enc 0x1E)
  | .mov g d b => some ({ LapFields.base 0x1F g with d := encSpec d }.withB b)
  | .and o => some (o.enc 0x20)
  | .or o => some (o.enc 0x21)
  | .xor o => some (o.enc 0x22)
  | .andn o => some (o.enc 0x23)
  | .shl o => some (o.enc 0x24)
  | .shr o => some (o.enc 0x25)
  | .sra o => some (o.enc 0x26)
  | .rot o => some (o.enc 0x27)
  | .bfx g d a pos len => some (encDabc 0x28 g (encSpec d) (encSpec a) 0 (len.setWidth 8) (pos.setWidth 8))
  | .bfi g d a pos len => some (encDabc 0x29 g (encSpec d) (encSpec a) 0 (len.setWidth 8) (pos.setWidth 8))
  | .pcnt o => some (o.enc 0x2A)
  | .clz o => some (o.enc 0x2B)
  | .ctz o => some (o.enc 0x2C)
  | .brev o => some (o.enc 0x2D)
  | .bswap o => some (o.enc 0x2E)
  | .lea g d a v => some (({ LapFields.base 0x2F g with d := encSpec d, a := encSpec a }).withDisp v)
  | .cmp g ty rel p a b => some ({ LapFields.base 0x30 g with
      ty := encTy ty, d := encPred p, a := encSpec a, fn := BitVec.ofNat 8 (encRel rel) }.withB b)
  | .plog g p pa pb tt => some (encDabc 0x31 g (encPred p) (encPred pa) (encPred pb) 0 (tt.setWidth 8))
  | .pmov g d a => some (encDabc 0x32 g (encSpec d) (encSpec a) 0 0 0)
  | .sel g d a b p => some ({ LapFields.base 0x33 g with d := encSpec d, a := encSpec a, c := encPred p }.withB b)
  | .pfxc g d a b => some (encDabc 0x34 g (encSpec d) (encSpec a) (encSpec b) 0 0)
  | .intx g d a b c => some (encDabc 0x35 g (encSpec d) (encSpec a) (encSpec b) (encSpec c) 0)
  | .fadd o => some (o.enc 0x40)
  | .fsub o => some (o.enc 0x41)
  | .fmul o => some (o.enc 0x42)
  | .fdiv o => some (o.enc 0x43)
  | .fsqrt o => some (o.enc 0x44)
  | .fma o c => some { o.enc 0x45 with c := encSpec c }
  | .fmin o => some (o.enc 0x46)
  | .fmax o => some (o.enc 0x47)
  | .fcmp g ty rel p a b => some ({ LapFields.base 0x48 g with
      ty := encTy ty, d := encPred p, a := encSpec a, fn := BitVec.ofNat 8 (encRel rel) }.withB b)
  | .fclass o => some (o.enc 0x49)
  | .fsgn o op => some { o.enc 0x4A with fn := BitVec.ofNat 8 (encSgn op) }
  | .cvt g dty dnk sty snk rm ns d a => some { LapFields.base 0x50 g with
      ty := encTy dty, rm := encRm rm, d := encSpec d, a := encSpec a, c := encNk snk ++ encTy sty,
      fn := BitVec.ofBool ns ++ 0#3 ++ encNk dnk }
  | .cvtd o => some (o.enc 0x51)
  | .cvte o ns => some { o.enc 0x52 with
      ty := 15, c := 0#4 ++ encTy o.ty, fn := BitVec.ofBool ns ++ 0#7 }
  | .frnd o => some (o.enc 0x53)
  | .ld g cls ty hi d a v => some ({ LapFields.base 0x60 g with
      b := encMemB cls hi, rm := encCls cls, ty := encTy ty, d := encSpec d, a := encSpec a }.withDisp v)
  | .st g cls ty hi d a v => some ({ LapFields.base 0x61 g with
      b := encMemB cls hi, rm := encCls cls, ty := encTy ty, d := encSpec d, a := encSpec a }.withDisp v)
  | .ldt g ty d a e v => some ({ LapFields.base 0x62 g with
      b := encSpec e, rm := 7, ty := encTy ty, d := encSpec d, a := encSpec a }.withDisp v)
  | .addm g cls ty d a v => some ({ LapFields.base 0x63 g with
      rm := encCls cls, ty := encTy ty, d := encSpec d, a := encSpec a }.withDisp v)
  | .amo g cls op ty d a b => some ({ LapFields.base 0x64 g with
      ty := encTy ty, sc := encCls cls, c := 0#5 ++ encClsScope cls, fn := BitVec.ofNat 8 (encAmo op),
      d := encSpec d, a := encSpec a }.withB b)
  | .cas g cls ty d a b => some { LapFields.base 0x65 g with
      ty := encTy ty, sc := encCls cls, c := 0#5 ++ encClsScope cls, d := encSpec d, a := encSpec a, b := encSpec b }
  | .sts g cls ty d a b => some { LapFields.base 0x66 g with
      ty := encTy ty, sc := encCls cls, c := 0#5 ++ encClsScope cls, d := encSpec d, a := encSpec a, b := encSpec b }
  | .pref g a v => some ({ LapFields.base 0x67 g with a := encSpec a }.withDisp v)
  | .topen g ty nk wide d a b => some { LapFields.base 0x80 g with
      ty := encTy ty, d := encSpec d, a := encSpec a, b := encSpec b, fn := 0#3 ++ BitVec.ofBool wide ++ encNk nk }
  | .tvalid g a b => some ({ LapFields.base 0x81 g with a := encSpec a }.withB b)
  | .seal g a => some (encDabc 0x82 g 0 (encSpec a) 0 0 0)
  | .tfree g a => some (encDabc 0x83 g 0 (encSpec a) 0 0 0)
  | .tstat g d a => some (encDabc 0x84 g (encSpec d) (encSpec a) 0 0 0)
  | .fence g sc rel acq => some { LapFields.base 0x88 g with
      sc := encScope sc, fn := if rel && acq then 0 else if rel then 1 else 2 }
  | .drain g sc none => some { LapFields.base 0x89 g with sc := encScope sc }
  | .drain g sc (some r) => some { LapFields.base 0x89 g with sc := encScope sc, a := encSpec r, fn := 1 }
  | .gidx g ty a b sh => some { LapFields.base 0x90 g with
      ty := encTy ty, a := encSpec a, b := encSpec b, fn := sh.setWidth 8 }
  | .sidx g ty d a b sh => some { LapFields.base 0x91 g with
      ty := encTy ty, d := encSpec d, a := encSpec a, b := encSpec b, fn := sh.setWidth 8 }
  | .aqclr g d => some (encDabc 0x92 g (encSpec d) 0 0 0 0)
  | .qstat g d => some (encDabc 0x93 g (encSpec d) 0 0 0 0)
  | .send o => some (o.enc 0x94 false)
  | .callr o => some (o.enc 0x95 true)
  | .reply g a b => some (encDabc 0x96 g 0 (encSpec a) (encSpec b) 0 0)
  | .slpush g a b => some (encDabc 0x97 g 0 (encSpec a) (encSpec b) 0 0)
  | .slpop g d => some (encDabc 0x98 g (encSpec d) 0 0 0 0)
  | .slsteal g d => some (encDabc 0x99 g (encSpec d) 0 0 0 0)
  | .mjob g d a b cc => some (encDabc 0x9A g (encSpec d) (encSpec a) (encSpec b) 0 (cc.setWidth 8))
  | .launch g d a b => some (encDabc 0x9B g (encSpec d) (encSpec a) (encSpec b) 0 0)
  | .dtld g a t => some (encDabc 0xA0 g 0 (encSpec a) 0 0 (BitVec.ofNat 8 (encTab t)))
  | .dtrd g d b t => some ({ LapFields.base 0xA1 g with d := encSpec d, fn := BitVec.ofNat 8 (encTab t) }.withB b)
  | .srfence g re none => some (encDabc 0xA2 g 0 0 0 0 (0#6 ++ BitVec.ofBool re ++ 1#1))
  | .srfence g re (some a) => some (encDabc 0xA2 g 0 (encSpec a) 0 0 (0#6 ++ BitVec.ofBool re ++ 0#1))
  | .tbfill g a b => some (encDabc 0xA3 g 0 (encSpec a) (encSpec b) 0 0)
  | .tbfillVec g a => some (encDabc 0xA3 g 0 (encSpec a) 0 0 1)
  | .tbinv g d none _ => some (encDabc 0xA4 g (encSpec d) 0 0 0 2)
  | .tbinv g d (some a) q => some (encDabc 0xA4 g (encSpec d) (encSpec a) 0 0 (if q then 1 else 0))
  | .tbprobe g d a => some (encDabc 0xA5 g (encSpec d) (encSpec a) 0 0 0)
  | .grpfind o => some (o.enc 0xA6 0)
  | .sqset o => some (o.enc 0xA7 0)
  | .sqsetOp o => some (o.enc 0xA7 1)
  | .sqsetUser o => some (o.enc 0xA7 2)
  | .sqsetPrio o => some (o.enc 0xA7 3)
  | .sqget g d a w => some (encDabc 0xA8 g (encSpec d) (encSpec a) 0 0 (w.setWidth 8))
  | .sqbuild g d a b c => some (encDabc 0xA9 g (encSpec d) (encSpec a) (encSpec b) (encSpec c) 0)
  | .erset g a b c => some (encDabc 0xAA g 0 (encSpec a) (encSpec b) (encSpec c) 0)
  | .erget o w => some (o.enc 0xAB (BitVec.ofNat 8 w.val))
  | .tolset g a b c die => some (encDabc 0xAC g 0 (encSpec a) (encSpec b) (encSpec c) (die.setWidth 8))
  | .tbind g n => some (encDabc 0xB0 g 0 0 0 0 (n.setWidth 8))
  | .tcset g b n => some ({ LapFields.base 0xB1 g with fn := n.setWidth 8 }.withB b)
  | .tcrd g d n => some (encDabc 0xB2 g (encSpec d) 0 0 0 (n.setWidth 8))
  | .pegarm o => some (o.enc 0xB3 0)
  | .pegarmAdd o => some (o.enc 0xB3 1)
  | .pegwait o => some (o.enc 0xB4 0)
  | .rcsnap g a b => some ({ LapFields.base 0xB5 g with a := encSpec a }.withB b)
  | .rcrd g d b => some ({ LapFields.base 0xB6 g with d := encSpec d }.withB b)
  | .bump g d b al => some ({ LapFields.base 0xB7 g with d := encSpec d, fn := al.setWidth 8 }.withB b)
  | .bumpset g d a b al => some (encDabc 0xB8 g (encSpec d) (encSpec a) (encSpec b) 0 (al.setWidth 8))
  | .xcopy g ty d a b c => some { LapFields.base 0xC0 g with
      ty := encTy ty, d := encSpec d, a := encSpec a, b := encSpec b, c := encSpec c }
  | .xconv g dty dnk sty snk rm ns d a b c => some { LapFields.base 0xC1 g with
      ty := encTy dty, rm := encRm rm, sc := 0#2 ++ BitVec.ofBool ns,
      fn := (encNk (if dty = .narrow then dnk else snk)) ++ encTy sty,
      d := encSpec d, a := encSpec a, b := encSpec b, c := encSpec c }
  | .route g d a => some (encDabc 0xC2 g (encSpec d) (encSpec a) 0 0 0)
  | .cmdnext g d => some (encDabc 0xC3 g (d.setWidth 8) 0 0 0 0)
  | .cmddone g a b c sys irq => some (encDabc 0xC4 g 0 (encSpec a) (encSpec b) (encSpec c)
      (0#6 ++ BitVec.ofBool irq ++ BitVec.ofBool sys))
  | _ => none

/-- R86: a syllable from its guard, opcode and slot bits. -/
def mkSyl (q : BitVec 4) (op : BitVec 8) (bits : BitVec 52) : W64 := q ++ op ++ bits

/-- The word of a slot. -/
def encSlot {α : Type} (enc : α → BitVec 8 × BitVec 52) : Slot α → W64
  | .nop => 0
  | .op q x => mkSyl q (enc x).1 (enc x).2
  | .illegal w => w

/-- R88: form SR or SI from the operation, D, A, FN and the second operand. -/
def encSRI (op : BitVec 8) (d a : BitVec 6) (fn : BitVec 8) : SSrc → BitVec 8 × BitVec 52
  | .reg c => (op, d ++ a ++ c ++ fn ++ 0#26)
  | .imm v => (0x40 + op, d ++ a ++ fn ++ v)

def encS : SSyl → BitVec 8 × BitVec 52
  | .bin op d a b => encSRI (encSOp op) d a 0 b
  | .mov d b => encSRI 0x0C d 0 0 b
  | .cmp q c a b => encSRI 0x0D (0#2 ++ q) a (encSCond c) b
  | .sel d a b q => encSRI 0x0E d a (0#4 ++ q) b
  | .lea d a b sh => encSRI 0x0F d a (0#5 ++ sh) (.reg b)
  | .leaImm d a v => encSRI 0x0F d a 0 (.imm v)
  | .grpfind d a b => encSRI 0x16 d a 0 (.reg b)
  | .br v => (0x10, 0#6 ++ 0#6 ++ 0#8 ++ v)
  | .jmp a v => (0x11, 0#6 ++ a ++ 0#8 ++ v)
  | .loopc d v => (0x12, d ++ 0#6 ++ 0#8 ++ v)
  | .call d v => (0x13, d ++ 0#6 ++ 0#8 ++ v)
  | .ret a => (0x14, 0#6 ++ a ++ 0#8 ++ 0#32)
  | .haltc => (0x15, 0)

/-- The opcode of a two-source lane operation (R155). -/
def encVBin : VBin → BitVec 8
  | .add => 1 | .sub => 2 | .mul => 3 | .min => 5 | .max => 6 | .and => 0x16 | .or => 0x17 | .xor => 0x18 | .shl => 0x19

def encVTrans : VTrans → BitVec 8
  | .exp2 => 0x12 | .log2 => 0x13 | .rcp => 0x14 | .rsq => 0x15

def encVRed : VRedOp → BitVec 10
  | .sum => 0 | .min => 1 | .max => 2

/-- V-slot fields with these and the rest zero. -/
def VFields.mk3 (ty : Ty) (rm : BitVec 3) (k : BitVec 3) (d a b c : BitVec 10) : VFields :=
  { d := d, a := a, b := b, c := c, ty := encTy ty, rm := rm, k := k, r1 := 0, ns := 0 }

def encVSyl : VSyl → BitVec 8 × BitVec 52
  | .bin op ty rm k d a b => (encVBin op, (VFields.mk3 ty (encRm rm) k (encV d) (encV a) (encV b) 0).bits)
  | .shr ty ar k d a b => (0x1A, (VFields.mk3 ty 0 k (encV d) (encV a) (encV b) (if ar then 1 else 0)).bits)
  | .fma ty rm k d a b c => (0x04, (VFields.mk3 ty (encRm rm) k (encV d) (encV a) (encV b) (encV c)).bits)
  | .pcnt ty k d a => (0x1B, (VFields.mk3 ty 0 k (encV d) (encV a) 0 0).bits)
  | .sgn ty op k d a b => (0x07, (VFields.mk3 ty 0 k (encV d) (encV a) (encV b) (BitVec.ofNat 10 (encSgn op))).bits)
  | .cmp ty rel k m a b =>
      (0x08, (VFields.mk3 ty 0 k (m.setWidth 10) (encV a) (encV b) (BitVec.ofNat 10 (encRel rel))).bits)
  | .sel ty k d a b => (0x09, (VFields.mk3 ty 0 k (encV d) (encV a) (encV b) 0).bits)
  | .cls ty k d a => (0x0A, (VFields.mk3 ty 0 k (encV d) (encV a) 0 0).bits)
  | .ocFill ty k d a b => (0x0B, (VFields.mk3 ty 0 k (encV d) (encV a) (encV b) 0).bits)
  | .ocGet ty k d a => (0x0B, (VFields.mk3 ty 0 k (encV d) (encV a) 0 1).bits)
  | .cvt dty dnk sty snk rm ns k d a => (0x0C,
      { VFields.mk3 dty (encRm rm) k (encV d) (encV a) (0#6 ++ encNk dnk) (encTy sty ++ encNk snk ++ 0#2) with
        ns := BitVec.ofBool ns }.bits)
  | .scale ty rm k d a b => (0x0D, (VFields.mk3 ty (encRm rm) k (encV d) (encV a) (encV b) 0).bits)
  | .red ty op rm k d a => (0x0E, (VFields.mk3 ty (encRm rm) k (encV d) (encV a) 0 (encVRed op)).bits)
  | .shuf ty k d a b => (0x0F, (VFields.mk3 ty 0 k (encV d) (encV a) (encV b) 0).bits)
  | .bcast ty lane k d a => (0x10, (VFields.mk3 ty 0 k (encV d) (encV a) 0 lane).bits)
  | .norm ty rm k d a => (0x11, (VFields.mk3 ty (encRm rm) k (encV d) (encV a) 0 0).bits)
  | .trans op ty rm ns k d a => (encVTrans op,
      { VFields.mk3 ty (encRm rm) k (encV d) (encV a) 0 0 with ns := BitVec.ofBool ns }.bits)
  | .mov ty k d a => (0x1C, (VFields.mk3 ty 0 k (encV d) (encV a) 0 0).bits)
  | .movm d a => (0x1C, (VFields.mk3 .b64 0 0 (d.setWidth 10) (a.setWidth 10) 0 1).bits)
  | .li ty imm k d => (0x1D,
      (VFields.mk3 ty 0 k (encV d) (imm.extractLsb' 20 10) (imm.extractLsb' 10 10) (imm.extractLsb' 0 10)).bits)

def encMSyl : MSyl → BitVec 8 × BitVec 52
  | .mma acc x y => (1, MFields.bits ⟨acc, 0, x, y, 0⟩)
  | .mmaf acc x => (2, MFields.bits ⟨acc, 0, x, 0, 0⟩)
  | .mbld x => (3, MFields.bits ⟨0, 0, x, 0, 0⟩)
  | .mbldPod acc => (3, MFields.bits ⟨acc, 0, 0, 0, 1⟩)
  | .mrot => (4, 0)
  | .accdecl acc x decl => (5, MFields.bits ⟨acc, 0, x, 0, 0#3 ++ decl⟩)
  | .acczero acc => (6, MFields.bits ⟨acc, 0, 0, 0, 0⟩)
  | .accdrain acc v => (7, MFields.bits ⟨acc, encV v, 0, 0, 0⟩)
  | .accld acc v x y => (8, MFields.bits ⟨acc, encV v, x, y, 0⟩)
  | .pins acc v x k => (9, MFields.bits ⟨acc, encV v, x, 0, 0#25 ++ k⟩)
  | .pmerge acc v x => (10, MFields.bits ⟨acc, encV v, x, 0, 0⟩)
  | .pmergeL acc => (10, MFields.bits ⟨acc, 0, 0, 0, 1⟩)
  | .pfloor acc v => (11, MFields.bits ⟨acc, encV v, 0, 0, 0⟩)
  | .praise acc v => (12, MFields.bits ⟨acc, encV v, 0, 0, 0⟩)
  | .verdrd acc v => (13, MFields.bits ⟨acc, encV v, 0, 0, 0⟩)

def encLd : LdSyl → BitVec 8 × BitVec 52
  | .vld d a b imm => (1, encV d ++ a ++ b ++ imm ++ 0#4 ++ 0#8)
  | .vlds ty d a b imm => (2, encV d ++ a ++ b ++ imm ++ encTy ty ++ 0#8)
  | .vldh d a b imm => (3, encV d ++ a ++ b ++ imm ++ 0#4 ++ 0#8)

def encSt : StSyl → BitVec 8 × BitVec 52
  | .vst ty gv k v a b imm => (1, encV v ++ a ++ b ++ imm ++ encTy ty ++ (if gv then 5#3 else 0#3) ++ k ++ 0#2)
  | .vstm ty gv k v a b imm => (2, encV v ++ a ++ b ++ imm ++ encTy ty ++ (if gv then 5#3 else 0#3) ++ k ++ 0#2)

def encCp : CpSyl → BitVec 8 × BitVec 52
  | .cpgo x => (1, x ++ 0#46)
  | .cpstat x wait => (2, x ++ 0#45 ++ BitVec.ofBool wait)

def encSy : SySyl → BitVec 8 × BitVec 52
  | .hwait d => (1, d ++ 0#46)
  | .hpeek d => (2, d ++ 0#46)
  | .hrel a => (3, 0#6 ++ a ++ 0#40)
  | .jigld a n => (4, 0#6 ++ a ++ 0#8 ++ 0#27 ++ n)
  | .jigrun a => (5, 0#6 ++ a ++ 0#40)
  | .jigend wait => (6, 0#12 ++ 0#7 ++ BitVec.ofBool wait ++ 0#32)
  | .mbwait d a => (7, d ++ a ++ 0#40)
  | .switch => (8, 0)
  | .rqseed d a => (9, d ++ a ++ 0#40)
  | .seal a => (10, 0#6 ++ a ++ 0#40)
  | .fencec => (11, 0)

/-- The eight words of a bundle. -/
def encodeBundle (b : Bundle) : List W64 :=
  [encSlot encS b.s, encSlot encVSyl b.v0, encSlot encVSyl b.v1, encSlot encMSyl b.m,
   encSlot encLd b.ld, encSlot encSt b.st, encSlot encCp b.cp, encSlot encSy b.sy]

/-- The words of a well-formed instruction, lowest address first; a step of the machine has none. -/
def encode : Instr → List W64
  | .bundleIssue b => encodeBundle b
  | i => match encodeLap i with
    | some f => if f.l = 0 then [f.toWord] else [f.toWord, f.lit]
    | none => []

/-! ### Words in memory -/

/-- R36: the bytes of a word, lowest address first. -/
def wordBytes (w : W64) : List Byte :=
  [w.extractLsb' 0 8, w.extractLsb' 8 8, w.extractLsb' 16 8, w.extractLsb' 24 8, w.extractLsb' 32 8, w.extractLsb' 40 8,
   w.extractLsb' 48 8, w.extractLsb' 56 8]

/-- The word of w's bits from n on. -/
def tableBits (w n : Nat) : W64 := BitVec.ofNat 64 (w >>> (64 * n))

/-- The instruction the decoder reads from the words of one, lowest address first: one word, a word and its literal word, or the
eight words of a bundle (R68, R70, R86). -/
def decodeWords : List W64 → Option Instr
  | [w] => if w.extractLsb' 58 2 = 0 then (decodeLap (.ofWord w 0)).toOption else none
  | [w, l] => if w.extractLsb' 58 2 = 0 then none else (decodeLap (.ofWord w l)).toOption
  | [a, b, c, d, e, f, g, h] => some (.bundleIssue (decodeBundle a b c d e f g h))
  | _ => none

/-- The instruction the decoder reads from an instruction whose bits are w: a lap word and its literal word, or a bundle. -/
def decodeTableWord (nbits w : Nat) : Option Instr :=
  if nbits ≤ 128 then
    match decodeLap (.ofWord (tableBits w 0) (tableBits w 1)) with
    | .ok i => some i
    | .error _ => none
  else
    let b := decodeBundle (tableBits w 0) (tableBits w 1) (tableBits w 2) (tableBits w 3) (tableBits w 4) (tableBits w 5)
      (tableBits w 6) (tableBits w 7)
    if b.wf then some (.bundleIssue b) else none

end Sys2Proof
end

