-- ==== Sys2Proof/Machine/Float.lean ====
section
/-! DEFINITION. The number formats, the exact arithmetic on their values, and rounding with its flags (R36 to R55, R60, R65). -/

namespace Sys2Proof.Machine

/-! ### Flags: NX bit 0, UF 1, OF 2, DZ 3, NV 4 (R199) -/

abbrev Flags := BitVec 5

def fNX : Flags := 1
def fUF : Flags := 2
def fOF : Flags := 4
def fDZ : Flags := 8
def fNV : Flags := 16

/-! ### Formats -/

/-- R37: how a format holds NaNs. -/
inductive NanKind where
  | ieee | one (code : Nat) | none
deriving DecidableEq, Repr

/-- R37: a floating-point format. -/
structure FFmt where
  eb : Nat
  mb : Nat
  bias : Nat
  inf : Bool
  nan : NanKind
  /-- R39: the default NaN -/
  dnan : Nat
  /-- the largest finite code without its sign -/
  maxc : Nat
  negZero : Bool
deriving DecidableEq, Repr

def fmtF64 : FFmt :=
  { eb := 11, mb := 52, bias := 1023, inf := true, nan := .ieee, dnan := 0x7FF8000000000000, maxc := 0x7FEFFFFFFFFFFFFF, negZero := true }
def fmtF32 : FFmt :=
  { eb := 8, mb := 23, bias := 127, inf := true, nan := .ieee, dnan := 0x7FC00000, maxc := 0x7F7FFFFF, negZero := true }
def fmtF16 : FFmt :=
  { eb := 5, mb := 10, bias := 15, inf := true, nan := .ieee, dnan := 0x7E00, maxc := 0x7BFF, negZero := true }
def fmtBf16 : FFmt :=
  { eb := 8, mb := 7, bias := 127, inf := true, nan := .ieee, dnan := 0x7FC0, maxc := 0x7F7F, negZero := true }
def fmtE5m2 : FFmt :=
  { eb := 5, mb := 2, bias := 15, inf := true, nan := .ieee, dnan := 0x7E, maxc := 0x7B, negZero := true }
def fmtE4m3 : FFmt :=
  { eb := 4, mb := 3, bias := 7, inf := false, nan := .one 0x7F, dnan := 0x7F, maxc := 0x7E, negZero := true }
def fmtE4m3z : FFmt :=
  { eb := 4, mb := 3, bias := 7, inf := false, nan := .one 0x80, dnan := 0x80, maxc := 0x7F, negZero := false }
def fmtE3m2 : FFmt :=
  { eb := 3, mb := 2, bias := 3, inf := false, nan := .none, dnan := 0, maxc := 0x1F, negZero := true }
def fmtE2m3 : FFmt :=
  { eb := 2, mb := 3, bias := 1, inf := false, nan := .none, dnan := 0, maxc := 0x1F, negZero := true }
def fmtE2m1 : FFmt :=
  { eb := 2, mb := 1, bias := 1, inf := false, nan := .none, dnan := 0, maxc := 0x7, negZero := true }

/-- Bits of a format, the sign among them. -/
def FFmt.bits (f : FFmt) : Nat := 1 + f.eb + f.mb

/-- The sign bit as a number. -/
def FFmt.signBit (f : FFmt) : Nat := 2 ^ (f.eb + f.mb)

/-- R37: the format of a float type. -/
def tyFmt : Ty → FFmt
  | .f64 => fmtF64
  | .f16 => fmtF16
  | .bf16 => fmtBf16
  | _ => fmtF32

/-- R37, R41: the element format of a narrow kind; e8m0 and mxi8 have their own rules. -/
def nkFmt : Nk → FFmt
  | .e4m3 | .mxe4m3 => fmtE4m3
  | .e5m2 | .mxe5m2 => fmtE5m2
  | .e4m3z => fmtE4m3z
  | .e3m2 | .mxe3m2 => fmtE3m2
  | .e2m3 | .mxe2m3 => fmtE2m3
  | .e2m1 | .mxe2m1 => fmtE2m1
  | .e8m0 | .mxi8 => fmtE4m3

/-- Width in bits of an element (R76, R77); a dt element has the width of its table. -/
def nkBits : Nk → Nat
  | .e3m2 | .e2m3 | .mxe3m2 | .mxe2m3 => 6
  | .e2m1 | .mxe2m1 => 4
  | _ => 8

def tyBits (t : Ty) (n : Nk) (dtw : Nat) : Nat :=
  match t with
  | .b64 | .i64 | .n64 | .f64 => 64
  | .i32 | .n32 | .f32 => 32
  | .i16 | .n16 | .f16 | .bf16 => 16
  | .i8 | .n8 => 8
  | .i4 => 4
  | .narrow => nkBits n
  | .dt => dtw

/-- Width in bits of a type that names itself (R76). -/
def tyW (t : Ty) : Nat := tyBits t .e4m3 8

/-! ### Values -/

/-- An exact value: a nonzero number m x 2^e, plus something less than one unit of m when st is set; or a special value. -/
inductive FVal where
  | zero (neg : Bool)
  | num (neg : Bool) (m : Nat) (e : Int) (st : Bool)
  | inf (neg : Bool)
  | nan (signalling : Bool)
deriving DecidableEq, Repr

/-- R38, R39: the value of a code. -/
def decF (f : FFmt) (c : Nat) : FVal :=
  let neg := c / f.signBit % 2 = 1
  let x := c % f.signBit
  let ex := x / 2 ^ f.mb
  let m := x % 2 ^ f.mb
  let top := 2 ^ f.eb - 1
  let fin : FVal :=
    if x = 0 then .zero neg
    else if ex = 0 then .num neg m (1 - (f.bias : Int) - f.mb) false
    else .num neg (m + 2 ^ f.mb) ((ex : Int) - f.bias - f.mb) false
  match f.nan with
  | .ieee => if ex = top then (if m = 0 then .inf neg else .nan (m / 2 ^ (f.mb - 1) % 2 = 0 && f.bits != 8)) else fin
  | .one code => if c % 2 ^ f.bits = code ∨ (f.negZero ∧ x = code) then .nan false else fin
  | .none => fin

/-- R60: whether an f32 or f64 pattern is an offcut. -/
def isOffcut (t : Ty) (v : W64) : Bool :=
  match t with
  | .f32 => v.extractLsb' 16 16 == 0x7FA8#16
  | .f64 => v.extractLsb' 16 48 == 0x7FF500000000#48
  | _ => false

/-- Number of bits of a natural number; 0 has none. -/
def bitLen (n : Nat) : Nat := if n = 0 then 0 else Nat.log2 n + 1

/-- R44: whether a magnitude with remainder rem of shift bits below its last kept bit, and st beyond, rounds away from zero. -/
def roundsUp (rm : Rm) (neg : Bool) (n rem shift : Nat) (st : Bool) (r : Nat) : Bool :=
  let half := 2 ^ (shift - 1)
  match rm with
  | .rne => decide (rem > half) || (rem == half && (st || n % 2 == 1))
  | .rna => decide (rem ≥ half)
  | .rdn => neg && (rem != 0 || st)
  | .rup => !neg && (rem != 0 || st)
  | .sr => decide (r < rem * 2 ^ 32 / 2 ^ shift)
  | _ => false

/-- m x 2^e in units of 2^q, rounded, and whether it is inexact. -/
def roundAt (rm : Rm) (neg : Bool) (m : Nat) (e : Int) (st : Bool) (r : Nat) (q : Int) : Nat × Bool :=
  if e < q then
    let sh := (q - e).toNat
    let n := m / 2 ^ sh
    let rem := m % 2 ^ sh
    (n + (if roundsUp rm neg n rem sh st r then 1 else 0), rem != 0 || st)
  else
    let n := m * 2 ^ (e - q).toNat
    (n + (if st && ((rm == .rup && !neg) || (rm == .rdn && neg)) then 1 else 0), st)

/-- R44 to R46, R48, R52, R54: rounds a nonzero value into a format: the code and the flags. r is SR's random number. -/
def roundNum (f : FFmt) (rm : Rm) (ns : Bool) (r : Nat) (neg : Bool) (m : Nat) (e : Int) (st : Bool) : Nat × Flags :=
  let lead := e + (bitLen m : Int) - 1
  let qmin : Int := 1 - (f.bias : Int) - f.mb
  let qtop : Int := qmin + ((f.maxc / 2 ^ f.mb - 1 : Nat) : Int)
  let qu := lead - f.mb
  let q := if rm = .sr then max qmin (min qu qtop) else max qu qmin
  let x := roundAt rm neg m e st r q
  let code := (q - qmin).toNat * 2 ^ f.mb + x.1
  let u := roundAt rm neg m e st r qu
  let tiny := decide (qu < qmin) && decide (u.1 < 2 ^ ((qmin + f.mb - qu).toNat))
  let sgn := if neg then f.signBit else 0
  if code > f.maxc then
    let away : Bool := match rm with
      | .rtz => false
      | .rdn => neg
      | .rup => !neg
      | _ => true
    let res :=
      if !away then f.maxc + sgn
      else if f.inf then f.maxc + 1 + sgn
      else if ns then f.dnan else f.maxc + sgn
    (res, fOF ||| fNX)
  else
    let fl : Flags := if x.2 then (if tiny then fUF ||| fNX else fNX) else 0
    if code = 0 ∧ !f.negZero then (0, fl) else (code + sgn, fl)

/-- R45, R49, R52: rounds any value; nv of the operation itself is the caller's. A special value comes from arithmetic. -/
def roundVal (f : FFmt) (rm : Rm) (ns : Bool) (r : Nat) (x : FVal) : Nat × Flags :=
  match x with
  | .zero neg => (if neg && f.negZero then f.signBit else 0, 0)
  | .num neg m e st => roundNum f rm ns r neg m e st
  | .inf neg =>
    let sgn := if neg then f.signBit else 0
    if f.inf then (f.maxc + 1 + sgn, 0)
    else (if ns && f.nan != .none then f.dnan else f.maxc + sgn, fNV)
  | .nan _ => if f.nan = .none then (0, fNV) else (f.dnan, 0)

/-- R61, R70, R162: an f32 pattern widened exactly to f64: an offcut keeps its step and verdict, another NaN its payload. -/
def widenF32 (v : BitVec 32) : BitVec 64 :=
  if isOffcut .f32 (v.setWidth 64) then 0x7FF5000000000000 ||| (v.setWidth 64 &&& 0xFFFF)
  else
    match decF fmtF32 v.toNat with
    | .nan _ => BitVec.ofBool (v.getLsbD 31) ++ 0x7FF#11 ++ v.extractLsb' 0 23 ++ 0#29
    | x => BitVec.ofNat 64 (roundVal fmtF64 .rne false 0 x).1

/-! ### Exact arithmetic: a value and the NV and DZ it raises (R47) -/

def FVal.isSig : FVal → Bool
  | .nan s => s
  | _ => false

def FVal.isNan : FVal → Bool
  | .nan _ => true
  | _ => false

/-- NV when an operand is a signalling NaN (R39). -/
def nvSig (l : List FVal) : Flags := if l.any FVal.isSig then fNV else 0

/-- The signed number of units of 2^e. -/
def signed (neg : Bool) (m : Nat) : Int := if neg then -(m : Int) else m

/-- A signed number of units as a value; zero takes the sign given. -/
def ofInt (i : Int) (e : Int) (zneg : Bool) : FVal :=
  if i = 0 then .zero zneg else .num (decide (i < 0)) i.natAbs e false

/-- R52: the sign of an exact zero sum of operands of unlike sign. -/
def zeroSumNeg (rm : Rm) : Bool := rm == .rdn

/-- a + b, exact (R47, R52). -/
def fAdd (rm : Rm) (a b : FVal) : FVal × Flags :=
  match a, b with
  | .nan _, _ => (.nan false, nvSig [a, b])
  | _, .nan _ => (.nan false, nvSig [a, b])
  | .inf x, .inf y => if x = y then (.inf x, 0) else (.nan false, fNV)
  | .inf x, _ => (.inf x, 0)
  | _, .inf y => (.inf y, 0)
  | .zero x, .zero y => (.zero (if x = y then x else zeroSumNeg rm), 0)
  | .zero _, y => (y, 0)
  | x, .zero _ => (x, 0)
  | .num n1 m1 e1 _, .num n2 m2 e2 _ =>
    let e := min e1 e2
    let i := signed n1 (m1 * 2 ^ (e1 - e).toNat) + signed n2 (m2 * 2 ^ (e2 - e).toNat)
    (ofInt i e (zeroSumNeg rm), 0)

def FVal.neg : FVal → FVal
  | .zero n => .zero (!n)
  | .num n m e st => .num (!n) m e st
  | .inf n => .inf (!n)
  | .nan s => .nan s

/-- a x b, exact (R47, R52). -/
def fMul (a b : FVal) : FVal × Flags :=
  match a, b with
  | .nan _, _ => (.nan false, nvSig [a, b])
  | _, .nan _ => (.nan false, nvSig [a, b])
  | .inf _, .zero _ | .zero _, .inf _ => (.nan false, fNV)
  | .inf x, .inf y | .inf x, .num y _ _ _ | .num x _ _ _, .inf y => (.inf (x != y), 0)
  | .zero x, .zero y | .zero x, .num y _ _ _ | .num x _ _ _, .zero y => (.zero (x != y), 0)
  | .num x m1 e1 _, .num y m2 e2 _ => (.num (x != y) (m1 * m2) (e1 + e2) false, 0)

/-- a / b, to 160 bits beyond the quotient's first (R47). -/
def fDiv (a b : FVal) : FVal × Flags :=
  match a, b with
  | .nan _, _ => (.nan false, nvSig [a, b])
  | _, .nan _ => (.nan false, nvSig [a, b])
  | .inf _, .inf _ => (.nan false, fNV)
  | .zero _, .zero _ => (.nan false, fNV)
  | .inf x, .zero y => (.inf (x != y), 0)
  | .inf x, .num y _ _ _ => (.inf (x != y), 0)
  | .zero x, .inf y | .zero x, .num y _ _ _ | .num x _ _ _, .inf y => (.zero (x != y), 0)
  | .num x _ _ _, .zero y => (.inf (x != y), fDZ)
  | .num x m1 e1 _, .num y m2 e2 _ =>
    let k := 160 + bitLen m2
    (.num (x != y) (m1 * 2 ^ k / m2) (e1 - e2 - k) (m1 * 2 ^ k % m2 != 0), 0)

/-- The square root, to 160 bits beyond the first (R47). -/
def fSqrt (a : FVal) : FVal × Flags :=
  match a with
  | .nan s => (.nan false, if s then fNV else 0)
  | .zero n => (.zero n, 0)
  | .inf n => if n then (.nan false, fNV) else (.inf false, 0)
  | .num n m e _ =>
    if n then (.nan false, fNV)
    else
      let k : Nat := 320 + (e % 2).toNat
      let v := m * 2 ^ k
      let q := Nat.sqrt v
      (.num false q ((e - k) / 2) (q * q != v), 0)

/-- a x b + c, exact (R66, R128). -/
def fFma (rm : Rm) (a b c : FVal) : FVal × Flags :=
  let p := fMul a b
  if p.1.isNan && !a.isNan && !b.isNan then (.nan false, p.2)
  else
    let r := fAdd rm p.1 c
    (r.1, r.2 ||| nvSig [a, b, c])

/-! ### Transcendentals to 256 fraction bits (R65, log 19) -/

/-- Fraction bits of log2 f, for f / 2^600 in [1, 2), n bits by repeated squaring. -/
def log2Bits (n : Nat) (f acc : Nat) : Nat :=
  match n with
  | 0 => acc
  | n + 1 =>
    let g := f * f / 2 ^ 600
    if g ≥ 2 ^ 601 then log2Bits n (g / 2) (2 * acc + 1) else log2Bits n g (2 * acc)

/-- 2^(frac / 2^n), as units of 2^-600, from the bits of frac; root is 2^(2^-(n - k)) in those units as k falls. -/
def exp2Bits (n : Nat) (frac root acc : Nat) : Nat :=
  match n with
  | 0 => acc
  | n + 1 =>
    let root := Nat.sqrt (root * 2 ^ 600)
    exp2Bits n (frac % 2 ^ n) root (if frac / 2 ^ n % 2 = 1 then acc * root / 2 ^ 600 else acc)

/-- R65: the base-2 logarithm. -/
def fLog2 (a : FVal) : FVal × Flags :=
  match a with
  | .nan s => (.nan false, if s then fNV else 0)
  | .zero _ => (.inf true, fDZ)
  | .inf n => if n then (.nan false, fNV) else (.inf false, 0)
  | .num n m e _ =>
    if n then (.nan false, fNV)
    else
      let lead := e + (bitLen m : Int) - 1
      let f := m * 2 ^ 600 / 2 ^ (bitLen m - 1)
      if f = 2 ^ 600 ∧ m % 2 ^ (bitLen m - 1) = 0 then (ofInt lead 0 false, 0)
      else
        let fr := log2Bits 256 f 0
        let i : Int := lead * 2 ^ 256 + fr
        (if i ≥ 0 then .num false i.toNat (-256) true else .num true ((-i).toNat - 1) (-256) true, 0)

/-- R65: the power of 2. -/
def fExp2 (a : FVal) : FVal × Flags :=
  match a with
  | .nan s => (.nan false, if s then fNV else 0)
  | .zero _ => (.num false 1 0 false, 0)
  | .inf n => (if n then .zero false else .inf false, 0)
  | .num n m e _ =>
    if e + (bitLen m : Int) > 15 then (.num false 1 (if n then -20000 else 20000) (!(decide (e ≥ 0))), 0)
    else if e ≥ 0 then (.num false 1 (signed n (m * 2 ^ e.toNat)) false, 0)
    else
      let d := (-e).toNat
      let i := signed n m
      let fl : Int := i / (2 ^ d : Int)
      let fr := (i - fl * 2 ^ d).toNat
      if fr = 0 then (.num false 1 fl false, 0)
      else
        let frac := if d ≥ 512 then fr / 2 ^ (d - 512) else fr * 2 ^ (512 - d)
        (.num false (exp2Bits 512 frac (2 ^ 601) (2 ^ 600)) (fl - 600) true, 0)

/-- R65: the reciprocal. -/
def fRcp (a : FVal) : FVal × Flags :=
  match a with
  | .nan s => (.nan false, if s then fNV else 0)
  | .zero n => (.inf n, fDZ)
  | .inf n => (.zero n, 0)
  | x => fDiv (.num false 1 0 false) x

/-- R65: the reciprocal square root. -/
def fRsq (a : FVal) : FVal × Flags :=
  match a with
  | .nan s => (.nan false, if s then fNV else 0)
  | .zero n => (.inf n, fDZ)
  | .inf n => if n then (.nan false, fNV) else (.zero false, 0)
  | .num n m e _ =>
    if n then (.nan false, fNV)
    else
      let m := if e % 2 = 0 then m else 2 * m
      let e := e - e % 2
      let k := 320 + 2 * bitLen m
      let q := Nat.sqrt (2 ^ k / m)
      (.num false q (-(e / 2) - k / 2) (q * q * m != 2 ^ k), 0)

/-! ### Comparisons (R53, R121, R130) -/

/-- The order key of a number that is no NaN: signed units of 2^-1200; the zeros are apart (R53). -/
def cmpNum (a b : FVal) : Ordering :=
  match a, b with
  | .zero x, .zero y => if x = y then .eq else if x then .lt else .gt
  | .inf x, .inf y => if x = y then .eq else if x then .lt else .gt
  | .inf x, _ => if x then .lt else .gt
  | _, .inf y => if y then .gt else .lt
  | .zero _, .num n _ _ _ => if n then .gt else .lt
  | .num n _ _ _, .zero _ => if n then .lt else .gt
  | .num n1 m1 e1 _, .num n2 m2 e2 _ =>
    let e := min e1 e2
    compare (signed n1 (m1 * 2 ^ (e1 - e).toNat)) (signed n2 (m2 * 2 ^ (e2 - e).toNat))
  | _, _ => .eq

/-- R130: the result of a relation, and NV. -/
def fCompare (rel : Rel) (a b : FVal) : Bool × Flags :=
  if a.isNan || b.isNan then
    match rel with
    | .eq | .ordered => (false, nvSig [a, b])
    | .ne | .unordered => (true, nvSig [a, b])
    | _ => (false, fNV)
  else
    let o := cmpNum a b
    (match rel with
      | .eq => o == .eq
      | .ne => o != .eq
      | .lt => o == .lt
      | .le => o != .gt
      | .gt => o == .gt
      | .ge => o != .lt
      | .unordered => false
      | .ordered => true, 0)

/-- R53: which operand a minimum or maximum returns: 0 the first, 1 the second, 2 the default NaN; and NV. -/
def fMinMax (isMax : Bool) (a b : FVal) : Nat × Flags :=
  let nv := nvSig [a, b]
  if a.isNan && b.isNan then (2, nv)
  else if a.isNan then (1, nv)
  else if b.isNan then (0, nv)
  else
    let o := cmpNum a b
    ((if isMax then (if o == .lt then 1 else 0) else (if o == .gt then 1 else 0)), nv)

/-- R131: the class word of a value of a float type. -/
def classWord (f : FFmt) (x : FVal) : Nat :=
  match x with
  | .inf n => if n then 1 else 128
  | .zero n => if n then 8 else 16
  | .nan s => if s then 256 else 512
  | .num n m e _ =>
    let sub := decide (e + (bitLen m : Int) - 1 < 1 - (f.bias : Int))
    if n then (if sub then 4 else 2) else (if sub then 32 else 64)

/-- R135: rounds to an integral value of the same format; NX when it differs. -/
def fRoundInt (rm : Rm) (x : FVal) : FVal × Flags :=
  match x with
  | .num n m e st =>
    if e ≥ 0 then (x, 0)
    else
      let r := roundAt rm n m e st 0 0
      (if r.1 = 0 then .zero n else .num n r.1 0 false, if r.2 then fNX else 0)
  | .nan s => (.nan false, if s then fNV else 0)
  | y => (y, 0)

/-! ### Integer kinds (R43, R50, R51) -/

/-- The least and greatest value of an integer kind. -/
def intMin (t : Ty) : Int := if t.isSigned then -(2 ^ (tyW t - 1) : Int) else 0
def intMax (t : Ty) : Int := if t.isSigned then (2 ^ (tyW t - 1) : Int) - 1 else (2 ^ tyW t : Int) - 1

/-- The value of w low bits under an integer kind. -/
def intVal (t : Ty) (v : Nat) : Int :=
  let x := v % 2 ^ tyW t
  if t.isSigned ∧ x ≥ 2 ^ (tyW t - 1) then (x : Int) - 2 ^ tyW t else x

/-- w bits of an integer. -/
def intBits (w : Nat) (i : Int) : Nat := (i % (2 ^ w : Int)).toNat

/-- R50: a value to an integer kind. -/
def toIntKind (t : Ty) (rm : Rm) (r : Nat) (x : FVal) : Int × Flags :=
  match x with
  | .nan _ => (0, fNV)
  | .inf n => (if n then intMin t else intMax t, fNV)
  | .zero _ => (0, 0)
  | .num n m e st =>
    let q := roundAt rm n m e st r 0
    let v := signed n q.1
    if v > intMax t then (intMax t, fNV)
    else if v < intMin t then (intMin t, fNV)
    else (v, if q.2 then fNX else 0)

/-- R51: an integer as a value. -/
def intToVal (i : Int) : FVal := ofInt i 0 false

/-- R51: saturation between integer kinds. -/
def satInt (t : Ty) (i : Int) : Int := max (intMin t) (min (intMax t) i)

end Sys2Proof.Machine
end

