-- ==== Sys2Proof/Machine/Map.lean ====
section
/-! DEFINITION. Finite maps and canonical memories as plain lists: reading, writing, and the sorted form of memory. -/

namespace Sys2Proof.Machine

/-- The value of a key, d when it has none. -/
def mget {κ α : Type} [DecidableEq κ] (m : KMap κ α) (d : α) (k : κ) : α :=
  match m with
  | [] => d
  | (k', v) :: t => if k' = k then v else mget t d k

/-- The map with this value for a key; a new key goes last. -/
def mput {κ α : Type} [DecidableEq κ] (m : KMap κ α) (k : κ) (v : α) : KMap κ α :=
  match m with
  | [] => [(k, v)]
  | (k', v') :: t => if k' = k then (k, v) :: t else (k', v') :: mput t k v

/-- The map without a key. -/
def mdel {κ α : Type} [DecidableEq κ] (m : KMap κ α) (k : κ) : KMap κ α := m.filter (fun x => x.1 ≠ k)

/-- Whether a key is listed. -/
def mhas {κ α : Type} [DecidableEq κ] (m : KMap κ α) (k : κ) : Bool := m.any (fun x => decide (x.1 = k))

/-- The value of a key, if listed. -/
def mfind {κ α : Type} [DecidableEq κ] (m : KMap κ α) (k : κ) : Option α :=
  match m with
  | [] => none
  | (k', v) :: t => if k' = k then some v else mfind t k

/-! ### Sorting -/

/-- A list in order with x put before the first element it may stand before. -/
def insertBy {α : Type} (le : α → α → Bool) (x : α) : List α → List α
  | [] => [x]
  | y :: t => if le x y then x :: y :: t else y :: insertBy le x t

/-- A list in the order of le, equals in the order they had. -/
def sortBy {α : Type} (le : α → α → Bool) : List α → List α
  | [] => []
  | x :: t => insertBy le x (sortBy le t)

/-! ### Bytes: addresses rise strictly and no byte listed is 0 (log 1) -/

/-- The byte at an address; an unlisted byte reads 0. -/
def memGet (m : List (Nat × Byte)) (a : Nat) : Byte :=
  match m with
  | [] => 0
  | (k, v) :: t => if k = a then v else if a < k then 0 else memGet t a

/-- The memory with this byte, in canonical form. -/
def memSet (m : List (Nat × Byte)) (a : Nat) (b : Byte) : List (Nat × Byte) :=
  match m with
  | [] => if b = 0 then [] else [(a, b)]
  | (k, v) :: t =>
    if k < a then (k, v) :: memSet t a b
    else if k = a then (if b = 0 then t else (a, b) :: t)
    else if b = 0 then (k, v) :: t else (a, b) :: (k, v) :: t

/-- The canonical form: addresses rise strictly, and no byte listed reads as an unlisted one does. -/
def memWf (m : List (Nat × Byte)) : Bool :=
  match m with
  | [] => true
  | (_, v) :: [] => v != 0
  | (k, v) :: (k', v') :: t => v != 0 && decide (k < k') && memWf ((k', v') :: t)

/-- n bytes from a, the lowest address in the lowest bits (R36). -/
def memRead (m : List (Nat × Byte)) (a : Nat) (n : Nat) : Nat :=
  match n with
  | 0 => 0
  | n + 1 => (memGet m a).toNat + 256 * memRead m (a + 1) n

/-- The n low bytes of v written from a on (R36). -/
def memWrite (m : List (Nat × Byte)) (a : Nat) (n : Nat) (v : Nat) : List (Nat × Byte) :=
  match n with
  | 0 => m
  | n + 1 => memWrite (memSet m a (BitVec.ofNat 8 v)) (a + 1) n (v / 256)

/-- n bytes from a set to 0. -/
def memClear (m : List (Nat × Byte)) (a n : Nat) : List (Nat × Byte) :=
  m.filter fun x => x.1 < a || a + n ≤ x.1

/-! ### Sorted sets of addresses: the full words of the scratchpads -/

def setHas (m : List Nat) (a : Nat) : Bool := m.contains a

/-- The set with a, in rising order. -/
def setAdd (m : List Nat) (a : Nat) : List Nat :=
  match m with
  | [] => [a]
  | k :: t => if k < a then k :: setAdd t a else if k = a then k :: t else a :: k :: t

def setDel (m : List Nat) (a : Nat) : List Nat := m.filter (· ≠ a)

end Sys2Proof.Machine
end

