-- ==== Sys2Proof/Config.lean ====
section
/-! DEFINITION. What the spec leaves to the part: the free values, which nothing can evaluate, and the constants of this module. -/

namespace Sys2Proof.Config

/-- Free value (DESIGN CHOICE, log 2): the n-th latency the spec states no figure for, in clk (R31, R247). -/
opaque delay : Nat → Nat

/-- Free value (DESIGN CHOICE, log 13): the n-th choice the spec gives no rule for (which line a full cache evicts). -/
opaque pick : Nat → Nat

/-- Free value (DESIGN CHOICE, log 11): word w of item n of what the security engine answers with: certificates, digests and
signatures (R398). -/
opaque secret : Nat → Nat → W64

/-- Free value (DESIGN CHOICE, log 11): whether the security engine accepts the firmware image of an index and version (R399). -/
opaque imageOk : Nat → Nat → Bool

/-- Free values (DESIGN CHOICE, log 29): what boot finds and firmware writes: the node number, the route entry of a node, the
capacity in GiB behind a downstream port, and the PASID table base (R229, R235, R391, R393). -/
opaque bootNode : Nat
opaque bootRoute : Nat → Nat
opaque farGiB : Nat → Nat
opaque bootPasidBase : W64

/-- Free value (DESIGN CHOICE, log 7): what is fused into the LCAP of a lap core of a cluster. -/
opaque fusedLcap : Nat → Nat → Nat

/-- LCAP of a lap core (R202: fused, 1,920 to 2,048). -/
def lcap (kid core : Nat) : Nat := max 1920 (min 2048 (fusedLcap kid core))

/-- Free value (DESIGN CHOICE, log 57): what the array takes for a byte of a tile image that is uncorrectable, which R242 gives
it no data for: by a counter and the byte's place. -/
opaque lostByte : Nat → Nat → BitVec 8

/-- Lines of a second-level slice (R224). -/
def l2Lines : Nat := 65536

/-- Lines of a cluster cache (R224). -/
def cchLines : Nat := 8192

/-- Lowest address of HBM's upper end: DPA below this is HBM (R232). -/
def hbmEnd : Nat := 0x6000000000

/-- First DPA of the CXL far tier (R232). -/
def farBase : Nat := 0x10000000000

/-- First DPA above the far tier's range (R232). -/
def farEnd : Nat := 0x30000000000

end Sys2Proof.Config
end

