-- ==== Sys2Proof/Machine/State.lean ====
section
/-! DEFINITION. The state of the machine as plain data, and the state after package reset. Each field names the rule of the
spec that gives it; a reset value the spec does not give is the one of log 7 or log 1. -/

namespace Sys2Proof.Machine

/-! ### Accesses -/

/-- What an access does at its place (R245 to R253, R374). -/
inductive AccOp where
  | load (ty : Ty) (hi : Bool)
  | tload (ty : Ty) (eps : W64)
  | store (ty : Ty) (hi : Bool) (v : W64)
  | addm (ty : Ty) (v : W64)
  | amo (op : AmoOp) (ty : Ty) (v : W64)
  | cas (ty : Ty) (e n : W64)
  | sts (ty : Ty) (stride : W64) (vals : List W64)
  | pref
  | take (ty : Ty)
  | peek (ty : Ty)
  | give (ty : Ty) (v : W64)
  | pegArm (t : Nat)
  | pegAdd (n : Nat)
  | pegWait (g : Nat)
  | mmioRead
  | mmioWrite (v : W64)
  | msg (words : List W64) (ctr : Option Nat)
  | reply (tag : Nat) (v : W64)
  /-- a write accepted by a cluster cache: bytes of a line, by offset (R285) -/
  | lineWrite (bytes : List (Nat × Byte))
  /-- withheld sums of a line (R297); true returns the allowance -/
  | drain (ty : Ty) (sums : List (Nat × W64)) (back : Bool)
  /-- a store pushed onto an engine's command queue (R337, R410) -/
  | kick (v : W64) (scope : Scope)
deriving DecidableEq, Repr

/-! ### Harts: lap threads and engine harts -/

/-- Where a thread stands with the rotation (R31, R33, R107, R212, R216). -/
inductive Rot where
  | ready | parked | out | halted | trapped | debug
deriving DecidableEq, Repr

/-- What a parked thread waits on (R216). -/
inductive Wait where
  | none
  | word (a : W64)
  | trigger (n : Nat)
  | peg (a : W64)
  | reply (tag : Nat)
  | port (d : Dir)
  | own (spec : Nat)
deriving DecidableEq, Repr

/-- A gather of the address queue (R216, R245). -/
structure Gath where
  addr : W64
  ty : Ty
  hi : Bool
  /-- its place in program order among the posted stores of its entity (R282) -/
  no : Nat
deriving DecidableEq, Repr

/-- An entry of the data queue: a word, or a fault in its place with its gather (R216, R241). -/
inductive DqEnt where
  | word (v : W64)
  | fault (code : Nat) (g : Gath)
  /-- the fault has been raised; the next read sends the gather again -/
  | resend (g : Gath)
  /-- sent again, with the clk it may land -/
  | flying (g : Gath) (due : Nat)
deriving DecidableEq, Repr

/-- The answer to a request: a value, or a fault with its address. -/
inductive Ans where
  | ok (v : W64)
  | err (code : Nat) (addr : W64)
deriving DecidableEq, Repr

/-- A decode table (R57, R58, R134, R346): code width, tiny bound, 256 entries. -/
structure DTab where
  width : Nat
  tiny : W32
  entries : List W32
deriving DecidableEq, Repr

/-- What a landing does beside writing its destination. -/
inductive LandAct where
  | plain
  | flags (f : BitVec 5)
  /-- the reply of a call, from a node -/
  | replySlot (node : Nat)
  /-- a mode to be written, and whether the control cores have been idle since (R213) -/
  | mumode (v : Nat) (idle : Bool)
  /-- records to be taken from the next core's sled (R323, R325) -/
  | steal
  /-- a decode table to be replaced (R347) -/
  | table (t : TabId) (x : DTab)
  /-- a batch record: the pt its release waits for, once its first stage has ended, and the counter still to decrement (R290, R359) -/
  | build (target : Option Nat) (ctr : Option W64)
  | drainFence
  /-- the reply of a matrix job (R327) -/
  | job
  /-- a new entry of a die's tolerance region table (R366) -/
  | region (die idx : Nat) (w0 w1 : W64)
  /-- progress of a copy whose store to another node has been answered: elements done before and after it (R339) -/
  | progress (was n : Nat)
deriving DecidableEq, Repr

/-- A directed link: words with their push clk, oldest first, and the clk of the last pop (R110). -/
structure Link where
  words : List (Nat × W64)
  popAt : Option Nat
deriving DecidableEq, Repr

/-- An access of an instruction or a gather that a hart executes for it at the restore of a saved cluster (R230): its answer, once there
is one. -/
structure Early where
  addr : W64
  op : AccOp
  gather : Bool
  ans : Option Ans
deriving DecidableEq, Repr

/-- A result still to land for a thread that is out of the rotation (R107, R109, R247, R345). -/
structure Pend where
  /-- the instruction's word, for TINSN -/
  insn : W64
  /-- where the thread goes on -/
  next : W64
  /-- destination -/
  dst : Option LSpec
  /-- acquire scope of the landing (R279) -/
  acq : Option Scope
  act : LandAct
  /-- the clk from which it may land, when known -/
  due : Option Nat
  ans : Option Ans
  /-- a long operation of R109 -/
  long : Bool
deriving DecidableEq, Repr

/-- A release on its way: scope, and the pt its second stage waits for (R290). -/
structure Release where
  scope : Scope
  target : Option Nat
deriving DecidableEq, Repr

/-- The trap registers (R200, R201). -/
structure TrapRegs where
  level : Nat
  hnd : Bool
  epc : W64
  cause : W64
  addr : W64
  insn : W64
  scr : W64
deriving DecidableEq, Repr

/-- A lap thread or an engine hart (R84, R100, R198 to R200, R216). -/
structure Hart where
  rot : Rot
  wait : Wait
  pc : W64
  base : Nat
  size : Nat
  s : Vector W64 128
  h : Vector W64 16
  p : Vector Bool 7
  flg : W64
  tr : TrapRegs
  /-- park count (R384) -/
  parkN : Nat
  /-- address queue, oldest first, with the clk each may land (R318) -/
  aq : List (Gath × Nat)
  dq : List DqEnt
  /-- the armed reply slot (R320, R322) -/
  slot : Option Nat
  callTag : BitVec 16
  /-- the address of a recorded posted write failure (R241) -/
  pwf : Option W64
  /-- visibility horizon (R287) -/
  horizon : Nat
  pend : Option Pend
  rel : Option Release
  /-- the release of the instruction at pc has been made -/
  relDone : Bool
  /-- a posted write failed is to be raised at the next boundary, with the releasing word (R203, R204) -/
  late : Option W64
  /-- it waits for a synchronous trap to return (R204) -/
  lateHeld : Bool
  /-- the clk of the first bank forfeit (R32) -/
  forfeit : Option Nat
  /-- the clk of the first bank forfeit of the gather that is to land (R32) -/
  gAge : Option Nat
  /-- accesses of its instruction that have been granted their banks in earlier clk (R32) -/
  reads : Nat := 0
  /-- accesses that saved clusters' harts execute for it (R230) -/
  early : List Early := []
  /-- the link it is parked on, as it last met it (R111) -/
  seen : Option Link := none
  /-- a sync-stall fault that fell due with a synchronous fault waits for that to return (R204) -/
  stall : Bool := false
deriving DecidableEq, Repr

/-- A message of an inbox: words still to be popped, whether the header is one of them, and the scope its pop acquires (R279, R320). -/
structure InMsg where
  words : List W64
  head : Bool
  scope : Scope
deriving DecidableEq, Repr

/-- A trigger counter (R369), with the scope the wake acquires (R372). -/
structure Trig where
  count : Nat
  slot : Nat
  bound : Bool
  under : Bool
  acq : Option Scope
deriving DecidableEq, Repr

/-- An entry of the token translation buffer (R353). -/
structure TokEnt where
  v : Bool
  blk : BitVec 32
  seq : BitVec 16
  addr : W64
deriving DecidableEq, Repr

/-- A lap core (R110, R202, R320, R323, R353, R369, R383). -/
structure LapCore where
  /-- links from this core to its neighbours -/
  north : Link
  east : Link
  south : Link
  west : Link
  inbox : List InMsg
  /-- sled, oldest first -/
  sled : List (W64 × W64)
  /-- the clk of the last operation on the sled (R323) -/
  sledAt : Option Nat
  trig : Vector Trig 16
  tokVec : W64
  toks : Vector TokEnt 64
  victim : Nat
  thr : Nat
  wen : Bool
deriving DecidableEq, Repr

/-! ### Control cores -/

/-- A register a result lands in (R142). -/
inductive CReg where
  | c (x : Nat) (n : BitVec 6)
  | q (x : Nat) (n : BitVec 4)
  | m (x : Nat) (n : BitVec 3)
  | v (n : Nat)
  /-- `vz`: what is written there is discarded (R87) -/
  | z
deriving DecidableEq, Repr

/-- A value of such a register: low bits of a vector. -/
structure PWrite where
  /-- context that issued it -/
  x : Nat
  reg : CReg
  /-- value, as the low bits -/
  val : VReg
  /-- lanes written, as bits of the register; none for a whole register -/
  mask : Option VReg
  /-- schedule cycles still to pass, landing at the end of the cycle at 0 (R141) -/
  left : Nat
  flags : BitVec 5
deriving DecidableEq, Repr

/-- An entry of a store buffer: an ST syllable waiting to be written (R170). -/
structure StEnt where
  give : Bool
  /-- what it writes: scratchpad offset, value, and the address as sent -/
  elems : List (Nat × Nat × W64)
  /-- type of the elements -/
  ty : Ty
  /-- words whose bank is still to be granted (R32) -/
  need : List Nat
  /-- the clk of the first bank forfeit (R32) -/
  age : Option Nat
deriving DecidableEq, Repr

/-- The jig of a context (R331 to R334). -/
structure JigState where
  n : Nat
  recording : Bool
  running : Bool
  waiting : Bool
  recorded : Nat
  next : Nat
  stride : W64
  passes : Nat
  pass : Nat
  entries : List JigEntry
deriving DecidableEq, Repr

/-- An entry of a window replay record (R218). -/
structure Replay where
  reg : CReg
  x : Nat
  left : Nat
  held : VReg
deriving DecidableEq, Repr

/-- A fault of a context whose trap is not entered yet: what CTXCAU and CTXADR get, and the schedule cycles until the writes issued
before the bundle have landed (R150). -/
structure Fall where
  cau : W64
  adr : W64
  code : Nat
  left : Nat
deriving DecidableEq, Repr

/-- A control-core context (R136, R138, R198, R202, R206, R329). -/
structure Ctx where
  c : Vector W64 64
  /-- q1 to q15 are 1 to 15 -/
  q : Vector Bool 16
  m : Vector MReg 8
  pc : W64
  npc : W64
  nnpc : W64
  /-- CTXST.state (R138) -/
  state : Nat
  wait : Nat
  gover : Bool
  lastf : Nat
  flg : W64
  wchk : Bool
  cau : W64
  epc : W64
  adr : W64
  sbuf : List StEnt
  /-- a store was refused since the last FENCEC or HALTC (R170) -/
  refused : Bool
  handles : List (BitVec 16)
  jig : JigState
  /-- SY seals and CPGO pushes that wait for earlier ST entries, with how many of these are left (R274, R337) -/
  seals : List (BitVec 16 × Nat)
  cpgos : List (W64 × Nat)
  /-- issuer tag of the job being run (R326) -/
  job : Option W64
  /-- the windows its own writes left open at a fault, until it has reissued (R206, R207) -/
  replay : List Replay
  /-- a fault met, its trap still to be entered (R150) -/
  fall : Option Fall
  horizon : Nat
deriving DecidableEq, Repr

/-- An accumulator (R171, R172). -/
structure Accu where
  /-- the elements that are not +0: (64 row + column, pattern), rising -/
  elems : List (Nat × W64)
  st : W64
  th : W64
  row : W64
  col : W64
  raise : List W32
  snap : List W32
  /-- elements decided true and still running (R181) -/
  decided : List Nat
deriving DecidableEq, Repr

/-- A step of the array (R175, R188): accumulator, handles, whether B is the latch, and its issuer's context. -/
structure AStep where
  acc : Nat
  x : Nat
  a : BitVec 16
  b : Option (BitVec 16)
  /-- array clk still to run, once started -/
  left : Nat
deriving DecidableEq, Repr

/-- A matrix job in the queue (R326, R327). -/
structure MJob where
  entry : W64
  arg : W64
  tag : W64
deriving DecidableEq, Repr

/-- A control core (R137, R142, R146, R148, R171, R175, R326, R383). -/
structure CcState where
  /-- the vector registers that are not 0 -/
  v : KMap Nat VReg
  pending : List PWrite
  /-- rows on their way out of the array: schedule cycles still to pass, as in PWrite, and what `fl` shows then (R137, R191) -/
  flq : List (Nat × VReg)
  acc : Vector Accu 4
  queue : List AStep
  run : Option AStep
  jobs : List MJob
  issuing : Nat
  /-- the issuing context has given up its turn (R148) -/
  yield : Bool
  /-- 0 when the core is not frozen; else 1 and the clk counted so far (R146) -/
  freeze : Nat
  /-- only a step wait holds (R146) -/
  stepWait : Bool
  /-- the frozen clk in which the issuing context has trapped (R146, R190) -/
  heldAt : Option Nat := none
  /-- clk of the reads before the issue cycle that are still to pass, once begun (R190, R352) -/
  pre : Option Nat
  /-- words the LD syllable of the waiting bundle still wants its banks granted for (R146) -/
  ldNeed : Option (List Nat)
  /-- the clk of the first bank forfeit of that syllable (R32) -/
  ldAge : Option Nat
  /-- the context whose MROT has made its first phase (R179) -/
  rotBy : Option Nat
  scyc : W64
  frz : W64
  loaded : Nat
  /-- the window replay record of a core that stands still for a save (R151, R218) -/
  overlay : List Replay
deriving DecidableEq, Repr

/-! ### Clusters -/

/-- A tile-buffer index (R257, R259, R270). -/
structure Tile where
  base : Nat
  state : Nat
  gen : Nat
  cause : Nat
  dest : Nat
  pend : Bool
  ty : Ty
  nk : Nk
  wide : Bool
  xrows : Nat
  xper : Nat
  vmask : W64
  expn : Nat
  arrn : Nat
  timer : Nat
  opnpt : Nat
  /-- the pt at which the seal timer of an open buffer fires (R264) -/
  due : Nat
  selpt : Nat
  refc : Nat
  refad : W64
  /-- a release waits for array steps (R258) -/
  releasing : Bool
deriving DecidableEq, Repr

/-- What the operand latch holds (R171, R179). -/
inductive Latch where
  | empty
  /-- a tile image: its type and kind, row mask, index base, norms and scales present, and its header and data bytes -/
  | tile (ty : Ty) (nk : Nk) (wide : Bool) (vmask : W64) (bytes : List Byte)
  /-- a podium image: pairs and raise values of each row -/
  | podium (st : W64) (elems : List (Nat × W64)) (raise : List W32)
deriving DecidableEq, Repr

/-- A line of a cluster cache (R233, R286, R296). -/
structure CchLine where
  pasid : Nat
  /-- virtual address of the line -/
  line : Nat
  dpa : Nat
  host : Bool
  rd : Bool
  wr : Bool
  ex : Bool
  usr : Bool
  /-- the data copy, and which of its bytes it holds (R291) -/
  data : BitVec 512
  valid : W64
  expiry : Nat
  /-- writes of the cluster to the line not yet at the home, and the bytes they wrote (R286) -/
  inflight : Nat
  dirty : W64
  /-- allowance held, in the tracker format (R296) -/
  allow : Option W64
  tracker : W64
  sums : List (Nat × W64)
  /-- allowances outstanding at the grant of the lease (R298) -/
  osum : List W64
  /-- the cluster has issued an addition to the line since that grant (R298) -/
  added : Bool := false
  /-- an acquire has met the line while a write was on its way, and R286 has kept it (R291, log 32) -/
  acquired : Bool := false
  /-- issuers of the relaxed additions that are withheld: offset in the line, issuer (R241) -/
  posters : List (Nat × Ent) := []
deriving DecidableEq, Repr

/-- A command of an engine's queue; none is a reserved entry still to be filled (R337, R338). -/
structure EngCmd where
  word : Option W64
  tag : W64
  scope : Option Scope
  /-- the launch of the pusher: its die and its count (R410) -/
  launch : Option (Nat × Nat)
  /-- the cluster whose kick word was stored to -/
  kid : Nat
deriving DecidableEq, Repr

/-- What an engine runs (R338), with the cluster of its block. -/
inductive EngRun where
  | idle
  | placed
  | cmd (word tag : W64) (kid : Nat)
  /-- the run has ended and its mailbox is still to be given -/
  | ending (word tag value : W64) (kid : Nat)
deriving DecidableEq, Repr

/-- A copy engine or routing engine beside its hart (R337, R338, R341, R410). -/
structure Engine where
  queue : List EngCmd
  run : EngRun
  /-- flags raised by the run (R338) -/
  flags : BitVec 5
  lastFault : Nat
  /-- launch whose PASID the run uses: its die and its count (R230, R410) -/
  launch : Option (Nat × Nat)
  /-- elements done of a copy that is under way (R339, R341) -/
  progress : Option Nat
  /-- the record of a routing pass that is under way, read once (R363) -/
  pass : Option (List W64)
deriving DecidableEq, Repr

/-- A cluster (R22, R179, R202, R257, R286, R335, R350, R378, R383). -/
structure Cluster where
  /-- the launch that runs here, by its count (R27) -/
  launch : Option Nat
  mumode : Nat
  clsvec : W64
  cldeleg : W32
  cctd : BitVec 10
  latch : Latch
  incoming : Latch
  rngKey : W64
  rngCtr : BitVec 128
  rngQ : List W64
  /-- clk of the last random block -/
  rngAt : Nat
  tiles : KMap Nat Tile
  posts : List Nat
  bumps : Vector (W64 × W64) 8
  /-- shape records cached, most recently used first (R350) -/
  shapes : List (W64 × List W64)
  cch : List CchLine
  horizon : Nat
  ce : Engine
  psel : W64
  pmc : Vector (BitVec 48) 8
  /-- bank grants of this clk: local banks of a core or scratchpad banks (R32) -/
  grants : List Nat
  /-- the last clk for which grants stand -/
  grantsAt : Nat
deriving DecidableEq, Repr

/-! ### Requests on their way -/

/-- Where a request stands. -/
inductive Phase where
  /-- on the mesh towards a translation station -/
  | station
  /-- held by a miss register -/
  | miss
  /-- translated, on the way to the home -/
  | home
  /-- a write or drain on the way to the home -/
  | write
  /-- on the way to a scratchpad controller -/
  | fabric
  /-- held by a controller until its condition holds (R245) -/
  | held
  /-- a tolerant load that waits for forced drains (R298) -/
  | tolerant
  /-- posted, not yet at its place -/
  | posted
  /-- on a link to another node -/
  | link
  /-- a message on the way to an inbox -/
  | message
  /-- a message told to retry -/
  | resend
  /-- a reply on the way -/
  | replying
  /-- told to retry by a full controller (R245) -/
  | retry
deriving DecidableEq, Repr

/-- A request on its way (R31). -/
structure Req where
  who : Ent
  /-- the PASID it carries; none for a command stream hart (R230) -/
  pasid : Option Nat
  /-- issuer's level (R231, R239) -/
  level : Nat
  addr : W64
  op : AccOp
  phase : Phase
  due : Nat
  /-- nobody waits for the answer (R241) -/
  posted : Bool
  dpa : Nat
  /-- the cluster whose cache took it -/
  kid : Nat
  /-- destination of a message or reply (R320) -/
  dest : W64
  /-- the clk of the first bank forfeit (R32) -/
  forfeit : Option Nat := none
  /-- a write of class r that the cluster cache has accepted (R241) -/
  relaxed : Bool := false
  /-- the pt at which its instruction issued it (R287); none for what has no instruction -/
  issued : Option Nat := none
  /-- issuers of the relaxed additions that a drain carries: offset in the line, issuer (R241) -/
  posters : List (Nat × Ent) := []
  /-- its answer goes to the issuer's list of accesses that saved clusters' harts execute (R230) -/
  early : Bool := false
  /-- its issuer's launch has left its clusters: nobody is told of the answer (log 12) -/
  gone : Bool := false
deriving DecidableEq, Repr

/-- A leaf that a station or a cluster cache may use (R237); absent is a host answer of not present, used once (R235). -/
structure Leaf where
  absent : Bool
  dpa : Nat
  host : Bool
  rd : Bool
  wr : Bool
  ex : Bool
  usr : Bool
deriving DecidableEq, Repr

/-- A walk, with its miss register (R240). -/
structure Walk where
  die : Nat
  pasid : Nat
  /-- virtual address of the 4 KiB page -/
  page : Nat
  reqs : List Nat
  due : Nat
  /-- an ATS request to the host (R235) -/
  ats : Bool
  /-- the station's walker has begun it: at most 32 at once (R240) -/
  begun : Bool
deriving DecidableEq, Repr

/-- A registration of a home slice (R289, R364). -/
structure Registration where
  base : Nat
  stride : W64
  count : Nat
  width : Nat
  kid : Nat
  /-- the slice's arrival count -/
  age : Nat
deriving DecidableEq, Repr

/-! ### Launches, queues, dies -/

/-- A program image's header and placement map as the hart read them (R97, R98). -/
structure Image where
  reloc : Bool
  rinks : Nat
  lapOff : Nat
  lapSize : Nat
  bunOff : Nat
  bunSize : Nat
  engOff : Nat
  engSize : Nat
  datOff : Nat
  datSize : Nat
  hasHandler : Bool
  handler : Nat
  deleg : W32
  map : List (List Byte)
deriving DecidableEq, Repr

/-- A cluster saved by pre-emption (R215). What the save area lays out is in memory, at its save area (log 10); here are the records as
they stood, for the parts of them that the area has no place for. -/
structure SavedCluster where
  pos : Nat
  cluster : Cluster
  cores : List (Nat × LapCore)
  harts : List (Ent × Hart)
  ccs : List (Nat × CcState)
  ctxs : List ((Nat × Nat) × Ctx)
deriving DecidableEq, Repr

/-- A launch that has been started (R27, R30, R214, R221). -/
structure Launch where
  /-- count of launches of the die; its low 8 bits are the generation -/
  count : Nat
  die : Nat
  queue : Nat
  prio : Nat
  pasid : Nat
  /-- the vector of its queue when it started (R306) -/
  vec : Nat
  pkt : List W64
  img : Image
  /-- rinks it holds or was saved from, ascending -/
  rinks : List Nat
  saved : Option (List SavedCluster)
  /-- traffic the hart keeps for it: request numbers, in arrival order (R230) -/
  kept : List Nat
  /-- routing-engine commands saved with it (R214) -/
  reCmds : List EngCmd
  restores : Nat
  /-- fault code of the first end by fault (R30) -/
  faultEnd : Option Nat
  /-- being stopped for a pre-emption (R214) -/
  stopping : Bool
  /-- rinks on which a capacity check has failed (R220) -/
  badRinks : List (List Nat)
  /-- it has been killed and is still to complete (R307) -/
  killed : Bool := false
  /-- requests of its own entities that were told to retry, or were kept for another saved launch, at its save (R214) -/
  own : List Nat := []
  /-- its routing-engine commands saved from the queues of other dies: die, command (R214, R410) -/
  farCmds : List (Nat × EngCmd) := []
deriving DecidableEq, Repr

/-- A completion record whose write waits for a translation (R310), with the vector to raise after it. -/
structure Owed where
  die : Nat
  pasid : Nat
  addr : Nat
  value : W64
  vec : Option Nat
deriving DecidableEq, Repr

/-- A host work queue (R306, R307). -/
structure HQueue where
  base : W64
  cfg : W64
  head : W32
  tail : W32
  state : Nat
  cause : Nat
  /-- a barrier packet that has been consumed and not completed (R309) -/
  barrier : Option (List W64)
deriving DecidableEq, Repr

/-- An entry of an error-log queue (R314). -/
structure LogEnt where
  w0 : W64
  w1 : W64
  w2 : W64
  w3 : W64
deriving DecidableEq, Repr

/-- A compute die (R311, R314, R356, R376, R401). -/
structure Die where
  re : Engine
  /-- shape records of the routing engine, most recently used first (R350) -/
  shapes : List (W64 × List W64)
  /-- last queue served (R311) -/
  lastq : Nat
  launches : Nat
  seqs : KMap Nat (List W64)
  admits : W32
  builds : W32
  /-- the clk from which the table unit is idle (R345, R356) -/
  unitFree : Nat
  experts : KMap Nat (W64 × W64)
  regions : KMap Nat (W64 × W64)
  rcs : KMap Nat W64
  log : KMap Nat LogEnt
  logHead : W32
  logTail : W32
  dropped : W64
  corrected : W64
  /-- registrations of the home slices, oldest first: slice, entry (R364) -/
  regs : List (Nat × Registration)
  /-- arrival counts of the slices (R364) -/
  regAges : KMap Nat Nat
  /-- lines the second-level slices hold, by DPA, and whether each is to be written back (R224); what they hold is in mem -/
  l2 : KMap Nat Bool
  /-- allowances outstanding: (line DPA, cluster), allowance (R295) -/
  allows : KMap (Nat × Nat) W64
  /-- forced drains sent and not yet received: line DPA, cluster (R298) -/
  forced : List (Nat × Nat)
deriving DecidableEq, Repr

/-- A Creurn port (R394, R395). -/
structure Port where
  up : Bool
  peer : Nat
  status : W64
  /-- consecutive retries of the flit at the front (R395) -/
  fails : Nat
  /-- the pt at which the last flit came (R395) -/
  flitAt : Nat := 0
deriving DecidableEq, Repr

/-- What has left the part. -/
inductive Out where
  /-- an MSI-X message: the vector, and the address and data of its table entry (R387, R397) -/
  | irq (vec : Nat) (addr : W64) (data : W32)
  /-- an access answered to the host -/
  | hostData (addr : Nat) (v : W64)
  | barData (off : Nat) (v : W64)
  /-- what a read of BAR2 is answered (R387) -/
  | bar2Data (off : Nat) (v : W64)
  /-- a write, update, message or reply to another node, with its PASID (R229, R230, R294, R322) -/
  | link (node : Nat) (pasid : Option Nat) (addr : W64) (op : AccOp)
  /-- the answer to an inbound access: 0, or a fault code (R394) -/
  | linkAnswer (node : Nat) (addr : W64) (code : Nat)
  /-- a back-invalidation or snoop to the host (R389, R390) -/
  | snoop (line : Nat)
  | ats (pasid page : Nat)
  | pri (pasid page : Nat)
  /-- an answer of the security engine (R398) -/
  | spdm (code : Nat) (words : List W64)
  /-- a notice to a peer or the platform -/
  | notice (code arg : Nat)
deriving DecidableEq, Repr

/-- A soft error (R400): one that is corrected, in a memory of a die, or one that cannot be, in a word of a physical address (R242). -/
inductive Upset where
  | corrected (die : Nat)
  | lost (addr : Nat)
deriving DecidableEq, Repr

/-- What is left to do in this clk. -/
inductive Turn where
  | fetch (e : Ent)
  | ev (i : Instr)
deriving DecidableEq, Repr

/-- The machine. -/
structure State where
  /-- who issues now (the model's own) -/
  actor : Ent
  /-- what is left to do in this clk (the model's own, log 3) -/
  turns : List Turn
  /-- what the outside does, and the clk from which it does it (the model's own, log 14) -/
  inputs : List (Nat × Instr)
  /-- the soft errors that happen, and the clk of each (the model's own, log 48) -/
  upsets : List (Nat × Upset)
  /-- the counter free values are drawn with (the model's own, log 2) -/
  fresh : Nat
  outbox : List Out
  /-- clk since die reset (R20) -/
  clk : Nat
  /-- package time (R381) -/
  pt : Nat
  /-- pt phase of the clock, in MHz x ns (log 16) -/
  phase : Nat
  mem : List Host.Cell
  /-- full scratchpad words, by address (R224) -/
  full : List Nat
  /-- words that hold uncorrectable data, by address (R242) -/
  bad : List Nat
  harts : KMap Ent Hart
  /-- lap cores by cluster and number -/
  cores : KMap (Nat × Nat) LapCore
  ctxs : KMap (Nat × Nat × Nat) Ctx
  ccs : KMap (Nat × Nat) CcState
  clusters : KMap Nat Cluster
  dies : KMap Nat Die
  tabs : KMap TabId DTab
  queues : KMap Nat HQueue
  launches : List Launch
  /-- completion records still to be written (R310) -/
  owed : List Owed
  reqs : KMap Nat Req
  leaves : KMap (Nat × Nat × Nat) Leaf
  /-- table entries the stations hold: station, PASID, level and the address bits that select it; the entry (R240) -/
  tables : KMap (Nat × Nat × Nat × Nat) W64
  walks : List Walk
  /-- package registers (R231) -/
  node : Nat
  lease : Nat
  /-- lease lengths and the pt from which each stood, newest first (R287) -/
  leases : List (Nat × Nat)
  bootStage : Nat
  thermal : Bool
  powerCap : Nat
  mhz : Nat
  thr : Nat
  pasidBase : W64
  evvec : W64
  tcmd : W64
  tbase : W64
  tpages : W64
  tstatus : W64
  /-- requests an invalidation waits for (R240) -/
  tinval : Option (List Nat)
  ports : KMap Nat Port
  routes : KMap Nat W64
  fars : KMap Nat W64
  /-- vectors whose mask bit is clear (log 20) -/
  msixOpen : List Nat
  /-- address and data words of the MSI-X table (R387) -/
  msixTab : KMap Nat (W64 × W32)
  msixPend : List Nat
  /-- lines the host holds of device memory (R389) -/
  hostHeld : List Nat
  /-- back-invalidations not yet answered: line, cluster whose write caused it (R389) -/
  snoops : List (Nat × Option Nat)
  spdmAlgs : Option (Bool × Bool)
  /-- firmware images that wait for the next package reset: index, version (R399) -/
  fwPending : KMap Nat Nat
  fwVersion : KMap Nat Nat
  haltOnBreak : Bool
  /-- entities whose escalated fault the hart has logged: the clk at which it kills one, or none while it waits for a PRI
  answer (R210) -/
  escalated : List (Ent × Option Nat)
deriving DecidableEq, Repr

/-- Why the machine stops with a fault: never. The spec answers every access with a value, a trap or an error response (R31), so
no meaning of the model raises a fault and the type has no constructor. Safe. -/
inductive Fault where
deriving DecidableEq, Repr

/-- Why the machine gives no meaning. -/
inductive Refusal where
  /-- Raised by exec's arms for an instruction that has no meaning in the model. Safe. -/
  | notModelled (mnemonic : String)
  /-- Raised by a lap meaning when the actor is no lap thread and no engine hart, and by the bundle meaning when it is no
  context: no hart is there to run the instruction (the words of the other set are not instructions of it, R68, R86). Safe. -/
  | noHart
deriving DecidableEq, Repr

/-! ### The empty records -/

def TrapRegs.zero : TrapRegs :=
  { level := 0, hnd := false, epc := 0, cause := 0, addr := 0, insn := 0, scr := 0 }

/-- R100, R199, R200: a hart nothing has placed. -/
def Hart.zero : Hart :=
  { rot := .halted, wait := .none, pc := 0, base := 0, size := 0, s := Vector.replicate 128 0, h := Vector.replicate 16 0,
    p := Vector.replicate 7 false, flg := 0, tr := .zero, parkN := 0, aq := [], dq := [], slot := none, callTag := 0,
    pwf := none, horizon := 0, pend := none, rel := none, relDone := false, late := none, lateHeld := false, forfeit := none, gAge := none }

def Link.zero : Link := { words := [], popAt := none }

def Trig.zero : Trig := { count := 0, slot := 0, bound := false, under := false, acq := none }

def TokEnt.zero : TokEnt := { v := false, blk := 0, seq := 0, addr := 0 }

/-- R383: a core as a launch starts it. -/
def LapCore.zero : LapCore :=
  { north := .zero, east := .zero, south := .zero, west := .zero, inbox := [], sled := [], sledAt := none,
    trig := Vector.replicate 16 .zero, tokVec := 0, toks := Vector.replicate 64 .zero, victim := 0, thr := 0x100000,
    wen := true }

/-- R134: the table before the first load: every entry of the NaN class, width 8, tiny bound 2^-126. -/
def DTab.zero : DTab :=
  { width := 8, tiny := 0x00800000, entries := List.replicate 256 0x00180000 }

def JigState.zero : JigState :=
  { n := 0, recording := false, running := false, waiting := false, recorded := 0, next := 0, stride := 0, passes := 0,
    pass := 0, entries := [] }

/-- R136, R138: a context nothing has placed. -/
def Ctx.zero : Ctx :=
  { c := Vector.replicate 64 0, q := Vector.replicate 16 false, m := Vector.replicate 8 0, pc := 0, npc := 64, nnpc := 128,
    state := 0, wait := 0, gover := false, lastf := 0, flg := 0, wchk := true, cau := 0, epc := 0, adr := 0, sbuf := [],
    refused := false, handles := [], jig := .zero, seals := [], cpgos := [], job := none, replay := [], fall := none, horizon := 0 }

/-- R171, R172, R190: a zeroed accumulator. -/
def Accu.zero : Accu :=
  { elems := [], st := 0, th := 0, row := 0, col := BitVec.allOnes 64, raise := List.replicate 64 0xFF800000,
    snap := List.replicate 64 0xFF800000, decided := [] }

/-- R137: a control core at the start of a launch. -/
def CcState.zero : CcState :=
  { v := [], pending := [], flq := [], acc := Vector.replicate 4 .zero, queue := [], run := none, jobs := [], issuing := 0,
    yield := false, freeze := 0, stepWait := false, pre := none, ldNeed := none, ldAge := none, rotBy := none, scyc := 0, frz := 0, loaded := 0, overlay := [] }

/-- R258: a free index of generation 0. -/
def Tile.zero : Tile :=
  { base := 0, state := 0, gen := 0, cause := 0, dest := 0, pend := false, ty := .b64, nk := .e4m3, wide := false, xrows := 0,
    xper := 0, vmask := 0, expn := 0, arrn := 0, timer := 0, opnpt := 0, due := 0, selpt := 0, refc := 0, refad := 0,
    releasing := false }

def Engine.zero : Engine := { queue := [], run := .idle, flags := 0, lastFault := 0, launch := none, progress := none, pass := none }

/-- R202, R258, R335, R378, R383: a free cluster. -/
def Cluster.zero : Cluster :=
  { launch := none, mumode := 0, clsvec := 0, cldeleg := 0, cctd := 0, latch := .empty, incoming := .empty, rngKey := 0,
    rngCtr := 0, rngQ := [], rngAt := 0, tiles := [], posts := [], bumps := Vector.replicate 8 (0, 0), shapes := [], cch := [],
    horizon := 0, ce := .zero, psel := 0, pmc := Vector.replicate 8 0, grants := [], grantsAt := 0 }

def HQueue.zero : HQueue := { base := 0, cfg := 0, head := 0, tail := 0, state := 0, cause := 0, barrier := none }

def Die.zero : Die :=
  { re := .zero, shapes := [], lastq := 4095, launches := 0, seqs := [], admits := 0, builds := 0, unitFree := 0, experts := [], regions := [],
    rcs := [], log := [], logHead := 0, logTail := 0, dropped := 0, corrected := 0, regs := [], regAges := [], l2 := [], allows := [], forced := [] }

def Port.zero : Port := { up := false, peer := 0, status := 0, fails := 0 }

/-- The machine right after package reset (R401, R381, R382 and the reset columns of the register tables; log 7 and log 20
name the values the spec does not state). -/
def State.reset : State :=
  { actor := .hart 0, turns := [], inputs := [], upsets := [], fresh := 0, outbox := [], clk := 0, pt := 0, phase := 0, mem := [], full := [], bad := [],
    harts := [], cores := [], ctxs := [], ccs := [], clusters := [], dies := [], tabs := [], queues := [], launches := [], owed := [],
    reqs := [], leaves := [], tables := [], walks := [], node := 0, lease := 1000, leases := [(0, 1000)], bootStage := 0, thermal := false,
    powerCap := 2400, mhz := 2000, thr := 0, pasidBase := 0, evvec := 0, tcmd := 0, tbase := 0, tpages := 0, tstatus := 0,
    tinval := none, ports := [], routes := [], fars := [], msixOpen := [], msixTab := [], msixPend := [], hostHeld := [], snoops := [], spdmAlgs := none,
    fwPending := [], fwVersion := [], haltOnBreak := false, escalated := [] }

end Sys2Proof.Machine
end

