-- ==== Sys2Proof/Machine/Ops.lean ====
section
/-! DEFINITION. The named operations on the state: who is who, the records of harts, cores, contexts and clusters, time,
memory by physical address, the error log, faults, taking a trap and returning from one. -/

namespace Sys2Proof.Machine

/-! ### Who is who -/

/-- R11: the die of an entity. -/
def entDie : Ent → Nat
  | .lap k _ _ | .ctx k _ _ | .ce k => k / 128
  | .re d | .hart d => d
  | .far _ => 0

/-- The cluster an entity belongs to; engine harts of a die belong to none (R84, R227). -/
def entKid : Ent → Option Nat
  | .lap k _ _ | .ctx k _ _ | .ce k => some k
  | .re _ | .hart _ | .far _ => none

/-- R84: the value of kid. -/
def entKidReg : Ent → Nat
  | .lap k _ _ | .ctx k _ _ | .ce k => k
  | .re d | .hart d => d * 128
  | .far _ => 0

/-- R84, R100: the value of cid. -/
def entCid : Ent → Nat
  | .lap _ c _ => c
  | .ctx _ cc x => 40 + 4 * cc + x
  | .ce _ => 32
  | .re _ => 33
  | .hart _ => 34
  | .far _ => 0

/-- R84, R100: the value of tid. -/
def entTid : Ent → Nat
  | .lap _ _ t => t
  | _ => 0

def entIsLap : Ent → Bool
  | .lap _ _ _ => true
  | _ => false

/-- Whether an entity runs lap words (R84). -/
def entIsHart : Ent → Bool
  | .ctx _ _ _ | .far _ => false
  | _ => true

/-! ### Records -/

def State.hart (s : State) (e : Ent) : Hart := mget s.harts .zero e
def State.setHart (s : State) (e : Ent) (h : Hart) : State := { s with harts := mput s.harts e h }
def State.core (s : State) (k c : Nat) : LapCore := mget s.cores .zero (k, c)
def State.setCore (s : State) (k c : Nat) (x : LapCore) : State := { s with cores := mput s.cores (k, c) x }
def State.ctx (s : State) (k c x : Nat) : Ctx := mget s.ctxs .zero (k, c, x)
def State.setCtx (s : State) (k c x : Nat) (v : Ctx) : State := { s with ctxs := mput s.ctxs (k, c, x) v }
def State.cc (s : State) (k c : Nat) : CcState := mget s.ccs .zero (k, c)
def State.setCc (s : State) (k c : Nat) (v : CcState) : State := { s with ccs := mput s.ccs (k, c) v }
def State.cluster (s : State) (k : Nat) : Cluster := mget s.clusters .zero k
def State.setCluster (s : State) (k : Nat) (v : Cluster) : State := { s with clusters := mput s.clusters k v }
def State.die (s : State) (d : Nat) : Die := mget s.dies .zero d
def State.setDie (s : State) (d : Nat) (v : Die) : State := { s with dies := mput s.dies d v }
def State.tab (s : State) (t : TabId) : DTab := mget s.tabs .zero t
def State.setTab (s : State) (t : TabId) (v : DTab) : State := { s with tabs := mput s.tabs t v }
def State.hq (s : State) (q : Nat) : HQueue := mget s.queues .zero q
def State.setHq (s : State) (q : Nat) (v : HQueue) : State := { s with queues := mput s.queues q v }
def State.tile (s : State) (k i : Nat) : Tile := mget (s.cluster k).tiles .zero i
def State.port (s : State) (n : Nat) : Port := mget s.ports .zero n

/-- The engine record beside an engine hart. -/
def State.engine (s : State) (e : Ent) : Engine :=
  match e with
  | .ce k => (s.cluster k).ce
  | .re d => (s.die d).re
  | _ => .zero

def State.setEngine (s : State) (e : Ent) (v : Engine) : State :=
  match e with
  | .ce k => s.setCluster k { s.cluster k with ce := v }
  | .re d => s.setDie d { s.die d with re := v }
  | _ => s

/-- R342: the table an issuer names its own. -/
def ownTab : Ent → TabId
  | .lap k c _ => .core k c
  | .ctx k c _ => .cc k c
  | .ce k => .ce k
  | .re d => .re d
  | .hart d => .hart d
  | .far _ => .hart 0

/-- The launch whose count this is, on a die. -/
def State.launch (s : State) (d n : Nat) : Option Launch :=
  s.launches.find? fun l => l.die = d ∧ l.count = n

def State.setLaunch (s : State) (v : Launch) : State :=
  { s with launches := s.launches.map fun l => if l.die = v.die ∧ l.count = v.count then v else l }

/-- The launch an entity works for (R230, R234). -/
def State.entLaunch (s : State) (e : Ent) : Option Launch :=
  match e with
  | .lap k _ _ | .ctx k _ _ | .ce k => (s.cluster k).launch.bind (s.launch (k / 128))
  | .re d => (s.die d).re.launch.bind fun l => s.launch l.1 l.2
  | .hart _ | .far _ => none

/-- R230: the PASID an entity's traffic carries; none for a command stream hart. -/
def State.entPasid (s : State) (e : Ent) : Option Nat := (s.entLaunch e).map (·.pasid)

/-- R197: the level of an entity. -/
def State.level (s : State) (e : Ent) : Nat :=
  match e with
  | .lap _ _ _ => (s.hart e).tr.level
  | .ctx _ _ _ | .far _ => 0
  | .ce _ | .re _ => 1
  | .hart _ => 2

/-! ### Free values and time -/

/-- The next free latency, at least one clk, and the state that has drawn it (log 2). -/
def State.draw (s : State) : Nat × State := (Config.delay s.fresh + 1, { s with fresh := s.fresh + 1 })

/-- Laps since die reset (R104). -/
def State.lap (s : State) : W64 := BitVec.ofNat 64 (s.clk / 16)

/-- R22: windows of 64 clk; whether control core cc owns the array in this clk under a mode. -/
def arrayOwner (mode clk cc : Nat) : Bool :=
  match mode with
  | 1 => cc == 0
  | 2 => cc == 1
  | _ => decide ((clk / 64) % 2 = cc)

/-! ### Physical memory -/

/-- One address space for every memory: device physical addresses as they are, the rest above them. -/
def cspBase (k : Nat) : Nat := 2 ^ 60 + k * 2 ^ 22
def localBase (k c : Nat) : Nat := 2 ^ 61 + (k * 32 + c) * 2 ^ 15
def bundleBase (k c : Nat) : Nat := 2 ^ 62 + (k * 2 + c) * 2 ^ 17
def hostBase : Nat := 2 ^ 63

def State.rd (s : State) (a n : Nat) : Nat := memRead s.mem a n
/-- R242: a write of whole words clears their errors. -/
def State.cure (s : State) (a n : Nat) : State :=
  { s with bad := s.bad.filter fun w => !(decide (a ≤ w) && decide (w + 8 ≤ a + n)) }

def State.wr (s : State) (a n v : Nat) : State := { s with mem := memWrite s.mem a n v }.cure a n
/-- Zero is written to n bytes. -/
def State.clear (s : State) (a n : Nat) : State := { s with mem := memClear s.mem a n }.cure a n
def State.rd64 (s : State) (a : Nat) : W64 := BitVec.ofNat 64 (s.rd a 8)
def State.wr64 (s : State) (a : Nat) (v : W64) : State := s.wr a 8 v.toNat
def State.isFull (s : State) (a : Nat) : Bool := setHas s.full a
def State.setFull (s : State) (a : Nat) : State := { s with full := setAdd s.full a }
def State.setEmpty (s : State) (a : Nat) : State := { s with full := setDel s.full a }

/-- R232, R391: bytes of a downstream port's expander that are mapped. -/
def State.farCap (s : State) (p : Nat) : Nat := (mget s.fars 0 p).toNat % 2 ^ 12 * 2 ^ 30

/-- R232: the downstream port of a far-tier DPA within the installed capacity. -/
def State.farPort (s : State) (a : Nat) : Option Nat :=
  if a < Config.farBase ∨ Config.farEnd ≤ a then none
  else if a < Config.farBase + s.farCap 0 then some 0
  else if a < Config.farBase + s.farCap 0 + s.farCap 1 then some 1 else none

/-- R232: whether a DPA names memory the part has. -/
def State.dpaOk (s : State) (a : Nat) : Bool :=
  decide (a < Config.hbmEnd) || (s.farPort a).isSome || decide (hostBase ≤ a)

/-- R392: whether an address lies in the range of a downstream port that has failed. -/
def State.farFailed (s : State) (a : Nat) : Bool :=
  match s.farPort a with
  | some p => (mget s.fars 0 p).getLsbD 13
  | none => false

/-- R242, R392: whether a read of n bytes meets uncorrectable data. -/
def State.lost (s : State) (a n : Nat) : Bool :=
  s.farFailed a || s.bad.any fun w => decide (w < a + n) && decide (a < w + 8)

/-- R242, R392: whether a write of n bytes is refused: it leaves a part of an uncorrectable word. -/
def State.badWrite (s : State) (a n : Nat) : Bool :=
  s.farFailed a ||
    s.bad.any fun w => decide (w < a + n) && decide (a < w + 8) && !(decide (a ≤ w) && decide (w + 8 ≤ a + n))

/-- R232: the home die of a DPA; host memory is homed on die 0 (R233). -/
def homeDie (a : Nat) : Nat :=
  if a < Config.hbmEnd then a / 2 ^ 12 % 8 / 2
  else if a < hostBase then a / 2 ^ 12 % 4 else 0

/-- R232: the home slice of a line. -/
def homeSlice (a : Nat) : Nat :=
  let g (n : Nat) : Nat := a / 2 ^ n % 128
  g 6 ^^^ g 13 ^^^ g 20 ^^^ g 27 ^^^ g 34 ^^^ g 41 ^^^ (a / 2 ^ 48 % 16)

/-! ### The error log (R314) -/

/-- R314: who an entry is about: package cluster index, core or engine code, slot. -/
structure LogWho where
  kid : Nat
  core : Nat
  slot : Nat
deriving DecidableEq, Repr

/-- R314: the slot of an entity: a thread's; a context's is that of a syllable, which the writer of the entry names. -/
def logSlot : Ent → Nat
  | .lap _ _ t => t
  | _ => 0

/-- R314: an entity as an entry names it; an access from another node is named by the cluster it arrives at (log 83). -/
def logWho (k : Nat) : Ent → LogWho
  | .far _ => { kid := k, core := 0, slot := 0 }
  | e => { kid := entKidReg e, core := entCid e, slot := logSlot e }

/-- R201, R314: a syllable of a context. -/
def logSyl (k cc x slot : Nat) : LogWho := { kid := k, core := 40 + 4 * cc + x, slot := slot }

/-- R387: the MSI-X message of a vector, by its table entry. -/
def State.irqOf (s : State) (v : Nat) : Out :=
  let t := mget s.msixTab (0, 0) v
  .irq v t.1 t.2

/-- R397, R387: an MSI-X message leaves, or waits as pending while its vector is masked. -/
def State.msi (s : State) (v : Nat) : State :=
  if s.msixOpen.contains v then { s with outbox := s.outbox ++ [s.irqOf v] }
  else { s with msixPend := setAdd s.msixPend v }

/-- R397: the event vector is raised. -/
def State.event (s : State) : State := if s.evvec.getLsbD 11 then s.msi (s.evvec.toNat % 2048) else s

/-- R314, R397: appends an entry to a die's log, or drops and counts it. -/
def State.logErr (s : State) (d cause code kid core slot : Nat) (addr detail : W64) : State :=
  let x := s.die d
  if (x.logTail - x.logHead).toNat ≥ 256 then s.setDie d { x with dropped := x.dropped + 1 }
  else
    let w0 : W64 := BitVec.ofNat 64 (cause + code * 2 ^ 8 + kid * 2 ^ 16 + core * 2 ^ 25 + slot * 2 ^ 31)
    let s := s.setDie d { x with
      log := mput x.log (x.logTail.toNat % 256) { w0 := w0, w1 := addr, w2 := BitVec.ofNat 64 s.pt, w3 := detail },
      logTail := x.logTail + 1 }
    if x.logTail = x.logHead then s.event else s

/-- R314: an entry about an entity. -/
def State.logEnt (s : State) (e : Ent) (cause code : Nat) (addr : W64) : State :=
  s.logErr (entDie e) cause code (entKidReg e) (entCid e) (logSlot e) addr 0

/-- R314: an entry about someone. -/
def State.logBy (s : State) (d cause code : Nat) (w : LogWho) (addr detail : W64) : State :=
  s.logErr d cause code w.kid w.core w.slot addr detail

/-- R242: uncorrectable data is logged with its address. -/
def State.logLost (s : State) (d : Nat) (w : LogWho) (addr : W64) : State := s.logBy d 0x06 0x13 w addr 0

/-! ### Faults (R201, R203 to R210) -/

/-- A fault: its code and what TCAUSE records beside it (R201). -/
structure Trap where
  code : Nat
  imm : BitVec 8 := 0
  fpc : BitVec 5 := 0
  scall : Bool := false
  info : BitVec 10 := 0
  addr : W64 := 0
  /-- elements done by a faulting XCOPY or XCONV (R338) -/
  elems : Nat := 0
deriving DecidableEq, Repr

/-- R201: the TCAUSE word, but for esc. -/
def Trap.cause (t : Trap) : W64 :=
  BitVec.ofNat 64 (t.code % 256 + t.imm.toNat * 2 ^ 8 + t.fpc.toNat * 2 ^ 16 + (if t.scall then 2 ^ 25 else 0)
    + t.info.toNat * 2 ^ 32)

/-- R204: the rank of a fault among several of one instruction: decode checks, then execution checks, then responses. -/
def faultRank (code : Nat) : Nat :=
  match code with
  | 0x01 => 0 | 0x03 => 1 | 0x02 => 2 | 0x19 => 3
  | 0x11 => 10 | 0x0C => 11 | 0x05 => 12 | 0x08 => 13 | 0x04 => 14 | 0x0A => 15 | 0x1E => 16 | 0x0B => 17 | 0x17 => 18
  | 0x18 => 19 | 0x1A => 20 | 0x1B => 21 | 0x1C => 22 | 0x1D => 23 | 0x0E => 24 | 0x0D => 25
  | _ => 30

/-- R202: codes that are never delegated, whatever CLDELEG holds. -/
def neverDelegated (code : Nat) : Bool := code ∈ [0x00, 0x0F, 0x10, 0x16, 0x1F]

/-- R205: whether a lap thread's fault is delegated. -/
def delegated (c : Cluster) (t : Trap) : Bool :=
  t.scall || (!neverDelegated t.code && c.cldeleg.getLsbD t.code)

/-- R338: the mailbox word of a run that has ended. -/
def mailbox (code : Nat) (flags : BitVec 5) (elems : Nat) (data : W32) : W64 :=
  BitVec.ofNat 64 (code % 256 + flags.toNat * 2 ^ 8 + (min elems 65535) * 2 ^ 16 + data.toNat * 2 ^ 32)

/-- Notes in a launch the fault code of its first end by fault (R30). -/
def State.noteFault (s : State) (e : Ent) (code : Nat) : State :=
  match s.entLaunch e with
  | some l => s.setLaunch { l with faultEnd := l.faultEnd.or (some code) }
  | none => s

/-- R208, R338: an engine's run ends; a command run goes on to its mailbox give, the placed run has none. -/
def State.endRun (s : State) (e : Ent) (code elems : Nat) (data : W32) : State :=
  let g := s.engine e
  let s := s.setHart e { s.hart e with rot := .halted, wait := .none, pend := none }
  let g := { g with progress := none, pass := none, lastFault := if code = 0 then g.lastFault else code }
  match g.run with
  | .cmd w t k => s.setEngine e { g with run := .ending w t (mailbox code g.flags elems data) k }
  | .placed => if code = 0 then s.setEngine e { g with run := .idle } else (s.setEngine e { g with run := .idle }).noteFault e code
  | _ => s

/-- R384: parked laps after which the sync-stall fault falls due. -/
def LapCore.stallAt (c : LapCore) : Nat := if c.thr = 0 then 2 ^ 24 else c.thr

/-- R209, R384: whether the sync-stall fault of a thread of a core is due. -/
def Hart.stalled (h : Hart) (c : LapCore) : Bool := decide (h.rot = .parked) && c.wen && decide (c.stallAt ≤ h.parkN)

/-- R205, R208: entity e takes a fault whose resume point is epc and whose word is insn. -/
def State.takeTrap (s : State) (e : Ent) (t : Trap) (epc insn : W64) : State :=
  match e with
  | .lap k core _ =>
    let h := s.hart e
    let c := s.cluster k
    -- R204: a sync-stall fault that is due waits for this one
    let stall := t.code != 0x10 && (h.stall || h.stalled (s.core k core))
    let h := { h with wait := .none, parkN := 0, pend := none, rel := none, relDone := false, forfeit := none, lateHeld := h.lateHeld || h.late.isSome || stall,
                      reads := 0, early := h.early.filter (·.gather), seen := none, stall := stall }
    if delegated c t ∧ h.tr.hnd = false ∧ c.clsvec ≠ 0 then
      s.setHart e { h with
        rot := .ready, pc := c.clsvec
        tr := { h.tr with cause := t.cause, addr := t.addr, insn := insn, epc := epc, level := 1, hnd := true } }
    else
      s.setHart e { h with
        rot := .trapped, pc := epc
        tr := { h.tr with cause := t.cause ||| (1#64 <<< 26), addr := t.addr, insn := insn } }
  | .ctx _ _ _ | .far _ => s
  | .ce _ | .re _ =>
    let h := s.hart e
    let s := s.setHart e { h with tr := { h.tr with cause := t.cause, addr := t.addr, insn := insn } }
    s.endRun e t.code t.elems 0
  | .hart _ =>
    let h := s.hart e
    s.setHart e { h with rot := .halted, tr := { h.tr with cause := t.cause, addr := t.addr, insn := insn } }

/-- R204, R212: the return from a trap: pc := TEPC, level 0, hnd 0; a fault that waited for it may be taken. -/
def State.returnTrap (s : State) (e : Ent) : State :=
  let h := s.hart e
  s.setHart e { h with pc := h.tr.epc, tr := { h.tr with level := 0, hnd := false }, lateHeld := false }

/-- R204, R290: a posted write failed that fell due with a completed release is taken at the boundary after it, or, when a synchronous
trap came first, after that has returned; so is a sync-stall fault that fell due with the trap. -/
def State.boundary (s : State) (e : Ent) : State :=
  let h := s.hart e
  match h.late with
  | some w => if h.lateHeld then s else (s.setHart e { h with late := none }).takeTrap e { code := 0x14 } h.pc w
  | none => if h.stall && !h.lateHeld then s.takeTrap e { code := 0x10 } h.pc 0 else s

end Sys2Proof.Machine
end

