-- ==== Sys2Proof/Machine/Flags.lean ====
section
/-! DEFINITION. The flag register: sticky flags, trap enables, the dynamic rounding mode (R54, R55, R199). -/

namespace Sys2Proof.Machine

/-- R199: the sticky flags. -/
def flgFlags (f : W64) : Flags := f.extractLsb' 0 5

/-- R54: flags only set. -/
def flgRaise (f : W64) (r : Flags) : W64 := f ||| r.setWidth 64

/-- R55, R199: the causes a set of flags meets an enabled trap for: OF bit 5, DZ bit 6, NV bit 7. -/
def flgTrapped (f : W64) (r : Flags) : Flags :=
  r &&& (BitVec.ofBool (f.getLsbD 7) ++ BitVec.ofBool (f.getLsbD 6) ++ BitVec.ofBool (f.getLsbD 5) ++ 0#2)

/-- R44, R199: the mode an RM field selects; 6 reads the dynamic field. -/
def rmOf (f : W64) (rm : Rm) : Rm :=
  match rm with
  | .dyn =>
    match (f.extractLsb' 8 3).toNat with
    | 1 => .rtz | 2 => .rdn | 3 => .rup | 4 => .rna | _ => .rne
  | r => r

/-- R6, R199: a write of FLG: reserved bits stay 0, and a drm of 5 to 7 leaves drm as it was. -/
def flgWrite (old new : W64) : W64 :=
  let drm := new.extractLsb' 8 3
  let d : BitVec 3 := if drm.toNat ≥ 5 then old.extractLsb' 8 3 else drm
  (d ++ new.extractLsb' 0 8).setWidth 64

/-- R55, R56, R203: the enabled flags that trap on a hart: engine harts never trap on arithmetic. -/
def State.fpTraps (s : State) (e : Ent) (r : Flags) : Flags := if entIsLap e then flgTrapped (s.hart e).flg r else 0

/-- Sets flags in a hart, and in the run of its engine (R338). -/
def State.raise (s : State) (e : Ent) (r : Flags) : State :=
  let h := s.hart e
  let s := s.setHart e { h with flg := flgRaise h.flg r }
  match e with
  | .ce _ | .re _ => let g := s.engine e; s.setEngine e { g with flags := g.flags ||| r }
  | _ => s

end Sys2Proof.Machine
end

