-- ==== Sys2Proof/Machine/Space.lean ====
section
/-! DEFINITION. Address spaces, what each access may reach, stores landing in tile buffers, and sealing (R227 to R231, R255 to
R276, R337). -/

namespace Sys2Proof.Machine

/-! ### Decoding an address (R227, R229, R231) -/

/-- Where an address points. -/
inductive Place where
  /-- local memory, by physical address -/
  | loc (phys : Nat)
  | csp (kid off : Nat)
  | fabric (node kid off : Nat)
  | glob (va : Nat)
  | mmio (off : Nat)
deriving DecidableEq, Repr

/-- R231: whether an MMIO address has its must-be-zero bits zero and names a unit. -/
def mmioOk (a : W64) : Bool :=
  a.extractLsb' 36 24 == 0#24 && (a.extractLsb' 33 3).toNat ≤ 4
    && (!((a.extractLsb' 33 3).toNat == 4) || a.extractLsb' 27 6 == 0#6)

/-- R227: the place of an address, or the fault code. -/
def decodePlace (e : Ent) (a : W64) : Except Nat Place :=
  match (a.extractLsb' 60 4).toNat with
  | 0x0 => if a.extractLsb' 56 4 = 0#4 then .ok (.glob a.toNat) else .error 0x05
  | 0x8 =>
    match e with
    | .lap k c _ =>
      if a.extractLsb' 15 45 = 0#45 then .ok (.loc (localBase k c + (a.extractLsb' 0 15).toNat)) else .error 0x08
    | _ => .error 0x05
  | 0x9 =>
    match entKid e with
    | some k => if a.extractLsb' 22 38 = 0#38 then .ok (.csp k (a.extractLsb' 0 22).toNat) else .error 0x08
    | none => .error 0x05
  | 0xA =>
    if a.extractLsb' 39 21 = 0#21 then
      .ok (.fabric (a.extractLsb' 31 8).toNat ((a.extractLsb' 29 2).toNat * 128 + (a.extractLsb' 22 7).toNat)
        (a.extractLsb' 0 22).toNat)
    else .error 0x08
  | 0xB => if mmioOk a then .ok (.mmio (a.extractLsb' 0 36).toNat) else .error 0x05
  | _ => .error 0x05

/-- The rows of R228. -/
inductive AccKind where
  | load | storePlain | storeR | storeRl | sync | ldt | addm | addmR | amoRet | amoNone | amoNoneR | sts
deriving DecidableEq, Repr

/-- R228: whether an access kind may be used in a place; plain b64 says whether it is a plain b64 load or store. -/
def spaceAllows (node : Nat) (k : AccKind) (plainB64 : Bool) (p : Place) : Bool :=
  match p with
  | .loc _ => match k with
    | .load | .storePlain | .storeR | .storeRl | .amoRet | .amoNone | .amoNoneR => true
    | _ => false
  | .csp _ _ => match k with
    | .ldt | .sts => false
    | _ => true
  | .fabric n _ _ =>
    if n = node then (match k with | .ldt | .sts => false | _ => true)
    else match k with
      | .storePlain | .storeR | .addmR | .amoNoneR => true
      | _ => false
  | .glob _ => match k with
    | .sync => false
    | _ => true
  | .mmio _ => match k with
    | .load | .storePlain => plainB64
    | _ => false

/-! ### Tile buffers (R255 to R270) -/

/-- R255: bytes of a row. -/
def rowBytes (t : Ty) (n : Nk) (wide : Bool) : Nat :=
  match t with
  | .f64 => 512
  | .f32 => 256
  | .f16 | .bf16 => 128
  | .i4 => if wide then 64 else 32
  | .narrow => nkBits n * 8
  | _ => 64

def Tile.rb (t : Tile) : Nat := rowBytes t.ty t.nk t.wide

/-- R255: bytes of a footprint. -/
def Tile.size (t : Tile) : Nat := 512 + 64 * t.rb

/-- R256: the handle of an index. -/
def tileHandle (i : Nat) (t : Tile) : Nat := t.gen * 256 + i

/-- R257: whether a buffer is not free. -/
def Tile.live (t : Tile) : Bool := t.state != 0

/-- R256: the index of a handle that is current, with its record. -/
def State.tileOf (s : State) (k : Nat) (h : BitVec 16) : Option (Nat × Tile) :=
  let i := (h.extractLsb' 0 8).toNat
  let t := s.tile k i
  if t.live ∧ t.gen = (h.extractLsb' 8 8).toNat ∧ t.gen ≠ 0 then some (i, t) else none

/-- R76, R259: codes of a declared format. -/
def tyCode (t : Ty) : Nat := (encTy t).toNat
def nkCode (n : Nk) : Nat := (encNk n).toNat

/-- R259: the hardware-owned words of a header, 0x000 to 0x028 and 0x038 to 0x040. -/
def Tile.headerWords (i : Nat) (t : Tile) : List (Nat × Nat) :=
  [(0x000, t.vmask.toNat),
   (0x008, tyCode t.ty + nkCode t.nk * 2 ^ 4 + (if t.wide then 2 ^ 8 else 0) + t.xrows * 2 ^ 9 + t.state * 2 ^ 16
      + t.cause * 2 ^ 19 + t.dest * 2 ^ 21 + tileHandle i t * 2 ^ 24),
   (0x010, t.expn + t.arrn * 2 ^ 32), (0x018, t.timer), (0x020, t.opnpt), (0x028, t.selpt), (0x038, t.refc),
   (0x040, t.refad.toNat)]

/-- Writes an index's record and keeps the live header in its footprint (R259). -/
def State.putTile (s : State) (k i : Nat) (t : Tile) : State :=
  let c := s.cluster k
  let s := s.setCluster k { c with tiles := mput c.tiles i t }
  if t.live then
    t.headerWords i |>.foldl (fun s w => s.wr (cspBase k + t.base + w.1) 8 w.2) s
  else s

/-- R266: posts a sealed handle, or adds it to the pending-post list. -/
def State.postHandle (s : State) (k i : Nat) : State :=
  let t := s.tile k i
  let cc := t.dest / 4
  let x := t.dest % 4
  let ctx := s.ctx k cc x
  let c := s.cluster k
  let waiting := c.posts.any fun j => (s.tile k j).dest = t.dest
  if ctx.handles.length < 16 ∧ !waiting then
    s.setCtx k cc x { ctx with handles := ctx.handles ++ [BitVec.ofNat 16 (tileHandle i t)] }
  else
    let s := s.putTile k i { t with pend := true }
    s.setCluster k { s.cluster k with posts := (s.cluster k).posts ++ [i] }

/-- R266: when a handle queue has room, the oldest pending post for the context enters it. -/
def State.pullPost (s : State) (k cc x : Nat) : State :=
  let c := s.cluster k
  match c.posts.find? (fun j => (s.tile k j).dest = cc * 4 + x) with
  | none => s
  | some j =>
    let t := s.tile k j
    let ctx := s.ctx k cc x
    let s := s.setCluster k { c with posts := c.posts.erase j }
    let s := s.putTile k j { t with pend := false }
    s.setCtx k cc x { ctx with handles := ctx.handles ++ [BitVec.ofNat 16 (tileHandle j t)] }

/-- R385: counts an event in the performance counters that select it. -/
def State.perf (s : State) (k code n : Nat) : State :=
  let c := s.cluster k
  if c.psel = 0 then s
  else s.setCluster k { c with pmc := c.pmc.mapIdx fun j v =>
    if (c.psel.extractLsb' (8 * j) 8).toNat = code then v + BitVec.ofNat 48 n else v }

/-- R266: seals an open buffer with a cause; the first cause to arrive wins. -/
def State.sealTile (s : State) (k i cause : Nat) : State :=
  let t := s.tile k i
  if t.state ≠ 1 then s
  else
    let s := s.putTile k i { t with state := 2, cause := cause, selpt := s.pt }
    let s := if cause = 3 then s.perf k 0x0C 1 else s
    s.postHandle k i

/-- R263: seals when the expected count has arrived. -/
def State.sealIfComplete (s : State) (k i : Nat) : State :=
  let t := s.tile k i
  if t.expn ≠ 0 ∧ t.arrn ≥ t.expn then s.sealTile k i 2 else s

/-- R259: whether a header byte is writer-owned. -/
def writerOwned (o : Nat) : Bool := (0x30 ≤ o && o < 0x38) || (0x80 ≤ o && o < 0x200)

/-- Whether a byte of the footprint may be stored to now (R262). -/
def Tile.accepts (t : Tile) (o : Nat) : Bool := t.state == 1 && (writerOwned o || decide (0x200 ≤ o))

/-- Whether a scratchpad offset lies in a live buffer's footprint. -/
def Tile.covers (t : Tile) (off : Nat) : Bool := t.live && decide (t.base ≤ off) && decide (off < t.base + t.size)

/-- The indices whose live footprints hold a byte of a list of offsets. -/
def State.tilesAt (s : State) (k : Nat) (offs : List Nat) : List Nat :=
  ((s.cluster k).tiles.filter fun t => offs.any fun o => t.2.covers o).map (·.1)

/-- R265: notes a refused write in the buffers that refuse it, and logs it. -/
def State.refuse (s : State) (k : Nat) (w : LogWho) (addr : W64) (is : List Nat) : State :=
  let s := is.foldl (fun s i =>
    let t := s.tile k i
    s.putTile k i { t with refc := min (t.refc + 1) (2 ^ 32 - 1), refad := if t.refc = 0 then addr else t.refad }) s
  (s.logBy (k / 128) 0x05 0x09 w addr 0).perf k 0x0D 1

/-- Rows of the data area that a list of offsets touches. -/
def Tile.rowsOf (t : Tile) (offs : List Nat) : List Nat :=
  (offs.filter fun o => t.covers o && decide (t.base + 0x200 ≤ o)).map fun o => (o - t.base - 0x200) / t.rb

/-- R262, R263: a store of these bytes (offset, value) takes its place in a scratchpad; false when it is refused. nib says
that it counts one nibble; w is the issuer, for the log. -/
def State.land (s : State) (k : Nat) (w : LogWho) (addr : W64) (bytes : List (Nat × Byte)) (nib : Bool) : State × Bool :=
  let offs := bytes.map (·.1)
  let is := s.tilesAt k offs
  let bad := is.filter fun i =>
    let t := s.tile k i
    offs.any fun o => t.covers o && !t.accepts (o - t.base)
  if bad.isEmpty then
    let s := { s with
      mem := bytes.foldl (fun m b => memSet m (cspBase k + b.1) b.2) s.mem
      bad := s.bad.filter fun b => !((List.range 8).all fun j => decide (cspBase k ≤ b) && offs.contains (b - cspBase k + j)) }
    let s := is.foldl (fun s i =>
      let t := s.tile k i
      let rows := t.rowsOf offs
      if rows.isEmpty then s
      else
        let mask := rows.foldl (fun (m : W64) r => m ||| (1#64 <<< r)) t.vmask
        let n := if nib then 1 else 2 * rows.length
        let s := s.putTile k i { t with vmask := mask, arrn := min (t.arrn + n) (2 ^ 32 - 1) }
        s.sealIfComplete k i) s
    (s, true)
  else (s.refuse k w addr bad, false)

/-- The n bytes of a value, lowest first, with their offsets from off. -/
def bytesOf (off n v : Nat) : List (Nat × Byte) :=
  (List.range n).map fun j => (off + j, BitVec.ofNat 8 (v / 256 ^ j))

/-- R244, R246: the bytes of a store of an element: whole bytes, or one nibble merged into its byte. -/
def storeBytes (s : State) (base off : Nat) (ty : Ty) (hi : Bool) (v : W64) : List (Nat × Byte) :=
  if ty = .i4 then
    let b := memGet s.mem (base + off)
    let nv : BitVec 4 := v.extractLsb' 0 4
    [(off, if hi then nv ++ b.extractLsb' 0 4 else b.extractLsb' 4 4 ++ nv)]
  else bytesOf off (tyW ty / 8) v.toNat

/-- R244, R102: the value of a loaded pattern, widened by its type. -/
def widen (ty : Ty) (v : Nat) : W64 :=
  if ty.isSigned then BitVec.ofInt 64 (intVal ty v) else BitVec.ofNat 64 (v % 2 ^ tyW ty)

/-- R244: the pattern of an element at a physical address. -/
def State.elem (s : State) (a : Nat) (ty : Ty) (hi : Bool) : Nat :=
  if ty = .i4 then
    let b := (memGet s.mem a).toNat
    if hi then b / 16 else b % 16
  else s.rd a (tyW ty / 8)

/-- R337, R410: the kick words of a scratchpad. -/
def ceKick : Nat := 0x3FFF00
def reKick : Nat := 0x3FFF08

/-- The engine a scratchpad word kicks. -/
def kickOf (k off : Nat) : Option Ent :=
  if off / 8 * 8 = ceKick then some (.ce k) else if off / 8 * 8 = reKick then some (.re (k / 128)) else none

/-- R337: entries of an engine's command queue, reserved ones included. -/
def State.kickCount (s : State) (e : Ent) : Nat := (s.engine e).queue.length

/-- R221, R326: the tag of an issuer. -/
def State.issuerTag (s : State) (e : Ent) : W64 :=
  let gen := match s.entLaunch e with | some l => l.count % 256 | none => 0
  let (core, slot, kind) : Nat × Nat × Nat := match e with
    | .lap _ c t => (c, t, 0)
    | .ctx _ cc x => (cc, x, 1)
    | e => (entCid e - 32, 0, 2)
  BitVec.ofNat 64 (entKidReg e + core * 2 ^ 9 + slot * 2 ^ 14 + gen * 2 ^ 18 + kind * 2 ^ 26)

/-- R410: the launch a command belongs to: the pusher's; of a pusher that runs none here (an entity of another node), the one of the kick
word's cluster (log 61). -/
def State.kickLaunch (s : State) (who : Ent) (k : Nat) : Option (Nat × Nat) :=
  match s.entLaunch who with
  | some l => some (l.die, l.count)
  | none => (s.cluster k).launch.map fun n => (k / 128, n)

/-- R337, R410: pushes a command; the entry names the pusher, its launch and the cluster of the kick word. -/
def State.pushCmd (s : State) (eng who : Ent) (k : Nat) (w : W64) (sc : Scope) : State :=
  let g := s.engine eng
  let tag := s.issuerTag who
  s.setEngine eng { g with
    queue := g.queue ++ [{ word := some w, tag := tag, scope := some sc, launch := s.kickLaunch who k, kid := k }] }

/-- R245, R290: whether a request is a posted store or update. -/
def Req.isPosted (r : Req) : Bool :=
  r.posted && (match r.op with | .pref | .reply _ _ | .msg _ _ => false | _ => true)

/-! ### Ordering: acquires and horizons (R286, R287, R291) -/

/-- R78: the code of a scope. -/
def scopeCode (c : Scope) : Nat := (encScope c).toNat

/-- R278: whether a scope reaches beyond the cluster. -/
def Scope.wide (c : Scope) : Bool := decide (3 ≤ scopeCode c)

/-- R282: the word an entity names by an address: an alias of a scratchpad of the node names the scratchpad's word. -/
def State.wordOf (s : State) (e : Ent) (a : W64) : Nat × Nat :=
  match decodePlace e a with
  | .ok (.loc p) => (1, p / 8)
  | .ok (.csp k off) => (1, (cspBase k + off) / 8)
  | .ok (.fabric n k off) => if n = s.node then (1, (cspBase k + off) / 8) else (2, a.toNat / 8)
  | .ok (.glob va) => (3, va / 8)
  | _ => (4, a.toNat / 8)

/-- R282: the words an access names: an STS names those of its elements. -/
def State.wordsOf (s : State) (e : Ent) (a : W64) : AccOp → List (Nat × Nat)
  | .sts _ stride vals => (List.range vals.length).map fun i => s.wordOf e (a + stride * BitVec.ofNat 64 i)
  | _ => [s.wordOf e a]

/-- R282: whether an access names a word. -/
def State.names (s : State) (e : Ent) (a : W64) (op : AccOp) (w : Nat × Nat) : Bool := (s.wordsOf e a op).contains w

/-- R282: whether an entity has a posted access, of those before a number, to the word of an address. -/
def State.postedBefore (s : State) (e : Ent) (n : Nat) (addr : W64) : Bool :=
  let w := s.wordOf e addr
  s.reqs.any fun r => decide (r.2.who = e) && r.2.isPosted && decide (r.1 < n) && s.names e r.2.addr r.2.op w

/-- R282: whether an entity has a posted access to the word of an address. -/
def State.postedAt (s : State) (e : Ent) (addr : W64) : Bool := s.postedBefore e s.fresh addr

/-- R289, R364: whether a registration covers a byte: element i spans width bytes from base + i x stride. -/
def Registration.covers (r : Registration) (a : Nat) : Bool :=
  let st := r.stride.toInt
  let d : Int := (a : Int) - r.base
  if st = 0 then decide (0 ≤ d) && decide (d < r.width)
  else
    let m : Int := st.natAbs
    let q := d.fdiv m
    let i := if st > 0 then q else -q
    decide (d.fmod m < r.width) && decide (0 ≤ i) && decide (i < r.count)

/-- Bytes of a line registered to a cluster (R289). -/
def regBytes (regs : List (Nat × Registration)) (kid dpa : Nat) : W64 :=
  let mine := regs.filter fun r => r.1 = homeSlice dpa ∧ r.2.kid = kid
  (List.range 64).foldl (fun m j =>
    if mine.any (fun r => r.2.covers (dpa + j)) then m ||| (1#64 <<< j) else m) 0

/-- R289: the copy of a registrant that covers a byte of a home for a reader, if its cache holds the byte. -/
def State.regByte (s : State) (kid : Option Nat) (a : Nat) : Option Byte :=
  let r := (s.die (homeDie a)).regs.find? fun r => r.1 = homeSlice a ∧ some r.2.kid ≠ kid ∧ r.2.covers a
  r.bind fun r =>
    ((s.cluster r.2.kid).cch.find? fun l => l.dpa = a / 64 * 64 ∧ l.valid.getLsbD (a % 64) = true).map fun l =>
      l.data.extractLsb' (8 * (a % 64)) 8

/-- R289: a byte as the home answers it to a cluster: a registrant's own copy, or memory. -/
def State.homeByte (s : State) (kid : Option Nat) (a : Nat) : Byte := (s.regByte kid a).getD (memGet s.mem a)

/-- R286, R288: the bytes of a line with a write on its way that stay whatever else happens: those written, and those in which
the copy and the home agree (log 32). -/
def State.keptBytes (s : State) (k : Nat) (l : CchLine) : W64 :=
  if l.inflight = 0 then 0
  else (List.range 64).foldl (fun m j =>
    if l.dirty.getLsbD j || l.data.extractLsb' (8 * j) 8 == s.homeByte (some k) (l.dpa + j) then m ||| (1#64 <<< j) else m) 0

/-- R291: what an acquire leaves of a line: all of one that R286 keeps, the registered words of any other. -/
def State.afterAcquire (s : State) (k : Nat) (l : CchLine) : CchLine :=
  if l.inflight = 0 then { l with valid := l.valid &&& regBytes ((s.die (homeDie l.dpa)).regs) k l.dpa }
  else { l with acquired := true }

/-- R291: what an acquire makes a cluster's cache drop: all but the registered words and the lines R286 keeps. -/
def State.acquireAt (s : State) (k : Nat) (sc : Scope) : State :=
  if Scope.wide sc then
    let c := s.cluster k
    s.setCluster k { c with cch := c.cch.map (s.afterAcquire k) }
  else s

/-- R279, R291: an entity acquires. Engine harts of a die have no cluster cache. -/
def State.acquire (s : State) (e : Ent) (sc : Scope) : State :=
  match entKid e with
  | some k => s.acquireAt k sc
  | none => s

/-- R279: the scope of a give, take or peek. -/
def giveScope (e : Ent) (k : Nat) : Scope :=
  if entKid e = some k then .cluster else if entDie e = k / 128 then .die else .package

/-- R287: the largest lease length in force in the 2,000 pt before an issue pt. -/
def State.lambda (s : State) (issue : Nat) : Nat :=
  let rec go : List (Nat × Nat) → Nat
    | [] => 0
    | (t, l) :: rest => if issue < t then go rest else if t + 2000 ≤ issue then l else max l (go rest)
  go s.leases

/-- R287: dh, the pt a write may take from its issuer's die to its home die. -/
def delivery (issuer home : Nat) : Nat := if issuer = home then 500 else 1000

/-- R287: the visibility time of a write issued at a pt, for a home die; of one whose
translation lasts longer than that, counted from the next pt at which its home can have it (log 23). -/
def State.visTime (s : State) (issue issuer home : Nat) : Nat :=
  max (issue + delivery issuer home) (s.pt + 1) + s.lambda issue

/-- R287: raises the horizon of a cluster. -/
def State.raiseKid (s : State) (k v : Nat) : State :=
  let c := s.cluster k
  s.setCluster k { c with horizon := max c.horizon v }

/-- R287: raises the horizons of an entity and of its cluster's cache. -/
def State.raiseHorizon (s : State) (e : Ent) (v : Nat) : State :=
  let s := match entKid e with
    | some k => s.raiseKid k v
    | none => s
  match e with
  | .ctx k cc x => let c := s.ctx k cc x; s.setCtx k cc x { c with horizon := max c.horizon v }
  | e => let h := s.hart e; s.setHart e { h with horizon := max h.horizon v }

end Sys2Proof.Machine
end

