-- ==== Sys2Proof/Machine/Operands.lean ====
section
/-! DEFINITION. Operands of a lap word: which registers it names, reading with pops and writing with pushes (R70, R74, R75,
R102, R108, R110, R114), and the frame every lap instruction runs in: the checks of R72, the guard, its fault, park and
release (R71, R83, R85, R112, R204, R290). -/

namespace Sys2Proof.Machine

/-! ### What an instruction word names -/

def BSrc.specs : BSrc → List LSpec
  | .reg r => [r]
  | _ => []

/-- The registers an instruction reads as sources, in the order D, A, B, C. -/
def lapSrcs : Instr → List LSpec
  | .jmp _ _ a | .ret _ a => [a]
  | .loop _ d _ => [d]
  | .srwr _ a _ | .modeset _ a _ => [a]
  | .add o | .sub o | .mul o | .mulh o | .mulhn o | .div o | .divn o | .rem o | .remn o | .min o | .max o | .minn o
  | .maxn o | .and o | .or o | .xor o | .andn o | .shl o | .shr o | .sra o | .rot o | .fmin o | .fmax o
  | .fsgn o _ => o.a :: BSrc.specs o.b
  | .neg o | .abs o | .pcnt o | .clz o | .ctz o | .brev o | .bswap o | .fclass o => [o.a]
  | .mov _ _ b => BSrc.specs b
  | .bfx _ _ a _ _ => [a]
  | .bfi _ d a _ _ => [d, a]
  | .lea _ _ a _ => [a]
  | .cmp _ _ _ _ a b | .fcmp _ _ _ _ a b => a :: BSrc.specs b
  | .plog _ _ pa pb _ => [.p pa, .p pb]
  | .pmov _ _ a => [a]
  | .sel _ _ a b _ => a :: BSrc.specs b
  | .pfxc _ _ a b => [a, b]
  | .intx _ _ a b c => [a, b, c]
  | .fadd o | .fsub o | .fmul o | .fdiv o => o.a :: BSrc.specs o.b
  | .fsqrt o | .frnd o | .cvtd o | .cvte o _ => [o.a]
  | .fma o c => o.a :: (BSrc.specs o.b ++ [c])
  | .cvt _ _ _ _ _ _ _ _ a => [a]
  | .ld _ _ _ _ _ a _ => [a]
  | .st _ _ _ _ d a _ => [d, a]
  | .ldt _ _ _ a e _ => [a, e]
  | .addm _ _ _ d a _ => [d, a]
  | .amo _ _ _ _ _ a b => a :: BSrc.specs b
  | .cas _ _ _ d a b | .sts _ _ _ d a b => [d, a, b]
  | .pref _ a _ => [a]
  | .topen _ _ _ _ _ a b => [a, b]
  | .tvalid _ a b => a :: BSrc.specs b
  | .seal _ a | .tfree _ a | .tstat _ _ a => [a]
  | .drain _ _ (some r) => [r]
  | .gidx _ _ a b _ => [a, b]
  | .sidx _ _ d a b _ => [d, a, b]
  | .send o | .callr o => [o.a, o.b]
  | .reply _ a b | .slpush _ a b => [a, b]
  | .mjob _ _ a b _ | .launch _ _ a b => [a, b]
  | .dtld _ a _ => [a]
  | .dtrd _ _ b _ => BSrc.specs b
  | .srfence _ _ (some r) => [r]
  | .tbfill _ a b => [a, b]
  | .tbfillVec _ a => [a]
  | .tbinv _ _ (some k) _ => [k]
  | .tbprobe _ _ a => [a]
  | .grpfind o | .sqset o | .sqsetOp o | .sqsetUser o | .sqsetPrio o | .erget o _ | .pegarm o | .pegarmAdd o
  | .pegwait o => o.a :: BSrc.specs o.b
  | .sqget _ _ a _ => [a]
  | .sqbuild _ _ a b c | .erset _ a b c | .tolset _ a b c _ => [a, b, c]
  | .tcset _ b _ => BSrc.specs b
  | .rcsnap _ a b => a :: BSrc.specs b
  | .rcrd _ _ b | .bump _ _ b _ => BSrc.specs b
  | .bumpset _ _ a b _ => [a, b]
  | .xcopy _ _ d a b c | .xconv _ _ _ _ _ _ _ d a b c => [d, a, b, c]
  | .route _ d a => [d, a]
  | .cmddone _ a b c _ _ => [a, b, c]
  | _ => []

/-- The register an instruction writes as its destination. -/
def lapDst : Instr → Option LSpec
  | .jmp _ d _ | .call _ d _ | .loop _ d _ | .srrd _ d _ | .flgrd _ d => some d
  | .add o | .sub o | .mul o | .mulh o | .mulhn o | .div o | .divn o | .rem o | .remn o | .min o | .max o | .minn o
  | .maxn o | .and o | .or o | .xor o | .andn o | .shl o | .shr o | .sra o | .rot o | .fmin o | .fmax o
  | .fsgn o _ => some o.d
  | .neg o | .abs o | .pcnt o | .clz o | .ctz o | .brev o | .bswap o | .fclass o => some o.d
  | .mov _ d _ | .bfx _ d _ _ _ | .bfi _ d _ _ _ | .lea _ d _ _ | .pmov _ d _ | .sel _ d _ _ _ | .pfxc _ d _ _
  | .intx _ d _ _ _ => some d
  | .cmp _ _ _ p _ _ | .fcmp _ _ _ p _ _ | .plog _ p _ _ _ => some (.p p)
  | .fadd o | .fsub o | .fmul o | .fdiv o => some o.d
  | .fsqrt o | .frnd o | .cvtd o | .cvte o _ => some o.d
  | .fma o _ => some o.d
  | .cvt _ _ _ _ _ _ _ d _ => some d
  | .ld _ _ _ _ d _ _ | .ldt _ _ d _ _ _ | .amo _ _ _ _ d _ _ | .cas _ _ _ d _ _ => some d
  | .topen _ _ _ _ d _ _ | .tstat _ d _ | .aqclr _ d | .qstat _ d | .slpop _ d | .slsteal _ d => some d
  | .callr o => some o.d
  | .mjob _ d _ _ _ | .launch _ d _ _ | .dtrd _ d _ _ | .tbinv _ d _ _ | .tbprobe _ d _ => some d
  | .grpfind o | .sqset o | .sqsetOp o | .sqsetUser o | .sqsetPrio o | .erget o _ | .pegarm o | .pegarmAdd o
  | .pegwait o => some o.d
  | .sqget _ d _ _ | .sqbuild _ d _ _ _ | .tcrd _ d _ | .rcrd _ d _ | .bump _ d _ _ | .bumpset _ d _ _ _ => some d
  | .xcopy _ _ d _ _ _ | .xconv _ _ _ _ _ _ _ d _ _ _ | .route _ d _ => some d
  | .gidx _ _ _ _ _ => some .aq
  | _ => none

/-- R71: the guard of a lap word. -/
def lapGuard : Instr → Guard
  | .nop => .always
  | .br g _ | .jmp g _ _ | .call g _ _ | .ret g _ | .loop g _ _ | .halt g | .trap g _ | .hret g | .scall g _ | .srrd g _ _
  | .srwr g _ _ | .flgrd g _ | .flgclr g _ | .bkpt g _ | .modeset g _ _ => g
  | .add o | .sub o | .mul o | .mulh o | .mulhn o | .div o | .divn o | .rem o | .remn o | .min o | .max o | .minn o
  | .maxn o | .and o | .or o | .xor o | .andn o | .shl o | .shr o | .sra o | .rot o | .fmin o | .fmax o
  | .fsgn o _ => o.g
  | .neg o | .abs o | .pcnt o | .clz o | .ctz o | .brev o | .bswap o | .fclass o => o.g
  | .mov g _ _ | .bfx g _ _ _ _ | .bfi g _ _ _ _ | .lea g _ _ _ | .cmp g _ _ _ _ _ | .plog g _ _ _ _ | .pmov g _ _
  | .sel g _ _ _ _ | .pfxc g _ _ _ | .intx g _ _ _ _ | .fcmp g _ _ _ _ _ => g
  | .fadd o | .fsub o | .fmul o | .fdiv o => o.g
  | .fsqrt o | .frnd o | .cvtd o | .cvte o _ => o.g
  | .fma o _ => o.g
  | .cvt g _ _ _ _ _ _ _ _ => g
  | .ld g _ _ _ _ _ _ | .st g _ _ _ _ _ _ | .ldt g _ _ _ _ _ | .addm g _ _ _ _ _ | .amo g _ _ _ _ _ _ | .cas g _ _ _ _ _
  | .sts g _ _ _ _ _ | .pref g _ _ | .topen g _ _ _ _ _ _ | .tvalid g _ _ | .seal g _ | .tfree g _ | .tstat g _ _
  | .fence g _ _ _ | .drain g _ _ | .gidx g _ _ _ _ | .sidx g _ _ _ _ _ | .aqclr g _ | .qstat g _ => g
  | .send o | .callr o => o.g
  | .reply g _ _ | .slpush g _ _ | .slpop g _ | .slsteal g _ | .mjob g _ _ _ _ | .launch g _ _ _ | .dtld g _ _
  | .dtrd g _ _ _ | .srfence g _ _ | .tbfill g _ _ | .tbfillVec g _ | .tbinv g _ _ _ | .tbprobe g _ _ => g
  | .grpfind o | .sqset o | .sqsetOp o | .sqsetUser o | .sqsetPrio o | .erget o _ | .pegarm o | .pegarmAdd o
  | .pegwait o => o.g
  | .sqget g _ _ _ | .sqbuild g _ _ _ _ | .erset g _ _ _ | .tolset g _ _ _ _ | .tbind g _ | .tcset g _ _ | .tcrd g _ _
  | .rcsnap g _ _ | .rcrd g _ _ | .bump g _ _ _ | .bumpset g _ _ _ _ | .xcopy g _ _ _ _ _
  | .xconv g _ _ _ _ _ _ _ _ _ _ | .route g _ _ | .cmdnext g _ | .cmddone g _ _ _ _ _ => g
  | _ => .always

def BSrc.words : BSrc → Nat
  | .reg _ => 1
  | _ => 2

def Disp.words : Disp → Nat
  | .imm _ => 1
  | _ => 2

/-- R70: the words an instruction takes. -/
def lapWords : Instr → Nat
  | .add o | .sub o | .mul o | .mulh o | .mulhn o | .div o | .divn o | .rem o | .remn o | .min o | .max o | .minn o
  | .maxn o | .and o | .or o | .xor o | .andn o | .shl o | .shr o | .sra o | .rot o | .fmin o | .fmax o
  | .fsgn o _ => BSrc.words o.b
  | .fadd o | .fsub o | .fmul o | .fdiv o => BSrc.words o.b
  | .fma o _ => BSrc.words o.b
  | .mov _ _ b | .cmp _ _ _ _ _ b | .fcmp _ _ _ _ _ b | .sel _ _ _ b _ | .amo _ _ _ _ _ _ b | .tvalid _ _ b
  | .dtrd _ _ b _ | .tcset _ b _ | .rcsnap _ _ b | .rcrd _ _ b | .bump _ _ b _ => BSrc.words b
  | .grpfind o | .sqset o | .sqsetOp o | .sqsetUser o | .sqsetPrio o | .erget o _ | .pegarm o | .pegarmAdd o
  | .pegwait o => BSrc.words o.b
  | .lea _ _ _ v | .ld _ _ _ _ _ _ v | .st _ _ _ _ _ _ v | .ldt _ _ _ _ _ v | .addm _ _ _ _ _ v | .pref _ _ v => Disp.words v
  | _ => 1

/-- R83, R197, R198: the level an instruction needs. R198 names no level for reading a CTXCMD, which reads 0: any level may
(DEDUCED, log 84). -/
def lapLevel : Instr → Nat
  | .srrd _ _ n =>
    if n.toNat ∈ [0x000, 0x001, 0x100, 0x203] ∨ (0x210 ≤ n.toNat ∧ n.toNat ≤ 0x21F) ∨ (0x238 ≤ n.toNat ∧ n.toNat ≤ 0x23F) then 0 else 1
  | .srwr _ _ n => if n.toNat = 0 then 0 else if n.toNat = 0x200 ∨ n.toNat = 0x201 then 2 else 1
  | .modeset _ _ _ | .launch _ _ _ _ | .tolset _ _ _ _ _ | .xcopy _ _ _ _ _ _ | .xconv _ _ _ _ _ _ _ _ _ _ _
  | .route _ _ _ => 1
  | .cmdnext _ _ | .cmddone _ _ _ _ _ _ => 2
  | _ => 0

/-- R85, R198, R344: whether an instruction may be executed on this kind of hart, whatever its specifiers. -/
def lapRunsOn (i : Instr) (e : Ent) : Bool :=
  match i with
  | .xcopy _ _ _ _ _ _ | .xconv _ _ _ _ _ _ _ _ _ _ _ => match e with | .ce _ => true | _ => false
  | .route _ _ _ => match e with | .re _ => true | _ => false
  | .cmdnext _ _ | .cmddone _ _ _ _ _ _ => match e with | .hart _ => true | _ => false
  | .slpush _ _ _ | .slpop _ _ | .slsteal _ _ | .mjob _ _ _ _ _ | .callr _ | .reply _ _ _ | .tbind _ _ | .tbfill _ _ _
  | .tbfillVec _ _ | .tbinv _ _ _ _ | .tbprobe _ _ _ => entIsLap e
  | .dtld _ _ t | .dtrd _ _ _ t => entIsLap e || t == .own
  | .srrd _ _ n | .srwr _ _ n | .modeset _ _ n =>
    match e with
    | .lap _ _ _ => true
    | .ce _ => n.toNat != 0x100
    | _ => decide (n.toNat < 0x100)
  | _ => true

/-- R13, R112: whether core c has a neighbour in a direction. -/
def hasNeighbour (c : Nat) (d : Dir) : Bool :=
  match d with
  | .north => decide (8 ≤ c)
  | .south => decide (c < 24)
  | .west => c % 8 != 0
  | .east => c % 8 != 7

/-- R85, R112: whether a specifier may be used on a hart. -/
def specRunsOn (r : LSpec) (e : Ent) : Bool :=
  match r, e with
  | .port d, .lap _ c _ => hasNeighbour c d
  | .port _, _ | .mb, .re _ | .mb, .ce _ | .mb, .hart _ | .h _, .re _ | .h _, .ce _ | .h _, .hart _ => false
  | _, _ => true

/-- The registers an instruction's fields name, in the order D, A, B, C. -/
def lapSpecs (i : Instr) : List LSpec := (lapDst i).toList ++ lapSrcs i

/-- R72 step 5: the first window register at or above the window size. -/
def windowBreach (size : Nat) : List LSpec → Option (BitVec 7)
  | [] => none
  | .s n :: t => if size ≤ n.toNat then some n else windowBreach size t
  | _ :: t => windowBreach size t

/-- The instruction's first word, and its opcode for TCAUSE.info (R201). -/
def insnWord (i : Instr) : W64 := (encode i).headD 0
def insnOp (i : Instr) : BitVec 10 := (insnWord i).extractLsb' 50 8 |>.setWidth 10

/-- R84: the window of a hart; an engine's has 128 registers. -/
def windowSize (s : State) (e : Ent) : Nat := if entIsLap e then (s.hart e).size else 128

/-- R72 steps 2 to 5 that depend on the hart: the first check that fails. -/
def lapCheck (i : Instr) (e : Ent) (s : State) : Option Trap :=
  if !(lapRunsOn i e) || (lapSpecs i).any (fun r => !(specRunsOn r e)) then some { code := 0x01, info := insnOp i }
  else if lapLevel i > s.level e then some { code := 0x03 }
  else match i with
    | .hret _ => if (s.hart e).tr.hnd then none else some { code := 0x03 }
    | _ => (windowBreach (windowSize s e) (lapSpecs i)).map fun n => { code := 0x02, info := n.setWidth 10 }

/-! ### Reading and writing registers -/

/-- The link a core pushes to in a direction, and the one it pops from there (R110). -/
def LapCore.link (c : LapCore) : Dir → Link
  | .north => c.north
  | .east => c.east
  | .south => c.south
  | .west => c.west

def LapCore.setLink (c : LapCore) (d : Dir) (l : Link) : LapCore :=
  match d with
  | .north => { c with north := l }
  | .east => { c with east := l }
  | .south => { c with south := l }
  | .west => { c with west := l }

/-- R13: the neighbour of a core, and the direction back. -/
def neighbour (c : Nat) (d : Dir) : Nat :=
  match d with
  | .north => c - 8
  | .south => c + 8
  | .west => c - 1
  | .east => c + 1

def Dir.back : Dir → Dir
  | .north => .south
  | .south => .north
  | .east => .west
  | .west => .east

/-- R74: the code of a port, for wait operands (R216). -/
def portCode : Dir → Nat
  | .north => 0x81
  | .east => 0x82
  | .south => 0x83
  | .west => 0x84

/-- R110: places taken in a link in this clk. -/
def Link.used (l : Link) (clk : Nat) : Nat := l.words.length + (if l.popAt = some clk then 1 else 0)

/-- R110: the word that may be popped in this clk. -/
def Link.front (l : Link) (clk : Nat) : Option W64 :=
  match l.words with
  | (t, w) :: _ => if t < clk then some w else none
  | [] => none

/-- R102 to R106: the value of a register that is not popped. -/
def State.reg (s : State) (e : Ent) (r : LSpec) : W64 :=
  let h := s.hart e
  match r with
  | .s n => h.s[n.toNat]
  | .h n => h.h[n.toNat]
  | .p i => if h.p[i] then 1 else 0
  | .tid => BitVec.ofNat 64 (entTid e)
  | .cid => BitVec.ofNat 64 (entCid e)
  | .kid => BitVec.ofNat 64 (entKidReg e)
  | .lap => s.lap
  | .clk => BitVec.ofNat 64 (s.pt % 2 ^ 48)
  | _ => 0

/-- The outcome of the pops an instruction makes (R75, R108, R110, R114). An instruction that traps or parks pops nothing: what
the attempt does to the entry it met is a change of the state before all the pops. -/
inductive PopRes where
  | ok (vals : List (LSpec × W64)) (s : State)
  | trap (t : Trap) (f : State → State)
  | park (w : Wait) (f : State → State)

/-- The front entry of the data queue replaced (R241). -/
def State.setDqFront (s : State) (e : Ent) (x : DqEnt) : State :=
  let h := s.hart e
  s.setHart e { h with dq := x :: h.dq.drop 1 }

/-- R111, R114: pops one source, if it is a port or a queue. -/
def popOne (e : Ent) (r : LSpec) (vals : List (LSpec × W64)) (s : State) : PopRes :=
  if vals.any (fun v => v.1 = r) then .ok vals s
  else match r, e with
    | .port d, .lap k c _ =>
      let n := neighbour c d
      let nb := s.core k n
      let l := nb.link (Dir.back d)
      match l.front s.clk with
      | some w => .ok ((r, w) :: vals)
          (s.setCore k n (nb.setLink (Dir.back d) { words := l.words.drop 1, popAt := some s.clk }))
      | none => .park (.port d) id
    | .mb, .lap k c _ =>
      let x := s.core k c
      match x.inbox with
      | [] => .park (.own 0x87) id
      | m :: rest =>
        let w := m.words.headD 0
        let m' := { m with words := m.words.drop 1, head := false }
        let s' := s.setCore k c { x with inbox := if m'.words.isEmpty then rest else m' :: rest }
        .ok ((r, w) :: vals) (if m.head then s'.acquire e m.scope else s')
    | .dq, _ =>
      let h := s.hart e
      match h.dq with
      | [] => if h.aq.isEmpty then .trap { code := 0x0B } id else .park (.own 0x86) id
      | .word w :: rest => .ok ((r, w) :: vals) (s.setHart e { h with dq := rest })
      | .fault code g :: _ => .trap { code := code, addr := g.addr } fun s => s.setDqFront e (.resend g)
      | .resend g :: _ => .park (.own 0x86) fun s => let d := s.draw; d.2.setDqFront e (.flying g (s.clk + d.1))
      | .flying _ _ :: _ => .park (.own 0x86) id
    | _, _ => .ok vals s

/-- The pops of all sources of an instruction, each port or queue once (R75). -/
def popAll (e : Ent) (rs : List LSpec) (vals : List (LSpec × W64)) (s : State) : PopRes :=
  match rs with
  | [] => .ok vals s
  | r :: t =>
    match popOne e r vals s with
    | .ok v s' => popAll e t v s'
    | x => x

/-- What an instruction reads through: popped words, then registers. -/
def readSpec (s : State) (e : Ent) (vals : List (LSpec × W64)) (r : LSpec) : W64 :=
  match vals.find? (fun v => v.1 = r) with
  | some v => v.2
  | none => s.reg e r

/-- R111, R114: why a destination cannot take a push now. -/
def pushBlocked (s : State) (e : Ent) (r : LSpec) : Option Wait :=
  match r, e with
  | .port d, .lap k c _ => if ((s.core k c).link d).used s.clk ≥ 4 then some (.port d) else none
  | .aq, _ => if (s.hart e).aq.length ≥ 8 then some (.own 0x85) else none
  | _, _ => none

/-- R74: writes a destination: a register, or a push; z discards. A push to aq is a b64 gather (R245). -/
def State.writeSpec (s : State) (e : Ent) (r : LSpec) (v : W64) : State :=
  match r with
  | .s n => let h := s.hart e; s.setHart e { h with s := h.s.set n.toNat v }
  | .h n => let h := s.hart e; s.setHart e { h with h := h.h.set n.toNat v }
  | .p i => let h := s.hart e; s.setHart e { h with p := h.p.set i (v != 0) }
  | .port d =>
    match e with
    | .lap k c _ =>
      let x := s.core k c
      let l := x.link d
      s.setCore k c (x.setLink d { l with words := l.words ++ [(s.clk, v)] })
    | _ => s
  | .aq =>
    let d := s.draw
    let h := s.hart e
    d.2.setHart e { h with aq := h.aq ++ [({ addr := v, ty := .b64, hi := false, no := s.fresh }, s.clk + d.1)] }
  | _ => s

/-- R70: the value of source B for a type: a register, or the literal. -/
def bValue (rd : LSpec → W64) (t : Ty) : BSrc → W64
  | .reg r => rd r
  | .lit64 v => v
  | .lit32 v =>
    match t with
    | .f32 | .f16 | .bf16 => v.setWidth 64
    | .f64 => widenF32 v
    | _ => v.signExtend 64

/-- R70: the displacement as a 64-bit number. -/
def dispValue : Disp → W64
  | .imm v => v.signExtend 64
  | .lit32 v => v.signExtend 64
  | .lit64 v => v

/-! ### The frame of a lap instruction -/

/-- What a lap instruction does once its checks, its guard and its pops are made. -/
inductive Act where
  /-- it is done, and the thread goes on after it -/
  | done (s : State)
  /-- it is done, and the thread goes on at an address -/
  | goto (s : State) (pc : W64)
  /-- it has left the rotation, and its result lands later (R107) -/
  | leave (s : State) (p : Pend)
  /-- it is done, and the state says where the thread stands -/
  | stay (s : State)
  | trap (t : Trap)
  /-- a fault that leaves an effect beside the trap, on the state before the pops -/
  | trapIn (f : State → State) (t : Trap)
  | park (w : Wait)
  /-- no effect now but what f does to the state before the pops; it issues again in its next turn (R32, log 12) -/
  | forfeit (f : State → State)
  /-- it releases first, then issues again (R290) -/
  | release (sc : Scope)

/-- The address of the instruction after this one. -/
def nextPc (s : State) (e : Ent) (i : Instr) : W64 := (s.hart e).pc + BitVec.ofNat 64 (8 * lapWords i)

/-- The marks of an instruction that has gone through are cleared. -/
def Hart.settled (h : Hart) : Hart :=
  { h with rot := .ready, wait := .none, parkN := 0, forfeit := none, relDone := false, rel := none, reads := 0,
           early := h.early.filter (·.gather), seen := none }

/-- R71, R107: the thread goes on at an address, then meets what fell due (R204). -/
def State.goOn (s : State) (e : Ent) (pc : W64) : State :=
  let h := s.hart e
  (s.setHart e { Hart.settled h with pc := pc }).boundary e

/-- R71: whether the guard executes. -/
def guardHolds (h : Hart) : Guard → Bool
  | .always => true
  | .on i => h.p[i]
  | .off i => !h.p[i]

/-- R33, R108, R111, R384: the thread parks. When its instruction has been tried again and nothing it waits on has changed, it stays
parked, with its count; seen is the link it waits on, for a port. The instruction has no effect. -/
def State.parkOn (s : State) (e : Ent) (w : Wait) (seen : Option Link := none) : State :=
  let h := s.hart e
  if h.rot = .parked ∧ h.wait = w ∧ h.seen = seen then s
  else
  let s := s.setHart e { h with rot := .parked, wait := w, parkN := 0, seen := seen }
  match entKid e with
  | some k => s.perf k 0x04 1
  | none => s

/-- R110, R111: the link a port's source waits on, and the one its destination waits on. -/
def State.portIn (s : State) (e : Ent) (w : Wait) : Option Link :=
  match w, e with
  | .port d, .lap k c _ => some ((s.core k (neighbour c d)).link (Dir.back d))
  | _, _ => none

def State.portOut (s : State) (e : Ent) (w : Wait) : Option Link :=
  match w, e with
  | .port d, .lap k c _ => some ((s.core k c).link d)
  | _, _ => none

/-- R241: whether a data queue holds a gather that was sent again and has not landed. -/
def Hart.resent (h : Hart) : Bool := h.dq.any fun x => match x with | .flying _ _ => true | _ => false

/-- R32, R385: an entity forfeits its turn on a bank: the clk of its first forfeit is kept. -/
def State.forfeitBank (s : State) (e : Ent) : State :=
  let h := s.hart e
  let s := s.setHart e { h with forfeit := h.forfeit.or (some s.clk) }
  match entKid e with
  | some k => s.perf k 0x03 1
  | none => s

/-- R290: whether every earlier access of an entity has taken its place: stage 1 of a release. -/
def State.placed (s : State) (e : Ent) : Bool :=
  (s.hart e).aq.isEmpty && !((s.hart e).resent) && !(s.reqs.any fun r => r.2.who = e ∧ r.2.isPosted)

/-- R290: how a release at a scope stands for the instruction at pc: done, or to be waited for. -/
def State.needsRelease (s : State) (e : Ent) (sc : Scope) : Bool :=
  !((s.hart e).relDone) && (Scope.wide sc || !(s.placed e))

/-- R241, R290: a release at scope 4 or 5 that has completed reports a recorded posted write failure after its instruction. -/
def State.reportPwf (s : State) (e : Ent) (sc : Scope) (insn : W64) : State :=
  let h := s.hart e
  if 4 ≤ scopeCode sc ∧ h.pwf.isSome then s.setHart e { h with pwf := none, late := some insn } else s

/-- The outcome of an act. -/
def finish (i : Instr) (e : Ent) (s : State) : Act → State
  | .done s' => s'.goOn e (nextPc s e i)
  | .goto s' pc => s'.goOn e pc
  | .leave s' p =>
    let h := s'.hart e
    s'.setHart e { Hart.settled h with rot := .out, pend := some p }
  | .stay s' => s'
  | .trap t => s.takeTrap e t (if t.code = 0x1D then nextPc s e i else (s.hart e).pc) (insnWord i)
  | .trapIn f t => (f s).takeTrap e t (s.hart e).pc (insnWord i)
  | .park w => s.parkOn e w
  | .forfeit f => f s
  | .release sc =>
    let h := s.hart e
    s.setHart e { h with rot := .out, rel := some { scope := sc, target := none } }

/-- R204: the base register of an access whose address checks need nothing else. -/
def addrSource : Instr → Option LSpec
  | .st _ _ _ _ _ a _ | .addm _ _ _ _ a _ | .amo _ _ _ _ _ a _ | .cas _ _ _ _ a _ => some a
  | _ => none

/-- R204: of a fault met in popping dq and the one met with the operands that need no pop, the one raised: an offcut operand and
the faults of an address come first. Nothing is popped then. -/
def popTrap (i : Instr) (pop : Trap × State) (act : Act) (s : State) : Trap × State :=
  match act with
  | .trap t | .trapIn _ t =>
    let addr : Bool := match addrSource i with | some a => a != .dq && [0x05, 0x08, 0x04, 0x0A].contains t.code | none => false
    if t.code = 0x0C ∨ addr then (t, s) else pop
  | _ => pop

/-- R245: the checks of a relaxed load come before its push. -/
def relaxedTrap (i : Instr) (act : Act) : Option Trap :=
  match i, act with
  | .ld _ .relaxed _ _ _ _ _, .trap t => some t
  | _, _ => none

/-- R71, R72, R108: runs a lap instruction of the actor. body reads sources through its first argument, on the state in
which they have been popped. -/
def runLap (i : Instr) (s : State) (body : (LSpec → W64) → State → Act) : Host.Outcome State Fault Refusal :=
  let e := s.actor
  if entIsHart e then
    match lapCheck i e s with
    | some t => .next (s.takeTrap e t (s.hart e).pc (insnWord i))
    | none =>
      if guardHolds (s.hart e) (lapGuard i) then
        match popAll e (lapSrcs i) [] s with
        | .trap t f =>
          let r := popTrap i (t, f s) (body (readSpec s e []) s) s
          .next (r.2.takeTrap e r.1 (s.hart e).pc (insnWord i))
        | .park w f => .next ((f s).parkOn e w (s.portIn e w))
        | .ok vals s' =>
          match (lapDst i).bind (pushBlocked s' e) with
          | some w =>
            match relaxedTrap i (body (readSpec s e vals) s') with
            | some t => .next (finish i e s (.trap t))
            | none => .next (s.parkOn e w (s.portOut e w))
          | none => .next (finish i e s (body (readSpec s e vals) s'))
      else .next (s.goOn e (nextPc s e i))
  else .refused .noHart

/-- A result written to a destination at once. -/
def doneWith (s : State) (d : LSpec) (v : W64) : Act := .done (s.writeSpec s.actor d v)

/-- The instruction leaves the rotation; its result lands by a later step. -/
def leaveWith (i : Instr) (s : State) (d : Option LSpec) (acq : Option Scope) (act : LandAct) (due : Option Nat)
    (ans : Option Ans) : Act :=
  .leave s { insn := insnWord i, next := nextPc s s.actor i, dst := d, acq := acq, act := act, due := due, ans := ans,
             long := false }

/-- A result that lands L clk after issue (R109, R345). -/
def landsIn (i : Instr) (s : State) (clks : Nat) (d : LSpec) (v : W64) : Act :=
  .leave s { insn := insnWord i, next := nextPc s s.actor i, dst := some d, acq := none, act := .plain,
             due := some (s.clk + clks), ans := some (.ok v), long := true }

end Sys2Proof.Machine
end

