-- ==== Sys2Proof/Machine/IntAlu.lean ====
section
/-! DEFINITION. The integer arithmetic of the lap set (R102, R109, R115 to R117, R119). -/

namespace Sys2Proof.Machine

/-- R102: the low w bits of an integer, extended by the kind of the type. -/
def extend (t : Ty) (i : Int) : W64 :=
  if t.isSigned then BitVec.ofInt 64 (intVal t (intBits (tyW t) i)) else BitVec.ofNat 64 (intBits (tyW t) i)

/-- R102: bits w - 1 to 0 of a source, unsigned. -/
def rdU (t : Ty) (v : W64) : Nat := v.toNat % 2 ^ tyW t

/-- R102: the same bits, signed. -/
def rdS (t : Ty) (v : W64) : Int :=
  let x := rdU t v
  if x ≥ 2 ^ (tyW t - 1) then (x : Int) - 2 ^ tyW t else x

/-- An integer instruction of two sources whose result lands in its turn: f has the type and both sources. -/
def aluOp (i : Instr) (o : Alu) (f : Ty → W64 → W64 → Int) (s : State) : Host.Outcome State Fault Refusal :=
  runLap i s fun rd s => doneWith s o.d (extend o.ty (f o.ty (rd o.a) (bValue rd o.ty o.b)))

/-- An integer instruction of one source. -/
def aluOp1 (i : Instr) (o : Alu1) (f : Ty → W64 → Int) (s : State) : Host.Outcome State Fault Refusal :=
  runLap i s fun rd s => doneWith s o.d (extend o.ty (f o.ty (rd o.a)))

/-- R109: clk of an integer division. -/
def divClks : Nat := 40

/-- R109: the pending fault of a long operation, raised at its landing; nothing is written. -/
def faultsIn (i : Instr) (s : State) (clks : Nat) (code : Nat) : Act :=
  .leave s { insn := insnWord i, next := nextPc s s.actor i, dst := none, acq := none,
             act := .plain, due := some (s.clk + clks), ans := some (.err code 0), long := true }

/-- R109, R116, R117: a division: its result, or 0x0E for a zero divisor, 40 clk after issue. -/
def divOp (i : Instr) (o : Alu) (zero : Ty → W64 → Bool) (f : Ty → W64 → W64 → Int) (s : State) :
    Host.Outcome State Fault Refusal :=
  runLap i s fun rd s =>
    let b := bValue rd o.ty o.b
    if zero o.ty b then faultsIn i s divClks 0x0E
    else landsIn i s divClks o.d (extend o.ty (f o.ty (rd o.a) b))

/-- R117: a divisor is zero at its width. -/
def isZeroAt (t : Ty) (v : W64) : Bool := rdU t v == 0

/-- R116. -/
def execAdd (o : Alu) (s : State) : Host.Outcome State Fault Refusal := aluOp (.add o) o (fun t a b => rdU t a + rdU t b) s
/-- R116. -/
def execSub (o : Alu) (s : State) : Host.Outcome State Fault Refusal := aluOp (.sub o) o (fun t a b => (rdU t a : Int) - rdU t b) s
/-- R116. -/
def execMul (o : Alu) (s : State) : Host.Outcome State Fault Refusal := aluOp (.mul o) o (fun t a b => rdU t a * rdU t b) s
/-- R116: floor of the signed product over 2^w. -/
def execMulh (o : Alu) (s : State) : Host.Outcome State Fault Refusal :=
  aluOp (.mulh o) o (fun t a b => (rdS t a * rdS t b).fdiv (2 ^ tyW t)) s
/-- R116: floor of the unsigned product over 2^w. -/
def execMulhn (o : Alu) (s : State) : Host.Outcome State Fault Refusal :=
  aluOp (.mulhn o) o (fun t a b => ((rdU t a * rdU t b / 2 ^ tyW t : Nat) : Int)) s
/-- R116: truncated toward zero. -/
def execDiv (o : Alu) (s : State) : Host.Outcome State Fault Refusal :=
  divOp (.div o) o isZeroAt (fun t a b => (rdS t a).tdiv (rdS t b)) s
/-- R116. -/
def execDivn (o : Alu) (s : State) : Host.Outcome State Fault Refusal :=
  divOp (.divn o) o isZeroAt (fun t a b => ((rdU t a / rdU t b : Nat) : Int)) s
/-- R116: with the sign of the dividend, or zero. -/
def execRem (o : Alu) (s : State) : Host.Outcome State Fault Refusal :=
  divOp (.rem o) o isZeroAt (fun t a b => (rdS t a).tmod (rdS t b)) s
/-- R116. -/
def execRemn (o : Alu) (s : State) : Host.Outcome State Fault Refusal :=
  divOp (.remn o) o isZeroAt (fun t a b => ((rdU t a % rdU t b : Nat) : Int)) s
/-- R116. -/
def execNeg (o : Alu1) (s : State) : Host.Outcome State Fault Refusal := aluOp1 (.neg o) o (fun t a => -rdS t a) s
/-- R116. -/
def execAbs (o : Alu1) (s : State) : Host.Outcome State Fault Refusal :=
  aluOp1 (.abs o) o (fun t a => ((rdS t a).natAbs : Int)) s
/-- R116. -/
def execMin (o : Alu) (s : State) : Host.Outcome State Fault Refusal :=
  aluOp (.min o) o (fun t a b => Min.min (rdS t a) (rdS t b)) s
/-- R116. -/
def execMax (o : Alu) (s : State) : Host.Outcome State Fault Refusal :=
  aluOp (.max o) o (fun t a b => Max.max (rdS t a) (rdS t b)) s
/-- R116. -/
def execMinn (o : Alu) (s : State) : Host.Outcome State Fault Refusal :=
  aluOp (.minn o) o (fun t a b => ((Min.min (rdU t a) (rdU t b) : Nat) : Int)) s
/-- R116. -/
def execMaxn (o : Alu) (s : State) : Host.Outcome State Fault Refusal :=
  aluOp (.maxn o) o (fun t a b => ((Max.max (rdU t a) (rdU t b) : Nat) : Int)) s
/-- R119: all 64 bits of B, or of the literal. -/
def execMov (g : Guard) (d : LSpec) (b : BSrc) (s : State) : Host.Outcome State Fault Refusal :=
  runLap (.mov g d b) s fun rd s => doneWith s d (bValue rd .b64 b)

end Sys2Proof.Machine
end

