-- ==== Sys2Proof/Machine/Fp.lean ====
section
/-! DEFINITION. Scalar floating point (R103, R109, R128 to R132). -/

namespace Sys2Proof.Machine

/-- R103: the value of a source under a float type. -/
def fpVal (t : Ty) (v : W64) : FVal := decF (tyFmt t) (v.toNat % 2 ^ tyW t)

/-- R54, R55: writes a result with its flags, or raises 0x0D when they meet an enabled trap. -/
def fpFinish (s : State) (d : LSpec) (raised : Flags) (v : W64) : Act :=
  let e := s.actor
  let t := s.fpTraps e raised
  if t ≠ 0 then .trap { code := 0x0D, fpc := t } else .done ((s.raise e raised).writeSpec e d v)

/-- R109: the same for a long operation: flags and trap come with the landing. -/
def fpFinishIn (i : Instr) (s : State) (clks : Nat) (d : LSpec) (raised : Flags) (v : W64) : Act :=
  let t := s.fpTraps s.actor raised
  let p : Pend := { insn := insnWord i, next := nextPc s s.actor i, dst := some d, acq := none,
                    act := .flags raised, due := some (s.clk + clks), ans := some (.ok v), long := true }
  .leave s (if t ≠ 0 then { p with act := .flags t, ans := some (.err 0x0D 0) } else p)

/-- R128: the instructions that round, on two sources. -/
def fpOp2 (i : Instr) (o : FAlu) (f : Rm → FVal → FVal → FVal × Flags) (clks : Option Nat) (s : State) :
    Host.Outcome State Fault Refusal :=
  runLap i s fun rd s =>
    let a := rd o.a
    let b := bValue rd o.ty o.b
    if isOffcut o.ty a || isOffcut o.ty b then .trap { code := 0x0C }
    else
      let rm := rmOf (s.hart s.actor).flg o.rm
      let x := f rm (fpVal o.ty a) (fpVal o.ty b)
      let r := roundVal (tyFmt o.ty) rm false 0 x.1
      match clks with
      | none => fpFinish s o.d (x.2 ||| r.2) (BitVec.ofNat 64 r.1)
      | some n => fpFinishIn i s n o.d (x.2 ||| r.2) (BitVec.ofNat 64 r.1)

/-- R109: clk of FDIV and FSQRT. -/
def longClks (t : Ty) : Nat := if t = .f64 then 40 else 20

/-- R128. -/
def execFadd (o : FAlu) (s : State) : Host.Outcome State Fault Refusal := fpOp2 (.fadd o) o fAdd none s
/-- R128. -/
def execFsub (o : FAlu) (s : State) : Host.Outcome State Fault Refusal :=
  fpOp2 (.fsub o) o (fun rm a b => fAdd rm a b.neg) none s
/-- R128. -/
def execFmul (o : FAlu) (s : State) : Host.Outcome State Fault Refusal := fpOp2 (.fmul o) o (fun _ a b => fMul a b) none s
/-- R128, R109. -/
def execFdiv (o : FAlu) (s : State) : Host.Outcome State Fault Refusal :=
  fpOp2 (.fdiv o) o (fun _ a b => fDiv a b) (some (longClks o.ty)) s

/-- R128, R109. -/
def execFsqrt (o : FAlu1) (s : State) : Host.Outcome State Fault Refusal :=
  runLap (.fsqrt o) s fun rd s =>
    let a := rd o.a
    if isOffcut o.ty a then .trap { code := 0x0C }
    else
      let rm := rmOf (s.hart s.actor).flg o.rm
      let x := fSqrt (fpVal o.ty a)
      let r := roundVal (tyFmt o.ty) rm false 0 x.1
      fpFinishIn (.fsqrt o) s (longClks o.ty) o.d (x.2 ||| r.2) (BitVec.ofNat 64 r.1)

/-- R66, R128: one rounding. -/
def execFma (o : FAlu) (c : LSpec) (s : State) : Host.Outcome State Fault Refusal :=
  runLap (.fma o c) s fun rd s =>
    let a := rd o.a
    let b := bValue rd o.ty o.b
    let v := rd c
    if isOffcut o.ty a || isOffcut o.ty b || isOffcut o.ty v then .trap { code := 0x0C }
    else
      let rm := rmOf (s.hart s.actor).flg o.rm
      let x := fFma rm (fpVal o.ty a) (fpVal o.ty b) (fpVal o.ty v)
      let r := roundVal (tyFmt o.ty) rm false 0 x.1
      fpFinish s o.d (x.2 ||| r.2) (BitVec.ofNat 64 r.1)

/-- R53, R129: the smaller or larger of two patterns, and NV. -/
def fpMinMax (t : Ty) (isMax : Bool) (a b : W64) : W64 × Flags :=
  let x := fMinMax isMax (fpVal t a) (fpVal t b)
  let v := match x.1 with
    | 0 => a.toNat % 2 ^ tyW t
    | 1 => b.toNat % 2 ^ tyW t
    | _ => (tyFmt t).dnan
  (BitVec.ofNat 64 v, x.2)

/-- R129. -/
def execFmin (o : Alu) (s : State) : Host.Outcome State Fault Refusal :=
  runLap (.fmin o) s fun rd s =>
    let a := rd o.a
    let b := bValue rd o.ty o.b
    if isOffcut o.ty a || isOffcut o.ty b then .trap { code := 0x0C }
    else
      let r := fpMinMax o.ty false a b
      fpFinish s o.d r.2 r.1

/-- R129. -/
def execFmax (o : Alu) (s : State) : Host.Outcome State Fault Refusal :=
  runLap (.fmax o) s fun rd s =>
    let a := rd o.a
    let b := bValue rd o.ty o.b
    if isOffcut o.ty a || isOffcut o.ty b then .trap { code := 0x0C }
    else
      let r := fpMinMax o.ty true a b
      fpFinish s o.d r.2 r.1

/-- R130. -/
def execFcmp (g : Guard) (ty : Ty) (rel : Rel) (p : Fin 7) (a : LSpec) (b : BSrc) (s : State) :
    Host.Outcome State Fault Refusal :=
  runLap (.fcmp g ty rel p a b) s fun rd s =>
    let x := rd a
    let y := bValue rd ty b
    if isOffcut ty x || isOffcut ty y then .trap { code := 0x0C }
    else
      let r := fCompare rel (fpVal ty x) (fpVal ty y)
      fpFinish s (.p p) r.2 (if r.1 then 1 else 0)

/-- R131. -/
def execFclass (o : Alu1) (s : State) : Host.Outcome State Fault Refusal :=
  runLap (.fclass o) s fun rd s =>
    let a := rd o.a
    if isOffcut o.ty a then .trap { code := 0x0C }
    else doneWith s o.d (BitVec.ofNat 64 (classWord (tyFmt o.ty) (fpVal o.ty a)))

/-- R132: the bits of a with a sign from both. -/
def signWord (t : Ty) (op : SgnOp) (a b : Nat) : Nat :=
  let w := tyW t
  let sa := a.testBit (w - 1)
  let sb := b.testBit (w - 1)
  let sg := match op with
    | .copy => sb
    | .neg => !sb
    | .xor => sa != sb
  a % 2 ^ (w - 1) + (if sg then 2 ^ (w - 1) else 0)

/-- R132. -/
def execFsgn (o : Alu) (op : SgnOp) (s : State) : Host.Outcome State Fault Refusal :=
  runLap (.fsgn o op) s fun rd s =>
    let a := rd o.a
    let b := bValue rd o.ty o.b
    if isOffcut o.ty a || isOffcut o.ty b then .trap { code := 0x0C }
    else doneWith s o.d (BitVec.ofNat 64 (signWord o.ty op a.toNat b.toNat))

end Sys2Proof.Machine
end

