-- ==== Sys2Proof/Machine/Area.lean ====
section
/-! DEFINITION. Where the parts of a cluster save area lie (R215 to R218, R270, R334, R341, R342, R353; log 10), and the two things that
are read or changed in it while its launch is saved: trigger counts (R310) and flags (R222). -/

namespace Sys2Proof.Machine

/-! ### Elements of an accumulator (R172, R173) -/

/-- R172: a field of ACCST. -/
def stField (st : W64) (lo n : Nat) : Nat := st.toNat / 2 ^ lo % 2 ^ n
def Accu.kind (a : Accu) : Nat := stField a.st 0 2

/-- R173: the empty pair. -/
def emptyPair : W64 := 0xFFFFFFFFFF800000

/-- What an element that is not listed holds. -/
def Accu.blank (a : Accu) : W64 := if a.kind = 2 then emptyPair else 0

/-- Log 10: the save area of a set position of a launch lies above every other memory. -/
def saveBase (die count pos : Nat) : Nat := 2 ^ 65 + ((count * 4 + die) * 128 + pos) * 2 ^ 24

/-- Bytes of a save area, at most. -/
def saveSize : Nat := 2 ^ 24

/-- R215: parts are 512-byte aligned. -/
def up512 (a : Nat) : Nat := (a + 511) / 512 * 512

/-! ### The first parts -/

def areaCsp (b : Nat) : Nat := b + 512
def areaFull (b : Nat) : Nat := areaCsp b + 2 ^ 22
def areaTiles (b : Nat) : Nat := areaFull b + 2 ^ 16
def areaCores (b : Nat) : Nat := areaTiles b + 4096

/-! ### A lap core: local memory, counters, sled, inbox, token buffer, decode table, thread records -/

def coreTrig (a : Nat) : Nat := a + 0x8000
def coreSled (a : Nat) : Nat := coreTrig a + 128
def coreInbox (a : Nat) : Nat := coreSled a + (8 + 16 * 64)
def coreToks (a : Nat) : Nat := coreInbox a + (8 + 80 * 32)
def coreTab (a : Nat) : Nat := coreToks a + 1040
def coreRecs (a : Nat) : Nat := coreTab a + 1040

/-- R216: bytes of a thread record of a window size. -/
def recBytes (size : Nat) : Nat := 352 + 8 * size

/-- R216: the record of a slot, behind those of the slots below it. -/
def State.threadRec (s : State) (a slot : Nat) : Nat :=
  (List.range slot).foldl (fun r _ => r + recBytes (s.rd (r + 0x12) 1)) (coreRecs a)

/-- The part of a lap core, behind those of the cores below it. -/
def State.corePart (s : State) (b c : Nat) : Nat :=
  (List.range c).foldl (fun a _ => up512 (s.threadRec a 16)) (areaCores b)

/-! ### A control core: vector registers, accumulators, step queue, contexts, replay record, decode table -/

/-- R217: bytes of one accumulator. -/
def accBytes : Nat := 0x8000 + 32 + 512

/-- R217, R334: bytes of a context record. -/
def ctxBytes : Nat := 128 + 512 + 8 + 512 + 64 + 704

def ccAccs (a : Nat) : Nat := a + 768 * 512
def ccSteps (a : Nat) : Nat := ccAccs a + 4 * accBytes
def ccCtx (a x : Nat) : Nat := ccSteps a + 64 + x * ctxBytes
def ccReplay (a : Nat) : Nat := ccCtx a 4

/-- R218: bytes of a replay entry of a register kind. -/
def replayBytes (kind : Nat) : Nat := 8 + (if kind = 2 then 64 else if kind = 3 then 512 else 8)

/-- The decode table of a control core, behind its replay record (R342). -/
def State.ccTab (s : State) (a : Nat) : Nat :=
  (List.range (s.rd (ccReplay a) 4)).foldl (fun r _ => r + replayBytes (s.rd r 1)) (ccReplay a + 16)

/-- The part of a control core. -/
def State.ccPart (s : State) (b cc : Nat) : Nat :=
  (List.range cc).foldl (fun a _ => up512 (s.ccTab a + 1040)) (s.corePart b 32)

/-! ### The MU and the copy engine -/

def State.muPart (s : State) (b : Nat) : Nat := s.ccPart b 2
def muBuf : Nat := 0x8000 + 512
def State.cePart (s : State) (b : Nat) : Nat := up512 (s.muPart b + 2 * muBuf + 512)

/-! ### Saved launches -/

/-- R12, R23: the cluster at a set position. -/
def posKid (die : Nat) (rinks : List Nat) (p : Nat) : Nat := die * 128 + 8 * rinks.getD (p / 8) 0 + p % 8

/-- The set position at which a launch holds, or was saved from, a cluster. -/
def Launch.posOf (l : Launch) (k : Nat) : Option Nat :=
  (List.range (8 * l.rinks.length)).find? fun p => posKid l.die l.rinks p = k

/-- The save area of a launch saved from a cluster; with a generation, of the launch of that generation only. -/
def State.savedAt (s : State) (k : Nat) (gen : Option Nat) : Option Nat :=
  s.launches.findSome? fun l =>
    if l.die == k / 128 && l.saved.isSome && (gen.all fun g => l.count % 256 == g) then
      (l.posOf k).map (saveBase l.die l.count)
    else none

/-- R222: where the FLG of a saved entity lies. -/
def State.savedFlg (s : State) (b : Nat) : Ent → Option Nat
  | .lap _ c t => some (s.threadRec (s.corePart b c) t + 8)
  | .ctx _ cc x => some (ccCtx (s.ccPart b cc) x + 24)
  | .ce _ => some (s.cePart b + 8)
  | .re _ | .hart _ | .far _ => none

/-- R310: a trigger counter of a saved cluster, as its save area holds it. -/
def State.savedCount (s : State) (b core ctr : Nat) : Nat := s.rd (coreTrig (s.corePart b core) + 8 * ctr) 4

end Sys2Proof.Machine
end

