-- ==== Sys2Proof/Machine/Xlate.lean ====
section
/-! DEFINITION. Translation of global addresses: the PASID table, the page walk, leaf caches and permissions (R234 to R240). -/

namespace Sys2Proof.Machine

/-- What an access needs of a leaf (R237). -/
inductive Need where
  | rd | wr | rw | ex
deriving DecidableEq, Repr

/-- R237, R239: whether a leaf permits an access at a level. -/
def Leaf.permits (l : Leaf) (n : Need) (level : Nat) : Bool :=
  (match n with
    | .rd => l.rd
    | .wr => l.wr
    | .rw => l.rd && l.wr
    | .ex => l.ex) && (l.usr || decide (0 < level))

/-- How a walk ends (R235, R239): a fault carries the DPA to log, if any. -/
inductive WalkRes where
  | leaf (l : Leaf)
  | host
  | fault (code : Nat) (dpa : Option Nat)
deriving DecidableEq, Repr

/-- A walk's end, with the table entries it has passed: level, selecting address bits and entry (R240). -/
structure WalkOut where
  res : WalkRes
  passed : List (Nat × Nat × W64)
deriving DecidableEq, Repr

/-- R239: the end of a walk at an entry that is wrong: its DPA is logged. -/
def badEntry (at_ : Nat) : WalkOut := { res := .fault 0x07 (some at_), passed := [] }

/-- R236: where a table of a level has its entry for an address. -/
def tableSlot (va level table : Nat) : Nat := table + 8 * (va / 2 ^ (12 + 9 * level) % (if level = 4 then 256 else 512))

/-- R236, R237, R239, R240: the walk from a table at a level down to level 0. held is what the station's cache of table entries
has for a level. An entry that leads to a table with no word at the index there is itself the wrong one. -/
def walkFrom (s : State) (held : Nat → Option W64) (va level table : Nat) : WalkOut :=
  let at_ := tableSlot va level table
  let below (e : W64) (seen : Bool) : WalkOut :=
    match level with
    | 0 => badEntry at_
    | l + 1 =>
      let next := e.toNat / 2 ^ 12 % 2 ^ 40 * 2 ^ 12
      if (held l).isNone && !(s.dpaOk (tableSlot va l next)) then badEntry at_
      else
        let r := walkFrom s held va l next
        if seen then r else { r with passed := (level, va / 2 ^ (12 + 9 * level), e) :: r.passed }
  match held level with
  | some e => below e true
  | none =>
    if s.dpaOk at_ then
      let e : W64 := s.rd64 at_
      let addr := e.toNat / 2 ^ 12 % 2 ^ 40 * 2 ^ 12
      if s.lost at_ 8 then { res := .fault 0x13 (some at_), passed := [] }
      else if e.getLsbD 0 = false then { res := .fault 0x06 none, passed := [] }
      else if e.extractLsb' 7 3 ≠ 0#3 ∨ e.extractLsb' 52 7 ≠ 0#7 then badEntry at_
      else if e.getLsbD 1 then
        let span := 2 ^ (12 + 9 * level)
        if level ≥ 3 ∨ addr % span ≠ 0 then badEntry at_
        else
          let page := addr + va % span / 4096 * 4096
          if s.dpaOk page ∧ page < hostBase then
            { res := .leaf { absent := false, dpa := page, host := false, rd := e.getLsbD 2, wr := e.getLsbD 3,
                             ex := e.getLsbD 4, usr := e.getLsbD 5 }
              passed := [] }
          else badEntry at_
      else if e.extractLsb' 2 5 ≠ 0#5 then badEntry at_
      else below e false
    else badEntry at_
termination_by structural level

/-- R235, R236: the walk of a page of a PASID, with what a station's cache of table entries has. -/
def State.walkPage (s : State) (held : Nat → Option W64) (pasid va : Nat) : WalkOut :=
  let a := s.pasidBase.toNat + 16 * pasid
  let w0 := s.rd64 a
  if s.lost a 16 then { res := .fault 0x13 (some a), passed := [] }
  else if w0.getLsbD 0 = false ∨ w0.extractLsb' 2 10 ≠ 0#10 ∨ w0.extractLsb' 52 12 ≠ 0#12 ∨ s.rd64 (a + 8) ≠ 0 then
    { res := .fault 0x07 none, passed := [] }
  else if w0.getLsbD 1 then { res := .host, passed := [] }
  else
    let root := w0.toNat / 2 ^ 12 % 2 ^ 40 * 2 ^ 12
    if (held 4).isNone && !(s.dpaOk (tableSlot va 4 root)) then badEntry a else walkFrom s held va 4 root

/-- R234: the station of a request, numbered over the package. -/
def stationOf (die pasid va : Nat) : Nat := die * 16 + ((va / 2 ^ 12 % 16) ^^^ (va / 2 ^ 21 % 16) ^^^ (pasid % 16))

def pageOf (va : Nat) : Nat := va / 4096 * 4096

/-- R240: a leaf a station holds. -/
def State.leafAt (s : State) (die pasid va : Nat) : Option Leaf :=
  mfind s.leaves (stationOf die pasid va, pasid, pageOf va)

/-- R240: a station takes a leaf; when it holds 4,096 it drops one (log 13). -/
def State.putLeaf (s : State) (die pasid va : Nat) (l : Leaf) : State :=
  let st := stationOf die pasid va
  let mine := s.leaves.filter fun x => x.1.1 = st
  let s := if mine.length ≥ 4096 then
      match mine[Config.pick s.fresh % 4096]? with
      | some x => { s with leaves := mdel s.leaves x.1, fresh := s.fresh + 1 }
      | none => s
    else s
  { s with leaves := mput s.leaves (st, pasid, pageOf va) l }

/-- R240: what a station's cache of table entries has for a level of a page. -/
def State.tableAt (s : State) (die pasid va level : Nat) : Option W64 :=
  mfind s.tables (stationOf die pasid va, pasid, level, va / 2 ^ (12 + 9 * level))

/-- R240: a station takes the table entries a walk has passed; when it holds 256 it drops one (log 13). -/
def State.putTables (s : State) (die pasid va : Nat) (l : List (Nat × Nat × W64)) : State :=
  let st := stationOf die pasid va
  l.foldl (fun (s : State) x =>
    let mine := s.tables.filter fun y => y.1.1 = st
    let s := if mine.length ≥ 256 then
        match mine[Config.pick s.fresh % 256]? with
        | some y => { s with tables := mdel s.tables y.1, fresh := s.fresh + 1 }
        | none => s
      else s
    { s with tables := mput s.tables (st, pasid, x.1, x.2.1) x.2.2 }) s

/-- R236, R240: a station walks a page, reading the tables now. -/
def State.walk (s : State) (die pasid va : Nat) : WalkRes × State :=
  let r := s.walkPage (s.tableAt die pasid va) pasid va
  (r.res, s.putTables die pasid va r.passed)

def State.dropLeaf (s : State) (die pasid va : Nat) : State :=
  { s with leaves := mdel s.leaves (stationOf die pasid va, pasid, pageOf va) }

/-- R235: asks the host for a translation, once for a page. -/
def State.askHost (s : State) (die pasid va : Nat) (req : Option Nat) : State :=
  let p := pageOf va
  if s.walks.any (fun w => w.ats ∧ w.die = die ∧ w.pasid = pasid ∧ w.page = p) then
    { s with walks := s.walks.map fun w =>
        if w.ats ∧ w.die = die ∧ w.pasid = pasid ∧ w.page = p then { w with reqs := w.reqs ++ req.toList } else w }
  else
    { s with walks := s.walks ++ [{ die := die, pasid := pasid, page := p, reqs := req.toList, due := 0, ats := true, begun := true }],
             outbox := s.outbox ++ [.ats pasid p] }

/-- R239, R242: the DPA of an entry that ends a walk with protection is logged, with a cause the spec does not state: a free value
(log 22); an uncorrectable entry is logged as such. PREF meets either with no effect at all (R253). -/
def State.logWalk (s : State) (die : Nat) (who : LogWho) (code : Nat) (dpa : Option Nat) : State :=
  match dpa with
  | none => s
  | some a =>
    if code = 0x13 then s.logLost (homeDie a) who (BitVec.ofNat 64 a)
    else { s with fresh := s.fresh + 1 }.logBy die (Config.pick s.fresh % 256) 0x07 who (BitVec.ofNat 64 a) 0

/-- The outcome of a translation made in one place (log 12). -/
inductive XRes where
  | ok (dpa : Nat) (l : Leaf) (s : State)
  | fault (code : Nat) (s : State)
  /-- the host has been asked; the issuer tries again -/
  | wait (s : State)

/-- R240: a walk of a page that a miss register of its station stands for. -/
def State.findWalk (s : State) (die pasid page : Nat) : Option Walk :=
  s.walks.find? fun w => w.die = die ∧ w.pasid = pasid ∧ w.page = page

/-- R240: the miss registers of a station that are in use. -/
def State.missRegs (s : State) (st : Nat) : List Walk := s.walks.filter fun w => stationOf w.die w.pasid w.page = st

/-- R240: whether a station accepts no request: its 512 miss registers or its 8,192 request places are all in use. -/
def State.stationFull (s : State) (st : Nat) : Bool :=
  let mine := s.missRegs st
  decide (512 ≤ mine.length) || decide (8192 ≤ mine.foldl (fun (n : Nat) w => n + w.reqs.length) 0)

/-- R240: whether a station's walker may begin a walk: at most 32 run at once. -/
def State.walkerFree (s : State) (st : Nat) : Bool := decide (((s.missRegs st).filter fun w => w.begun && !w.ats).length < 32)

/-- R234 to R240: translates an address for an access of an entity in one place; the leaf caches answer first, a walk of the page that
is under way is waited for, and so is a station that accepts nothing or whose walker is busy; a walk of its own takes a miss register
and frees it in the one step (log 12). -/
def State.xlate (s : State) (e : Ent) (pasid va : Nat) (n : Need) : XRes :=
  let die := entDie e
  let st := stationOf die pasid va
  let use (l : Leaf) (s : State) : XRes :=
    if l.permits n (s.level e) then .ok (l.dpa + va % 4096) l s else .fault 0x07 s
  if s.stationFull st then .wait s
  else match s.leafAt die pasid va, s.findWalk die pasid (pageOf va) with
  | some l, _ => if l.absent then .fault 0x06 (s.dropLeaf die pasid va) else use l s
  | none, some _ => .wait s
  | none, none =>
    if !(s.walkerFree st) then .wait s
    else match s.walk die pasid va with
    | (.leaf l, s) => use l (s.putLeaf die pasid va l)
    | (.host, s) => .wait (s.askHost die pasid va none)
    | (.fault c d, s) => .fault c (s.logWalk die (logWho 0 e) c d)

end Sys2Proof.Machine
end

