-- ==== Sys2Proof/Machine/Site.lean ====
section
/-! DEFINITION. What an access does at its place: the read-modify-write of one element, and its execution at a scratchpad
controller or in local memory (R245, R249 to R251, R254, R262, R337, R374). -/

namespace Sys2Proof.Machine

/-! ### One element -/

/-- R249: an addition: integers modulo 2^w; floats rounded RNE, a NaN on either side giving the default NaN. No flag. -/
def addmVal (t : Ty) (m d : Nat) : Nat :=
  if t.isFloat then
    let f := tyFmt t
    let x := decF f (m % 2 ^ tyW t)
    let y := decF f (d % 2 ^ tyW t)
    if x.isNan || y.isNan then f.dnan else (roundVal f .rne false 0 (fAdd .rne x y).1).1
  else (m + d) % 2 ^ tyW t

/-- R250: what AMO stores; minimum and maximum by signed value, minn and maxn by unsigned value. -/
def amoVal (op : AmoOp) (t : Ty) (m d : Nat) : Nat :=
  let w := tyW t
  let a := m % 2 ^ w
  let b := d % 2 ^ w
  let sg (x : Nat) : Int := if x ≥ 2 ^ (w - 1) then (x : Int) - 2 ^ w else x
  match op with
  | .add => (a + b) % 2 ^ w
  | .and => a &&& b
  | .or => a ||| b
  | .xor => a ^^^ b
  | .min => if sg a ≤ sg b then a else b
  | .max => if sg a ≥ sg b then a else b
  | .minn => Min.min a b
  | .maxn => Max.max a b
  | .swap => b

/-- R373: the fields of a peg word. -/
def pegCount (m : Nat) : Nat := m % 2 ^ 28
def pegTarget (m : Nat) : Nat := m / 2 ^ 28 % 2 ^ 28
def pegGen (m : Nat) : Nat := m / 2 ^ 56 % 256
def pegWord (count target gen : Nat) : Nat := count + target * 2 ^ 28 + gen * 2 ^ 56

/-- R374: whether PEGWAIT's condition holds. -/
def pegMet (m g : Nat) : Bool := decide ((pegGen m + 256 - g % 256) % 256 < 128)

/-- R374: PEGARM with .add; none is peg overshoot. -/
def pegAddVal (m n : Nat) : Option Nat :=
  if pegTarget m = 0 ∨ pegCount m + n > pegTarget m then none
  else if pegCount m + n = pegTarget m then some (pegWord 0 (pegTarget m) ((pegGen m + 1) % 256))
  else some (pegWord (pegCount m + n) (pegTarget m) (pegGen m))

/-- The element an access names: its type and nibble. -/
def AccOp.elem : AccOp → Ty × Bool
  | .load ty hi | .store ty hi _ => (ty, hi)
  | .tload ty _ | .addm ty _ | .amo _ ty _ | .cas ty _ _ | .take ty | .peek ty | .give ty _ | .sts ty _ _ =>
    (ty, false)
  | _ => (.b64, false)

/-- R245, R250, R251, R374: the value an access answers with and the pattern it stores, or a fault. -/
def rmw (op : AccOp) (old : Nat) : Except Nat (W64 × Option Nat) :=
  match op with
  | .load ty _ | .tload ty _ | .take ty | .peek ty => .ok (widen ty old, none)
  | .store _ _ v | .give _ v => .ok (0, some v.toNat)
  | .addm ty v => .ok (0, some (addmVal ty old v.toNat))
  | .amo o ty v => .ok (widen ty old, some (amoVal o ty old v.toNat))
  | .cas ty e n => .ok (widen ty old, if old = e.toNat % 2 ^ tyW ty then some n.toNat else none)
  | .pegArm t => .ok (BitVec.ofNat 64 old, some (pegWord 0 t (pegGen old)))
  | .pegAdd n =>
    match pegAddVal old n with
    | some v => .ok (BitVec.ofNat 64 old, some v)
    | none => .error 0x1A
  | .pegWait _ => .ok (BitVec.ofNat 64 old, none)
  | _ => .ok (0, none)

/-- R245, R374: whether an access may take its place now, from the word and its full bit. -/
def AccOp.ready (op : AccOp) (old : Nat) (full : Bool) : Bool :=
  match op with
  | .take _ | .peek _ => full
  | .give _ _ => !full
  | .pegWait g => pegMet old g
  | _ => true

/-- R262: accesses that may not touch a live tile buffer. -/
def AccOp.noTile : AccOp → Bool
  | .take _ | .peek _ | .give _ _ | .amo _ _ _ | .cas _ _ _ | .addm _ _ | .pegArm _ | .pegAdd _ => true
  | _ => false

/-- R241: whether an access is a write that a fault may drop when it is posted. -/
def AccOp.isWrite : AccOp → Bool
  | .store _ _ _ | .addm _ _ | .amo _ _ _ | .sts _ _ _ | .give _ _ | .lineWrite _ | .drain _ _ _ => true
  | _ => false

/-! ### Local memory -/

/-- R245, R250, R251: an access to local memory at a physical address. -/
def State.localOp (s : State) (a : Nat) (op : AccOp) : W64 × State :=
  let t := op.elem
  match rmw op (s.elem a t.1 t.2) with
  | .ok (v, some n) =>
    (v, { s with mem := (storeBytes s 0 a t.1 t.2 (BitVec.ofNat 64 n)).foldl (fun (m : List Host.Cell) (b : Nat × Byte) => memSet m b.1 b.2) s.mem }.cure a (tyW t.1 / 8))
  | .ok (v, none) => (v, s)
  | .error _ => (0, s)

/-- R242: whether an access meets uncorrectable data at n bytes: a store by what it leaves, anything else by what it reads. -/
def AccOp.fails (op : AccOp) (s : State) (a n : Nat) : Bool :=
  match op with
  | .store _ _ _ | .give _ _ => s.badWrite a n
  | _ => s.lost a n

/-! ### The scratchpad -/

/-- The outcome of an access at a scratchpad controller. -/
inductive SiteRes where
  | ok (v : W64) (s : State)
  /-- its condition does not hold -/
  | wait
  | err (code : Nat) (s : State)

/-- R242, R245: an access of a cluster's local memory, or its uncorrectable data. -/
def State.localSite (s : State) (e : Ent) (a : Nat) (addr : W64) (op : AccOp) : SiteRes :=
  if op.fails s a (if op.elem.1 = .i4 then 1 else tyW op.elem.1 / 8) then .err 0x13 (s.logLost (entDie e) (logWho 0 e) addr)
  else let r := s.localOp a op; .ok r.1 r.2

/-- R337: the queue count a load of a kick word returns, at a byte of the word. -/
def kickRead (n off : Nat) (ty : Ty) (hi : Bool) : W64 :=
  let b := n / 256 ^ (off % 8)
  widen ty (if ty = .i4 ∧ hi then b / 16 else b)

/-- R254: an access takes its place at offset off of cluster k's scratchpad; addr is its address as sent. -/
def State.site (s : State) (who : Ent) (k off : Nat) (addr : W64) (op : AccOp) : SiteRes :=
  match kickOf k off with
  | some eng =>
    match op with
    | .load ty hi => .ok (kickRead (s.kickCount eng) off ty hi) s
    | .kick v sc => if s.kickCount eng < 8 then .ok 0 (s.pushCmd eng who k v sc) else .wait
    | _ => .err 0x05 s
  | none =>
    let t := op.elem
    let n := if t.1 = .i4 then 1 else tyW t.1 / 8
    if op.noTile ∧ !(s.tilesAt k ((List.range n).map (off + ·))).isEmpty then .err 0x0A s
    else
      let a := cspBase k + off
      let w := a / 8 * 8
      let old := s.elem a t.1 t.2
      if op.fails s a n then .err 0x13 (s.logLost (k / 128) (logWho k who) addr)
      else if op.ready old (s.isFull w) then
        match rmw op old with
        | .error c => .err c s
        | .ok (v, none) => .ok v (match op with | .take _ => s.setEmpty w | _ => s)
        | .ok (v, some new) =>
          let r := s.land k (logWho k who) addr (storeBytes s (cspBase k) off t.1 t.2 (BitVec.ofNat 64 new)) (t.1 == .i4)
          if r.2 then .ok v (match op with | .give _ _ => r.1.setFull w | _ => r.1) else .err 0x09 r.1
      else .wait

/-! ### Banks (R32) -/

/-- R224: the bank of a scratchpad offset. -/
def bankOf (off : Nat) : Nat := off / 8 % 64

/-- R224: the bank of a local-memory address of a core, numbered after those of the scratchpad. -/
def localBank (core phys : Nat) : Nat := 64 + 8 * core + phys / 8 % 8

/-- R32, R224: the cluster and bank an address of an entity names, if any on this node. -/
def State.bankAt (s : State) (e : Ent) (a : W64) : Option (Nat × Nat) :=
  match e, decodePlace e a with
  | .lap k c _, .ok (.loc p) => some (k, localBank c p)
  | _, .ok (.csp k off) => some (k, bankOf off)
  | _, .ok (.fabric n k off) => if n = s.node then some (k, bankOf off) else none
  | _, _ => none

/-- R32: whether a bank of a cluster is still free in this clk. -/
def State.bankFree (s : State) (k b : Nat) : Bool :=
  let c := s.cluster k
  !(decide (c.grantsAt = s.clk) && c.grants.contains b)

/-- R32: grants banks of a cluster in this clk. -/
def State.grantBanks (s : State) (k : Nat) (bs : List Nat) : State :=
  let c := s.cluster k
  s.setCluster k { c with grants := (if c.grantsAt = s.clk then c.grants else []) ++ bs, grantsAt := s.clk }

/-- R32: an access of an entity asks for the bank of its address: the state with the grant, or none when the bank is taken in this
clk. -/
def State.takeBank (s : State) (e : Ent) (a : W64) : Option State :=
  match s.bankAt e a with
  | some (k, b) => if s.bankFree k b then some (s.grantBanks k [b]) else none
  | none => some s

/-! ### Requests -/

/-- Adds a request; its number is the counter of free values. -/
def State.addReq (s : State) (r : Req) : State := { s with reqs := mput s.reqs s.fresh r, fresh := s.fresh + 1 }
def State.dropReq (s : State) (id : Nat) : State := { s with reqs := mdel s.reqs id }
def State.setReq (s : State) (id : Nat) (r : Req) : State := { s with reqs := mput s.reqs id r }

/-- R241: records a dropped posted write of an entity, and logs its address. -/
def State.postFailed (s : State) (e : Ent) (addr : W64) : State :=
  let s := s.logErr (entDie e) 0x07 0x14 (entKidReg e) (entCid e) (logSlot e) addr 0
  match e with
  | .ctx _ _ _ => s
  | e =>
    let h := s.hart e
    s.setHart e { h with pwf := h.pwf.or (some addr) }

/-- The code of an answer; 0 when it is no fault. -/
def Ans.code : Ans → Nat
  | .ok _ => 0
  | .err c _ => c

/-- R31, R241, R394: an answer reaches its issuer, over the link when that is another node; a posted access takes only note of a
fault. -/
def State.answer (s : State) (r : Req) (a : Ans) : State :=
  if r.gone then s else
  match r.who with
  | .far n => { s with outbox := s.outbox ++ [.linkAnswer n r.addr a.code] }
  | _ =>
  if r.early then
    let h := s.hart r.who
    s.setHart r.who { h with early := h.early.map fun x =>
      if x.addr = r.addr ∧ x.op = r.op ∧ x.ans = none then { x with ans := some a } else x }
  else if r.posted then
    match a with
    | .ok _ => s
    | .err _ _ => if r.op.isWrite then s.postFailed r.who r.addr else s
  else
    match r.op with
    | .pref => s
    | _ =>
      let h := s.hart r.who
      match h.pend with
      | some p => s.setHart r.who { h with rot := .out, wait := .none, pend := some { p with ans := some a } }
      | none => s

/-- R245: posted stores of an entity. -/
def State.postedCount (s : State) (e : Ent) : Nat := (s.reqs.filter fun r => r.2.who = e ∧ r.2.isPosted).length

end Sys2Proof.Machine
end

