-- ==== Sys2Proof/Machine/Cache.lean ====
section
/-! DEFINITION. Cluster caches and homes: leases, visibility times, registrations, tolerance regions and drains (R233, R285 to
R289, R295 to R299, R364, R388 to R390). -/

namespace Sys2Proof.Machine

def lineOf (a : Nat) : Nat := a / 64 * 64

/-- The bytes off to off + n - 1 of a line, as a mask. -/
def byteMask (off n : Nat) : W64 := BitVec.ofNat 64 ((2 ^ n - 1) * 2 ^ off)

def putByte (d : BitVec 512) (off : Nat) (b : Byte) : BitVec 512 :=
  (d &&& ~~~(0xFF#512 <<< (8 * off))) ||| (b.setWidth 512 <<< (8 * off))

def putBytes (d : BitVec 512) (bs : List (Nat × Byte)) : BitVec 512 := bs.foldl (fun d b => putByte d b.1 b.2) d

def maskOf (bs : List (Nat × Byte)) : W64 := bs.foldl (fun m b => m ||| (1#64 <<< b.1)) 0

/-! ### Tolerance regions (R295, R365) -/

/-- A region entry as the home reads it. -/
structure Region where
  base : Nat
  bytes : Nat
  ty : Ty
  pol : Nat
  lim : W64
deriving DecidableEq, Repr

def regionTy (fmt : Nat) : Ty := match fmt with | 0 => .f32 | 1 => .bf16 | _ => .f64

def readRegion (w : W64 × W64) : Region :=
  { base := w.1.toNat % 2 ^ 36 * 65536, bytes := (w.1.extractLsb' 36 20).toNat * 65536,
    ty := regionTy (w.1.extractLsb' 56 2).toNat, pol := (w.1.extractLsb' 58 2).toNat, lim := w.2 }

/-- R295: the region that governs a DPA: the lowest index of its home die's table that covers it. -/
def State.regionAt (s : State) (dpa : Nat) : Option Region :=
  let t := (s.die (homeDie dpa)).regions
  ((List.range 64).filterMap fun i => (mfind t i).map readRegion).find? fun r =>
    decide (r.base ≤ dpa) && decide (dpa < r.base + r.bytes)

/-- R295: the tracker format. -/
def trackFmt (t : Ty) : FFmt := if t = .f64 then fmtF64 else fmtF32

def trackVal (t : Ty) (v : W64) : FVal := decF (trackFmt t) v.toNat

/-- An exact sum. -/
def sumVals (l : List FVal) : FVal := l.foldl (fun a b => (fAdd .rne a b).1) (.zero false)

def leVal (a b : FVal) : Bool := cmpNum a b != .gt || (match a, b with | .zero _, .zero _ => true | _, _ => false)

/-- R295: allowances outstanding on a line, with their holders. -/
def State.allowsOn (s : State) (dline : Nat) : List (Nat × W64) :=
  ((s.die (homeDie dline)).allows.filter fun a => a.1.1 = dline).map fun a => (a.1.2, a.2)

/-- R295: the grant a policy makes, with G the sum outstanding. -/
def grantOf (r : Region) (g : FVal) : Option W64 :=
  let f := trackFmt r.ty
  let l := trackVal r.ty r.lim
  let scaled (x : FVal) (k : Int) : W64 := match x with
    | .num n m e _ => BitVec.ofNat 64 (roundVal f .rdn false 0 (.num n m (e + k) false)).1
    | _ => 0
  match r.pol with
  | 1 =>
    let a := scaled l (-4)
    if a ≠ 0 ∧ leVal (fAdd .rne g (trackVal r.ty a)).1 l then some a else none
  | 2 =>
    match (fAdd .rne l g.neg).1 with
    | .num false m e st =>
      let a := scaled (.num false m e st) (-1)
      if a ≠ 0 then some a else none
    | _ => none
  | _ => none

/-! ### Lines of a cluster cache -/

def State.cchAt (s : State) (k pasid line : Nat) : Option CchLine :=
  (s.cluster k).cch.find? fun l => l.pasid = pasid ∧ l.line = line

/-- R224: a second-level slice takes a line, to be written back when it has been written; a full one drops a line (log 13). What
it holds is in mem. -/
def State.l2Touch (s : State) (dpa : Nat) (dirty : Bool) : State :=
  let dl := lineOf dpa
  let d := homeDie dl
  let x := s.die d
  let (x, n) :=
    if (mfind x.l2 dl).isSome then (x, s.fresh)
    else
      let mine := x.l2.filter fun y => homeSlice y.1 = homeSlice dl
      if mine.length ≥ Config.l2Lines then
        match mine[Config.pick s.fresh % Config.l2Lines]? with
        | some y => ({ x with l2 := mdel x.l2 y.1 }, s.fresh + 1)
        | none => (x, s.fresh)
      else (x, s.fresh)
  { s with fresh := n }.setDie d { x with l2 := mput x.l2 dl (dirty || mget x.l2 false dl) }

/-- A line of a cluster's cache by its DPA. -/
def State.cchByDpa (s : State) (k dline : Nat) : Option CchLine := (s.cluster k).cch.find? fun l => l.dpa = dline

def State.setLine (s : State) (k : Nat) (l : CchLine) : State :=
  let c := s.cluster k
  if c.cch.any fun x => x.pasid = l.pasid ∧ x.line = l.line then
    s.setCluster k { c with cch := c.cch.map fun x => if x.pasid = l.pasid ∧ x.line = l.line then l else x }
  else s.setCluster k { c with cch := c.cch ++ [l] }

def CchLine.fresh (pasid line : Nat) (lf : Leaf) : CchLine :=
  { pasid := pasid, line := line, dpa := lf.dpa + line % 4096, host := lf.host, rd := lf.rd, wr := lf.wr, ex := lf.ex, usr := lf.usr,
    data := 0, valid := 0, expiry := 0, inflight := 0, dirty := 0, allow := none, tracker := 0, sums := [], osum := [] }

/-- R239: whether a level may use a line. -/
def CchLine.levelOk (l : CchLine) (level : Nat) : Bool := l.usr || decide (0 < level)

/-- The bytes of a line that an acquire has not made stale: registered ones, and those R288 lets a line with a write on its way keep
(log 32). -/
def State.current (s : State) (k : Nat) (l : CchLine) : W64 :=
  s.keptBytes k l ||| regBytes ((s.die (homeDie l.dpa)).regs) k l.dpa

/-- R286, R291, R392: whether the copy serves a read of these bytes now: its lease is live, or the line has a write on its way and the
bytes are those R288 lets stay (log 32); after an acquire only bytes that are current; none of a failed range. -/
def State.serves (s : State) (k : Nat) (l : CchLine) (off n : Nat) : Bool :=
  let m := byteMask off n
  decide (l.valid &&& m = m) && (decide (s.pt < l.expiry) || decide (s.keptBytes k l &&& m = m))
    && (!l.acquired || decide (s.current k l &&& m = m)) && !(s.farFailed l.dpa)

def CchLine.bytes (l : CchLine) (off n : Nat) : Nat := (l.data.toNat / 256 ^ off) % 256 ^ n

/-- A latency no longer than the bound of R287, in clk. -/
def State.drawShort (s : State) : Nat × State := (Config.delay s.fresh % 400 + 1, { s with fresh := s.fresh + 1 })

/-- R287: such a latency for a write of an issue pt to a home: it ends within dh of the issue while that is possible; no clk is longer
than 1 pt (R382). -/
def State.drawWrite (s : State) (issue issuer home : Nat) : Nat × State :=
  let d := s.drawShort
  (min d.1 (max 1 (issue + delivery issuer home - s.pt)), d.2)

/-- R287: the visibility time of a write of a cluster that is no entity's raises the cluster's horizon. -/
def State.noteKid (s : State) (k dpa : Nat) : State := s.raiseKid k (s.visTime s.pt (k / 128) (homeDie dpa))

/-- R287, R297, R300: sends a line's withheld sums to the home, for an entity, as one write; back returns the allowance. -/
def State.sendDrain (s : State) (who : Ent) (k : Nat) (l : CchLine) (back : Bool) : State :=
  match l.allow with
  | none => s
  | some _ =>
    let ty := match s.regionAt l.dpa with | some r => r.ty | none => .f32
    let d := s.drawShort
    let s := if l.sums.isEmpty then d.2 else d.2.noteKid k l.dpa
    let s := s.addReq { who := who, pasid := some l.pasid, level := 1, addr := BitVec.ofNat 64 l.line,
                        op := .drain ty l.sums back, phase := .write, due := s.clk + d.1, posted := false, dpa := l.dpa,
                        kid := k, dest := 0, posters := l.posters }
    s.setLine k { l with allow := if back then none else l.allow, tracker := 0, sums := [], posters := [] }

/-- R289, R364: drops the entries of a cluster's registrations that touch a line, at its home. -/
def State.dropRegs (s : State) (k dline : Nat) : State :=
  let d := homeDie dline
  let x := s.die d
  s.setDie d { x with regs := x.regs.filter fun r =>
    !(r.1 = homeSlice dline && r.2.kid = k && (List.range 64).any fun j => r.2.covers (dline + j)) }

/-- R289, R297: a line leaves a cluster's cache; its sums drain with the allowance, its registrations end. -/
def State.evictLine (s : State) (k : Nat) (l : CchLine) : State :=
  let s := s.sendDrain (.ce k) k l true
  let s := s.dropRegs k l.dpa
  let c := s.cluster k
  s.setCluster k { c with cch := c.cch.filter fun x => !(x.pasid = l.pasid && x.line = l.line) }

/-- R224, R286: whether a cluster's cache can take n more lines: all its lines but those with a write on their way can go. -/
def State.roomFor (s : State) (k n : Nat) : Bool :=
  decide (((s.cluster k).cch.filter fun l => l.inflight ≠ 0).length + n ≤ Config.cchLines)

/-- Whether a cluster's cache holds the line of an address or can take it in. -/
def State.canTake (s : State) (k pasid va : Nat) : Bool := (s.cchAt k pasid (lineOf va)).isSome || s.roomFor k 1

/-- R224: a cache with no room evicts a line that holds no write on its way (log 13). -/
def State.makeRoom (s : State) (k : Nat) : State :=
  let c := s.cluster k
  if c.cch.length < Config.cchLines then s
  else
    let can := c.cch.filter fun l => l.inflight = 0
    match can[Config.pick s.fresh % can.length]? with
    | some l => { s with fresh := s.fresh + 1 }.evictLine k l
    | none => s

/-- The line for an access, taken in with its translation when it is not held; the caller asks canTake first. -/
def State.takeLine (s : State) (k pasid va : Nat) (lf : Leaf) : CchLine × State :=
  match s.cchAt k pasid (lineOf va) with
  | some l => (l, s)
  | none =>
    let l := CchLine.fresh pasid (lineOf va) lf
    (l, (s.makeRoom k).setLine k l)

/-! ### Writes on their way, and what the home reads -/

/-- The bytes a write of a line puts into memory; a nibble is merged at the home (R246). -/
def writeBytes (mem : List Host.Cell) (dpa : Nat) : AccOp → List (Nat × Byte)
  | .store ty hi v =>
    if ty = .i4 then
      let b := memGet mem dpa
      let nv : BitVec 4 := v.extractLsb' 0 4
      [(dpa, if hi then nv ++ b.extractLsb' 0 4 else b.extractLsb' 4 4 ++ nv)]
    else bytesOf dpa (tyW ty / 8) v.toNat
  | .lineWrite bs => bs.map fun b => (dpa + b.1, b.2)
  | _ => []

def putMem (mem : List Host.Cell) (bs : List (Nat × Byte)) : List Host.Cell := bs.foldl (fun m b => memSet m b.1 b.2) mem

/-- R286: the bytes of a line a write leaves in the copy: a nibble only where the copy holds the byte. -/
def copyBytes (l : CchLine) (off : Nat) : AccOp → List (Nat × Byte)
  | .store ty hi v =>
    if ty = .i4 then
      if l.valid.getLsbD off then
        let b : Byte := l.data.extractLsb' (8 * off) 8
        let nv : BitVec 4 := v.extractLsb' 0 4
        [(off, if hi then nv ++ b.extractLsb' 0 4 else b.extractLsb' 4 4 ++ nv)]
      else []
    else bytesOf off (tyW ty / 8) v.toNat
  | .lineWrite bs => bs.map fun b => (off + b.1, b.2)
  | _ => []

/-- R285: whether a request is sent by a cluster's cache: that of an entity of the cluster, or a drain whoever asked for it. -/
def Req.ofKid (r : Req) : Bool :=
  (entKid r.who).isSome || (match r.op with | .drain _ _ _ => true | _ => false)

/-- R285: whether a request is a write, addition or drain of a cluster's cache on its way to a line. -/
def Req.onWay (r : Req) (dline : Nat) : Bool :=
  r.phase == .write && r.ofKid && lineOf r.dpa == dline &&
    (match r.op with | .store _ _ _ | .lineWrite _ | .addm _ _ | .drain _ _ _ => true | _ => false)

/-- R285: what a cluster's cache has on its way to a line, in the order in which it accepted it. -/
def State.onLine (s : State) (k dline : Nat) : List (Nat × Req) := s.reqs.filter fun r => r.2.kid == k && r.2.onWay dline

/-- R288: the bytes of a line that requests still on their way have written, after one more of them. -/
def marks (l : CchLine) (m : W64) (r : Req) : W64 :=
  match r.op with
  | .addm ty _ => m &&& ~~~(byteMask (r.dpa % 64) (tyW ty / 8))
  | op => m ||| maskOf (copyBytes l (r.dpa % 64) op)

/-- R242: bytes from an address on take their place at the home, or are refused and logged. -/
def State.putHome (s : State) (w : LogWho) (dpa : Nat) (bs : List (Nat × Byte)) : State :=
  if s.badWrite dpa bs.length then s.logLost (homeDie dpa) w (BitVec.ofNat 64 dpa)
  else ({ s with mem := putMem s.mem bs }.cure dpa bs.length).l2Touch dpa true

/-- R241, R242, R286, R288, R291: a write of a cluster has arrived: the line no longer waits for it and holds as written what is still
on its way; bytes that were refused are no longer held; an expired copy goes with the last write, and of an acquired one what is not
current. -/
def State.arrived (s : State) (r : Req) (refused : Bool) : State :=
  match r.pasid.bind fun p => s.cchAt r.kid p (lineOf r.addr.toNat) with
  | none => s
  | some l =>
    let n := l.inflight - 1
    let left := ((s.onLine r.kid l.dpa).filter fun q => q.2.pasid == r.pasid && lineOf q.2.addr.toNat == l.line).map (·.2)
    let dirty := left.foldl (marks l) 0
    let l := { l with dirty := dirty, valid := if refused then l.valid &&& ~~~(marks l 0 r &&& ~~~dirty) else l.valid }
    let valid : W64 := if n ≠ 0 then l.valid
      else if l.expiry ≤ s.pt then 0
      else if l.acquired then l.valid &&& s.current r.kid l
      else l.valid
    s.setLine r.kid { l with inflight := n, valid := valid, acquired := l.acquired && n != 0 }

/-- R289: ends the registrations of other clusters over these bytes. -/
def State.dropOthers (s : State) (kid : Option Nat) (dpa : Nat) (bs : List Nat) : State :=
  let d := homeDie dpa
  let x := s.die d
  s.setDie d { x with regs := x.regs.filter fun r =>
    !(decide (r.1 = homeSlice dpa) && decide (some r.2.kid ≠ kid) && bs.any r.2.covers) }

/-- R389: a device write to a line the host holds sends a back-invalidation. -/
def State.snoopHost (s : State) (kid : Option Nat) (dline : Nat) : State :=
  if s.hostHeld.contains dline then
    { s with hostHeld := s.hostHeld.erase dline, snoops := s.snoops ++ [(dline, kid)], outbox := s.outbox ++ [.snoop dline] }
  else s

/-! ### Additions and drains at the home -/

/-- R249, R297: one addition of a cluster to an element at its home. -/
def State.addHome (s : State) (w : LogWho) (kid a : Nat) (ty : Ty) (v : Nat) : State :=
  let n := tyW ty / 8
  let s := s.dropOthers (some kid) a ((List.range n).map (a + ·))
  if s.lost a n then s.logLost (homeDie a) w (BitVec.ofNat 64 a)
  else (s.wr a n (addmVal ty (s.rd a n) v)).l2Touch a true

/-- R241, R297: folds sums into a line at its home, in element order; the issuers of relaxed additions in a sum that is refused are
told, by the address in the line at va. -/
def State.foldSums (s : State) (kid dline va : Nat) (ty : Ty) (sums : List (Nat × W64)) (posters : List (Nat × Ent)) : State :=
  let s := sums.foldl (fun (s : State) x =>
    let refused := s.lost (dline + x.1) (tyW ty / 8)
    let s := s.addHome { kid := kid, core := 0, slot := 0 } kid (dline + x.1) ty x.2.toNat
    if refused then (posters.filter fun p => p.1 = x.1).foldl (fun (s : State) p => s.postFailed p.2 (BitVec.ofNat 64 (va + x.1))) s else s) s
  if sums.isEmpty then s else s.snoopHost (some kid) dline

/-- R295, R297: an allowance returns to the home. -/
def State.returnAllow (s : State) (dline k : Nat) : State :=
  let d := homeDie dline
  let x := s.die d
  s.setDie d { x with allows := mdel x.allows (dline, k), forced := x.forced.filter (· ≠ (dline, k)) }

/-- R298: whether forced drains of a line are still to be folded. -/
def State.forcedOn (s : State) (dline : Nat) : Bool := (s.die (homeDie dline)).forced.any fun f => f.1 = dline

/-- R295: the grant that rides on the acknowledgment of a direct addition. -/
def State.grantAllow (s : State) (r : Req) : State :=
  let dl := lineOf r.dpa
  match s.regionAt r.dpa, s.cchByDpa r.kid dl with
  | some g, some l =>
    if l.allow.isNone ∧ !(s.forcedOn dl) ∧ !((s.allowsOn dl).any fun a => a.1 = r.kid) then
      match grantOf g (sumVals ((s.allowsOn dl).map fun a => trackVal g.ty a.2)) with
      | some a =>
        let d := homeDie dl
        let x := s.die d
        (s.setDie d { x with allows := mput x.allows (dl, r.kid) a }).setLine r.kid { l with allow := some a, tracker := 0, sums := [] }
      | none => s
    else s
  | _, _ => s

/-- R299: whether a write must wait until the allowances of its line are home. -/
def State.writeForces (s : State) (r : Req) : Bool :=
  !((s.allowsOn (lineOf r.dpa)).isEmpty) &&
    (match s.regionAt r.dpa, r.op with
      | some g, .addm ty _ => g.ty != ty
      | _, .pegWait _ | _, .drain _ _ _ => false
      | _, _ => true)

/-! ### Arrival of a cluster's writes, and registrations -/

/-- The DPAs a write, addition or drain changes. -/
def Req.touched (r : Req) : List Nat :=
  match r.op with
  | .store ty _ _ | .addm ty _ => (List.range (max 1 (tyW ty / 8))).map (r.dpa + ·)
  | .lineWrite bs => bs.map fun b => r.dpa + b.1
  | .drain ty sums _ => sums.flatMap fun x => (List.range (tyW ty / 8)).map (lineOf r.dpa + x.1 + ·)
  | _ => []

/-- R241, R242, R249, R297: what a write, addition or drain of a cluster's cache does at its home, allowances and other clusters'
registrations apart. -/
def State.arriveRaw (s : State) (r : Req) : State :=
  let dl := lineOf r.dpa
  match r.op with
  | .store _ _ _ | .lineWrite _ =>
    let bs := writeBytes s.mem r.dpa r.op
    let refused := s.badWrite r.dpa bs.length
    let s := s.dropOthers (some r.kid) r.dpa (bs.map (·.1))
    let s := ((s.putHome (logWho r.kid r.who) r.dpa bs).snoopHost (some r.kid) dl).arrived r refused
    if refused && r.relaxed then s.postFailed r.who r.addr else s
  | .addm ty v =>
    let refused := s.lost r.dpa (tyW ty / 8)
    let s := s.addHome (logWho r.kid r.who) r.kid r.dpa ty v.toNat
    let s := (s.snoopHost (some r.kid) dl).arrived r refused
    if refused && r.relaxed then s.postFailed r.who r.addr else s
  | .drain ty sums back =>
    let s := s.foldSums r.kid dl r.addr.toNat ty sums r.posters
    if back then s.returnAllow dl r.kid else s
  | _ => s

/-- R285: all that a cluster's cache has on its way to a line takes its place now. -/
def State.settleRaw (s : State) (k dline : Nat) : State :=
  (s.onLine k dline).foldl (fun (s : State) r => (s.dropReq r.1).arriveRaw r.2) s

/-- The bytes of a registration. -/
def Registration.span (r : Registration) : List Nat :=
  (List.range r.count).flatMap fun (i : Nat) => (List.range r.width).map fun j => ((r.base : Int) + (i : Int) * r.stride.toInt).toNat + j

/-- R289, R364: enters a registration at one slice of a die; at most 2,048 stand, and the oldest goes after its writes have arrived. -/
def State.enterReg (s : State) (d slice : Nat) (r : Registration) : State :=
  let x := s.die d
  let own := x.regs.filter fun q => q.1 = slice ∧ q.2.kid = r.kid
  if own.any fun q => r.span.all q.2.covers then s
  else
    let covered := own.filter fun q => q.2.span.all r.covers
    let keep := x.regs.filter fun q => !(covered.contains q)
    let s := s.setDie d { x with regs := keep }
    let here := keep.filter fun q => q.1 = slice
    let s := if here.length ≥ 2048 then
        match here with
        | q :: _ =>
          let s := (q.2.span.map lineOf).dedup.foldl (fun (s : State) l => s.settleRaw q.2.kid l) s
          let x := s.die d
          s.setDie d { x with regs := x.regs.erase q }
        | [] => s
      else s
    let x := s.die d
    let age := mget x.regAges 0 slice + 1
    s.setDie d { x with regs := x.regs ++ [(slice, { r with age := age })], regAges := mput x.regAges slice age }

/-- R289: a store that has arrived registers its bytes. -/
def State.registerStore (s : State) (r : Req) : State :=
  let enter (n : Nat) : State :=
    s.enterReg (homeDie r.dpa) (homeSlice r.dpa) { base := r.dpa, stride := 0, count := 1, width := n, kid := r.kid, age := 0 }
  match r.op with
  | .store ty _ _ => enter (max 1 (tyW ty / 8))
  | .lineWrite bs => enter bs.length
  | _ => s

/-- R289: the other clusters to which bytes of a line are registered. -/
def State.registrants (s : State) (kid : Option Nat) (dpa : Nat) (bs : List Nat) : List Nat :=
  (((s.die (homeDie dpa)).regs.filter fun r =>
    decide (r.1 = homeSlice dpa) && decide (some r.2.kid ≠ kid) && bs.any r.2.covers).map (·.2.kid)).dedup

/-- R289: ends the registrations of other clusters over these bytes, once their writes on the way have arrived and registered. -/
def State.endRaw (s : State) (kid : Option Nat) (dpa : Nat) (bs : List Nat) : State :=
  let s := (s.registrants kid dpa bs).foldl (fun (s : State) k =>
    let mine := s.onLine k (lineOf dpa)
    mine.foldl (fun (s : State) r => s.registerStore r.2) (s.settleRaw k (lineOf dpa))) s
  s.dropOthers kid dpa bs

/-- R285, R289: all that a cluster's cache has on its way to a line arrives now, ending and making registrations. -/
def State.bring (s : State) (k dline : Nat) : State :=
  (s.onLine k dline).foldl (fun (s : State) r =>
    if mhas s.reqs r.1 then (((s.dropReq r.1).endRaw (some k) dline r.2.touched).arriveRaw r.2).registerStore r.2 else s) s

/-- R285, R297 to R299: the allowance a cluster holds on a line comes home, with its sums, behind what the cluster has on its way there. -/
def State.foldHolder (s : State) (dline k : Nat) : State :=
  let s := s.bring k dline
  let s := match s.cchByDpa k dline with
    | some l =>
      let ty := match s.regionAt dline with | some r => r.ty | none => .f32
      let s := s.endRaw (some k) dline (l.sums.flatMap fun (x : Nat × W64) => (List.range (tyW ty / 8)).map (dline + x.1 + ·))
      match s.cchByDpa k dline with
      | some l =>
        let s := s.foldSums k dline l.line ty l.sums l.posters
        let s := s.setLine k { l with allow := none, tracker := 0, sums := [], posters := [] }
        if l.allow.isSome then s.perf k 0x0E 1 else s
      | none => s
    | none => s
  s.returnAllow dline k

/-- R298, R299: brings the allowances of a line home, with the drains on their way, in one place (log 12): those of clusters with no
other write on its way come first. One cluster may be left out. -/
def State.foldAll (s : State) (dline : Nat) (but : Option Nat) : State :=
  let drains := (s.reqs.filter fun r => r.2.onWay dline && (match r.2.op with | .drain _ _ _ => true | _ => false)).map (·.2.kid)
  let ks := (((s.allowsOn dline).map (·.1)) ++ drains).dedup.filter fun k => some k ≠ but
  let busy (k : Nat) : Bool := (s.onLine k dline).any fun r => s.writeForces r.2
  (ks.filter (fun k => !(busy k)) ++ ks.filter busy).foldl (fun (s : State) k => s.foldHolder dline k) s

/-- R289, R299: whether what these clusters have on their way to a line forces drains. -/
def State.forcing (s : State) (ks : List Nat) (dline : Nat) : Bool :=
  ks.any fun k => (s.onLine k dline).any fun r => s.writeForces r.2

/-- R289, R364: the writes of these clusters on their way to a line are collected, after the drains they force. -/
def State.collect (s : State) (ks : List Nat) (dline : Nat) : State :=
  let s := if s.forcing ks dline then s.foldAll dline none else s
  ks.foldl (fun (s : State) k => s.bring k dline) s

/-- R289, R364: ends the registrations of other clusters over these bytes, once their writes are collected. -/
def State.endRegs (s : State) (kid : Option Nat) (dpa : Nat) (bs : List Nat) : State :=
  (s.collect (s.registrants kid dpa bs) (lineOf dpa)).dropOthers kid dpa bs

/-- R285, R289, R295, R299: a write, addition or drain that a cluster's cache has accepted takes its place at the home. -/
def State.arrive (s : State) (id : Nat) (r : Req) : State :=
  let s := s.dropReq id
  let dl := lineOf r.dpa
  let force := s.writeForces r || s.forcing (s.registrants (some r.kid) r.dpa r.touched) dl
  let s := if force then s.foldAll dl (some r.kid) else s
  let s := ((s.endRaw (some r.kid) r.dpa r.touched).arriveRaw r).registerStore r
  -- the cluster's own sums were withheld after this write, or went to the home before it
  let s := if force then s.foldHolder dl r.kid else s
  match r.op with
  | .addm _ _ => s.grantAllow r
  | _ => s

/-- R289, R364: a strided write registers at every home of its lines; others' overlapping entries end. -/
def State.register (s : State) (r : Registration) : State :=
  let lines := (r.span.map lineOf).dedup
  let homes := (lines.map fun l => (homeDie l, homeSlice l)).dedup
  let s := lines.foldl (fun (s : State) l => s.endRegs (some r.kid) l (r.span.filter fun a => lineOf a = l)) s
  homes.foldl (fun (s : State) h => s.enterReg h.1 h.2 r) s

/-- R298: brings every allowance of a line home, with the drains on their way. -/
def State.forceAll (s : State) (dline : Nat) : State := s.foldAll dline none

/-- R242: a write of the host or of an engine of a die takes its place at the home. -/
def State.homeWrite (s : State) (w : LogWho) (dpa : Nat) (bs : List (Nat × Byte)) : State :=
  let s := s.endRegs none dpa (bs.map (·.1))
  (s.putHome w dpa bs).snoopHost none (lineOf dpa)

/-! ### Reads at the home -/

/-- R289, R364: n bytes of a line as the home answers them: a registrant's own copy, or memory; under the entries of two
registrants the home answers, once the writes of both have arrived. -/
def State.homeRead (s : State) (kid : Option Nat) (a n : Nat) : Nat × State :=
  let s := s.l2Touch a false
  let ks := s.registrants none a ((List.range n).map (a + ·))
  if ks.length ≥ 2 then
    let s := s.collect ks (lineOf a)
    (s.rd a n, s)
  else ((List.range n).foldl (fun v j => v + (s.homeByte kid (a + j)).toNat * 256 ^ j) 0, s)

/-- R288: a write of the own cluster that has not arrived at the home, over a copy of the line: additions and sums leave their bytes
unknown. -/
def CchLine.over (l : CchLine) (r : Req) : CchLine :=
  match r.op with
  | .drain ty sums _ => sums.foldl (fun (l : CchLine) x => { l with valid := l.valid &&& ~~~(byteMask x.1 (tyW ty / 8)) }) l
  | .addm ty _ => { l with valid := l.valid &&& ~~~(byteMask (r.dpa % 64) (tyW ty / 8)) }
  | op =>
    let bs := copyBytes l (r.dpa % 64) op
    { l with data := putBytes l.data bs, valid := l.valid ||| maskOf bs }

/-- R242: the bytes of a line that are in no uncorrectable word. -/
def State.soundBytes (s : State) (dline : Nat) : W64 :=
  (List.range 8).foldl (fun m j => if s.lost (dline + 8 * j) 8 then m else m ||| byteMask (8 * j) 8) 0

/-- R286, R288, R298: a cluster's cache takes the line with a lease, under the cluster's own writes on their way. -/
def State.fillLine (s : State) (k : Nat) (l : CchLine) : State :=
  let r := s.homeRead (some k) l.dpa 64
  let s := r.2
  let own := (s.reqs.filter fun q => q.2.kid == k && q.2.onWay l.dpa).map (·.2)
  -- settling for two registrants may have changed the line
  let l := { l with inflight := match s.cchAt k l.pasid l.line with | some x => x.inflight | none => l.inflight }
  let l := own.foldl CchLine.over { l with data := BitVec.ofNat 512 r.1, valid := s.soundBytes l.dpa }
  s.setLine k { l with expiry := s.pt + s.lease, osum := (s.allowsOn l.dpa).map (·.2), added := false, acquired := false }

/-- The value of an ε register (R248); a negative one, a NaN and -0 count as 0. -/
def epsVal (ty : Ty) (v : W64) : FVal :=
  match trackVal ty v with
  | .num false m e st => .num false m e st
  | .inf false => .inf false
  | _ => .zero false

/-- R298: whether a copy may serve a load: of a region's line, the lease is live, the allowances outstanding at its grant sum to
at most ε, and the cluster has added nothing to the line since. -/
def CchLine.within (l : CchLine) (s : State) (op : AccOp) : Bool :=
  match s.regionAt l.dpa with
  | none => true
  | some r =>
    let eps : FVal := match op with
      | .tload ty v => if r.ty = ty then epsVal ty v else .zero false
      | _ => .zero false
    decide (s.pt < l.expiry) && !l.added && leVal (sumVals (l.osum.map (trackVal r.ty))) eps

/-- R296: withheld sums, in element order. -/
def sumPut (l : List (Nat × W64)) (off : Nat) (v : W64) : List (Nat × W64) :=
  match l with
  | [] => [(off, v)]
  | (o, x) :: t => if o < off then (o, x) :: sumPut t off v else if o = off then (off, v) :: t else (off, v) :: (o, x) :: t

/-- R296: what a cache holding allowance a does with an addition of a finite d. -/
structure Withheld where
  /-- the line after it -/
  line : CchLine
  /-- the old sums are drained first -/
  drain : Bool
  /-- d itself goes to the home -/
  direct : Bool

def withhold (l : CchLine) (ty : Ty) (a : W64) (off : Nat) (d : W64) : Withheld :=
  let f := trackFmt ty
  let mag : FVal := match fpValOf ty d with | .num _ m e st => .num false m e st | x => x
  let up (t : W64) : W64 := BitVec.ofNat 64 (roundVal f .rup false 0 (fAdd .rup (trackVal ty t) mag).1).1
  let fits (t : W64) : Bool := leVal (trackVal ty t) (trackVal ty a)
  let drain := !(fits (up l.tracker))
  let l := if drain then { l with tracker := 0, sums := [], posters := [] } else l
  let t2 := up l.tracker
  if fits t2 then
    let v := match l.sums.find? (fun x => x.1 = off) with
      | some x => BitVec.ofNat 64 (addmVal ty x.2.toNat d.toNat)
      | none => BitVec.ofNat 64 (d.toNat % 2 ^ tyW ty)
    { line := { l with tracker := t2, sums := sumPut l.sums off v, valid := 0 }, drain := drain, direct := false }
  else { line := { l with valid := 0 }, drain := drain, direct := true }
where
  fpValOf (t : Ty) (v : W64) : FVal := decF (tyFmt t) (v.toNat % 2 ^ tyW t)

end Sys2Proof.Machine
end

