-- ==== Sys2Proof/Machine/Global.lean ====
section
/-! DEFINITION. Writes a cluster cache accepts, and accesses made in one place (log 12): plain loads and stores of bulk operations
in every space (R227 to R230, R239, R247, R286, R287, R296). -/

namespace Sys2Proof.Machine

/-! ### Acceptance by a cluster cache -/

/-- R287: a write of an issue pt raises the horizons by its visibility time. -/
def State.noteWrite (s : State) (e : Ent) (dpa issued : Nat) : State :=
  s.raiseHorizon e (s.visTime issued (entDie e) (homeDie dpa))

/-- R286: copies of the line under other addresses no longer hold bytes that the cluster has written or added to. -/
def State.staleAliases (s : State) (k : Nat) (l : CchLine) (m : W64) (add : Bool) : State :=
  let c := s.cluster k
  s.setCluster k { c with cch := c.cch.map fun x =>
    if x.dpa = l.dpa ∧ !(x.pasid = l.pasid ∧ x.line = l.line) then { x with valid := x.valid &&& ~~~m, added := x.added || add } else x }

/-- R297, R299: the forced drain of the cache's own allowance that a write of it causes is received before the write (log 92). -/
def State.drainOwn (s : State) (k : Nat) (l : CchLine) : CchLine × State :=
  if l.allow.isSome then
    let s := (s.sendDrain (.ce k) k l true).perf k 0x0E 1
    ((s.cchAt k l.pasid l.line).getD l, s)
  else (l, s)

/-- R285, R287: the cache sends on a write or addition to a line. -/
def State.sendWrite (s : State) (e : Ent) (k : Nat) (l : CchLine) (off : Nat) (op : AccOp) (relaxed : Bool) (issued : Nat) : State :=
  let s := s.noteWrite e l.dpa issued
  let d := s.drawWrite issued (entDie e) (homeDie l.dpa)
  d.2.addReq { who := e, pasid := some l.pasid, level := 1, addr := BitVec.ofNat 64 (l.line + off), op := op, phase := .write,
               due := s.clk + d.1, posted := false, dpa := l.dpa + off, kid := k, dest := 0, relaxed := relaxed, issued := some issued }

/-- R247, R286, R287, R299: the cache accepts a write at off of a line, updates its copy and sends the write on; relaxed says that its
class is r (R241). -/
def State.acceptWrite (s : State) (e : Ent) (k : Nat) (l : CchLine) (off : Nat) (op : AccOp) (relaxed : Bool) (issued : Nat) : State :=
  let x := s.drainOwn k l
  let l := x.1
  let bs := copyBytes l off op
  let s := (x.2.sendWrite e k l off op relaxed issued).staleAliases k l (maskOf bs) false
  s.setLine k { l with data := putBytes l.data bs, valid := l.valid ||| maskOf bs, dirty := l.dirty ||| maskOf bs,
                       inflight := l.inflight + 1 }

/-- R249, R287, R288, R298: an addition is sent to the home; of a region's line the whole copy goes. -/
def State.sendAddm (s : State) (e : Ent) (k : Nat) (l : CchLine) (off : Nat) (ty : Ty) (v : W64) (relaxed : Bool) (issued : Nat) : State :=
  let m := byteMask off (tyW ty / 8)
  let region := (s.regionAt l.dpa).isSome
  let gone := if region then BitVec.allOnes 64 else m
  let s := (s.sendWrite e k l off (.addm ty v) relaxed issued).staleAliases k l gone region
  s.setLine k { l with valid := l.valid &&& ~~~gone, dirty := l.dirty &&& ~~~m, inflight := l.inflight + 1, added := l.added || region }

/-- R249, R296, R299: the cache takes an addition: withheld in a region it has an allowance for, else sent to the home. -/
def State.acceptAddm (s : State) (e : Ent) (k : Nat) (l : CchLine) (off : Nat) (ty : Ty) (v : W64) (relaxed : Bool) (issued : Nat) : State :=
  match s.regionAt l.dpa, l.allow with
  | some r, some a =>
    if r.ty != ty then
      let x := s.drainOwn k l
      x.2.sendAddm e k x.1 off ty v relaxed issued
    else match decF (tyFmt ty) (v.toNat % 2 ^ tyW ty) with
    | .nan _ | .inf _ => s.sendAddm e k l off ty v relaxed issued
    | _ =>
      let h := withhold l ty a off v
      let s := if h.drain then s.sendDrain (.ce k) k l false else s
      if h.direct then s.sendAddm e k h.line off ty v relaxed issued
      else (s.staleAliases k l (BitVec.allOnes 64) true).setLine k { h.line with
        added := true, posters := if relaxed then h.line.posters ++ [(off, e)] else h.line.posters }
  | _, _ => s.sendAddm e k l off ty v relaxed issued

/-! ### Accesses made in one place (log 12) -/

/-- The outcome of such an access. -/
inductive GRes where
  | ok (v : Nat) (s : State)
  | fault (code : Nat) (s : State)
  /-- the issuer tries again later -/
  | wait (s : State)
  /-- a store to another node, whose answer the issuer waits for -/
  | remote (node : Nat) (s : State)

/-- R393: whether a route to a node stands. -/
def State.routeOk (s : State) (node : Nat) : Bool :=
  let r := mget s.routes 0 node
  r.getLsbD 4 && decide (r.toNat % 16 ≤ 11)

/-- The line with the permissions of a leaf just read. -/
def CchLine.withLeaf (l : CchLine) (lf : Leaf) : CchLine := { l with rd := lf.rd, wr := lf.wr, ex := lf.ex, usr := lf.usr }

/-- R286, R288, R289: n bytes at a global address are read at their home, a cluster's cache taking the line; none while an addition
of the own cluster to them is on its way. -/
def State.readLine (s : State) (e : Ent) (pasid va n dpa : Nat) (lf : Leaf) : Option Nat × State :=
  match entKid e with
  | none => let r := s.homeRead none dpa n; (some r.1, r.2)
  | some k =>
    let t := s.takeLine k pasid va lf
    let s := t.2.fillLine k (t.1.withLeaf lf)
    match s.cchAt k pasid (lineOf va) with
    | some l =>
      let m := byteMask (va % 64) n
      (if l.valid &&& m = m then some (l.bytes (va % 64) n) else none, s)
    | none => (none, s)

/-- R385: whether the cache serves a read is counted. -/
def State.countRead (s : State) (e : Ent) (hit : Bool) : State :=
  match entKid e with
  | some k => s.perf k (if hit then 0x0A else 0x0B) 1
  | none => s

/-- R233, R298: a global plain read of n bytes of one line, or a fetch; it waits where the cache has no room for the line (R224, R286). -/
def State.gread (s : State) (e : Ent) (pasid : Option Nat) (va n : Nat) (need : Need) : GRes :=
  match pasid with
  | none => .fault 0x07 s
  | some p =>
    let go (s : State) : GRes :=
      match s.xlate e p va need with
      | .fault c s => .fault c s
      | .wait s => .wait s
      | .ok dpa lf s =>
        if (match entKid e with | some k => !(s.canTake k p va) | none => false) then .wait s
        else
        let s := s.forceAll (lineOf dpa)
        if s.lost dpa n then .fault 0x13 (s.logLost (homeDie dpa) (logWho 0 e) (BitVec.ofNat 64 va))
        else match s.readLine e p va n dpa lf with
          | (some v, s) => .ok v (s.countRead e false)
          | (none, s) => .wait s
    match (entKid e).bind fun k => (s.cchAt k p (lineOf va)).map fun l => (k, l) with
    | some (k, l) =>
      if (match need with | .ex => l.ex | .rd => l.rd | .wr => l.wr | .rw => l.rd && l.wr) && l.levelOk (s.level e) && s.serves k l (va % 64) n && l.within s .pref then
        .ok (l.bytes (va % 64) n) (s.countRead e true)
      else go s
    | none => go s

/-- A global write of one element, or of bytes of one line; relaxed says that its class is r (R241). -/
def State.gwrite (s : State) (e : Ent) (pasid : Option Nat) (va : Nat) (op : AccOp) (relaxed : Bool := false) : GRes :=
  match pasid with
  | none => .fault 0x07 s
  | some p =>
    let lvl := s.level e
    let go (s : State) : GRes :=
      match s.xlate e p va .wr with
      | .fault c s => .fault c s
      | .wait s => .wait s
      | .ok dpa lf s =>
        match entKid e with
        | none =>
          let s := s.forceAll (lineOf dpa)
          let bs := writeBytes s.mem dpa op
          if s.badWrite dpa bs.length then .fault 0x13 (s.logLost (homeDie dpa) (logWho 0 e) (BitVec.ofNat 64 va))
          else
          let s := s.homeWrite (logWho 0 e) dpa bs
          .ok 0 (s.noteWrite e dpa s.pt)
        | some k =>
          if !(s.canTake k p va) then .wait s
          else
            let t := s.takeLine k p va lf
            .ok 0 (t.2.acceptWrite e k (t.1.withLeaf lf) (va % 64) op relaxed s.pt)
    match (entKid e).bind fun k => (s.cchAt k p (lineOf va)).map fun l => (k, l) with
    | some (k, l) => if l.wr && l.levelOk lvl then .ok 0 (s.acceptWrite e k l (va % 64) op relaxed s.pt) else go s
    | none => go s

/-- Whether a global page permits writing, with nothing changed but the leaf caches (R239). -/
def State.gcheck (s : State) (e : Ent) (pasid : Option Nat) (va : Nat) (n : Need) : GRes :=
  match pasid with
  | none => .fault 0x07 s
  | some p =>
    match s.xlate e p va n with
    | .fault c s => .fault c s
    | .wait s => .wait s
    | .ok _ _ s => .ok 0 s

/-! ### Fabric traffic (R229, R230) -/

/-- What a cluster does with traffic of a PASID. -/
inductive Gate where
  | pass
  /-- kept by the hart for a saved launch -/
  | keep (die n : Nat)
  | refuse
deriving DecidableEq, Repr

/-- R12: the rink of a cluster on its die. -/
def rinkOf (kid : Nat) : Nat := kid % 128 / 8

/-- R230. -/
def State.gate (s : State) (pasid : Option Nat) (kid : Nat) : Gate :=
  let d := kid / 128
  match pasid with
  | none => .pass
  | some p =>
    match (s.cluster kid).launch.bind (s.launch d) with
    | some l =>
      if l.pasid = p then .pass
      else
        match s.launches.find? fun l => l.die = d ∧ l.saved.isSome ∧ !l.killed ∧ l.pasid = p ∧ rinkOf kid ∈ l.rinks with
        | some l => .keep d l.count
        | none => .refuse
    | none =>
      match s.launches.find? fun l => l.die = d ∧ l.saved.isSome ∧ !l.killed ∧ l.pasid = p ∧ rinkOf kid ∈ l.rinks with
      | some l => .keep d l.count
      | none => .refuse

/-- R230: whether a fabric access of an entity meets a saved cluster, whose hart keeps it until the restore. -/
def State.keptAt (s : State) (e : Ent) (a : W64) : Bool :=
  match decodePlace e a with
  | .ok (.fabric n k _) =>
    n == s.node && (match s.gate (s.entPasid e) k with
      | .keep _ _ => true
      | .pass | .refuse => false)
  | _ => false

/-- R230: an access of an entity's instruction, or of its gather, that a saved cluster's hart executes for it: the answer, once there is
one; the first try sends the access. -/
def State.viaHart (s : State) (e : Ent) (k : Nat) (a : W64) (op : AccOp) (gather : Bool) : GRes :=
  let h := s.hart e
  match h.early.find? fun x => x.addr = a ∧ x.op = op ∧ x.gather = gather with
  | some x =>
    match x.ans with
    | some (.ok v) => .ok v.toNat s
    | some (.err c _) => .fault c s
    | none => .wait s
  | none =>
    let d := s.draw
    .wait ((d.2.addReq { who := e, pasid := s.entPasid e, level := s.level e, addr := a, op := op, phase := .fabric,
                         due := s.clk + d.1, posted := false, dpa := 0, kid := k, dest := 0, early := true }).setHart e
      { h with early := h.early ++ [{ addr := a, op := op, gather := gather, ans := none }] })

/-- R230: whether an access of an entity is one that a saved cluster's hart executes. -/
def State.isEarly (s : State) (e : Ent) (a : W64) (op : AccOp) (gather : Bool) : Bool :=
  (s.hart e).early.any fun x => x.addr = a ∧ x.op = op ∧ x.gather = gather

/-- R230: whether no bank of the address is asked for, since a hart makes or has made the access. -/
def State.atHart (s : State) (e : Ent) (a : W64) : Bool := s.keptAt e a || (s.hart e).early.any fun x => x.addr = a

/-- R127, R230: whether an entity's oldest gather is to land at a place that no saved cluster's hart answers for. -/
def State.gathersOut (s : State) (e : Ent) : Bool :=
  match (s.hart e).aq with
  | (g, _) :: _ => !(s.atHart e g.addr)
  | [] => false

/-- R294: whether an entity has an earlier request on its way to a cluster. -/
def State.sentTo (s : State) (e : Ent) (k : Nat) : Bool :=
  s.reqs.any fun q => q.2.who = e ∧ q.2.kid = k ∧ !q.2.early ∧
    (q.2.phase = .fabric ∨ q.2.phase = .retry ∨ q.2.phase = .message ∨ q.2.phase = .resend)

/-! ### Banks of several accesses (R32) -/

/-- R32, R230: the banks the words of some accesses of an entity lie in, each once; a hart's accesses ask for none. -/
def State.banksOf (s : State) (e : Ent) (l : List W64) : List (Nat × Nat) :=
  ((l.filter fun a => !(s.atHart e a)).filterMap (s.bankAt e)).dedup

/-- R32: asks for all of some banks: the state with the grants, or none when one is taken in this clk. -/
def State.takeBanks (s : State) (l : List (Nat × Nat)) : Option State :=
  if l.all fun b => s.bankFree b.1 b.2 then some (l.foldl (fun (s : State) b => s.grantBanks b.1 [b.2]) s) else none

/-- R32: accesses ask for their banks one after the other, until one is taken: how many have been granted, counting from n. -/
def grantReads (e : Ent) : List W64 → Nat → State → Nat × State
  | [], n, s => (n, s)
  | a :: t, n, s =>
    if s.atHart e a then grantReads e t (n + 1) s
    else match s.takeBank e a with
    | some s => grantReads e t (n + 1) s
    | none => (n, s)

/-- R32: the accesses of an instruction, each by a grant of its own, in order. An error is the state of one that tries again; what
has been granted counts then. -/
def State.takeReads (s : State) (e : Ent) (l : List W64) : Except State State :=
  let n := (s.hart e).reads
  let r := grantReads e (l.drop n) n s
  if l.length ≤ r.1 then .ok (if n = 0 then r.2 else r.2.setHart e { r.2.hart e with reads := 0 })
  else .error ((r.2.setHart e { r.2.hart e with reads := r.1 }).forfeitBank e)

/-- R32: an instruction goes on once its accesses have been granted their banks. -/
def withReads (e : Ent) (l : List W64) (k : State → Act) (s : State) : Act :=
  match s.takeReads e l with
  | .ok s => k s
  | .error _ => .forfeit fun s => match s.takeReads e l with | .error s' => s' | .ok s' => s'

/-- R32: the same for an instruction that needs each of its banks once. -/
def withBanks (e : Ent) (l : List W64) (k : State → Act) (s : State) : Act :=
  match s.takeBanks (s.banksOf e l) with
  | some s => k s
  | none => .forfeit (State.forfeitBank · e)

/-- The words some addresses lie in, each once. -/
def wordsIn (l : List W64) : List W64 := (l.map (· &&& ~~~7#64)).dedup

/-- n words from an address on. -/
def wordAddrs (a : W64) (n : Nat) : List W64 := (List.range n).map fun i => a + BitVec.ofNat 64 (8 * i)

/-- R230: refused fabric traffic is logged at the receiver, naming its sender. -/
def State.gateRefuse (s : State) (kid : Nat) (who : Ent) (addr : W64) : State :=
  s.logBy (kid / 128) 0x0C 0x07 (logWho kid who) addr 0

/-- R227 to R230, R244: a load of an element in one place, anywhere but MMIO. -/
def State.readPlace (s : State) (e : Ent) (a : W64) (ty : Ty) (hi : Bool) (gather : Bool := false) : GRes :=
  match decodePlace e a with
  | .error c => .fault c s
  | .ok p =>
    if !(spaceAllows s.node .load false p) then .fault 0x05 s
    else if a.toNat % (max 1 (tyW ty / 8)) ≠ 0 then .fault 0x04 s
    else match p with
    | .loc ph =>
      match s.localSite e ph a (.load ty hi) with
      | .ok _ s => .ok (s.elem ph ty hi) s
      | .err c s => .fault c s
      | .wait => .wait s
    | .csp k off =>
      match s.site e k off a (.load ty hi) with
      | .ok v s => .ok (v.toNat % 2 ^ tyW ty) s
      | .err c s => .fault c s
      | .wait => .wait s
    | .fabric _ k off =>
      let early : GRes := match s.viaHart e k a (.load ty hi) gather with
        | .ok v s => .ok (v % 2 ^ tyW ty) s
        | r => r
      if s.isEarly e a (.load ty hi) gather then early
      else match s.gate (s.entPasid e) k with
      | .refuse => .fault 0x07 (s.gateRefuse k e a)
      | .keep _ _ => early
      | .pass =>
        match s.site e k off a (.load ty hi) with
        | .ok v s => .ok (v.toNat % 2 ^ tyW ty) s
        | .err c s => .fault c s
        | .wait => .wait s
    | .glob va =>
      match s.gread e (s.entPasid e) va (max 1 (tyW ty / 8)) .rd with
      | .ok v s => .ok (if ty = .i4 then (if hi then v / 16 else v % 16) else v) s
      | r => r
    | .mmio _ => .fault 0x05 s

/-- R282: a plain load, which waits for the posted stores of its entity to its word. -/
def State.pread (s : State) (e : Ent) (a : W64) (ty : Ty) (hi : Bool) : GRes :=
  if s.postedAt e a then .wait s else s.readPlace e a ty hi

/-- R227 to R230, R241, R244, R294: a store of an element in one place, anywhere but MMIO: one to a fabric address stays behind what the
entity has sent to that cluster; a store to another node is the caller's. -/
def State.writePlace (s : State) (e : Ent) (a : W64) (ty : Ty) (hi : Bool) (v : W64) : GRes :=
  match decodePlace e a with
  | .error c => .fault c s
  | .ok p =>
    if !(spaceAllows s.node .storePlain false p) then .fault 0x05 s
    else if a.toNat % (max 1 (tyW ty / 8)) ≠ 0 then .fault 0x04 s
    else
      let at_ (k off : Nat) (s : State) : GRes :=
        match s.site e k off a (.store ty hi v) with
        | .ok _ s => .ok 0 s
        | .err c s => .fault c s
        | .wait => .wait s
      match p with
      | .loc ph =>
        match s.localSite e ph a (.store ty hi v) with
        | .ok _ s => .ok 0 s
        | .err c s => .fault c s
        | .wait => .wait s
      | .csp k off => at_ k off s
      | .fabric n k off =>
        if n = s.node then
          let early : GRes := match s.viaHart e k a (.store ty hi v) false with
            | .ok _ s => .ok 0 s
            | r => r
          if s.isEarly e a (.store ty hi v) false then early
          else match s.gate (s.entPasid e) k with
          | .refuse => .fault 0x07 (s.gateRefuse k e a)
          | .keep _ _ => early
          | .pass => if s.sentTo e k then .wait s else at_ k off s
        else
          if s.routeOk n then .remote n s else .fault 0x07 s
      | .glob va => s.gwrite e (s.entPasid e) va (.store ty hi v)
      | .mmio _ => .fault 0x05 s

/-- R282: a plain store, which waits for the posted stores of its entity to its word. -/
def State.pwrite (s : State) (e : Ent) (a : W64) (ty : Ty) (hi : Bool) (v : W64) : GRes :=
  if s.postedAt e a then .wait s else s.writePlace e a ty hi v

end Sys2Proof.Machine
end

