-- ==== Sys2Proof/Machine/Ccore.lean ====
section
/-! DEFINITION. Control cores and their contexts: registers, landing, the selector, status words, traps and commands (R136 to R148,
R201, R206, R207, R218), messages' headers (R320), and the system registers (R198). -/

namespace Sys2Proof.Machine

/-! ### Registers of a control core -/

def CcState.vreg (c : CcState) (n : Nat) : VReg := mget c.v 0 n

/-- R137: the vector registers that are not 0 are listed. -/
def CcState.setVreg (c : CcState) (n : Nat) (v : VReg) : CcState :=
  { c with v := if v = 0 then mdel c.v n else mput c.v n v }

/-- A register's value, as low bits. -/
def State.creg (s : State) (k cc : Nat) (r : CReg) : VReg :=
  match r with
  | .c x n => ((s.ctx k cc x).c[n.toNat]).setWidth 4096
  | .q x n => if (s.ctx k cc x).q[n.toNat] then 1 else 0
  | .m x n => ((s.ctx k cc x).m[n.toNat]).setWidth 4096
  | .v n => (s.cc k cc).vreg n
  | .z => 0

def State.setCreg (s : State) (k cc : Nat) (r : CReg) (v : VReg) : State :=
  match r with
  | .c x n => let t := s.ctx k cc x; s.setCtx k cc x { t with c := t.c.set n.toNat (v.setWidth 64) }
  | .q x n => let t := s.ctx k cc x; s.setCtx k cc x { t with q := t.q.set n.toNat (v != 0) }
  | .m x n => let t := s.ctx k cc x; s.setCtx k cc x { t with m := t.m.set n.toNat (v.setWidth 512) }
  | .v n => s.setCc k cc ((s.cc k cc).setVreg n v)
  | .z => s

/-- R142: a pending write lands: the lanes it writes, and its flags. -/
def State.landWrite (s : State) (k cc : Nat) (p : PWrite) : State :=
  let v := match p.mask with
    | none => p.val
    | some m => (s.creg k cc p.reg &&& ~~~m) ||| (p.val &&& m)
  let s := s.setCreg k cc p.reg v
  let t := s.ctx k cc p.x
  s.setCtx k cc p.x { t with flg := flgRaise t.flg p.flags }

/-- R218: the replay record of the writes pending on a control core, in landing order; x limits it to a context's writes. -/
def State.replayOf (s : State) (k cc : Nat) (x : Option Nat) : List Replay :=
  let ps := (s.cc k cc).pending.filter fun p => p.reg != .z
  let far := ps.foldl (fun m p => max m p.left) 0
  let ordered := (List.range (far + 1)).flatMap fun n => ps.filter fun p => p.left = n
  (ordered.foldl (fun (a : State × List Replay) p =>
    let keep : Bool := match x with | some y => p.x == y | none => true
    (a.1.landWrite k cc p,
     if keep then a.2 ++ [{ reg := p.reg, x := p.x, left := p.left, held := a.1.creg k cc p.reg }] else a.2)) (s, [])).2

/-- R151, R218: a replay record as writes that are pending again: at the end of an entry's span the register gets what the next entry
held, or what was saved. -/
def State.replayWrites (s : State) (k cc : Nat) : List Replay → List PWrite
  | [] => []
  | e :: t =>
    { x := e.x, reg := e.reg, val := ((t.find? fun f => f.reg = e.reg).map (·.held)).getD (s.creg k cc e.reg), mask := none,
      left := e.left, flags := 0 } :: s.replayWrites k cc t

/-- R151, R207, R218: a replay record is put in force: each register shows the held value of its earliest entry again, its window open
until the entry's cycles have passed. -/
def State.replayNow (s : State) (k cc : Nat) (l : List Replay) : State :=
  let ws := s.replayWrites k cc l
  let s := l.foldr (fun e (s : State) => s.setCreg k cc e.reg e.held) s
  let c := s.cc k cc
  s.setCc k cc { c with pending := c.pending ++ ws }

/-! ### The selector (R148) -/

/-- R148, R150: a context that is ready and has met no fault that is still to trap (until then CTXST shows it as it was: log 90). -/
def Ctx.ready (t : Ctx) : Bool := t.state == 1 && t.fall.isNone

/-- The next ready context after x, wrapping from 3 to 0; x itself last. -/
def State.nextReady (s : State) (k cc x : Nat) : Option Nat :=
  ([1, 2, 3, 4].map fun d => (x + d) % 4).find? fun y => (s.ctx k cc y).ready

/-- R148: the issuing context gives up its turn. -/
def State.yieldCtx (s : State) (k cc x : Nat) : State :=
  let c := s.cc k cc
  if c.issuing = x then s.setCc k cc { c with yield := true } else s

/-- R138: CTXST as it reads. -/
def State.ctxSt (s : State) (k cc x : Nat) : W64 :=
  let t := s.ctx k cc x
  let st := if t.state = 1 ∧ (s.cc k cc).issuing = x then 2 else t.state
  BitVec.ofNat 64 (st + t.wait * 2 ^ 3 + (if t.gover then 2 ^ 7 else 0) + t.lastf * 2 ^ 8 + x * 2 ^ 16 + cc * 2 ^ 18
    + t.sbuf.length * 2 ^ 19)

/-! ### Messages (R320) -/

/-- R320: the header of a message of n payload words. -/
def msgHeader (s : State) (e : Ent) (n : Nat) (call : Option Nat) (ctr : Option Nat) : W64 :=
  BitVec.ofNat 64 (entCid e + entTid e * 2 ^ 6 + entKidReg e * 2 ^ 10 + s.node * 2 ^ 19 + (n - 1) * 2 ^ 27
    + (match call with | some t => 2 ^ 30 + t * 2 ^ 32 | none => 0)
    + (match ctr with | some c => c * 2 ^ 48 + 2 ^ 52 | none => 0))

/-- R320: the word that names a lap core of this node. -/
def destWord (node kid core : Nat) : W64 := BitVec.ofNat 64 (core + kid * 2 ^ 5 + node * 2 ^ 14)

/-- Sends a message on its way to an inbox. -/
def State.sendMsg (s : State) (e : Ent) (pasid : Option Nat) (dest : W64) (kid : Nat) (words : List W64) (ctr : Option Nat) :
    State :=
  let d := s.draw
  d.2.addReq { who := e, pasid := pasid, level := s.level e, addr := 0, op := .msg words ctr, phase := .message,
               due := s.clk + d.1, posted := false, dpa := 0, kid := kid, dest := dest }

/-! ### Traps and commands of contexts -/

/-- R206: the trap of a context is entered: state 5, CTXCAU, CTXEPC and CTXADR, and the message to a lap core when CCTD asks for it. -/
def State.enterTrap (s : State) (k cc x : Nat) (f : Fall) : State :=
  let c := s.cluster k
  let v := s.ctx k cc x
  let s := s.setCtx k cc x { v with state := 5, wait := 0, cau := f.cau, epc := v.pc, adr := f.adr, lastf := f.code, fall := none }
  if f.cau.getLsbD 26 then s
  else
    let words := [msgHeader s (.ctx k cc x) 4 none (some (c.cctd.toNat / 32 % 16)), f.cau, v.pc, f.adr, v.npc]
    s.sendMsg (.ctx k cc x) (s.entPasid (.ctx k cc x)) (destWord s.node k (c.cctd.toNat % 32)) k words
      (some (c.cctd.toNat / 32 % 16))

/-- R150, R206: a context takes a fault of the syllable in a slot: it gives up its turn, its open windows are kept for the reissue, and
the trap is entered once the writes issued before have landed. -/
def State.ctxTrap (s : State) (k cc x : Nat) (t : Trap) (slot : Nat) (jig : Bool) : State :=
  let cau := t.cause ||| BitVec.ofNat 64 (slot * 2 ^ 21 + (if jig then 2 ^ 24 else 0)
    + (if (s.cluster k).cctd.getLsbD 9 then 0 else 2 ^ 26))
  let f : Fall := { cau := cau, adr := t.addr, code := t.code, left := (s.cc k cc).pending.foldl (fun m p => max m p.left) 0 }
  let s := s.setCtx k cc x { s.ctx k cc x with replay := s.replayOf k cc (some x) }
  let s := s.setCc k cc { s.cc k cc with freeze := 0, stepWait := false, pre := none, ldNeed := none, ldAge := none }
  let s := s.yieldCtx k cc x
  if f.left = 0 then s.enterTrap k cc x f else s.setCtx k cc x { s.ctx k cc x with fall := some f }

/-- R326: the lap thread an issuer tag names. -/
def tagLap (t : W64) : Ent :=
  .lap (t.toNat % 2 ^ 9) (t.toNat / 2 ^ 9 % 2 ^ 5) (t.toNat / 2 ^ 14 % 2 ^ 4)

/-- R221, R326: the entity an issuer tag names, while the launch of that generation holds the cluster. -/
def tagEnt (t : W64) : Ent :=
  let k := t.toNat % 2 ^ 9
  let c := t.toNat / 2 ^ 9 % 2 ^ 5
  let x := t.toNat / 2 ^ 14 % 2 ^ 4
  match t.toNat / 2 ^ 26 % 4 with
  | 0 => .lap k c x
  | 1 => .ctx k c x
  | _ => if c = 0 then .ce k else if c = 1 then .re (k / 128) else .hart (k / 128)

/-- R221, R222: flags of an asynchronous operation reach the issuer named by a tag if the launch of its generation holds the cluster: its
FLG when it is live, the saved FLG when it is saved. -/
def State.attribute (s : State) (tag : W64) (f : Flags) : State :=
  let e := tagEnt tag
  let gen := tag.toNat / 2 ^ 18 % 256
  if (match s.entLaunch e with | some l => decide (l.count % 256 = gen) | none => false) then
    match e with
    | .ctx k cc x => let t := s.ctx k cc x; s.setCtx k cc x { t with flg := flgRaise t.flg f }
    | e => let h := s.hart e; s.setHart e { h with flg := flgRaise h.flg f }
  else
    match (s.savedAt (tag.toNat % 2 ^ 9) (some gen)).bind fun b => s.savedFlg b e with
    | some a => s.wr64 a (flgRaise (s.rd64 a) f)
    | none => s

/-- R327: a context's job ends with a code; its reply goes to the issuer. -/
def State.endJob (s : State) (k cc x code : Nat) : State :=
  let t := s.ctx k cc x
  match t.job with
  | none => s
  | some tag =>
    let v := BitVec.ofNat 64 (code % 256 + (flgFlags t.flg).toNat * 2 ^ 8)
    let s := s.setCtx k cc x { t with job := none }
    let s := s.attribute tag (flgFlags t.flg)
    let e := tagLap tag
    let h := s.hart e
    match h.pend with
    | some p => if p.act = .job then s.setHart e { h with pend := some { p with ans := some (.ok v) } } else s
    | none => s

/-- R210: nothing is left for the hart to do about an escalated fault. -/
def State.unescalate (s : State) (e : Ent) : State := { s with escalated := s.escalated.filter (·.1 != e) }

/-- R207: a trapped context becomes ready again and reissues; its replay record counts from the next clk. -/
def State.ctxResumeAt (s : State) (k cc x : Nat) (a : Option W64) : State :=
  let t := s.ctx k cc x
  if t.state = 5 then
    let s := s.unescalate (.ctx k cc x)
    let t := { t with state := 1 }
    match a with
    | none => s.setCtx k cc x t
    | some v =>
      let p := v &&& ~~~63#64
      s.setCtx k cc x { t with pc := p, npc := p + 64, nnpc := p + 128 }
  else s

/-- R207: the replay records of the contexts that have been resumed in this clk are put in force. -/
def State.replayResumed (s : State) (k cc : Nat) : State :=
  (List.range 4).foldl (fun (s : State) x =>
    let t := s.ctx k cc x
    if t.ready && !t.replay.isEmpty then (s.setCtx k cc x { t with replay := [] }).replayNow k cc t.replay else s) s

/-- R207, R30, R327: a trapped context is killed and counts as halted. -/
def State.ctxEnd (s : State) (k cc x : Nat) : State :=
  let t := s.ctx k cc x
  if t.state = 5 then
    let s := (s.unescalate (.ctx k cc x)).noteFault (.ctx k cc x) t.lastf
    let s := s.endJob k cc x t.lastf
    let t := s.ctx k cc x
    s.setCtx k cc x { t with state := 4, wait := 0, replay := [] }
  else s

/-- R207: a write of CTXCMD. -/
def State.ctxCommand (s : State) (k cc x : Nat) (v : W64) : State :=
  match v.toNat % 64 with
  | 1 => s.ctxResumeAt k cc x none
  | 2 => s.ctxResumeAt k cc x (some v)
  | 3 => s.ctxEnd k cc x
  | _ => s

/-! ### Commands to lap threads (R210, R231) -/

/-- A trapped thread resumes where it was, or at an address. -/
def State.threadResumeTo (s : State) (e : Ent) (a : Option W64) : State :=
  let h := s.hart e
  if h.rot = .trapped then
    let pc := match a with | some v => v &&& ~~~63#64 | none => h.pc
    -- R204: a fault that waited for the trap may be taken, unless the thread is in its handler
    (s.unescalate e).setHart e { Hart.settled h with pc := pc, lateHeld := h.lateHeld && h.tr.hnd }
  else s

/-- R30: a trapped thread is killed and counts as halted. -/
def State.threadEnd (s : State) (e : Ent) : State :=
  let h := s.hart e
  if h.rot = .trapped then
    ((s.unescalate e).setHart e { Hart.settled h with rot := .halted, dq := [], aq := [] }).noteFault e (h.tr.cause.toNat % 256)
  else s

def State.threadCommand (s : State) (e : Ent) (v : W64) : State :=
  match v.toNat % 64 with
  | 1 => s.threadResumeTo e none
  | 2 => s.threadResumeTo e (some v)
  | 3 => s.threadEnd e
  | _ => s

/-! ### System registers (R198) -/

/-- R198: the per-context number: control core and context. -/
def ctxNum (n : Nat) : Nat × Nat := (n % 8 / 4, n % 4)

/-- R198: a register of a cluster. -/
def State.clusterReg (s : State) (k n : Nat) : W64 :=
  let c := s.cluster k
  let cc := (ctxNum n).1
  let x := (ctxNum n).2
  let t := s.ctx k cc x
  if n = 0x200 then c.clsvec
  else if n = 0x201 then c.cldeleg.setWidth 64
  else if n = 0x202 then c.cctd.setWidth 64
  else if n = 0x203 then BitVec.ofNat 64 c.mumode
  else if 0x210 ≤ n ∧ n < 0x218 then s.ctxSt k cc x
  else if 0x218 ≤ n ∧ n < 0x220 then t.flg
  else if 0x220 ≤ n ∧ n < 0x228 then t.cau
  else if 0x228 ≤ n ∧ n < 0x230 then t.epc
  else if 0x230 ≤ n ∧ n < 0x238 then t.adr
  else if 0x240 ≤ n ∧ n < 0x248 then (if t.wchk then 1 else 0)
  else 0

/-- R198: a register as SRRD reads it. -/
def State.sysReg (s : State) (e : Ent) (n : Nat) : W64 :=
  let h := s.hart e
  match n with
  | 0x000 => h.flg
  | 0x001 => BitVec.ofNat 64 (s.level e + (if h.tr.hnd then 4 else 0))
  | 0x002 => h.tr.epc
  | 0x003 => h.tr.cause
  | 0x004 => h.tr.addr
  | 0x005 => h.tr.insn
  | 0x006 => h.tr.scr
  | 0x100 => BitVec.ofNat 64 (match e with | .lap k c _ => Config.lcap k c | _ => 0)
  | n =>
    match entKid e with
    | some k => s.clusterReg k n
    | none => 0

/-- R198, R202: a write of a register of a cluster at a level; a register that may not be written is left as it is. -/
def State.setClusterReg (s : State) (k n level : Nat) (v : W64) : State :=
  let c := s.cluster k
  let cc := (ctxNum n).1
  let x := (ctxNum n).2
  let t := s.ctx k cc x
  if n = 0x200 then (if level ≥ 2 then s.setCluster k { c with clsvec := v } else s)
  else if n = 0x201 then
    -- bits 0, 15, 16, 22 and 31 read 0
    (if level ≥ 2 then s.setCluster k { c with cldeleg := v.setWidth 32 &&& 0x7FBE7FFE } else s)
  else if n = 0x202 then (if level ≥ 1 then s.setCluster k { c with cctd := v.setWidth 10 } else s)
  else if 0x210 ≤ n ∧ n < 0x218 then
    -- gover is W1C
    (if level ≥ 1 ∧ v.getLsbD 7 then s.setCtx k cc x { t with gover := false } else s)
  else if 0x218 ≤ n ∧ n < 0x220 then (if level ≥ 1 then s.setCtx k cc x { t with flg := flgWrite t.flg v } else s)
  else if 0x238 ≤ n ∧ n < 0x240 then (if level ≥ 1 then s.ctxCommand k cc x v else s)
  else s

/-- R198: a write by SRWR. -/
def State.setSysReg (s : State) (e : Ent) (n : Nat) (v : W64) : State :=
  let h := s.hart e
  match n with
  | 0x000 => s.setHart e { h with flg := flgWrite h.flg v }
  | 0x002 => s.setHart e { h with tr := { h.tr with epc := v } }
  | 0x006 => s.setHart e { h with tr := { h.tr with scr := v } }
  | n =>
    match entKid e with
    | some k => s.setClusterReg k n (s.level e) v
    | none => s

end Sys2Proof.Machine
end

