-- ==== Sys2Proof/Machine/Save.lean ====
section
/-! DEFINITION. The contents of a cluster save area: each part written and read back in the layout of R215 to R218, R270, R334, R335, R341,
R342 and R353. Log 10 says where the layout is silent. -/

namespace Sys2Proof.Machine

/-! ### Ranges of memory -/

/-- The memory from src on, with its full bits' places left alone, copied to dst; uncorrectable words stay so. -/
def State.moveMem (s : State) (src dst n : Nat) : State :=
  let here (a : Nat) : Bool := decide (src ≤ a) && decide (a < src + n)
  let cells := s.mem.filter fun b => here b.1
  let bad := s.bad.filter here
  let s := s.clear dst n
  { s with
    mem := cells.foldl (fun (m : List Host.Cell) (b : Nat × Byte) => memSet m (b.1 - src + dst) b.2) s.mem
    bad := bad.foldl (fun l a => setAdd l (a - src + dst)) s.bad }

/-- Words written one after another from a on. -/
def State.putWords (s : State) (a : Nat) (ws : List W64) : State :=
  (List.range ws.length).foldl (fun (s : State) i => s.wr64 (a + 8 * i) (ws.getD i 0)) s

/-- n words from a on. -/
def State.getWords (s : State) (a n : Nat) : List W64 := (List.range n).map fun i => s.rd64 (a + 8 * i)

/-- Bits i of a number that are set, below n. -/
def setBits (n v : Nat) : List Nat := (List.range n).filter v.testBit

/-! ### The head of a lap thread's record (R216) -/

/-- R216: the state and wait codes of a lap thread's head, and its wait operand. A thread that is out of the rotation on an answer
shows as ready, one that the debugger has stopped as trapped (log 82). -/
def rotCode : Rot → Nat
  | .ready | .out => 0
  | .parked => 1
  | .halted => 2
  | .trapped | .debug => 3

def waitCode : Wait → Nat
  | .none => 0
  | .word _ => 1
  | .trigger _ => 2
  | .peg _ => 3
  | .reply _ => 4
  | .port _ => 5
  | .own _ => 6

def waitArg : Wait → W64
  | .none => 0
  | .word a | .peg a => a
  | .trigger n | .reply n | .own n => BitVec.ofNat 64 n
  | .port d => BitVec.ofNat 64 (portCode d)

/-- R216: word w of the head of a lap thread's record. -/
def headWord (h : Hart) (w : Nat) : W64 :=
  match w with
  | 0 => h.pc
  | 1 => h.flg
  | 2 => BitVec.ofNat 64 (h.base + h.size * 2 ^ 16
      + ((List.range 7).foldl (fun a j => if h.p.getD j false then a + 2 ^ (j + 1) else a) 0) * 2 ^ 24
      + rotCode h.rot * 2 ^ 32 + waitCode h.wait * 2 ^ 40 + h.dq.length * 2 ^ 48 + h.aq.length * 2 ^ 56)
  | 3 => waitArg h.wait
  | 4 => h.tr.epc
  | 5 => h.tr.cause
  | 6 => h.tr.addr
  | 7 => BitVec.ofNat 64 (h.tr.level + (if h.tr.hnd then 4 else 0))
  | _ => 0

/-- R216: what a thread waits for, from the code and the operand. -/
def waitOf (code : Nat) (arg : W64) : Wait :=
  match code with
  | 1 => .word arg
  | 2 => .trigger arg.toNat
  | 3 => .peg arg
  | 4 => .reply arg.toNat
  | 5 => .port (if arg = 0x81 then .north else if arg = 0x82 then .east else if arg = 0x83 then .south else .west)
  | 6 => .own arg.toNat
  | _ => .none

/-! ### Lap threads (R216) -/

/-- R216: the word of a data-queue entry, and its fault code; a fault that has been raised has code 0 (log 10). -/
def DqEnt.area : DqEnt → W64 × Option Nat
  | .word v => (v, none)
  | .fault c g => (g.addr, some c)
  | .resend g | .flying g _ => (g.addr, some 0)

/-- Whether a thread waits for the reply of a matrix job. -/
def Hart.onJob (h : Hart) : Bool :=
  h.rot == .out && (match h.pend with | some p => p.act == .job | none => false)

/-- R214, R327: a thread that waits for a matrix job is saved as parked on its reply slot (log 28). -/
def Hart.toSave (h : Hart) : Hart := if h.onJob then { h with rot := .parked, wait := .reply 0 } else h

/-- R216: a thread's record. -/
def State.saveHart (s : State) (a : Nat) (h : Hart) : State :=
  let h := h.toSave
  let dq := h.dq.map DqEnt.area
  let s := s.putWords a ((List.range 8).map (headWord h))
  let s := s.putWords (a + 64) h.h.toList
  let s := s.putWords (a + 192) (dq.map (·.1))
  let s := s.putWords (a + 256) (h.aq.map (·.1.addr))
  let s := (List.range dq.length).foldl (fun (s : State) i =>
    match (dq.getD i (0, none)).2 with
    | some c => (s.wr (a + 320) 1 (s.rd (a + 320) 1 + 2 ^ i)).wr (a + 328 + i) 1 c
    | none => s) s
  let s := (List.range h.aq.length).foldl (fun (s : State) i =>
    match h.aq[i]? with
    | some g => s.wr (a + 336 + i) 1 ((encTy g.1.ty).toNat + (if g.1.hi then 16 else 0))
    | none => s) s
  s.putWords (a + 352) (h.s.toList.take h.size)

/-- The gather of a data-queue entry. -/
def DqEnt.gath : DqEnt → Option Gath
  | .word _ => none
  | .fault _ g | .resend g | .flying g _ => some g

/-- R216, R241: a data-queue entry from its record; the type of a faulted gather is not in it (log 10). -/
def State.loadDq (s : State) (a i : Nat) (was : Option DqEnt) : DqEnt :=
  let w := s.rd64 (a + 192 + 8 * i)
  if (s.rd (a + 320) 1).testBit i then
    let g : Gath := { (was.bind DqEnt.gath).getD { addr := w, ty := .b64, hi := false, no := 0 } with addr := w }
    let c := s.rd (a + 328 + i) 1
    if c = 0 then .resend g else .fault c g
  else .word w

/-- R216: a thread from its record; was is what it was saved from, for what the record has no place for. One that was out of the rotation
still waits for its answer (log 82). -/
def State.loadHart (s : State) (a : Nat) (was : Hart) : Hart :=
  let b (o n : Nat) : Nat := s.rd (a + o) n
  let w := waitOf (b 0x15 1) (s.rd64 (a + 0x18))
  let size := b 0x12 1
  { was with
    rot := if was.rot = .out then .out else match b 0x14 1 with
      | 1 => .parked
      | 2 => .halted
      | 3 => if was.rot = .debug then .debug else .trapped
      | _ => .ready
    wait := if was.rot = .out then .none else w
    pend := if was.rot = .out then was.pend else match w with | .reply _ => was.pend | _ => none
    pc := s.rd64 a, flg := s.rd64 (a + 8), base := b 0x10 2, size := size
    p := Vector.ofFn fun j : Fin 7 => (b 0x13 1).testBit (j.val + 1)
    tr := { was.tr with
      epc := s.rd64 (a + 0x20), cause := s.rd64 (a + 0x28), addr := s.rd64 (a + 0x30)
      level := b 0x38 1 % 4, hnd := (b 0x38 1).testBit 2 }
    h := Vector.ofFn fun j : Fin 16 => s.rd64 (a + 64 + 8 * j.val)
    dq := (List.range (b 0x16 1)).map fun i => s.loadDq a i was.dq[i]?
    aq := (List.range (b 0x17 1)).map fun i =>
      ({ addr := s.rd64 (a + 256 + 8 * i), ty := decTy (BitVec.ofNat 4 (b (336 + i) 1)), hi := (b (336 + i) 1).testBit 4, no := 0 },
        s.clk)
    s := Vector.ofFn fun j : Fin 128 => if j.val < size then s.rd64 (a + 352 + 8 * j.val) else 0
    parkN := 0, forfeit := none, gAge := none }

/-! ### Lap cores (R320, R323, R342, R353, R369) -/

/-- R369: the word of a trigger counter. -/
def Trig.word (t : Trig) : W64 :=
  BitVec.ofNat 64 (t.count % 2 ^ 32 + t.slot * 2 ^ 32 + (if t.bound then 2 ^ 36 else 0) + (if t.under then 2 ^ 37 else 0))

/-- R369: a trigger counter from its word. -/
def Trig.ofWord (was : Trig) (w : W64) : Trig :=
  { was with count := w.toNat % 2 ^ 32, slot := w.toNat / 2 ^ 32 % 16, bound := w.getLsbD 36, under := w.getLsbD 37 }

/-- R353: word 0 of an entry of the token buffer. -/
def TokEnt.word (t : TokEnt) : W64 := BitVec.ofBool t.v ++ 0#15 ++ t.seq ++ t.blk

/-- R347: a decode table as an image. -/
def State.saveTab (s : State) (a : Nat) (t : DTab) : State :=
  let s := (s.wr a 1 t.width).wr (a + 8) 4 t.tiny.toNat
  (List.range t.entries.length).foldl (fun (s : State) i => s.wr (a + 16 + 4 * i) 4 (t.entries.getD i 0).toNat) s

/-- R347: a decode table from its image. -/
def State.loadTab (s : State) (a : Nat) : DTab :=
  { width := s.rd a 1, tiny := BitVec.ofNat 32 (s.rd (a + 8) 4)
    entries := (List.range 256).map fun i => BitVec.ofNat 32 (s.rd (a + 16 + 4 * i) 4) }

/-- R215: the part of lap core c of cluster k, at a. -/
def State.saveCore (s : State) (a k c : Nat) : State :=
  let x := s.core k c
  let s := s.moveMem (localBase k c) a 0x8000
  let s := s.putWords (coreTrig a) (x.trig.toList.map Trig.word)
  let s := s.putWords (coreSled a) (BitVec.ofNat 64 x.sled.length :: x.sled.flatMap fun r => [r.1, r.2])
  let s := s.wr64 (coreInbox a) (BitVec.ofNat 64 x.inbox.length)
  let s := (List.range x.inbox.length).foldl (fun (s : State) i =>
    match x.inbox[i]? with
    | some m => s.putWords (coreInbox a + 8 + 80 * i) (BitVec.ofNat 64 (m.words.length + (if m.head then 16 else 0)) :: m.words)
    | none => s) s
  let s := s.putWords (coreToks a) (x.tokVec :: BitVec.ofNat 64 x.victim :: x.toks.toList.flatMap fun t => [t.word, t.addr])
  let s := s.saveTab (coreTab a) (s.tab (.core k c))
  (List.range 16).foldl (fun (s : State) t => s.saveHart (s.threadRec a t) (s.hart (.lap k c t))) s

/-- R215: lap core c of cluster k from its part; was is what it was saved from. The watchdog stays the target core's (R367);
the words in its links are those of the save (DESIGN CHOICE, log 87: R215 lists no links). -/
def State.loadCore (s : State) (a k c : Nat) (was : LapCore) : State :=
  let now := s.core k c
  let s := s.moveMem a (localBase k c) 0x8000
  let x : LapCore := { was with
    thr := now.thr, wen := now.wen
    trig := was.trig.mapIdx fun j t => Trig.ofWord t (s.rd64 (coreTrig a + 8 * j))
    sled := (List.range (s.rd (coreSled a) 8)).map fun i => (s.rd64 (coreSled a + 8 + 16 * i), s.rd64 (coreSled a + 16 + 16 * i))
    sledAt := none
    inbox := (List.range (s.rd (coreInbox a) 8)).map fun i =>
      let b := coreInbox a + 8 + 80 * i
      { words := s.getWords (b + 8) (s.rd b 1 % 16), head := (s.rd b 1).testBit 4
        scope := match was.inbox[i]? with | some m => m.scope | none => .system }
    tokVec := s.rd64 (coreToks a), victim := s.rd (coreToks a + 8) 8 % 64
    toks := Vector.ofFn fun i : Fin 64 =>
      let w := s.rd64 (coreToks a + 16 + 16 * i.val)
      { v := w.getLsbD 63, blk := w.extractLsb' 0 32, seq := w.extractLsb' 32 16, addr := s.rd64 (coreToks a + 24 + 16 * i.val) } }
  (s.setCore k c x).setTab (.core k c) (s.loadTab (coreTab a))

/-- R216, R219: the threads of a lap core from their records; a record of window size 0 is an empty slot. -/
def State.loadThreads (s : State) (a k c : Nat) (was : Nat → Hart) : State :=
  (List.range 16).foldl (fun (s : State) t =>
    let r := s.threadRec a t
    if s.rd (r + 0x12) 1 = 0 then s else s.setHart (.lap k c t) (s.loadHart r (was t))) s

/-! ### Control cores (R217, R218, R334) -/

/-- R334: the jig part of a context record. -/
def State.saveJig (s : State) (a : Nat) (j : JigState) : State :=
  let w0 := j.n + (if j.recording then 2 ^ 5 else 0) + (if j.running then 2 ^ 6 else 0) + (if j.waiting then 2 ^ 7 else 0)
    + j.recorded * 2 ^ 8 + j.next * 2 ^ 16
  let s := s.putWords a [BitVec.ofNat 64 w0, j.stride, BitVec.ofNat 64 j.passes, BitVec.ofNat 64 j.pass]
  s.putWords (a + 0x40) (j.entries.flatMap fun e =>
    [encSlot encVSyl e.v0, encSlot encVSyl e.v1, encSlot encMSyl e.m, encSlot encLd e.ld, encSlot encSt e.st])

/-- R334: a jig from its part; as many entries as were recorded hold syllables. -/
def State.loadJig (s : State) (a : Nat) : JigState :=
  let w := s.rd a 8
  { n := w % 32, recording := w.testBit 5, running := w.testBit 6, waiting := w.testBit 7, recorded := w / 2 ^ 8 % 32
    next := w / 2 ^ 16 % 32, stride := s.rd64 (a + 8), passes := s.rd (a + 16) 8, pass := s.rd (a + 24) 8
    entries := (List.range (w / 2 ^ 8 % 32)).map fun i =>
      let b := a + 0x40 + 40 * i
      { v0 := decSlot decVSyl VSyl.wf (s.rd64 b), v1 := decSlot decVSyl VSyl.wf (s.rd64 (b + 8))
        m := decSlot decMSyl MSyl.wf (s.rd64 (b + 16)), ld := decSlot decLd LdSyl.wf (s.rd64 (b + 24))
        st := decSlot decSt StSyl.wf (s.rd64 (b + 32)) } }

/-- R217: a context record. -/
def State.saveCtx (s : State) (a k cc x : Nat) : State :=
  let t := s.ctx k cc x
  let s := s.putWords a [t.pc, t.npc, t.nnpc, t.flg, s.ctxSt k cc x, t.cau, t.epc, t.adr, if t.wchk then 1 else 0]
  let s := s.putWords (a + 128) t.c.toList
  let s := s.wr (a + 640) 2 ((List.range 15).foldl (fun v j => if t.q.getD (j + 1) false then v + 2 ^ (j + 1) else v) 0)
  let s := (List.range 8).foldl (fun (s : State) j => s.wr (a + 648 + 64 * j) 64 (t.m.getD j 0).toNat) s
  let s := (List.range t.handles.length).foldl (fun (s : State) j => s.wr (a + 1160 + 2 * j) 2 (t.handles.getD j 0).toNat) s
  (s.wr (a + 1192) 1 t.handles.length).saveJig (a + 1224) t.jig

/-- R217, R219: a context from its record. -/
def State.loadCtx (s : State) (a k cc x : Nat) (was : Ctx) : State :=
  let st := s.rd (a + 32) 8
  s.setCtx k cc x { was with
    pc := s.rd64 a, npc := s.rd64 (a + 8), nnpc := s.rd64 (a + 16), flg := s.rd64 (a + 24)
    state := if st % 8 = 2 then 1 else st % 8
    wait := st / 2 ^ 3 % 16, gover := st.testBit 7, lastf := st / 2 ^ 8 % 256
    cau := s.rd64 (a + 40), epc := s.rd64 (a + 48), adr := s.rd64 (a + 56), wchk := (s.rd (a + 64) 1).testBit 0
    c := Vector.ofFn fun j : Fin 64 => s.rd64 (a + 128 + 8 * j.val)
    q := Vector.ofFn fun j : Fin 16 => j.val != 0 && (s.rd (a + 640) 2).testBit j.val
    m := Vector.ofFn fun j : Fin 8 => BitVec.ofNat 512 (s.rd (a + 648 + 64 * j.val) 64)
    handles := (List.range (s.rd (a + 1192) 1)).map fun j => BitVec.ofNat 16 (s.rd (a + 1160 + 2 * j) 2)
    jig := s.loadJig (a + 1224) }

/-- R183, R217: the 4,096 elements of an accumulator or a podium image, those that are blank included. -/
def State.putElems (s : State) (a : Nat) (blank : W64) (elems : List (Nat × W64)) : State :=
  let s := if blank = 0 then s else s.putWords a (List.replicate 4096 blank)
  elems.foldl (fun (s : State) e => s.wr64 (a + 8 * e.1) e.2) s

/-- The elements at a that are not blank. -/
def State.getElems (s : State) (a : Nat) (blank : W64) : List (Nat × W64) :=
  (List.range 4096).filterMap fun i => let v := s.rd64 (a + 8 * i); if v = blank then none else some (i, v)

/-- R217: an accumulator: elements, ACCST, ACCTH, ACCROW, ACCCOL, raise and snap. -/
def State.saveAcc (s : State) (a : Nat) (x : Accu) : State :=
  let s := s.putElems a x.blank x.elems
  let s := s.putWords (a + 0x8000) [x.st, x.th, x.row, x.col]
  let half (l : List W32) (o : Nat) (s : State) : State :=
    (List.range 64).foldl (fun (s : State) r => s.wr (a + 0x8020 + o + 4 * r) 4 (l.getD r 0).toNat) s
  half x.snap 256 (half x.raise 0 s)

def State.loadAcc (s : State) (a : Nat) (was : Accu) : Accu :=
  let half (o : Nat) : List W32 := (List.range 64).map fun r => BitVec.ofNat 32 (s.rd (a + 0x8020 + o + 4 * r) 4)
  let x : Accu := { was with st := s.rd64 (a + 0x8000) }
  { x with
    elems := s.getElems a x.blank
    th := s.rd64 (a + 0x8008), row := s.rd64 (a + 0x8010), col := s.rd64 (a + 0x8018)
    raise := half 0, snap := half 256 }

/-- R217: a queued step as 16 bytes: accumulator, issuing context and a valid bit; then the handles, and whether B is the latch (log 10). -/
def AStep.words (q : AStep) : List W64 :=
  [BitVec.ofNat 64 (q.acc + q.x * 2 ^ 8 + 2 ^ 63),
   BitVec.ofNat 64 (q.a.toNat + (match q.b with | some h => h.toNat * 2 ^ 16 | none => 2 ^ 32))]

def State.loadStep (s : State) (a : Nat) : Option AStep :=
  let w := s.rd64 a
  let h := s.rd64 (a + 8)
  if w.getLsbD 63 then
    some { acc := w.toNat % 4, x := w.toNat / 2 ^ 8 % 4, a := h.extractLsb' 0 16
           b := if h.getLsbD 32 then none else some (h.extractLsb' 16 16), left := 0 }
  else none

/-- R218: kind and number of a register, and the bytes of its value. -/
def CReg.area : CReg → Nat × Nat × Nat
  | .c _ n => (0, n.toNat, 8)
  | .q _ n => (1, n.toNat, 8)
  | .m _ n => (2, n.toNat, 64)
  | .v n => (3, n, 512)
  | .z => (0, 0, 8)

/-- R218: the window replay record. -/
def State.saveReplay (s : State) (a : Nat) (l : List Replay) : State :=
  let s := s.wr a 4 l.length
  (l.foldl (fun (r : Nat × State) e =>
    let g := e.reg.area
    (r.1 + 8 + g.2.2,
     ((((r.2.wr r.1 1 g.1).wr (r.1 + 1) 1 e.x).wr (r.1 + 2) 2 g.2.1).wr (r.1 + 4) 4 e.left).wr (r.1 + 8) g.2.2 e.held.toNat))
    (a + 16, s)).2

/-- R218: an entry of the record. -/
def State.loadEntry (s : State) (a : Nat) : Replay :=
  let x := s.rd (a + 1) 1
  let n := s.rd (a + 2) 2
  let k := s.rd a 1
  { reg := match k with
      | 0 => .c x (BitVec.ofNat 6 n)
      | 1 => .q x (BitVec.ofNat 4 n)
      | 2 => .m x (BitVec.ofNat 3 n)
      | _ => .v n
    x := x, left := s.rd (a + 4) 4, held := BitVec.ofNat 4096 (s.rd (a + 8) (replayBytes k - 8)) }

/-- n entries from a on. -/
def State.loadEntries (s : State) (a : Nat) : Nat → List Replay
  | 0 => []
  | n + 1 => s.loadEntry a :: s.loadEntries (a + replayBytes (s.rd a 1)) n

/-- R215: the part of control core cc of cluster k, at a; its core stands still. -/
def State.saveCc (s : State) (a k cc : Nat) : State :=
  let c := s.cc k cc
  let s := c.v.foldl (fun (s : State) r => s.wr (a + 512 * r.1) 512 r.2.toNat) s
  let s := (List.range 4).foldl (fun (s : State) n => s.saveAcc (ccAccs a + n * accBytes) (c.acc.getD n .zero)) s
  let s := s.putWords (ccSteps a) (c.queue.flatMap AStep.words)
  let s := (List.range 4).foldl (fun (s : State) x => s.saveCtx (ccCtx a x) k cc x) s
  let s := s.saveReplay (ccReplay a) c.overlay
  s.saveTab (s.ccTab a) (s.tab (.cc k cc))

/-- R215, R219: control core cc of cluster k from its part, its replay record in force. The counts of R383 stay the target's. -/
def State.loadCc (s : State) (a k cc issuing loaded : Nat) (was : CcState) (ctxs : Nat → Ctx) (tag : W64 → W64) : State :=
  let now := s.cc k cc
  let c : CcState := { was with
    scyc := now.scyc, frz := now.frz, loaded := loaded, issuing := issuing, yield := false, overlay := [], pending := []
    v := (List.range 768).filterMap fun n => let v := BitVec.ofNat 4096 (s.rd (a + 512 * n) 512); if v = 0 then none else some (n, v)
    acc := was.acc.mapIdx fun n x => s.loadAcc (ccAccs a + n * accBytes) x
    queue := (List.range 4).filterMap fun i => s.loadStep (ccSteps a + 16 * i)
    jobs := was.jobs.map fun j => { j with tag := tag j.tag } }
  let s := s.setCc k cc c
  let s := (List.range 4).foldl (fun (s : State) x =>
    s.loadCtx (ccCtx a x) k cc x { ctxs x with job := (ctxs x).job.map tag }) s
  let s := s.replayNow k cc (s.loadEntries (ccReplay a + 16) (s.rd (ccReplay a) 4))
  s.setTab (.cc k cc) (s.loadTab (s.ccTab a))

/-! ### The tile-buffer table (R270) -/

/-- R270: the place of an index in the pending-post list. -/
def indexOf (i : Nat) : List Nat → Nat
  | [] => 0
  | j :: t => if i = j then 0 else indexOf i t + 1

/-- R270: words 0 and 1 of an entry of the tile-buffer table. -/
def State.tileWord (s : State) (k i w : Nat) : W64 :=
  let t := s.tile k i
  if w = 0 then
    BitVec.ofNat 64 (t.base / 512 + t.state * 2 ^ 13 + t.gen * 2 ^ 16 + t.cause * 2 ^ 24 + t.dest * 2 ^ 26
      + (if t.pend then 2 ^ 29 else 0))
  else
    let left := if t.state = 1 ∧ t.timer ≠ 0 then t.due - s.pt else 0
    let prank := if t.pend then indexOf i (s.cluster k).posts else 0
    BitVec.ofNat 64 (left % 2 ^ 20 + prank % 2 ^ 8 * 2 ^ 20)

/-- R264, R270: an entry of the table from its words; the fields kept in the header of the footprint are as they were. -/
def State.loadTile (s : State) (a : Nat) (was : Tile) : Tile :=
  let w := s.rd a 8
  { was with
    base := w % 2 ^ 13 * 512, state := w / 2 ^ 13 % 8, gen := w / 2 ^ 16 % 256, cause := w / 2 ^ 24 % 4, dest := w / 2 ^ 26 % 8
    pend := w.testBit 29, due := s.pt + s.rd (a + 8) 8 % 2 ^ 20 }

/-- R266, R270: the pending-post list from the places in the table. -/
def State.loadPosts (s : State) (a : Nat) : List Nat :=
  let is := (List.range 256).filter fun i => (s.rd (a + 16 * i) 8).testBit 29
  sortBy (fun i j => decide (s.rd (a + 16 * i + 8) 8 / 2 ^ 20 % 256 ≤ s.rd (a + 16 * j + 8) 8 / 2 ^ 20 % 256)) is

/-! ### The MU (R179, R335) and the copy engine (R341) -/

/-- R179, R215: a latch buffer: 32 KiB of data, then 512 bytes of header or raise values (log 10). -/
def State.saveLatch (s : State) (a : Nat) : Latch → State
  | .empty => s
  | .tile _ _ _ _ bytes =>
    (List.range bytes.length).foldl (fun (s : State) i =>
      s.wr (if i < 512 then a + 0x8000 + i else a + (i - 512)) 1 (bytes.getD i 0).toNat) s
  | .podium _ elems raise =>
    let s := s.putElems a emptyPair elems
    (List.range raise.length).foldl (fun (s : State) r => s.wr (a + 0x8000 + 4 * r) 4 (raise.getD r 0).toNat) s

def State.loadLatch (s : State) (a : Nat) : Latch → Latch
  | .empty => .empty
  | .tile ty nk wide vmask bytes =>
    .tile ty nk wide vmask ((List.range bytes.length).map fun i =>
      memGet s.mem (if i < 512 then a + 0x8000 + i else a + (i - 512)))
  | .podium st _ raise =>
    .podium st (s.getElems a emptyPair)
      ((List.range raise.length).map fun r => BitVec.ofNat 32 (s.rd (a + 0x8000 + 4 * r) 4))

/-- R341: the copy engine's record. -/
def State.saveCe (s : State) (a k : Nat) : State :=
  let h := s.hart (.ce k)
  let g := (s.cluster k).ce
  let (w, t) : W64 × W64 := match g.run with
    | .cmd w t _ | .ending w t _ _ => (w, t)
    | .idle | .placed => (0, 0)
  let s := s.putWords a [h.pc, h.flg, BitVec.ofNat 64 ((if g.run = .idle then 0 else 1) + g.queue.length * 2 ^ 8), w, t,
    BitVec.ofNat 64 (g.progress.getD 0), 0]
  let s := s.putWords (a + 0x40) (g.queue.flatMap fun c => [c.word.getD 0, c.tag])
  s.putWords (a + 0xC0) h.s.toList

/-- R341: the copy engine of cluster k from its record; tag moves an issuer tag. -/
def State.loadCe (s : State) (a k : Nat) (h : Hart) (g : Engine) (tag : W64 → W64) : Hart × Engine :=
  let b := s.rd (a + 16) 8
  ({ h with pc := s.rd64 a, flg := s.rd64 (a + 8), s := Vector.ofFn fun j : Fin 128 => s.rd64 (a + 0xC0 + 8 * j.val)
            forfeit := none, gAge := none },
   { g with
     run := if b.testBit 0 then
         match g.run with
         | .cmd _ _ _ => .cmd (s.rd64 (a + 24)) (tag (s.rd64 (a + 32))) k
         | .ending _ _ v _ => .ending (s.rd64 (a + 24)) (tag (s.rd64 (a + 32))) v k
         | r => r
       else .idle
     progress := g.progress.map fun _ => s.rd (a + 40) 8
     queue := (List.range (b / 2 ^ 8 % 16)).filterMap fun i =>
       g.queue[i]?.map fun c => { c with
         word := c.word.map fun _ => s.rd64 (a + 0x40 + 16 * i), tag := tag (s.rd64 (a + 0x48 + 16 * i)), kid := k } })

/-! ### A cluster (R215) -/

/-- R215: the header of a save area, with the routing-engine commands saved with the launch. -/
def State.saveHeader (s : State) (a k pos gen : Nat) (cmds : List EngCmd) : State :=
  let c := s.cluster k
  let s := [pos, pos % 8, (s.cc k 0).issuing, (s.cc k 1).issuing, c.mumode, gen].zipIdx.foldl
    (fun (s : State) (x : Nat × Nat) => s.wr (a + x.2) 1 x.1) s
  let s := s.putWords (a + 8) [c.clsvec, c.cldeleg.setWidth 64, c.cctd.setWidth 64]
  let s := s.putWords (a + 0x80) (c.bumps.toList.flatMap fun b => [b.1, b.2])
  let s := s.putWords (a + 0x100) [c.rngKey, c.rngCtr.extractLsb' 0 64, c.rngCtr.extractLsb' 64 64]
  let s := s.wr (a + 0x118) 1 c.rngQ.length
  let s := s.wr (a + 0x120) 1 cmds.length
  s.putWords (a + 0x128) (cmds.flatMap fun c => [c.word.getD 0, c.tag])

/-- R224, R215: the full bits of a scratchpad: bit w of the map is word w. -/
def State.saveFull (s : State) (a k : Nat) : State :=
  (s.full.filter fun w => cspBase k ≤ w && w < cspBase k + 2 ^ 22).foldl (fun (s : State) w =>
    let i := (w - cspBase k) / 8
    s.wr (a + i / 8) 1 (s.rd (a + i / 8) 1 ||| 2 ^ (i % 8))) s

def State.loadFull (s : State) (a k : Nat) : State :=
  let rest := s.full.filter fun w => !(cspBase k ≤ w && w < cspBase k + 2 ^ 22)
  let ws := (s.mem.filter fun b => a ≤ b.1 && b.1 < a + 2 ^ 16).flatMap fun b =>
    (setBits 8 b.2.toNat).map fun i => cspBase k + 8 * (8 * (b.1 - a) + i)
  { s with full := ws.foldl setAdd rest }

/-- R215: the state of a cluster is written to its save area. -/
def State.saveArea (s : State) (a k pos gen : Nat) (cmds : List EngCmd) : State :=
  let s := s.clear a saveSize
  let s := s.saveHeader a k pos gen cmds
  let s := (s.moveMem (cspBase k) (areaCsp a) (2 ^ 22)).saveFull (areaFull a) k
  let s := (List.range 256).foldl (fun (s : State) i =>
    s.putWords (areaTiles a + 16 * i) [s.tileWord k i 0, s.tileWord k i 1]) s
  let s := (List.range 32).foldl (fun (s : State) c => s.saveCore (s.corePart a c) k c) s
  let s := [0, 1].foldl (fun (s : State) c => s.saveCc (s.ccPart a c) k c) s
  let m := s.muPart a
  let s := (s.saveLatch m (s.cluster k).latch).saveLatch (m + muBuf) (s.cluster k).incoming
  let s := s.putWords (m + 2 * muBuf) (s.cluster k).rngQ
  s.saveCe (s.cePart a) k

/-- The records of a cluster as they stand, for what the save area has no place for. -/
def State.savedRecords (s : State) (k pos : Nat) : SavedCluster :=
  { pos := pos
    cluster := { s.cluster k with cch := [], shapes := [], grants := [] }
    cores := (s.cores.filter fun x => x.1.1 = k).map fun x => (x.1.2, x.2)
    harts := s.harts.filter fun h => entKid h.1 = some k
    ccs := (s.ccs.filter fun x => x.1.1 = k).map fun x => (x.1.2, x.2)
    ctxs := (s.ctxs.filter fun x => x.1.1 = k).map fun x => ((x.1.2.1, x.1.2.2), x.2) }

/-- R219: the save area of a cluster that was cluster old is written into cluster k; tag moves an issuer tag, loaded is the size of
its bundle code. -/
def State.loadArea (s : State) (a old k loaded : Nat) (was : SavedCluster) (tag : W64 → W64) : State :=
  let now := s.cluster k
  let hart (e : Ent) : Hart := mget was.harts .zero e
  let s := (s.moveMem (areaCsp a) (cspBase k) (2 ^ 22)).loadFull (areaFull a) k
  let s := (List.range 32).foldl (fun (s : State) c =>
    let p := s.corePart a c
    (s.loadCore p k c (mget was.cores .zero c)).loadThreads p k c fun t => hart (.lap old c t)) s
  let s := [0, 1].foldl (fun (s : State) c =>
    s.loadCc (s.ccPart a c) k c (s.rd (a + 2 + c) 1) loaded (mget was.ccs .zero c) (fun x => mget was.ctxs .zero (c, x)) tag) s
  let m := s.muPart a
  let ce := s.loadCe (s.cePart a) k (hart (.ce old)) was.cluster.ce tag
  let s := s.setHart (.ce k) ce.1
  s.setCluster k { was.cluster with
    psel := now.psel, pmc := now.pmc, ce := ce.2
    mumode := s.rd (a + 4) 1, clsvec := s.rd64 (a + 8), cldeleg := BitVec.ofNat 32 (s.rd (a + 16) 4)
    cctd := BitVec.ofNat 10 (s.rd (a + 24) 2)
    bumps := Vector.ofFn fun i : Fin 8 => (s.rd64 (a + 0x80 + 16 * i.val), s.rd64 (a + 0x88 + 16 * i.val))
    rngKey := s.rd64 (a + 0x100), rngCtr := BitVec.ofNat 128 (s.rd (a + 0x108) 16)
    rngQ := s.getWords (m + 2 * muBuf) (s.rd (a + 0x118) 1)
    latch := s.loadLatch m was.cluster.latch, incoming := s.loadLatch (m + muBuf) was.cluster.incoming
    tiles := was.cluster.tiles.map fun t => (t.1, s.loadTile (areaTiles a + 16 * t.1) t.2)
    posts := s.loadPosts (areaTiles a) }

end Sys2Proof.Machine
end

