-- ==== Sys2Proof/Machine/Launch.lean ====
section
/-! DEFINITION. Work of the command stream harts, by its effects (log 9): packets, images, starting, finishing, killing, saving and
restoring launches (R23 to R30, R97 to R99, R214 to R220, R225, R306 to R313). -/

namespace Sys2Proof.Machine

/-! ### Reads of a hart under a queue's PASID -/

/-- Words read one after another. -/
inductive HRead where
  | ok (ws : List W64) (s : State)
  | fault (code : Nat) (addr : Nat) (s : State)
  | wait (s : State)

def State.hread (s : State) (d pasid va n : Nat) : HRead :=
  match n with
  | 0 => .ok [] s
  | n + 1 =>
    match s.gread (.hart d) (some pasid) va 8 .rd with
    | .ok v s =>
      match s.hread d pasid (va + 8) n with
      | .ok ws s => .ok (BitVec.ofNat 64 v :: ws) s
      | r => r
    | .fault c s => .fault c va s
    | .wait s => .wait s
    | .remote _ s => .wait s

def HQueue.prio (q : HQueue) : Nat := q.cfg.toNat / 16 % 8
def HQueue.die (q : HQueue) : Nat := q.cfg.toNat / 2 ^ 7 % 4
def HQueue.pasid (q : HQueue) : Nat := q.cfg.toNat / 2 ^ 9 % 2 ^ 20
def HQueue.vec (q : HQueue) : Nat := q.cfg.toNat / 2 ^ 29 % 2 ^ 11
def HQueue.lsz (q : HQueue) : Nat := q.cfg.toNat % 16
def HQueue.pending (q : HQueue) : Nat := (q.tail - q.head).toNat

/-- R306: the address of the packet at the head. -/
def HQueue.headAddr (q : HQueue) : Nat := q.base.toNat / 64 % 2 ^ 50 * 64 + 64 * (q.head.toNat % 2 ^ q.lsz)

/-- R307, R314: a queue enters error; code is the memory fault met, if any. -/
def State.queueError (s : State) (q cause code : Nat) (addr detail : W64) : State :=
  let x := s.hq q
  (s.setHq q { x with state := 3, cause := cause }).logErr x.die cause code (x.die * 128) 34 0 addr detail

/-! ### Packets (R309, R310) -/

def wd (ws : List W64) (i : Nat) : W64 := ws.getD i 0

def pktOp (p : List W64) : Nat := (wd p 0).toNat % 256
def pktMask (p : List W64) : Nat := (wd p 0).toNat / 2 ^ 12 % 2 ^ 16
def pktKind (p : List W64) : Nat := (wd p 0).toNat / 2 ^ 10 % 4
def pktSys (p : List W64) : Bool := (wd p 0).getLsbD 8
def pktIrq (p : List W64) : Bool := (wd p 0).getLsbD 9

/-- R309: the rinks a packet names, ascending. -/
def pktRinks (p : List W64) : List Nat := (List.range 16).filter fun i => (pktMask p).testBit i

/-- R309: bad packets. -/
def pktBad (p : List W64) : Bool :=
  decide (pktOp p > 2) || pktKind p == 3 || decide ((wd p 0).toNat / 2 ^ 28 ≠ 0)
    || (pktOp p == 1 && pktMask p == 0)
    || (wd p 1).toNat % 64 != 0 || (wd p 6).toNat % 64 != 0 || (wd p 7).toNat % 64 != 0
    || (pktKind p == 2 && decide ((wd p 2).toNat / 2 ^ 18 ≠ 0))

/-- How a queue's head packet stands. -/
inductive Head where
  | none
  | ready (p : List W64)
  | held (p : List W64)
  | bad (p : List W64)
  | fault (code addr : Nat)
  | wait

/-- R310: the count of the trigger counter a name gives, live or saved. -/
def State.namedCount (s : State) (kid core ctr : Nat) : Nat :=
  match if (s.cluster kid).launch.isSome then none else s.savedAt kid none with
  | some b => s.savedCount b core ctr
  | none => if h : ctr < 16 then (s.core kid core).trig[ctr].count else 0

/-- R308 to R310: the head packet of a queue. -/
def State.headPkt (s : State) (q : Nat) : Head × State :=
  let x := s.hq q
  if x.state = 1 ∧ x.pending ≠ 0 ∧ x.barrier = none then
    match s.hread x.die x.pasid x.headAddr 8 with
    | .fault c a s => (.fault c a, s)
    | .wait s => (.wait, s)
    | .ok p s =>
      if pktBad p then (.bad p, s)
      else
        match pktKind p with
        | 1 =>
          match s.hread x.die x.pasid (wd p 2).toNat 1 with
          | .fault c a s => (.fault c a, s)
          | .wait s => (.wait, s)
          | .ok w s => (if pegMet (wd w 0).toNat ((wd p 3).toNat % 256) then .ready p else .held p, s)
        | 2 =>
          let n := (wd p 2).toNat
          (if s.namedCount (n % 2 ^ 9) (n / 2 ^ 9 % 32) (n / 2 ^ 14 % 16) = 0 then .ready p else .held p, s)
        | _ => (.ready p, s)
  else (.none, s)

/-- R309, R312: the state after a queue's head has been looked at: a bad packet is consumed and the queue is in error, a packet
that could not be fetched leaves it in error. -/
def State.settleHead (s : State) (q : Nat) : State :=
  let x := s.hq q
  let r := s.headPkt q
  match r.1 with
  | .bad _ => (r.2.setHq q { r.2.hq q with head := x.head + 1 }).queueError q 0x04 0 (BitVec.ofNat 64 x.headAddr) 0
  | .fault c a => r.2.queueError q 0x03 c (BitVec.ofNat 64 a) 0
  | _ => r.2

/-- R311: the active queues of a die, in the order in which the hart considers them. -/
def State.queueOrder (s : State) (d : Nat) : List Nat :=
  let qs := (s.queues.filter fun x => x.2.state = 1 ∧ x.2.die = d).map (·.1)
  let last := (s.die d).lastq
  let turn (q : Nat) : Nat := (q + 4096 - (last + 1) % 4096) % 4096
  let before (a b : Nat) : Bool :=
    let pa := (s.hq a).prio
    let pb := (s.hq b).prio
    decide (pa > pb) || (pa == pb && decide (turn a ≤ turn b))
  sortBy before qs

/-- R308: a packet is consumed whole. -/
def State.consume (s : State) (q : Nat) : State :=
  let x := s.hq q
  s.setHq q { x with head := x.head + 1 }

/-- R310, R397: a completion record is written, and the interrupt raised that it asks for. A failure is logged and changes nothing
else; a write that waits for a translation is made again. -/
def State.pay (s : State) (o : Owed) : State :=
  let done (s : State) : State := match o.vec with | some v => s.msi v | none => s
  match s.gwrite (.hart o.die) (some o.pasid) o.addr (.store .b64 false o.value) with
  | .ok _ s => done s
  | .fault c s => done (s.logErr o.die 0x03 c (o.die * 128) 34 0 (BitVec.ofNat 64 o.addr) 0)
  | .wait s | .remote _ s => { s with owed := s.owed ++ [o] }

/-- R310: the records of a die that wait are tried again. -/
def State.payOwed (s : State) (d : Nat) : State :=
  (s.owed.filter fun o => o.die = d).foldl State.pay { s with owed := s.owed.filter fun o => o.die ≠ d }

/-- R310, R397: the completion record of a packet, under the PASID and with the vector its queue had. -/
def State.complete (s : State) (d pasid vec : Nat) (p : List W64) (status code : Nat) : State :=
  s.pay { die := d, pasid := pasid, addr := (wd p 7).toNat + 56, vec := if pktIrq p then some vec else none
          value := BitVec.ofNat 64 (status + code * 2 ^ 8 + (s.pt % 2 ^ 48) * 2 ^ 16) }

/-! ### Images (R97, R98) -/

/-- The n low bytes of a word, lowest first. -/
def wordBytesOf (w : W64) : List Byte := (List.range 8).map fun j => w.extractLsb' (8 * j) 8

def half (w : W64) (i : Nat) : Nat := (w.extractLsb' (32 * i) 32).toNat

/-- R97: the header as an image, and whether it is well-formed but for the map. -/
def parseHeader (h : List W64) (map : List (List Byte)) : Image :=
  { reloc := (wd h 0).getLsbD 48, rinks := (wd h 1).toNat % 256,
    lapOff := half (wd h 2) 0, lapSize := half (wd h 2) 1, bunOff := half (wd h 3) 0, bunSize := half (wd h 3) 1,
    engOff := half (wd h 4) 0, engSize := half (wd h 4) 1, datOff := half (wd h 5) 0, datSize := half (wd h 5) 1,
    hasHandler := (wd h 0).getLsbD 49, handler := half (wd h 7) 0, deleg := (wd h 7).extractLsb' 32 32, map := map }

/-- Whether no two of these ranges (offset, size) meet. -/
def disjoint : List (Nat × Nat) → Bool
  | [] => true
  | (o, n) :: t => (t.all fun x => n = 0 || x.2 = 0 || decide (o + n ≤ x.1) || decide (x.1 + x.2 ≤ o)) && disjoint t

/-- R97. Where the image ends is in neither header nor packet, so a section is not held to lie within it; the 64 bytes of the header count
as a range that no section may overlap, and a map of no entries has offset 0, as a section of size 0 has (log 93). -/
def headerOk (h : List W64) : Bool :=
  let m := parseHeader h []
  let flags := (wd h 0).toNat / 2 ^ 48
  let mapOff := half (wd h 6) 0
  let mapN := half (wd h 6) 1
  let sect (o n al : Nat) : Bool := o % al == 0 && (n != 0 || o == 0)
  (wd h 0).toNat % 2 ^ 32 == 0x4B5A4931 && (wd h 0).toNat / 2 ^ 32 % 2 ^ 16 == 1 && decide (flags < 4)
    && decide (1 ≤ m.rinks) && decide (m.rinks ≤ 16) && decide ((wd h 1).toNat < 256)
    && sect m.lapOff m.lapSize 8 && sect m.bunOff m.bunSize 64 && m.bunSize % 64 == 0 && decide (m.bunSize ≤ 131072)
    && sect m.engOff m.engSize 8 && sect m.datOff m.datSize 512 && decide (m.datSize ≤ 2 ^ 22) && sect mapOff mapN 16
    && m.handler % 8 == 0 && (m.hasHandler || (m.handler == 0 && m.deleg == 0))
    && (!m.hasHandler || decide (m.handler < m.lapSize))
    && disjoint [(0, 64), (m.lapOff, m.lapSize), (m.bunOff, m.bunSize), (m.engOff, m.engSize), (m.datOff, m.datSize),
        (mapOff, 16 * mapN)]

def byteAt (e : List Byte) (i : Nat) : Nat := (e.getD i 0).toNat

/-- The entry offset of a map entry. -/
def entEntry (e : List Byte) : Nat := (List.range 8).foldl (fun a j => a + byteAt e (8 + j) * 256 ^ j) 0
def entBase (e : List Byte) : Nat := byteAt e 4 + 256 * byteAt e 5

/-- R98, R23: one map entry. A window base or size that R23 does not allow makes the map malformed (log 93). -/
def mapEntryOk (m : Image) (e : List Byte) : Bool :=
  let z (l : List Nat) : Bool := l.all fun i => byteAt e i == 0
  decide (byteAt e 1 < 8 * m.rinks) &&
    match byteAt e 0 with
    | 1 => decide (byteAt e 2 < 32) && decide (byteAt e 3 < 16) && entBase e % 8 == 0 && decide (8 ≤ byteAt e 6)
        && decide (byteAt e 6 ≤ 128) && byteAt e 6 % 8 == 0 && z [7] && entEntry e % 8 == 0 && decide (entEntry e < m.lapSize)
    | 2 => decide (byteAt e 2 < 2) && decide (byteAt e 3 < 4) && z [4, 5, 6, 7] && entEntry e % 64 == 0
        && decide (entEntry e < m.bunSize)
    | 3 => z [2, 3, 4, 5, 6, 7] && entEntry e % 8 == 0 && decide (entEntry e < m.engSize)
    | 4 => decide (byteAt e 2 ≤ 2) && z [3, 4, 5, 6, 7] && entEntry e == 0
    | _ => false

/-- R98: the map. -/
def mapOk (m : Image) : Bool :=
  m.map.all (mapEntryOk m) &&
    (List.range (8 * m.rinks)).all fun p =>
      decide ((m.map.filter fun e => byteAt e 0 = 4 ∧ byteAt e 1 = p).length ≤ 1)
        && decide ((m.map.filter fun e => byteAt e 0 = 3 ∧ byteAt e 1 = p).length ≤ 1)

/-- Map entries of a kind. -/
def Image.ofKind (m : Image) (k : Nat) : List (List Byte) := m.map.filter fun e => byteAt e 0 = k

/-- Whether a property holds of some two entries. -/
def somePair (p : List Byte → List Byte → Bool) : List (List Byte) → Bool
  | [] => false
  | e :: t => t.any (p e) || somePair p t

/-- R24: the lowest check that fails on these rinks of a die, 1 to 6; check 5 holds when a launch starts. For a set position beyond the
packet's rinks, which fails check 6 in any case, check 2 takes the cores of rink 0 of the die (log 93). -/
def placeCheck (m : Image) (die : Nat) (rinks : List Nat) : Option Nat :=
  let t := m.ofKind 1
  let same (e f : List Byte) : Bool := byteAt e 1 == byteAt f 1 && byteAt e 2 == byteAt f 2
  let meet (e f : List Byte) : Bool :=
    same e f && decide (entBase e < entBase f + byteAt f 6) && decide (entBase f < entBase e + byteAt e 6)
  let twice (e f : List Byte) : Bool := same e f && byteAt e 3 == byteAt f 3
  if somePair meet t then some 1
  else if t.any fun e => decide (entBase e + byteAt e 6 > Config.lcap (posKid die rinks (byteAt e 1)) (byteAt e 2)) then some 2
  else if somePair twice t || somePair twice (m.ofKind 2) then some 3
  else if m.rinks ≠ rinks.length then some 6
  else none

/-! ### Clusters of a launch -/

def Launch.kids (l : Launch) : List Nat := (List.range (8 * l.rinks.length)).map (posKid l.die l.rinks)

def rinkKids (die r : Nat) : List Nat := (List.range 8).map fun m => die * 128 + 8 * r + m

/-- R24 check 5, R27: whether a rink is free. -/
def State.rinkFree (s : State) (die r : Nat) : Bool := (rinkKids die r).all fun k => (s.cluster k).launch.isNone

def entIn (k : Nat) (e : Ent) : Bool :=
  match e with
  | .lap k' _ _ | .ctx k' _ _ | .ce k' => k == k'
  | _ => false

/-- Removes the threads, contexts and control-core state of a cluster; the counts of R383 stay. -/
def State.clearCluster (s : State) (k : Nat) : State :=
  { s with
    harts := s.harts.filter fun h => !(entIn k h.1)
    ctxs := s.ctxs.filter fun c => c.1.1 != k
    ccs := s.ccs.map fun (c : (Nat × Nat) × CcState) =>
      if c.1.1 = k then (c.1, { CcState.zero with scyc := c.2.scyc, frz := c.2.frz }) else c
    escalated := s.escalated.filter fun x => entKid x.1 != some k }

/-- R30, R127, R202, R289, R305, R310, R321, R383: a cluster is freed: its cache's lines and registrations go, its inboxes are emptied and
the words of its links discarded. Its memories, registers, tiles, accumulators and counters stay as they are until the next launch sets
them (R28, R100). -/
def State.freeCluster (s : State) (k : Nat) : State :=
  let s := (List.range 4).foldl (fun (s : State) d =>
    let x := s.die d
    s.setDie d { x with regs := x.regs.filter fun r => r.2.kid ≠ k }) s
  let s := { s with
    cores := s.cores.map fun (x : (Nat × Nat) × LapCore) =>
      if x.1.1 = k then (x.1, { x.2 with inbox := [], north := .zero, east := .zero, south := .zero, west := .zero }) else x
    reqs := List.map (fun (r : Nat × Req) => if entIn k r.2.who then (r.1, { r.2 with who := .far s.node, gone := true }) else r)
      (List.filter (fun (r : Nat × Req) => !(entIn k r.2.who && r.2.early)) s.reqs)
    escalated := s.escalated.filter fun x => entKid x.1 != some k }
  s.setCluster k { s.cluster k with launch := none, cch := [] }

/-- R100, R105, R27: a lap thread as a launch places it; its trap registers are as after reset (DESIGN CHOICE, log 85). -/
def placedHart (m : Image) (img : Nat) (pkt task : List W64) (e : List Byte) : Hart :=
  let hs := [wd pkt 4, wd pkt 5, wd pkt 6, wd task 0, wd task 1, wd task 2, wd task 3, wd task 4]
  { Hart.zero with
    rot := .ready, pc := BitVec.ofNat 64 (img + m.lapOff + entEntry e), base := entBase e, size := byteAt e 6
    h := Vector.ofFn fun i : Fin 16 => hs.getD i.val 0 }

/-- R136: a context as a launch places it. -/
def placedCtx (a : Nat) : Ctx :=
  { Ctx.zero with pc := BitVec.ofNat 64 a, npc := BitVec.ofNat 64 (a + 64), nnpc := BitVec.ofNat 64 (a + 128), state := 1 }

/-- R29, R225: bytes of an image section copied to a physical place. -/
def copyBytesTo (s : State) (at_ n : Nat) (ws : List W64) : State :=
  let s := s.clear at_ n
  ((List.range ws.length).foldl (fun (s : State) i => s.wr (at_ + 8 * i) (min 8 (n - 8 * i)) (wd ws i).toNat) s)

/-- R27, R28, R202, R225, R258, R335, R378, R383: loads and starts one cluster of a launch. -/
def State.startCluster (s : State) (l : Launch) (pkt task bun dat : List W64) (p : Nat) : State :=
  let k := posKid l.die l.rinks p
  let m := l.img
  let img := (wd pkt 1).toNat
  let here := m.map.filter fun e => byteAt e 1 = p
  let mode := match here.find? fun e => byteAt e 0 = 4 with | some e => byteAt e 2 | none => 0
  let old := s.cluster k
  let s := s.clearCluster k
  let s := s.clear (cspBase k) (2 ^ 22)
  let s := { s with full := s.full.filter fun a => !(cspBase k ≤ a && a < cspBase k + 2 ^ 22) }
  let s := copyBytesTo s (cspBase k) m.datSize dat
  let s := [0, 1].foldl (fun (s : State) c => copyBytesTo s (bundleBase k c) m.bunSize bun) s
  let s := (List.range 32).foldl (fun (s : State) c => if mhas s.cores (k, c) then s.setCore k c .zero else s) s
  let engine := here.find? fun e => byteAt e 0 = 3
  let s := s.setCluster k { Cluster.zero with
    launch := some l.count, mumode := mode, cctd := old.cctd, psel := old.psel
    clsvec := if m.hasHandler then BitVec.ofNat 64 (img + m.lapOff + m.handler) else 0
    cldeleg := if m.hasHandler then m.deleg &&& 0x7FBE7FFE else 0
    ce := { Engine.zero with run := if engine.isSome then .placed else .idle, launch := some (l.die, l.count) } }
  let s := match engine with
    | some e => s.setHart (.ce k) { Hart.zero with
        rot := .ready, size := 128, pc := BitVec.ofNat 64 (img + m.engOff + entEntry e) }
    | none => s.setHart (.ce k) { Hart.zero with size := 128 }
  let s := (here.filter fun e => byteAt e 0 = 1).foldl (fun (s : State) e =>
    s.setHart (.lap k (byteAt e 2) (byteAt e 3)) (placedHart m img pkt task e)) s
  let cs := here.filter fun e => byteAt e 0 = 2
  let s := cs.foldl (fun (s : State) e => s.setCtx k (byteAt e 2) (byteAt e 3) (placedCtx (entEntry e))) s
  [0, 1].foldl (fun (s : State) c =>
    let first := ((List.range 4).find? fun x => cs.any fun e => byteAt e 2 = c ∧ byteAt e 3 = x).getD 0
    s.setCc k c { CcState.zero with issuing := first, loaded := m.bunSize }) s

/-- R313: the words of the set descriptor. -/
def setDescriptor (s : State) (l : Launch) : List W64 :=
  let n := 8 * l.rinks.length
  let w0 := BitVec.ofNat 64 (n + s.node * 2 ^ 8 + l.die * 2 ^ 16 + (l.restores % 256) * 2 ^ 24 + (l.count % 256) * 2 ^ 32)
  w0 :: (List.range ((n + 3) / 4)).map fun i =>
    BitVec.ofNat 64 ((List.range 4).foldl (fun a j => if 4 * i + j < n then a + posKid l.die l.rinks (4 * i + j) * 2 ^ (16 * j) else a) 0)

/-- How a write of the set descriptor goes (R313). -/
inductive DescRes where
  | ok (s : State)
  | absent (s : State)
  | fault (code addr : Nat) (s : State)

/-- R210, R313: writes the set descriptor under the launch's PASID; an absent page is asked for, and while the host has not
answered the hart waits. -/
def State.writeDesc (s : State) (l : Launch) : DescRes :=
  let a := (wd l.pkt 6).toNat
  let ws := setDescriptor s l
  if s.escalated.contains (.hart l.die, none) then .absent s
  else (List.range ws.length).foldl (fun r i =>
    match r with
    | .ok s =>
      match s.gwrite (.hart l.die) (some l.pasid) (a + 8 * i) (.store .b64 false (wd ws i)) with
      | .ok _ s => .ok s
      | .fault 0x06 s =>
        .absent { s with escalated := s.escalated ++ [(.hart l.die, none)]
                         outbox := s.outbox ++ [.pri l.pasid (pageOf (a + 8 * i))] }
      | .fault c s => .fault c (a + 8 * i) s
      | .wait s | .remote _ s => .absent s
    | r => r) (DescRes.ok s)

/-- R24, R99, R312, R313: a launch is refused: the queue enters error, the cause is logged, the record says refused. -/
def State.refuseLaunch (s : State) (q d : Nat) (p : List W64) (cause code : Nat) (addr detail : W64) : State :=
  let x := s.hq q
  (s.queueError q cause code addr detail).complete d x.pasid x.vec p 1 0

/-- R27 to R29, R97 to R99, R24: a launch packet taken from queue q, whose rinks are free. -/
def State.startLaunch (s : State) (q : Nat) (p : List W64) : State :=
  let x := s.hq q
  let d := x.die
  let img := (wd p 1).toNat
  let bad (s : State) (c a : Nat) : State := (s.consume q).refuseLaunch q d p 0x03 c (BitVec.ofNat 64 a) 0
  match s.hread d x.pasid img 8 with
  | .wait s => s
  | .fault c a s => bad s c a
  | .ok h s =>
    if !(headerOk h) then (s.consume q).refuseLaunch q d p 0x02 0 0 0
    else
    match s.hread d x.pasid (img + half (wd h 6) 0) (2 * half (wd h 6) 1) with
    | .wait s => s
    | .fault c a s => bad s c a
    | .ok mw s =>
      let ents := (List.range (half (wd h 6) 1)).map fun i => wordBytesOf (wd mw (2 * i)) ++ wordBytesOf (wd mw (2 * i + 1))
      let m := parseHeader h ents
      if !(mapOk m) then (s.consume q).refuseLaunch q d p 0x02 0 0 0
      else
      match placeCheck m d (pktRinks p) with
      | some c => (s.consume q).refuseLaunch q d p 0x01 0 0 (BitVec.ofNat 64 c)
      | none =>
        match s.hread d x.pasid (wd p 7).toNat 5 with
        | .wait s => s
        | .fault c a s => bad s c a
        | .ok task s =>
          match s.hread d x.pasid (img + m.bunOff) (m.bunSize / 8) with
          | .wait s => s
          | .fault c a s => bad s c a
          | .ok bun s =>
            match s.hread d x.pasid (img + m.datOff) ((m.datSize + 7) / 8) with
            | .wait s => s
            | .fault c a s => bad s c a
            | .ok dat s =>
              let n := (s.die d).launches + 1
              let l : Launch :=
                { count := n, die := d, queue := q, prio := x.prio, pasid := x.pasid, vec := x.vec, pkt := p, img := m, rinks := pktRinks p,
                  saved := none, kept := [], reCmds := [], restores := 0, faultEnd := none, stopping := false, badRinks := [] }
              match s.writeDesc l with
              | .absent s => s
              | .fault c a s => bad s c a
              | .ok s =>
                let s := s.consume q
                let s := s.setDie d { s.die d with launches := n, lastq := q }
                let s := { s with launches := s.launches ++ [l] }
                (List.range (8 * l.rinks.length)).foldl (fun (s : State) i => s.startCluster l p task bun dat i) s

/-! ### The end of a launch -/

def State.dropLaunch (s : State) (l : Launch) : State :=
  { s with launches := s.launches.filter fun x => !(x.die = l.die && x.count = l.count) }

/-- R297: every line of a cluster's cache that holds an allowance drains, and the allowance returns. -/
def State.drainCluster (s : State) (k : Nat) : State :=
  (s.cluster k).cch.foldl (fun (s : State) l =>
    match s.cchAt k l.pasid l.line with
    | some l => s.sendDrain (.ce k) k l true
    | none => s) s

/-- Whether a cluster has requests that must end before it can be freed or saved: all but those only its parked threads wait on. -/
def State.busyReqs (s : State) (k : Nat) : Bool :=
  s.reqs.any fun r => (entIn k r.2.who || (r.2.kid == k && r.2.phase == .write)) && r.2.phase != .held

/-- The name of a launch in an engine's records. -/
def Launch.key (l : Launch) : Option (Nat × Nat) := some (l.die, l.count)

/-- R30, R214, R410: whether a routing-engine run of a launch is under way. -/
def State.reBusyRun (s : State) (l : Launch) : Bool :=
  (List.range 4).any fun d => (s.die d).re.run != .idle && (s.die d).re.launch == l.key

/-- Whether a routing-engine command of a launch is queued or running (R30, R410). -/
def State.reBusy (s : State) (l : Launch) : Bool :=
  s.reBusyRun l || (List.range 4).any fun d => (s.die d).re.queue.any fun c => c.launch = l.key

/-- The commands of a launch leave the queue of a die's routing engine. -/
def State.dropCmds (s : State) (l : Launch) (d : Nat) : State :=
  let x := s.die d
  s.setDie d { x with re := { x.re with queue := x.re.queue.filter fun c => c.launch ≠ l.key } }

/-- R30: a launch has finished on a cluster. -/
def State.clusterDone (s : State) (k : Nat) : Bool :=
  (s.harts.all fun h => !(entIn k h.1) || (h.2.rot == .halted && !(s.gathersOut h.1)))
    && (s.ctxs.all fun c => c.1.1 != k || c.2.state == 0 || (c.2.state == 4 && c.2.sbuf.isEmpty))
    && ((s.cluster k).ce.queue.isEmpty) && (s.cluster k).ce.run == .idle
    && (s.ccs.all fun c => c.1.1 != k || (c.2.jobs.isEmpty && c.2.queue.isEmpty && c.2.run.isNone && c.2.pending.isEmpty))

/-- R30, R287: the largest visibility horizon of a set of clusters. -/
def State.horizonOf (s : State) (ks : List Nat) : Nat :=
  let a := ks.foldl (fun (m : Nat) k => max m (s.cluster k).horizon) 0
  let b := s.harts.foldl (fun (m : Nat) h => if ks.any (entIn · h.1) then max m h.2.horizon else m) a
  s.ctxs.foldl (fun (m : Nat) c => if ks.contains c.1.1 then max m c.2.horizon else m) b

/-- R30, R297, R307: whether a launch may finish now: done everywhere or killed, with nothing of it on its way. -/
def State.canFinish (s : State) (l : Launch) : Bool :=
  (l.saved.isNone || l.killed)
    && (l.saved.isSome || l.kids.all fun k => (l.killed || s.clusterDone k) && !(s.busyReqs k)) && !(s.reBusy l)

/-- R307, R310: the status of a launch that ends. -/
def Launch.status (l : Launch) : Nat := if l.killed then 2 else if l.faultEnd.isSome then 3 else 0

/-- R30, R297, R310: a launch that has finished ends: drains first, then the record, then its clusters are free. -/
def State.finishLaunch (s : State) (l : Launch) : State :=
  let ks := if l.saved.isSome then [] else l.kids
  if s.canFinish l then
    if ks.any fun k => (s.cluster k).cch.any fun c => c.allow.isSome then ks.foldl State.drainCluster s
    else if s.pt < s.horizonOf ks then s
    else if pktSys l.pkt ∧ (s.snoops.any fun x => match x.2 with | some k => ks.contains k | none => false) then s
    else
      let s := s.complete l.die l.pasid l.vec l.pkt l.status (if l.killed then 0 else l.faultEnd.getD 0)
      (ks.foldl State.freeCluster s).dropLaunch l
  else s

/-- R307: a thread or engine of a killed launch ends. -/
def Hart.ended (h : Hart) : Hart :=
  { Hart.settled h with rot := .halted, pend := none, dq := [], aq := [], early := [], slot := none }

/-- R307: a context of a killed launch ends. -/
def Ctx.ended (t : Ctx) : Ctx :=
  { t with state := if t.state = 0 then 0 else 4, wait := 0, sbuf := [], seals := [], cpgos := [], job := none, replay := [], fall := none }

/-- R307: the entities of a cluster end. -/
def State.endKid (s : State) (k : Nat) : State :=
  let s := { s with
    harts := s.harts.map fun (h : Ent × Hart) => if entIn k h.1 then (h.1, h.2.ended) else h
    ctxs := s.ctxs.map fun (c : (Nat × Nat × Nat) × Ctx) => if c.1.1 = k then (c.1, c.2.ended) else c
    ccs := s.ccs.map fun (c : (Nat × Nat) × CcState) =>
      if c.1.1 = k then (c.1, { c.2 with jobs := [], queue := [], freeze := 0, stepWait := false, pre := none, ldNeed := none, ldAge := none })
      else c
    escalated := s.escalated.filter fun x => entKid x.1 != some k }
  let c := s.cluster k
  s.setCluster k { c with ce := { c.ce with queue := [], run := .idle, progress := none, pass := none } }

/-- R31: a request that waits at a controller, at a hart or at its sender, as told. -/
def Req.standing (r : Req) : Bool := r.phase == .held || r.phase == .retry || r.phase == .resend

/-- R127, R307: whether a request of an entity that ends still completes: a posted one, and a write or message that is on its way. -/
def Req.completes (r : Req) : Bool :=
  r.posted || (!r.standing && (r.op.isWrite || (match r.op with | .msg _ _ | .reply _ _ => true | _ => false)))

/-- The launches keep no request that is no longer there. -/
def State.trimKept (s : State) : State :=
  { s with launches := s.launches.map fun l => { l with kept := l.kept.filter (mhas s.reqs ·), own := l.own.filter (mhas s.reqs ·) } }

/-- R12: the cluster of a launch's set position after a move to other rinks; another cluster stays. -/
def Launch.moveKid (l : Launch) (rk : List Nat) (k : Nat) : Nat :=
  match l.posOf k with | some p => posKid l.die rk p | none => k

/-- R230, R322: traffic kept for a launch goes on its way to where the launch now is: the destination of a message names the
cluster in bits 13–5, a reply's call header the caller's in bits 18–10 (R320). -/
def Launch.moveReq (l : Launch) (rk : List Nat) (clk : Nat) (r : Req) : Req :=
  let field (lo : Nat) : W64 :=
    (r.dest &&& ~~~(0x1FF#64 <<< lo)) ||| (BitVec.ofNat 64 (l.moveKid rk (r.dest.toNat / 2 ^ lo % 2 ^ 9)) <<< lo)
  let r := { r with kid := l.moveKid rk r.kid, due := clk }
  match r.op with
  | .msg _ _ => { r with phase := .message, dest := field 5 }
  | .reply _ _ => { r with phase := .replying, dest := field 10 }
  | _ => { r with phase := .fabric }

/-- R230: the traffic kept for a launch goes on, in its order; rk are the rinks the launch is on now. -/
def State.sendKept (s : State) (l : Launch) (rk : List Nat) : State :=
  l.kept.foldl (fun (s : State) id =>
    match mfind s.reqs id with
    | none => s
    | some r => s.setReq id (l.moveReq rk s.clk r)) s

/-- R30, R307, R310: a launch is killed: its entities end, its routing-engine commands are dropped, traffic kept for it is let go to be
refused. The completion record and the freeing of its clusters follow as for a launch that has finished (LAUNCH_FINISH), once a
routing-engine run of it has come to its next instruction boundary (ENGINE_RUN_END). -/
def State.killLaunch (s : State) (l : Launch) : State :=
  let s := (List.range 4).foldl (fun (s : State) d => s.dropCmds l d) s
  let ks := if l.saved.isSome then [] else l.kids
  let s := { s with reqs := s.reqs.filter fun r =>
    !((ks.any (entIn · r.2.who)) && !r.2.completes) && !(l.own.contains r.1) }
  let s := (ks.foldl State.endKid s).sendKept l l.rinks
  (s.setLaunch { l with killed := true, stopping := false, kept := [], own := [], reCmds := [], farCmds := [] }).trimKept

/-! ### Pre-emption and restore (R214 to R220) -/

/-- R214, R230, R245, R321: whether an entity has sent something that now stands: told to retry, or kept for a saved launch. -/
def State.stands (s : State) (e : Ent) : Bool := s.reqs.any fun r => decide (r.2.who = e) && !r.2.early && r.2.standing

/-- R214, R230: whether a gather cannot land before a saved launch is restored. -/
def State.gatherStuck (s : State) (e : Ent) (g : Gath) : Bool := s.atHart e g.addr || (s.stands e && s.postedBefore e g.no g.addr)

/-- R213, R214, R327: whether a thread has come to its boundary: no answer is outstanding but one that comes only after the save, of a
matrix job, of a wait for idle control cores or of what stands, and its gathers have landed. -/
def State.atBoundary (s : State) (e : Ent) (h : Hart) : Bool :=
  (h.rot != .out || s.stands e
      || (match h.pend with | some p => (match p.act with | .job | .mumode _ _ => true | _ => false) | none => false))
    && (match h.aq with | (g, _) :: _ => h.dq.length == 8 || s.gatherStuck e g | [] => true)
    && h.dq.all fun x => match x with | .flying g _ => s.gatherStuck e g | _ => true

/-- R337: whether the rest of a store buffer's oldest entry is kicks that wait for room in a queue. -/
def State.kicksWait (s : State) (k : Nat) (l : List StEnt) : Bool :=
  match l with
  | e :: _ => e.need.isEmpty && (match e.elems with
    | p :: _ => (match kickOf k p.1 with | some g => decide (8 ≤ s.kickCount g) | none => false)
    | [] => false)
  | [] => true

/-- R214: whether requests of a cluster are on their way that must end before it can be saved. -/
def State.sending (s : State) (k : Nat) : Bool :=
  s.reqs.any fun r => (entIn k r.2.who && !r.2.standing) || (r.2.kid == k && r.2.phase == .write)

/-- R214: whether every entity of a cluster has come to its boundary. -/
def State.quiet (s : State) (k : Nat) : Bool :=
  (s.harts.all fun h => !(entIn k h.1) || s.atBoundary h.1 h.2)
    && (s.ccs.all fun c => c.1.1 != k || (c.2.run.isNone && c.2.freeze == 0))
    && (s.ctxs.all fun c => c.1.1 != k || s.kicksWait k c.2.sbuf)
    && !(s.sending k)

/-- R151, R218: the writes pending on a control core land and its replay record is taken; traps that waited for them are entered. -/
def State.landAll (s : State) (k cc : Nat) : State :=
  let s := s.replayResumed k cc
  let rp := s.replayOf k cc none
  let ps := (s.cc k cc).pending
  let far := ps.foldl (fun m p => max m p.left) 0
  let ordered := (List.range (far + 1)).flatMap fun n => ps.filter fun p => p.left = n
  let s := ordered.foldl (fun (s : State) p => s.landWrite k cc p) s
  let c := s.cc k cc
  let s := s.setCc k cc { c with pending := [], overlay := c.overlay ++ rp }
  (List.range 4).foldl (fun (s : State) x =>
    match (s.ctx k cc x).fall with | some f => s.enterTrap k cc x f | none => s) s

/-- R151, R218: whether a control core that stands still has anything left to land. -/
def State.unlanded (s : State) (k cc : Nat) : Bool :=
  !(s.cc k cc).pending.isEmpty || (List.range 4).any fun x =>
    (s.ctx k cc x).fall.isSome || ((s.ctx k cc x).ready && !(s.ctx k cc x).replay.isEmpty)

/-- R214, R215: what the save area of each set position of a launch gets, and the records that stay with the launch. -/
def State.saveKids (s : State) (l : Launch) (cmds : List EngCmd) : List SavedCluster × State :=
  (List.range l.kids.length).foldl (fun (r : List SavedCluster × State) p =>
    let k := l.kids.getD p 0
    (r.1 ++ [r.2.savedRecords k p],
     r.2.saveArea (saveBase l.die l.count p) k p (l.count % 256) (if p = 0 then cmds else []))) ([], s)

/-- R230: requests kept by a hart, or left standing at a save, stay where they are. -/
def State.isKept (s : State) (id : Nat) : Bool := s.launches.any fun l => l.kept.contains id || l.own.contains id

/-- R230, R245: the accesses a saved cluster's controllers hold are kept, up to 4,096 items of the launch; the others are told to
retry. -/
def State.keepHeld (s : State) (l : Launch) : List Nat × State :=
  let held := (s.reqs.filter fun r =>
    r.2.phase == .held && l.kids.contains r.2.kid && !(l.kids.any (entIn · r.2.who)) && !(s.isKept r.1)).map (·.1)
  let n := 4096 - l.kept.length
  (held.take n, (held.drop n).foldl (fun (s : State) id =>
    match mfind s.reqs id with
    | some r => s.setReq id { r with phase := .retry, due := s.clk + 16 }
    | none => s) s)

/-- R214, R216, R230: at a save the accesses of parked threads go, since these reissue, and accesses that saved clusters' harts have still to
execute for its entities; what else stands stays with the launch and is sent again at its restore (log 10). -/
def State.saveOwn (s : State) (l : Launch) : List Nat × State :=
  let mine (e : Ent) : Bool := l.kids.any (entIn · e)
  let goes (r : Req) : Bool := mine r.who && (r.early || (!r.posted && (s.hart r.who).rot == .parked))
  let own : List Nat := (s.reqs.filter fun r => mine r.2.who && !(goes r.2)).map (·.1)
  (own, { s with
    reqs := List.map (fun (r : Nat × Req) => if own.contains r.1 then (r.1, { r.2 with phase := .held }) else r)
      (List.filter (fun (r : Nat × Req) => !(goes r.2)) s.reqs)
    harts := s.harts.map fun (h : Ent × Hart) =>
      if mine h.1 then (h.1, { h.2 with early := h.2.early.filter fun (x : Early) => x.ans.isSome }) else h
    launches := s.launches.map fun (m : Launch) => { m with kept := m.kept.filter fun id => !(own.contains id) } }.trimKept)

/-- R214, R410: a launch's queued commands leave the routing engines: those of its own die, and those of the others with their dies. -/
def State.takeCmds (s : State) (l : Launch) : List EngCmd × List (Nat × EngCmd) × State :=
  let mine (d : Nat) : List EngCmd := (s.die d).re.queue.filter fun c => c.launch = l.key
  (mine l.die, ((List.range 4).filter (· ≠ l.die)).flatMap fun d => (mine d).map fun c => (d, c),
    (List.range 4).foldl (fun (s : State) d => s.dropCmds l d) s)

/-- R214: saves a launch whose clusters are quiet, landed, drained and visible; before that it only sends the drains. -/
def State.saveLaunch (s : State) (l : Launch) : State :=
  if l.saved.isSome then s
  else if !l.stopping then s.setLaunch { l with stopping := true }
  else if !(l.kids.all s.quiet) then s
  else if s.reBusyRun l then s
  else if l.kids.any fun k => s.unlanded k 0 || s.unlanded k 1 then
    l.kids.foldl (fun (s : State) k => (s.landAll k 0).landAll k 1) s
  else if l.kids.any fun k => (s.cluster k).cch.any fun c => c.allow.isSome then l.kids.foldl State.drainCluster s
  else if s.pt < s.horizonOf l.kids then s
  else
    let m := s.takeCmds l
    let h := m.2.2.keepHeld l
    let o := h.2.saveOwn l
    let r := o.2.saveKids l m.1
    let s := r.2.setLaunch { l with
      saved := some r.1, stopping := false, kept := l.kept ++ h.1, own := o.1, reCmds := m.1, farCmds := m.2.1 }
    l.kids.foldl (fun (s : State) k => (s.clearCluster k).freeCluster k) s

/-- R221, R326: an issuer tag of a launch after its move to other rinks. -/
def Launch.moveTag (l : Launch) (rk : List Nat) (t : W64) : W64 :=
  if t.toNat / 2 ^ 18 % 256 = l.count % 256 then
    (t &&& ~~~0x1FF#64) ||| BitVec.ofNat 64 (l.moveKid rk (t.toNat % 2 ^ 9))
  else t

/-- R219: a saved cluster is written into the cluster that its set position has on these rinks. -/
def State.putSaved (s : State) (l : Launch) (rk : List Nat) (c : SavedCluster) (bun : List W64) : State :=
  let k := posKid l.die rk c.pos
  let s := s.clearCluster k
  let s := [0, 1].foldl (fun (s : State) n => copyBytesTo s (bundleBase k n) l.img.bunSize bun) s
  s.loadArea (saveBase l.die l.count c.pos) (posKid l.die l.rinks c.pos) k l.img.bunSize c (l.moveTag rk)

/-- R220: whether every saved window ends within the LCAP of its target core on these rinks. -/
def State.windowsFit (s : State) (l : Launch) (rk : List Nat) : Bool :=
  (List.range (8 * l.rinks.length)).all fun p => (List.range 32).all fun c => (List.range 16).all fun t =>
    let r := s.threadRec (s.corePart (saveBase l.die l.count p) c) t
    decide (s.rd (r + 0x10) 2 + s.rd (r + 0x12) 1 ≤ Config.lcap (posKid l.die rk p) c)

/-- Every set of n rinks out of a list, in ascending order. -/
def rinkSets : Nat → List Nat → List (List Nat)
  | 0, _ => [[]]
  | _ + 1, [] => []
  | n + 1, r :: t => (rinkSets n t).map (r :: ·) ++ rinkSets (n + 1) t

/-- R26, R220: the rinks a saved launch can take now: its own when they are free, else, of a relocatable one, the first set of free
rinks in ascending order that it has not been found not to fit (DESIGN CHOICE, log 68: the spec leaves the choice to the hart). Some
rinks are not to be had. -/
def State.restoreRinks (s : State) (l : Launch) (but : List Nat) : Option (List Nat) :=
  let free := (List.range 16).filter fun r => s.rinkFree l.die r && !(but.contains r)
  if l.rinks.all free.contains ∧ !(l.badRinks.contains l.rinks) then some l.rinks
  else if l.img.reloc then (rinkSets l.rinks.length free).find? fun r => !(l.badRinks.contains r)
  else none

/-- R214, R215: the routing-engine commands saved with a launch, their tags moved. -/
def State.savedCmds (s : State) (l : Launch) (rk : List Nat) : List EngCmd :=
  let a := saveBase l.die l.count 0
  (List.range (s.rd (a + 0x120) 1)).filterMap fun i =>
    l.reCmds[i]?.map fun c => { c with
      word := c.word.map fun _ => s.rd64 (a + 0x128 + 16 * i)
      tag := l.moveTag rk (s.rd64 (a + 0x130 + 16 * i)), kid := l.moveKid rk c.kid }

/-- R12: an entity of a launch after its move to other rinks. -/
def Launch.moveEnt (l : Launch) (rk : List Nat) : Ent → Ent
  | .lap k c t => .lap (l.moveKid rk k) c t
  | .ctx k c x => .ctx (l.moveKid rk k) c x
  | .ce k => .ce (l.moveKid rk k)
  | e => e

/-- R214, R230: what stood at the save is sent again for its entities. -/
def State.sendOwn (s : State) (l : Launch) (rk : List Nat) : State :=
  l.own.foldl (fun (s : State) id =>
    match mfind s.reqs id with
    | none => s
    | some r => s.setReq id { l.moveReq rk (s.clk + 1) r with who := l.moveEnt rk r.who }) s

/-- R214, R219: the routing-engine commands saved with a launch are queued again. -/
def State.queueSaved (s : State) (l : Launch) (rk : List Nat) : State :=
  let put (s : State) (d : Nat) (cs : List EngCmd) : State :=
    let x := s.die d
    s.setDie d { x with re := { x.re with queue := x.re.queue ++ cs } }
  l.farCmds.foldl (fun (s : State) c => put s c.1 [{ c.2 with tag := l.moveTag rk c.2.tag, kid := l.moveKid rk c.2.kid }])
    (put s l.die (s.savedCmds l rk))

/-- R219, R220, R230, R26, R29, R313: restores a saved launch on free rinks. A fault of the hart's write of the set descriptor
is logged with cause 0x03 and leaves the launch saved; one of its read of the bundle code does the same (log 93), and the restore is tried
again in the next lap. -/
def State.restoreLaunch (s : State) (l : Launch) (rk : List Nat) : State :=
  match l.saved with
  | some cs =>
    if !(s.windowsFit l rk) then
      (s.setLaunch { l with badRinks := l.badRinks ++ [rk] }).logErr l.die 0x09 0x16 (l.die * 128) 34 0 0 0
    else
      let fail (s : State) (c a : Nat) : State := s.logErr l.die 0x03 c (l.die * 128) 34 0 (BitVec.ofNat 64 a) 0
      match s.hread l.die l.pasid ((wd l.pkt 1).toNat + l.img.bunOff) (l.img.bunSize / 8) with
      | .wait s => s
      | .fault c a s => fail s c a
      | .ok bun s =>
        let l' := { l with
          rinks := rk, saved := none, restores := l.restores + 1, kept := [], own := [], reCmds := [], farCmds := [] }
        match s.writeDesc l' with
        | .absent s => s
        | .fault c a s => fail s c a
        | .ok s =>
          let s := cs.foldl (fun (s : State) c => s.putSaved l rk c bun) (s.setLaunch l')
          ((s.queueSaved l rk).sendOwn l rk).sendKept l rk
  | none => s

end Sys2Proof.Machine
end

