-- ==== Sys2Proof/Machine/Mmio.lean ====
section
/-! DEFINITION. Engine and MMIO space: every block of R231, read and written; queue commands (R307), translation commands (R240). -/

namespace Sys2Proof.Machine

/-! ### Translation commands (R240) -/

/-- Whether a page lies in a range of n pages. -/
def inRange (base n va : Nat) : Bool := decide (pageOf base ≤ va) && decide (va < pageOf base + 4096 * n)

/-- R240: whether a table entry a station holds selects an address of a range of n pages. -/
def entryInRange (base n : Nat) (key : Nat × Nat × Nat × Nat) : Bool :=
  let span := 2 ^ (12 + 9 * key.2.2.1)
  decide (key.2.2.2 * span < pageOf base + 4096 * n) && decide (pageOf base < (key.2.2.2 + 1) * span)

/-- R240: removes the leaves and table entries of a range from every station and the lines of every cluster cache; it completes once
the requests translated under one of them have been answered. -/
def State.invalidate (s : State) (pasid base n : Nat) : State :=
  let waits := (s.reqs.filter fun r =>
    r.2.pasid == some pasid && inRange base n r.2.addr.toNat &&
      (match r.2.phase with
        | .home | .write | .tolerant | .held | .retry => true
        | _ => false)).map (·.1)
  let s := { s with
    leaves := s.leaves.filter fun l => !(l.1.2.1 == pasid && inRange base n l.1.2.2)
    tables := s.tables.filter fun t => !(t.1.2.1 == pasid && entryInRange base n t.1) }
  let s := s.clusters.foldl (fun (s : State) c =>
    (c.2.cch.filter fun l => l.pasid == pasid && inRange base n l.line).foldl (fun (s : State) l => s.evictLine c.1 l) s) s
  let old := match s.tinval with | some l => l | none => []
  { s with tstatus := 0, tinval := some (old ++ waits) }

/-! ### Work queues (R306, R307, R308) -/

/-- R308: a tail write; one that overruns the ring puts the queue in error. -/
def State.writeTail (s : State) (q : Nat) (v : W64) : State :=
  let x := { s.hq q with tail := v.setWidth 32 }
  let s := s.setHq q x
  if x.pending > 2 ^ x.lsz then s.queueError q 0x0D 0 0 0 else s

/-- R401: queues may be enabled only at stage 5 or 7. -/
def State.enableQueue (s : State) (q : Nat) : State :=
  let x := s.hq q
  if (s.bootStage = 5 ∨ s.bootStage = 7) ∧ (x.state = 0 ∨ x.state = 2) then
    if 4 ≤ x.lsz ∧ x.lsz ≤ 12 then s.setHq q { x with state := 1 } else s.queueError q 0x0D 0 0 0
  else s

def State.stopQueue (s : State) (q : Nat) : State :=
  let x := s.hq q
  if x.state = 1 then s.setHq q { x with state := 2 } else s

def State.destroyQueue (s : State) (q : Nat) : State :=
  let x := s.hq q
  s.setHq q { x with state := 0, head := x.tail }

def State.killQueue (s : State) (q : Nat) : State :=
  let s := s.destroyQueue q
  (s.launches.filter fun l => l.queue = q).foldl (fun (s : State) l =>
    match s.launch l.die l.count with
    | some l => s.killLaunch l
    | none => s) s

def State.clearQueue (s : State) (q : Nat) : State :=
  let x := s.hq q
  if x.state = 3 then s.setHq q { x with state := 2, cause := 0 } else s

/-- R401, R403: the first write of QCMD at stage 7 moves the stage to 5, and is executed as at stage 5. -/
def State.leaveStage7 (s : State) : State := if s.bootStage = 7 then { s with bootStage := 5 } else s

/-- R307: a write of QCMD. -/
def State.queueCommand (s : State) (q : Nat) (v : W64) : State :=
  let s := s.leaveStage7
  match v.toNat % 256 with
  | 1 => s.enableQueue q
  | 2 => s.stopQueue q
  | 3 => s.destroyQueue q
  | 4 => s.killQueue q
  | 5 => s.clearQueue q
  | _ => s

/-- R306: a register of a queue's block. -/
def State.queueReg (s : State) (q o : Nat) : W64 :=
  let x := s.hq q
  match o with
  | 0x00 => x.base
  | 0x08 => x.cfg
  | 0x10 => x.head.setWidth 64
  | 0x18 => x.tail.setWidth 64
  | 0x20 => BitVec.ofNat 64 (x.state + x.cause * 2 ^ 8)
  | _ => 0

def State.setQueueReg (s : State) (q o : Nat) (v : W64) : State :=
  let x := s.hq q
  match o with
  | 0x00 => if x.state = 0 then s.setHq q { x with base := v &&& 0x00FFFFFFFFFFFFC0 } else s
  | 0x08 => if x.state = 0 then s.setHq q { x with cfg := v &&& 0x000000FFFFFFFFFF } else s
  | 0x18 => s.writeTail q v
  | 0x28 => s.queueCommand q v
  | _ => s

/-! ### Clusters -/

/-- R231: a lap thread's registers. -/
def threadReg (h : Hart) (o : Nat) : W64 :=
  match o with
  | 0x08 => h.tr.cause
  | 0x10 => h.tr.epc
  | 0x18 => h.tr.addr
  | 0x20 => h.flg
  | o => if 0x40 ≤ o then headWord h ((o - 0x40) / 8) else 0

/-- R172: ACCST as it reads: busy while a queued or running step names the accumulator. -/
def CcState.accSt (c : CcState) (a : Nat) : W64 :=
  let busy := c.queue.any (fun q => q.acc = a) || (match c.run with | some r => r.acc == a | none => false)
  (c.acc.getD a .zero).st ||| (if busy then 1#64 <<< 46 else 0)

/-- R231, R171: an accumulator's registers. -/
def CcState.accReg (c : CcState) (a o : Nat) : W64 :=
  let x := c.acc.getD a .zero
  let pair (l : List W32) (j : Nat) : W64 := l.getD (2 * j + 1) 0 ++ l.getD (2 * j) 0
  match o with
  | 0x00 => c.accSt a
  | 0x08 => x.th
  | 0x10 => x.row
  | 0x18 => x.col
  | o =>
    if 0x100 ≤ o ∧ o < 0x200 then pair x.raise ((o - 0x100) / 8)
    else if 0x200 ≤ o ∧ o < 0x300 then pair x.snap ((o - 0x200) / 8)
    else 0

/-- R383: the counter block. -/
def State.counterReg (s : State) (k o : Nat) : W64 :=
  let c := s.cluster k
  if o < 0x100 then
    let x := s.core k (o / 8)
    BitVec.ofNat 64 (x.thr + (if x.wen then 2 ^ 24 else 0))
  else if o = 0x100 then (s.cc k 0).scyc
  else if o = 0x108 then (s.cc k 1).scyc
  else if o = 0x110 then (s.cc k 0).frz
  else if o = 0x118 then (s.cc k 1).frz
  else if o = 0x200 then c.psel
  else if 0x208 ≤ o ∧ o < 0x248 then (c.pmc.getD ((o - 0x208) / 8) 0).setWidth 64
  else 0

def State.setCounterReg (s : State) (k o : Nat) (v : W64) : State :=
  let c := s.cluster k
  if o < 0x100 then
    let x := s.core k (o / 8)
    s.setCore k (o / 8) { x with thr := v.toNat % 2 ^ 24, wen := v.getLsbD 24 }
  else if o = 0x200 then s.setCluster k { c with psel := v }
  else if 0x208 ≤ o ∧ o < 0x248 then
    s.setCluster k { c with pmc := c.pmc.mapIdx fun j x => if j = (o - 0x208) / 8 then v.setWidth 48 else x }
  else s

/-- R231: a cluster's block. -/
def State.clusterMmio (s : State) (k o : Nat) : W64 :=
  if 8 * 0x200 ≤ o ∧ o ≤ 8 * 0x247 then s.clusterReg k (o / 8)
  else if 0x100000 ≤ o ∧ o < 0x120000 then
    let p := o - 0x100000
    if p % 0x1000 < 0x800 then threadReg (s.hart (.lap k (p / 0x1000) (p % 0x1000 / 0x80))) (p % 0x80) else 0
  else if 0x200000 ≤ o ∧ o < 0x200100 then BitVec.ofNat 64 (Config.lcap k ((o - 0x200000) / 8))
  else if 0x400000 ≤ o ∧ o < 0x401000 then s.tileWord k ((o - 0x400000) / 16) (o % 16 / 8)
  else if 0x500000 ≤ o ∧ o < 0x500248 then s.counterReg k (o - 0x500000)
  else if 0x600000 ≤ o ∧ o < 0x602000 then
    let p := o - 0x600000
    (s.cc k (p / 0x1000)).accReg (p % 0x1000 / 0x400) (p % 0x400)
  else 0

/-- R231: a write in a cluster's block. Of a lap thread's registers only its command word takes one (DEDUCED, log 88). -/
def State.setClusterMmio (s : State) (k o level : Nat) (v : W64) : State :=
  if 8 * 0x200 ≤ o ∧ o ≤ 8 * 0x247 then s.setClusterReg k (o / 8) level v
  else if 0x100000 ≤ o ∧ o < 0x120000 then
    let p := o - 0x100000
    if p % 0x1000 < 0x800 ∧ p % 0x80 = 0 then s.threadCommand (.lap k (p / 0x1000) (p % 0x1000 / 0x80)) v else s
  else if 0x500000 ≤ o ∧ o < 0x500248 then s.setCounterReg k (o - 0x500000) v
  else if 0x600000 ≤ o ∧ o < 0x602000 ∧ o % 0x400 = 0 then
    let p := o - 0x600000
    let c := s.cc k (p / 0x1000)
    let a := p % 0x1000 / 0x400
    let x := c.acc.getD a .zero
    -- R172: the flags are W1C
    let clr : W64 := v &&& (0x1F#64 <<< 40)
    s.setCc k (p / 0x1000) { c with acc := c.acc.mapIdx fun j y => if j = a then { x with st := x.st &&& ~~~clr } else y }
  else s

/-! ### The H-die -/

/-- R314: the error-log queue of a die. Of the word at 0x2000 head is bits 31–0 and tail bits 63–32 (log 26). -/
def State.logReg (s : State) (d o : Nat) : W64 :=
  let x := s.die d
  if o < 0x2000 then
    let l := mget x.log { w0 := 0, w1 := 0, w2 := 0, w3 := 0 } (o / 32)
    match o % 32 / 8 with
    | 0 => l.w0
    | 1 => l.w1
    | 2 => l.w2
    | _ => l.w3
  else if o = 0x2000 then x.logTail ++ x.logHead
  else if o = 0x2008 then x.dropped
  else 0

/-- R6, R314: head, in bits 31–0 (log 26), is written as it stands, tail is left; the count is W1C. -/
def State.setLogReg (s : State) (d o : Nat) (v : W64) : State :=
  let x := s.die d
  if o = 0x2000 then s.setDie d { x with logHead := v.setWidth 32 }
  else if o = 0x2008 then s.setDie d { x with dropped := x.dropped &&& ~~~v }
  else s

/-- R231: the H-die's block. -/
def State.hdieReg (s : State) (o : Nat) : W64 :=
  match o with
  | 0x00 => BitVec.ofNat 64 s.node
  | 0x08 => BitVec.ofNat 64 s.lease
  | 0x10 => BitVec.ofNat 64 s.bootStage
  | 0x18 => BitVec.ofNat 64 (s.powerCap + s.mhz * 2 ^ 12 + s.thr * 2 ^ 24)
  | 0x20 => s.pasidBase
  | 0x28 => s.evvec
  | 0x1000000 => s.tcmd
  | 0x1000008 => s.tbase
  | 0x1000010 => s.tpages
  | 0x1000018 => s.tstatus
  | o =>
    if 0x30 ≤ o ∧ o < 0x50 then (s.die ((o - 0x30) / 8)).corrected
    else if 0x2000000 ≤ o ∧ o < 0x2040000 then s.queueReg ((o - 0x2000000) / 0x40) (o % 0x40)
    else if 0x3000000 ≤ o ∧ o < 0x3010000 then s.logReg ((o - 0x3000000) / 0x4000) (o % 0x4000)
    else if 0x4000000 ≤ o ∧ o < 0x4004000 ∧ o % 0x1000 < 0x400 then
      match mfind (s.die ((o - 0x4000000) / 0x1000)).regions (o % 0x1000 / 16) with
      | some r => if o % 16 = 0 then r.1 else r.2
      | none => 0
    else if 0x5000000 ≤ o ∧ o < 0x5000C00 ∧ o % 0x100 = 0 then
      let n := (o - 0x5000000) / 0x100
      let p := s.port n
      p.status ||| BitVec.ofNat 64 ((if p.up then 1 else 0) + p.peer * 2)
    else if 0x5100000 ≤ o ∧ o < 0x5100800 then mget s.routes 0 ((o - 0x5100000) / 8)
    else if 0x5200000 ≤ o ∧ o < 0x5200010 then mget s.fars 0 ((o - 0x5200000) / 8)
    else 0

/-- R382: a lease length from now on. -/
def State.setLease (s : State) (v : W64) : State :=
  let n := v.toNat % 2 ^ 11
  if 100 ≤ n ∧ n ≤ 2000 then { s with lease := n, leases := (s.pt, n) :: s.leases } else s

/-- R231: a write of the H-die's block at a level: 1 is the supervisor and the host, 2 the firmware. -/
def State.setHdieReg (s : State) (o level : Nat) (v : W64) : State :=
  match o with
  | 0x08 => s.setLease v
  | 0x18 =>
    let w := v.toNat % 2 ^ 12
    if 1000 ≤ w ∧ w ≤ 2400 then { s with powerCap := w } else s
  | 0x20 => if level ≥ 2 then { s with pasidBase := v &&& 0x000FFFFFFFFFF000 } else s
  | 0x28 => { s with evvec := v &&& 0xFFF }
  | 0x1000000 =>
    let s := { s with tcmd := v &&& 0xFFFFF }
    s.invalidate (v.toNat % 2 ^ 20) s.tbase.toNat s.tpages.toNat
  | 0x1000008 => { s with tbase := v }
  | 0x1000010 => { s with tpages := v }
  | o =>
    if 0x2000000 ≤ o ∧ o < 0x2040000 then s.setQueueReg ((o - 0x2000000) / 0x40) (o % 0x40) v
    else if 0x3000000 ≤ o ∧ o < 0x3010000 then s.setLogReg ((o - 0x3000000) / 0x4000) (o % 0x4000) v
    else if 0x5100000 ≤ o ∧ o < 0x5100800 then
      (if level ≥ 2 then { s with routes := mput s.routes ((o - 0x5100000) / 8) (v &&& 0x1F) } else s)
    else s

/-! ### Accesses -/

/-- R231: an aligned 8-byte read at an offset of MMIO space. -/
def State.mmioGet (s : State) (off : Nat) : W64 :=
  let u := off / 2 ^ 33
  if u < 4 then s.clusterMmio (u * 128 + off / 2 ^ 26 % 128) (off % 2 ^ 26) else s.hdieReg (off % 2 ^ 27)

def State.mmioSet (s : State) (off level : Nat) (v : W64) : State :=
  let u := off / 2 ^ 33
  if u < 4 then s.setClusterMmio (u * 128 + off / 2 ^ 26 % 128) (off % 2 ^ 26) level v
  else s.setHdieReg (off % 2 ^ 27) level v

end Sys2Proof.Machine
end

