-- ==== Sys2Proof/Machine/Memory.lean ====
section
/-! DEFINITION. The access instructions of the lap set (R227 to R230, R241, R243 to R254). -/

namespace Sys2Proof.Machine

/-! ### The parts of an access -/

/-- How an access stands to its issuer. -/
structure Access where
  kind : AccKind
  op : AccOp
  ea : W64
  /-- where the value it answers with goes -/
  dst : Option LSpec
  /-- plain b64, for MMIO (R228) -/
  plainB64 : Bool
  /-- nobody waits for its answer (R241) -/
  posted : Bool
  /-- an aq access, with its scope (R279) -/
  acq : Option Scope
  /-- an rl access, with its scope -/
  rel : Option Scope
deriving DecidableEq, Repr

/-- R244: bytes an element needs its address to be a multiple of. -/
def alignOf (ty : Ty) : Nat := max 1 (tyW ty / 8)

/-- R227, R228, R244: the place of an access, or the fault it raises before anything is read or written. -/
def State.placeOf (s : State) (e : Ent) (x : Access) : Except Nat Place :=
  match decodePlace e x.ea with
  | .error c => .error c
  | .ok p =>
    if !(spaceAllows s.node x.kind x.plainB64 p) then .error 0x05
    else if x.ea.toNat % alignOf x.op.elem.1 ≠ 0 then .error 0x04
    else match p with
    | .mmio _ => if s.level e = 0 then .error 0x07 else .ok p
    | _ => .ok p

/-- R279: the scope of the release an access makes first. -/
def Access.relScope (x : Access) (e : Ent) (p : Place) : Option Scope :=
  match x.op, p with
  | .give _ _, .csp k _ | .give _ _, .fabric _ k _ => some (giveScope e k)
  | .kick _ sc, _ => some sc
  | _, _ => x.rel

/-- R279: the scope of the acquire an access makes last. -/
def Access.acqScope (x : Access) (e : Ent) (p : Place) : Option Scope :=
  match x.op, p with
  | .take _, .csp k _ | .take _, .fabric _ k _ | .peek _, .csp k _ | .peek _, .fabric _ k _ => some (giveScope e k)
  | _, _ => x.acq

def State.acquireOpt (s : State) (e : Ent) : Option Scope → State
  | some sc => s.acquire e sc
  | none => s

def State.reportOpt (s : State) (e : Ent) (sc : Option Scope) (w : W64) : State :=
  match sc with
  | some c => s.reportPwf e c w
  | none => s

/-- R337: a b64 store of class rl or give to a kick word pushes a command. -/
def Access.asKick (x : Access) (e : Ent) (p : Place) : Access :=
  let at_ (k off : Nat) : Access :=
    if (kickOf k off).isSome then
      match x.op with
      | .give .b64 v => { x with op := .kick v (giveScope e k) }
      | .store .b64 _ v =>
        match x.rel with
        | some sc => { x with op := .kick v sc }
        | none => x
      | _ => x
    else x
  match p with
  | .csp k off => at_ k off
  | .fabric _ k off => at_ k off
  | _ => x

/-- Completes an access at once: its value lands, it acquires, and a completed release reports. -/
def completeNow (i : Instr) (e : Ent) (x : Access) (acq rel : Option Scope) (v : W64) (s : State) : Act :=
  let s := match x.dst with | some d => s.writeSpec e d v | none => s
  .done ((s.acquireOpt e acq).reportOpt e rel (insnWord i))

/-- A request of an access on its way (R31). -/
def reqOf (s : State) (e : Ent) (x : Access) (ph : Phase) (kid : Nat) (due : Nat) : Req :=
  { who := e, pasid := s.entPasid e, level := s.level e, addr := x.ea, op := x.op, phase := ph, due := due,
    posted := x.posted, dpa := 0, kid := kid, dest := 0, issued := some s.pt }

/-- Sends a request; a posted one is done, any other leaves the rotation until it is answered. -/
def sendReq (i : Instr) (e : Ent) (x : Access) (acq rel : Option Scope) (ph : Phase) (kid : Nat) (s : State) : Act :=
  let d := s.draw
  let s' := (d.2.addReq (reqOf s e x ph kid (s.clk + d.1))).reportOpt e rel (insnWord i)
  if x.posted then .done s' else leaveWith i s' x.dst acq .plain none none

/-- R28, R54: the condition an access of R284 waits for, as what its thread parks on. -/
def Access.waitOn (x : Access) : Wait :=
  match x.op with
  | .pegWait _ => .peg x.ea
  | _ => .word x.ea

/-- R32, R245, R254: an access of the own cluster's scratchpad, on the state in which it issues. A posted one to a kick word is
of a class that word refuses (R337), which its own address shows in the issue clk (DEDUCED, log 31). -/
def cspAccess (i : Instr) (e : Ent) (x : Access) (acq rel : Option Scope) (k off : Nat) (s : State) : Act :=
  if x.posted && (kickOf k off).isSome then .trap { code := 0x05, addr := x.ea }
  else if x.posted then sendReq i e x acq rel .posted k s
  else if !(s.bankFree k (bankOf off)) then .forfeit (State.forfeitBank · e)
  else
    match (s.grantBanks k [bankOf off]).site e k off x.ea x.op with
    | .ok v s => completeNow i e x acq rel v s
    | .wait => .park x.waitOn
    | .err c _ =>
      .trapIn (fun s => match s.site e k off x.ea x.op with | .err _ s' => s' | _ => s) { code := c, addr := x.ea }

/-- R247, R286, R298: the value a cluster cache answers a load with at once. -/
def State.cchHit (s : State) (e : Ent) (va : Nat) (op : AccOp) : Option W64 :=
  match entKid e, s.entPasid e with
  | some k, some p =>
    match s.cchAt k p (lineOf va) with
    | some l =>
      let t := op.elem
      let n := alignOf t.1
      if l.rd && l.levelOk (s.level e) && s.serves k l (va % 64) n && l.within s op then
        let v := l.bytes (va % 64) n
        some (widen t.1 (if t.1 = .i4 ∧ t.2 then v / 16 else v))
      else none
    | none => none
  | _, _ => none

/-- R247: the line of a cluster cache that may accept a write at once. -/
def State.cchWritable (s : State) (e : Ent) (va : Nat) : Option (Nat × CchLine) :=
  match entKid e, s.entPasid e with
  | some k, some p =>
    match s.cchAt k p (lineOf va) with
    | some l => if l.wr && l.levelOk (s.level e) then some (k, l) else none
    | none => none
  | _, _ => none

/-- R247: whether a write of an entity's cluster to a line still waits for its translation: writes of one line keep their order. -/
def State.lineWaits (s : State) (e : Ent) (va : Nat) : Bool :=
  s.reqs.any fun r => r.2.who = e ∧ lineOf r.2.addr.toNat = lineOf va ∧ (r.2.phase = .station ∨ r.2.phase = .miss)

/-- A global access, on the state in which it issues. -/
def globAccess (i : Instr) (e : Ent) (x : Access) (acq rel : Option Scope) (va : Nat) (s : State) : Act :=
  let k := entKidReg e
  let send (s : State) : Act := sendReq i e x acq rel .station k s
  if s.entPasid e = none then .trap { code := 0x07, addr := x.ea }
  else match x.op with
  | .load _ _ | .tload _ _ =>
    match s.cchHit e va x.op with
    | some v => leaveWith i (s.perf k 0x0A 1) x.dst acq .plain (some (s.clk + 20)) (some (.ok v))
    | none => send (if (entKid e).isSome then s.perf k 0x0B 1 else s)
  | .store _ _ _ =>
    if x.posted || s.lineWaits e va then send s
    else match s.cchWritable e va with
    | some (k, l) => .done ((s.acceptWrite e k l (va % 64) x.op false s.pt).reportOpt e rel (insnWord i))
    | none => send s
  | .addm ty v =>
    if x.posted || s.lineWaits e va then send s
    else match s.cchWritable e va with
    | some (k, l) => .done (s.acceptAddm e k l (va % 64) ty v false s.pt)
    | none => send s
  | _ => send s

/-- R241, R393: a write or update to another node; a posted one to a node with no route is dropped and recorded. -/
def linkAccess (i : Instr) (e : Ent) (x : Access) (n : Nat) (s : State) : Act :=
  if s.routeOk n then
    sendReq i e x none none .link 0 { s with outbox := s.outbox ++ [.link n (s.entPasid e) x.ea x.op] }
  else if x.posted then .done (s.postFailed e x.ea)
  else .trap { code := 0x07, addr := x.ea }

/-- Accesses that complete (R281), and may not pass a posted store of their entity to the same word (R282). -/
def Access.held (x : Access) (s : State) (e : Ent) : Bool := !x.posted && s.postedAt e x.ea

/-- R338: the data of a give that ends the run of an engine: one to word 0 of its command block. -/
def State.endsRun (s : State) (e : Ent) (op : AccOp) (p : Place) : Option W64 :=
  let hit (w : W64) (kid k off : Nat) : Bool := decide (k = kid) && decide (off / 8 = w.toNat % 2 ^ 22 / 8)
  match (s.engine e).run, op, p with
  | .cmd w _ kid, .give _ v, .csp k off => if hit w kid k off then some v else none
  | .cmd w _ kid, .give _ v, .fabric n k off => if n = s.node ∧ hit w kid k off then some v else none
  | _, _, _ => none

/-- An access of a lap word, on the state in which its sources have been popped. -/
def accessAct (i : Instr) (s : State) (x : Access) : Act :=
  let e := s.actor
  match s.placeOf e x with
  | .error c => .trap { code := c, addr := x.ea }
  | .ok p =>
    let x := x.asKick e p
    let rel := x.relScope e p
    let acq := x.acqScope e p
    match s.endsRun e x.op p with
    | some v => if s.postedCount e ≠ 0 then .forfeit id else .stay ((s.setHart e (Hart.settled (s.hart e))).endRun e 0 0 (v.setWidth 32))
    | none =>
    if (match rel with | some sc => s.needsRelease e sc | none => false) then .release (rel.getD .thread)
    else if x.posted ∧ s.postedCount e ≥ 8 then .park (.own 0)
    else if x.held s e then .forfeit id
    else match p with
    | .mmio off =>
      match x.op with
      | .store _ _ v => .done (s.mmioSet off (s.level e) v)
      | _ => completeNow i e x acq rel (s.mmioGet off) s
    | .loc a =>
      if x.posted then sendReq i e x acq rel .posted 0 s
      else match s.takeBank e x.ea with
      | none => .forfeit (State.forfeitBank · e)
      | some s =>
        match s.localSite e a x.ea x.op with
        | .ok v s => completeNow i e x acq rel v s
        | .err c _ =>
          .trapIn (fun s => match s.localSite e a x.ea x.op with | .err _ s' => s' | _ => s) { code := c, addr := x.ea }
        | .wait => .park x.waitOn
    | .csp k off => cspAccess i e x acq rel k off s
    | .fabric n k _ => if n = s.node then sendReq i e x acq rel .fabric k s else linkAccess i e x n s
    | .glob va => globAccess i e x acq rel va s

/-! ### Plain accesses in one place (log 12), MMIO included -/

/-- R228, R231: a plain load of an element. -/
def State.plainRead (s : State) (e : Ent) (a : W64) (ty : Ty) (hi : Bool) : GRes :=
  match decodePlace e a with
  | .ok (.mmio off) =>
    if ty ≠ .b64 then .fault 0x05 s
    else if a.toNat % 8 ≠ 0 then .fault 0x04 s
    else if s.level e = 0 then .fault 0x07 s
    else .ok (s.mmioGet off).toNat s
  | _ => s.pread e a ty hi

/-- R228, R231: a plain store of an element. -/
def State.plainWrite (s : State) (e : Ent) (a : W64) (ty : Ty) (hi : Bool) (v : W64) : GRes :=
  match decodePlace e a with
  | .ok (.mmio off) =>
    if ty ≠ .b64 then .fault 0x05 s
    else if a.toNat % 8 ≠ 0 then .fault 0x04 s
    else if s.level e = 0 then .fault 0x07 s
    else .ok 0 (s.mmioSet off (s.level e) v)
  | _ => s.pwrite e a ty hi v

/-- R230: of n words from an address on, those that saved clusters' harts read are sent for. -/
def State.sendEarly (s : State) (e : Ent) (a : W64) : Nat → State
  | 0 => s
  | n + 1 =>
    let s := if s.keptAt e a then (match s.plainRead e a .b64 false with | .wait s' => s' | _ => s) else s
    s.sendEarly e (a + 8) n

/-- n b64 words read by plain loads from an address. -/
def State.plainWords (s : State) (e : Ent) (a : W64) (n : Nat) : HRead :=
  match n with
  | 0 => .ok [] s
  | n + 1 =>
    match s.plainRead e a .b64 false with
    | .ok v s =>
      match s.plainWords e (a + 8) n with
      | .ok ws s => .ok (BitVec.ofNat 64 v :: ws) s
      | r => r
    | .fault c s => .fault c a.toNat s
    | .wait s | .remote _ s => .wait (s.sendEarly e (a + 8) n)

/-! ### LD and ST -/

/-- R245: a relaxed load pushes a gather, after its checks. -/
def gatherAct (s : State) (x : Access) (ty : Ty) (hi : Bool) : Act :=
  let e := s.actor
  match s.placeOf e x with
  | .error c => .trap { code := c, addr := x.ea }
  | .ok _ =>
    let d := s.draw
    let h := s.hart e
    .done (d.2.setHart e { h with aq := h.aq ++ [({ addr := x.ea, ty := ty, hi := hi, no := s.fresh }, s.clk + d.1)] })

/-- R244, R245. -/
def execLd (g : Guard) (cls : Cls) (ty : Ty) (hi : Bool) (d a : LSpec) (disp : Disp) (s : State) :
    Host.Outcome State Fault Refusal :=
  runLap (.ld g cls ty hi d a disp) s fun rd s =>
    let i := Instr.ld g cls ty hi d a disp
    let ea := rd a + dispValue disp
    let x : Access := { kind := .load, op := .load ty hi, ea := ea, dst := some d, plainB64 := cls == .plain && ty == .b64,
                        posted := false, acq := none, rel := none }
    match cls with
    | .relaxed => gatherAct s x ty hi
    | .take => accessAct i s { x with kind := .sync, op := .take ty }
    | .peek => accessAct i s { x with kind := .sync, op := .peek ty }
    | .acquire sc => accessAct i s { x with acq := some sc }
    | _ => accessAct i s x

/-- R244, R245. -/
def execSt (g : Guard) (cls : Cls) (ty : Ty) (hi : Bool) (d a : LSpec) (disp : Disp) (s : State) :
    Host.Outcome State Fault Refusal :=
  runLap (.st g cls ty hi d a disp) s fun rd s =>
    let i := Instr.st g cls ty hi d a disp
    let x : Access := { kind := .storePlain, op := .store ty hi (rd d), ea := rd a + dispValue disp, dst := none,
                        plainB64 := cls == .plain && ty == .b64, posted := false, acq := none, rel := none }
    match cls with
    | .relaxed => accessAct i s { x with kind := .storeR, posted := true }
    | .give => accessAct i s { x with kind := .sync, op := .give ty (rd d) }
    | .release sc => accessAct i s { x with kind := .storeRl, rel := some sc }
    | _ => accessAct i s x

/-- R248. -/
def execLdt (g : Guard) (ty : Ty) (d a eps : LSpec) (disp : Disp) (s : State) : Host.Outcome State Fault Refusal :=
  runLap (.ldt g ty d a eps disp) s fun rd s =>
    accessAct (.ldt g ty d a eps disp) s
      { kind := .ldt, op := .tload ty (rd eps), ea := rd a + dispValue disp, dst := some d, plainB64 := false, posted := false,
        acq := none, rel := none }

/-! ### ADDM, AMO and CAS -/

/-- R249; of several faults R204 takes the offcut's first. -/
def execAddm (g : Guard) (cls : Cls) (ty : Ty) (d a : LSpec) (disp : Disp) (s : State) : Host.Outcome State Fault Refusal :=
  runLap (.addm g cls ty d a disp) s fun rd s =>
    let i := Instr.addm g cls ty d a disp
    let r := cls == .relaxed
    let x : Access := { kind := if r then .addmR else .addm, op := .addm ty (rd d), ea := rd a + dispValue disp, dst := none,
                        plainB64 := false, posted := r, acq := none, rel := none }
    if ty.isFloat ∧ isOffcut ty (rd d) then .trap { code := 0x0C } else accessAct i s x

/-- The scopes an AMO or CAS carries (R279). -/
def clsAcq : Cls → Option Scope
  | .acquire sc => some sc
  | _ => none

def clsRel : Cls → Option Scope
  | .release sc => some sc
  | _ => none

/-- R250: without a result and relaxed it is posted; without one otherwise it waits for the site's acknowledgment. -/
def execAmo (g : Guard) (cls : Cls) (op : AmoOp) (ty : Ty) (d a : LSpec) (b : BSrc) (s : State) :
    Host.Outcome State Fault Refusal :=
  runLap (.amo g cls op ty d a b) s fun rd s =>
    let posted := d == .z && cls == .relaxed
    accessAct (.amo g cls op ty d a b) s
      { kind := if d = .z then (if posted then .amoNoneR else .amoNone) else .amoRet
        op := .amo op ty (bValue rd ty b), ea := rd a, dst := some d, plainB64 := false, posted := posted
        acq := clsAcq cls, rel := clsRel cls }

/-- R251. -/
def execCas (g : Guard) (cls : Cls) (ty : Ty) (d a b : LSpec) (s : State) : Host.Outcome State Fault Refusal :=
  runLap (.cas g cls ty d a b) s fun rd s =>
    accessAct (.cas g cls ty d a b) s
      { kind := .amoRet, op := .cas ty (rd d) (rd b), ea := rd a, dst := some d, plainB64 := false, posted := false
        acq := clsAcq cls, rel := clsRel cls }

/-! ### STS -/

/-- R252: element i of the range. -/
def stsAddr (a stride : W64) (i : Nat) : W64 := a + stride * BitVec.ofNat 64 i

/-- R252: an element of the source, in the thread's local memory or its own scratchpad, read as a plain load reads it. -/
def stsElem (s : State) (e : Ent) (a : W64) (ty : Ty) : GRes :=
  match decodePlace e a with
  | .ok (.loc _) | .ok (.csp _ _) => s.pread e a ty false
  | .ok _ => .fault 0x05 s
  | .error c => .fault c s

/-- R32, R252: the words the source elements lie in, each read by one access. -/
def stsReads (src : W64) (ty : Ty) (n : Nat) : List W64 :=
  wordsIn ((List.range n).map fun i => src + BitVec.ofNat 64 (i * alignOf ty))

/-- How reads of several elements end. -/
inductive ElemsRes where
  | ok (l : List W64)
  | fault (code : Nat) (addr : W64) (s : State)
  | wait

/-- R252: n source elements from an address on. -/
def stsSource (s : State) (e : Ent) (src : W64) (ty : Ty) : Nat → ElemsRes
  | 0 => .ok []
  | n + 1 =>
    match stsElem s e src ty with
    | .fault c s => .fault c src s
    | .wait _ | .remote _ _ => .wait
    | .ok v _ =>
      match stsSource s e (src + BitVec.ofNat 64 (alignOf ty)) ty n with
      | .ok l => .ok (BitVec.ofNat 64 v :: l)
      | r => r

/-- The outcome of writes of several words. -/
inductive StsRes where
  | ok (s : State)
  | fault (code : Nat) (addr : W64) (s : State)
  | wait (s : State)

/-- The outcome of a range's translation: the DPA and the leaf of each element. -/
inductive RangeRes where
  | ok (l : List (Nat × Leaf)) (s : State)
  | fault (code : Nat) (addr : W64) (s : State)
  | wait (s : State)

/-- R242, R252: every element's page permits writing; without a cluster cache the home may refuse an element. -/
def stsPages (e : Ent) (pasid : Option Nat) (a stride : W64) (w n : Nat) (s : State) : RangeRes :=
  (List.range n).foldl (fun r i =>
    match r with
    | .ok l s =>
      let ea := stsAddr a stride i
      match decodePlace e ea, pasid with
      | .ok (.glob va), some p =>
        match s.xlate e p va .wr with
        | .fault c s => .fault c ea s
        | .wait s => .wait s
        | .ok dpa lf s =>
          if (entKid e).isNone && s.badWrite dpa w then .fault 0x13 ea (s.logLost (homeDie dpa) (logWho 0 e) ea)
          else .ok (l ++ [(dpa, lf)]) s
      | .ok (.glob _), none => .fault 0x07 ea s
      | .ok _, _ => .fault 0x05 ea s
      | .error c, _ => .fault c ea s
    | r => r) (RangeRes.ok [] s)

/-- R224, R252: the whole range can be taken: its pages permit it, and the cluster's cache has room for its lines. -/
def stsCheck (e : Ent) (pasid : Option Nat) (a stride : W64) (w n : Nat) (s : State) : RangeRes :=
  match stsPages e pasid a stride w n s with
  | .ok l s => if (match entKid e with | some k => s.roomFor k n | none => true) then .ok l s else .wait s
  | r => r

/-- R252, R289, R364: the registrations of a range: one for each stretch of elements that one page holds. -/
def stsRegs (stride : W64) (w kid : Nat) (dpas : List Nat) : List Registration :=
  dpas.foldl (fun (l : List Registration) dpa =>
    let fresh : Registration := { base := dpa, stride := stride, count := 1, width := w, kid := kid, age := 0 }
    match l.getLast? with
    | some r =>
      if (dpa : Int) = r.base + r.count * r.stride.toInt then l.dropLast ++ [{ r with count := r.count + 1 }] else l ++ [fresh]
    | none => l ++ [fresh]) []

/-- R252, R287: the cluster cache takes the whole range, in element order, and the range is registered; without one the elements are
written at their homes. -/
def State.stsTake (s : State) (e : Ent) (pasid : Option Nat) (a stride : W64) (ty : Ty) (vals : List W64) (l : List (Nat × Leaf))
    (relaxed : Bool) (issued : Nat) : State :=
  let p := pasid.getD 0
  let s := (l.zipIdx).foldl (fun (s : State) x =>
    let va := (stsAddr a stride x.2).toNat
    let op : AccOp := .store ty false (vals.getD x.2 0)
    match entKid e with
    | some k =>
      let t := s.takeLine k p va x.1.2
      t.2.acceptWrite e k (t.1.withLeaf x.1.2) (va % 64) op relaxed issued
    | none =>
      let s := s.forceAll (lineOf x.1.1)
      (s.homeWrite (logWho 0 e) x.1.1 (writeBytes s.mem x.1.1 op)).noteWrite e x.1.1 issued) s
  match entKid e with
  | some k => (stsRegs stride (alignOf ty) k (l.map (·.1))).foldl (fun (s : State) r => s.register r) s
  | none => s

/-- R252. -/
def execSts (g : Guard) (cls : Cls) (ty : Ty) (d a b : LSpec) (s : State) : Host.Outcome State Fault Refusal :=
  runLap (.sts g cls ty d a b) s fun rd s =>
    let i := Instr.sts g cls ty d a b
    let e := s.actor
    let desc := rd b
    let stride : W64 := (desc.extractLsb' 0 32).signExtend 64
    let n := (desc.extractLsb' 32 12).toNat + 1
    let r := cls == .relaxed
    let x : Access := { kind := .sts, op := .sts ty stride [], ea := rd a, dst := none, plainB64 := false, posted := r,
                        acq := none, rel := clsRel cls }
    match s.placeOf e x with
    | .error c => .trap { code := c, addr := x.ea }
    | .ok _ =>
      if x.ea.toNat % alignOf ty ≠ 0 ∨ stride = 0 ∨ stride.toInt % alignOf ty ≠ 0 then .trap { code := 0x04, addr := x.ea }
      else if (match x.rel with | some sc => s.needsRelease e sc | none => false) then .release (x.rel.getD .thread)
      else if r ∧ s.postedCount e ≥ 8 then .park (.own 0)
      else
        if !r ∧ (List.range n).any (fun j => s.postedAt e (stsAddr x.ea stride j)) then .forfeit id
        else withReads e (stsReads (rd d) ty n) (fun s =>
        match stsSource s e (rd d) ty n with
        | .fault c ad _ =>
          .trapIn (fun s => match stsSource s e (rd d) ty n with | .fault _ _ s' => s' | _ => s) { code := c, addr := ad }
        | .wait => .forfeit id
        | .ok vals =>
          if r then sendReq i e { x with op := .sts ty stride vals } none none .posted 0 s
          else
            match stsCheck e (s.entPasid e) x.ea stride (alignOf ty) n s with
            | .fault c ad _ =>
              .trapIn (fun s => match stsCheck e (s.entPasid e) x.ea stride (alignOf ty) n s with | .fault _ _ s' => s' | _ => s)
                { code := c, addr := ad }
            | .wait _ =>
              .forfeit fun s => match stsCheck e (s.entPasid e) x.ea stride (alignOf ty) n s with | .wait s' => s' | _ => s
            | .ok l s =>
              let dl := s.draw
              let s := dl.2.stsTake e (s.entPasid e) x.ea stride ty vals l false s.pt
              leaveWith i (s.reportOpt e x.rel (insnWord i)) none none .plain (some (s.clk + dl.1)) (some (.ok 0))) s

/-! ### PREF -/

/-- R253: asks for a line, and never faults. -/
def execPref (g : Guard) (a : LSpec) (disp : Disp) (s : State) : Host.Outcome State Fault Refusal :=
  runLap (.pref g a disp) s fun rd s =>
    let e := s.actor
    let ea := rd a + dispValue disp
    match decodePlace e ea, entKid e, s.entPasid e with
    | .ok (.glob _), some k, some p =>
      let d := s.draw
      .done (d.2.addReq { who := e, pasid := some p, level := s.level e, addr := ea, op := .pref, phase := .station,
                          due := s.clk + d.1, posted := true, dpa := 0, kid := k, dest := 0 })
    | _, _, _ => .done s

end Sys2Proof.Machine
end

