-- ==== Sys2Proof/Machine/QueueOps.lean ====
section
/-! DEFINITION. Queues of the lap set: gathers, messages and calls, sleds, matrix jobs, host queues (R315 to R327). -/

namespace Sys2Proof.Machine

/-! ### Address and data queues -/

/-- R318: the address of an indexed gather or store. -/
def indexAddr (a b : W64) (sh : BitVec 3) : W64 := a + (b <<< sh.toNat)

/-- R318: a gather whose faults come at its landing. -/
def execGidx (g : Guard) (ty : Ty) (a b : LSpec) (sh : BitVec 3) (s : State) : Host.Outcome State Fault Refusal :=
  runLap (.gidx g ty a b sh) s fun rd s =>
    let d := s.draw
    let e := s.actor
    let h := s.hart e
    .done (d.2.setHart e { h with
      aq := h.aq ++ [({ addr := indexAddr (rd a) (rd b) sh, ty := ty, hi := false, no := s.fresh }, s.clk + d.1)] })

/-- R318: a posted store whose faults come at the fence. -/
def execSidx (g : Guard) (ty : Ty) (d a b : LSpec) (sh : BitVec 3) (s : State) : Host.Outcome State Fault Refusal :=
  runLap (.sidx g ty d a b sh) s fun rd s =>
    let i := Instr.sidx g ty d a b sh
    let e := s.actor
    let x : Access := { kind := .storeR, op := .store ty false (rd d), ea := indexAddr (rd a) (rd b) sh, dst := none,
                        plainB64 := false, posted := true, acq := none, rel := none }
    if s.postedCount e ≥ 8 then .park (.own 0)
    else match s.placeOf e x with
    | .ok _ => accessAct i s x
    | .error _ => sendReq i e x none none .posted (entKidReg e) s

/-- R319. -/
def execAqclr (g : Guard) (d : LSpec) (s : State) : Host.Outcome State Fault Refusal :=
  runLap (.aqclr g d) s fun _ s =>
    let e := s.actor
    let h := s.hart e
    doneWith (s.setHart e { h with aq := [], dq := [] }) d (BitVec.ofNat 64 (h.aq.length + h.dq.length))

/-- R319: the status word of a thread's queues. -/
def queueStatus (s : State) (e : Ent) : W64 :=
  let h := s.hart e
  let own := h.aq.length + h.dq.length * 2 ^ 4 + min 8 (s.postedCount e) * 2 ^ 8
  match e with
  | .lap k c _ =>
    let x := s.core k c
    BitVec.ofNat 64 (own + x.inbox.length * 2 ^ 12 + x.sled.length * 2 ^ 18 + (if h.slot.isSome then 2 ^ 25 else 0))
  | _ => BitVec.ofNat 64 own

/-- R319. -/
def execQstat (g : Guard) (d : LSpec) (s : State) : Host.Outcome State Fault Refusal :=
  runLap (.qstat g d) s fun _ s => doneWith s d (queueStatus s s.actor)

/-! ### Messages and calls -/

/-- R322: the scope of the release a message or reply makes, by its destination. -/
def msgScope (s : State) (e : Ent) (node kid : Nat) : Scope :=
  if node ≠ s.node then .system else if entKid e = some kid then .cluster else .package

/-- R320: the parts of a destination word. -/
def destKid (w : W64) : Nat := w.toNat / 2 ^ 5 % 2 ^ 9
def destNode (w : W64) : Nat := w.toNat / 2 ^ 14 % 2 ^ 8
def destCore (w : W64) : Nat := w.toNat % 2 ^ 5

/-- R322: a message with n payload words, a call when tag is given. -/
def sendAct (i : Instr) (s : State) (dest pay : W64) (n : Nat) (ctr : Option Nat) (d : Option LSpec) (call : Bool) : Act :=
  let e := s.actor
  let kid := destKid dest
  let node := destNode dest
  let sc := msgScope s e node kid
  if dest.toNat / 2 ^ 22 ≠ 0 then .trap { code := 0x05, addr := dest }
  else if pay.toNat % 8 ≠ 0 then .trap { code := 0x04, addr := pay }
  else if s.needsRelease e sc then .release sc
  else withReads e (wordAddrs pay n) (fun s => match s.plainWords e pay n with
  | .fault c a _ => .trapIn (fun s => match s.plainWords e pay n with | .fault _ _ s' => s' | _ => s)
      { code := c, addr := BitVec.ofNat 64 a }
  | .wait _ => .forfeit fun s => match s.plainWords e pay n with | .wait s' => s' | _ => s
  | .ok ws s =>
    if node ≠ s.node ∧ !(s.routeOk node) then .trap { code := 0x07, addr := dest }
    else
      let h := s.hart e
      let tag := h.callTag.toNat
      let words := msgHeader s e n (if call then some tag else none) ctr :: ws
      let s := if call then s.setHart e { h with callTag := h.callTag + 1, slot := some tag } else s
      let s := s.reportPwf e sc (insnWord i)
      let act : LandAct := if call then .replySlot node else .plain
      let acq := if call then some sc else none
      if node = s.node then leaveWith i (s.sendMsg e (s.entPasid e) dest kid words ctr) d acq act none none
      else
        let dl := s.draw
        let s := { dl.2 with outbox := dl.2.outbox ++ [.link node (s.entPasid e) dest (.msg words ctr)] }
        if call then
          let h := s.hart e
          .stay ((s.setHart e { Hart.settled h with
            rot := .parked, wait := .reply tag
            pend := some { insn := insnWord i, next := nextPc s e i, dst := d, acq := acq, act := act, due := none, ans := none,
                           long := false } }).perf (entKidReg e) 0x04 1)
        else leaveWith i s d acq act (some (s.clk + dl.1)) (some (.ok 0))) s

/-- The counter an FN field names (R315). -/
def msgCounter (o : Msg) : Option Nat := if o.noCtr then none else some o.ctr.toNat

/-- R322. -/
def execSend (o : Msg) (s : State) : Host.Outcome State Fault Refusal :=
  runLap (.send o) s fun rd s => sendAct (.send o) s (rd o.a) (rd o.b) (o.words.toNat + 1) (msgCounter o) none false

/-- R322: a call, which waits for its reply. -/
def execCallr (o : Msg) (s : State) : Host.Outcome State Fault Refusal :=
  runLap (.callr o) s fun rd s => sendAct (.callr o) s (rd o.a) (rd o.b) (o.words.toNat + 1) (msgCounter o) (some o.d) true

/-- R322: a reply to the sender a call header names. -/
def execReply (g : Guard) (a b : LSpec) (s : State) : Host.Outcome State Fault Refusal :=
  runLap (.reply g a b) s fun rd s =>
    let i := Instr.reply g a b
    let e := s.actor
    let h := rd a
    let kid := h.toNat / 2 ^ 10 % 2 ^ 9
    let node := h.toNat / 2 ^ 19 % 2 ^ 8
    let tag := h.toNat / 2 ^ 32 % 2 ^ 16
    let sc := msgScope s e node kid
    if h.getLsbD 30 = false then .trap { code := 0x05, addr := h }
    else if s.needsRelease e sc then .release sc
    else
      let dl := s.draw
      let s := dl.2.reportPwf e sc (insnWord i)
      if node = s.node then
        .done (s.addReq { who := e, pasid := s.entPasid e, level := s.level e, addr := 0, op := .reply tag (rd b),
                          phase := .replying, due := s.clk + dl.1, posted := true, dpa := 0, kid := kid, dest := h })
      else if s.routeOk node then .done { s with outbox := s.outbox ++ [.link node (s.entPasid e) h (.reply tag (rd b))] }
      else .trap { code := 0x07, addr := h }

/-! ### Sleds -/

/-- R85, R323: acts on the sled of the issuing thread's core. -/
def onCore (s : State) (f : Nat → Nat → LapCore → Act) : Act :=
  match s.actor with
  | .lap k c _ => f k c (s.core k c)
  | _ => .trap { code := 0x01 }

/-- R324. -/
def execSlpush (g : Guard) (a b : LSpec) (s : State) : Host.Outcome State Fault Refusal :=
  runLap (.slpush g a b) s fun rd s =>
    onCore s fun k c x =>
      if x.sled.length ≥ 64 then .trap { code := 0x18 }
      else .done (s.setCore k c { x with sled := x.sled ++ [(rd a, rd b)], sledAt := some s.clk })

/-- R324. -/
def execSlpop (g : Guard) (d : LSpec) (s : State) : Host.Outcome State Fault Refusal :=
  runLap (.slpop g d) s fun _ s =>
    onCore s fun k c x =>
      match x.sled.getLast? with
      | none => doneWith s d 0
      | some r =>
        let s := s.setCore k c { x with sled := x.sled.dropLast, sledAt := some s.clk }
        let s := (s.writeSpec s.actor (.h 3) r.1).writeSpec s.actor (.h 4) r.2
        doneWith s d 1

/-- R325: asks the next core for work; the records move when no other operation takes effect on the two sleds. -/
def execSlsteal (g : Guard) (d : LSpec) (s : State) : Host.Outcome State Fault Refusal :=
  runLap (.slsteal g d) s fun _ s =>
    onCore s fun _ _ _ => leaveWith (.slsteal g d) s (some d) none .steal (some (s.clk + 24)) none

/-- R323, R325: in a clk in which no operation has taken effect on either sled, the oldest half of the next core's sled moves below
the own records, as far as there is room. -/
def State.takeSteal (s : State) (e : Ent) : State :=
  match e, (s.hart e).pend with
  | .lap k c _, some p =>
    let x := s.core k c
    let y := s.core k ((c + 1) % 32)
    if p.act = .steal ∧ p.ans.isNone ∧ x.sledAt ≠ some s.clk ∧ y.sledAt ≠ some s.clk then
      let n := min ((y.sled.length + 1) / 2) (64 - x.sled.length)
      let s := s.setCore k ((c + 1) % 32) { y with sled := y.sled.drop n, sledAt := some s.clk }
      let s := s.setCore k c { x with sled := y.sled.take n ++ x.sled, sledAt := some s.clk }
      s.setHart e { s.hart e with pend := some { p with ans := some (.ok (BitVec.ofNat 64 n)) } }
    else s
  | _, _ => s

/-! ### Matrix jobs and host queues -/

/-- R327: places a job; while the queue is full the thread parks. -/
def execMjob (g : Guard) (d a b : LSpec) (cc : BitVec 1) (s : State) : Host.Outcome State Fault Refusal :=
  runLap (.mjob g d a b cc) s fun rd s =>
    let i := Instr.mjob g d a b cc
    let e := s.actor
    match e with
    | .lap k _ _ =>
      let q := s.cc k cc.toNat
      if (rd a).toNat % 64 ≠ 0 then .trap { code := 0x04, addr := rd a }
      else if s.needsRelease e .cluster then .release .cluster
      else if q.jobs.length ≥ 4 then .park (.reply 0)
      else
        let s := s.setCc k cc.toNat { q with jobs := q.jobs ++ [{ entry := rd a, arg := rd b, tag := s.issuerTag e }] }
        leaveWith i s (some d) (some .cluster) .job none none
    | _ => .trap { code := 0x01 }

/-- R317: a packet written at the tail of a queue: the answer, none while a translation is waited for, and the state. -/
def State.pushPacket (s : State) (q : Nat) (p : List W64) : Option Ans × State :=
  let x := s.hq q
  if x.state ≠ 1 then (some (.ok 2), s)
  else if x.pending ≥ 2 ^ x.lsz then (some (.ok 1), s)
  else
    let at_ := x.base.toNat / 64 % 2 ^ 50 * 64 + 64 * (x.tail.toNat % 2 ^ x.lsz)
    let r := (List.range 8).foldl (fun (r : Option Ans × State) i =>
      match r.1 with
      | some (.ok _) =>
        match r.2.gwrite (.hart x.die) (some x.pasid) (at_ + 8 * i) (.store .b64 false (wd p i)) with
        | .ok _ s => (some (.ok 0), s)
        | .fault c s => (some (.err c (BitVec.ofNat 64 (at_ + 8 * i))), s)
        | .wait s | .remote _ s => (none, s)
      | a => (a, r.2)) (some (.ok 0), s)
    match r.1 with
    | some (.ok _) => (some (.ok 0), r.2.writeTail q ((x.tail + 1).setWidth 64))
    | a => (a, r.2)

/-- R242, R317: the packet is read from the own scratchpad and written at the queue's tail; while either waits, the instruction is
tried again. -/
def launchAct (i : Instr) (s : State) (d : LSpec) (a q : W64) : Act :=
  let e := s.actor
  withReads e (wordAddrs a 8) (fun s => match s.plainWords e a 8 with
  | .fault c v _ => .trapIn (fun s => match s.plainWords e a 8 with | .fault _ _ s' => s' | _ => s) { code := c, addr := BitVec.ofNat 64 v }
  | .wait _ => .forfeit id
  | .ok p s =>
    match s.draw.2.pushPacket q.toNat p with
    | (some r, s') => leaveWith i (s'.reportPwf e .package (insnWord i)) (some d) none .plain (some (s.clk + s.draw.1)) (some r)
    | (none, _) => .forfeit fun s => match s.plainWords e a 8 with | .ok p s => (s.draw.2.pushPacket q.toNat p).2 | _ => s) s

/-- R317. -/
def execLaunch (g : Guard) (d a b : LSpec) (s : State) : Host.Outcome State Fault Refusal :=
  runLap (.launch g d a b) s fun rd s =>
    match decodePlace s.actor (rd a) with
    | .ok (.csp _ off) =>
      if off % 64 ≠ 0 then .trap { code := 0x04, addr := rd a }
      else if (rd b).toNat / 2 ^ 12 ≠ 0 then .trap { code := 0x17, info := (rd b).setWidth 10 }
      else if s.needsRelease s.actor .package then .release .package
      else launchAct (.launch g d a b) s d (rd a) (rd b)
    | .error c => .trap { code := c, addr := rd a }
    | .ok _ => .trap { code := 0x05, addr := rd a }

/-- R311: the first queue whose head packet may be taken now, with it. -/
def State.nextPacket (s : State) (d : Nat) : Option (Nat × List W64) :=
  (s.queueOrder d).findSome? fun q => match (s.headPkt q).1 with | .ready p => some (q, p) | _ => none

/-- R311, R316: a packet is selected and consumed; the thread parks until one is eligible. -/
def execCmdnext (g : Guard) (d : BitVec 7) (s : State) : Host.Outcome State Fault Refusal :=
  runLap (.cmdnext g d) s fun _ s =>
    let e := s.actor
    let dn := entDie e
    match s.nextPacket dn with
    | none => .park (.own 0)
    | some (q, p) =>
      let s := s.consume q
      let s := s.setDie dn { s.die dn with lastq := q }
      let ws := p.take 8 ++ [BitVec.ofNat 64 q]
      let h := s.hart e
      .done (s.setHart e { h with s := h.s.mapFinIdx fun j v _ =>
        if d.toNat ≤ j ∧ j < d.toNat + 9 then wd ws (j - d.toNat) else v })

/-- R316: the write of a completion record at its address: a hart's global traffic goes under the PASID of the queue it serves. -/
def State.putRecord (s : State) (e : Ent) (q : Nat) (a v : W64) : GRes :=
  match decodePlace e a with
  | .ok (.glob g) => if g % 8 ≠ 0 then .fault 0x04 s else s.gwrite e (some (s.hq q).pasid) g (.store .b64 false v)
  | _ => s.plainWrite e a .b64 false v

/-- R316: a completion record, and its interrupt. -/
def execCmddone (g : Guard) (a b c : LSpec) (sys irq : Bool) (s : State) : Host.Outcome State Fault Refusal :=
  runLap (.cmddone g a b c sys irq) s fun rd s =>
    let i := Instr.cmddone g a b c sys irq
    let e := s.actor
    let sc : Scope := if sys then .system else .die
    let q := rd c
    let va := rd a + 56
    match decodePlace e va with
    | .error c => .trap { code := c, addr := va }
    | .ok _ =>
    if va.toNat % 8 ≠ 0 then .trap { code := 0x04, addr := va }
    else if q.toNat > 4095 then .trap { code := 0x17, info := q.setWidth 10 }
    else if s.needsRelease e sc then .release sc
    else
      let go (s : State) : Act :=
        let s := s.reportPwf e sc (insnWord i)
        .done (if irq then s.msi (s.hq q.toNat).vec else s)
      withReads e [va] (fun s => match s.putRecord e q.toNat va (rd b) with
      | .fault c _ =>
        .trapIn (fun s => match s.putRecord e q.toNat va (rd b) with | .fault _ s' => s' | _ => s) { code := c, addr := va }
      | .wait _ => .forfeit fun s => match s.putRecord e q.toNat va (rd b) with | .wait s' => s' | _ => s
      | .remote n s => go { s with outbox := s.outbox ++ [.link n (s.entPasid e) va (.store .b64 false (rd b))] }
      | .ok _ s => go s) s

end Sys2Proof.Machine
end

