-- ==== Sys2Proof/Machine/Counter.lean ====
section
/-! DEFINITION. Trigger counters, pegs, routing counters and bump allocators (R368 to R380). -/

namespace Sys2Proof.Machine

/-! ### Trigger counters -/

def LapCore.trigAt (x : LapCore) (n : Nat) : Trig := x.trig.getD n .zero

def State.setTrig (s : State) (k c n : Nat) (t : Trig) : State :=
  let x := s.core k c
  s.setCore k c { x with trig := x.trig.mapFinIdx fun j v _ => if j = n then t else v }

/-- R370, R372: the wake: the binding ends, and the thread that waits on the counter goes on as one that has acquired. -/
def State.wakeTrig (s : State) (k c n : Nat) : State :=
  let t := (s.core k c).trigAt n
  let e := Ent.lap k c t.slot
  let h := s.hart e
  let s := s.setTrig k c n { t with bound := false }
  if h.rot = .parked ∧ h.wait = .trigger n then
    (s.setHart e { h with rot := .ready, wait := .none, parkN := 0 }).acquireOpt e t.acq
  else s

/-- The wider of two scopes. -/
def widest (a b : Option Scope) : Option Scope :=
  match a, b with
  | some x, some y => if scopeCode x < scopeCode y then some y else some x
  | some x, none => some x
  | none, b => b

/-- R370: a decrement of counter n of a core, carried by a release. -/
def State.decrement (s : State) (k c n : Nat) (sc : Option Scope) : State :=
  let t := (s.core k c).trigAt n
  if t.count = 0 then s.setTrig k c n { t with under := true, acq := widest t.acq sc }
  else
    let s := s.setTrig k c n { t with count := t.count - 1, acq := widest t.acq sc }
    if t.count = 1 ∧ t.bound then s.wakeTrig k c n else s

/-- R371. -/
def execTbind (g : Guard) (ctr : BitVec 4) (s : State) : Host.Outcome State Fault Refusal :=
  runLap (.tbind g ctr) s fun _ s =>
    match s.actor with
    | .lap k c slot =>
      let e := s.actor
      let t := (s.core k c).trigAt ctr.toNat
      if t.bound ∧ t.slot ≠ slot then .trap { code := 0x17, info := ctr.setWidth 10 }
      else if t.count = 0 then .done (s.acquireOpt e t.acq)
      else
        let s := s.setTrig k c ctr.toNat { t with slot := slot, bound := true }
        let h := s.hart e
        .stay ((s.setHart e { Hart.settled h with
          rot := .parked, wait := .trigger ctr.toNat, pc := nextPc s e (.tbind g ctr) }).perf k 0x04 1)
    | _ => .trap { code := 0x01 }

/-- R371. -/
def execTcset (g : Guard) (b : BSrc) (ctr : BitVec 4) (s : State) : Host.Outcome State Fault Refusal :=
  runLap (.tcset g b ctr) s fun rd s =>
    let v := bValue rd .b64 b
    match s.actor with
    | .lap k c _ =>
      if v.toNat / 2 ^ 32 ≠ 0 then .trap { code := 0x17, info := v.setWidth 10 }
      else
        let t := (s.core k c).trigAt ctr.toNat
        let s := s.setTrig k c ctr.toNat { t with count := v.toNat, under := false, acq := none }
        .done (if v = 0 ∧ t.bound then s.wakeTrig k c ctr.toNat else s)
    | _ => .trap { code := 0x17, info := ctr.setWidth 10 }

/-- R371. -/
def execTcrd (g : Guard) (d : LSpec) (ctr : BitVec 4) (s : State) : Host.Outcome State Fault Refusal :=
  runLap (.tcrd g d ctr) s fun _ s =>
    match s.actor with
    | .lap k c _ => doneWith s d ((s.core k c).trigAt ctr.toNat).word
    | _ => .trap { code := 0x17, info := ctr.setWidth 10 }

/-! ### Pegs -/

/-- R373, R375: the scope a peg operation releases or acquires at. -/
def pegScope (e : Ent) (a : W64) : Scope :=
  match decodePlace e a with
  | .ok (.csp k _) | .ok (.fabric _ k _) => giveScope e k
  | _ => .package

/-- R373, R374: the access of a peg operation. -/
def pegAccess (op : AccOp) (ea : W64) (d : LSpec) (rel acq : Option Scope) : Access :=
  { kind := .addm, op := op, ea := ea, dst := some d, plainB64 := false, posted := false, acq := acq, rel := rel }

/-- R204, R374: a peg operation: the address checks come before the operand's. -/
def pegAct (i : Instr) (s : State) (x : Access) (b : W64) (ok : Bool) : Act :=
  match s.placeOf s.actor x with
  | .error c => .trap { code := c, addr := x.ea }
  | .ok _ => if ok then accessAct i s x else .trap { code := 0x17, info := b.setWidth 10 }

/-- R374: arms a peg with a target. -/
def execPegarm (o : Dab) (s : State) : Host.Outcome State Fault Refusal :=
  runLap (.pegarm o) s fun rd s =>
    let b := bValue rd .b64 o.b
    let ea := rd o.a
    pegAct (.pegarm o) s (pegAccess (.pegArm b.toNat) ea o.d (some (pegScope s.actor ea)) none) b
      (decide (b.toNat / 2 ^ 28 = 0))

/-- R374: adds to a peg. -/
def execPegarmAdd (o : Dab) (s : State) : Host.Outcome State Fault Refusal :=
  runLap (.pegarmAdd o) s fun rd s =>
    let b := bValue rd .b64 o.b
    let ea := rd o.a
    pegAct (.pegarmAdd o) s (pegAccess (.pegAdd b.toNat) ea o.d (some (pegScope s.actor ea)) none) b
      (decide (b.toNat / 2 ^ 28 = 0 ∧ b ≠ 0))

/-- R374: waits for a generation. -/
def execPegwait (o : Dab) (s : State) : Host.Outcome State Fault Refusal :=
  runLap (.pegwait o) s fun rd s =>
    let b := bValue rd .b64 o.b
    let ea := rd o.a
    pegAct (.pegwait o) s (pegAccess (.pegWait b.toNat) ea o.d none (some (pegScope s.actor ea))) b
      (decide (b.toNat / 2 ^ 8 = 0))

/-! ### Routing counters -/

/-- Writes b64 words from an address with plain stores; what goes to another node is sent on its way. -/
def State.plainPut (s : State) (e : Ent) (a : W64) : List W64 → StsRes
  | [] => .ok s
  | w :: t =>
    match s.plainWrite e a .b64 false w with
    | .ok _ s => s.plainPut e (a + 8) t
    | .fault c s => .fault c a s
    | .wait s => .wait s
    | .remote n s => (State.plainPut { s with outbox := s.outbox ++ [.link n (s.entPasid e) a (.store .b64 false w)] } e (a + 8) t)

/-- What a write that fails leaves beside its fault: a refusal is counted and logged (R265). -/
def failedPut (e : Ent) (a : W64) (s : State) : State :=
  match s.plainWrite e a .b64 false 0 with
  | .fault _ s' => s'
  | _ => s

/-- R377: whether a place may take words of a snapshot: the own scratchpad, a scratchpad of the own node, global memory. -/
def snapPlace (node : Nat) : Place → Bool
  | .csp _ _ | .glob _ => true
  | .fabric n _ _ => n == node
  | _ => false

/-- R239, R359, R377: the n words from an address on, in places that ok allows, are checked as stores; a page that is still to be
translated is waited for. -/
def State.checkPut (s : State) (e : Ent) (ok : Place → Bool) (a : W64) : Nat → StsRes
  | 0 => .ok s
  | n + 1 =>
    match decodePlace e a with
    | .error c => .fault c a s
    | .ok p =>
      if !(ok p) then .fault 0x05 a s
      else match p with
      | .glob va =>
        match s.gcheck e (s.entPasid e) va .wr with
        | .fault c s => .fault c a s
        | .wait s | .remote _ s => .wait s
        | .ok _ s => s.checkPut e ok (a + 8) n
      | _ => s.checkPut e ok (a + 8) n

/-- R359: whether n words may be written from an address on by plain stores: nothing is written, and what a refusal counts and logs
(R265) is in the state of a fault. -/
def State.canPut (s : State) (e : Ent) (a : W64) (n : Nat) : StsRes :=
  match s.checkPut e (spaceAllows s.node .storePlain true) a n with
  | .ok s =>
    match s.plainPut e a (List.replicate n 0) with
    | .fault c at_ _ => .fault c at_ (failedPut e at_ s)
    | .wait _ => .wait s
    | .ok _ => .ok s
  | r => r

/-- R376: the pairs of a bank. -/
def State.bank (s : State) (d b : Nat) : List W64 := (List.range 32).map fun j => mget (s.die d).rcs 0 (32 * b + j)

/-- R377: copies a bank and clears it in one step. -/
def execRcsnap (g : Guard) (a : LSpec) (b : BSrc) (s : State) : Host.Outcome State Fault Refusal :=
  runLap (.rcsnap g a b) s fun rd s =>
    let e := s.actor
    let bk := bValue rd .b64 b
    let ea := rd a
    let d := entDie e
    match decodePlace e ea with
    | .error c => .trap { code := c, addr := ea }
    | .ok pl =>
      if !(snapPlace s.node pl) then .trap { code := 0x05, addr := ea }
      else if ea.toNat % 8 ≠ 0 then .trap { code := 0x04, addr := ea }
      else if bk.toNat > 7 then .trap { code := 0x17, info := bk.setWidth 10 }
      else
        match s.checkPut e (snapPlace s.node) ea 32 with
        | .fault c at_ _ =>
          .trapIn (fun s => match s.checkPut e (snapPlace s.node) ea 32 with | .fault _ _ s' => s' | _ => s) { code := c, addr := at_ }
        | .wait _ => .forfeit fun s => match s.checkPut e (snapPlace s.node) ea 32 with | .wait s' => s' | _ => s
        | .ok s =>
        withBanks e (wordAddrs ea 32) (fun s => match s.plainPut e ea (s.bank d bk.toNat) with
        | .fault c at_ _ => .trapIn (failedPut e at_) { code := c, addr := at_ }
        | .wait _ => .forfeit id
        | .ok s =>
          let x := s.die d
          let s := s.setDie d { x with rcs := x.rcs.filter fun p => !(decide (p.1 / 32 = bk.toNat)) }
          let dl := s.draw
          leaveWith (.rcsnap g a b) dl.2 none none .plain (some (s.clk + dl.1)) (some (.ok 0))) s

/-- R377. -/
def execRcrd (g : Guard) (d : LSpec) (b : BSrc) (s : State) : Host.Outcome State Fault Refusal :=
  runLap (.rcrd g d b) s fun rd s =>
    let n := bValue rd .b64 b
    if n.toNat > 255 then .trap { code := 0x17, info := n.setWidth 10 }
    else leaveWith (.rcrd g d b) s (some d) none .plain (some (s.clk + 40))
      (some (.ok (mget (s.die (entDie s.actor)).rcs 0 n.toNat)))

/-! ### Bump allocators -/

def bumpPtr (w : W64) : Nat := w.toNat % 2 ^ 23
def bumpLim (w : W64) : Nat := w.toNat / 2 ^ 23 % 2 ^ 23
def bumpAl (w : W64) : Nat := w.toNat / 2 ^ 46 % 8

def roundUp (n m : Nat) : Nat := (n + m - 1) / m * m

/-- How a BUMP ends. -/
inductive BumpRes where
  /-- the block's offset, the allocator, and the addresses of the headers read, the last first -/
  | ok (p lim chain : Nat) (reads : List W64)
  | fault (t : Trap)
  /-- a header that a plain load cannot read -/
  | unread (code c : Nat)
  /-- a header that waits for a posted store -/
  | wait
  /-- the chunk list never ends -/
  | never
deriving DecidableEq, Repr

/-- The address of a chunk header in the own scratchpad. -/
def chunkAddr (c : Nat) : W64 := BitVec.ofNat 64 (9 * 2 ^ 60 + c)

/-- R379: the search along the chunk list, each header read with a plain load; fuel is more than the headers a scratchpad can hold. -/
def bumpSearch (s : State) (e : Ent) (n al p l c : Nat) (reads : List W64) : Nat → BumpRes
  | 0 => .never
  | f + 1 =>
    if p + n ≤ l then .ok p l c reads
    else if c = 0 then .fault { code := 0x1B }
    else if c % 8 ≠ 0 then .fault { code := 0x04, addr := chunkAddr c }
    else match s.pread e (chunkAddr c) .b64 false with
    | .fault code _ => .unread code c
    | .wait _ | .remote _ _ => .wait
    | .ok h _ =>
      let size := h % 2 ^ 22
      if h / 2 ^ 44 ≠ 0 ∨ size < 8 ∨ c + size > 2 ^ 22 then .fault { code := 0x17, info := 1023 }
      else bumpSearch s e n al (roundUp (c + 8) al) (c + size) (h / 2 ^ 22 % 2 ^ 22) (chunkAddr c :: reads) f

/-- R32, R379: allocates a block, each header read by one access; it lands 12 clk after issue and 12 more for each header read. -/
def execBump (g : Guard) (d : LSpec) (b : BSrc) (al : BitVec 3) (s : State) : Host.Outcome State Fault Refusal :=
  runLap (.bump g d b al) s fun rd s =>
    match entKid s.actor with
    | none => .trap { code := 0x05 }
    | some k =>
      let n := bValue rd .b64 b
      let c := s.cluster k
      let w := c.bumps[al.toNat]
      if n = 0 ∨ n.toNat > 2 ^ 21 then .trap { code := 0x17, info := n.setWidth 10 }
      else if w.1.getLsbD 63 = false then .trap { code := 0x1B }
      else
        let unit := 2 ^ (3 + bumpAl w.1)
        let size := roundUp n.toNat unit
        match bumpSearch s s.actor size unit (bumpPtr w.1) (bumpLim w.1) (w.2.toNat % 2 ^ 22) [] (2 ^ 19 + 2) with
        | .fault t => .trap t
        | .unread code ch =>
          .trapIn (fun s => match s.pread s.actor (chunkAddr ch) .b64 false with | .fault _ s' => s' | _ => s)
            { code := code, addr := chunkAddr ch }
        | .wait | .never => .forfeit id
        | .ok p l ch r =>
          let w0 := BitVec.ofNat 64 (p + size + l * 2 ^ 23 + bumpAl w.1 * 2 ^ 46 + 2 ^ 63)
          withReads s.actor r.reverse (fun s =>
            let c := s.cluster k
            let s := s.setCluster k { c with bumps := c.bumps.set al.toNat (w0, BitVec.ofNat 64 ch) }
            leaveWith (.bump g d b al) s (some d) none .plain (some (s.clk + 12 + 12 * r.length))
              (some (.ok (BitVec.ofNat 64 (9 * 2 ^ 60 + p))))) s

/-- R379: whether the words of a valid allocator are legal. -/
def bumpOk (a b : W64) : Bool :=
  a.extractLsb' 49 14 == 0#14 && bumpAl a != 7 && decide (bumpPtr a ≤ bumpLim a) && decide (bumpLim a ≤ 0x400000)
    && b.extractLsb' 22 42 == 0#42 && b.toNat % 8 == 0

/-- R379: the words are written at issue, the old word 0 lands 12 clk later. -/
def execBumpset (g : Guard) (d a b : LSpec) (al : BitVec 3) (s : State) : Host.Outcome State Fault Refusal :=
  runLap (.bumpset g d a b al) s fun rd s =>
    match entKid s.actor with
    | none => .trap { code := 0x05 }
    | some k =>
      let c := s.cluster k
      let old := c.bumps[al.toNat]
      let x := rd a
      let y := rd b
      if x.getLsbD 63 ∧ !(bumpOk x y) then .trap { code := 0x17, info := 1023 }
      else
        let w : W64 × W64 := (x &&& 0x8001FFFFFFFFFFFF, y &&& 0x3FFFFF)
        let s := s.setCluster k { c with bumps := c.bumps.set al.toNat w }
        leaveWith (.bumpset g d a b al) s (some d) none .plain (some (s.clk + 12)) (some (.ok old.1))

end Sys2Proof.Machine
end

