-- ==== Sys2Proof/Machine/Table.lean ====
section
/-! DEFINITION. Decode tables: entries, the sorted permutation, decoding and the encoding procedure (R57 to R59, R134, R346),
with e8m0 as the table R40 makes it, and the MX blocks (R41, R42). -/

namespace Sys2Proof.Machine

/-- R346: class of an entry: 0 finite, 1 zero, 2 infinity, 3 NaN. -/
def entCls (x : W32) : Nat := x.toNat / 2 ^ 19 % 4
def entNeg (x : W32) : Bool := x.getLsbD 18

/-- R57: the magnitude of a finite entry in units of 2^-136. -/
def entMag (x : W32) : Nat :=
  let e := x.toNat / 2 ^ 10 % 256
  let m := x.toNat % 2 ^ 10
  if e = 0 then m else (1024 + m) * 2 ^ (e - 1)

/-- R57, R58: the value of an entry. -/
def entVal (x : W32) : FVal :=
  match entCls x with
  | 0 => .num (entNeg x) (entMag x) (-136) false
  | 1 => .zero (entNeg x)
  | 2 => .inf (entNeg x)
  | _ => .nan false

/-- Signed units of 2^-136 of a finite or zero entry. -/
def entInt (x : W32) : Int := if entCls x = 1 then 0 else signed (entNeg x) (entMag x)

/-- A code of a table with its entry. -/
structure Cand where
  code : Nat
  val : Int
  negZ : Bool
  isZero : Bool
deriving DecidableEq, Repr

/-- R59: the order of the permutation: ascending value, -0 before +0, the lower code first. -/
def Cand.le (a b : Cand) : Bool :=
  decide (a.val < b.val) || (a.val == b.val && ((a.negZ && !b.negZ) || (a.negZ == b.negZ && decide (a.code ≤ b.code))))

def candInsert (x : Cand) : List Cand → List Cand
  | [] => [x]
  | y :: t => if x.le y then x :: y :: t else y :: candInsert x t

/-- The codes of a list of entries, from code n on. -/
def candList (n : Nat) : List W32 → List Cand
  | [] => []
  | x :: t =>
    if entCls x < 2 then
      candInsert { code := n, val := entInt x, negZ := entCls x = 1 && entNeg x, isZero := entCls x = 1 } (candList (n + 1) t)
    else candList (n + 1) t

/-- The lowest code with a property, from code n on. -/
def findCode (n : Nat) (p : W32 → Bool) : List W32 → Option Nat
  | [] => none
  | x :: t => if p x then some n else findCode (n + 1) p t

/-- What R59 needs of a table: candidates in order, NaN code, infinity codes, tiny bound in units of 2^-149. -/
structure EncTab where
  cands : List Cand
  nan : Option Nat
  pinf : Option Nat
  ninf : Option Nat
  tiny : Nat
deriving DecidableEq, Repr

/-- R58, R59: a loaded table. -/
def DTab.encTab (t : DTab) : EncTab :=
  let es := t.entries.take (2 ^ t.width)
  { cands := candList 0 es
    nan := findCode 0 (fun x => entCls x = 3) es
    pinf := findCode 0 (fun x => entCls x = 2 && !entNeg x) es
    ninf := findCode 0 (fun x => entCls x = 2 && entNeg x) es
    tiny := match decF fmtF32 t.tiny.toNat with
      | .num _ m e _ => m * 2 ^ (e + 149).toNat
      | _ => 0 }

/-- R40: e8m0 as a table of 255 powers of two and a NaN; its smallest normal is 2^-127 (log 21). -/
def e8m0Tab : EncTab :=
  { cands := (List.range 255).map fun e => { code := e, val := (2 ^ (e + 9) : Int), negZ := false, isZero := false }
    nan := some 255, pinf := none, ninf := none, tiny := 0 }

/-- R58: the value of a code. -/
def DTab.decode (t : DTab) (c : Nat) : FVal := entVal (t.entries.getD (c % 2 ^ t.width) 0)

/-- R40: the value of an e8m0 code. -/
def decE8m0 (c : Nat) : FVal := if c % 256 = 255 then .nan false else .num false 1 ((c % 256 : Nat) - 127) false

/-- Units of 2^-1200 of a finite value: its floor, and whether something lies beyond. -/
def units1200 (m : Nat) (e : Int) (st : Bool) : Nat × Bool :=
  if e ≥ -1200 then (m * 2 ^ (e + 1200).toNat, st)
  else
    let k := (-1200 - e).toNat
    (m / 2 ^ k, st || m % 2 ^ k != 0)

/-- A candidate's value in units of 2^-1200. -/
def Cand.big (c : Cand) : Int := c.val * 2 ^ 1064

/-- R59: the tie rule between two codes. -/
def tieFirst (a b : Nat) : Bool :=
  if a % 2 = 0 ∧ b % 2 = 1 then true else if a % 2 = 1 ∧ b % 2 = 0 then false else decide (a ≤ b)

/-- R59: the code the tie rule takes among candidates of one value. -/
def tieCode : List Cand → Option Nat
  | [] => none
  | c :: cs => some (cs.foldl (fun a b => if tieFirst a b.code then a else b.code) c.code)

/-- R59: the zero code of a sign, else the zero code of the other sign; of several the lowest (log 77). -/
def EncTab.zeroCode (t : EncTab) (neg : Bool) : Option Nat :=
  let zeros := t.cands.filter (·.isZero)
  (zeros.find? fun c => c.negZ == neg).or zeros.head? |>.map (·.code)

/-- R59: the code that stands for a value some candidate holds: a zero takes x's sign; of several codes of one value the tie
rule takes one (DEDUCED, log 77: R59 says so for an exact value only). -/
def EncTab.codeOf (t : EncTab) (neg : Bool) (v : Int) : Nat :=
  if v = 0 then (t.zeroCode neg).getD 0 else (tieCode (t.cands.filter fun c => c.val == v)).getD 0

/-- R59: the nonzero candidates of a sign, ascending. -/
def EncTab.side (t : EncTab) (neg : Bool) : List Cand :=
  t.cands.filter fun c => if neg then decide (c.val < 0) else decide (c.val > 0)

/-- R59: the candidate of the other sign nearest to a value whose own sign has none and whose table holds no zero code; the
lower code among equals. -/
def EncTab.across (t : EncTab) (neg : Bool) : Option Cand :=
  let v : Option Int := (if neg then (t.side false).head? else (t.side true).getLast?).map (·.val)
  v.bind fun v => t.cands.find? fun c => c.val == v

/-- R54, R59: UF of a result of a magnitude in units of 2^-1200. -/
def EncTab.ufOf (t : EncTab) (mag : Nat) : Flags := if mag = 0 ∨ mag < t.tiny * 2 ^ 1051 then fUF else 0

/-- R49, R59, R134: the code of a value beyond the table's range: its infinity, or under .ns the NaN code, or a stated code. -/
def EncTab.overCode (t : EncTab) (neg ns : Bool) (top : Nat) : Nat :=
  ((if neg then t.ninf else t.pinf).or (if ns then t.nan else none)).getD top

/-- R49, R59, R134: an infinity. Without an infinity code the candidate at that end of the table stands for the largest
finite magnitude (log 77: also where it is of the other sign). -/
def encInf (t : EncTab) (ns neg : Bool) : Option (Nat × Flags) :=
  match (if neg then t.ninf else t.pinf), (if neg then t.cands.head? else t.cands.getLast?) with
  | some c, _ => some (c, 0)
  | none, none => none
  | none, some c => some (t.overCode neg ns (t.codeOf neg c.val), fNV)

/-- R59: a zero: its code, or with no zero code the candidate of its sign nearest to it, or that of the other sign. -/
def encZero (t : EncTab) (neg : Bool) : Option (Nat × Flags) :=
  match t.zeroCode neg, (if neg then (t.side true).getLast? else (t.side false).head?) with
  | some c, _ => some (c, 0)
  | none, some c => some (t.codeOf neg c.val, fNX)
  | none, none => (t.across neg).map fun c => (c.code, fNX)

/-- R59: a neighbour of an inexact value: its value in units of 2^-1200, its code, and whether it is the virtual code. -/
structure Neigh where
  val : Int
  code : Nat
  virt : Bool
deriving DecidableEq, Repr

/-- R59: the virtual neighbour beyond the largest finite magnitude of a sign, when that sign has a nonzero candidate. -/
def EncTab.virtual (t : EncTab) (neg : Bool) : Option Neigh :=
  let own := t.side neg
  let mags : List Nat := own.map (·.val.natAbs)
  let top := mags.foldl max 0
  let next := (mags.filter (· < top)).foldl max 0
  if own.isEmpty then none
  else
    let topV : Int := if neg then -(top : Int) else top
    let mag : Int := ((top + (top - next) : Nat) : Int) * 2 ^ 1064
    some { val := if neg then -mag else mag, code := t.codeOf neg topV + 1, virt := true }

/-- R50, R51, R59: whether the upper of two neighbours is chosen. fl is the floor of the value in units of 2^-1200, st whether
something lies beyond it, r SR's random number. -/
def upperChosen (rm : Rm) (neg beyond : Bool) (r : Nat) (fl : Int) (st : Bool) (mag : Nat) (l h : Neigh) : Bool :=
  match rm with
  | .rtz => neg
  | .rdn => false
  | .rup => true
  | .sr =>
    let inn := (if neg then h else l).val.natAbs
    let out := (if neg then l else h).val.natAbs
    let away := beyond || (out != inn && decide (r < (mag - inn) * 2 ^ 32 / (out - inn)))
    away != neg
  | _ =>
    if beyond then !neg
    else
      let two : Int := 2 * fl
      let sum := l.val + h.val
      if two > sum ∨ (two = sum ∧ st) then true
      else if two < sum ∧ ¬(st ∧ two + 2 > sum) then false
      else if two < sum then decide (two + 1 ≥ sum)
      else if rm = .rna then !neg
      else !(tieFirst l.code h.code)

/-- R59: a nonzero finite value that no candidate holds, in a table with a candidate of its sign or a zero code. -/
def encBetween (t : EncTab) (rm : Rm) (ns neg : Bool) (r : Nat) (fl : Int) (st : Bool) (mag : Nat) : Option (Nat × Flags) :=
  let among := if (t.zeroCode neg).isSome then t.cands else t.side neg
  let virt := t.virtual neg
  let real (c : Cand) : Neigh := { val := c.big, code := t.codeOf neg c.val, virt := false }
  let below := (among.filter fun c => decide (c.big < fl) || (st && c.big == fl)).getLast?.map real
  let above := (among.find? fun c => decide (c.big > fl)).map real
  let lo := if neg then below.or virt else below
  let hi := if neg then above else above.or virt
  let beyond := match virt with
    | some v => decide (mag ≥ v.val.natAbs)
    | none => false
  let pick := match lo, hi with
    | some l, some h => some (if upperChosen rm neg beyond r fl st mag l h then h else l)
    | l, h => l.or h
  pick.map fun c =>
    (if c.virt then t.overCode neg ns (c.code - 1) else c.code,
      fNX ||| t.ufOf c.val.natAbs ||| (if c.virt || beyond then fOF else 0))

/-- R59: a nonzero finite value. -/
def encNum (t : EncTab) (rm : Rm) (ns : Bool) (r : Nat) (neg : Bool) (u : Nat × Bool) : Option (Nat × Flags) :=
  -- the floor of the value in units of 2^-1200
  let fl : Int := if neg then (if u.2 then -(u.1 : Int) - 1 else -(u.1 : Int)) else u.1
  match tieCode (t.cands.filter fun c => !u.2 && c.big == fl) with
  | some c => some (c, 0)
  | none =>
    if (t.zeroCode neg).isNone ∧ (t.side neg).isEmpty then
      (t.across neg).map fun c => (c.code, fNX ||| t.ufOf c.big.natAbs)
    else encBetween t rm ns neg r fl u.2 u.1

/-- R59: encodes a value; none is the fault 0x17. r is SR's random number. -/
def encTable (t : EncTab) (rm : Rm) (ns : Bool) (r : Nat) (x : FVal) : Option (Nat × Flags) :=
  match x with
  | .nan s =>
    match t.nan with
    | some c => some (c, if s then fNV else 0)
    | none => (t.zeroCode false).map fun c => (c, fNV)
  | .inf neg => encInf t ns neg
  | .zero neg => encZero t neg
  | .num neg m e st => encNum t rm ns r neg (units1200 m e st)

/-- R40: a value to e8m0. -/
def toE8m0 (rm : Rm) (ns : Bool) (r : Nat) (x : FVal) : Nat × Flags :=
  match x with
  | .zero _ => (0, fUF ||| fNX)
  | .inf neg => (if neg then 0xFF else if ns then 0xFF else 0xFE, fNV)
  | .nan _ => (0xFF, fNV)
  | .num neg m e st =>
    if neg then (0xFF, fNV)
    else if e + (bitLen m : Int) - 1 < -127 then
      -- below the smallest code: code 0 under every mode, tiny unless rounding alone would reach it (R54)
      let q := (encTable e8m0Tab rm ns r (.num false m (e + 64) st)).getD (0, 0)
      (0, if q.1 < 64 then fUF ||| fNX else fNX)
    else (encTable e8m0Tab rm ns r (.num false m e st)).getD (0xFF, 0)

/-! ### Elements of any kind -/

/-- The value of an element: its pattern under a type, a narrow kind and a decode table (R37, R40, R43, R58). -/
def elemVal (t : Ty) (n : Nk) (tab : DTab) (v : Nat) : FVal :=
  match t with
  | .f64 | .f32 | .f16 | .bf16 => decF (tyFmt t) v
  | .narrow => if n = .e8m0 then decE8m0 v else decF (nkFmt n) v
  | .dt => tab.decode v
  | t => intToVal (intVal t v)

/-- A value to a float, narrow or dt element; none is the fault 0x17. -/
def toFloatElem (t : Ty) (n : Nk) (tab : DTab) (rm : Rm) (ns : Bool) (r : Nat) (x : FVal) : Option (Nat × Flags) :=
  match t with
  | .narrow => some (if n = .e8m0 then toE8m0 rm ns r x else roundVal (nkFmt n) rm ns r x)
  | .dt => encTable tab.encTab rm ns r x
  | t => some (roundVal (tyFmt t) rm ns r x)

/-- R133, R134: converts an element; the result has the width of its type. None is the fault 0x17. -/
def convert (dty : Ty) (dn : Nk) (st : Ty) (sn : Nk) (tab : DTab) (rm : Rm) (ns : Bool) (r : Nat) (v : Nat) :
    Option (Nat × Flags) :=
  if dty.isIntKind then
    if st.isIntKind then some (intBits (tyW dty) (satInt dty (intVal st v)), 0)
    else
      let q := toIntKind dty rm r (elemVal st sn tab v)
      some (intBits (tyW dty) q.1, q.2)
  else
    let x := elemVal st sn tab v
    let nv : Flags := if x.isSig then fNV else 0
    (toFloatElem dty dn tab rm ns r x).map fun q => (q.1, q.2 ||| nv)

/-- R61: an offcut of f32 as f64 and back, with the same step and verdict. -/
def offcutTo (t : Ty) (v : W64) : W64 :=
  if t = .f64 then 0x7FF5000000000000 ||| (v &&& 0xFFFF) else 0x7FA80000 ||| (v &&& 0xFFFF)

end Sys2Proof.Machine
end

