-- ==== Sys2Proof/Machine/TableOps.lean ====
section
/-! DEFINITION. Table instructions of the lap set: decode tables, shape records, the token buffer, and the die's tables (R342 to
R361, R366). -/

namespace Sys2Proof.Machine

/-- R343: table index faults: an index, or malformed content. -/
def badIndex (v : W64) : Trap := { code := 0x17, info := v.setWidth 10 }
def malformed : Trap := { code := 0x17, info := 1023 }

/-- R203, R204: a memory fault beside a bad operand: a response comes after the operand's 0x17, an address check before it. -/
def beforeOperand (code : Nat) (bad : Bool) : Bool := !bad || !([0x06, 0x07, 0x09, 0x13, 0x15].contains code)

/-! ### Decode tables -/

/-- R344: the table FN names. -/
def tabOf (e : Ent) : TabSel → TabId
  | .own => ownTab e
  | .cc0 => .cc (entKidReg e) 0
  | .cc1 => .cc (entKidReg e) 1

/-- R346, R347: whether an entry of a loaded table is legal; its reserved bits 31 to 21 are ignored (R6). -/
def entryOk (x : W32) : Bool :=
  let e := x.toNat / 2 ^ 10 % 256
  let m := x.toNat % 2 ^ 10
  if entCls x = 0 then decide (e ≤ 254) && !(e == 0 && m == 0) else e == 0 && m == 0

/-- R54, R347: a positive finite f32. -/
def tinyOk (v : W32) : Bool :=
  match decF fmtF32 v.toNat with
  | .num false _ _ _ => true
  | _ => false

/-- R347: a table image, as its 260 words of 32 bits, checked. -/
def parseTable (ws : List W32) : Option DTab :=
  let w0 := ws.getD 0 0
  let n := w0.toNat % 256
  let x : DTab := { width := n, tiny := ws.getD 2 0, entries := ((ws.drop 4).take 256).map (· &&& 0x1FFFFF) }
  if (n = 4 ∨ n = 6 ∨ n = 8) ∧ w0.toNat / 256 = 0 ∧ ws.getD 1 0 = 0 ∧ ws.getD 3 0 = 0 ∧ tinyOk x.tiny
      ∧ ((x.entries.take (2 ^ n)).all entryOk) then some x
  else none

/-- How a read of 32-bit words ends. -/
inductive ImgRes where
  | ok (ws : List W32) (s : State)
  | fault (code : Nat) (a : W64) (s : State)
  | wait (s : State)

/-- n 32-bit words read by plain loads. -/
def State.plainHalves (s : State) (e : Ent) (a : W64) : Nat → ImgRes
  | 0 => .ok [] s
  | n + 1 =>
    match s.plainRead e a .n32 false with
    | .fault c s => .fault c a s
    | .wait s | .remote _ s => .wait s
    | .ok v s =>
      match s.plainHalves e (a + 4) n with
      | .ok ws s => .ok (BitVec.ofNat 32 v :: ws) s
      | r => r

/-- R347: the last clk in which a load of a table that is under way may replace it. -/
def State.tableDues (s : State) (t : TabId) : Nat :=
  s.harts.foldl (fun (n : Nat) h => match h.2.pend with
    | some p => (match p.act with | .table u _ => if u = t then max n (p.due.getD 0) else n | _ => n)
    | none => n) 0

/-- R32, R345, R347: the image is read now (log 12), when its banks are free, and the table replaced 64 clk after the last read has landed, loads of one table in the
order of their turns. -/
def execDtld (g : Guard) (a : LSpec) (t : TabSel) (s : State) : Host.Outcome State Fault Refusal :=
  runLap (.dtld g a t) s fun rd s =>
    let e := s.actor
    let ea := rd a
    match s.plainHalves e ea 260 with
    | .fault c at_ _ => .trapIn (fun s => match s.plainHalves e ea 260 with | .fault _ _ s' => s' | _ => s)
        { code := c, addr := at_ }
    | .wait _ => .forfeit fun s => match s.plainHalves e ea 260 with | .wait s' => s' | _ => s
    | .ok ws s =>
      match parseTable ws with
      | none => .trap malformed
      | some x =>
        withBanks e (wordAddrs ea 130) (fun s =>
          let dl := s.draw
          let due := max (s.clk + dl.1 + 64) (s.tableDues (tabOf e t) + 1)
          leaveWith (.dtld g a t) dl.2 none none (.table (tabOf e t) x) (some due) (some (.ok 0))) s

/-- R348. -/
def tableWord (x : DTab) (n : Nat) : Option W64 :=
  let cs := x.encTab.cands
  if n < 256 then some ((x.entries.getD n 0).setWidth 64)
  else if n < 512 then
    match cs[n - 256]? with
    | some c => some (BitVec.ofNat 64 (c.code + 256))
    | none => some 0
  else if n = 512 then some (BitVec.ofNat 64 (x.width + cs.length * 2 ^ 8 + x.tiny.toNat * 2 ^ 32))
  else none

/-- R348. -/
def execDtrd (g : Guard) (d : LSpec) (b : BSrc) (t : TabSel) (s : State) : Host.Outcome State Fault Refusal :=
  runLap (.dtrd g d b t) s fun rd s =>
    let n := bValue rd .b64 b
    match tableWord (s.tab (tabOf s.actor t)) n.toNat with
    | some v => doneWith s d v
    | none => .trap (if n.toNat ≤ 1023 then badIndex n else malformed)

/-! ### Shape records -/

/-- R350: the shape-record cache a use of an entity goes to. -/
def State.shapesOf (s : State) (e : Ent) : List (W64 × List W64) :=
  match e, entKid e with
  | .re d, _ => (s.die d).shapes
  | _, some k => (s.cluster k).shapes
  | _, none => []

def State.setShapes (s : State) (e : Ent) (l : List (W64 × List W64)) : State :=
  match e, entKid e with
  | .re d, _ => s.setDie d { s.die d with shapes := l.take 64 }
  | _, some k => s.setCluster k { s.cluster k with shapes := l.take 16 }
  | _, none => s

/-- R345, R350: SRFENCE drops one entry or all, of the own cluster's cache and, with re, of the die's routing engine. -/
def execSrfence (g : Guard) (re : Bool) (rec : Option LSpec) (s : State) : Host.Outcome State Fault Refusal :=
  runLap (.srfence g re rec) s fun rd s =>
    let e := s.actor
    let keep (x : W64 × List W64) : Bool := match rec with | some r => x.1 != rd r | none => false
    let s := match entKid e with
      | some k => s.setCluster k { s.cluster k with shapes := (s.cluster k).shapes.filter keep }
      | none => s
    if re then
      let d := entDie e
      let s := s.setDie d { s.die d with shapes := (s.die d).shapes.filter keep }
      let dl := s.draw
      leaveWith (.srfence g re rec) dl.2 none none .plain (some (s.clk + dl.1)) (some (.ok 0))
    else leaveWith (.srfence g re rec) s none none .plain (some (s.clk + 12)) (some (.ok 0))

/-- R351: whether a kind-2 record is well-formed. -/
def groupOk (r : List W64) : Bool :=
  wd r 0 == 0x1502 && decide (1 ≤ (wd r 2).toNat) && decide ((wd r 2).toNat ≤ 65535) && wd r 6 == 8
    && (List.range 24).all fun i => i == 0 || i == 1 || i == 2 || i == 6 || wd r i == 0

/-- How a read that is part of an instruction ends when it gives no value: it waits, or it faults, with the state that leaves. -/
structure ReadStop where
  trap : Option Trap
  s : State

/-- Words of a record or an offset vector in a scratchpad, read by a plain load (R350, R352); it changes no state. -/
def State.loadWord (s : State) (e : Ent) (a : W64) : Except ReadStop Nat :=
  match s.plainRead e a .b64 false with
  | .ok v _ => .ok v
  | .fault c s' => .error { trap := some { code := c, addr := a }, s := s' }
  | .wait s' | .remote _ s' => .error { trap := none, s := s' }

/-- Word i of an offset vector. -/
def vecWord (s : State) (e : Ent) (v : W64) (i : Nat) : Except ReadStop Nat := s.loadWord e (v + BitVec.ofNat 64 (8 * i))

def vecTile (w : Nat) : Nat := w / 2 ^ 32
def vecRow (w : Nat) : Nat := w % 2 ^ 32

/-- R352: the binary search, with the words it has read; fuel bounds its 17 rounds. -/
def grpSearch (s : State) (e : Ent) (v : W64) (t lo hi : Nat) (seen : List Nat) : Nat → Except ReadStop (Nat × List Nat)
  | 0 => .ok (lo, seen)
  | f + 1 =>
    if hi - lo > 1 then
      let mid := (lo + hi) / 2
      match vecWord s e v mid with
      | .error x => .error x
      | .ok w => if vecTile w ≤ t then grpSearch s e v t mid hi (mid :: seen) f else grpSearch s e v t lo mid (mid :: seen) f
    else .ok (lo, seen)

/-- R351, R352: the result of a search that has ended at group lo, from words lo and lo + 1 of the vector; all of it is exact (R7). -/
def grpResult (lo w w1 t : Nat) : W64 :=
  let rs : Int := (vecRow w : Int) + 64 * ((t : Int) - vecTile w)
  let cnt : Int := min 64 ((vecRow w1 : Int) - rs)
  BitVec.ofNat 64 lo ||| (BitVec.ofInt 64 rs <<< 16) ||| (BitVec.ofInt 64 cnt <<< 48)

/-- R352: the group of a row tile, and the words of the vector read. -/
def grpFind (s : State) (e : Ent) (v : W64) (n t : Nat) : Except ReadStop (W64 × List Nat) :=
  match vecWord s e v n with
  | .error x => .error x
  | .ok w =>
    if t ≥ vecTile w then .ok (0x8000000000000000, [n])
    else match grpSearch s e v t 0 n [n] 17 with
    | .error x => .error x
    | .ok (lo, seen) =>
      match vecWord s e v lo, vecWord s e v (lo + 1) with
      | .ok w, .ok w1 => .ok (grpResult lo w w1 t, lo :: (lo + 1) :: seen)
      | .error x, _ | _, .error x => .error x

/-- The words of a record, read by plain loads (R350). -/
def recordAt (s : State) (e : Ent) (a : W64) : Nat → Except ReadStop (List W64)
  | 0 => .ok []
  | n + 1 =>
    match s.loadWord e a with
    | .error x => .error x
    | .ok v =>
      match recordAt s e (a + 8) n with
      | .ok l => .ok (BitVec.ofNat 64 v :: l)
      | .error x => .error x

/-- How a GRPFIND ends: a value, whether the record was cached, the addresses of the words read, and the state; or a stop. -/
inductive GrpRes where
  | ok (v : W64) (cached : Bool) (reads : List W64) (s : State)
  | stop (x : ReadStop)

/-- R351, R352: the group of a row tile. -/
def State.grpLookup (s : State) (e : Ent) (rec : W64) (t : Nat) : GrpRes :=
  let fault (t : Trap) : GrpRes := .stop { trap := some t, s := s }
  match decodePlace e rec with
  | .ok (.csp _ off) =>
    if off + 192 > 2 ^ 22 then fault { code := 0x05, addr := rec }
    else if off % 64 ≠ 0 then fault malformed
    else
      let old := s.shapesOf e
      let hit := old.find? fun x => x.1 = rec
      let got : Except ReadStop (List W64) := match hit with | some x => .ok x.2 | none => recordAt s e rec 24
      match got with
      | .error x => .stop x
      | .ok r =>
        if !(groupOk r) then fault malformed
        else
          let n := (wd r 2).toNat
          match decodePlace e (wd r 1) with
          | .ok (.csp _ v) =>
            if v + 8 * (n + 1) > 2 ^ 22 then fault { code := 0x05, addr := wd r 1 }
            else if v % 8 ≠ 0 then fault { code := 0x04, addr := wd r 1 }
            else match grpFind s e (wd r 1) n t with
              | .error x => .stop x
              | .ok (d, seen) =>
                .ok d hit.isSome ((if hit.isSome then [] else (List.range 24).map fun i => rec + BitVec.ofNat 64 (8 * i))
                    ++ seen.dedup.map fun i => wd r 1 + BitVec.ofNat 64 (8 * i))
                  (s.setShapes e ((rec, r) :: old.filter fun x => x.1 != rec))
          | _ => fault { code := 0x05, addr := wd r 1 }
  | .error c => fault { code := c, addr := rec }
  | .ok _ => fault { code := 0x05, addr := rec }

/-- R32, R345, R352: the lap form asks for the banks of the words it reads, and tries again when one is taken. -/
def execGrpfind (o : Dab) (s : State) : Host.Outcome State Fault Refusal :=
  runLap (.grpfind o) s fun rd s =>
    match s.grpLookup s.actor (rd o.a) ((bValue rd .b64 o.b).toNat % 2 ^ 32) with
    | .stop { trap := some t, s := _ } =>
      .trapIn (fun s => match s.grpLookup s.actor (rd o.a) ((bValue rd .b64 o.b).toNat % 2 ^ 32) with | .stop x => x.s | _ => s) t
    | .stop { trap := none, s := _ } => .forfeit id
    | .ok v cached reads s' =>
      match s'.takeBanks (s.banksOf s.actor reads) with
      | none => .forfeit fun s => s.forfeitBank s.actor
      | some s => leaveWith (.grpfind o) s (some o.d) none .plain (some (s.clk + if cached then 90 else 114)) (some (.ok v))

/-! ### The token translation buffer -/

def TokEnt.hits (x : TokEnt) (key : W64) : Bool :=
  x.v && x.blk == key.extractLsb' 0 32 && x.seq == key.extractLsb' 32 16

/-- R354: the entry a fill takes. -/
def tokSlot (x : LapCore) (key : W64) : Nat × Bool :=
  match (List.range 64).find? fun i => (x.toks.getD i .zero).hits key with
  | some i => (i, false)
  | none =>
    match (List.range 64).find? fun i => !(x.toks.getD i .zero).v with
    | some i => (i, false)
    | none => (x.victim, true)

/-- R354. -/
def execTbfill (g : Guard) (a b : LSpec) (s : State) : Host.Outcome State Fault Refusal :=
  runLap (.tbfill g a b) s fun rd s =>
    onCore s fun k c x =>
      let key := rd a
      let p := tokSlot x key
      let ent : TokEnt := { v := true, blk := key.extractLsb' 0 32, seq := key.extractLsb' 32 16, addr := rd b }
      .done (s.setCore k c { x with
        toks := x.toks.mapFinIdx fun j v _ => if j = p.1 then ent else v
        victim := if p.2 then (x.victim + 1) % 64 else x.victim })

/-- R354. -/
def execTbfillVec (g : Guard) (a : LSpec) (s : State) : Host.Outcome State Fault Refusal :=
  runLap (.tbfillVec g a) s fun rd s => onCore s fun k c x => .done (s.setCore k c { x with tokVec := rd a })

/-- R354: clears by key, by sequence, or all. -/
def execTbinv (g : Guard) (d : LSpec) (key : Option LSpec) (seqOnly : Bool) (s : State) : Host.Outcome State Fault Refusal :=
  runLap (.tbinv g d key seqOnly) s fun rd s =>
    onCore s fun k c x =>
      let hit (y : TokEnt) : Bool := match key with
        | none => y.v
        | some r => if seqOnly then y.v && y.seq == (rd r).extractLsb' 32 16 else y.hits (rd r)
      let n := (x.toks.toList.filter hit).length
      doneWith (s.setCore k c { x with toks := x.toks.map fun y => if hit y then { y with v := false } else y }) d
        (BitVec.ofNat 64 n)

/-- R355: on a miss the thread goes to the vector with the key in h8 and its own address in h9. -/
def execTbprobe (g : Guard) (d a : LSpec) (s : State) : Host.Outcome State Fault Refusal :=
  runLap (.tbprobe g d a) s fun rd s =>
    onCore s fun _ _ x =>
      let key := rd a
      match x.toks.toList.find? fun y => y.hits key with
      | some y => doneWith s d y.addr
      | none =>
        if x.tokVec = 0 then .trap { code := 0x0F }
        else
          let e := s.actor
          -- on the state before the pops: its source is not consumed
          .forfeit fun s => (((s.writeSpec e (.h 8) key).writeSpec e (.h 9) (s.hart e).pc).goOn e x.tokVec)

/-! ### The sequence table (R356 to R359) -/

/-- R345, R356: the clk in which an operation of so many clk at a die's table unit ends: one at a time, in arrival order
(DEDUCED, log 89). -/
def State.unitEnd (s : State) (d clks : Nat) : Nat := max s.clk (s.die d).unitFree + clks

/-- The unit is busy until then. -/
def State.useUnit (s : State) (d clks : Nat) : State := s.setDie d { s.die d with unitFree := s.unitEnd d clks }

/-- R345: a result of the die's table unit. -/
def tableUnit (i : Instr) (s : State) (d : Option LSpec) (v : W64) : Act :=
  let dn := entDie s.actor
  leaveWith i (s.useUnit dn 40) d none .plain (some (s.unitEnd dn 40)) (some (.ok v))

def State.seqAt (s : State) (d n : Nat) : List W64 := mget (s.die d).seqs [0, 0, 0, 0] n

/-- An entry of four zero words is not listed. -/
def State.setSeq (s : State) (d n : Nat) (ws : List W64) : State :=
  let x := s.die d
  s.setDie d { x with seqs := if ws = [0, 0, 0, 0] then mdel x.seqs n else mput x.seqs n ws }

def seqState (ws : List W64) : Nat := (wd ws 0).toNat % 8
def seqPrio (ws : List W64) : Nat := (wd ws 0).toNat / 2 ^ 8 % 256
def seqStamp (ws : List W64) : Nat := (wd ws 0).toNat / 2 ^ 32
def seqCtx (ws : List W64) : Nat := (wd ws 1).toNat % 2 ^ 32
def seqPend (ws : List W64) : Nat := (wd ws 1).toNat / 2 ^ 32
def seqGen (ws : List W64) : Nat := (wd ws 2).toNat % 2 ^ 32
def seqMax (ws : List W64) : Nat := (wd ws 2).toNat / 2 ^ 32

/-- The entry with another state. -/
def seqTo (ws : List W64) (st : Nat) : List W64 :=
  ((wd ws 0 &&& ~~~7#64) ||| BitVec.ofNat 64 st) :: ws.drop 1

/-- The issuer and the entry of a sequence-table instruction. -/
def onSeq (s : State) (a : W64) (f : Nat → Nat → List W64 → Act) : Act :=
  let d := entDie s.actor
  if a.toNat > 4095 then .trap (badIndex a) else f d a.toNat (s.seqAt d a.toNat)

/-- R32, R358: admit; the image is read by four accesses. -/
def execSqset (o : Dab) (s : State) : Host.Outcome State Fault Refusal :=
  runLap (.sqset o) s fun rd s =>
    let e := s.actor
    let img := bValue rd .b64 o.b
    match s.plainWords e img 4 with
    | .fault c a _ =>
      if beforeOperand c (decide ((rd o.a).toNat > 4095)) then
        .trapIn (fun s => match s.plainWords e img 4 with | .fault _ _ s' => s' | _ => s) { code := c, addr := BitVec.ofNat 64 a }
      else .trap (badIndex (rd o.a))
    | .wait _ => .forfeit fun s => match s.plainWords e img 4 with | .wait s' => s' | _ => s
    | .ok ws s =>
      if (rd o.a).toNat > 4095 then .trap (badIndex (rd o.a))
      else withReads e (wordAddrs img 4) (fun s => onSeq s (rd o.a) fun d n old =>
        if seqState old ≠ 0 ∨ (wd ws 1).toNat / 2 ^ 32 = 0 then tableUnit (.sqset o) s (some o.d) 1
        else
          let x := s.die d
          let stamp := x.admits + 1
          let w0 : W64 := stamp ++ ((0#16) ++ ((wd ws 0).extractLsb' 8 8 ++ 1#8))
          let s := s.setDie d { x with admits := stamp }
          tableUnit (.sqset o) (s.setSeq d n [w0, wd ws 1, wd ws 2, wd ws 3]) (some o.d) 0) s

/-- R358: the state an operation leads to, or none when it is refused. -/
def seqOp (op : Nat) (ws : List W64) : Option (List W64) :=
  let st := seqState ws
  match op with
  | 1 => if st ∈ [1, 2, 3] then some (seqTo ws 4) else none
  | 2 => if st = 4 then some (seqTo ws (if seqPend ws = 0 then 3 else if seqCtx ws = 0 then 1 else 2)) else none
  | 3 => if st ∈ [4, 3] then some (seqTo ws 5) else none
  | 4 => if st = 5 then some (seqTo ws 4) else none
  | 5 => if st ∈ [1, 2, 3, 4, 5] then some (seqTo ws 6) else none
  | 6 => if st = 6 then some (seqTo ws 0) else none
  | 7 => some [0, 0, 0, 0]
  | _ => none

/-- R358. -/
def execSqsetOp (o : Dab) (s : State) : Host.Outcome State Fault Refusal :=
  runLap (.sqsetOp o) s fun rd s =>
    onSeq s (rd o.a) fun d n old =>
      let b := bValue rd .b64 o.b
      if b.toNat > 7 ∨ b = 0 then .trap malformed
      else match seqOp b.toNat old with
        | some ws => tableUnit (.sqsetOp o) (s.setSeq d n ws) (some o.d) 0
        | none => tableUnit (.sqsetOp o) s (some o.d) 1

/-- R358. -/
def execSqsetUser (o : Dab) (s : State) : Host.Outcome State Fault Refusal :=
  runLap (.sqsetUser o) s fun rd s =>
    onSeq s (rd o.a) fun d n old =>
      if seqState old = 0 then tableUnit (.sqsetUser o) s (some o.d) 1
      else tableUnit (.sqsetUser o) (s.setSeq d n (old.set 3 (bValue rd .b64 o.b))) (some o.d) 0

/-- R358. -/
def execSqsetPrio (o : Dab) (s : State) : Host.Outcome State Fault Refusal :=
  runLap (.sqsetPrio o) s fun rd s =>
    onSeq s (rd o.a) fun d n old =>
      if seqState old = 0 then tableUnit (.sqsetPrio o) s (some o.d) 1
      else
        let w0 := (wd old 0 &&& ~~~(0xFF00#64)) ||| ((bValue rd .b64 o.b &&& 0xFF) <<< 8)
        tableUnit (.sqsetPrio o) (s.setSeq d n (old.set 0 w0)) (some o.d) 0

/-- R358. -/
def execSqget (g : Guard) (d a : LSpec) (w : BitVec 2) (s : State) : Host.Outcome State Fault Refusal :=
  runLap (.sqget g d a w) s fun rd s =>
    onSeq s (rd a) fun _ _ ws => tableUnit (.sqget g d a w) s (some d) (wd ws w.toNat)

/-- What the builder has made so far: the record's entries, the tokens used, and the entries changed. -/
structure Batch where
  recs : List W64
  m : Nat
  used : Nat
  seqs : List (Nat × List W64)

/-- R359: one sequence of the list. -/
def buildOne (tb sb ch : Nat) (b : Batch) (q : Nat × List W64) : Batch :=
  if b.m < sb ∧ b.used < tb then
    let ws := q.2
    let dec := seqState ws = 3
    let n := if dec then 1 else
      let n := min (seqPend ws) (tb - b.used)
      if ch ≠ 0 then min n ch else n
    let ctx := seqCtx ws
    let r0 := BitVec.ofNat 64 (q.1 + (if dec then 0 else 2 ^ 12) + n * 2 ^ 16 + ctx * 2 ^ 32)
    let ctx' := (ctx + n) % 2 ^ 32
    let ws' :=
      if dec then
        let gen := (seqGen ws + 1) % 2 ^ 32
        let w := seqTo ws (if gen ≥ seqMax ws then 6 else 3)
        [wd w 0, BitVec.ofNat 64 (ctx' + seqPend ws * 2 ^ 32), BitVec.ofNat 64 (gen + seqMax ws * 2 ^ 32), wd ws 3]
      else
        let pend := seqPend ws - n
        let w := seqTo ws (if pend = 0 then 3 else 2)
        [wd w 0, BitVec.ofNat 64 (ctx' + pend * 2 ^ 32), wd ws 2, wd ws 3]
    { recs := b.recs ++ [r0, wd ws 3], m := b.m + 1, used := b.used + n, seqs := b.seqs ++ [(q.1, ws')] }
  else b

/-- R359: the order of the list: decode entries, then waiting and prefill ones; priority, stamp, index. -/
def buildList (l : List (Nat × List W64)) : List (Nat × List W64) :=
  let before (a b : Nat × List W64) : Bool :=
    decide (seqPrio a.2 > seqPrio b.2) ||
      (seqPrio a.2 == seqPrio b.2 && (decide (seqStamp a.2 < seqStamp b.2) ||
        (seqStamp a.2 == seqStamp b.2 && decide (a.1 ≤ b.1))))
  sortBy before (l.filter fun x => seqState x.2 = 3) ++ sortBy before (l.filter fun x => seqState x.2 = 1 ∨ seqState x.2 = 2)

/-- R32, R359: forms one batch; the record is written when the banks of its words are free. -/
def execSqbuild (g : Guard) (d a b c : LSpec) (s : State) : Host.Outcome State Fault Refusal :=
  runLap (.sqbuild g d a b c) s fun rd s =>
    let e := s.actor
    let dn := entDie e
    let ea := rd a
    let w := rd b
    let tb := w.toNat % 2 ^ 16
    let sb := w.toNat / 2 ^ 16 % 2 ^ 12
    let ch := w.toNat / 2 ^ 32 % 2 ^ 16
    let name : Option W64 := if c = .z then none else some (rd c)
    let bad : Bool := decide (tb = 0 ∨ sb = 0 ∨ sb > 1024 ∨ w.toNat / 2 ^ 28 % 16 ≠ 0 ∨ w.toNat / 2 ^ 48 ≠ 0)
      || (match name with | some n => decide (n.toNat / 2 ^ 18 ≠ 0) | none => false)
    match s.canPut e ea (1 + 2 * sb) with
    | .fault cd at_ _ =>
      if beforeOperand cd bad then
        .trapIn (fun s => match s.canPut e ea (1 + 2 * sb) with | .fault _ _ s' => s' | _ => s) { code := cd, addr := at_ }
      else .trap malformed
    | .wait _ => .forfeit fun s => match s.canPut e ea (1 + 2 * sb) with | .wait s' => s' | _ => s
    | .ok s =>
      if bad then .trap malformed
      else
        let x := s.die dn
        let r := (buildList x.seqs).foldl (buildOne tb sb ch) { recs := [], m := 0, used := 0, seqs := [] }
        let w0 := BitVec.ofNat 64 (r.m + r.used * 2 ^ 16 + x.builds.toNat * 2 ^ 32)
        withBanks e (wordAddrs ea (1 + 2 * r.m)) (fun s =>
        let s := s.setDie dn { x with builds := x.builds + 1 }
        let s := r.seqs.foldl (fun (s : State) q => s.setSeq dn q.1 q.2) s
        let s := match s.plainPut e ea (w0 :: r.recs) with | .ok s => s | _ => s
        let clks := 1024 + 8 * r.m
        leaveWith (.sqbuild g d a b c) (s.useUnit dn clks) (some d) none (.build none name) (some (s.unitEnd dn clks))
          (some (.ok (BitVec.ofNat 64 r.m)))) s

/-! ### Expert routes (R360, R361) -/

/-- R361: whether a pair of words may be an entry. -/
def expertOk (w0 w1 : W64) : Bool :=
  let group (w : W64) : Bool := decide (w.toNat % 32 + w.toNat / 2 ^ 22 % 32 ≤ 31)
  let split := w0.toNat / 2 ^ 32 % 4
  w0.extractLsb' 27 5 == 0#5 && w0.extractLsb' 34 29 == 0#29 && w1.extractLsb' 35 29 == 0#29
    && (if w0.getLsbD 63 then split != 3 && group w0 && (split == 0 || group w1) else w0 == 0 && w1 == 0)

/-- R361. -/
def execErset (g : Guard) (a b c : LSpec) (s : State) : Host.Outcome State Fault Refusal :=
  runLap (.erset g a b c) s fun rd s =>
    let d := entDie s.actor
    if (rd a).toNat > 255 then .trap (badIndex (rd a))
    else if !(expertOk (rd b) (rd c)) then .trap malformed
    else
      let x := s.die d
      tableUnit (.erset g a b c) (s.setDie d { x with experts := mput x.experts (rd a).toNat (rd b, rd c) }) none 0

/-- R361: the destination of a token. -/
def expertDest (w : W64 × W64) (t : Nat) : W64 :=
  if w.1.getLsbD 63 = false then 0x8000000000000000
  else
    let split := w.1.toNat / 2 ^ 32 % 4
    let rep : Bool := (split == 1 && t % 2 == 1)
      || (split == 2 && decide ((t * 0x9E3779B9) % 2 ^ 32 / 2 ^ 24 < w.2.toNat / 2 ^ 27 % 256))
    let g := if rep then w.2 else w.1
    let core := g.toNat % 32 + t % (g.toNat / 2 ^ 22 % 32 + 1)
    BitVec.ofNat 64 (g.toNat % 2 ^ 22 / 32 * 32 + core % 32)

/-- R361. -/
def execErget (o : Dab) (w : Fin 3) (s : State) : Host.Outcome State Fault Refusal :=
  runLap (.erget o w) s fun rd s =>
    let a := rd o.a
    if a.toNat > 255 then .trap (badIndex a)
    else
      let x := mget (s.die (entDie s.actor)).experts (0, 0) a.toNat
      let v := match w.val with
        | 0 => expertDest x ((bValue rd .b64 o.b).toNat % 2 ^ 32)
        | 1 => x.1
        | _ => x.2
      tableUnit (.erget o w) s (some o.d) v

/-! ### Tolerance regions (R365, R366) -/

/-- R365, R366: whether a pair of words may be an entry: an invalid one, or one with a positive finite limit. -/
def regionOk (w0 w1 : W64) : Bool :=
  let fmt := w0.toNat / 2 ^ 56 % 4
  let pos (x : FVal) : Bool := match x with | .num false _ _ _ => true | _ => false
  w0.extractLsb' 60 4 == 0#4 && fmt != 3 && w0.toNat / 2 ^ 58 % 4 != 3
    && (w0.toNat / 2 ^ 36 % 2 ^ 20 == 0 ||
        (if fmt = 2 then pos (decF fmtF64 w1.toNat) else w1.extractLsb' 32 32 == 0#32 && pos (decF fmtF32 w1.toNat)))

/-- R366: the thread leaves the rotation until every slice has switched. -/
def execTolset (g : Guard) (a b c : LSpec) (die : BitVec 2) (s : State) : Host.Outcome State Fault Refusal :=
  runLap (.tolset g a b c die) s fun rd s =>
    if (rd a).toNat > 63 then .trap (badIndex (rd a))
    else if !(regionOk (rd b) (rd c)) then .trap malformed
    else
      let dl := s.draw
      leaveWith (.tolset g a b c die) (dl.2.useUnit die.toNat dl.1) none none (.region die.toNat (rd a).toNat (rd b) (rd c))
        (some (s.unitEnd die.toNat dl.1)) none

end Sys2Proof.Machine
end

