-- ==== Sys2Proof/Machine/EngineOps.lean ====
section
/-! DEFINITION. The instructions of copy and routing engines (R338 to R340, R362, R363). An instruction of these does one element,
one packed group or one token each time it issues, and stays at its address until all are done. -/

namespace Sys2Proof.Machine

/-! ### Copies -/

/-- R339: a copy descriptor. -/
def copyCount (c : W64) : Nat := c.toNat % 2 ^ 22 + 1
def copySrc (c : W64) : W64 := (c.extractLsb' 22 21).signExtend 64
def copyDst (c : W64) : W64 := (c.extractLsb' 43 21).signExtend 64

/-- R339: the address of element i of w bits. -/
def elemAddr (a stride : W64) (i bytes : Nat) : W64 := a + stride * BitVec.ofNat 64 i * BitVec.ofNat 64 bytes

/-- The elements done so far of the instruction an engine is at. -/
def copyAt (s : State) (e : Ent) (d : W64) : Nat := (s.engine e).progress.getD d.toNat

/-- How one element, group or token ends, or a part of one: a fault's trap holds the elements done before it. -/
inductive UnitRes where
  | ok (v : Nat) (s : State)
  | fault (t : Trap) (s : State)
  | wait (s : State)
  /-- stores to another node, the first of which is waited for -/
  | remote (node : Nat) (ops : List (W64 × AccOp)) (s : State)

/-- R339: the engine has done n of count elements: with the last one D is written and the instruction ends; before that the progress is
the engine's, and the instruction stays at its address with its operands unread. -/
def unitDone (d : LSpec) (n count : Nat) (unit : State → UnitRes) (s : State) : Act :=
  let e := s.actor
  if n ≥ count then
    .done ((s.setEngine e { s.engine e with progress := none, pass := none }).writeSpec e d (BitVec.ofNat 64 n))
  else .forfeit fun s0 =>
    match unit s0 with
    | .ok _ s =>
      let h := s.hart e
      (s.setEngine e { s.engine e with progress := some n }).setHart e
        { h with forfeit := none, reads := 0, early := h.early.filter (·.gather) }
    | _ => s0

/-- R32: the accesses of a unit of a copy ask for their banks, one grant each, and are tried again when one is taken; the clk of the
first try is its age. -/
def onBanks (e : Ent) (l : List W64) (unit : State → UnitRes) (s : State) : UnitRes :=
  match s.takeReads e l with
  | .ok s => unit s
  | .error s => .wait s

/-- R339: the unit from element was to element n of a copy, on the state s in which its operands have been popped. An element that
faults leaves D with the elements done before it, and ends the run (R338). -/
def copyUnit (i : Instr) (d : LSpec) (was n count : Nat) (unit : State → UnitRes) (s : State) : Act :=
  let e := s.actor
  match unit s with
  | .ok _ s => unitDone d n count unit s
  | .wait _ => .forfeit fun s => match unit s with | .wait s' => s' | _ => s
  | .fault t _ =>
    .trapIn (fun s => (match unit s with | .fault _ s' => s' | _ => s).writeSpec e d (BitVec.ofNat 64 t.elems)) t
  | .remote node ops s =>
    let first := ops.headD (0, .pref)
    let x : Access := { kind := .storePlain, op := first.2, ea := first.1, dst := some d, plainB64 := false, posted := false,
                        acq := none, rel := none }
    let dl := s.draw
    let s := dl.2.addReq (reqOf s e x .link 0 (s.clk + dl.1))
    let s := { s with outbox := s.outbox ++ ops.map fun o => .link node (s.entPasid e) o.1 o.2 }
    .leave s { insn := insnWord i, next := if n ≥ count then nextPc s e i else (s.hart e).pc, dst := some d, acq := none,
               act := .progress was n, due := none, ans := none, long := false }

/-- R339: element n by a plain load and a plain store. -/
def copyOne (e : Ent) (ty : Ty) (src dst : W64) (n : Nat) (s : State) : UnitRes :=
  match s.plainRead e src ty false with
  | .fault code s' => .fault { code := code, addr := src, elems := n } s'
  | .wait s' | .remote _ s' => .wait s'
  | .ok v s =>
    match s.plainWrite e dst ty false (BitVec.ofNat 64 v) with
    | .fault code s' => .fault { code := code, addr := dst, elems := n } s'
    | .wait s' => .wait s'
    | .ok _ s => .ok 0 s
    | .remote node s => .remote node [(dst, .store ty false (BitVec.ofNat 64 v))] s

/-- R339. -/
def execXcopy (g : Guard) (ty : Ty) (d a b c : LSpec) (s : State) : Host.Outcome State Fault Refusal :=
  runLap (.xcopy g ty d a b c) s fun rd s =>
    let i := Instr.xcopy g ty d a b c
    let e := s.actor
    let n := copyAt s e (rd d)
    let count := copyCount (rd c)
    let bytes := tyW ty / 8
    let src := elemAddr (rd b) (copySrc (rd c)) n bytes
    let dst := elemAddr (rd a) (copyDst (rd c)) n bytes
    if n ≥ count then .done (s.setEngine e { s.engine e with progress := none })
    else copyUnit i d n (n + 1) count (onBanks e [src, dst] (copyOne e ty src dst n)) s

/-! ### Converting copies -/

/-- R76: the bits of an element in memory, with w bits a code of the loaded table. -/
def elemBits (t : Ty) (n : Nk) (w : Nat) : Nat := tyBits t n w

/-- n bytes read one by one, lowest first. -/
def readBytes (s : State) (e : Ent) (a : W64) : Nat → UnitRes
  | 0 => .ok 0 s
  | n + 1 =>
    match s.plainRead e a .n8 false with
    | .fault c s => .fault { code := c, addr := a } s
    | .wait s | .remote _ s => .wait s
    | .ok v s =>
      match readBytes s e (a + 1) n with
      | .ok r s => .ok (v + 256 * r) s
      | r => r

/-- n bytes written one by one, lowest first; those to another node are gathered. -/
def writeBytesOf (s : State) (e : Ent) (a : W64) (v : Nat) : Nat → UnitRes
  | 0 => .ok 0 s
  | n + 1 =>
    match s.plainWrite e a .n8 false (BitVec.ofNat 64 v) with
    | .fault c s => .fault { code := c, addr := a } s
    | .wait s => .wait s
    | .ok _ s => writeBytesOf s e (a + 1) (v / 256) n
    | .remote node s =>
      let op : W64 × AccOp := (a, .store .n8 false (BitVec.ofNat 64 (v % 256)))
      match writeBytesOf s e (a + 1) (v / 256) n with
      | .remote m l s => if m = node then .remote node (op :: l) s else .wait s
      | .ok _ s => .remote node [op] s
      | r => r

/-- R262, R263: n bytes written as one store: a scratchpad of the node judges and counts them whole. -/
def writeAsOne (s : State) (e : Ent) (a : W64) (n v : Nat) : UnitRes :=
  let at_ (k off : Nat) : UnitRes :=
    let bytes := bytesOf off n v
    if off + n > 2 ^ 22 ∨ (bytes.any fun b => (kickOf k b.1).isSome) then writeBytesOf s e a v n
    else if (List.range n).any fun i => s.postedAt e (a + BitVec.ofNat 64 i) then .wait s
    else if s.badWrite (cspBase k + off) n then .fault { code := 0x13, addr := a } (s.logLost (k / 128) (logWho k e) a)
    else
      let r := s.land k (logWho k e) a bytes false
      if r.2 then .ok 0 r.1 else .fault { code := 0x09, addr := a } r.1
  match decodePlace e a with
  | .ok (.csp k off) => at_ k off
  | .ok (.fabric node k off) =>
    if node = s.node then
      match s.gate (s.entPasid e) k with
      | .pass => at_ k off
      | _ => writeBytesOf s e a v n
    else writeBytesOf s e a v n
  | _ => writeBytesOf s e a v n

/-- The integer type of whole elements of w bits. -/
def wholeTy (w : Nat) : Ty := if w = 64 then .b64 else if w = 32 then .n32 else if w = 16 then .n16 else .n8

/-- A load or a store of one element of a copy. -/
def unitRead (s : State) (e : Ent) (a : W64) (ty : Ty) (hi : Bool) : UnitRes :=
  match s.plainRead e a ty hi with
  | .ok v s => .ok v s
  | .fault c s => .fault { code := c, addr := a } s
  | .wait s | .remote _ s => .wait s

def unitWrite (s : State) (e : Ent) (a : W64) (ty : Ty) (hi : Bool) (v : Nat) : UnitRes :=
  match s.plainWrite e a ty hi (BitVec.ofNat 64 v) with
  | .ok _ s => .ok 0 s
  | .fault c s => .fault { code := c, addr := a } s
  | .wait s => .wait s
  | .remote node s => .remote node [(a, .store ty hi (BitVec.ofNat 64 v))] s

/-- R36: the first byte and the count of bytes that elements n to n + m - 1 of w bits lie in. -/
def packSpan (n m w : Nat) : Nat × Nat := (w * n / 8, (w * (n + m) + 7) / 8 - w * n / 8)

/-- R36, R340: reads element n of a side of w bits; a 4- or 6-bit side is packed. -/
def readElem (s : State) (e : Ent) (a stride : W64) (n w : Nat) : UnitRes :=
  if w = 4 then unitRead s e (a + BitVec.ofNat 64 (n / 2)) .i4 (n % 2 == 1)
  else if w = 6 then
    let p := packSpan n 1 6
    match readBytes s e (a + BitVec.ofNat 64 p.1) p.2 with
    | .ok v s => .ok (v / 2 ^ (6 * n % 8) % 64) s
    | r => r
  else unitRead s e (elemAddr a stride n (w / 8)) (wholeTy w) false

/-- R36: patterns of 6 bits, the first lowest. -/
def pack6 : List Nat → Nat
  | [] => 0
  | v :: t => v % 64 + 64 * pack6 t

/-- R36, R340: writes elements from n on of a side of w bits: one, or the 6-bit elements of one group, merged into its bytes by one
store (outside a scratchpad of the node byte by byte: DEDUCED, log 91). -/
def writeElems (s : State) (e : Ent) (a stride : W64) (n w : Nat) (vals : List Nat) : UnitRes :=
  let v := vals.headD 0
  if w = 4 then unitWrite s e (a + BitVec.ofNat 64 (n / 2)) .i4 (n % 2 == 1) v
  else if w = 6 then
    let p := packSpan n vals.length 6
    let at_ := a + BitVec.ofNat 64 p.1
    match readBytes s e at_ p.2 with
    | .ok old s =>
      let sh := 6 * n % 8
      let top := sh + 6 * vals.length
      writeAsOne s e at_ p.2 (old % 2 ^ sh + pack6 vals * 2 ^ sh + old / 2 ^ top * 2 ^ top)
    | r => r
  else unitWrite s e (elemAddr a stride n (w / 8)) (wholeTy w) false v

/-- R340: elements of one unit of a conversion: one, or the rest of a packed group of 6-bit results. -/
def convGroup (w n count : Nat) : Nat := if w = 6 then min count ((n / 4 + 1) * 4) - n else 1

/-- R133, R134, R340: the converted pattern of an element and its flags, or a fault. -/
def convElem (s : State) (e : Ent) (dty : Ty) (dn : Nk) (sty : Ty) (sn : Nk) (rm : Rm) (ns : Bool) (v : Nat) :
    Except Trap (Nat × Flags) :=
  if isOffcut sty (BitVec.ofNat 64 v) then
    if dty = .f32 ∨ dty = .f64 then .ok ((offcutTo dty (BitVec.ofNat 64 v)).toNat, 0) else .error { code := 0x0C }
  else
    match convert dty dn sty sn (s.tab (ownTab e)) (rmOf (s.hart e).flg rm) ns 0 v with
    | some r => .ok r
    | none => .error { code := 0x17, info := 1023 }

/-- Elements read and converted, until all are done or one stops. -/
structure ConvVals where
  vals : List Nat
  s : State
  /-- what stopped it, if anything: a fault, or a wait -/
  stop : Option (Option Trap)

/-- A conversion as an XCONV names it. -/
structure ConvSpec where
  dty : Ty
  dnk : Nk
  sty : Ty
  snk : Nk
  rm : Rm
  ns : Bool
  /-- the code width of the engine's table (R76) -/
  width : Nat

def ConvSpec.dbits (q : ConvSpec) : Nat := elemBits q.dty q.dnk q.width
def ConvSpec.sbits (q : ConvSpec) : Nat := elemBits q.sty q.snk q.width

/-- R340: m elements from n on, read and converted. -/
def convVals (q : ConvSpec) (e : Ent) (b c : W64) (s : State) (n : Nat) : Nat → ConvVals
  | 0 => { vals := [], s := s, stop := none }
  | m + 1 =>
    match readElem s e b (copySrc c) n q.sbits with
    | .ok v s' =>
      match convElem s' e q.dty q.dnk q.sty q.snk q.rm q.ns v with
      | .error t => { vals := [], s := s', stop := some (some t) }
      | .ok r =>
        let x := convVals q e b c (s'.raise e r.2) (n + 1) m
        { x with vals := r.1 :: x.vals }
    | .fault t s' => { vals := [], s := s', stop := some (some t) }
    | .wait s' | .remote _ _ s' => { vals := [], s := s', stop := some none }

/-- R340: one unit of a conversion: m elements from n on. Those before an element that faults are written. -/
def convUnit (q : ConvSpec) (e : Ent) (a b c : W64) (n m : Nat) (s : State) : UnitRes :=
  let x := convVals q e b c s n m
  let stop (s : State) : UnitRes :=
    match x.stop with
    | none => .ok 0 s
    | some none => .wait s
    | some (some t) => .fault { t with elems := n + x.vals.length } s
  if x.vals = [] ∨ x.stop = some none then stop x.s
  else match writeElems x.s e a (copyDst c) n q.dbits x.vals with
  | .ok _ s => stop s
  | .fault t s => .fault { t with elems := n } s
  | r => r

/-- R32, R36: the addresses of the first and last bytes of a unit's elements of a side. -/
def unitAddrs (a stride : W64) (n m w : Nat) : List W64 :=
  if w = 4 ∨ w = 6 then
    let p := packSpan n m w
    [a + BitVec.ofNat 64 p.1, a + BitVec.ofNat 64 (p.1 + p.2 - 1)]
  else (List.range m).map fun i => elemAddr a stride (n + i) (w / 8)

/-- R340: whether a packed side is legal: stride 1, and a count of whole groups. -/
def packOk (w : Nat) (stride : W64) (count : Nat) : Bool :=
  match w with
  | 4 => stride == 1 && count % 2 == 0
  | 6 => stride == 1 && count % 4 == 0
  | _ => true

/-- R340. -/
def execXconv (g : Guard) (dty : Ty) (dnk : Nk) (sty : Ty) (snk : Nk) (rm : Rm) (ns : Bool) (d a b c : LSpec) (s : State) :
    Host.Outcome State Fault Refusal :=
  runLap (.xconv g dty dnk sty snk rm ns d a b c) s fun rd s =>
    let e := s.actor
    let q : ConvSpec := { dty := dty, dnk := dnk, sty := sty, snk := snk, rm := rm, ns := ns, width := (s.tab (ownTab e)).width }
    let n := copyAt s e (rd d)
    let count := copyCount (rd c)
    if !(packOk q.dbits (copyDst (rd c)) count && packOk q.sbits (copySrc (rd c)) count) then .trap { code := 0x04, addr := rd a }
    else if n ≥ count then .done (s.setEngine e { s.engine e with progress := none })
    else
      let m := convGroup q.dbits n count
      let banks := wordsIn (unitAddrs (rd b) (copySrc (rd c)) n m q.sbits) ++ wordsIn (unitAddrs (rd a) (copyDst (rd c)) n m q.dbits)
      copyUnit (.xconv g dty dnk sty snk rm ns d a b c) d n (n + m) count
        (onBanks e banks (convUnit q e (rd a) (rd b) (rd c) n m)) s

/-! ### The routing pass (R362, R363) -/

/-- The fields of a kind-3 record. -/
structure Pass where
  base : W64
  n : Nat
  e : Nat
  str0 : W64
  str1 : W64
  bias : W64
  idx : W64
  wgt : W64
  ty : Ty
  k : Nat
  sigmoid : Bool
  cnt : Bool
  cbase : Nat
deriving DecidableEq, Repr

def isGlobal (a : W64) : Bool := a.extractLsb' 56 8 == 0#8

/-- R362: a checked record. -/
def parsePass (r : List W64) : Option Pass :=
  let x := wd r 13
  let p : Pass :=
    { base := wd r 1, n := (wd r 2).toNat, e := (wd r 3).toNat, str0 := wd r 6, str1 := wd r 7, bias := wd r 10
      idx := wd r 11, wgt := wd r 12, ty := if wd r 0 = 0x2C03 then .bf16 else .f32, k := x.toNat % 16
      sigmoid := x.getLsbD 4, cnt := x.getLsbD 5, cbase := x.toNat / 2 ^ 8 % 256 }
  if (wd r 0 = 0x2A03 ∨ wd r 0 = 0x2C03) ∧ 1 ≤ p.n ∧ p.n < 2 ^ 32 ∧ 1 ≤ p.e ∧ p.e ≤ 256 ∧ 1 ≤ p.k ∧ p.k ≤ 8 ∧ p.k ≤ p.e
      ∧ x.extractLsb' 6 2 = 0#2 ∧ x.extractLsb' 16 48 = 0#48
      ∧ ([4, 5, 8, 9, 14, 15, 16, 17, 18, 19, 20, 21, 22, 23].all fun i => wd r i == 0)
      ∧ isGlobal p.base ∧ isGlobal p.bias ∧ isGlobal p.idx ∧ isGlobal p.wgt then some p
  else none

/-- log2(e) x 2^700, rounded down (log 19). -/
def log2e700 : Nat :=
  7588771979565835113180691613418230717360072464186775338065358792976116000791874708604684378348647978039642725654749967194411075732051196525511364974155015516366276527615765709144686305901987274305516064176361640

/-- R363: e to a value, for a single rounding. -/
def fExp (x : FVal) : FVal × Flags :=
  match x with
  | .num n m e st => fExp2 (.num n (m * log2e700) (e - 700) st)
  | y => fExp2 y

/-- An f32 result rounded once, with the flags met. -/
def rnd32 (x : FVal × Flags) : Nat × Flags :=
  let r := roundVal fmtF32 .rne false 0 x.1
  (r.1, x.2 ||| r.2)

def f32v (c : Nat) : FVal := decF fmtF32 c

/-- R363: an element widened exactly to f32. -/
def widen32 (ty : Ty) (v : Nat) : Nat := if ty = .bf16 then v * 2 ^ 16 else v

/-- What a token's scores give: s and x of each expert, flags, or the fault met. -/
inductive ScoreRes where
  | ok (s x : List Nat) (f : Flags) (st : State)
  | fault (t : Trap) (st : State)
  | wait (st : State)

/-- R363: the scores of token t, from expert j on. -/
def readScores (s : State) (e : Ent) (p : Pass) (t j : Nat) : Nat → ScoreRes
  | 0 => .ok [] [] 0 s
  | m + 1 =>
    let a := p.base + p.str0 * BitVec.ofNat 64 t + p.str1 * BitVec.ofNat 64 j
    match s.plainRead e a p.ty false with
    | .fault c s => .fault { code := c, addr := a } s
    | .wait s | .remote _ s => .wait s
    | .ok v s =>
      let sc := widen32 p.ty v
      if isOffcut .f32 (BitVec.ofNat 64 sc) then .fault { code := 0x0C } s
      else
        let ba := p.bias + BitVec.ofNat 64 (4 * j)
        let b : GRes := if p.bias = 0 then .ok 0 s else s.plainRead e ba .f32 false
        match b with
        | .fault c s => .fault { code := c, addr := ba } s
        | .wait s | .remote _ s => .wait s
        | .ok b s =>
          if p.bias ≠ 0 ∧ isOffcut .f32 (BitVec.ofNat 64 b) then .fault { code := 0x0C } s
          else
            let x := if p.bias = 0 then (sc, (0 : Flags)) else rnd32 (fAdd .rne (f32v sc) (f32v b))
            match readScores s e p t (j + 1) m with
            | .ok ss xs f s => .ok (sc :: ss) (x.1 :: xs) (x.2 ||| f) s
            | r => r

/-- R185: whether pair (v, i) ranks above (w, j); +0 equals -0. -/
def ranksAbove (v w : FVal) (i j : Nat) : Bool :=
  let eq : Bool := match v, w with | .zero _, .zero _ => true | _, _ => cmpNum v w == .eq
  if eq then decide (i < j) else cmpNum v w == .gt

/-- R363: the k best experts. -/
def bestOf (xs : List Nat) (k : Nat) : List Nat :=
  let l := (xs.zipIdx.filter fun x => !((f32v x.1).isNan))
  ((sortBy (fun a b => ranksAbove (f32v a.1) (f32v b.1) a.2 b.2) l).take k).map (·.2)

/-- R363: the weights of the chosen experts, and flags. -/
def passWeights (p : Pass) (ss : List Nat) (sel : List Nat) : List Nat × Flags :=
  let sc := sel.map fun j => ss.getD j 0
  let mx := sc.foldl (fun m v => match m with
    | none => some v
    | some w => if cmpNum (f32v v) (f32v w) == .gt then some v else some w) none
  let ps := sc.map fun v =>
    if p.sigmoid then
      let ex := fExp (f32v v).neg
      let d := fAdd .rne (.num false 1 0 false) ex.1
      let q := fDiv (.num false 1 0 false) d.1
      rnd32 (q.1, ex.2 ||| d.2 ||| q.2)
    else
      let df := rnd32 (fAdd .rne (f32v v) (f32v (mx.getD 0)).neg)
      let r := rnd32 (fExp (f32v df.1))
      (r.1, df.2 ||| r.2)
  match ps with
  | [] => ([], 0)
  | q :: t =>
    let z := t.foldl (fun (z : Nat × Flags) x =>
      let r := rnd32 (fAdd .rne (f32v z.1) (f32v x.1))
      (r.1, z.2 ||| r.2)) (q.1, 0)
    let ws := ps.map fun x => rnd32 (fDiv (f32v x.1) (f32v z.1))
    (ws.map (·.1), (ps ++ ws).foldl (fun f x => f ||| x.2) z.2)

/-- R376: one routing pair counts a choice. -/
def pairAdd (w : W64) (wt : Nat) : W64 × Flags :=
  let c := min (w.toNat % 2 ^ 32 + 1) (2 ^ 32 - 1)
  let r := rnd32 (fAdd .rne (f32v (w.toNat / 2 ^ 32)) (f32v wt))
  (BitVec.ofNat 64 (c + r.1 * 2 ^ 32), r.2)

/-- Stores of a token's outputs, in order: type, address and value. -/
def putAll (s : State) (e : Ent) : List (Ty × W64 × Nat) → UnitRes
  | [] => .ok 0 s
  | (ty, a, v) :: t =>
    match s.plainWrite e a ty false (BitVec.ofNat 64 v) with
    | .fault c s => .fault { code := c, addr := a } s
    | .wait s | .remote _ s => .wait s
    | .ok _ s => putAll s e t

/-- R363: one token. -/
def routeToken (s : State) (e : Ent) (p : Pass) (t : Nat) : UnitRes :=
  match readScores s e p t 0 p.e with
  | .fault tr s => .fault { tr with elems := t } s
  | .wait s => .wait s
  | .ok ss xs f s =>
    let sel := bestOf xs p.k
    let w := passWeights p ss sel
    let nv : Flags := if xs.any fun x => (f32v x).isNan then fNV else 0
    let outs := (List.range p.k).map fun i =>
      (Ty.n16, p.idx + BitVec.ofNat 64 (2 * (t * p.k + i)), match sel[i]? with | some j => j | none => 0xFFFF)
    let wouts := (List.range p.k).map fun i =>
      (Ty.f32, p.wgt + BitVec.ofNat 64 (4 * (t * p.k + i)), w.1.getD i 0)
    match putAll s e (outs ++ wouts) with
    | .ok _ s =>
      let d := entDie e
      let r := if p.cnt then sel.zipIdx.foldl (fun (a : KMap Nat W64 × Flags) j =>
          let n := (p.cbase + j.1) % 256
          let q := pairAdd (mget a.1 0 n) (w.1.getD j.2 0)
          (mput a.1 n q.1, a.2 ||| q.2)) ((s.die d).rcs, 0)
        else ((s.die d).rcs, 0)
      let s := s.setDie d { s.die d with rcs := r.1 }
      .ok 0 (s.raise e (f ||| w.2 ||| nv ||| r.2))
    | .fault tr s => .fault { tr with elems := t } s
    | r => r

/-- R32, R349, R350: the words of a record, through the cache; an uncached record is read by plain loads, one grant each. -/
def State.recordWords (s : State) (e : Ent) (a : W64) : HRead :=
  match (s.shapesOf e).find? fun x => x.1 = a with
  | some x => .ok x.2 s
  | none =>
    match s.takeReads e (wordAddrs a 24) with
    | .ok s => s.plainWords e a 24
    | .error s => .wait s

/-- R350, R363: the record of the pass an engine is at, read once: the words, and the engine keeps them; a record that fails its checks
is not cached. -/
def State.passRecord (s : State) (e : Ent) (a : W64) : HRead :=
  match (s.engine e).pass with
  | some r => .ok r s
  | none =>
    match s.recordWords e a with
    | .ok r s =>
      if a.toNat % 64 ≠ 0 ∨ (parsePass r).isNone then .ok r s
      else
        let s := s.setShapes e ((a, r) :: (s.shapesOf e).filter fun x => x.1 != a)
        .ok r (s.setEngine e { s.engine e with pass := some r })
    | r => r

/-- R363: one token of a pass, with its record. -/
def routeUnit (e : Ent) (a : W64) (t : Nat) (s : State) : UnitRes :=
  match s.passRecord e a with
  | .fault c at_ s => .fault { code := c, addr := BitVec.ofNat 64 at_, elems := t } s
  | .wait s => .wait s
  | .ok r s =>
    if a.toNat % 64 ≠ 0 then .fault { malformed with elems := t } s
    else match parsePass r with
    | none => .fault { malformed with elems := t } s
    | some p =>
      routeToken s e p t

/-- R363: one token of a pass each time it issues. A fault in the record or in a token leaves D at the first token not done. -/
def execRoute (g : Guard) (d a : LSpec) (s : State) : Host.Outcome State Fault Refusal :=
  runLap (.route g d a) s fun rd s =>
    let e := s.actor
    let t := copyAt s e (rd d)
    let unit := routeUnit e (rd a) t
    match s.passRecord e (rd a) with
    | .ok r s' =>
      let n := match parsePass r with | some p => p.n | none => t + 1
      if t ≥ n ∧ (rd a).toNat % 64 = 0 then .done (s'.setEngine e { s'.engine e with progress := none, pass := none })
      else copyUnit (.route g d a) d t (t + 1) n unit s
    | _ => copyUnit (.route g d a) d t (t + 1) (t + 1) unit s

end Sys2Proof.Machine
end

