-- ==== Sys2Proof/Machine/SSlot.lean ====
section
/-! DEFINITION. What a syllable does when its bundle issues, how it reads registers, and the S slot (R136 to R145, R152, R153,
R352). -/

namespace Sys2Proof.Machine

/-! ### Syllables and the state they read -/

/-- The state in which a bundle issues, with its context: every syllable reads this state (R142). -/
structure CtxAt where
  s : State
  k : Nat
  cc : Nat
  x : Nat

/-- What a syllable does: the execution faults it meets (R150), its results with their latencies, the target of a taken branch,
and its other effects at issue. -/
structure Eff where
  traps : List Trap := []
  writes : List PWrite := []
  target : Option W64 := none
  act : State → State := id
  /-- what its fault leaves beside the trap (R242) -/
  fails : State → State := id

def CtxAt.t (b : CtxAt) : Ctx := b.s.ctx b.k b.cc b.x
def CtxAt.core (b : CtxAt) : CcState := b.s.cc b.k b.cc
def CtxAt.ent (b : CtxAt) : Ent := .ctx b.k b.cc b.x

/-- R143: a register as the bundle reads it. -/
def CtxAt.reg (b : CtxAt) (r : CReg) : VReg := b.s.creg b.k b.cc r
def CtxAt.c (b : CtxAt) (n : BitVec 6) : W64 := (b.reg (.c b.x n)).setWidth 64
def CtxAt.m (b : CtxAt) (n : BitVec 3) : MReg := (b.reg (.m b.x n)).setWidth 512

/-- A predicate; 0 is always (R86). -/
def CtxAt.q (b : CtxAt) (n : BitVec 4) : Bool := n == 0 || b.reg (.q b.x n) != 0

/-- R137, R164: `fl` shows the row that leaves in this schedule cycle. -/
def CcState.fl (c : CcState) : VReg :=
  match c.flq.find? (fun r => r.1 = 1) with
  | some r => r.2
  | none => 0

/-- R87: a vector source. -/
def CtxAt.v (b : CtxAt) : VSpec → VReg
  | .v n => b.reg (.v n)
  | .fl => b.core.fl
  | .vz => 0

/-- R140: whether a mask field makes a lane active. -/
def CtxAt.active (b : CtxAt) (k : BitVec 3) (i : Nat) : Bool := k == 0 || decide (512 ≤ i) || (b.m k).getLsbD i

/-- A vector destination: what is written to `vz` is discarded. -/
def VSpec.dest : VSpec → CReg
  | .v n => .v n
  | _ => .z

/-- The register a vector specifier names, with those that follow it. -/
def VSpec.regs (v : VSpec) (n : Nat) : List CReg :=
  match v with
  | .v m => (List.range n).map fun i => .v (m + i)
  | _ => []

/-- R142: a result of latency L. -/
def CtxAt.write (b : CtxAt) (r : CReg) (l : Nat) (val : VReg) : PWrite :=
  { x := b.x, reg := r, val := val, mask := none, left := l, flags := 0 }

/-- A 64-bit result in a scalar register. -/
def CtxAt.writeC (b : CtxAt) (d : BitVec 6) (l : Nat) (v : W64) : PWrite := b.write (.c b.x d) l (v.setWidth 4096)

/-! ### The S slot -/

/-- R152: a second operand. -/
def CtxAt.src (b : CtxAt) : SSrc → W64
  | .reg n => b.c n
  | .imm v => v.signExtend 64

/-- R152: the two-source operations. -/
def sBin (op : SOp) (a b : W64) : W64 :=
  match op with
  | .add => a + b
  | .sub => a - b
  | .mul => a * b
  | .and => a &&& b
  | .or => a ||| b
  | .xor => a ^^^ b
  | .shl => a <<< (b.toNat % 64)
  | .shr => a >>> (b.toNat % 64)
  | .sra => a.sshiftRight (b.toNat % 64)
  | .min => if BitVec.sle a b then a else b
  | .max => if BitVec.sle b a then a else b

/-- R141, R152: the latency of an S operation. -/
def sLat (op : SOp) : Nat := if op = .mul then 3 else 1

/-- R89: the conditions of CMP. -/
def sCond (c : SCond) (a b : W64) : Bool :=
  match c with
  | .eq => a == b
  | .ne => a != b
  | .lt => BitVec.slt a b
  | .le => BitVec.sle a b
  | .gt => BitVec.slt b a
  | .ge => BitVec.sle b a
  | .ltu => BitVec.ult a b
  | .leu => BitVec.ule a b
  | .gtu => BitVec.ult b a
  | .geu => BitVec.ule b a

/-- R88: the target of a branch with a displacement in bundles. -/
def bundleTarget (a : W64) (disp : W32) : W64 := a + disp.signExtend 64 * 64

/-- R145: a branch to a target that is not 64-byte aligned faults. -/
def jumpOff (t : W64) : Eff :=
  if t.extractLsb' 0 6 = 0#6 then { target := some t } else { traps := [{ code := 0x04, addr := t }] }

/-- R352: the search of GRPFIND; its reads have been made before the issue cycle. A context has no posted accesses to wait for
(R170), so its reads never wait. -/
def sGrpfind (b : CtxAt) (d a t : BitVec 6) : Eff :=
  let find (s : State) : GrpRes := s.grpLookup b.ent (b.c a) (b.c t).toNat
  match find b.s with
  | .stop x => { traps := x.trap.toList, fails := fun s => match find s with | .stop x => x.s | _ => s }
  | .ok v _ _ _ => { writes := [b.writeC d 1 v], act := fun s => match find s with | .ok _ _ _ s => s | _ => s }

/-- R153: the loop counter and its branch. -/
def sLoopc (b : CtxAt) (d : BitVec 6) (disp : W32) : Eff :=
  let n := b.c d - 1
  { writes := [b.writeC d 1 n], target := if n = 0 then none else some (bundleTarget b.t.pc disp) }

/-- R153, R304: HALTC and FENCEC raise a recorded refusal, whose record the trap clears. -/
def refusalTraps (b : CtxAt) : List Trap := if b.t.refused then [{ code := 0x14 }] else []

/-- R153: the context halts at the end of its bundle, which is a switch. -/
def State.haltCtx (s : State) (k cc x : Nat) : State :=
  (s.setCtx k cc x { s.ctx k cc x with state := 4, wait := 0 }).yieldCtx k cc x

/-- R152, R153, R352: an S syllable. -/
def sSyl (b : CtxAt) (y : SSyl) : Eff :=
  match y with
  | .bin op d a v => { writes := [b.writeC d (sLat op) (sBin op (b.c a) (b.src v))] }
  | .mov d v => { writes := [b.writeC d 1 (b.src v)] }
  | .cmp q c a v => { writes := [b.write (.q b.x q) 1 (if sCond c (b.c a) (b.src v) then 1 else 0)] }
  | .sel d a v q => { writes := [b.writeC d 1 (if b.q q then b.c a else b.src v)] }
  | .lea d a v sh => { writes := [b.writeC d 1 (b.c a + (b.c v <<< sh.toNat))] }
  | .leaImm d a v => { writes := [b.writeC d 1 (b.c a + v.signExtend 64)] }
  | .grpfind d a t => sGrpfind b d a t
  | .br disp => { target := some (bundleTarget b.t.pc disp) }
  | .jmp a disp => jumpOff (bundleTarget (b.c a) disp)
  | .loopc d disp => sLoopc b d disp
  | .call d disp => { writes := [b.writeC d 1 (b.t.pc + 192)], target := some (bundleTarget b.t.pc disp) }
  | .ret a => jumpOff (b.c a)
  | .haltc => { traps := refusalTraps b }

/-- R143: the registers an S syllable reads. -/
def SSyl.reads (x : Nat) (y : SSyl) : List CReg :=
  let src (v : SSrc) : List CReg := match v with | .reg n => [.c x n] | .imm _ => []
  match y with
  | .bin _ _ a v | .cmp _ _ a v => .c x a :: src v
  | .mov _ v => src v
  | .sel _ a v q => .c x a :: .q x q :: src v
  | .lea _ a v _ | .grpfind _ a v => [.c x a, .c x v]
  | .leaImm _ a _ | .jmp a _ | .ret a => [.c x a]
  | .loopc d _ => [.c x d]
  | .br _ | .call _ _ | .haltc => []

end Sys2Proof.Machine
end

