-- ==== Sys2Proof/Machine/Accum.lean ====
section
/-! DEFINITION. Accumulators, podiums, tile images and the operand latch, the bound monitor, and the arithmetic of an array step
(R60, R62, R63, R171 to R173, R177 to R186, R190, R260). -/

namespace Sys2Proof.Machine

/-! ### ACCST (R172) -/

def setStField (st : W64) (lo n v : Nat) : W64 :=
  (st &&& ~~~(BitVec.ofNat 64 ((2 ^ n - 1) * 2 ^ lo))) ||| BitVec.ofNat 64 (v % 2 ^ n * 2 ^ lo)

def Accu.atype (a : Accu) : Nat := stField a.st 2 2
def Accu.pred (a : Accu) : Nat := stField a.st 4 2
def Accu.both (a : Accu) : Bool := a.st.getLsbD 6
def Accu.tgt (a : Accu) : Nat := stField a.st 7 2
def Accu.ins (a : Accu) : Bool := a.st.getLsbD 9
def Accu.len (a : Accu) : Nat := stField a.st 10 15
def Accu.step (a : Accu) : Nat := stField a.st 25 15
def Accu.allab (a : Accu) : Bool := a.st.getLsbD 45
def Accu.done (a : Accu) : Bool := a.st.getLsbD 47

/-- R172: the length of a podium. -/
def Accu.podLen (a : Accu) : Nat := stField a.st 10 6 + 1

/-- R172: flags join ACCST.flg, NX at its lowest bit. -/
def Accu.raiseFlags (a : Accu) (f : Flags) : Accu := { a with st := a.st ||| BitVec.ofNat 64 (f.toNat * 2 ^ 40) }

/-- The format of an accumulator's elements; i32 has none. -/
def Accu.fmt (a : Accu) : FFmt := if a.atype = 1 then fmtF64 else fmtF32

/-- The type of an accumulator's elements. -/
def Accu.ty (a : Accu) : Ty :=
  match a.atype with
  | 1 => .f64
  | 2 => .i32
  | _ => .f32

def CcState.accu (c : CcState) (a : Nat) : Accu := c.acc.getD a .zero
def CcState.setAccu (c : CcState) (a : Nat) (v : Accu) : CcState :=
  { c with acc := c.acc.mapIdx fun j y => if j = a then v else y }

/-! ### Elements (R171, R173) -/

/-- Element 64 r + j. -/
def Accu.elem (a : Accu) (i : Nat) : W64 := (a.elems.lookup i).getD a.blank

/-- An accumulator with all its elements given. -/
def Accu.setElems (a : Accu) (f : Nat → W64) : Accu :=
  { a with elems := (List.range 4096).filterMap fun i => let v := f i; if v = a.blank then none else some (i, v) }

/-- R60, R173: whether an element is an offcut. -/
def Accu.isOff (a : Accu) (v : W64) : Bool := a.kind != 2 && isOffcut a.ty v

/-- R60: the offcut of step s with a verdict, as an element. -/
def Accu.offcut (a : Accu) (s : Nat) (verdict : Bool) : W64 :=
  let low := BitVec.ofNat 64 (s % 2 ^ 15 * 2 + if verdict then 1 else 0)
  if a.atype = 1 then 0x7FF5000000000000 ||| low else 0x7FA80000 ||| low

/-- R190: what ACCZERO leaves. -/
def Accu.zeroed (a : Accu) : Accu :=
  { Accu.zero with st := BitVec.ofNat 64 (a.st.toNat % 2 ^ 25), th := a.th }

/-- R183: the reset of a completion with insertion: as ACCZERO, with the flags kept out of it. -/
def Accu.completionReset (a : Accu) : Accu := a.zeroed

/-! ### Podiums (R185, R186) -/

/-- The value and index of a pair. -/
def pairVal (p : W64) : FVal := f32v (p.toNat % 2 ^ 32)
def pairIdx (p : W64) : Nat := p.toNat / 2 ^ 32

/-- The pairs a row of a podium holds, best first. -/
def Accu.pairs (a : Accu) (r : Nat) : List W64 :=
  ((List.range a.podLen).map fun s => a.elem (64 * r + s)).filter fun p => p != emptyPair

/-- Puts the pairs of a row back, best first. -/
def Accu.setPairs (a : Accu) (r : Nat) (l : List W64) : Accu :=
  a.setElems fun i => if i / 64 = r then (if i % 64 < a.podLen then l.getD (i % 64) emptyPair else emptyPair) else a.elem i

def Accu.raiseAt (a : Accu) (r : Nat) : W32 := a.raise.getD r 0xFF800000

/-- Whether v is below w in the podium order: the zeros are equal. -/
def podBelow (v w : FVal) : Bool :=
  match v, w with
  | .zero _, .zero _ => false
  | _, _ => cmpNum v w == .lt

/-- R185: the floor of a row. -/
def Accu.floor (a : Accu) (r : Nat) : W32 :=
  let l := a.pairs r
  if l.length = a.podLen then (l.getD (a.podLen - 1) emptyPair).setWidth 32 else a.raiseAt r

/-- Places a pair in rank order. -/
def podPlace (p : W64) : List W64 → List W64
  | [] => [p]
  | q :: t => if ranksAbove (pairVal p) (pairVal q) (pairIdx p) (pairIdx q) then p :: q :: t else q :: podPlace p t

/-- R185: an insertion, and whether it sets NV. -/
def Accu.insert (a : Accu) (r : Nat) (val idx : W32) : Accu × Bool :=
  let v := f32v val.toNat
  if isOffcut .f32 (val.setWidth 64) then (a, false)
  else if v.isNan then (a, true)
  else
    let val : W32 := match v with | .zero _ => 0 | _ => val
    let p : W64 := idx ++ val
    if podBelow v (f32v (a.raiseAt r).toNat) then (a, false)
    else
      let l := a.pairs r
      if l.contains p then (a, false) else (a.setPairs r ((podPlace p l).take a.podLen), false)

/-- R193: raises a row's floor value, and drops the pairs below it; a NaN is ignored and gives true. -/
def Accu.praise (a : Accu) (r : Nat) (val : W32) : Accu × Bool :=
  let v := f32v val.toNat
  if v.isNan then (a, true)
  else if podBelow (f32v (a.raiseAt r).toNat) v then
    let a := { a with raise := a.raise.set r val }
    (a.setPairs r ((a.pairs r).filter fun p => !(podBelow (pairVal p) v)), false)
  else (a, false)

/-! ### Tile images (R177, R178, R255, R259, R260) -/

/-- A tile as the array reads it: format, validity mask, and the bytes of its header and data. -/
structure TImg where
  ty : Ty
  nk : Nk
  wide : Bool
  vmask : W64
  byte : Nat → Byte

/-- R242: a byte of a tile as the array takes it: of uncorrectable data it receives none, so the byte is a free value (log 57). -/
def State.tileByte (s : State) (a : Nat) : Byte := if s.lost a 1 then Config.lostByte s.fresh a else memGet s.mem a

/-- R178: the image of the tile buffer of an index. -/
def State.tileImg (s : State) (k i : Nat) : TImg :=
  let t := s.tile k i
  { ty := t.ty, nk := t.nk, wide := t.wide, vmask := t.vmask, byte := fun o => s.tileByte (cspBase k + t.base + o) }

/-- R242: the uncorrectable words of a tile, which a read of it logs. -/
def State.logTile (s : State) (k cc x i : Nat) : State :=
  let t := s.tile k i
  let a := cspBase k + t.base
  (s.bad.filter fun w => decide (a ≤ w) && decide (w < a + t.size)).foldl (fun (s : State) w =>
    s.logLost (k / 128) (logSyl k cc x 3) (BitVec.ofNat 64 (9 * 2 ^ 60 + (w - cspBase k)))) s

/-- R179: the image a latch buffer holds. -/
def Latch.img : Latch → Option TImg
  | .tile ty nk wide vmask bytes => some { ty := ty, nk := nk, wide := wide, vmask := vmask, byte := fun o => bytes.getD o 0 }
  | _ => none

/-- R179: what MBLD loads of a tile. -/
def State.latchTile (s : State) (k i : Nat) : Latch :=
  let t := s.tile k i
  .tile t.ty t.nk t.wide t.vmask ((List.range t.size).map fun o => s.tileByte (cspBase k + t.base + o))

/-- n bytes of an image, lowest first. -/
def TImg.word (t : TImg) (o : Nat) : Nat → Nat
  | 0 => 0
  | n + 1 => (t.byte o).toNat + 256 * t.word (o + 1) n

def TImg.ibase (t : TImg) : Nat := t.word 0x30 4
def TImg.npres (t : TImg) : Bool := (t.byte 0x34).getLsbD 0
def TImg.spres (t : TImg) : Bool := (t.byte 0x34).getLsbD 1

/-- R178: the suffix norm of a row; +infinity without norms, or for a NaN. -/
def TImg.norm (t : TImg) (r : Nat) : FVal :=
  if t.npres then
    let v := f32v (t.word (0x100 + 4 * r) 4)
    if v.isNan then .inf false else v
  else .inf false

/-- R260: the scale of a block of a row. -/
def TImg.scale (t : TImg) (r b : Nat) : Nat := if t.spres then (t.byte (0x80 + 2 * r + b)).toNat else 127

/-- R178: whether a row is present. -/
def TImg.present (t : TImg) (r : Nat) : Bool := t.vmask.getLsbD r

/-- Width of an element of an image in bits. -/
def TImg.bits (t : TImg) : Nat := if t.ty = .i4 ∧ t.wide then 8 else tyBits t.ty t.nk 8

/-- R36, R255: the pattern of element c of row r. -/
def TImg.pattern (t : TImg) (r c : Nat) : Nat :=
  let w := t.bits
  let o := w * c
  let a := 0x200 + r * rowBytes t.ty t.nk t.wide + o / 8
  t.word a ((o % 8 + w + 7) / 8) / 2 ^ (o % 8) % 2 ^ w

/-- R177: the product classes. -/
inductive PClass where
  | f64 | f32 | half | eight | e2m1 | mx8 | mx2m1 | mxi8 | i8
deriving DecidableEq, Repr

/-- R177: the class a format may be in. -/
def classOf (t : Ty) (n : Nk) (wide : Bool) : Option PClass :=
  match t with
  | .f64 => some .f64
  | .f32 => some .f32
  | .bf16 | .f16 => some .half
  | .dt => some .eight
  | .i4 => if wide then some .i8 else none
  | .narrow =>
    match n with
    | .e4m3 | .e5m2 | .e4m3z | .e3m2 | .e2m3 => some .eight
    | .e2m1 => some .e2m1
    | .mxe4m3 | .mxe5m2 | .mxe3m2 | .mxe2m3 => some .mx8
    | .mxe2m1 => some .mx2m1
    | .mxi8 => some .mxi8
    | .e8m0 => none
  | _ => none

def TImg.cls (t : TImg) : Option PClass := classOf t.ty t.nk t.wide

/-- R177: the class of a pair of tiles, when they form one. -/
def pairClass (a b : TImg) : Option PClass :=
  match a.cls, b.cls with
  | some x, some y => if x = y then some x else none
  | _, _ => none

/-- R177: the accumulator type a class needs, as ACCST codes it. -/
def PClass.accType (p : PClass) : Nat :=
  match p with
  | .f64 => 1
  | .i8 => 2
  | _ => 0

/-- R174: array clk of a step. -/
def PClass.clks (p : PClass) : Nat :=
  match p with
  | .f64 => 1024
  | .f32 => 256
  | .half => 64
  | .e2m1 | .mx2m1 => 16
  | _ => 32

/-- R181: roundings per step. -/
def PClass.rho (p : PClass) : Nat :=
  match p with
  | .eight => 32
  | .e2m1 => 16
  | .mx8 | .mx2m1 | .mxi8 => 2
  | _ => 64

/-- R62: products summed exactly before each rounding. -/
def PClass.group (p : PClass) : Nat :=
  match p with
  | .eight => 2
  | .e2m1 => 4
  | .mx8 | .mx2m1 | .mxi8 => 32
  | _ => 1

def PClass.isMx (p : PClass) : Bool := p == .mx8 || p == .mx2m1 || p == .mxi8

/-! ### One step of products (R62, R63) -/

/-- The value of an element of an image under a decode table. -/
def TImg.value (t : TImg) (tab : DTab) (r c : Nat) : FVal :=
  if t.ty = .narrow ∧ t.nk = .mxi8 then ofInt (intVal .i8 (t.pattern r c)) (-6) false
  else elemVal t.ty t.nk tab (t.pattern r c)

/-- R62: the product of A(r, k) and B(k, j); an absent row or column contributes +0 and raises nothing. -/
def prodAt (a b : TImg) (tab : DTab) (r j c : Nat) : FVal × Flags :=
  if a.present r && b.present j then fMul (a.value tab r c) (b.value tab j c) else (.zero false, 0)

/-- The exact sum of a list of products with a first value. -/
def exactSum (x : FVal × Flags) : List (FVal × Flags) → FVal × Flags
  | [] => x
  | p :: t =>
    let r := fAdd .rne x.1 p.1
    exactSum (r.1, x.2 ||| p.2 ||| r.2) t

/-- R62: one rounded addition of a group of products. -/
def addGroup (f : FFmt) (acc : Nat × Flags) (l : List (FVal × Flags)) : Nat × Flags :=
  let x := exactSum (decF f acc.1, acc.2) l
  let r := roundVal f .rne false 0 x.1
  (r.1, x.2 ||| r.2)

/-- R63: one block of an MX product: its exact sum, scaled, added with one rounding. -/
def addBlock (f : FFmt) (a b : TImg) (tab : DTab) (r j blk : Nat) (acc : Nat × Flags) : Nat × Flags :=
  let here := a.present r && b.present j
  let xa := a.scale r blk
  let xb := b.scale j blk
  let ks := (List.range 32).map fun i => 32 * blk + i
  let nan := here && (xa == 255 || xb == 255
    || ks.any fun c => (a.value tab r c).isNan || (b.value tab j c).isNan)
  if nan then (f.dnan, acc.2 ||| fNV)
  else
    -- the sum starts with the first product: 32 products of -0 sum to -0 (R52)
    let p := exactSum (prodAt a b tab r j (32 * blk)) ((ks.drop 1).map fun c => prodAt a b tab r j c)
    let q := match p.1 with
      | .num n m e st => FVal.num n m (e + (xa : Int) + (xb : Int) - 254) st
      | y => y
    addGroup f (acc.1, acc.2 ||| p.2) [(q, 0)]

/-- R62, R63: the step's products added to an element, and its flags. -/
def stepElem (p : PClass) (a b : TImg) (tab : DTab) (r j : Nat) (v : W64) : W64 × Flags :=
  match p with
  | .i8 =>
    let sum := (List.range 64).foldl (fun (n : Int) c =>
      if a.present r && b.present j then n + intVal .i8 (a.pattern r c) * intVal .i8 (b.pattern j c) else n) (v.toNat : Int)
    (BitVec.ofNat 64 (intBits 32 sum), 0)
  | _ =>
    let f := if p = .f64 then fmtF64 else fmtF32
    let n := p.group
    let x := (List.range (64 / n)).foldl (fun (acc : Nat × Flags) g =>
      if p.isMx then addBlock f a b tab r j g acc
      else addGroup f acc ((List.range n).map fun i => prodAt a b tab r j (n * g + i))) (v.toNat % 2 ^ f.bits, 0)
    (BitVec.ofNat 64 x.1, x.2)

/-! ### The bound monitor (R181) -/

/-- An f32 or f64 operation rounded in a direction, as a value. -/
def rndTo (f : FFmt) (rm : Rm) (x : FVal) : FVal := decF f (roundVal f rm false 0 x).1

def FVal.abs (x : FVal) : FVal :=
  match x with
  | .zero _ => .zero false
  | .num _ m e st => .num false m e st
  | .inf _ => .inf false
  | y => y

/-- R181: rounding toward +infinity in f32. -/
def ru (x : FVal) : FVal := rndTo fmtF32 .rup x

def pow2 (k : Int) : FVal := .num false 1 k false

/-- R181: the bound B of an element: rem steps are still to come. -/
def stepBound (p : PClass) (f64 : Bool) (rem : Int) (na nb v : FVal) : FVal :=
  let bprod := ru (fMul na nb).1
  let m := ru (fAdd .rup (ru v.abs) bprod).1
  let u := pow2 (if f64 then -52 else -23)
  let n := ofInt (p.rho * rem) 0 false
  let e := ru (fAdd .rup (ru (fMul (ru (fMul n u).1) m).1) (ru (fMul n (pow2 (-149))).1)).1
  ru (fAdd .rup bprod e).1

/-- Whether x is at least y, and whether it is above y, as numbers: the zeros are equal. -/
def geNum (x y : FVal) : Bool := !(podBelow x y)
def gtNum (x y : FVal) : Bool := podBelow y x

/-- R181: the decision on an element: none, false or true. -/
def decide1 (a : Accu) (p : PClass) (na nb : FVal) (r : Nat) (v : W64) : Option Bool :=
  let f := a.fmt
  let x := decF f (v.toNat % 2 ^ f.bits)
  let b := stepBound p (a.atype == 1) ((a.len : Int) - a.step) na nb x
  match x, b with
  | .nan _, _ | .inf _, _ | _, .inf false | _, .nan _ => none
  | _, _ =>
    let lo := rndTo f .rdn (fAdd .rdn x b.neg).1
    let hi := rndTo f .rup (fAdd .rup x b).1
    match a.pred with
    | 1 =>
      let fl := f32v (a.snap.getD r 0xFF800000).toNat
      if geNum lo fl then some true else if podBelow hi fl then some false else none
    | 2 =>
      let g := decF f (a.th.toNat % 2 ^ f.bits)
      if g.isNan then none
      else if gtNum lo g then some true else if geNum g hi then some false else none
    | _ => if geNum lo (.zero false) then some true else if podBelow hi (.zero false) then some false else none

/-- R181: the monitor at the start of a step of a verdict sum; elements abandoned are counted beside it. -/
def Accu.monitor (a : Accu) (p : PClass) (ta tb : TImg) : Accu × Nat :=
  let dec (i : Nat) : Option Bool :=
    let v := a.elem i
    if a.isOff v || a.decided.contains i then none else decide1 a p (ta.norm (i / 64)) (tb.norm (i % 64)) (i / 64) v
  let res := (List.range 4096).map fun i => (i, dec i)
  let gone : List (Nat × Bool) := res.filterMap fun x => match x.2 with
    | some false => some (x.1, false)
    | some true => if a.both then some (x.1, true) else none
    | none => none
  let kept := res.filterMap fun x => if x.2 = some true ∧ !a.both then some x.1 else none
  let b := a.setElems fun i => match gone.lookup i with
    | some v => a.offcut a.step v
    | none => a.elem i
  let b := { b with decided := a.decided ++ kept }
  let all := (List.range 4096).all fun i => b.isOff (b.elem i)
  (if all then { b with st := setStField b.st 45 1 1 } else b, gone.length)

/-! ### Completion (R183) -/

/-- R183: the verdict of an element that is no offcut. -/
def Accu.verdict (a : Accu) (r : Nat) (v : W64) : Bool :=
  let f := a.fmt
  let x := decF f (v.toNat % 2 ^ f.bits)
  if x.isNan then false
  else match a.pred with
    | 1 => geNum x (f32v (a.snap.getD r 0xFF800000).toNat)
    | 2 => let g := decF f (a.th.toNat % 2 ^ f.bits); !g.isNan && gtNum x g
    | _ => geNum x (.zero false)

/-- R183: the insertions of a completion into a podium, ascending r, then j; and whether one met a NaN. -/
def completionInsert (a pod : Accu) (ibase : Nat) : Accu × Bool :=
  (List.range 4096).foldl (fun (x : Accu × Bool) i =>
    let r := i / 64
    let j := i % 64
    let v := a.elem i
    if a.row.getLsbD r && a.col.getLsbD j && !(a.isOff v) && a.verdict r v then
      let q := x.1.insert r (v.setWidth 32) (BitVec.ofNat 32 (ibase + j))
      (q.1, x.2 || q.2)
    else x) (pod, false)

end Sys2Proof.Machine
end

