-- ==== Sys2Proof/Machine/Bits.lean ====
section
/-! DEFINITION. The bit, shift, field and address instructions of the lap set, and the intersect instructions (R116, R118, R119,
R124, R125). -/

namespace Sys2Proof.Machine

/-- Number of 1 bits among the n low bits. -/
def popcount (n : Nat) (v : Nat) : Nat :=
  match n with
  | 0 => 0
  | n + 1 => (if v.testBit n then 1 else 0) + popcount n v

/-- Zero bits below the lowest 1 among n bits from bit k up; n when there is none. -/
def trailingZeros (n k : Nat) (v : Nat) : Nat :=
  match n with
  | 0 => 0
  | n + 1 => if v.testBit k then 0 else 1 + trailingZeros n (k + 1) v

/-- Zero bits above the highest 1 among n bits. -/
def leadingZeros (n : Nat) (v : Nat) : Nat :=
  match n with
  | 0 => 0
  | n + 1 => if v.testBit n then 0 else 1 + leadingZeros n v

/-- The n low bits in the opposite order. -/
def reverseBits (n : Nat) (v : Nat) : Nat :=
  match n with
  | 0 => 0
  | n + 1 => (if v.testBit n then 1 else 0) + 2 * reverseBits n v % 2 ^ (n + 1)

/-- The n low bytes in the opposite order. -/
def reverseBytes (n : Nat) (v : Nat) : Nat :=
  match n with
  | 0 => 0
  | n + 1 => v / 256 ^ n % 256 + 256 * reverseBytes n v

/-- R116: the shift amount: B, read as an n64, mod w. -/
def shiftBy (t : Ty) (b : W64) : Nat := b.toNat % tyW t

/-- A value rotated left by k within w bits. -/
def rotateLeft (w x k : Nat) : Nat := (x * 2 ^ k + x / 2 ^ (w - k)) % 2 ^ w

/-- R116. -/
def execAnd (o : Alu) (s : State) : Host.Outcome State Fault Refusal := aluOp (.and o) o (fun t a b => ((rdU t a &&& rdU t b : Nat) : Int)) s
/-- R116. -/
def execOr (o : Alu) (s : State) : Host.Outcome State Fault Refusal := aluOp (.or o) o (fun t a b => ((rdU t a ||| rdU t b : Nat) : Int)) s
/-- R116. -/
def execXor (o : Alu) (s : State) : Host.Outcome State Fault Refusal := aluOp (.xor o) o (fun t a b => ((rdU t a ^^^ rdU t b : Nat) : Int)) s
/-- R116. -/
def execAndn (o : Alu) (s : State) : Host.Outcome State Fault Refusal := aluOp (.andn o) o (fun t a b => (rdU t (a &&& ~~~b) : Int)) s
/-- R116. -/
def execShl (o : Alu) (s : State) : Host.Outcome State Fault Refusal :=
  aluOp (.shl o) o (fun t a b => ((rdU t a * 2 ^ shiftBy t b : Nat) : Int)) s
/-- R116. -/
def execShr (o : Alu) (s : State) : Host.Outcome State Fault Refusal :=
  aluOp (.shr o) o (fun t a b => ((rdU t a / 2 ^ shiftBy t b : Nat) : Int)) s
/-- R116: copies the sign bit. -/
def execSra (o : Alu) (s : State) : Host.Outcome State Fault Refusal :=
  aluOp (.sra o) o (fun t a b => (rdS t a).fdiv (2 ^ shiftBy t b)) s
/-- R116. -/
def execRot (o : Alu) (s : State) : Host.Outcome State Fault Refusal :=
  aluOp (.rot o) o (fun t a b => (rotateLeft (tyW t) (rdU t a) (shiftBy t b) : Int)) s

/-- R118: len 1 bits; the field holds the length less one. -/
def fieldMask (len : BitVec 6) : W64 := BitVec.ofNat 64 (2 ^ (len.toNat + 1) - 1)

/-- R118. -/
def execBfx (g : Guard) (d a : LSpec) (pos len : BitVec 6) (s : State) : Host.Outcome State Fault Refusal :=
  runLap (.bfx g d a pos len) s fun rd s => doneWith s d ((rd a >>> pos.toNat) &&& fieldMask len)

/-- R118: D is read and written. -/
def execBfi (g : Guard) (d a : LSpec) (pos len : BitVec 6) (s : State) : Host.Outcome State Fault Refusal :=
  runLap (.bfi g d a pos len) s fun rd s =>
    doneWith s d ((rd d &&& ~~~(fieldMask len <<< pos.toNat)) ||| ((rd a &&& fieldMask len) <<< pos.toNat))

/-- R116. -/
def execPcnt (o : Alu1) (s : State) : Host.Outcome State Fault Refusal := aluOp1 (.pcnt o) o (fun t a => (popcount (tyW t) a.toNat : Int)) s
/-- R116. -/
def execClz (o : Alu1) (s : State) : Host.Outcome State Fault Refusal := aluOp1 (.clz o) o (fun t a => (leadingZeros (tyW t) a.toNat : Int)) s
/-- R116. -/
def execCtz (o : Alu1) (s : State) : Host.Outcome State Fault Refusal := aluOp1 (.ctz o) o (fun t a => (trailingZeros (tyW t) 0 a.toNat : Int)) s
/-- R116. -/
def execBrev (o : Alu1) (s : State) : Host.Outcome State Fault Refusal := aluOp1 (.brev o) o (fun t a => (reverseBits (tyW t) (rdU t a) : Int)) s
/-- R116. -/
def execBswap (o : Alu1) (s : State) : Host.Outcome State Fault Refusal :=
  aluOp1 (.bswap o) o (fun t a => (reverseBytes (tyW t / 8) (rdU t a) : Int)) s

/-- R119: (A + disp) mod 2^64, with no memory access. -/
def execLea (g : Guard) (d a : LSpec) (disp : Disp) (s : State) : Host.Outcome State Fault Refusal :=
  runLap (.lea g d a disp) s fun rd s => doneWith s d (rd a + dispValue disp)

/-- R124: (B + pcnt A) mod 2^64. -/
def execPfxc (g : Guard) (d a b : LSpec) (s : State) : Host.Outcome State Fault Refusal :=
  runLap (.pfxc g d a b) s fun rd s => doneWith s d (rd b + BitVec.ofNat 64 (popcount 64 (rd a).toNat))

/-- R125: the next common position of two presence words from a start on. -/
def intersect (a b c : W64) : W64 :=
  let start := (c.extractLsb' 24 8).toNat
  let m : W64 := if start ≥ 64 then 0 else a &&& b &&& ~~~(BitVec.ofNat 64 (2 ^ start - 1))
  if m = 0 then 0x8000000000000000
  else
    let i := trailingZeros 64 0 m.toNat
    BitVec.ofNat 64 ((i + 1) * 2 ^ 24 + i * 2 ^ 16 + popcount i b.toNat * 2 ^ 8 + popcount i a.toNat)

/-- R125. -/
def execIntx (g : Guard) (d a b c : LSpec) (s : State) : Host.Outcome State Fault Refusal :=
  runLap (.intx g d a b c) s fun rd s => doneWith s d (intersect (rd a) (rd b) (rd c))

end Sys2Proof.Machine
end

