-- ==== Sys2Proof/Machine/VSlot.lean ====
section
/-! DEFINITION. The V slots: lanes and masks, arithmetic, comparison, selection, conversion with MX blocks and stochastic rounding,
reductions and transcendentals (R41, R42, R46, R64, R65, R139, R140, R154 to R163). -/

namespace Sys2Proof.Machine

/-! ### Lanes (R139) -/

/-- R139: the width of a lane; narrow kinds here are the 8-bit ones, and a dt lane is a byte. -/
def laneW (t : Ty) : Nat :=
  match t with
  | .narrow | .dt => 8
  | t => tyW t

def laneN (t : Ty) : Nat := 4096 / laneW t

/-- Lane i of w bits. -/
def laneAt (w : Nat) (v : VReg) (i : Nat) : Nat := (v.extractLsb' (w * i) w).toNat

/-- Lanes of w bits, lane 0 first, as low bits. -/
def packLanes (w : Nat) : List Nat → Nat
  | [] => 0
  | x :: t => x % 2 ^ w + 2 ^ w * packLanes w t

def ofLanes (w : Nat) (l : List Nat) : VReg := BitVec.ofNat 4096 (packLanes w l)

/-- R140: the register bits of the active lanes among n. -/
def laneMask (w n : Nat) (act : Nat → Bool) : VReg :=
  ofLanes w ((List.range n).map fun i => if act i then 2 ^ w - 1 else 0)

/-- A lane's result: its pattern and flags, or the code of a fault. -/
abbrev LaneRes := Except Nat (Nat × Flags)

def LaneRes.val (r : LaneRes) : Nat := match r with | .ok x => x.1 | .error _ => 0
def LaneRes.flags (r : LaneRes) : Flags := match r with | .ok x => x.2 | .error _ => 0

/-- R55: the trap of a syllable's flags, when they meet an enabled one. -/
def flagTraps (b : CtxAt) (f : Flags) : List Trap :=
  let t := flgTrapped b.t.flg f
  if t ≠ 0 then [{ code := 0x0D, fpc := t }] else []

/-- The faults of the lanes. -/
def laneTraps (l : List LaneRes) : List Trap :=
  (l.filterMap fun (r : LaneRes) => match r with | .ok _ => none | .error c => some c).eraseDups.map fun c => { code := c, info := if c = 0x17 then 1023 else 0 }

def laneFlags (l : List LaneRes) : Flags := l.foldl (fun (f : Flags) (r : LaneRes) => f ||| r.flags) 0

/-- R154: n lanes of w bits, each active one computed by f, into d with latency L; wide says that the bits above lane n - 1 are
written too. -/
def laneEff (b : CtxAt) (w n l : Nat) (k : BitVec 3) (d : VSpec) (wide : Bool) (f : Nat → LaneRes) : Eff :=
  let outs : List LaneRes := (List.range n).map fun i => if b.active k i then f i else .ok (0, 0)
  let fl := laneFlags outs
  let mask := laneMask w n (b.active k) ||| (if wide then ~~~(BitVec.ofNat 4096 (2 ^ (w * n) - 1)) else 0)
  { traps := laneTraps outs ++ flagTraps b fl
    writes := [{ b.write (VSpec.dest d) l (ofLanes w (outs.map LaneRes.val)) with
                   mask := if mask = BitVec.allOnes 4096 then none else some mask, flags := fl }] }

/-- The common case: the lanes of a type. -/
def tyEff (b : CtxAt) (t : Ty) (l : Nat) (k : BitVec 3) (d : VSpec) (f : Nat → LaneRes) : Eff :=
  laneEff b (laneW t) (laneN t) l k d false f

/-- R139: the pattern of a lane: of a dt lane only the low bits, a code of the core's table, count. -/
def codeOf (b : CtxAt) (t : Ty) (p : Nat) : Nat := if t = .dt then p % 2 ^ (b.s.tab (ownTab b.ent)).width else p

/-! ### Floats in lanes -/

/-- R61: whether a lane holds an offcut. -/
def offcutLane (t : Ty) (v : Nat) : Bool := isOffcut t (BitVec.ofNat 64 v)

def laneVal (t : Ty) (v : Nat) : FVal := decF (tyFmt t) v

/-- R154: a float operation of lanes: offcuts fault, the exact value is rounded once. -/
def floatLane (t : Ty) (rm : Rm) (srcs : List Nat) (f : List FVal → FVal × Flags) : LaneRes :=
  if srcs.any (offcutLane t) then .error 0x0C
  else
    let x := f (srcs.map (laneVal t))
    let r := roundVal (tyFmt t) rm false 0 x.1
    .ok (r.1, x.2 ||| r.2)

/-- R155: the integer form of a two-source operation: operands as w-bit patterns. -/
def vBinInt (op : VBin) (t : Ty) (a b : Nat) : Nat :=
  let w := tyW t
  match op with
  | .add => (a + b) % 2 ^ w
  | .sub => (a + 2 ^ w - b) % 2 ^ w
  | .mul => a * b % 2 ^ w
  | .min => if intVal t a ≤ intVal t b then a else b
  | .max => if intVal t b ≤ intVal t a then a else b
  | .and => a &&& b
  | .or => a ||| b
  | .xor => a ^^^ b
  | .shl => a * 2 ^ (b % w) % 2 ^ w

/-- R155: the float form. -/
def vBinFloat (op : VBin) (t : Ty) (rm : Rm) (a b : Nat) : LaneRes :=
  match op with
  | .min | .max =>
    if offcutLane t a || offcutLane t b then .error 0x0C
    else
      let r := fpMinMax t (op == .max) (BitVec.ofNat 64 a) (BitVec.ofNat 64 b)
      .ok (r.1.toNat, r.2)
  | .sub => floatLane t rm [a, b] fun l => fAdd rm (l.getD 0 (.zero false)) (l.getD 1 (.zero false)).neg
  | .mul => floatLane t rm [a, b] fun l => fMul (l.getD 0 (.zero false)) (l.getD 1 (.zero false))
  | _ => floatLane t rm [a, b] fun l => fAdd rm (l.getD 0 (.zero false)) (l.getD 1 (.zero false))

/-- R141: latencies of the two-source operations. -/
def vBinLat (op : VBin) : Nat :=
  match op with
  | .and | .or | .xor | .shl => 2
  | _ => 4

/-- R155: VADD, VSUB, VMUL, VMIN, VMAX, VAND, VOR, VXOR, VSHL. -/
def vBin (b : CtxAt) (op : VBin) (t : Ty) (rm : Rm) (k : BitVec 3) (d x y : VSpec) : Eff :=
  let w := laneW t
  let vx := b.v x
  let vy := b.v y
  let rm := rmOf b.t.flg rm
  tyEff b t (vBinLat op) k d fun i =>
    if t.isFloat then vBinFloat op t rm (laneAt w vx i) (laneAt w vy i)
    else .ok (vBinInt op t (laneAt w vx i) (laneAt w vy i), 0)

/-- R155: VSHR, logical or arithmetic. -/
def vShr (b : CtxAt) (t : Ty) (arith : Bool) (k : BitVec 3) (d x y : VSpec) : Eff :=
  let w := laneW t
  let vx := b.v x
  let vy := b.v y
  tyEff b t 2 k d fun i =>
    let a := laneAt w vx i
    let n := laneAt w vy i % w
    let sg : Int := if a ≥ 2 ^ (w - 1) then (a : Int) - 2 ^ w else a
    .ok (if arith then intBits w (sg.fdiv (2 ^ n)) else a / 2 ^ n, 0)

/-- R155: VFMA, rounded once. -/
def vFma (b : CtxAt) (t : Ty) (rm : Rm) (k : BitVec 3) (d x y z : VSpec) : Eff :=
  let w := laneW t
  let vx := b.v x
  let vy := b.v y
  let vz := b.v z
  let rm := rmOf b.t.flg rm
  tyEff b t 5 k d fun i =>
    floatLane t rm [laneAt w vx i, laneAt w vy i, laneAt w vz i] fun l =>
      fFma rm (l.getD 0 (.zero false)) (l.getD 1 (.zero false)) (l.getD 2 (.zero false))

/-- R155: VPCNT. -/
def vPcnt (b : CtxAt) (t : Ty) (k : BitVec 3) (d x : VSpec) : Eff :=
  let w := laneW t
  let vx := b.v x
  tyEff b t 2 k d fun i => .ok (popcount w (laneAt w vx i), 0)

/-- R158: VSGN. -/
def vSgn (b : CtxAt) (t : Ty) (op : SgnOp) (k : BitVec 3) (d x y : VSpec) : Eff :=
  let w := laneW t
  let vx := b.v x
  let vy := b.v y
  tyEff b t 2 k d fun i =>
    let p := laneAt w vx i
    let r := laneAt w vy i
    if offcutLane t p || offcutLane t r then .error 0x0C else .ok (signWord t op p r, 0)

/-- R156: integer lanes compare by kind; b64 is unsigned. -/
def laneRel (rel : Rel) (t : Ty) (a b : Nat) : Bool :=
  let p := intVal t a
  let q := intVal t b
  match rel with
  | .eq => p == q
  | .ne => p != q
  | .lt => decide (p < q)
  | .le => decide (p ≤ q)
  | .gt => decide (p > q)
  | .ge => decide (p ≥ q)
  | .unordered => false
  | .ordered => true

/-- R156: VCMP writes the whole mask. -/
def vCmp (b : CtxAt) (t : Ty) (rel : Rel) (k m : BitVec 3) (x y : VSpec) : Eff :=
  let w := laneW t
  let vx := b.v x
  let vy := b.v y
  let outs : List LaneRes := (List.range (laneN t)).map fun i =>
    if b.active k i then
      let p := laneAt w vx i
      let q := laneAt w vy i
      if t.isFloat then
        if offcutLane t p || offcutLane t q then .error 0x0C
        else
          let r := fCompare rel (laneVal t p) (laneVal t q)
          .ok (if r.1 then 1 else 0, r.2)
      else .ok (if laneRel rel t p q then 1 else 0, 0)
    else .ok (0, 0)
  let fl := laneFlags outs
  { traps := laneTraps outs ++ flagTraps b fl
    writes := [{ b.write (.m b.x m) 4 (ofLanes 1 (outs.map LaneRes.val)) with flags := fl }] }

/-- R157: VSEL selects by m0. It copies lanes as they stand, as a move does, so an offcut raises nothing (R61; log 94). -/
def vSel (b : CtxAt) (t : Ty) (k : BitVec 3) (d x y : VSpec) : Eff :=
  let w := laneW t
  let vx := b.v x
  let vy := b.v y
  let m := b.m 0
  tyEff b t 2 k d fun i => .ok (codeOf b t (if m.getLsbD i then laneAt w vx i else laneAt w vy i), 0)

/-- R158: VCLASS. -/
def vCls (b : CtxAt) (t : Ty) (k : BitVec 3) (d x : VSpec) : Eff :=
  let w := laneW t
  let vx := b.v x
  tyEff b t 2 k d fun i =>
    let p := laneAt w vx i
    if offcutLane t p then .error 0x0C else .ok (classWord (tyFmt t) (laneVal t p), 0)

/-- R158: VOC.fill. -/
def vOcFill (b : CtxAt) (t : Ty) (k : BitVec 3) (d x y : VSpec) : Eff :=
  let w := laneW t
  let vx := b.v x
  let vy := b.v y
  tyEff b t 2 k d fun i =>
    let p := laneAt w vx i
    .ok (if offcutLane t p then laneAt w vy i else p, 0)

/-- R158: VOC.get. -/
def vOcGet (b : CtxAt) (t : Ty) (k : BitVec 3) (d x : VSpec) : Eff :=
  let w := laneW t
  let vx := b.v x
  tyEff b t 2 k d fun i =>
    let p := laneAt w vx i
    .ok (if offcutLane t p then 0x10000 + p % 2 ^ 16 else 0, 0)

/-- R157: VMOV mode 0, bit for bit; a dt lane is a code of the core's table (log 79). -/
def vMov (b : CtxAt) (t : Ty) (k : BitVec 3) (d x : VSpec) : Eff :=
  let w := laneW t
  let vx := b.v x
  tyEff b t 2 k d fun i => .ok (codeOf b t (laneAt w vx i), 0)

/-- R162: VSHUF; an index is read at the lane's whole width (log 79). -/
def vShuf (b : CtxAt) (t : Ty) (k : BitVec 3) (d x y : VSpec) : Eff :=
  let w := laneW t
  let vx := b.v x
  let vy := b.v y
  tyEff b t 2 k d fun i => .ok (codeOf b t (laneAt w vx (laneAt w vy i % laneN t)), 0)

/-- R162: VBCAST. -/
def vBcast (b : CtxAt) (t : Ty) (lane : BitVec 10) (k : BitVec 3) (d x : VSpec) : Eff :=
  let v := codeOf b t (laneAt (laneW t) (b.v x) (lane.toNat % laneN t))
  tyEff b t 2 k d fun _ => .ok (v, 0)

/-- R162: the immediate of VLI as a lane. -/
def vliVal (t : Ty) (imm : BitVec 30) : Nat :=
  match t with
  | .f32 => imm.toNat * 4
  | .f64 => (widenF32 (BitVec.ofNat 32 (imm.toNat * 4))).toNat
  | .f16 | .bf16 => imm.toNat % 2 ^ 16
  | t => (imm.signExtend 64).toNat % 2 ^ tyW t

/-- R162: VLI. -/
def vLi (b : CtxAt) (t : Ty) (imm : BitVec 30) (k : BitVec 3) (d : VSpec) : Eff :=
  tyEff b t 2 k d fun _ => .ok (vliVal t imm, 0)

/-! ### Scaling -/

/-- A value times 2^k, exact. -/
def FVal.scale (x : FVal) (k : Int) : FVal :=
  match x with
  | .num n m e st => .num n m (e + k) st
  | y => y

/-- A power of two beyond which every finite value of a format over- or underflows. -/
def clampPow (k : Int) : Int := max (-20000) (min 20000 k)

/-- R154, R160: VSCALE: the lanes of B are read as signed integers; an active lane of A or B that is an offcut pattern faults. -/
def vScale (b : CtxAt) (t : Ty) (rm : Rm) (k : BitVec 3) (d x y : VSpec) : Eff :=
  let w := laneW t
  let vx := b.v x
  let vy := b.v y
  let rm := rmOf b.t.flg rm
  tyEff b t 4 k d fun i =>
    let n := laneAt w vy i
    let p : Int := if n ≥ 2 ^ (w - 1) then (n : Int) - 2 ^ w else n
    floatLane t rm [laneAt w vx i, n] fun l =>
      let a := l.getD 0 (.zero false)
      (a.scale (clampPow p), nvSig [a])

/-! ### Reductions (R64, R161, R163) -/

/-- One level of the tree: the first half with the second; absent lanes pass the other. -/
def treeLevel (f : Nat → Nat → Nat × Flags) (l : List (Option Nat)) : List (Option Nat) × Flags :=
  let h := l.length / 2
  let nodes := ((l.take h).zip (l.drop h)).map fun (p : Option Nat × Option Nat) =>
    match p.1, p.2 with
    | some a, some b => let r := f a b; (some r.1, r.2)
    | some a, none => (some a, (0 : Flags))
    | none, y => (y, (0 : Flags))
  (nodes.map (·.1), nodes.foldl (fun (g : Flags) (r : Option Nat × Flags) => g ||| r.2) 0)

/-- R64: the tree; fuel is its number of levels. -/
def treeFold (f : Nat → Nat → Nat × Flags) : Nat → List (Option Nat) → Option Nat × Flags
  | 0, l => (l.head?.join, 0)
  | n + 1, l =>
    if l.length ≤ 1 then (l.head?.join, 0)
    else
      let r := treeLevel f l
      let q := treeFold f n r.1
      (q.1, r.2 ||| q.2)

/-- R64: a rounded sum of two float patterns. -/
def sumNode (t : Ty) (rm : Rm) (a b : Nat) : Nat × Flags :=
  let x := fAdd rm (laneVal t a) (laneVal t b)
  let r := roundVal (tyFmt t) rm false 0 x.1
  (r.1, x.2 ||| r.2)

/-- R161: a node of a reduction. -/
def redNode (t : Ty) (op : VRedOp) (rm : Rm) (a b : Nat) : Nat × Flags :=
  if t.isFloat then
    match op with
    | .sum => sumNode t rm a b
    | .min => let r := fpMinMax t false (BitVec.ofNat 64 a) (BitVec.ofNat 64 b); (r.1.toNat, r.2)
    | .max => let r := fpMinMax t true (BitVec.ofNat 64 a) (BitVec.ofNat 64 b); (r.1.toNat, r.2)
  else
    match op with
    | .sum => (vBinInt .add t a b, 0)
    | .min => (vBinInt .min t a b, 0)
    | .max => (vBinInt .max t a b, 0)

/-- R64, R161: what a reduction with every lane absent yields. -/
def redNone (t : Ty) (op : VRedOp) : Nat :=
  if t.isFloat then (if op = .sum then 0 else (tyFmt t).dnan)
  else match op with
    | .sum => 0
    | .min => intBits (tyW t) (intMax t)
    | .max => intBits (tyW t) (intMin t)

/-- R161: VRED; every lane of D is written. -/
def vRed (b : CtxAt) (t : Ty) (op : VRedOp) (rm : Rm) (k : BitVec 3) (d x : VSpec) : Eff :=
  let w := laneW t
  let n := laneN t
  let vx := b.v x
  let lanes := (List.range n).map fun i => if b.active k i then some (laneAt w vx i) else none
  let bad := t.isFloat && lanes.any fun l => match l with | some v => offcutLane t v | none => false
  let r := treeFold (redNode t op (rmOf b.t.flg rm)) 10 lanes
  { traps := if bad then [{ code := 0x0C }] else flagTraps b r.2
    writes := [{ b.write (VSpec.dest d) 8 (ofLanes w (List.replicate n (r.1.getD (redNone t op)))) with flags := r.2 }] }

/-- A rounded product of two float patterns. -/
def mulNode (t : Ty) (rm : Rm) (a b : Nat) : Nat × Flags :=
  let x := fMul (laneVal t a) (laneVal t b)
  let r := roundVal (tyFmt t) rm false 0 x.1
  (r.1, x.2 ||| r.2)

/-- R163: VNORM: the squares, their tree sum, its root, the quotients; every rounding counts. -/
def vNorm (b : CtxAt) (t : Ty) (rm : Rm) (k : BitVec 3) (d x : VSpec) : Eff :=
  let w := laneW t
  let n := laneN t
  let vx := b.v x
  let rm := rmOf b.t.flg rm
  let bad := (List.range n).any fun i => b.active k i && offcutLane t (laneAt w vx i)
  let sq := (List.range n).map fun i =>
    if b.active k i then some (mulNode t rm (laneAt w vx i) (laneAt w vx i)) else none
  let fsq := sq.foldl (fun (f : Flags) (r : Option (Nat × Flags)) => match r with | some p => f ||| p.2 | none => f) 0
  let sum := treeFold (sumNode t rm) 10 (sq.map fun r => r.map (·.1))
  let rt := fSqrt (laneVal t (sum.1.getD 0))
  let nrm := roundVal (tyFmt t) rm false 0 rt.1
  let outs : List (Nat × Flags) := (List.range n).map fun i =>
    if b.active k i then
      let q := fDiv (laneVal t (laneAt w vx i)) (laneVal t nrm.1)
      let r := roundVal (tyFmt t) rm false 0 q.1
      (r.1, q.2 ||| r.2)
    else (0, 0)
  let fl := fsq ||| sum.2 ||| rt.2 ||| nrm.2 ||| outs.foldl (fun (f : Flags) (r : Nat × Flags) => f ||| r.2) 0
  let mask := laneMask w n (b.active k)
  { traps := if bad then [{ code := 0x0C }] else flagTraps b fl
    writes := [{ b.write (VSpec.dest d) 16 (ofLanes w (outs.map (·.1))) with
                   mask := if mask = BitVec.allOnes 4096 then none else some mask, flags := fl }] }

/-! ### Transcendentals (R65, R163) -/

def transFn (op : VTrans) (x : FVal) : FVal × Flags :=
  match op with
  | .exp2 => fExp2 x
  | .log2 => fLog2 x
  | .rcp => fRcp x
  | .rsq => fRsq x

/-- R163: a dt operand is decoded by the core's table, and the result encoded under R59. -/
def vTrans (b : CtxAt) (op : VTrans) (t : Ty) (rm : Rm) (ns : Bool) (k : BitVec 3) (d x : VSpec) : Eff :=
  let w := laneW t
  let vx := b.v x
  let rm := rmOf b.t.flg rm
  let tab := b.s.tab (ownTab b.ent)
  tyEff b t 12 k d fun i =>
    let v := laneAt w vx i
    if t = .dt then
      let q := transFn op (tab.decode v)
      match encTable tab.encTab rm ns 0 q.1 with
      | some r => .ok (r.1, q.2 ||| r.2)
      | none => .error 0x17
    else floatLane t rm [v] fun l => transFn op (l.getD 0 (.zero false))

/-! ### Conversions (R42, R46, R159) -/

/-- R41: emax of an element format. -/
def mxEmax (n : Nk) : Int :=
  match n with
  | .mxe4m3 => 8
  | .mxe5m2 => 15
  | .mxe3m2 => 4
  | .mxe2m3 | .mxe2m1 => 2
  | _ => 0

/-- R41: the value of an element in its element format. -/
def mxElem (n : Nk) (c : Nat) : FVal :=
  if n = .mxi8 then ofInt (intVal .i8 c) (-6) false else decF (nkFmt n) c

/-- R41: the value of an element of a block whose scale is x. -/
def mxVal (n : Nk) (x c : Nat) : FVal := if x = 255 then .nan false else (mxElem n c).scale ((x : Int) - 127)

/-- The exponent of the leading bit of a finite nonzero value. -/
def FVal.lead (x : FVal) : Option Int :=
  match x with
  | .num _ m e _ => some (e + (bitLen m : Int) - 1)
  | _ => none

/-- R42: the scale of a block of values. -/
def mxScale (n : Nk) (l : List FVal) : Nat :=
  if l.any fun v => match v with | .inf _ => true | _ => false then 254
  else
    match (l.filterMap FVal.lead).max? with
    | none => 127
    | some a => (max 0 (min 254 (a - mxEmax n + 127))).toNat

/-- R42, R48: an element of an mxi8 block: an integer that overflows saturates with OF and NX. -/
def toMxI8 (rm : Rm) (r : Nat) (y : FVal) : Nat × Flags :=
  let i := toIntKind .i8 rm r (y.scale 6)
  let fl : Flags := match y with
    | .num .. => if i.2 = fNV then fOF ||| fNX else i.2
    | _ => i.2
  (intBits 8 i.1, fl)

/-- R42: an element of a block whose scale is x. A finite element that overflows goes as R48 states, in every element format: it
saturates, and under .ns it is the default NaN, of e5m2 too; an infinity keeps the code its format has for it (log 78). -/
def toMx (n : Nk) (rm : Rm) (ns : Bool) (r x : Nat) (v : FVal) : Nat × Flags :=
  let y := v.scale (127 - (x : Int))
  let inv : Flags := match v with | .inf _ => fNV | .nan true => fNV | _ => 0
  let q : Nat × Flags :=
    if n = .mxi8 then toMxI8 rm r y
    else match y with
      | .num .. => roundVal { nkFmt n with inf := false } rm ns r y
      | _ => roundVal (nkFmt n) rm ns r y
  (q.1, q.2 ||| inv)

/-- R46: the random number of a lane. -/
def srNumber (w : W64) (j : Nat) : Nat :=
  ((w.rotateLeft (j % 64)) ^^^ (BitVec.ofNat 64 j * 0x9E3779B97F4A7C15)).toNat % 2 ^ 32

/-- R159: the width of a lane of a converted type. -/
def cvtW (t : Ty) (n : Nk) : Nat := tyBits t n 8

/-- R36, R159: the number of result lanes; of 6-bit elements a register holds 680. -/
def cvtN (ws wd : Nat) : Nat := if max ws wd = 6 then 680 else 4096 / max ws wd

/-- What VCVT names. -/
structure CvtSpec where
  dty : Ty
  dnk : Nk
  sty : Ty
  snk : Nk
  rm : Rm
  ns : Bool

def CvtSpec.toMx (c : CvtSpec) : Bool := c.dty == .narrow && c.dnk.isMx
def CvtSpec.ofMx (c : CvtSpec) : Bool := c.sty == .narrow && c.snk.isMx

/-- The value of source lane i; scales are the bytes of the register after A. -/
def CvtSpec.value (c : CvtSpec) (tab : DTab) (va vs : VReg) (i : Nat) : FVal :=
  let v := laneAt (cvtW c.sty c.snk) va i
  if c.ofMx then mxVal c.snk (laneAt 8 vs (i / 32)) v else elemVal c.sty c.snk tab v

/-- R133, R159: result lane i, with the scale of its block when the destination is MX. -/
def CvtSpec.lane (c : CvtSpec) (tab : DTab) (va vs : VReg) (x r i : Nat) : LaneRes :=
  let v := laneAt (cvtW c.sty c.snk) va i
  if offcutLane c.sty v then
    if c.dty = .f32 ∨ c.dty = .f64 then .ok ((offcutTo c.dty (BitVec.ofNat 64 v)).toNat, 0) else .error 0x0C
  else if c.toMx then .ok (Machine.toMx c.dnk c.rm c.ns r x (c.value tab va vs i))
  else if c.ofMx then
    let y := c.value tab va vs i
    let nv : Flags := if y.isSig then fNV else 0
    if c.dty.isIntKind then
      let q := toIntKind c.dty c.rm r y
      .ok (intBits (tyW c.dty) q.1, q.2)
    else match toFloatElem c.dty c.dnk tab c.rm c.ns r y with
      | some q => .ok (q.1, q.2 ||| nv)
      | none => .error 0x17
  else match convert c.dty c.dnk c.sty c.snk tab c.rm c.ns r v with
    | some q => .ok q
    | none => .error 0x17

/-- R159: VCVT; j0 is 1,024 in V1, and word the one popped under SR. -/
def vCvt (b : CtxAt) (c : CvtSpec) (j0 : Nat) (word : W64) (k : BitVec 3) (d a : VSpec) : Eff :=
  let c := { c with rm := rmOf b.t.flg c.rm }
  let wd := cvtW c.dty c.dnk
  let n := cvtN (cvtW c.sty c.snk) wd
  let va := b.v a
  let vs := match a with | .v m => b.v (.v (m + 1)) | _ => 0
  let tab := b.s.tab (ownTab b.ent)
  let scales : List Nat :=
    -- the last block of 680 lanes has 8 (log 78)
    if c.toMx then (List.range ((n + 31) / 32)).map fun j =>
      mxScale c.dnk ((List.range (min 32 (n - 32 * j))).map fun i => c.value tab va vs (32 * j + i))
    else []
  let e := laneEff b wd n 4 k d true fun i =>
    c.lane tab va vs (scales.getD (i / 32) 127) (if c.rm = .sr then srNumber word (i + j0) else 0) i
  if c.toMx then
    match d with
    | .v m => { e with writes := e.writes ++ [b.write (.v (m + 1)) 4 (ofLanes 8 scales)] }
    | _ => e
  else e

/-! ### A V syllable -/

/-- R154 to R163: the V slots; j0 is 1,024 in V1, and word the one popped for the bundle. -/
def vSyl (b : CtxAt) (j0 : Nat) (word : W64) (y : VSyl) : Eff :=
  match y with
  | .bin op t rm k d x z => vBin b op t rm k d x z
  | .shr t arith k d x z => vShr b t arith k d x z
  | .fma t rm k d x y z => vFma b t rm k d x y z
  | .pcnt t k d x => vPcnt b t k d x
  | .sgn t op k d x z => vSgn b t op k d x z
  | .cmp t rel k m x z => vCmp b t rel k m x z
  | .sel t k d x z => vSel b t k d x z
  | .cls t k d x => vCls b t k d x
  | .ocFill t k d x z => vOcFill b t k d x z
  | .ocGet t k d x => vOcGet b t k d x
  | .cvt dty dnk sty snk rm ns k d a =>
    vCvt b { dty := dty, dnk := dnk, sty := sty, snk := snk, rm := rm, ns := ns } j0 word k d a
  | .scale t rm k d x z => vScale b t rm k d x z
  | .red t op rm k d x => vRed b t op rm k d x
  | .shuf t k d x z => vShuf b t k d x z
  | .bcast t lane k d x => vBcast b t lane k d x
  | .norm t rm k d x => vNorm b t rm k d x
  | .trans op t rm ns k d x => vTrans b op t rm ns k d x
  | .mov t k d x => vMov b t k d x
  | .movm d a => { writes := [b.write (.m b.x d) 2 ((b.m a).setWidth 4096)] }
  | .li t imm k d => vLi b t imm k d

/-- Whether a syllable is a conversion under SR (R46). -/
def VSyl.isSr : VSyl → Bool
  | .cvt _ _ _ _ rm _ _ _ _ => rm == .sr
  | _ => false

/-- R90: the vector registers a V syllable reads. -/
def VSyl.vregs (y : VSyl) : List CReg :=
  let l (vs : List VSpec) : List CReg := vs.flatMap fun v => VSpec.regs v 1
  match y with
  | .bin _ _ _ _ _ a b | .shr _ _ _ _ a b | .sgn _ _ _ _ a b | .cmp _ _ _ _ a b | .sel _ _ _ a b | .ocFill _ _ _ a b
  | .scale _ _ _ _ a b | .shuf _ _ _ a b => l [a, b]
  | .fma _ _ _ _ a b c => l [a, b, c]
  | .pcnt _ _ _ a | .cls _ _ _ a | .ocGet _ _ _ a | .red _ _ _ _ _ a | .bcast _ _ _ _ a | .norm _ _ _ _ a
  | .trans _ _ _ _ _ _ a | .mov _ _ _ a => l [a]
  | .cvt _ _ sty snk _ _ _ _ a => VSpec.regs a (if sty == .narrow && snk.isMx then 2 else 1)
  | .movm _ _ | .li _ _ _ _ => []

/-- R140, R156, R157: the masks a V syllable reads. -/
def VSyl.masks (x : Nat) (y : VSyl) : List CReg :=
  let f (k : BitVec 3) : List CReg := if k = 0 then [] else [.m x k]
  match y with
  | .bin _ _ _ k _ _ _ | .shr _ _ k _ _ _ | .fma _ _ k _ _ _ _ | .pcnt _ k _ _ | .sgn _ _ k _ _ _ | .cmp _ _ k _ _ _
  | .cls _ k _ _ | .ocFill _ k _ _ _ | .ocGet _ k _ _ | .cvt _ _ _ _ _ _ k _ _ | .scale _ _ k _ _ _ | .red _ _ _ k _ _
  | .shuf _ k _ _ _ | .bcast _ _ k _ _ | .norm _ _ k _ _ | .trans _ _ _ _ k _ _ | .mov _ k _ _ | .li _ _ k _ => f k
  | .sel _ k _ _ _ => .m x 0 :: f k
  | .movm _ a => [.m x a]

end Sys2Proof.Machine
end

