-- ==== Sys2Proof/Machine/MSlot.lean ====
section
/-! DEFINITION. The M slot (R175, R177, R179, R180, R187 to R194). -/

namespace Sys2Proof.Machine

/-! ### Handles -/

/-- R167, R188: the index of a handle whose buffer is sealed or in use. -/
def CtxAt.sealedTile (b : CtxAt) (h : W64) : Option Nat :=
  match b.s.tileOf b.k (h.setWidth 16) with
  | some (i, t) => if t.state = 2 ∨ t.state = 3 then some i else none
  | none => none

def CtxAt.accu (b : CtxAt) (a : BitVec 2) : Accu := b.core.accu a.toNat

/-- Replaces an accumulator of the context's control core. -/
def CtxAt.putAccu (b : CtxAt) (a : BitVec 2) (v : Accu) (s : State) : State :=
  s.setCc b.k b.cc ((s.cc b.k b.cc).setAccu a.toNat v)

/-- Steps of an accumulator that are queued or running. -/
def CcState.stepsOf (c : CcState) (a : Nat) : Nat :=
  (c.queue.filter fun q => q.acc = a).length + (match c.run with | some r => if r.acc = a then 1 else 0 | none => 0)

/-- R175: steps queued, the running one among them. -/
def CcState.stepCount (c : CcState) : Nat := c.queue.length + (if c.run.isSome then 1 else 0)

/-! ### Steps (R188) -/

/-- R188 check 3: whether an accumulator accepts a step of a class. -/
def CtxAt.stepOk (b : CtxAt) (acc : BitVec 2) (p : PClass) : Bool :=
  let a := b.accu acc
  a.kind != 2 && a.atype == p.accType && !a.done
    && (a.kind != 1 || a.ins || decide (a.step + b.core.stepsOf acc.toNat < a.len))

/-- R188: queues a step, or faults. -/
def queueStep (b : CtxAt) (acc : BitVec 2) (ta tb : Option TImg) (st : AStep) : Eff :=
  match ta, tb with
  | some x, some y =>
    match pairClass x y with
    | some p =>
      if b.stepOk acc p then
        { act := fun s => let c := s.cc b.k b.cc; s.setCc b.k b.cc { c with queue := c.queue ++ [st] } }
      else { traps := [{ code := 0x1E }] }
    | none => { traps := [{ code := 0x0A }] }
  | _, _ => { traps := [{ code := 0x0A }] }

/-- R188: MMA. -/
def mMma (b : CtxAt) (acc : BitVec 2) (x y : BitVec 6) : Eff :=
  queueStep b acc ((b.sealedTile (b.c x)).map (b.s.tileImg b.k)) ((b.sealedTile (b.c y)).map (b.s.tileImg b.k))
    { acc := acc.toNat, x := b.x, a := (b.c x).setWidth 16, b := some ((b.c y).setWidth 16), left := 0 }

/-- R188: MMAF. -/
def mMmaf (b : CtxAt) (acc : BitVec 2) (x : BitVec 6) : Eff :=
  queueStep b acc ((b.sealedTile (b.c x)).map (b.s.tileImg b.k)) (b.s.cluster b.k).latch.img
    { acc := acc.toNat, x := b.x, a := (b.c x).setWidth 16, b := none, left := 0 }

/-! ### The latch (R179, R189) -/

/-- R189: MBLD of a tile. -/
def mMbld (b : CtxAt) (x : BitVec 6) : Eff :=
  match b.sealedTile (b.c x) with
  | some i =>
    { act := fun s => (s.setCluster b.k { s.cluster b.k with latch := s.latchTile b.k i }).logTile b.k b.cc b.x i }
  | none => { traps := [{ code := 0x0A }] }

/-- R179: a podium image. -/
def Accu.podImage (a : Accu) : Latch := .podium a.st a.elems a.raise

/-- R189: MBLD of a podium. -/
def mMbldPod (b : CtxAt) (acc : BitVec 2) : Eff :=
  if (b.accu acc).kind = 2 then
    { act := fun s => s.setCluster b.k { s.cluster b.k with latch := (b.accu acc).podImage } }
  else { traps := [{ code := 0x1E }] }

/-- R179: the next position of the rink. -/
def rinkNext (k : Nat) : Nat := k / 8 * 8 + (k % 8 + 1) % 8

/-- R179: phase 2 of MROT; phase 1 has been made. -/
def mMrot (b : CtxAt) : Eff :=
  { act := fun s =>
      let c := s.cluster b.k
      let s := s.setCluster b.k { c with latch := c.incoming, incoming := .empty }
      s.setCc b.k b.cc { s.cc b.k b.cc with rotBy := none } }

/-! ### Declarations (R180, R190) -/

/-- R180: the legal combinations of a declaration. -/
def declOk (acc : Nat) (d : Accu) : Bool :=
  let plain := !d.both && d.tgt == 0 && !d.ins
  match d.kind with
  | 0 => decide (d.atype < 3) && d.pred == 0 && plain && d.len == 0
  | 1 =>
    decide (1 ≤ d.len) &&
      (match d.pred with
        | 0 | 2 => decide (d.atype < 2) && d.tgt == 0 && !d.ins
        | 1 => d.atype == 0 && d.tgt != acc && !(d.ins && d.both)
        | _ => false)
  | 2 => d.atype == 0 && d.pred == 0 && plain && decide (d.len < 64)
  | _ => false

/-- R180: ACCDECL. -/
def mAccdecl (b : CtxAt) (acc : BitVec 2) (x : BitVec 6) (decl : BitVec 25) : Eff :=
  let d : Accu := { Accu.zero with st := decl.setWidth 64 }
  let old := b.accu acc
  let named := (List.range 4).any fun i =>
    let o := b.core.accu i
    i != acc.toNat && o.kind == 1 && o.pred == 1 && o.tgt == acc.toNat
  let ok := declOk acc.toNat d && (!(d.kind == 1 && d.pred == 1) || (b.core.accu d.tgt).kind == 2)
    && !(old.kind == 2 && d.kind != 2 && named)
  if ok then
    let th : W64 := if d.pred = 2 then (if d.atype = 1 then b.c x else (b.c x).extractLsb' 0 32 |>.setWidth 64) else old.th
    { act := b.putAccu acc { d with th := th } }
  else { traps := [{ code := 0x1E }] }

/-- R190: ACCZERO. -/
def mAcczero (b : CtxAt) (acc : BitVec 2) : Eff := { act := b.putAccu acc (b.accu acc).zeroed }

/-! ### Draining and loading (R190, R191) -/

/-- Width of an element in the row layout of R191. -/
def Accu.rowW (a : Accu) : Nat := if a.kind = 2 ∨ a.atype = 1 then 64 else 32

/-- R191: a row as a vector register. -/
def Accu.rowVec (a : Accu) (r : Nat) : VReg := ofLanes a.rowW ((List.range 64).map fun j => (a.elem (64 * r + j)).toNat)

/-- R191: whether a row is written. -/
def Accu.rowOut (a : Accu) (r : Nat) : Bool := a.kind == 2 || a.row.getLsbD r

/-- R191: ACCDRAIN: rows leave one in each schedule cycle, after those of an earlier drain. -/
def mAccdrain (b : CtxAt) (acc : BitVec 2) (v : VSpec) : Eff :=
  let a := b.accu acc
  let last := b.core.flq.foldl (fun (m : Nat) r => max m r.1) 0
  let first := max 4 (last + 1)
  { writes := match v with
      | .v n => (List.range 64).filterMap fun r =>
          if a.rowOut r then some (b.write (.v (n + r)) (first + r) (a.rowVec r)) else none
      | _ => []
    act := fun s =>
      let c := s.cc b.k b.cc
      s.setCc b.k b.cc { c with flq := c.flq ++ (List.range 64).map fun r =>
        (first + r, if a.rowOut r then a.rowVec r else 0) } }

/-- R190: ACCLD. What a verdict sum had decided of its elements is forgotten with them (DESIGN CHOICE, log 86). -/
def mAccld (b : CtxAt) (acc : BitVec 2) (v : VSpec) (x y : BitVec 6) : Eff :=
  let a := b.accu acc
  if a.kind = 2 then { traps := [{ code := 0x1E }] }
  else
    let n := match v with | .v n => n | _ => 0
    let rows := (List.range 64).map fun r => b.v (.v (n + r))
    let st := setStField (setStField (setStField a.st 25 15 (b.c x).toNat) 45 1 0) 47 1 0
    let a := { a with st := st, row := b.c y, col := BitVec.allOnes 64, decided := [] }
    { act := b.putAccu acc (a.setElems fun i => BitVec.ofNat 64 (laneAt a.rowW (rows.getD (i / 64) 0) (i % 64))) }

/-! ### Podium syllables (R192, R193) -/

/-- R185: NV of an insertion: in ACCST.flg, and in the context's FLG with latency 1. -/
def podEff (b : CtxAt) (acc : BitVec 2) (r : Accu × Bool) : Eff :=
  if r.2 then
    { traps := flagTraps b fNV
      writes := [{ b.write .z 1 0 with flags := fNV }]
      act := b.putAccu acc (r.1.raiseFlags fNV) }
  else { act := b.putAccu acc r.1 }

/-- R192: inserts pairs into a row in order. -/
def insertAll (a : Accu) (r : Nat) (l : List W64) : Accu × Bool :=
  l.foldl (fun (x : Accu × Bool) p =>
    let q := x.1.insert r (p.setWidth 32) (p.extractLsb' 32 32)
    (q.1, x.2 || q.2)) (a, false)

/-- R192: the checks of an insertion into the row a scalar names. -/
def podRow (b : CtxAt) (acc : BitVec 2) (x : BitVec 6) (f : Accu → Nat → Accu × Bool) : Eff :=
  let a := b.accu acc
  if (b.c x).toNat > 63 then { traps := [{ code := 0x08 }] }
  else if a.kind ≠ 2 then { traps := [{ code := 0x1E }] }
  else podEff b acc (f a (b.c x).toNat)

/-- R192: PINS. -/
def mPins (b : CtxAt) (acc : BitVec 2) (v : VSpec) (x : BitVec 6) (k : BitVec 3) : Eff :=
  let vals := b.v v
  let idxs := match v with | .v n => b.v (.v (n + 1)) | _ => 0
  podRow b acc x fun a r => insertAll a r (((List.range 128).filter (b.active k)).map fun i =>
    BitVec.ofNat 64 (laneAt 32 vals i + laneAt 32 idxs i * 2 ^ 32))

/-- R192: PMERGE of a vector: a lane with the empty pair is skipped. -/
def mPmerge (b : CtxAt) (acc : BitVec 2) (v : VSpec) (x : BitVec 6) : Eff :=
  let vals := b.v v
  podRow b acc x fun a r => insertAll a r (((List.range 64).map fun i =>
    (BitVec.ofNat 64 (laneAt 64 vals i) : W64)).filter fun p => p != emptyPair)

/-- R192: PMERGE.l: the raise values, then every pair of every row. -/
def mPmergeL (b : CtxAt) (acc : BitVec 2) : Eff :=
  let a := b.accu acc
  match (b.s.cluster b.k).latch with
  | .podium st elems raise =>
    if a.kind ≠ 2 then { traps := [{ code := 0x1E }] }
    else
      let img : Accu := { Accu.zero with st := st, elems := elems, raise := raise }
      podEff b acc ((List.range 64).foldl (fun (x : Accu × Bool) r =>
        let p := x.1.praise r (img.raiseAt r)
        let q := insertAll p.1 r (img.pairs r)
        (q.1, x.2 || p.2 || q.2)) (a, false))
  | _ => { traps := [{ code := 0x0A }] }

/-- R193: PFLOOR. -/
def mPfloor (b : CtxAt) (acc : BitVec 2) (v : VSpec) : Eff :=
  let a := b.accu acc
  if a.kind ≠ 2 then { traps := [{ code := 0x1E }] }
  else { writes := [b.write (VSpec.dest v) 4 (ofLanes 32 ((List.range 64).map fun r => (a.floor r).toNat))] }

/-- R193: PRAISE. -/
def mPraise (b : CtxAt) (acc : BitVec 2) (v : VSpec) : Eff :=
  let a := b.accu acc
  let vals := b.v v
  let lane (r : Nat) : W32 := BitVec.ofNat 32 (laneAt 32 vals r)
  if (List.range 64).any fun r => isOffcut .f32 ((lane r).setWidth 64) then { traps := [{ code := 0x0C }] }
  else if a.kind ≠ 2 then { traps := [{ code := 0x1E }] }
  else podEff b acc ((List.range 64).foldl (fun (x : Accu × Bool) r =>
    let q := x.1.praise r (lane r)
    (q.1, x.2 || q.2)) (a, false))

/-- R194: VERDRD: whether an element's verdict is true, and whether it has one. -/
def Accu.verdicts (a : Accu) (i : Nat) : Bool × Bool :=
  let v := a.elem i
  if a.isOff v then (v.getLsbD 0, true) else if a.done then (a.verdict (i / 64) v, true) else (false, false)

/-- R194. -/
def mVerdrd (b : CtxAt) (acc : BitVec 2) (v : VSpec) : Eff :=
  let a := b.accu acc
  if a.kind ≠ 1 then { traps := [{ code := 0x1E }] }
  else
    let bitsOf (f : Nat → Bool) : VReg := ofLanes 1 ((List.range 4096).map fun i => if f i then 1 else 0)
    match v with
    | .v n => { writes := [b.write (.v n) 4 (bitsOf fun i => (a.verdicts i).1),
                           b.write (.v (n + 1)) 4 (bitsOf fun i => (a.verdicts i).2)] }
    | _ => {}

/-! ### An M syllable -/

/-- R187: the M slot. -/
def mSyl (b : CtxAt) (y : MSyl) : Eff :=
  match y with
  | .mma acc x z => mMma b acc x z
  | .mmaf acc x => mMmaf b acc x
  | .mbld x => mMbld b x
  | .mbldPod acc => mMbldPod b acc
  | .mrot => mMrot b
  | .accdecl acc x d => mAccdecl b acc x d
  | .acczero acc => mAcczero b acc
  | .accdrain acc v => mAccdrain b acc v
  | .accld acc v x z => mAccld b acc v x z
  | .pins acc v x k => mPins b acc v x k
  | .pmerge acc v x => mPmerge b acc v x
  | .pmergeL acc => mPmergeL b acc
  | .pfloor acc v => mPfloor b acc v
  | .praise acc v => mPraise b acc v
  | .verdrd acc v => mVerdrd b acc v

/-- R175, R189: the accumulator whose queued steps an M syllable waits for. -/
def MSyl.waitsAcc : MSyl → Option Nat
  | .acczero acc | .accdrain acc _ | .accld acc _ _ _ | .verdrd acc _ | .pfloor acc _ | .pins acc _ _ _ | .pmerge acc _ _
  | .pmergeL acc | .praise acc _ | .accdecl acc _ _ | .mbldPod acc => some acc.toNat
  | .mma _ _ _ | .mmaf _ _ | .mbld _ | .mrot => none

/-- R175: whether a step names an accumulator, or is of a GTF sum whose podium it is. -/
def CcState.stepNames (c : CcState) (a : Nat) (q : AStep) : Bool :=
  let d := c.accu q.acc
  q.acc == a || (d.kind == 1 && d.pred == 1 && d.tgt == a)

/-- R175: the step wait of an M syllable. -/
def CtxAt.stepWait (b : CtxAt) (y : MSyl) : Bool :=
  let c := b.core
  let steps := c.queue ++ c.run.toList
  let latch := match y with
    | .mbld _ | .mbldPod _ | .mrot => steps.any fun q => q.b.isNone
    | _ => false
  let full := match y with
    | .mma _ _ _ | .mmaf _ _ => decide (c.stepCount ≥ 4)
    | _ => false
  let named := match MSyl.waitsAcc y with
    | some a => steps.any (c.stepNames a)
    | none => false
  latch || full || named

/-- R190: the vector registers an M syllable reads in its issue cycle (R90). -/
def MSyl.vregs (y : MSyl) : List CReg :=
  match y with
  | .pins _ v _ _ => VSpec.regs v 2
  | .pmerge _ v _ | .praise _ v => VSpec.regs v 1
  | _ => []

/-- R143: every register an M syllable reads. -/
def MSyl.reads (x : Nat) (y : MSyl) : List CReg :=
  MSyl.vregs y ++
  match y with
  | .mma _ a b => [.c x a, .c x b]
  | .mmaf _ a | .mbld a | .pmerge _ _ a => [.c x a]
  | .accdecl _ a d => if d.extractLsb' 4 2 = 2#2 then [.c x a] else []
  | .accld _ v a b => .c x a :: .c x b :: VSpec.regs v 64
  | .pins _ _ a k => .c x a :: (if k = 0 then [] else [.m x k])
  | _ => []

end Sys2Proof.Machine
end

