-- ==== Sys2Proof/Machine/LdSt.lean ====
section
/-! DEFINITION. The LD and ST slots, and the store buffer (R165 to R170, R242, R262, R265, R337). -/

namespace Sys2Proof.Machine

/-! ### Addresses (R165) -/

/-- R165: the scratchpad offset of n bytes at an address, or the code of a fault. -/
def ctxOffset (b : CtxAt) (a : W64) (n : Nat) : Except Nat Nat :=
  match decodePlace b.ent a with
  | .ok (.csp _ off) => if off + n > 2 ^ 22 then .error 0x08 else .ok off
  | .ok _ => .error 0x05
  | .error c => .error (if a.extractLsb' 60 4 = 9#4 then c else 0x05)

/-- The faults of accesses of n bytes at some addresses: the first address that meets each code, with the alignment asked. -/
def accessTraps (b : CtxAt) (l : List W64) (n align : Nat) : List Trap :=
  let of (c : Nat) : List Trap :=
    match l.find? (fun a => match ctxOffset b a n with | .error d => d == c | .ok _ => false) with
    | some a => [{ code := c, addr := a }]
    | none => []
  let mis : List Trap :=
    match l.find? (fun a => a.toNat % align != 0) with
    | some a => [{ code := 0x04, addr := a }]
    | none => []
  of 0x05 ++ of 0x08 ++ mis

/-- The offset of an address that has passed its checks. -/
def offOf (a : W64) : Nat := a.toNat % 2 ^ 22

/-- R337, R410: a byte as a load reads it: a kick word reads as its queue count. -/
def State.cspByte (s : State) (k off : Nat) : Nat :=
  match kickOf k off with
  | some eng => s.kickCount eng / 256 ^ (off % 8) % 256
  | none => (memGet s.mem (cspBase k + off)).toNat

/-- n bytes of a scratchpad, lowest first. -/
def State.cspBytes (s : State) (k off : Nat) : Nat → Nat
  | 0 => 0
  | n + 1 => s.cspByte k off + 256 * s.cspBytes k (off + 1) n

/-! ### LD (R166, R167) -/

def ldImm (imm : BitVec 18) : W64 := imm.signExtend 64

/-- R166: the address of a VLD. -/
def vldAddr (b : CtxAt) (a c : BitVec 6) (imm : BitVec 18) : W64 := b.c a + b.c c + ldImm imm

/-- R166: the addresses of the lanes of a strided access. -/
def strideAddrs (b : CtxAt) (ty : Ty) (a c : BitVec 6) (imm : BitVec 18) : List W64 :=
  (List.range (laneN ty)).map fun i => b.c a + ldImm imm + BitVec.ofNat 64 i * b.c c

/-- R242: what a load of data writes: nothing when a byte is uncorrectable, which is logged. -/
def ldEff (b : CtxAt) (d : VSpec) (spans : List (W64 × Nat)) (v : VReg) : Eff :=
  match spans.find? (fun p => b.s.lost (cspBase b.k + offOf p.1) p.2) with
  | some p => { act := fun s => s.logLost (b.k / 128) (logSyl b.k b.cc b.x 4) p.1 }
  | none => { writes := [b.write (VSpec.dest d) 8 v] }

/-- R166: VLD. -/
def ldVld (b : CtxAt) (d : VSpec) (a c : BitVec 6) (imm : BitVec 18) : Eff :=
  let ea := vldAddr b a c imm
  let traps := accessTraps b [ea] 512 8
  if traps.isEmpty then ldEff b d [(ea, 512)] (BitVec.ofNat 4096 (b.s.cspBytes b.k (offOf ea) 512)) else { traps := traps }

/-- R166: VLDS. -/
def ldVlds (b : CtxAt) (ty : Ty) (d : VSpec) (a c : BitVec 6) (imm : BitVec 18) : Eff :=
  let w := laneW ty
  let l := strideAddrs b ty a c imm
  let traps := accessTraps b l (w / 8) (w / 8)
  if traps.isEmpty then
    ldEff b d (l.map fun ea => (ea, w / 8)) (ofLanes w (l.map fun ea => b.s.cspBytes b.k (offOf ea) (w / 8)))
  else { traps := traps }

/-- R167: the row a VLDH reads, when its handle and row are legal: the tile and the row. -/
def vldhRow (b : CtxAt) (a c : BitVec 6) (imm : BitVec 18) : Except (List Trap) (Tile × Nat) :=
  let row := b.c c + ldImm imm
  let bad : List Trap := if row.toNat > 63 then [{ code := 0x08 }] else []
  match b.s.tileOf b.k ((b.c a).setWidth 16) with
  | some (_, t) =>
    if t.state = 2 ∨ t.state = 3 then (if bad.isEmpty then .ok (t, row.toNat) else .error bad)
    else .error (bad ++ [{ code := 0x0A }])
  | none => .error (bad ++ [{ code := 0x0A }])

/-- R167: VLDH. -/
def ldVldh (b : CtxAt) (d : VSpec) (a c : BitVec 6) (imm : BitVec 18) : Eff :=
  match vldhRow b a c imm with
  | .error l => { traps := l }
  | .ok (t, r) =>
    let off := t.base + 0x200 + r * t.rb
    if t.vmask.getLsbD r then
      ldEff b d [(BitVec.ofNat 64 (0x9000000000000000 + off), t.rb)] (BitVec.ofNat 4096 (b.s.cspBytes b.k off t.rb))
    else { writes := [b.write (VSpec.dest d) 8 0] }

/-- R166: the LD slot. -/
def ldSyl (b : CtxAt) (y : LdSyl) : Eff :=
  match y with
  | .vld d a c imm => ldVld b d a c imm
  | .vlds ty d a c imm => ldVlds b ty d a c imm
  | .vldh d a c imm => ldVldh b d a c imm

/-- The byte spans (offset, length) an LD syllable reads, when it is legal. -/
def LdSyl.spans (b : CtxAt) (y : LdSyl) : List (Nat × Nat) :=
  match y with
  | .vld _ a c imm => [(offOf (vldAddr b a c imm), 512)]
  | .vlds ty _ a c imm => (strideAddrs b ty a c imm).map fun ea => (offOf ea, laneW ty / 8)
  | .vldh _ a c imm =>
    match vldhRow b a c imm with
    | .ok (t, r) => [(t.base + 0x200 + r * t.rb, t.rb)]
    | .error _ => []

/-- The words spans of bytes lie in, each once. -/
def spanWords (l : List (Nat × Nat)) : List Nat :=
  (l.flatMap fun p => (List.range ((p.1 % 8 + p.2 + 7) / 8)).map fun i => (p.1 / 8 + i) * 8).eraseDups

def LdSyl.reads (x : Nat) (y : LdSyl) : List CReg :=
  match y with
  | .vld _ a c _ | .vlds _ _ a c _ | .vldh _ a c _ => [.c x a, .c x c]

/-! ### ST (R168 to R170) -/

/-- What an ST syllable names. -/
structure StSpec where
  ty : Ty
  give : Bool
  k : BitVec 3
  v : VSpec
  /-- addresses of its lanes -/
  addrs : List W64
  /-- the address of VST must be 8-byte aligned; those of VSTM as their elements -/
  base : Option W64

def stSpec (b : CtxAt) (y : StSyl) : StSpec :=
  match y with
  | .vst ty give k v a c imm =>
    let ea := b.c a + b.c c + ldImm imm
    { ty := ty, give := give, k := k, v := v, base := some ea
      addrs := (List.range (laneN ty)).map fun i => ea + BitVec.ofNat 64 (i * (laneW ty / 8)) }
  | .vstm ty give k v a c imm =>
    { ty := ty, give := give, k := k, v := v, base := none, addrs := strideAddrs b ty a c imm }

/-- The active lanes' elements: offset, value and address. -/
def StSpec.elems (b : CtxAt) (p : StSpec) : List (Nat × Nat × W64) :=
  let w := laneW p.ty
  let v := b.v p.v
  (p.addrs.mapIdx fun i a => (i, a)).filterMap fun q =>
    if b.active p.k q.1 then some (offOf q.2, laneAt w v q.1, q.2) else none

/-- R165, R168, R262, R337: the faults of an ST syllable. -/
def StSpec.traps (b : CtxAt) (p : StSpec) : List Trap :=
  let n := laneW p.ty / 8
  let act := (p.addrs.mapIdx fun i a => (i, a)).filterMap fun q => if b.active p.k q.1 then some q.2 else none
  let t := match p.base with
    | some ea => accessTraps b act n 1 ++ accessTraps b [ea] 1 8
    | none => accessTraps b act n n
  if !t.isEmpty then t
  else
    let es := p.elems b
    let kick : List Trap :=
      if p.give && p.ty == .b64 then []
      else match es.find? (fun e => (List.range n).any fun i => (kickOf b.k (e.1 + i)).isSome) with
        | some e => [{ code := 0x05, addr := e.2.2 }]
        | none => []
    let live : List Trap :=
      if p.give then
        match es.find? (fun e => !(b.s.tilesAt b.k ((List.range n).map (e.1 + ·))).isEmpty) with
        | some e => [{ code := 0x0A, addr := e.2.2 }]
        | none => []
      else []
    kick ++ live

/-- R168, R170: an ST syllable enters the store buffer. -/
def stSyl (b : CtxAt) (y : StSyl) : Eff :=
  let p := stSpec b y
  let t := p.traps b
  if !t.isEmpty then { traps := t }
  else
    let es := p.elems b
    let n := laneW p.ty / 8
    { act := fun s =>
        let c := s.ctx b.k b.cc b.x
        s.setCtx b.k b.cc b.x { c with sbuf := c.sbuf ++
          [{ give := p.give, elems := es, ty := p.ty, need := spanWords (es.map fun e => (e.1, n)), age := none }] } }

def StSyl.vregs (y : StSyl) : List CReg :=
  match y with
  | .vst _ _ _ v _ _ _ | .vstm _ _ _ v _ _ _ => VSpec.regs v 1

def StSyl.reads (x : Nat) (y : StSyl) : List CReg :=
  StSyl.vregs y ++
  match y with
  | .vst _ _ k _ a c _ | .vstm _ _ k _ a c _ => [.c x a, .c x c] ++ if k = 0 then [] else [.m x k]

/-- R170: whether bytes of a store entry are among spans of bytes. -/
def StEnt.meets (e : StEnt) (spans : List (Nat × Nat)) : Bool :=
  e.elems.any fun x => spans.any fun p => decide (x.1 < p.1 + p.2) && decide (p.1 < x.1 + laneW e.ty / 8)

/-! ### Writing the store buffer (R169, R170) -/

/-- R169: whether a give of the entry finds a full word. -/
def State.giveOver (s : State) (k : Nat) (e : StEnt) : Bool :=
  e.give && (spanWords (e.elems.map fun x => (x.1, laneW e.ty / 8))).any fun w =>
    (kickOf k w).isNone && s.isFull (cspBase k + w)

/-- R337: the elements of a store entry that are stores to a kick word, and the others. -/
def StEnt.kicks (e : StEnt) (k : Nat) : List (Nat × Nat × W64) := e.elems.filter fun p => (kickOf k p.1).isSome
def StEnt.plain (e : StEnt) (k : Nat) : List (Nat × Nat × W64) := e.elems.filter fun p => (kickOf k p.1).isNone

/-- R169, R170, R262, R265: the elements of a store entry that are no kicks are written. -/
def State.writeEntry (s : State) (k cc x : Nat) (e : StEnt) : State :=
  let n := laneW e.ty / 8
  let found := s.giveOver k e
  let plain := e.plain k
  let addr : W64 := match plain.head? with | some p => p.2.2 | none => 0
  let lostAt := plain.find? fun p => s.badWrite (cspBase k + p.1) n
  let tileHit := e.give && !(s.tilesAt k (plain.flatMap fun p => (List.range n).map (p.1 + ·))).isEmpty
  let r : State × Bool :=
    match lostAt with
    | some p => (s.logLost (k / 128) (logSyl k cc x 5) p.2.2, false)
    | none =>
      if tileHit then (s.refuse k (logSyl k cc x 5) addr (s.tilesAt k (plain.flatMap fun p => (List.range n).map (p.1 + ·))), false)
      else s.land k (logSyl k cc x 5) addr (plain.flatMap fun p => bytesOf p.1 n p.2.1) false
  let s := r.1
  let s := if r.2 && e.give then
      (spanWords (plain.map fun p => (p.1, n))).foldl (fun (s : State) w => s.setFull (cspBase k + w)) s
    else s
  let c := s.ctx k cc x
  s.setCtx k cc x { c with refused := c.refused || !r.2, gover := c.gover || (found && r.2) }

/-- R337: the kicks of a store entry are pushed one by one; at the first whose queue is full the rest wait (log 61). -/
def State.pushKicks (s : State) (k cc x : Nat) : List (Nat × Nat × W64) → List (Nat × Nat × W64) × State
  | [] => ([], s)
  | p :: t =>
    match kickOf k p.1 with
    | some g =>
      if s.kickCount g < 8 then (s.pushCmd g (.ctx k cc x) k (BitVec.ofNat 64 p.2.1) .cluster).pushKicks k cc x t
      else (p :: t, s)
    | none => s.pushKicks k cc x t

/-- R170: the oldest entry of a store buffer has been written. -/
def State.dropEntry (s : State) (k cc x : Nat) : State :=
  let c := s.ctx k cc x
  s.setCtx k cc x { c with
    sbuf := c.sbuf.drop 1
    seals := c.seals.map fun q => (q.1, q.2 - 1)
    cpgos := c.cpgos.map fun q => (q.1, q.2 - 1) }

/-- R32: of some words wanted, those granted in this clk, one for each bank that is free, and those still wanted. -/
def grantWords (s : State) (k : Nat) (l : List Nat) : List Nat × List Nat :=
  l.foldl (fun (r : List Nat × List Nat) w =>
    if s.bankFree k (bankOf w) && !(r.1.any fun v => bankOf v = bankOf w) then (r.1 ++ [w], r.2) else (r.1, r.2 ++ [w]))
    ([], [])

/-- R170, R337: a store buffer asks for the banks of its oldest entry, and writes it when all are granted; kicks that find no room stay
in the entry, and with them what waits for it to be written. -/
def State.storeBuffer (s : State) (k cc x : Nat) : State :=
  let c := s.ctx k cc x
  match c.sbuf with
  | [] => s
  | e :: rest =>
    let g := grantWords s k e.need
    let s := s.grantBanks k (g.1.map bankOf)
    if g.2.isEmpty then
      let s := if (e.plain k).isEmpty then s else s.writeEntry k cc x e
      let r := s.pushKicks k cc x (e.kicks k)
      if r.1.isEmpty then r.2.dropEntry k cc x
      else r.2.setCtx k cc x { r.2.ctx k cc x with sbuf := { e with elems := r.1, need := [], age := none } :: rest }
    else s.setCtx k cc x { c with sbuf := { e with need := g.2, age := e.age.or (some s.clk) } :: rest }

/-- R169, R170: STORE_BUFFER_WRITE. -/
def execStoreBufferWrite (kid cc x : Nat) (s : State) : Host.Outcome State Fault Refusal := .next (s.storeBuffer kid cc x)

/-- R274: a SEAL whose earlier stores have been written takes effect. -/
def execSealEffect (kid cc x : Nat) (s : State) : Host.Outcome State Fault Refusal :=
  let c := s.ctx kid cc x
  match c.seals with
  | (h, 0) :: rest =>
    let s := s.setCtx kid cc x { c with seals := rest }
    .next (match s.tileOf kid h with
      | some (i, _) => s.sealTile kid i 1
      | none => s)
  | _ => .next s

/-- R337: fills the oldest reserved entry of a context with its command. -/
def fillCmd (tag v : W64) : List EngCmd → List EngCmd
  | [] => []
  | q :: t => if q.word = none ∧ q.tag = tag then { q with word := some v, scope := some .cluster } :: t else q :: fillCmd tag v t

/-- R337: a CPGO whose earlier stores have been written pushes its command. -/
def execCpgoPush (kid cc x : Nat) (s : State) : Host.Outcome State Fault Refusal :=
  let c := s.ctx kid cc x
  match c.cpgos with
  | (v, 0) :: rest =>
    let s := s.setCtx kid cc x { c with cpgos := rest }
    let g := s.engine (.ce kid)
    .next (s.setEngine (.ce kid) { g with queue := fillCmd (s.issuerTag (.ctx kid cc x)) v g.queue })
  | _ => .next s

end Sys2Proof.Machine
end

