-- ==== Sys2Proof/Machine/SyCp.lean ====
section
/-! DEFINITION. The CP and SY slots (R258, R274, R304, R328 to R330, R333, R335 to R337, R341). -/

namespace Sys2Proof.Machine

/-! ### CP (R337, R341) -/

/-- R337: CPGO reserves an entry, and fills it once the earlier stores of the context have been written. -/
def cpCpgo (b : CtxAt) (x : BitVec 6) : Eff :=
  { act := fun s =>
      let g := s.engine (.ce b.k)
      let tag := s.issuerTag b.ent
      let n := (s.ctx b.k b.cc b.x).sbuf.length
      let now := decide (n = 0) && (s.ctx b.k b.cc b.x).cpgos.isEmpty
      let s := s.setEngine (.ce b.k) { g with queue := g.queue ++
        [{ word := if now then some (b.c x) else none, tag := tag, scope := if now then some .cluster else none,
           launch := s.kickLaunch b.ent b.k, kid := b.k }] }
      if now then s
      else let c := s.ctx b.k b.cc b.x; s.setCtx b.k b.cc b.x { c with cpgos := c.cpgos ++ [(b.c x, n)] } }

/-- R338: whether a run is active: its mailbox is part of it. -/
def Engine.active (g : Engine) : Bool := g.run != .idle

/-- R341: CPSTAT. -/
def cpCpstat (b : CtxAt) (x : BitVec 6) : Eff :=
  let g := b.s.engine (.ce b.k)
  { writes := [b.writeC x 2 (BitVec.ofNat 64 (g.queue.length + (if g.active then 2 ^ 4 else 0) + g.lastFault * 2 ^ 8))] }

def cpSyl (b : CtxAt) (y : CpSyl) : Eff :=
  match y with
  | .cpgo x => cpCpgo b x
  | .cpstat x _ => cpCpstat b x

def CpSyl.reads (x : Nat) : CpSyl → List CReg
  | .cpgo a => [.c x a]
  | .cpstat _ _ => []

/-- R149, R337, R341: whether a CP syllable must wait for the copy engine. -/
def CpSyl.held (b : CtxAt) (y : CpSyl) : Bool :=
  let g := b.s.engine (.ce b.k)
  match y with
  | .cpgo _ => decide (g.queue.length ≥ 8)
  | .cpstat _ w => w && (g.active || !g.queue.isEmpty)

/-! ### SY -/

/-- R329: HWAIT pops the oldest handle, whose buffer is in use from then on (R258). -/
def syHwait (b : CtxAt) (d : BitVec 6) : Eff :=
  match b.t.handles with
  | [] => {}
  | h :: rest =>
    { writes := [b.writeC d 2 (h.setWidth 64)]
      act := fun s =>
        let c := s.ctx b.k b.cc b.x
        let s := s.setCtx b.k b.cc b.x { c with handles := rest }
        let s := match s.tileOf b.k h with
          | some (i, t) => if t.state = 2 then s.putTile b.k i { t with state := 3 } else s
          | none => s
        (s.pullPost b.k b.cc b.x).acquireAt b.k .cluster }

/-- R329: HPEEK. -/
def syHpeek (b : CtxAt) (d : BitVec 6) : Eff :=
  { writes := [b.writeC d 2 (match b.t.handles with | h :: _ => h.setWidth 64 | [] => 0)] }

/-- R258: whether a queued or running step of the MU names a buffer. -/
def State.stepsName (s : State) (k : Nat) (h : BitVec 16) : Bool :=
  [0, 1].any fun cc =>
    let c := s.cc k cc
    (c.queue ++ c.run.toList).any fun q => q.a == h || q.b == some h

/-- R258: an in-use buffer is released, at once or when no step names it any more. -/
def State.releaseTile (s : State) (k i : Nat) : State :=
  let t := s.tile k i
  if s.stepsName k (BitVec.ofNat 16 (tileHandle i t)) then s.putTile k i { t with releasing := true }
  else s.putTile k i { t with state := 4, releasing := false }

/-- R329: HREL. -/
def syHrel (b : CtxAt) (a : BitVec 6) : Eff :=
  match b.s.tileOf b.k ((b.c a).setWidth 16) with
  | some (i, t) =>
    if t.state = 3 then { act := fun s => s.releaseTile b.k i } else { traps := [{ code := 0x0A }] }
  | none => { traps := [{ code := 0x0A }] }

/-- R331: JIGLD clears the jig and starts recording. -/
def syJigld (b : CtxAt) (a : BitVec 6) (n : BitVec 5) : Eff :=
  { act := fun s =>
      let c := s.ctx b.k b.cc b.x
      s.setCtx b.k b.cc b.x { c with jig := { JigState.zero with n := n.toNat, recording := true, stride := b.c a } } }

/-- R332: JIGRUN starts the passes; no pass or no entry issues nothing. -/
def syJigrun (b : CtxAt) (a : BitVec 6) : Eff :=
  { act := fun s =>
      let c := s.ctx b.k b.cc b.x
      let n := (b.c a).toNat % 2 ^ 32
      s.setCtx b.k b.cc b.x { c with jig := { c.jig with
        running := decide (n ≠ 0) && decide (c.jig.recorded ≠ 0), waiting := false, passes := n, pass := 1, next := 0 } } }

/-- R333: JIGEND stops the jig and keeps its entries. -/
def syJigend (b : CtxAt) : Eff :=
  { act := fun s =>
      let c := s.ctx b.k b.cc b.x
      s.setCtx b.k b.cc b.x { c with jig := { c.jig with running := false, waiting := false } } }

/-- R262, R330, R337: the faults of an MBWAIT address. -/
def mbwaitTraps (b : CtxAt) (a : W64) : List Trap :=
  let t := accessTraps b [a] 8 8
  if !t.isEmpty then t
  else if (kickOf b.k (offOf a)).isSome then [{ code := 0x05, addr := a }]
  else if !(b.s.tilesAt b.k ((List.range 8).map (offOf a + ·))).isEmpty then [{ code := 0x0A, addr := a }] else []

/-- R242, R330: MBWAIT takes a full word; an acquire at die scope. -/
def syMbwait (b : CtxAt) (d a : BitVec 6) : Eff :=
  let ea := b.c a
  let t := mbwaitTraps b ea
  if !t.isEmpty then { traps := t }
  else
    let p := cspBase b.k + offOf ea
    if b.s.lost p 8 then
      { traps := [{ code := 0x13, addr := ea }], fails := fun s => s.logLost (b.k / 128) (logWho 0 b.ent) ea }
    else
    { writes := [b.writeC d 2 (b.s.rd64 p)], act := fun s => (s.setEmpty p).acquireAt b.k .die }

/-- R148: SWITCH yields after its bundle. -/
def sySwitch (b : CtxAt) : Eff :=
  { act := fun s => s.setCc b.k b.cc { s.cc b.k b.cc with yield := true } }

/-- R336: RQSEED. -/
def syRqseed (b : CtxAt) (d a : BitVec 6) : Eff :=
  { act := fun s => s.setCluster b.k { s.cluster b.k with
      rngQ := [], rngKey := b.c a, rngCtr := (b.c d).setWidth 128 } }

/-- R274: SEAL checks its handle at issue, and takes effect once the earlier stores of the context have been written. -/
def sySeal (b : CtxAt) (a : BitVec 6) : Eff :=
  let h : BitVec 16 := (b.c a).setWidth 16
  match b.s.tileOf b.k h with
  | none => { traps := [{ code := 0x0A }] }
  | some (i, _) =>
    { act := fun s =>
        let c := s.ctx b.k b.cc b.x
        if c.sbuf.isEmpty ∧ c.seals.isEmpty then s.sealTile b.k i 1
        else s.setCtx b.k b.cc b.x { c with seals := c.seals ++ [(h, c.sbuf.length)] } }

/-- R328: the SY slot. -/
def sySyl (b : CtxAt) (y : SySyl) : Eff :=
  match y with
  | .hwait d => syHwait b d
  | .hpeek d => syHpeek b d
  | .hrel a => syHrel b a
  | .jigld a n => syJigld b a n
  | .jigrun a => syJigrun b a
  | .jigend _ => syJigend b
  | .mbwait d a => syMbwait b d a
  | .switch => sySwitch b
  | .rqseed d a => syRqseed b d a
  | .seal a => sySeal b a
  | .fencec => { traps := refusalTraps b }

def SySyl.reads (x : Nat) : SySyl → List CReg
  | .hrel a | .jigld a _ | .jigrun a | .mbwait _ a | .seal a => [.c x a]
  | .rqseed d a => [.c x d, .c x a]
  | .hwait _ | .hpeek _ | .jigend _ | .switch | .fencec => []

/-- R149, R329, R330: the wait code of an SY syllable that must wait; 0 when it need not. -/
def SySyl.hold (b : CtxAt) (y : SySyl) : Nat :=
  match y with
  | .hwait _ => if b.t.handles.isEmpty then 1 else 0
  | .mbwait _ a =>
    if (mbwaitTraps b (b.c a)).isEmpty ∧ !(b.s.isFull (cspBase b.k + offOf (b.c a))) then 2 else 0
  | _ => 0

/-! ### The random-bit generator (R335) -/

/-- R335: one round of Philox4x32. -/
def philoxRound (k0 k1 : W32) (x : W32 × W32 × W32 × W32) : W32 × W32 × W32 × W32 :=
  let p0 : W64 := 0xD2511F53 * x.1.setWidth 64
  let p1 : W64 := 0xCD9E8D57 * x.2.2.1.setWidth 64
  let h0 : W32 := p0.extractLsb' 32 32
  let l0 : W32 := p0.extractLsb' 0 32
  let h1 : W32 := p1.extractLsb' 32 32
  let l1 : W32 := p1.extractLsb' 0 32
  (h1 ^^^ x.2.1 ^^^ k0, l1, h0 ^^^ x.2.2.2 ^^^ k1, l0)

/-- R335: n rounds, with the key bumped between them. -/
def philox (n : Nat) (k0 k1 : W32) (x : W32 × W32 × W32 × W32) : W32 × W32 × W32 × W32 :=
  match n with
  | 0 => x
  | n + 1 => philox n (k0 + 0x9E3779B9) (k1 + 0xBB67AE85) (philoxRound k0 k1 x)

/-- R335: a block: words x1:x0 and x3:x2. -/
def philoxBlock (key : W64) (ctr : BitVec 128) : W64 × W64 :=
  let x := philox 10 (key.extractLsb' 0 32) (key.extractLsb' 32 32)
    (ctr.extractLsb' 0 32, ctr.extractLsb' 32 32, ctr.extractLsb' 64 32, ctr.extractLsb' 96 32)
  (x.2.1 ++ x.1, x.2.2.2 ++ x.2.2.1)

/-- R335: RANDOM_BLOCK: one block, while two places are free. -/
def execRandomBlock (kid : Nat) (s : State) : Host.Outcome State Fault Refusal :=
  let c := s.cluster kid
  if c.rngQ.length ≤ 62 then
    let w := philoxBlock c.rngKey c.rngCtr
    .next (s.setCluster kid { c with rngQ := c.rngQ ++ [w.1, w.2], rngCtr := c.rngCtr + 1, rngAt := s.clk })
  else .next s

end Sys2Proof.Machine
end

