-- ==== Sys2Proof/Machine/Jig.lean ====
section
/-! DEFINITION. The jig: staggered entries and its advance (R331 to R334). -/

namespace Sys2Proof.Machine

/-- R331: the stride of a field: byte i of the stride word, signed. -/
def jigStride (w : W64) (i : Nat) : Int := (w.extractLsb' (8 * i) 8).toInt

/-- R331: the stride of the imm fields. -/
def jigImm (w : W64) : Int := (w.extractLsb' 32 18).toInt

/-- R332: a specifier moved by n; none outside 0 to 767. -/
def moveSpec (n : Int) : VSpec → Option VSpec
  | .v m => if 0 ≤ (m : Int) + n ∧ (m : Int) + n < 768 then some (.v ((m : Int) + n).toNat) else none
  | y => some y

/-- R332: an imm moved by n; none outside 18 signed bits. -/
def moveImm (n : Int) (i : BitVec 18) : Option (BitVec 18) :=
  let v := i.toInt + n
  if -(2 ^ 17 : Int) ≤ v ∧ v < 2 ^ 17 then some (BitVec.ofInt 18 v) else none

/-- R332: a V syllable in pass p. -/
def staggerV (w : W64) (p : Nat) (y : VSyl) : Option VSyl :=
  let d := moveSpec (p * jigStride w 0)
  let a := moveSpec (p * jigStride w 1)
  let b := moveSpec (p * jigStride w 2)
  let c := moveSpec (p * jigStride w 3)
  match y with
  | .bin op t rm k x y z => do some (.bin op t rm k (← d x) (← a y) (← b z))
  | .shr t ar k x y z => do some (.shr t ar k (← d x) (← a y) (← b z))
  | .fma t rm k x y z u => do some (.fma t rm k (← d x) (← a y) (← b z) (← c u))
  | .pcnt t k x y => do some (.pcnt t k (← d x) (← a y))
  | .sgn t op k x y z => do some (.sgn t op k (← d x) (← a y) (← b z))
  | .cmp t rel k m y z => do some (.cmp t rel k m (← a y) (← b z))
  | .sel t k x y z => do some (.sel t k (← d x) (← a y) (← b z))
  | .cls t k x y => do some (.cls t k (← d x) (← a y))
  | .ocFill t k x y z => do some (.ocFill t k (← d x) (← a y) (← b z))
  | .ocGet t k x y => do some (.ocGet t k (← d x) (← a y))
  | .cvt t1 n1 t2 n2 rm ns k x y => do some (.cvt t1 n1 t2 n2 rm ns k (← d x) (← a y))
  | .scale t rm k x y z => do some (.scale t rm k (← d x) (← a y) (← b z))
  | .red t op rm k x y => do some (.red t op rm k (← d x) (← a y))
  | .shuf t k x y z => do some (.shuf t k (← d x) (← a y) (← b z))
  | .bcast t l k x y => do some (.bcast t l k (← d x) (← a y))
  | .norm t rm k x y => do some (.norm t rm k (← d x) (← a y))
  | .trans op t rm ns k x y => do some (.trans op t rm ns k (← d x) (← a y))
  | .mov t k x y => do some (.mov t k (← d x) (← a y))
  | .movm x y => some (.movm x y)
  | .li t imm k x => do some (.li t imm k (← d x))

/-- R332: an M syllable in pass p. -/
def staggerM (w : W64) (p : Nat) (y : MSyl) : Option MSyl :=
  let d := moveSpec (p * jigStride w 0)
  let a := moveSpec (p * jigStride w 1)
  match y with
  | .accdrain acc v => (d v).map (.accdrain acc)
  | .pfloor acc v => (d v).map (.pfloor acc)
  | .verdrd acc v => (d v).map (.verdrd acc)
  | .accld acc v x z => (a v).map fun v => .accld acc v x z
  | .pins acc v x k => (a v).map fun v => .pins acc v x k
  | .pmerge acc v x => (a v).map fun v => .pmerge acc v x
  | .praise acc v => (a v).map (.praise acc)
  | y => some y

/-- R332: an LD syllable in pass p. -/
def staggerLd (w : W64) (p : Nat) (y : LdSyl) : Option LdSyl :=
  let d := moveSpec (p * jigStride w 0)
  let i := moveImm (p * jigImm w)
  match y with
  | .vld v a b imm => do some (.vld (← d v) a b (← i imm))
  | .vlds t v a b imm => do some (.vlds t (← d v) a b (← i imm))
  | .vldh v a b imm => do some (.vldh (← d v) a b (← i imm))

/-- R332: an ST syllable in pass p. -/
def staggerSt (w : W64) (p : Nat) (y : StSyl) : Option StSyl :=
  let d := moveSpec (p * jigStride w 0)
  let i := moveImm (p * jigImm w)
  match y with
  | .vst t g k v a b imm => do some (.vst t g k (← d v) a b (← i imm))
  | .vstm t g k v a b imm => do some (.vstm t g k (← d v) a b (← i imm))

/-- R332: a slot of an entry, moved and checked again; what is not legal any more is illegal in the word's place. -/
def staggerSlot {α : Type} (f : α → Option α) (wf : α → Bool) (enc : α → BitVec 8 × BitVec 52) : Slot α → Slot α
  | .nop => .nop
  | .illegal w => .illegal w
  | .op q y =>
    match f y with
    | some z => if wf z then .op q z else .illegal (mkSyl q (enc y).1 (enc y).2)
    | none => .illegal (mkSyl q (enc y).1 (enc y).2)

/-- R332: an entry in pass p of a stride word. -/
def stagger (w : W64) (p : Nat) (e : JigEntry) : JigEntry :=
  { v0 := staggerSlot (staggerV w p) VSyl.wf encVSyl e.v0
    v1 := staggerSlot (staggerV w p) VSyl.wf encVSyl e.v1
    m := staggerSlot (staggerM w p) MSyl.wf encMSyl e.m
    ld := staggerSlot (staggerLd w p) LdSyl.wf encLd e.ld
    st := staggerSlot (staggerSt w p) StSyl.wf encSt e.st }

/-- R332: the entry that issues in the context's next cycle, while the jig runs. -/
def JigState.entry (j : JigState) : Option JigEntry :=
  if j.running then (j.entries[j.next]?).map (stagger j.stride j.pass) else none

/-- R332: the jig after an entry has issued. -/
def JigState.advance (j : JigState) : JigState :=
  if !j.running then j
  else if j.next + 1 < j.recorded then { j with next := j.next + 1 }
  else if j.pass < j.passes then { j with next := 0, pass := j.pass + 1 }
  else { j with next := 0, pass := j.pass + 1, running := false }

/-- R331: the jig after a bundle has issued while it records. -/
def JigState.record (j : JigState) (b : Bundle) : JigState :=
  if j.recording then
    { j with
      entries := j.entries ++ [{ v0 := b.v0, v1 := b.v1, m := b.m, ld := b.ld, st := b.st }]
      recorded := j.recorded + 1
      recording := decide (j.recorded + 1 < j.n) }
  else j

end Sys2Proof.Machine
end

