-- ==== Sys2Proof/Machine/Issue.lean ====
section
/-! DEFINITION. Issuing a bundle: decode checks, holds, freezes, faults and effects; landing; the selector (R86 to R91, R141 to
R153, R175, R190, R204, R206). -/

namespace Sys2Proof.Machine

/-! ### The syllables of a cycle -/

/-- A syllable of any slot. -/
inductive AnySyl where
  | s (y : SSyl)
  | v0 (y : VSyl)
  | v1 (y : VSyl)
  | m (y : MSyl)
  | ld (y : LdSyl)
  | st (y : StSyl)
  | cp (y : CpSyl)
  | sy (y : SySyl)

/-- A syllable in its slot, with its guard, and whether the jig issues it. -/
structure Placed where
  slot : Nat
  jig : Bool
  q : BitVec 4
  y : AnySyl

/-- A word that is no syllable of its slot. -/
structure BadSlot where
  slot : Nat
  jig : Bool
  word : W64

def placeSlot {α : Type} (n : Nat) (jig : Bool) (f : α → AnySyl) : Slot α → List Placed
  | .op q y => [{ slot := n, jig := jig, q := q, y := f y }]
  | _ => []

def badSlot {α : Type} (n : Nat) (jig : Bool) : Slot α → List BadSlot
  | .illegal w => [{ slot := n, jig := jig, word := w }]
  | _ => []

/-- R86: the syllables of a bundle in bundle order. -/
def Bundle.placed (b : Bundle) : List Placed :=
  placeSlot 0 false .s b.s ++ placeSlot 1 false .v0 b.v0 ++ placeSlot 2 false .v1 b.v1 ++ placeSlot 3 false .m b.m
  ++ placeSlot 4 false .ld b.ld ++ placeSlot 5 false .st b.st ++ placeSlot 6 false .cp b.cp ++ placeSlot 7 false .sy b.sy

def Bundle.bad (b : Bundle) : List BadSlot :=
  badSlot 0 false b.s ++ badSlot 1 false b.v0 ++ badSlot 2 false b.v1 ++ badSlot 3 false b.m ++ badSlot 4 false b.ld
  ++ badSlot 5 false b.st ++ badSlot 6 false b.cp ++ badSlot 7 false b.sy

def JigEntry.placed (e : JigEntry) : List Placed :=
  placeSlot 1 true .v0 e.v0 ++ placeSlot 2 true .v1 e.v1 ++ placeSlot 3 true .m e.m ++ placeSlot 4 true .ld e.ld
  ++ placeSlot 5 true .st e.st

def JigEntry.bad (e : JigEntry) : List BadSlot :=
  badSlot 1 true e.v0 ++ badSlot 2 true e.v1 ++ badSlot 3 true e.m ++ badSlot 4 true e.ld ++ badSlot 5 true e.st

/-- R201: the opcode of a syllable word. -/
def sylCode (w : W64) : BitVec 10 := (w.extractLsb' 52 8).setWidth 10

/-- The word of a placed syllable. -/
def Placed.word (p : Placed) : W64 :=
  let e := match p.y with
    | .s y => encS y
    | .v0 y | .v1 y => encVSyl y
    | .m y => encMSyl y
    | .ld y => encLd y
    | .st y => encSt y
    | .cp y => encCp y
    | .sy y => encSy y
  mkSyl p.q e.1 e.2

/-! ### Decode checks (R90, R91) -/

/-- A fault with the slot it is named for. -/
structure SlotTrap where
  t : Trap
  slot : Nat
  jig : Bool
  /-- what it leaves beside the trap -/
  fails : State → State := id

/-- R90: the vector registers a syllable reads through the issue ports. -/
def AnySyl.vregs : AnySyl → List CReg
  | .v0 y | .v1 y => VSyl.vregs y
  | .m y => MSyl.vregs y
  | .st y => StSyl.vregs y
  | _ => []

def regNum : CReg → Nat
  | .v n => n
  | .c _ n => n.toNat
  | .q _ n => n.toNat
  | .m _ n => n.toNat
  | .z => 0

/-- R91 step 1: illegal words, and stream syllables in slots the jig's entry takes. -/
def illegalTraps (bad : List BadSlot) (l : List Placed) : List SlotTrap :=
  (bad.map fun x => { t := { code := 0x01, info := sylCode x.word }, slot := x.slot, jig := x.jig })
  ++ (l.filter fun p => !p.jig && (l.any fun q => q.jig && q.slot == p.slot)).map fun p =>
    { t := { code := 0x01, info := sylCode p.word }, slot := p.slot, jig := false }

/-- R22, R91 step 2: in sole mode the other control core may issue no M syllable. -/
def modeTraps (b : CtxAt) (l : List Placed) : List SlotTrap :=
  let mode := (b.s.cluster b.k).mumode
  let other : Bool := (mode == 1 && b.cc != 0) || (mode == 2 && b.cc != 1)
  if other then (l.filter fun p => p.slot == 3).map fun p => { t := { code := 0x03 }, slot := 3, jig := p.jig } else []

/-- R90: the bank rule. -/
def bankTraps (l : List Placed) : List SlotTrap :=
  let regs := (l.flatMap fun p => AnySyl.vregs p.y).eraseDups
  let full (bk : Nat) : Bool := decide (3 < (regs.filter fun r => regNum r % 4 = bk).length)
  (l.filter fun p => (AnySyl.vregs p.y).any fun r => full (regNum r % 4)).map fun p =>
    { t := { code := 0x19 }, slot := p.slot, jig := p.jig }

/-- The fault of the lowest slot; the stream's before the jig's. -/
def lowest (l : List SlotTrap) : Option SlotTrap :=
  l.foldl (fun (a : Option SlotTrap) t => match a with
    | none => some t
    | some u => if t.slot < u.slot then some t else some u) none

/-- Words and syllables that are decoded together. -/
structure Decoded where
  bad : List BadSlot
  l : List Placed

/-- R91: the decode fault of a cycle: step by step, over what is decoded. -/
def decodeTrap (b : CtxAt) (ds : List Decoded) : Option SlotTrap :=
  (lowest (ds.flatMap fun d => illegalTraps d.bad d.l)).or
    ((lowest (ds.flatMap fun d => modeTraps b d.l)).or (lowest (ds.flatMap fun d => bankTraps d.l)))

/-! ### Execution -/

/-- The word that SR conversions of the cycle use: the oldest of the random-bit queue (R46). -/
def CtxAt.srWord (b : CtxAt) : W64 := (b.s.cluster b.k).rngQ.headD 0

/-- What a syllable does. -/
def AnySyl.eff (b : CtxAt) : AnySyl → Eff
  | .s y => sSyl b y
  | .v0 y => vSyl b 0 b.srWord y
  | .v1 y => vSyl b 1024 b.srWord y
  | .m y => mSyl b y
  | .ld y => ldSyl b y
  | .st y => stSyl b y
  | .cp y => cpSyl b y
  | .sy y => sySyl b y

/-- R143: the registers a syllable reads. -/
def AnySyl.reads (x : Nat) : AnySyl → List CReg
  | .s y => SSyl.reads x y
  | .v0 y | .v1 y => VSyl.vregs y ++ VSyl.masks x y
  | .m y => MSyl.reads x y
  | .ld y => LdSyl.reads x y
  | .st y => StSyl.reads x y
  | .cp y => CpSyl.reads x y
  | .sy y => SySyl.reads x y

/-- R143, R207, R218: whether a register lies in a window its own context opened. -/
def CtxAt.inWindow (b : CtxAt) (r : CReg) : Bool :=
  (b.core.pending.any fun p => p.x == b.x && p.reg == r)

/-- R143: 0x11 for the reads of a syllable, its guard among them. -/
def windowTraps (b : CtxAt) (p : Placed) : List SlotTrap :=
  if b.t.wchk then
    let guard : List CReg := if p.q = 0 then [] else [.q b.x p.q]
    let regs := guard ++ (if b.q p.q then (match p.y with
      | .m (.accld _ _ x y) => [.c b.x x, .c b.x y]  -- its vector registers are checked as they are read
      | y => AnySyl.reads b.x y) else [])
    match regs.find? (b.inWindow ·) with
    | some r => [{ t := { code := 0x11, info := BitVec.ofNat 10 (regNum r) }, slot := p.slot, jig := p.jig }]
    | none => []
  else []

/-- R150, R204: the fault raised: the first code in order, in the lowest slot that meets it. -/
def firstTrap (l : List SlotTrap) : Option SlotTrap :=
  l.foldl (fun (a : Option SlotTrap) t => match a with
    | none => some t
    | some u =>
      if faultRank t.t.code < faultRank u.t.code ∨ (faultRank t.t.code = faultRank u.t.code ∧ t.slot < u.slot)
      then some t else some u) none

/-- R149: the wait code of a cycle that must be held; 0 when it need not. -/
def holdCode (b : CtxAt) (l : List Placed) : Nat :=
  l.foldl (fun (n : Nat) p =>
    if n ≠ 0 then n
    else match p.y with
      | .cp y => if CpSyl.held b y then 3 else 0
      | .sy y => SySyl.hold b y
      | _ => 0) 0

/-- R190, R352: the reads before the issue cycle: how many clk they take, and the words of a scratchpad among them. -/
def preReads (b : CtxAt) (l : List Placed) : Nat × List W64 :=
  l.foldl (fun (n : Nat × List W64) p => match p.y with
    | .m (.accld _ _ _ _) => (max n.1 64, n.2)
    | .s (.grpfind _ a t) =>
      match b.s.grpLookup b.ent (b.c a) (b.c t).toNat with
      | .ok _ cached reads _ => (max n.1 (if cached then 17 else 41), reads)
      | .stop _ => n
    | _ => n) (0, [])

/-- R146: the causes that need no state of their own. -/
def plainFreeze (b : CtxAt) (l : List Placed) : Bool :=
  let t := b.t
  l.any fun p => match p.y with
    | .st _ => decide (4 ≤ t.sbuf.length)
    | .v0 y | .v1 y => VSyl.isSr y && (b.s.cluster b.k).rngQ.isEmpty
    | .s .haltc | .sy .fencec => !t.sbuf.isEmpty
    | .ld y => t.sbuf.any fun e => e.meets (LdSyl.spans b y)
    | .m (.mmaf _ _) => (b.s.cluster b.k).latch == .empty
    | _ => false

/-- R146, R175: whether an M syllable waits for a step. -/
def stepFreeze (b : CtxAt) (l : List Placed) : Bool :=
  l.any fun p => match p.y with | .m y => b.stepWait y | _ => false

/-- R179: phase 1 of an MROT that has not made it; true when the rotation must wait. -/
def rotFreeze (b : CtxAt) (l : List Placed) : Bool × State :=
  if l.any fun p => match p.y with | .m .mrot => true | _ => false then
    let s := b.s
    let nxt := rinkNext b.k
    let c := s.cc b.k b.cc
    let (went, s) : Bool × State :=
      if c.rotBy = some b.x then (true, s)
      else if (s.cluster nxt).incoming == .empty then
        let s := s.setCluster nxt { s.cluster nxt with incoming := (s.cluster b.k).latch }
        (true, s.setCc b.k b.cc { s.cc b.k b.cc with rotBy := some b.x })
      else (false, s)
    (!went || (s.cluster b.k).incoming == .empty, s)
  else (false, b.s)

/-- R32, R146: the banks an LD or MBWAIT syllable still wants; true when some are not granted. -/
def ldFreeze (s : State) (k cc : Nat) (words : List Nat) : Bool × State :=
  let c := s.cc k cc
  let need := c.ldNeed.getD words
  let g := grantWords s k need
  let s := s.grantBanks k (g.1.map bankOf)
  (!g.2.isEmpty, s.setCc k cc { s.cc k cc with
    ldNeed := if g.2.isEmpty then none else some g.2
    ldAge := if g.2.isEmpty then none else c.ldAge.or (some s.clk) })

/-- R190, R352: one clk of the reads before the issue cycle, m of which are left after it: it asks for the bank of its word, and waits
when that is taken (R32). -/
def preClk (b : CtxAt) (s : State) (reads : List W64) (m : Nat) : State :=
  let c := s.cc b.k b.cc
  let go (s : State) : State := s.setCc b.k b.cc { s.cc b.k b.cc with pre := some m, ldAge := none }
  match (reads[m]?).bind (s.bankAt b.ent) with
  | none => go s
  | some q =>
    if s.bankFree q.1 q.2 then go (s.grantBanks q.1 [q.2])
    else s.setCc b.k b.cc { c with pre := some (m + 1), ldAge := c.ldAge.or (some s.clk) }

/-- R143, R190: 0x11 for the register ACCLD reads in this clk of the reads before its issue cycle. -/
def preTrap (b : CtxAt) (l : List Placed) : Option SlotTrap :=
  let left : Option Nat := match b.core.pre with
    | some (m + 1) => some m
    | some 0 => none
    | none => some 63
  match left with
  | none => none
  | some m => l.findSome? fun p => match p.y with
    | .m (.accld _ v _ _) =>
      match (VSpec.regs v 64)[63 - m]? with
      | some r => if b.t.wchk && b.inWindow r then
          some { t := { code := 0x11, info := BitVec.ofNat 10 (regNum r) }, slot := p.slot, jig := p.jig } else none
      | none => none
    | _ => none

/-- The words the LD and MBWAIT syllables of a cycle read, when they meet no fault. -/
def ldWords (b : CtxAt) (l : List Placed) : List Nat :=
  (l.flatMap fun p => match p.y with
    | .ld y => if (ldSyl b y).traps.isEmpty then spanWords (LdSyl.spans b y) else []
    | .sy (.mbwait d a) => if (syMbwait b d a).traps.isEmpty then [offOf (b.c a) / 8 * 8] else []
    | _ => []).eraseDups

/-- R146: whether the cycle freezes: by a step wait, by another cause; and the state after the clk's requests. -/
def freezes (b : CtxAt) (l : List Placed) : Bool × Bool × State :=
  let step := stepFreeze b l
  let rot := if step then (false, b.s) else rotFreeze b l
  let plain := plainFreeze b l
  let other := rot.1 || plain
  let s := rot.2
  let c := s.cc b.k b.cc
  let n := preReads b l
  let last : Bool × Bool × State :=
    if other then (false, true, s) else let r := ldFreeze s b.k b.cc (ldWords b l); (false, r.1, r.2)
  if step then (true, other, s)
  else match c.pre with
  | some (m + 1) => (false, true, preClk b s n.2 m)
  | some 0 => last
  | none => if n.1 > 0 then (false, true, preClk b s n.2 (n.1 - 1)) else last

/-- R146: one more frozen clk; it counts when a cause other than a step wait holds. -/
def State.frozen (s : State) (k cc : Nat) (counts : Bool) : State :=
  let c := s.cc k cc
  s.setCc k cc { c with freeze := max 1 c.freeze + (if counts then 1 else 0), stepWait := !counts }

/-- R150, R206: the bundle is suppressed and its context trapped; a recorded refusal is cleared by its fault (R153, R304). -/
def CtxAt.trap (b : CtxAt) (s : State) (t : SlotTrap) : State :=
  let s := (t.fails s).ctxTrap b.k b.cc b.x t.t t.slot t.jig
  if t.t.code = 0x14 then s.setCtx b.k b.cc b.x { s.ctx b.k b.cc b.x with refused := false } else s

/-- R145: the address triple after a bundle. -/
def advancePc (t : Ctx) (target : Option W64) : Ctx :=
  { t with pc := t.npc, npc := t.nnpc, nnpc := target.getD (t.nnpc + 64) }

/-- R142, R144, R148, R153, R331: the effects of a cycle, in bundle order, the jig's after the stream's. -/
def CtxAt.effects (b : CtxAt) (s : State) (bun : Bundle) (stream : Bool) (l : List Placed) : State :=
  let effs := l.map fun p => AnySyl.eff b p.y
  let t := s.ctx b.k b.cc b.x
  let jig := t.jig.advance
  let t := if stream then
      advancePc { t with jig := jig.record bun }
        (effs.findSome? fun (e : Eff) => e.target)
    else { t with jig := { jig with waiting := jig.running } }
  let s := s.setCtx b.k b.cc b.x t
  let s := if l.any fun p => match p.y with | .v0 y | .v1 y => VSyl.isSr y | _ => false then
      s.setCluster b.k { s.cluster b.k with rngQ := (s.cluster b.k).rngQ.drop 1 }
    else s
  let s := effs.foldl (fun (s : State) (e : Eff) => e.act s) s
  let c := s.cc b.k b.cc
  let s := s.setCc b.k b.cc { c with
    pending := c.pending ++ effs.flatMap fun (e : Eff) => e.writes
    freeze := 0, stepWait := false, pre := none, ldNeed := none, ldAge := none }
  if l.any fun p => match p.y with | .s .haltc => true | _ => false then s.haltCtx b.k b.cc b.x else s

/-- R333: whether the stream bundle waits for the jig to finish. -/
def jigWaits (b : CtxAt) (bun : Bundle) : Bool :=
  match bun.sy with
  | .op q (.jigend true) => b.t.jig.running && b.q q
  | _ => false

/-- R86, R91, R145 to R150: a context's cycle. A bundle address beyond the loaded code names slot 0 (DESIGN CHOICE, log 49). -/
def issueCycle (b : CtxAt) (bun : Bundle) : State :=
  let s := b.s
  if b.t.pc.toNat ≥ b.core.loaded then s.ctxTrap b.k b.cc b.x { code := 0x05, addr := b.t.pc } 0 false
  else
    let alone := jigWaits b bun
    let entry := b.t.jig.entry
    let jl := match entry with | some e => JigEntry.placed e | none => []
    let jb := match entry with | some e => JigEntry.bad e | none => []
    let l := (if alone then [] else Bundle.placed bun) ++ jl
    let decoded : List Decoded :=
      if alone then [{ bad := Bundle.bad bun, l := Bundle.placed bun }, { bad := jb, l := jl }]
      else [{ bad := Bundle.bad bun ++ jb, l := l }]
    match decodeTrap b decoded with
    | some t => b.trap s t
    | none =>
      let act := l.filter fun p => b.q p.q
      let hold := holdCode b act
      if hold ≠ 0 then
        let s := s.setCc b.k b.cc { b.core with
          freeze := 0, stepWait := false, pre := none, ldNeed := none, ldAge := none, yield := true }
        s.setCtx b.k b.cc b.x { b.t with state := 3, wait := hold }
      else
        let f := freezes b act
        if f.1 || f.2.1 then
          match (if f.1 then none else preTrap b act) with
          | some t => let s := b.trap f.2.2 t; s.setCc b.k b.cc { s.cc b.k b.cc with heldAt := some s.clk }
          | none => f.2.2.frozen b.k b.cc f.2.1
        else
          let traps := l.flatMap (windowTraps b) ++ act.flatMap fun p =>
            let f := AnySyl.eff b p.y
            f.traps.map fun t => { t := t, slot := p.slot, jig := p.jig, fails := f.fails }
          match firstTrap traps with
          | some t => b.trap f.2.2 t
          | none => b.effects f.2.2 bun (!alone) act

/-- R145: BUNDLE_ISSUE: the actor, a context, issues a bundle with any jig entry. -/
def execBundleIssue (bun : Bundle) (s : State) : Host.Outcome State Fault Refusal :=
  match s.actor with
  | .ctx k cc x => .next (issueCycle { s := s, k := k, cc := cc, x := x } bun)
  | _ => .refused .noHart

/-! ### Fetch (R29) -/

/-- R29: the bundle at an offset of a control core's bundle memory. -/
def State.bundleAt (s : State) (k cc : Nat) (pc : W64) : Bundle :=
  let a := bundleBase k cc + pc.toNat
  let w (i : Nat) : W64 := s.rd64 (a + 8 * i)
  decodeBundle (w 0) (w 1) (w 2) (w 3) (w 4) (w 5) (w 6) (w 7)

/-! ### The selector (R148, R149) -/

/-- R149: whether the condition a context waits for is met. -/
def State.ctxAwake (s : State) (k cc x : Nat) : Bool :=
  let b : CtxAt := { s := s, k := k, cc := cc, x := x }
  let bun := s.bundleAt k cc b.t.pc
  holdCode b ((Bundle.placed bun).filter fun p => b.q p.q) == 0

/-- R149: contexts whose condition is met become ready. -/
def State.wakeCtxs (s : State) (k cc : Nat) : State :=
  (List.range 4).foldl (fun (s : State) x =>
    let t := s.ctx k cc x
    if t.state = 3 ∧ s.ctxAwake k cc x then s.setCtx k cc x { t with state := 1, wait := 0 } else s) s

/-- R148: the choice of the issuing context for the next clk; none is made in a freeze. One that has been held, has halted or has
trapped has given up its turn. Where no context was ready and several become so in one clk, the last that issued goes on if it is one of
them, else the next after it (log 94). -/
def State.select (s : State) (k cc : Nat) : State :=
  let s := s.wakeCtxs k cc
  let c := s.cc k cc
  if c.freeze ≠ 0 then s
  else if c.yield ∨ !((s.ctx k cc c.issuing).ready) then
    s.setCc k cc { c with yield := false, issuing := (s.nextReady k cc c.issuing).getD c.issuing }
  else s

/-! ### Landing (R141, R142) -/

/-- R327: a job whose context has halted ends once its steps have retired, its stores and its results have landed. -/
def State.jobEnds (s : State) (k cc : Nat) : State :=
  (List.range 4).foldl (fun (s : State) x =>
    let t := s.ctx k cc x
    let c := s.cc k cc
    let steps := (c.queue ++ c.run.toList).any fun q => q.x = x
    let due := c.pending.any fun p => p.x = x
    if t.state = 4 ∧ t.job.isSome ∧ !steps ∧ t.sbuf.isEmpty ∧ !due then
      (s.endJob k cc x (if t.refused then 0x14 else 0)).setCtx k cc x
        { (s.endJob k cc x (if t.refused then 0x14 else 0)).ctx k cc x with refused := false }
    else s) s

/-- R150: a cycle has passed of the wait of a fault for the writes issued before it; at its end the trap is entered. -/
def State.fallCycle (s : State) (k cc : Nat) : State :=
  (List.range 4).foldl (fun (s : State) x =>
    let t := s.ctx k cc x
    match t.fall with
    | none => s
    | some f =>
      let f := { f with left := f.left - 1 }
      if f.left = 0 then s.enterTrap k cc x f else s.setCtx k cc x { t with fall := some f }) s

/-- R141, R142, R150, R191: the end of a schedule cycle: results land in issue order, rows leave, traps are entered. -/
def State.landCycle (s : State) (k cc : Nat) : State :=
  let c := s.cc k cc
  let ps := c.pending.map fun p => { p with left := p.left - 1 }
  let due := ps.filter fun p => p.left = 0
  let s := s.setCc k cc { c with
    pending := ps.filter fun p => p.left ≠ 0
    flq := (c.flq.map fun (r : Nat × VReg) => (r.1 - 1, r.2)).filter fun r => r.1 ≠ 0
    scyc := c.scyc + 1 }
  ((due.foldl (fun (s : State) p => s.landWrite k cc p) s).fallCycle k cc).perf k 0x05 1

/-- R142, R146, R207: RESULT_LANDING: the end of a clk of a control core, frozen or not. -/
def execResultLanding (kid cc : Nat) (s : State) : Host.Outcome State Fault Refusal :=
  let c := s.cc kid cc
  if c.freeze = 0 ∧ c.heldAt ≠ some s.clk then .next (((s.landCycle kid cc).jobEnds kid cc).replayResumed kid cc)
  else .next (((s.setCc kid cc { c with frz := c.frz + 1 }).perf kid 0x06 1).replayResumed kid cc)

/-- R146: FREEZE_OVERRUN: the issuing context takes 0x12 once the count has passed 4,096. -/
def execFreezeOverrun (kid cc : Nat) (s : State) : Host.Outcome State Fault Refusal :=
  let c := s.cc kid cc
  if c.freeze > 4097 then
    let slot := Config.pick s.fresh % 8
    let s := { s with fresh := s.fresh + 1 }.ctxTrap kid cc c.issuing { code := 0x12 } slot false
    .next (s.setCc kid cc { s.cc kid cc with heldAt := some s.clk })
  else .next s

end Sys2Proof.Machine
end

