-- ==== Sys2Proof/Machine/Array.lean ====
section
/-! DEFINITION. The array: steps start, run and retire (R22, R62, R63, R146, R174 to R178, R181 to R183, R188, R258). -/

namespace Sys2Proof.Machine

/-- R178, R188: the A and B images of a step. -/
def State.stepImgs (s : State) (k : Nat) (q : AStep) : Option (TImg × TImg) :=
  let a := s.tileImg k (q.a.extractLsb' 0 8).toNat
  match q.b with
  | some h => some (a, s.tileImg k (h.extractLsb' 0 8).toNat)
  | none => (s.cluster k).latch.img.map fun b => (a, b)

/-- R146: whether a clk of a control core is frozen by more than a step wait. -/
def CcState.halted (c : CcState) (clk : Nat) : Bool := (c.freeze != 0 && !c.stepWait) || c.heldAt == some clk

/-- R146, R174: whether the array time of a control core runs in this clk. -/
def State.arrayRuns (s : State) (k cc : Nat) : Bool :=
  let c := s.cc k cc
  arrayOwner (s.cluster k).mumode s.clk cc && !(c.halted s.clk)

/-- R178, R181, R182: what the start of a step does to its accumulator; the elements abandoned are beside it. -/
def CcState.startAcc (c : CcState) (q : AStep) (p : PClass) (ta tb : TImg) : Accu × Nat :=
  let a := c.accu q.acc
  let a := { a with row := a.row ||| ta.vmask, col := if a.step = 0 then tb.vmask else a.col &&& tb.vmask }
  if a.kind = 1 then
    let a := if a.pred = 1 then { a with snap := (List.range 64).map fun r => (c.accu a.tgt).floor r } else a
    a.monitor p ta tb
  else (a, 0)

/-- R146, R174, R182, R188: STEP_START: the oldest queued step starts when no step runs and the array is not halted. -/
def execStepStart (kid cc : Nat) (s : State) : Host.Outcome State Fault Refusal :=
  let c := s.cc kid cc
  if c.halted s.clk then .next s
  else match c.run, c.queue with
  | none, q :: rest =>
    match s.stepImgs kid q with
    | some (ta, tb) =>
      match pairClass ta tb with
      | some p =>
        let a := c.startAcc q p ta tb
        let clks := if a.1.kind = 1 ∧ a.1.allab then 4 else p.clks
        let c := { c.setAccu q.acc a.1 with queue := rest, run := some { q with left := clks } }
        .next ((s.setCc kid cc c).perf kid 0x09 a.2)
      -- buffers reopened under a queued step, which R188 forbids: nothing is added
      | none => .next (s.setCc kid cc { c with queue := rest, run := some { q with left := 4 } })
    | none => .next (s.setCc kid cc { c with queue := rest, run := some { q with left := 4 } })
  | _, _ => .next s

/-- R62, R63, R182, R188: an accumulator after the products of a step, and the step's flags. -/
def Accu.addStep (a : Accu) (p : PClass) (ta tb : TImg) (tab : DTab) : Accu × Flags :=
  if a.kind = 1 ∧ a.allab then (a, 0)
  else
    let res := (List.range 4096).map fun i =>
      let v := a.elem i
      if a.isOff v then (v, (0 : Flags)) else stepElem p ta tb tab (i / 64) (i % 64) v
    (a.setElems fun i => (res.getD i (0, 0)).1, res.foldl (fun (f : Flags) (r : W64 × Flags) => f ||| r.2) 0)

/-- R183: completion of a verdict sum: done, or its insertions and the reset; and the flags it adds. -/
def CcState.completeSum (c : CcState) (n ibase : Nat) : CcState × Flags :=
  let a := c.accu n
  if a.ins then
    let r := completionInsert a (c.accu a.tgt) ibase
    let f : Flags := if r.2 then fNV else 0
    ((c.setAccu a.tgt (r.1.raiseFlags f)).setAccu n a.completionReset, f)
  else (c.setAccu n { a with st := setStField a.st 47 1 1 }, 0)

/-- R258: buffers whose release waited for steps are released once no step names them. -/
def State.releaseWaiting (s : State) (k : Nat) : State :=
  ((s.cluster k).tiles.filter fun t => t.2.releasing).foldl (fun (s : State) (t : Nat × Tile) => s.releaseTile k t.1) s

/-- R242: what the reads of a step's tiles log. -/
def State.logStep (s : State) (k cc : Nat) (q : AStep) : State :=
  let s := s.logTile k cc q.x (q.a.extractLsb' 0 8).toNat
  match q.b with
  | some h => s.logTile k cc q.x (h.extractLsb' 0 8).toNat
  | none => s

/-- R188: the step that has run retires. -/
def State.retireStep (s : State) (k cc : Nat) (q : AStep) : State :=
  let c := s.cc k cc
  let a := c.accu q.acc
  let skip : Bool := a.kind == 1 && a.allab
  let imgs := s.stepImgs k q
  let r : Accu × Flags :=
    match imgs with
    | some (ta, tb) =>
      match pairClass ta tb with
      | some p => a.addStep p ta tb (s.tab (.cc k cc))
      | none => (a, 0)
    | none => (a, 0)
  let a := r.1.raiseFlags r.2
  let step := (a.step + 1) % 2 ^ 15
  let a := { a with st := setStField a.st 25 15 step }
  let c := { c.setAccu q.acc a with run := none }
  let ibase := match imgs with | some (_, tb) => tb.ibase | none => 0
  let d := if a.kind = 1 ∧ step = a.len then c.completeSum q.acc ibase else (c, (0 : Flags))
  let s := s.setCc k cc d.1
  let t := s.ctx k cc q.x
  let s := s.setCtx k cc q.x { t with flg := flgRaise t.flg (r.2 ||| d.2) }
  let s := s.perf k 0x07 1
  let s := if skip then s.perf k 0x08 1 else s.logStep k cc q
  s.releaseWaiting k

/-- R188: STEP_RETIRE. -/
def execStepRetire (kid cc : Nat) (s : State) : Host.Outcome State Fault Refusal :=
  match (s.cc kid cc).run with
  | some q => .next (if q.left = 0 then s.retireStep kid cc q else s)
  | none => .next s

/-- R22, R174: the running step of a control core has one array clk less at the end of a clk in which its array time runs. -/
def State.arrayClk (s : State) (k cc : Nat) : State :=
  let c := s.cc k cc
  match c.run with
  | some q => if s.arrayRuns k cc then s.setCc k cc { c with run := some { q with left := q.left - 1 } } else s
  | none => s

end Sys2Proof.Machine
end

