-- ==== Sys2Proof/Machine/Fetch.lean ====
section
/-! DEFINITION. Fetching lap and engine code: global reads that need execute permission (R70, R73, R234, R237; log 5). -/

namespace Sys2Proof.Machine

/-- The outcome of a fetch. -/
inductive FetchRes where
  | ok (i : Except DecErr Instr) (word : W64) (s : State)
  | fault (code : Nat) (addr : W64) (s : State)
  | wait (s : State)

/-- R234, R237: one word of code at a global address. A command stream hart's code stands at device physical addresses (log 9). At an address that is no multiple of 8 the eight bytes from there are the word (log 94). -/
def State.fetchWord (s : State) (e : Ent) (a : W64) : GRes :=
  match e with
  | .hart _ => .ok (s.rd a.toNat 8) s
  | _ =>
    match decodePlace e a, s.entPasid e with
    | .ok (.glob va), some p => s.gread e (some p) va 8 .ex
    | .ok (.glob _), none => .fault 0x07 s
    | .error c, _ => .fault c s
    | .ok _, _ => .fault 0x05 s

/-- R70, R73: the instruction at an address: a second word is fetched when the first has a literal, before either is decoded, so that its
fetch fault goes before what a first word that is no instruction raises (log 94). -/
def State.fetchAt (s : State) (e : Ent) (a : W64) : FetchRes :=
  match s.fetchWord e a with
  | .fault c s => .fault c a s
  | .wait s | .remote _ s => .wait s
  | .ok v s =>
    let w := BitVec.ofNat 64 v
    let l := w.extractLsb' 58 2
    if w ≠ 0 ∧ (l = 1#2 ∨ l = 2#2) then
      match s.fetchWord e (a + 8) with
      | .fault c s => .fault c (a + 8) s
      | .wait s | .remote _ s => .wait s
      | .ok v2 s => .ok (decodeLap (.ofWord w (BitVec.ofNat 64 v2))) w s
    else .ok (decodeLap (.ofWord w 0)) w s

/-- The word a hart is at, or stands parked on, for TINSN; 0 when it cannot be read. -/
def State.wordAt (s : State) (e : Ent) : W64 :=
  let h := s.hart e
  let a := match h.wait with | .trigger _ => h.pc - 8 | _ => h.pc
  match s.fetchWord e a with
  | .ok v _ => BitVec.ofNat 64 v
  | _ => 0

end Sys2Proof.Machine
end

