-- ==== Sys2Proof/Machine/Landing.lean ====
section
/-! DEFINITION. Results that land: long operations, answers, gathers, releases, mode and table writes, replies of jobs (R31, R107,
R109, R213, R241, R245, R290, R327, R345, R347, R366). -/

namespace Sys2Proof.Machine

/-- R107: a pending result lands: its value, acquire and flags, or its fault; a destination that is a full port waits. -/
def State.landPend (s : State) (e : Ent) (p : Pend) (a : Ans) : State :=
  let h := s.hart e
  match a with
  | .err code addr =>
    let s := s.setHart e { h with pend := none, slot := match p.act with | .replySlot _ => none | _ => h.slot }
    match p.act with
    | .flags f => s.takeTrap e { code := code, fpc := f } h.pc p.insn
    | .progress was _ =>
      let s := match p.dst with | some d => s.writeSpec e d (BitVec.ofNat 64 was) | none => s
      s.takeTrap e { code := code, addr := addr, elems := was } h.pc p.insn
    | _ => s.takeTrap e { code := code, addr := addr } h.pc p.insn
  | .ok v =>
    if (p.dst.bind (pushBlocked s e)).isSome then s
    else
      let s := s.setHart e { h with pend := none }
      let s := match p.act with
        | .flags f => s.raise e f
        | .progress _ n => s.setEngine e { s.engine e with progress := if p.next = h.pc then some n else none }
        | _ => s
      let v := match p.act with | .progress _ n => BitVec.ofNat 64 n | _ => v
      let s := match p.dst with | some d => s.writeSpec e d v | none => s
      (s.acquireOpt e p.acq).goOn e p.next

/-- Whether the clk from which a result may land has come. -/
def Pend.isDue (p : Pend) (clk : Nat) : Bool := match p.due with | some d => decide (d ≤ clk) | none => true

/-- R109, R323, R325: a long operation lands; a steal of records takes them in the first clk that leaves both sleds to it. -/
def execLongOpLanding (e : Ent) (s : State) : Host.Outcome State Fault Refusal :=
  .next <| match (s.hart e).pend with
    | some p =>
      if p.act = .steal ∧ p.ans.isNone then s.takeSteal e
      else
      match p.ans with
      | some a => if p.long && p.isDue s.clk then s.landPend e p a else s
      | none => s
    | none => s

/-- R290: the horizon a release of an entity waits for. -/
def State.releaseTarget (s : State) (e : Ent) : Nat :=
  match entKid e with
  | some k => (s.cluster k).horizon
  | none => (s.hart e).horizon

/-- R303: whether an entity's drains are all folded. -/
def State.drained (s : State) (e : Ent) : Bool :=
  !(s.reqs.any fun r => decide (r.2.who = e) && (match r.2.op with | .drain _ _ _ => true | _ => false))

/-- R359, R370, R372: the decrement a batch record carries, on its way to its core: a message of no words, whose release is at die
scope. -/
def State.sendDecrement (s : State) (e : Ent) (name : W64) : State :=
  let n := name.toNat
  let d := s.draw
  d.2.addReq { who := e, pasid := s.entPasid e, level := s.level e, addr := 0, op := .msg [] (some (n / 2 ^ 14 % 16)),
               phase := .message, due := s.clk + d.1, posted := true, dpa := 0, kid := n % 2 ^ 9,
               dest := destWord s.node (n % 2 ^ 9) (n / 2 ^ 9 % 32) }

/-- R31, R247, R303, R359: an answer lands; that of a batch record after both stages of its release (R290) and its decrement. -/
def execAccessAnswerLands (e : Ent) (s : State) : Host.Outcome State Fault Refusal :=
  .next <| match (s.hart e).pend with
    | none => s
    | some p =>
      if p.long || !(p.isDue s.clk) then s
      else match p.act, p.ans with
        | .drainFence, _ => if s.drained e then s.landPend e p (.ok 0) else s
        | .build none name, some _ =>
          if s.placed e then s.setHart e { s.hart e with pend := some { p with act := .build (some (s.releaseTarget e)) name } } else s
        | .build (some t) (some n), some _ =>
          if t ≤ s.pt then
            let s := s.sendDecrement e n
            s.setHart e { s.hart e with pend := some { p with act := .build (some t) none } }
          else s
        | .build (some t) none, some a => if t ≤ s.pt then s.landPend e p a else s
        | .steal, some a => s.landPend e p a
        | .plain, some a | .flags _, some a | .replySlot _, some a | .progress _ _, some a => s.landPend e p a
        | _, _ => s

/-- R327: the reply of a matrix job lands. -/
def execMjobReply (e : Ent) (s : State) : Host.Outcome State Fault Refusal :=
  .next <| match (s.hart e).pend with
    | some p =>
      match p.act, p.ans with
      | .job, some a => s.landPend e p a
      | _, _ => s
    | none => s

/-! ### Gathers (R241, R245, R282, R318) -/

/-- R282: a gather waits for the earlier posted stores of its entity to its word. -/
def State.gatherHeld (s : State) (e : Ent) (g : Gath) : Bool := s.postedBefore e g.no g.addr

/-- R228, R241: what a relaxed load brings: an entry of the data queue, or nothing yet. -/
def State.gatherRead (s : State) (e : Ent) (g : Gath) : Option DqEnt × State :=
  match s.readPlace e g.addr g.ty g.hi true with
  | .ok v s => (some (.word (widen g.ty v)), s)
  | .fault c s => (some (.fault c g), s)
  | .wait s | .remote _ s => (none, s)

/-- R32, R230: a gather that may land asks for its bank, and keeps its age while the bank is taken; at a saved cluster its hart makes the
access. -/
def State.gatherTry (s : State) (e : Ent) (g : Gath) : Option DqEnt × State :=
  let take (s : State) : Option DqEnt × State :=
    let r := s.gatherRead e g
    let h := r.2.hart e
    (r.1, if r.1.isNone then r.2 else r.2.setHart e { h with gAge := none, early := h.early.filter fun x => !x.gather })
  if s.atHart e g.addr then take s
  else
    match s.takeBank e g.addr with
    | some s => take s
    | none => (none, s.setHart e { s.hart e with gAge := (s.hart e).gAge.or (some s.clk) })

/-- R245, R318: the oldest gather lands when the data queue has room; a gather sent again lands in its place; one of a halted thread is
discarded as it lands (R127). -/
def execGatherLanding (e : Ent) (s : State) : Host.Outcome State Fault Refusal :=
  let h := s.hart e
  .next <| match h.dq with
    | .flying g due :: rest =>
      if due ≤ s.clk ∧ !(s.gatherHeld e g) then
        match s.gatherTry e g with
        | (some x, s) => s.setHart e { s.hart e with dq := x :: rest }
        | (none, s) => s
      else s
    | _ =>
      match h.aq with
      | (g, due) :: rest =>
        if due ≤ s.clk ∧ h.dq.length < 8 ∧ !(s.gatherHeld e g) then
          match s.gatherTry e g with
          | (some x, s) => s.setHart e { s.hart e with aq := rest, dq := if h.rot = .halted then [] else h.dq ++ [x] }
          | (none, s) => s
        else s
      | [] => s

/-! ### Releases (R290) -/

/-- R290, R389: whether the writes of an entity's cluster to host memory and to other nodes have been answered. -/
def State.systemDone (s : State) (e : Ent) : Bool :=
  let mine (x : Ent) : Bool := match entKid e with | some k => entKid x == some k | none => decide (x = e)
  !(s.reqs.any fun r => mine r.2.who && (r.2.phase == .link || (r.2.phase == .write && decide (hostBase ≤ r.2.dpa))))
    && !(s.snoops.any fun x => x.2.isSome && x.2 == entKid e)

/-- R290: a release goes on: stage 1 ends and takes its target, or stage 2 ends and the instruction issues again. -/
def execReleaseComplete (e : Ent) (s : State) : Host.Outcome State Fault Refusal :=
  let h := s.hart e
  .next <| match h.rel with
    | none => s
    | some r =>
      if h.rot ≠ .out then s
      else match r.target with
      | none =>
        if s.placed e then
          if Scope.wide r.scope then s.setHart e { h with rel := some { r with target := some (s.releaseTarget e) } }
          else s.setHart e { h with rel := none, relDone := true, rot := .ready }
        else s
      | some t =>
        if t ≤ s.pt ∧ (r.scope ≠ .system ∨ s.systemDone e) then
          s.setHart e { h with rel := none, relDone := true, rot := .ready }
        else s

/-! ### Modes, tables and regions -/

/-- R213: whether neither control core of a cluster has a queued step or a frozen bundle. -/
def State.stepsDone (s : State) (k : Nat) : Bool :=
  [0, 1].all fun c => (s.cc k c).queue.isEmpty && (s.cc k c).run.isNone && (s.cc k c).freeze == 0

/-- R213: MUMODE is written in two waits: until the control cores have been idle once, then in the next clk that is a multiple of 128;
code 3 leaves it. -/
def execMumodeWrite (e : Ent) (s : State) : Host.Outcome State Fault Refusal :=
  .next <| match (s.hart e).pend, entKid e with
    | some p, some k =>
      match p.act with
      | .mumode v idle =>
        let now := idle || s.stepsDone k
        if s.clk % 128 = 0 ∧ now then
          let c := s.cluster k
          (s.setCluster k { c with mumode := if v < 3 then v else c.mumode }).landPend e p (.ok 0)
        else s.setHart e { s.hart e with pend := some { p with act := .mumode v now } }
      | _ => s
    | _, _ => s

/-- R347: a decode table is replaced in one clk, loads of one table in the order of their turns; a control core's waits for the end of its
running step. -/
def execDecodeTableReplace (e : Ent) (s : State) : Host.Outcome State Fault Refusal :=
  .next <| match (s.hart e).pend with
    | some p =>
      match p.act with
      | .table t x =>
        let busy : Bool := match t with | .cc k c => (s.cc k c).run.isSome | _ => false
        let first := !(s.harts.any fun h => match h.2.pend with
          | some q => (match q.act with | .table u _ => u == t && decide (q.due.getD 0 < p.due.getD 0) | _ => false)
          | none => false)
        if p.isDue s.clk && !busy && first then (s.setTab t x).landPend e p (.ok 0) else s
      | _ => s
    | none => s

/-- R366: every allowance on lines of a pair of words is forced home. -/
def State.forceRegion (s : State) (d : Nat) (ws : List (W64 × W64)) : State :=
  let rs := ws.map readRegion
  let lines := ((s.die d).allows.map fun a => a.1.1).filter fun l =>
    rs.any fun r => decide (r.base ≤ l) && decide (l < r.base + r.bytes)
  lines.dedup.foldl (fun (s : State) l => s.forceAll l) s

/-- R366: a new entry takes effect once the old and new lines' allowances are home. -/
def execRegionSwitch (e : Ent) (s : State) : Host.Outcome State Fault Refusal :=
  .next <| match (s.hart e).pend with
    | some p =>
      match p.act with
      | .region d i w0 w1 =>
        if p.isDue s.clk then
          let old := (mfind (s.die d).regions i).toList
          let s := s.forceRegion d ((w0, w1) :: old)
          let x := s.die d
          let s := s.setDie d { x with regions := mput x.regions i (w0, w1) }
          s.landPend e p (.ok 0)
        else s
      | _ => s
    | none => s

end Sys2Proof.Machine
end

