-- ==== Sys2Proof/Machine/Traffic.lean ====
section
/-! DEFINITION. Traffic on its way to scratchpads and inboxes: posted stores, fabric accesses, messages and replies (R230, R241,
R245, R265, R282, R294, R320 to R322, R370). -/

namespace Sys2Proof.Machine

/-! ### Posted stores -/

/-- The row of R228 of a posted access. -/
def postedKind : AccOp → AccKind
  | .addm _ _ => .addmR
  | .amo _ _ _ => .amoNoneR
  | .sts _ _ _ => .sts
  | _ => .storeR

/-- R241, R245: the gathers of an entity that have not landed. -/
def Hart.gathers (h : Hart) : List Gath :=
  h.aq.map (·.1) ++ h.dq.filterMap fun x => match x with | .flying g _ => some g | _ => none

/-- R282: a posted access waits for earlier relaxed accesses of its entity to its words. -/
def State.postHeld (s : State) (id : Nat) (r : Req) : Bool :=
  (s.wordsOf r.who r.addr r.op).any fun w =>
    (s.reqs.any fun q => decide (q.1 < id) && decide (q.2.who = r.who) && q.2.isPosted && s.names q.2.who q.2.addr q.2.op w)
      || (s.hart r.who).gathers.any fun g => decide (g.no < id) && s.wordOf r.who g.addr == w

/-- R241, R265: a posted store takes its place, or is dropped and recorded. -/
def State.placePosted (s : State) (r : Req) : State :=
  let e := r.who
  let x : Access := { kind := postedKind r.op, op := r.op, ea := r.addr, dst := none, plainB64 := false, posted := true,
                      acq := none, rel := none }
  match r.op with
  | .sts ty stride vals =>
    match stsCheck e r.pasid r.addr stride (alignOf ty) vals.length s with
    | .ok l s => s.stsTake e r.pasid r.addr stride ty vals l true (r.issued.getD s.pt)
    | .fault _ a s => s.postFailed e a
    | .wait s => s
  | _ =>
    match s.placeOf e x with
    | .ok (.loc a) =>
      match s.localSite e a r.addr r.op with
      | .ok _ s => s
      | .err _ s => s.postFailed e r.addr
      | .wait => s
    | .ok (.csp k off) =>
      match s.site e k off r.addr r.op with
      | .ok _ s => s
      | .err _ s => s.postFailed e r.addr
      | .wait => s
    | _ => s.postFailed e r.addr

/-- R235, R240: what a posted STS leaves while its range still waits for a translation or for room. -/
def State.stsWaits (s : State) (r : Req) : Option State :=
  match r.op with
  | .sts ty stride vals =>
    match stsCheck r.who r.pasid r.addr stride (alignOf ty) vals.length s with
    | .wait s => some s
    | _ => none
  | _ => none

/-- R32: a request whose bank is taken is tried again in the next clk and keeps its age. -/
def State.reqForfeit (s : State) (id : Nat) (r : Req) : State := s.setReq id { r with forfeit := r.forfeit.or (some s.clk) }

/-- R32, R282: POSTED_STORE_PLACE. -/
def execPostedStorePlace (req : Nat) (s : State) : Host.Outcome State Fault Refusal :=
  .next <| match mfind s.reqs req with
    | some r =>
      if r.phase = .posted ∧ r.due ≤ s.clk ∧ !(s.postHeld req r) then
        match s.stsWaits r with
        | some s => s
        | none =>
          match s.takeBank r.who r.addr with
          | some s => (s.dropReq req).placePosted r
          | none => s.reqForfeit req r
      else s
    | none => s

/-! ### Fabric accesses (R229, R230, R245) -/

/-- R294: an earlier request of the same sender to the same cluster that has not taken its place. -/
def State.behind (s : State) (id : Nat) (r : Req) : Bool :=
  s.reqs.any fun q => q.1 < id ∧ q.2.who = r.who ∧ q.2.kid = r.kid ∧
    (q.2.phase = .fabric ∨ q.2.phase = .retry ∨ q.2.phase = .message ∨ q.2.phase = .resend)

/-- R245: requests a controller holds. -/
def State.heldAt (s : State) (k : Nat) : Nat := (s.reqs.filter fun q => q.2.phase = .held ∧ q.2.kid = k).length

/-- R385: a park is counted. -/
def State.countPark (s : State) (e : Ent) : State :=
  match entKid e with
  | some k => s.perf k 0x04 1
  | none => s

/-- R33: the issuer of a held access is parked on it. -/
def State.parkHeld (s : State) (r : Req) : State :=
  if r.posted || r.early then s
  else
    let h := s.hart r.who
    match h.pend with
    | some _ =>
      if h.rot = .parked then s
      else (s.setHart r.who { h with rot := .parked, parkN := 0
                                     wait := match r.op with | .pegWait _ => .peg r.addr | _ => .word r.addr }).countPark r.who
    | none => s

/-- R230: traffic for a saved launch is kept by its hart, or told to retry one lap later. -/
def State.keepReq (s : State) (id : Nat) (r : Req) (d n : Nat) (again : Phase) : State :=
  match s.launch d n with
  | some l =>
    if l.kept.length < 4096 then (s.setReq id { r with phase := .held }).setLaunch { l with kept := l.kept ++ [id] }
    else s.setReq id { r with phase := again, due := s.clk + 16 }
  | none => s

/-- The scratchpad offset of a fabric address. -/
def fabricOff (a : W64) : Nat := a.toNat % 2 ^ 22

/-- R32, R245, R254: an access arrives at a scratchpad controller, or is tried again there. -/
def State.fabricAccess (s : State) (req : Nat) : State :=
  match mfind s.reqs req with
    | none => s
    | some r =>
      if !(r.due ≤ s.clk ∧ ((r.phase = .fabric ∧ !(s.behind req r) ∧ !(r.isPosted && s.postHeld req r)) ∨ (r.phase = .held ∧ !(s.isKept req)))) then s
      else match s.gate r.pasid r.kid with
      | .refuse => ((s.dropReq req).gateRefuse r.kid r.who r.addr).answer r (.err 0x07 r.addr)
      | .keep d n => s.keepReq req r d n .retry
      | .pass =>
        let bank := bankOf (fabricOff r.addr)
        let granted (f : State → State) : State :=
          if s.bankFree r.kid bank then f (s.grantBanks r.kid [bank]) else s.reqForfeit req r
        match s.site r.who r.kid (fabricOff r.addr) r.addr r.op with
        | .ok _ _ | .err _ _ => granted fun s =>
          match s.site r.who r.kid (fabricOff r.addr) r.addr r.op with
          | .ok v s => (s.dropReq req).answer r (.ok v)
          | .err c s => (s.dropReq req).answer r (.err c r.addr)
          | .wait => s
        | .wait =>
          if r.phase = .held then s
          else if s.heldAt r.kid < 256 then (s.setReq req { r with phase := .held }).parkHeld r
          else (s.setReq req { r with phase := .retry, due := s.clk + 16 }).parkHeld r

def execFabricAccess (req : Nat) (s : State) : Host.Outcome State Fault Refusal := .next (s.fabricAccess req)

/-- R245: a request that was told to retry is sent again. -/
def execControllerRetry (req : Nat) (s : State) : Host.Outcome State Fault Refusal :=
  .next <| match mfind s.reqs req with
    | some r =>
      if r.phase = .retry ∧ r.due ≤ s.clk then
        match decodePlace r.who r.addr with
        | .ok (.glob _) => s.setReq req { r with phase := .write }
        | _ => s.setReq req { r with phase := .fabric }
      else s
    | none => s

/-! ### Messages and replies -/

/-- R279, R322: the scope of the release that sent a message to a cluster. -/
def sentScope (who : Ent) (kid : Nat) : Scope :=
  match who with
  | .far _ => .system
  | _ => if entKid who = some kid then .cluster else .package

/-- R321, R370: a message is taken whole: its words, then its decrement. -/
def State.takeMsg (s : State) (kid core : Nat) (words : List W64) (ctr : Option Nat) (sc : Scope) : State :=
  let x := s.core kid core
  let s := if words.isEmpty then s
    else s.setCore kid core { x with inbox := x.inbox ++ [{ words := words, head := true, scope := sc }] }
  match ctr with
  | some n => s.decrement kid core n (some sc)
  | none => s

/-- R322: the sender of an accepted message goes on, or waits for its reply. -/
def State.msgAccepted (s : State) (r : Req) : State :=
  if r.posted then s
  else
    let h := s.hart r.who
    match h.pend with
    | some p =>
      match p.act with
      | .replySlot _ =>
        if p.ans.isSome then s
        else (s.setHart r.who { h with rot := .parked, parkN := 0, wait := .reply (h.slot.getD 0) }).countPark r.who
      | _ => s.answer r (.ok 0)
    | none => s

/-- R230, R321, R370, R372: a message arrives at the core it names. -/
def State.messageAccept (s : State) (req : Nat) : State :=
  match mfind s.reqs req with
    | none => s
    | some r =>
      match r.op with
      | .msg words ctr =>
        if !(r.phase = .message ∧ r.due ≤ s.clk ∧ !(s.behind req r)) then s
        else
          let core := r.dest.toNat % 32
          match s.gate r.pasid r.kid with
          | .keep d n => s.keepReq req r d n .resend
          | .refuse =>
            let s := s.dropReq req
            let s := if (s.cluster r.kid).launch.isNone then s.logErr (r.kid / 128) 0x0A 0x07 r.kid core 0 r.dest 0
              else s.gateRefuse r.kid r.who r.dest
            s.answer r (.err 0x07 r.dest)
          | .pass =>
            if (s.cluster r.kid).launch.isNone then
              ((s.dropReq req).logErr (r.kid / 128) 0x0A 0x07 r.kid core 0 r.dest 0).answer r (.err 0x07 r.dest)
            else if words.isEmpty ∨ (s.core r.kid core).inbox.length < 32 then
              ((s.dropReq req).takeMsg r.kid core words ctr (if words.isEmpty then .die else sentScope r.who r.kid)).msgAccepted r
            else s.setReq req { r with phase := .resend, due := s.clk + 16 }
      | _ => s

def execMessageAccept (req : Nat) (s : State) : Host.Outcome State Fault Refusal := .next (s.messageAccept req)

/-- R321: a message that was told to retry is sent again. -/
def execMessageResend (req : Nat) (s : State) : Host.Outcome State Fault Refusal :=
  .next <| match mfind s.reqs req with
    | some r => if r.phase = .resend ∧ r.due ≤ s.clk then s.setReq req { r with phase := .message } else s
    | none => s

/-- R320: the thread a call header names. -/
def headerEnt (h : W64) : Ent := .lap (h.toNat / 2 ^ 10 % 2 ^ 9) (h.toNat % 2 ^ 6) (h.toNat / 2 ^ 6 % 2 ^ 4)

/-- R279, R322: a reply meets the armed slot of its thread, whose landing acquires at the scope of the reply's release; or it is
discarded and logged. -/
def State.takeReply (s : State) (e : Ent) (tag : Nat) (v : W64) (sc : Scope) : State :=
  let h := s.hart e
  let drop : State := s.logErr (entDie e) 0x0A 0 (entKidReg e) (entCid e) (logSlot e) 0 (BitVec.ofNat 64 tag)
  match h.pend with
  | some p =>
    match p.act with
    | .replySlot _ =>
      if h.slot = some tag then
        s.setHart e { h with slot := none, rot := .out, wait := .none, pend := some { p with ans := some (.ok v), acq := some sc } }
      else drop
    | _ => drop
  | none => drop

def State.replyLanding (s : State) (req : Nat) : State :=
  match mfind s.reqs req with
    | some r =>
      match r.op with
      | .reply tag v =>
        if r.phase = .replying ∧ r.due ≤ s.clk then
          match s.gate r.pasid r.kid with
          | .keep d n => s.keepReq req r d n .replying
          | .refuse =>
            if (s.cluster r.kid).launch.isNone then
              (s.dropReq req).logErr (r.kid / 128) 0x0A 0 r.kid 0 0 r.dest (BitVec.ofNat 64 tag)
            else (s.dropReq req).gateRefuse r.kid r.who r.dest
          | .pass => (s.dropReq req).takeReply (headerEnt r.dest) tag v (sentScope r.who r.kid)
        else s
      | _ => s
    | none => s

def execReplyLanding (req : Nat) (s : State) : Host.Outcome State Fault Refusal := .next (s.replyLanding req)

/-! ### Kept traffic (R230, R370) -/

/-- R230: the hart executes or delivers one item of kept traffic, before any entity of the cluster resumes: no bank stands against it. -/
def State.runKept (s : State) (id : Nat) : State :=
  match mfind s.reqs id with
  | some r =>
    let s := s.setCluster r.kid { s.cluster r.kid with grants := [] }
    match r.phase with
    | .message => s.messageAccept id
    | .replying => s.replyLanding id
    | .fabric => s.fabricAccess id
    | _ => s
  | none => s

end Sys2Proof.Machine
end

