-- ==== Sys2Proof/Machine/Home.lean ====
section
/-! DEFINITION. Steps of translation stations, homes and cluster caches (R232 to R240, R249 to R251, R285 to R289, R295 to R299,
R374). -/

namespace Sys2Proof.Machine

/-! ### Stations (R234, R235, R239, R240) -/

/-- R237, R239: what an access needs of a leaf. -/
def AccOp.need : AccOp → Need
  | .load _ _ | .tload _ _ | .pref | .pegWait _ => .rd
  | .amo _ _ _ | .cas _ _ _ | .pegArm _ | .pegAdd _ => .rw
  | _ => .wr

/-- R247, R286: a request is translated: a write or addition of a cluster is accepted by its cache; anything else goes on to the
home. -/
def State.translated (s : State) (id : Nat) (r : Req) (l : Leaf) : State :=
  if l.permits r.op.need r.level then
    let va := r.addr.toNat
    let dpa := l.dpa + va % 4096
    let onward (ph : Phase) : State :=
      let d := s.drawShort
      d.2.setReq id { r with phase := ph, dpa := dpa, due := s.clk + d.1 }
    -- a cache with no room for the line takes it later (R224, R286)
    let later : State := s.setReq id { r with phase := .station, due := s.clk + 1 }
    match entKid r.who, r.pasid, r.op with
    | some k, some p, .store _ _ _ =>
      if !(s.canTake k p va) then later
      else
        let t := s.takeLine k p va l
        ((t.2.acceptWrite r.who k (t.1.withLeaf l) (va % 64) r.op r.posted (r.issued.getD s.pt)).dropReq id).answer r (.ok 0)
    | some k, some p, .addm ty v =>
      if !(s.canTake k p va) then later
      else
        let t := s.takeLine k p va l
        ((t.2.acceptAddm r.who k (t.1.withLeaf l) (va % 64) ty v r.posted (r.issued.getD s.pt)).dropReq id).answer r (.ok 0)
    | _, _, .load _ _ | _, _, .tload _ _ | _, _, .pref => onward .home
    | _, _, _ => onward .write
  else (s.dropReq id).answer r (.err 0x07 r.addr)

/-- The answer a host's absent page gives, once (R235). -/
def State.absentOnce (s : State) (die pasid va : Nat) : State := s.dropLeaf die pasid va

/-- R240, R282: a request arrives at its station, which accepts it while it has a miss register and a place for it: a leaf serves it, it
joins the miss register of its page, or it takes one. A posted one is behind the relaxed accesses of its entity to its word. -/
def execTranslationRequest (req : Nat) (s : State) : Host.Outcome State Fault Refusal :=
  .next <| match mfind s.reqs req with
    | some r =>
      match r.pasid with
      | some p =>
        let die := entDie r.who
        let va := r.addr.toNat
        if !(r.phase = .station ∧ r.due ≤ s.clk) ∨ (r.isPosted && s.postHeld req r) ∨ s.stationFull (stationOf die p va) then s
        else match s.leafAt die p va with
        | some l =>
          if l.absent then ((s.absentOnce die p va).dropReq req).answer r (.err 0x06 r.addr) else s.translated req r l
        | none =>
          let st := stationOf die p va
          if (s.findWalk die p (pageOf va)).isSome then
            let s := s.setReq req { r with phase := .miss }
            { s with walks := s.walks.map fun w =>
                if w.die = die ∧ w.pasid = p ∧ w.page = pageOf va then { w with reqs := w.reqs ++ [req] } else w }
          else
            let d := s.draw
            let s := d.2.setReq req { r with phase := .miss }
            { s with walks := s.walks ++
                [{ die := die, pasid := p, page := pageOf va, reqs := [req], due := s.clk + d.1, ats := false
                   begun := s.walkerFree st }] }
      | none => s
    | none => s

/-- R239, R240: the requests of a miss register are answered in arrival order. -/
def State.answerWalk (s : State) (ids : List Nat) (res : Except Nat Leaf) : State :=
  ids.foldl (fun (s : State) id =>
    match mfind s.reqs id with
    | none => s
    | some r =>
      match res with
      | .ok l => s.translated id r l
      | .error c => (s.dropReq id).answer r (.err c r.addr)) s

def State.dropWalk (s : State) (die pasid page : Nat) : State :=
  { s with walks := s.walks.filter fun w => !(w.die = die ∧ w.pasid = pasid ∧ w.page = page) }

/-- R240: when a walk of a station has ended, the oldest miss register whose walk has not begun has it begun. -/
def State.nextWalk (s : State) (st : Nat) : State :=
  match (s.missRegs st).find? fun w => !w.begun with
  | some w =>
    if s.walkerFree st then
      let d := s.draw
      { d.2 with walks := d.2.walks.map fun x =>
          if x.die = w.die ∧ x.pasid = w.pasid ∧ x.page = w.page then { x with begun := true, due := s.clk + d.1 } else x }
    else s
  | none => s

/-- R239, R253: the fault of a walk is logged for the first request that is no PREF; PREF does nothing. -/
def State.logWalkFor (s : State) (die : Nat) (ids : List Nat) (code : Nat) (dpa : Option Nat) : State :=
  match (ids.filterMap (mfind s.reqs)).find? fun r => r.op != .pref with
  | some r => s.logWalk die (logWho 0 r.who) code dpa
  | none => s

/-- R235, R236, R239, R240: a walk ends, reading its entries now. -/
def execWalkEnd (die pasid page : Nat) (s : State) : Host.Outcome State Fault Refusal :=
  .next <| match s.findWalk die pasid page with
    | none => s
    | some w =>
      if w.ats ∨ !w.begun ∨ s.clk < w.due then s
      else
        let st := stationOf die pasid page
        match s.walk die pasid page with
        | (.leaf l, s) => (((s.dropWalk die pasid page).putLeaf die pasid page l).answerWalk w.reqs (.ok l)).nextWalk st
        | (.fault c d, s) => (((s.dropWalk die pasid page).logWalkFor die w.reqs c d).answerWalk w.reqs (.error c)).nextWalk st
        | (.host, s) =>
          State.nextWalk { s with
            walks := s.walks.map fun x =>
              if x.die = die ∧ x.pasid = pasid ∧ x.page = page then { x with ats := true } else x
            outbox := s.outbox ++ [.ats pasid page] } st

/-- R235: the host's answer to a translation request reaches every station that asked. -/
def execAtsTranslationAnswer (pasid page : Nat) (r : AtsResult) (s : State) : Host.Outcome State Fault Refusal :=
  .next <| ([0, 1, 2, 3] : List Nat).foldl (fun (s : State) die =>
    match s.findWalk die pasid page with
    | none => s
    | some w =>
      if !w.ats then s
      else
        let s := s.dropWalk die pasid page
        match r with
        | .page a rd wr ex =>
          let l : Leaf := { absent := false, dpa := hostBase + pageOf a, host := true, rd := rd, wr := wr, ex := ex, usr := true }
          (s.putLeaf die pasid page l).answerWalk w.reqs (.ok l)
        | .notPresent =>
          let l : Leaf := { absent := true, dpa := 0, host := true, rd := false, wr := false, ex := false, usr := false }
          if w.reqs.isEmpty then s.putLeaf die pasid page l else s.answerWalk w.reqs (.error 0x06)) s

/-- R240: an invalidation command. -/
def execTranslationInvalidate (pasid base pages : Nat) (s : State) : Host.Outcome State Fault Refusal :=
  .next ({ s with tcmd := BitVec.ofNat 64 (pasid % 2 ^ 20), tbase := BitVec.ofNat 64 base,
                  tpages := BitVec.ofNat 64 pages }.invalidate (pasid % 2 ^ 20) base pages)

/-- R240: the command completes when every request translated under a removed entry has been answered. -/
def execInvalidationComplete (s : State) : Host.Outcome State Fault Refusal :=
  .next <| match s.tinval with
    | some ids => if ids.any (fun i => mhas s.reqs i) then s else { s with tinval := none, tstatus := 1 }
    | none => s

/-! ### Forced drains (R298, R299) -/

/-- R298: the holders that a load of tolerance eps forces: the largest allowance first, ties to the lowest cluster. -/
def forceList (ty : Ty) (eps : FVal) (hs : List (Nat × W64)) : List Nat :=
  let before (a b : Nat × W64) : Bool := match cmpNum (trackVal ty a.2) (trackVal ty b.2) with
    | .gt => true
    | .lt => false
    | .eq => decide (a.1 ≤ b.1)
  let ordered := sortBy before hs
  let rec go : List (Nat × W64) → List Nat
    | [] => []
    | h :: t => if leVal (sumVals ((h :: t).map fun x => trackVal ty x.2)) eps then [] else h.1 :: go t
  go ordered

/-- R298: forced drains are sent to these holders. -/
def State.sendForced (s : State) (dline : Nat) (ks : List Nat) : State :=
  let d := homeDie dline
  let x := s.die d
  s.setDie d { x with forced := x.forced ++ (ks.map fun k => (dline, k)).filter fun f => !(x.forced.contains f) }

/-- R297, R300: whether a drain of a line is on its way to the home. -/
def State.drainOn (s : State) (dline : Nat) : Bool :=
  s.reqs.any fun r => r.2.onWay dline && (match r.2.op with | .drain _ _ _ => true | _ => false)

/-- R297, R298: a forced drain reaches the cluster that holds the allowance. -/
def execForcedDrain (kid line : Nat) (s : State) : Host.Outcome State Fault Refusal :=
  .next <|
    if (s.die (homeDie line)).forced.contains (line, kid) then
      match s.cchByDpa kid line with
      | some l =>
        if l.allow.isSome then (s.sendDrain (.ce kid) kid l true).perf kid 0x0E 1
        else if s.drainOn line then s else s.returnAllow line kid
      | none => if s.drainOn line then s else s.returnAllow line kid
    else s

/-- R285: writes of one cluster to one line arrive in the order its cache accepted them. -/
def State.writeBehind (s : State) (id : Nat) (r : Req) : Bool :=
  s.reqs.any fun q => decide (q.1 < id) && q.2.phase == .write && decide (q.2.kid = r.kid) && q.2.ofKid == r.ofKid
    && lineOf q.2.dpa == lineOf r.dpa

/-- R285, R297: a drain is folded at the home, as one of its cluster's writes. -/
def execDrainFold (req : Nat) (s : State) : Host.Outcome State Fault Refusal :=
  .next <| match mfind s.reqs req with
    | some r =>
      match r.op with
      | .drain _ _ _ =>
        if r.phase = .write ∧ r.due ≤ s.clk ∧ !(s.writeBehind req r) then s.arrive req r else s
      | _ => s
    | none => s

/-! ### Reads at the home -/

/-- R248, R298: the tolerance of a load, for a region of a type. -/
def AccOp.eps (op : AccOp) (ty : Ty) : FVal :=
  match op with
  | .tload t v => if t = ty then epsVal ty v else .zero false
  | _ => .zero false

/-- R242, R253, R286, R289: a load is answered with what the home has, and the cluster's cache takes the line with a lease; an engine of
a die is answered directly. A PREF that meets uncorrectable data does nothing. -/
def State.answerLoad (s : State) (id : Nat) (r : Req) : State :=
  let t := r.op.elem
  let n := alignOf t.1
  let fill (s : State) : State :=
    match entKid r.who, r.pasid with
    | some k, some p =>
      match s.leafAt (entDie r.who) p r.addr.toNat with
      | some lf =>
        if s.canTake k p r.addr.toNat then
          let x := s.takeLine k p r.addr.toNat lf
          x.2.fillLine k (x.1.withLeaf lf)
        else s
      | none => s
    | _, _ => s
  if r.op = .pref then
    let s := s.dropReq id
    if s.lost (lineOf r.dpa) 64 then s else fill s
  else if s.lost r.dpa n then
    ((s.dropReq id).logLost (homeDie r.dpa) (logWho 0 r.who) r.addr).answer r (.err 0x13 r.addr)
  else
    let v := s.homeRead (entKid r.who) r.dpa n
    (fill (v.2.dropReq id)).answer r (.ok (widen t.1 (if t.1 = .i4 ∧ t.2 then v.1 / 16 else v.1)))

/-- R298, R300: a load at its home: answered, or held until the drains it forces, and those on their way, are folded. -/
def execGlobalReadAnswer (req : Nat) (s : State) : Host.Outcome State Fault Refusal :=
  .next <| match mfind s.reqs req with
    | some r =>
      if r.phase = .home ∧ r.due ≤ s.clk ∧ !(s.writeBehind req r) then
        let dl := lineOf r.dpa
        match s.regionAt r.dpa with
        | none => s.answerLoad req r
        | some g =>
          match forceList g.ty (r.op.eps g.ty) (s.allowsOn dl) with
          | [] => if s.drainOn dl then s.setReq req { r with phase := .tolerant } else s.answerLoad req r
          | ks => (s.sendForced dl ks).setReq req { r with phase := .tolerant }
      else s
    | none => s

/-- R298, R300: a held load is answered once every forced drain of its line, and every other on its way, has been folded. -/
def execTolerantLoadAnswer (req : Nat) (s : State) : Host.Outcome State Fault Refusal :=
  .next <| match mfind s.reqs req with
    | some r =>
      if r.phase = .tolerant ∧ !(s.forcedOn (lineOf r.dpa)) ∧ !(s.drainOn (lineOf r.dpa)) then s.answerLoad req r else s
    | none => s

/-! ### Writes at the home -/

/-- A cluster's copies of a line no longer hold some bytes. -/
def State.forget (s : State) (k dline : Nat) (m : W64) : State :=
  let c := s.cluster k
  s.setCluster k { c with cch := c.cch.map fun l => if l.dpa = dline then { l with valid := l.valid &&& ~~~m } else l }

/-- R249 to R251, R254, R289, R374: an atomic operation at the home, or an addition of an engine of a die; what it answers. Other
clusters' registrations over its bytes end. -/
def State.homeAtomic (s : State) (r : Req) : Ans × State :=
  let t := r.op.elem
  let n := alignOf t.1
  let kid := entKid r.who
  let s := s.endRegs kid r.dpa ((List.range n).map (r.dpa + ·))
  if s.lost r.dpa n then (.err 0x13 r.addr, s.logLost (homeDie r.dpa) (logWho 0 r.who) r.addr)
  else match rmw r.op (s.rd r.dpa n) with
  | .error c => (.err c r.addr, s)
  | .ok (v, none) => (.ok v, s)
  | .ok (v, some new) =>
    let s := ((s.wr r.dpa n (new % 2 ^ tyW t.1)).snoopHost kid (lineOf r.dpa)).l2Touch r.dpa true
    -- the issuer's own copies no longer hold these bytes
    let s := match kid with
      | some k => s.forget k (lineOf r.dpa) (byteMask (r.dpa % 64) n)
      | none => s
    (.ok v, s.noteWrite r.who r.dpa (r.issued.getD s.pt))

/-- R299: what else a write at the home meets: the allowances of its line come home first, in one place (log 12). -/
def State.forced (s : State) (r : Req) : State := if s.writeForces r then s.foldAll (lineOf r.dpa) none else s

/-- R242, R254, R287, R289: a store of an engine of a die at its home. -/
def State.engineStore (s : State) (r : Req) : State :=
  let bs := writeBytes s.mem r.dpa r.op
  if s.badWrite r.dpa bs.length then
    (s.logLost (homeDie r.dpa) (logWho 0 r.who) r.addr).answer r (.err 0x13 r.addr)
  else ((s.homeWrite (logWho 0 r.who) r.dpa bs).noteWrite r.who r.dpa (r.issued.getD s.pt)).answer r (.ok 0)

/-- R254, R285, R289, R299, R374: a write, addition or atomic operation arrives at its home. -/
def execWriteArrivesHome (req : Nat) (s : State) : Host.Outcome State Fault Refusal :=
  .next <| match mfind s.reqs req with
    | none => s
    | some r =>
      let held : Bool := r.phase == .held && !(s.isKept req)
      if !((r.phase = .write ∨ held) ∧ r.due ≤ s.clk ∧ !(r.phase = .write ∧ s.writeBehind req r)) then s
      else
        let atomic (s : State) : State :=
          let x := ((s.dropReq req).forced r).homeAtomic r
          x.2.answer r x.1
        match r.op with
        | .drain _ _ _ => s
        | .store _ _ _ | .lineWrite _ => if (entKid r.who).isSome then s.arrive req r else ((s.dropReq req).forced r).engineStore r
        | .addm _ _ => if (entKid r.who).isSome then s.arrive req r else atomic s
        | .pegWait g =>
          if s.lost r.dpa 8 || pegMet (s.homeRead (entKid r.who) r.dpa 8).1 g then atomic s
          else if held then s
          else if (s.reqs.filter fun q => q.2.phase = .held ∧ lineOf q.2.dpa = lineOf r.dpa).length < 256 then
            (s.setReq req { r with phase := .held }).parkHeld r
          else (s.setReq req { r with phase := .retry, due := s.clk + 16 }).parkHeld r
        | _ => atomic s

/-! ### Leases and lines -/

/-- R286: a lease that has ended leaves only the words of writes on their way. -/
def execLeaseExpiry (kid pasid line : Nat) (s : State) : Host.Outcome State Fault Refusal :=
  .next <| match s.cchAt kid pasid line with
    | some l => if l.expiry ≤ s.pt then s.setLine kid { l with valid := l.valid &&& s.keptBytes kid l } else s
    | none => s

/-- R289, R297: a line with no write on its way leaves the cache. -/
def execCchEviction (kid pasid line : Nat) (s : State) : Host.Outcome State Fault Refusal :=
  .next <| match s.cchAt kid pasid line with
    | some l => if l.inflight = 0 then s.evictLine kid l else s
    | none => s

/-- R390: a line of a cluster cache that a host snoop removes; additions it withholds stay to be drained. -/
def CchLine.snooped (l : CchLine) : Option CchLine := if l.allow.isSome then some { l with valid := 0, dirty := 0, expiry := 0 } else none

/-- R390: a host snoop removes a host-memory line from the home and from every cluster cache, before the part responds; the host then has
the line to itself, and its memory comes to hold what the host writes there (log 95). -/
def execHostSnoop (x : Snoop) (s : State) : Host.Outcome State Fault Refusal :=
  let dl := hostBase + lineOf x.line
  let d := s.die (homeDie dl)
  let s := s.setDie (homeDie dl) { d with l2 := mdel d.l2 dl }
  .next ({ s with clusters := s.clusters.map fun (c : Nat × Cluster) =>
    (c.1, { c.2 with cch := c.2.cch.filterMap fun (l : CchLine) => if l.dpa = dl then l.snooped else some l }) }.wr dl 64 x.data.toNat)

/-- R389: the host has answered a back-invalidation. -/
def execBackInvalidationResponse (line : Nat) (s : State) : Host.Outcome State Fault Refusal :=
  .next { s with snoops := s.snoops.filter fun x => x.1 ≠ lineOf line }

end Sys2Proof.Machine
end

