-- ==== Sys2Proof/Machine/Async.lean ====
section
/-! DEFINITION. Steps of a cluster that no instruction issues: commands to trapped contexts and threads, escalated faults, the
watchdog, seal timers, starts of matrix jobs, and runs of engines (R207, R209, R210, R231, R264, R326, R338, R384, R410). -/

namespace Sys2Proof.Machine

/-! ### Commands to contexts and threads (R207, R231) -/

def execCtxResume (kid cc x : Nat) (s : State) : Host.Outcome State Fault Refusal := .next (s.ctxResumeAt kid cc x none)

def execCtxResumeAt (kid cc x : Nat) (a : W64) (s : State) : Host.Outcome State Fault Refusal :=
  .next (s.ctxResumeAt kid cc x (some a))

def execCtxKill (kid cc x : Nat) (s : State) : Host.Outcome State Fault Refusal := .next (s.ctxEnd kid cc x)

def execThreadResume (kid core slot : Nat) (s : State) : Host.Outcome State Fault Refusal :=
  .next (s.threadResumeTo (.lap kid core slot) none)

def execThreadResumeAt (kid core slot : Nat) (a : W64) (s : State) : Host.Outcome State Fault Refusal :=
  .next (s.threadResumeTo (.lap kid core slot) (some a))

def execThreadKill (kid core slot : Nat) (s : State) : Host.Outcome State Fault Refusal :=
  .next (s.threadEnd (.lap kid core slot))

/-! ### Escalated faults (R210) -/

/-- The record of an escalated fault that the hart has not met yet: cause word, address and slot. -/
def State.escalation (s : State) (e : Ent) : Option (W64 × W64 × Nat) :=
  if s.escalated.any fun x => x.1 == e then none
  else match e with
    | .lap _ _ t =>
      let h := s.hart e
      if h.rot = .trapped ∧ h.tr.cause.getLsbD 26 then some (h.tr.cause, h.tr.addr, t) else none
    | .ctx k cc x =>
      let c := s.ctx k cc x
      if c.state = 5 ∧ c.cau.getLsbD 26 then some (c.cau, c.adr, c.cau.toNat / 2 ^ 21 % 8) else none
    | _ => none

/-- R210, R30: the hart kills a trapped entity. -/
def State.killTrapped (s : State) (e : Ent) : State :=
  match e with
  | .ctx k cc x => s.ctxEnd k cc x
  | e => s.threadEnd e

/-- R210: whether the hart kills an entity in this clk. -/
def State.killDue (s : State) (e : Ent) : Bool :=
  s.escalated.any fun x => x.1 == e && (match x.2 with | some n => decide (n ≤ s.clk) | none => false)

/-- R210: the hart logs the record; it asks the host for an absent page, and kills the entity for any other fault, when it comes
to it (log 2, log 30). -/
def execEscalatedFault (e : Ent) (s : State) : Host.Outcome State Fault Refusal :=
  .next <| match s.escalation e with
    | none => if s.killDue e then (s.unescalate e).killTrapped e else s
    | some (cause, addr, slot) =>
      let code := cause.toNat % 256
      let s := s.logErr (entDie e) 0x08 code (entKidReg e) (entCid e) slot addr 0
      if code = 0x06 then
        { s with escalated := s.escalated ++ [(e, none)]
                 outbox := s.outbox ++ [.pri ((s.entPasid e).getD 0) (pageOf addr.toNat)] }
      else
        let d := s.draw
        { d.2 with escalated := s.escalated ++ [(e, some (s.clk + d.1))] }

/-- R210: the host's answer to a page request: the entity resumes, or is killed. -/
def execPageRequestAnswer (e : Ent) (ok : Bool) (s : State) : Host.Outcome State Fault Refusal :=
  .next <|
    if s.escalated.contains (e, none) then
      let s := s.unescalate e
      if ok then (match e with | .ctx k cc x => s.ctxResumeAt k cc x none | e => s.threadResumeTo e none) else s.killTrapped e
    else s

/-! ### The watchdog (R33, R384) -/

/-- R209, R384: a parked thread takes 0x10 at its parked instruction, which is left unissued: what a controller holds for it
goes, and its reply slot is free. -/
def execSyncStallWatchdog (kid core slot : Nat) (s : State) : Host.Outcome State Fault Refusal :=
  let e := Ent.lap kid core slot
  let h := s.hart e
  let c := s.core kid core
  .next <|
    if h.stalled c then
      let w := s.wordAt e
      let s := { s with reqs := s.reqs.filter fun r => !(decide (r.2.who = e) && !r.2.posted && (r.2.phase == Phase.held || r.2.phase == Phase.retry)) }
      -- R371: of a thread parked in TBIND, TEPC is the address after it, wherever the fault goes
      let tr := match h.wait with | .trigger _ => { h.tr with epc := h.pc } | _ => h.tr
      (s.setHart e { h with slot := none, tr := tr }).takeTrap e { code := 0x10 } h.pc w
    else s

/-! ### Seal timers (R264) -/

/-- R264: whether the timer of an open buffer has run out. -/
def Tile.timedOut (t : Tile) (pt : Nat) : Bool := t.state == 1 && t.timer != 0 && decide (t.due ≤ pt)

def execSealTimer (kid idx : Nat) (s : State) : Host.Outcome State Fault Refusal :=
  .next (if (s.tile kid idx).timedOut s.pt then s.sealTile kid idx 3 else s)

/-! ### Matrix jobs (R326) -/

/-- Whether the launch of a cluster is being stopped for a pre-emption (R214). -/
def State.kidStops (s : State) (k : Nat) : Bool :=
  match (s.cluster k).launch.bind (s.launch (k / 128)) with
  | some l => l.stopping
  | none => false

/-- R326: the lowest context in state 0 or 4; one whose job has not ended is still in use. -/
def State.jobCtx (s : State) (k cc : Nat) : Option Nat :=
  (List.range 4).find? fun x =>
    let t := s.ctx k cc x
    (t.state = 0 ∨ t.state = 4) ∧ t.job.isNone

/-- R326: a context as a job starts it. -/
def Ctx.startJob (t : Ctx) (j : MJob) : Ctx :=
  { t with pc := j.entry, npc := j.entry + 64, nnpc := j.entry + 128
           c := ((Vector.replicate 64 0).set 0 j.arg).set 1 j.tag
           q := Vector.replicate 16 false, m := Vector.replicate 8 0, flg := 0, wchk := true, state := 1, wait := 0
           job := some j.tag }

def execMjobStart (kid cc : Nat) (s : State) : Host.Outcome State Fault Refusal :=
  let q := s.cc kid cc
  .next <| match q.jobs, s.jobCtx kid cc with
    | j :: rest, some x =>
      if s.kidStops kid then s
      else
        let s := s.setCc kid cc { q with jobs := rest }
        (s.setCtx kid cc x ((s.ctx kid cc x).startJob j)).acquireAt kid .cluster
    | _, _ => s

/-! ### Runs of engines (R338, R410) -/

/-- R227: the address of a byte of a cluster's own scratchpad. -/
def cspAddr (off : Nat) : W64 := BitVec.ofNat 64 (0x9 * 2 ^ 60 + off)

/-- R229: the fabric address of a byte of a cluster's scratchpad. -/
def fabricAddr (node kid off : Nat) : W64 :=
  BitVec.ofNat 64 (0xA * 2 ^ 60 + node * 2 ^ 31 + kid / 128 * 2 ^ 29 + kid % 128 * 2 ^ 22 + off)

/-- R338, R410: the address of a byte of a command's cluster, as its engine names it. -/
def State.blockAddr (s : State) (e : Ent) (kid off : Nat) : W64 :=
  match e with
  | .ce _ => cspAddr off
  | _ => fabricAddr s.node kid off

/-- The offset of a command's block. -/
def blockOff (w : W64) : Nat := w.toNat % 2 ^ 22

/-- R338, R410: the launch whose engine code a command runs: the cluster's, or the kicker's. -/
def State.cmdLaunch (s : State) (e : Ent) (c : EngCmd) : Option Launch :=
  match e with
  | .ce k => (s.cluster k).launch.bind (s.launch (k / 128))
  | _ => c.launch.bind fun l => s.launch l.1 l.2

/-- R338, R279: an idle engine starts the command at the head of its queue. -/
def State.startCommand (s : State) (e : Ent) (c : EngCmd) (w : W64) (rest : List EngCmd) (l : Launch) : State :=
  let g := s.engine e
  if w.toNat / 2 ^ 22 % 2 ^ 10 ≠ 0 then
    s.setEngine e { g with queue := rest, run := .ending w c.tag (mailbox 0x05 0 0 0) c.kid }
  else
    let s := s.setEngine e { g with queue := rest, run := .cmd w c.tag c.kid, flags := 0, launch := some (l.die, l.count), progress := none, pass := none }
    let h := s.hart e
    let pc := (wd l.pkt 1) + BitVec.ofNat 64 l.img.engOff + BitVec.ofNat 64 (w.toNat / 2 ^ 32)
    let s := s.setHart e { Hart.settled h with
      size := 128, pc := pc, s := (h.s.set 1 (s.blockAddr e c.kid (blockOff w))).set 2 w }
    match c.scope with
    | some sc => s.acquire e sc
    | none => s

def execEngineCommandStart (e : Ent) (s : State) : Host.Outcome State Fault Refusal :=
  let g := s.engine e
  .next <| match g.run, g.queue with
    | .idle, c :: rest =>
      match c.word, s.cmdLaunch e c with
      | some w, some l => if l.stopping ∨ l.saved.isSome ∨ s.gathersOut e then s else s.startCommand e c w rest l
      | _, _ => s
    | _, _ => s

/-- R307: whether the launch an engine runs for has been killed. -/
def State.runKilled (s : State) (e : Ent) : Bool := match s.entLaunch e with | some l => l.killed | none => false

/-- R307: whether a run of a killed launch is to end now: at an instruction boundary, with no answer outstanding and no pass half done. -/
def State.cutsRun (s : State) (e : Ent) : Bool :=
  let g := s.engine e
  s.runKilled e && (s.hart e).rot != .out && g.progress.isNone && g.pass.isNone

/-- R338: the mailbox give of a run that has ended, with its attribution. -/
def State.giveMailbox (s : State) (e : Ent) (w tag v : W64) (kid : Nat) : State :=
  let off := blockOff w / 8 * 8
  let fin (s : State) : State :=
    let s := s.setHart e { s.hart e with rel := none }
    let s := s.setEngine e { s.engine e with run := .idle }
    s.attribute tag (v.extractLsb' 8 5)
  if s.runKilled e then s.setEngine e { s.engine e with run := .idle }
  else match s.takeBank e (s.blockAddr e kid off) with
  | none => s
  | some s' =>
    match s'.site e kid off (s.blockAddr e kid off) (.give .b64 v) with
    | .ok _ s => fin s
    | .err _ s => fin s
    | .wait => s

/-- R203, R290, R338: the end of a run: its die-scope release, a posted write failure that falls due with it, the mailbox. A run of a killed
launch ends at its next instruction boundary and gives no mailbox (R307). -/
def execEngineRunEnd (e : Ent) (s : State) : Host.Outcome State Fault Refusal :=
  let h := s.hart e
  .next <| match (s.engine e).run with
    | .cmd w tag kid =>
      if s.cutsRun e then
        let s := { s with reqs := s.reqs.filter fun r => !(decide (r.2.who = e) && !r.2.completes) }
        (s.setHart e h.ended).setEngine e { s.engine e with run := .ending w tag 0 kid }
      else s
    | .ending w tag v kid =>
      match h.rel with
      | some { scope := _, target := some t } => if t ≤ s.pt then s.giveMailbox e w tag v kid else s
      | _ =>
        if s.placed e then
          let v := if h.pwf.isSome ∧ v.toNat % 256 = 0 then v ||| 0x14 else v
          let s := s.setHart e { h with pwf := none, rel := some { scope := .die, target := some (s.releaseTarget e) } }
          s.setEngine e { s.engine e with run := .ending w tag v kid }
        else s
    | _ => s

/-- R72, R81: a word that is no instruction. -/
def execIllegalInstruction (w : W64) (s : State) : Host.Outcome State Fault Refusal :=
  if entIsHart s.actor then
    .next (s.takeTrap s.actor { code := 0x01, info := (w.extractLsb' 50 8).setWidth 10 } (s.hart s.actor).pc w)
  else .refused .noHart

end Sys2Proof.Machine
end

