-- ==== Sys2Proof/Machine/Control.lean ====
section
/-! DEFINITION. Control flow of the lap set (R73, R126, R127). -/

namespace Sys2Proof.Machine

/-- R73: a jump to an address; one that is no multiple of 8 raises 0x04 on the jumping instruction. -/
def jumpTo (s : State) (t : W64) : Act :=
  if t.extractLsb' 0 3 = 0#3 then .goto s t else .trap { code := 0x04, addr := t }

/-- R69, R126: the target of a word displacement. -/
def branchTarget (s : State) (disp : BitVec 34) : W64 := (s.hart s.actor).pc + (disp.signExtend 64 <<< 3)

/-- The link an instruction leaves: the address after a one-word instruction (R126). -/
def linkAddr (s : State) : W64 := (s.hart s.actor).pc + 8

/-- R126. -/
def execNop (s : State) : Host.Outcome State Fault Refusal :=
  runLap .nop s fun _ s => .done s

/-- R126. -/
def execBr (g : Guard) (disp : BitVec 34) (s : State) : Host.Outcome State Fault Refusal :=
  runLap (.br g disp) s fun _ s => jumpTo s (branchTarget s disp)

/-- R126: D := a + 8; pc := A, as A stood before (R107). -/
def execJmp (g : Guard) (d a : LSpec) (s : State) : Host.Outcome State Fault Refusal :=
  runLap (.jmp g d a) s fun rd s => jumpTo (s.writeSpec s.actor d (linkAddr s)) (rd a)

/-- R126. -/
def execCall (g : Guard) (d : LSpec) (disp : BitVec 34) (s : State) : Host.Outcome State Fault Refusal :=
  runLap (.call g d disp) s fun _ s => jumpTo (s.writeSpec s.actor d (linkAddr s)) (branchTarget s disp)

/-- R126. -/
def execRet (g : Guard) (a : LSpec) (s : State) : Host.Outcome State Fault Refusal :=
  runLap (.ret g a) s fun rd s => jumpTo s (rd a)

/-- R126: writes D whether or not it branches. -/
def execLoop (g : Guard) (d : LSpec) (disp : BitVec 34) (s : State) : Host.Outcome State Fault Refusal :=
  runLap (.loop g d disp) s fun rd s =>
    let v := rd d - 1
    let s' := s.writeSpec s.actor d v
    if v ≠ 0 then jumpTo s' (branchTarget s disp) else .done s'

/-- The gathers of a hart that have not landed, with the clk each may land. -/
def Hart.flown (h : Hart) : List (Gath × Nat) := h.dq.filterMap fun x => match x with | .flying g d => some (g, d) | _ => none

/-- R127, R203, R241, R282, R338: the thread ends, once its posted stores have taken their places; a recorded posted write failure is raised
first, and an engine's run ends. The words of its data queue are discarded; its gathers are still to land. -/
def execHalt (g : Guard) (s : State) : Host.Outcome State Fault Refusal :=
  runLap (.halt g) s fun _ s =>
    let e := s.actor
    let h := s.hart e
    if s.postedCount e ≠ 0 then .forfeit id
    else match h.pwf with
    | some a => .trapIn (fun s => s.setHart e { s.hart e with pwf := none }) { code := 0x14, addr := a }
    | none =>
      let s := s.setHart e { Hart.settled h with rot := .halted, dq := [], aq := h.flown ++ h.aq }
      .stay (s.endRun e 0 0 0)

end Sys2Proof.Machine
end

