-- ==== Sys2Proof/Machine/Convert.lean ====
section
/-! DEFINITION. Scalar conversions (R61, R103, R133 to R135). -/

namespace Sys2Proof.Machine

/-- R103: a converted element as a register: integer kinds are extended by kind. -/
def extendElem (t : Ty) (v : Nat) : W64 := if t.isIntKind then extend t v else BitVec.ofNat 64 v

/-- R61, R133, R134: a conversion of a source through the actor's decode table. -/
def convertTo (s : State) (d : LSpec) (dty : Ty) (dnk : Nk) (sty : Ty) (snk : Nk) (rm : Rm) (ns : Bool) (a : W64) : Act :=
  let e := s.actor
  if isOffcut sty a then
    if dty = .f32 ∨ dty = .f64 then .done (s.writeSpec e d (offcutTo dty a)) else .trap { code := 0x0C }
  else
    match convert dty dnk sty snk (s.tab (ownTab e)) (rmOf (s.hart e).flg rm) ns 0 a.toNat with
    | none => .trap { code := 0x17, info := 1023 }
    | some r => fpFinish s d r.2 (extendElem dty r.1)

/-- R133. -/
def execCvt (g : Guard) (dty : Ty) (dnk : Nk) (sty : Ty) (snk : Nk) (rm : Rm) (ns : Bool) (d a : LSpec) (s : State) :
    Host.Outcome State Fault Refusal :=
  runLap (.cvt g dty dnk sty snk rm ns d a) s fun rd s => convertTo s d dty dnk sty snk rm ns (rd a)

/-- R134: decodes a code through the table. -/
def execCvtd (o : FAlu1) (s : State) : Host.Outcome State Fault Refusal :=
  runLap (.cvtd o) s fun rd s => convertTo s o.d o.ty .e4m3 .dt .e4m3 o.rm false (rd o.a)

/-- R134: encodes into the table; its type is the source's. -/
def execCvte (o : FAlu1) (ns : Bool) (s : State) : Host.Outcome State Fault Refusal :=
  runLap (.cvte o ns) s fun rd s =>
    if isOffcut o.ty (rd o.a) then .trap { code := 0x0C }
    else convertTo s o.d .dt .e4m3 o.ty .e4m3 o.rm ns (rd o.a)

/-- R135. -/
def execFrnd (o : FAlu1) (s : State) : Host.Outcome State Fault Refusal :=
  runLap (.frnd o) s fun rd s =>
    let a := rd o.a
    if isOffcut o.ty a then .trap { code := 0x0C }
    else
      let rm := rmOf (s.hart s.actor).flg o.rm
      let x := fRoundInt rm (fpVal o.ty a)
      fpFinish s o.d x.2 (BitVec.ofNat 64 (roundVal (tyFmt o.ty) rm false 0 x.1).1)

end Sys2Proof.Machine
end

