-- ==== Sys2Proof/Machine/HartEvents.lean ====
section
/-! DEFINITION. Work queues and the steps of the command stream harts (R6, R27 to R30, R214, R219, R306 to R311). -/

namespace Sys2Proof.Machine

/-! ### Queue registers and commands (R6, R306 to R308) -/

/-- R308. -/
def execQtailWrite (q : Nat) (v : W64) (s : State) : Host.Outcome State Fault Refusal :=
  .next (if q < 4096 then s.writeTail q v else s)

def execQueueEnable (q : Nat) (s : State) : Host.Outcome State Fault Refusal :=
  .next (if q < 4096 then s.leaveStage7.enableQueue q else s)

def execQueueStop (q : Nat) (s : State) : Host.Outcome State Fault Refusal :=
  .next (if q < 4096 then s.leaveStage7.stopQueue q else s)

def execQueueDestroy (q : Nat) (s : State) : Host.Outcome State Fault Refusal :=
  .next (if q < 4096 then s.leaveStage7.destroyQueue q else s)

def execQueueKill (q : Nat) (s : State) : Host.Outcome State Fault Refusal :=
  .next (if q < 4096 then s.leaveStage7.killQueue q else s)

def execQueueClear (q : Nat) (s : State) : Host.Outcome State Fault Refusal :=
  .next (if q < 4096 then s.leaveStage7.clearQueue q else s)

/-- R6, R231: an 8-byte-aligned supervisor write of an MMIO register. -/
def execRegisterWrite (addr v : W64) (s : State) : Host.Outcome State Fault Refusal :=
  .next <| match decodePlace (.hart 0) addr with
    | .ok (.mmio off) => if off % 8 = 0 then s.mmioSet off 1 v else s
    | _ => s

/-! ### Selection (R311) -/

/-- R311: the launches that hold rinks of a packet, in the order in which they are pre-empted: lowest priority first, newest
first among equals. -/
def State.holders (s : State) (d : Nat) (rinks : List Nat) : List Launch :=
  sortBy (fun a b => decide (a.prio < b.prio) || (a.prio == b.prio && decide (a.count ≥ b.count)))
    (s.launches.filter fun l => l.die = d ∧ l.saved.isNone ∧ l.rinks.any rinks.contains)

/-- R311: whether the rinks of a packet are free, or held only by launches of priority below it. -/
def State.canHave (s : State) (d prio : Nat) (rinks : List Nat) : Bool := (s.holders d rinks).all fun l => decide (l.prio < prio)

/-- R311: the rinks that waiting launch packets of higher priority take as soon as they are free: a packet that some launch of its own
priority or a higher one keeps waiting holds back its own queue only. -/
def State.claimed (s : State) (d prio : Nat) : List Nat :=
  (s.queueOrder d).flatMap fun q =>
    match (s.headPkt q).1 with
    | .ready p => if pktOp p = 1 ∧ (s.hq q).prio > prio ∧ s.canHave d (s.hq q).prio (pktRinks p) then pktRinks p else []
    | _ => []

/-- R311, R26: the rinks a saved launch is restored on now. -/
def State.restoresOn (s : State) (l : Launch) : Option (List Nat) :=
  if l.saved.isSome && !l.killed then s.restoreRinks l (s.claimed l.die l.prio) else none

/-- R311: whether a packet of a priority leaves its rinks to a saved launch, which goes ahead of it. -/
def State.givesWay (s : State) (d prio : Nat) (rinks : List Nat) : Bool :=
  s.launches.any fun l => l.die = d && decide (prio ≤ l.prio) && (match s.restoresOn l with
    | some rk => rk.any rinks.contains
    | none => false)

/-- R311: pre-emption of the holders of a packet's rinks goes on, when all have priority below the packet's. -/
def State.preemptFor (s : State) (d prio : Nat) (rinks : List Nat) : State :=
  if s.canHave d prio rinks then
    match s.holders d rinks with
    | l :: _ => if l.stopping || l.killed then s else s.saveLaunch l
    | [] => s
  else s

/-- R309, R311: the hart looks at the head of one queue: true when it has taken the packet. -/
def State.tryQueue (s : State) (d q : Nat) : Bool × State :=
  let s := s.settleHead q
  let x := s.hq q
  match s.headPkt q with
  | (.ready p, s) =>
    match pktOp p with
    | 0 => (true, (s.consume q).complete d x.pasid x.vec p 0 0)
    | 2 => (true, s.setHq q { s.hq q with head := x.head + 1, barrier := some p })
    | _ =>
      if s.givesWay d x.prio (pktRinks p) then (false, s)
      else if (pktRinks p).all (s.rinkFree d) then
        let s' := s.startLaunch q p
        (decide ((s'.hq q).head ≠ x.head), s')
      else (false, s.preemptFor d x.prio (pktRinks p))
  | (_, s) => (false, s)

/-- R311: the first queue in order whose packet is taken. -/
def State.serve (s : State) (d : Nat) : List Nat → State
  | [] => s
  | q :: t =>
    match s.tryQueue d q with
    | (true, s) => s.setDie d { s.die d with lastq := q }
    | (false, s) => s.serve d t

/-- R27, R310, R311: LAUNCH_START: the hart tries the records that wait again, and takes one packet. -/
def execLaunchStart (die : Nat) (s : State) : Host.Outcome State Fault Refusal :=
  let s := s.payOwed die
  .next (s.serve die (s.queueOrder die))

/-- R310: DEPENDENCE_CHECK: the heads of a die's queues are looked at again. -/
def execDependenceCheck (die : Nat) (s : State) : Host.Outcome State Fault Refusal :=
  .next ((s.queueOrder die).foldl (fun (s : State) q => s.settleHead q) s)

/-- R309: BARRIER_COMPLETION: a consumed barrier completes once every earlier launch of its queue has. -/
def execBarrierCompletion (q : Nat) (s : State) : Host.Outcome State Fault Refusal :=
  let x := s.hq q
  .next <| match x.barrier with
    | some p =>
      if s.launches.any fun l => l.queue = q then s
      else (s.setHq q { x with barrier := none }).complete x.die x.pasid x.vec p 0 0
    | none => s

/-! ### Launches -/

/-- The launch of a die with a generation. -/
def State.launchOf (s : State) (d gen : Nat) : Option Launch := s.launches.find? fun l => l.die = d ∧ l.count % 256 = gen

/-- R30: LAUNCH_FINISH. -/
def execLaunchFinish (die gen : Nat) (s : State) : Host.Outcome State Fault Refusal :=
  .next <| match s.launchOf die gen with
    | some l => s.finishLaunch l
    | none => s

/-- R214: PREEMPTION of a launch, as far as it can go now. -/
def execPreemption (die gen : Nat) (s : State) : Host.Outcome State Fault Refusal :=
  .next <| match s.launchOf die gen with
    | some l => s.saveLaunch l
    | none => s

/-- R219, R220, R230, R311, R370: RESTORE of a saved launch; the traffic kept for it is executed before its entities resume. -/
def execRestore (die gen : Nat) (s : State) : Host.Outcome State Fault Refusal :=
  .next <| match s.launchOf die gen with
    | some l =>
      match s.restoresOn l with
      | some rk =>
        let s := s.restoreLaunch l rk
        if s.launches.any fun m => m.die = l.die && m.count = l.count && m.saved.isNone then l.kept.foldl State.runKept s else s
      | none => s
    | none => s

end Sys2Proof.Machine
end

