-- ==== Sys2Proof/Machine/Order.lean ====
section
/-! DEFINITION. FENCE and DRAIN (R290, R291, R301 to R303). -/

namespace Sys2Proof.Machine

/-- R302: the release part, then the acquire part. -/
def execFence (g : Guard) (sc : Scope) (rel acq : Bool) (s : State) : Host.Outcome State Fault Refusal :=
  runLap (.fence g sc rel acq) s fun _ s =>
    let i := Instr.fence g sc rel acq
    let e := s.actor
    if rel && s.needsRelease e sc then .release sc
    else
      let s := if rel then s.reportPwf e sc (insnWord i) else s
      if acq && Scope.wide sc then leaveWith i s none (some sc) .plain (some (s.clk + 24)) (some (.ok 0)) else .done s

/-- R303: the clusters a scope reaches. -/
def drainKids (e : Ent) (sc : Scope) : List Nat :=
  match scopeCode sc with
  | 3 => (List.range 128).map fun j => entDie e * 128 + j
  | 4 | 5 => List.range 512
  | _ => (entKid e).toList

/-- R303: drains the lines a cluster's cache holds sums of, in a range of DPAs. -/
def State.drainLines (s : State) (who : Ent) (k : Nat) (p : Nat → Bool) : State :=
  ((s.cluster k).cch.filter fun l => l.allow.isSome && !l.sums.isEmpty && p l.dpa).foldl (fun (s : State) l =>
    s.sendDrain who k l true) s

/-- R303: the issuer waits until every sum it has drained is folded. -/
def execDrain (g : Guard) (sc : Scope) (reg : Option LSpec) (s : State) : Host.Outcome State Fault Refusal :=
  runLap (.drain g sc reg) s fun rd s =>
    let e := s.actor
    let go (p : Nat → Bool) : Act :=
      let s := ((drainKids e sc).filter fun k => mhas s.clusters k).foldl (fun (s : State) k => s.drainLines e k p) s
      leaveWith (.drain g sc reg) s none none .drainFence none none
    match reg with
    | none => go fun _ => true
    | some r =>
      if (rd r).toNat > 63 then .trap { code := 0x17, info := (rd r).setWidth 10 }
      else match mfind (s.die (entDie e)).regions (rd r).toNat with
        | none => go fun _ => false
        | some w => let x := readRegion w; go fun a => decide (x.base ≤ a) && decide (a < x.base + x.bytes)

end Sys2Proof.Machine
end

