-- ==== Sys2Proof/Machine/Outside.lean ====
section
/-! DEFINITION. Where the part meets the outside: host accesses, BARs, MSI-X, Creurn links, the far tier, attestation, boot,
power and the debug port (R212, R386 to R403). -/

namespace Sys2Proof.Machine

/-! ### The host (R387 to R389) -/

/-- Codes of notices that leave the part. -/
def noticeUnsupported : Nat := 1
def noticeLost : Nat := 2
def noticeReset : Nat := 3

/-- R314: how a log entry names the host, for which the rule has no code (log 83). -/
def hostWho : LogWho := { kid := 0, core := 0, slot := 0 }

/-- The part of the host's view of device memory: n bytes of one line, inside HBM. -/
def hostRange (a n : Nat) : Bool := decide (1 ≤ n) && decide (a / 64 = (a + n - 1) / 64) && decide (a + n ≤ Config.hbmEnd)

/-- R298, R388: HOST_READ: a tolerant load with tolerance 0, answered in words of up to 8 bytes; the host then holds the line. -/
def execHostRead (addr bytes : Nat) (s : State) : Host.Outcome State Fault Refusal :=
  .next <|
    if hostRange addr bytes then
      let s := s.forceAll (lineOf addr)
      if s.lost addr bytes then
        let s := s.logLost (homeDie addr) hostWho (BitVec.ofNat 64 addr)
        { s with outbox := s.outbox ++ [.notice noticeLost addr] }
      else
        let s := (List.range ((bytes + 7) / 8)).foldl (fun (s : State) j =>
          let r := s.homeRead none (addr + 8 * j) (min 8 (bytes - 8 * j))
          { r.2 with outbox := r.2.outbox ++ [.hostData (addr + 8 * j) (BitVec.ofNat 64 r.1)] }) s
        { s with hostHeld := setAdd s.hostHeld (lineOf addr) }
    else s

/-- R289, R299, R388: HOST_WRITE of bytes of one line: it forces drains and ends registrations; cluster caches keep their leases. -/
def execHostWrite (addr bytes : Nat) (v : BitVec 512) (s : State) : Host.Outcome State Fault Refusal :=
  .next <|
    if hostRange addr bytes then
      let s := s.forceAll (lineOf addr)
      let bs := bytesOf addr bytes v.toNat
      (s.endRegs none addr (bs.map (·.1))).putHome hostWho addr bs
    else s

/-- R231, R387: an access to BAR0. -/
def execBarAccess (write : Bool) (off bytes : Nat) (v : W64) (s : State) : Host.Outcome State Fault Refusal :=
  .next <|
    if bytes = 8 ∧ off % 8 = 0 ∧ off < 2 ^ 27 then
      let at_ := 4 * 2 ^ 33 + off
      if write then s.mmioSet at_ 1 v else { s with outbox := s.outbox ++ [.barData off (s.mmioGet at_)] }
    else { s with outbox := s.outbox ++ [.notice noticeUnsupported off] }

/-- R387: an entry of the MSI-X table: address, data and vector control, whose bit 0 masks the vector. -/
def State.msixEntry (s : State) (n : Nat) : BitVec 128 :=
  let t := mget s.msixTab (0, 0) n
  (if s.msixOpen.contains n then 0#32 else 1#32) ++ t.2 ++ t.1

/-- Bytes of a word replaced, from a byte on. -/
def setBytes (w : BitVec 128) (at_ bytes : Nat) (v : W64) : BitVec 128 :=
  let m : BitVec 128 := BitVec.ofNat 128 (2 ^ (8 * bytes) - 1) <<< (8 * at_)
  (w &&& ~~~m) ||| ((v.setWidth 128 <<< (8 * at_)) &&& m)

/-- R387, R397: an entry of the MSI-X table is written; a vector that is pending is sent when it is unmasked. -/
def State.setMsixEntry (s : State) (n : Nat) (w : BitVec 128) : State :=
  let s := { s with msixTab := mput s.msixTab n (w.extractLsb' 0 64, w.extractLsb' 64 32) }
  if w.getLsbD 96 then { s with msixOpen := setDel s.msixOpen n }
  else
    let s := { s with msixOpen := setAdd s.msixOpen n }
    if s.msixPend.contains n then { s with msixPend := setDel s.msixPend n }.msi n else s

/-- R387: what BAR2 holds from an offset on: the MSI-X table, then at 0x8000 the pending-bit array; nothing else. -/
def State.bar2Read (s : State) (off bytes : Nat) : W64 :=
  if off < 0x8000 then ((s.msixEntry (off / 16)).extractLsb' (8 * (off % 16)) (8 * bytes)).setWidth 64
  else if off < 0x8100 then
    BitVec.ofNat 64 (((List.range (8 * bytes)).filter fun j => s.msixPend.contains (8 * (off - 0x8000) + j)).foldl (fun a j => a + 2 ^ j) 0)
  else 0

/-- R387, R397: MSIX_TABLE_ACCESS: a read or write of 4 or 8 aligned bytes of BAR2 (log 20); the pending bits are not written. -/
def execMsixTableAccess (a : Bar2Span) (write : Option W64) (s : State) : Host.Outcome State Fault Refusal :=
  .next <|
    if (a.bytes = 4 ∨ a.bytes = 8) ∧ a.off % a.bytes = 0 ∧ a.off < 2 ^ 16 then
      match write with
      | some v =>
        if a.off < 0x8000 then s.setMsixEntry (a.off / 16) (setBytes (s.msixEntry (a.off / 16)) (a.off % 16) a.bytes v) else s
      | none => { s with outbox := s.outbox ++ [.bar2Data a.off (s.bar2Read a.off a.bytes)] }
    else { s with outbox := s.outbox ++ [.notice noticeUnsupported a.off] }

/-! ### Creurn links (R393 to R395) -/

def State.setPort (s : State) (n : Nat) (p : Port) : State := { s with ports := mput s.ports n p }

/-- R393: the port that leads to a node. -/
def State.portOf (s : State) (node : Nat) : Nat := (mget s.routes 0 node).toNat % 16

/-- Whether a node lies behind a port. -/
def State.behindPort (s : State) (port node : Nat) : Bool := s.routeOk node && decide (s.portOf node = port)

/-- The node a request of this part goes to. -/
def Req.node (r : Req) : Nat := r.addr.toNat / 2 ^ 31 % 2 ^ 8

/-- A counter in bits of a port's status, one up, saturating at 65,535. -/
def bumpField (w : W64) (lo : Nat) : W64 :=
  let n := w.toNat / 2 ^ lo % 2 ^ 16
  if n = 65535 then w else w + BitVec.ofNat 64 (2 ^ lo)

/-- R395 step 1: a call waiting for a reply from behind a port ends with 0x15. -/
def State.endCalls (s : State) (port : Nat) : State :=
  { s with harts := s.harts.map fun (x : Ent × Hart) =>
    match x.2.pend with
    | some p =>
      match p.act with
      | .replySlot n =>
        if s.behindPort port n ∧ n ≠ s.node ∧ p.ans.isNone then
          (x.1, { x.2 with rot := .out, wait := .none, slot := none, pend := some { p with ans := some (.err 0x15 0) } })
        else x
      | _ => x
    | none => x }

/-- R294, R395, R396: a peer reset, all in one step. -/
def State.peerReset (s : State) (port : Nat) : State :=
  let mine := s.reqs.filter fun r => r.2.phase == .link && s.behindPort port r.2.node
  let s := mine.foldl (fun (s : State) (r : Nat × Req) =>
    let s := s.dropReq r.1
    if r.2.posted then s.postFailed r.2.who r.2.addr else s.answer r.2 (.err 0x15 r.2.addr)) s
  let s := s.endCalls port
  let s := { s with reqs := s.reqs.filter fun r => !(match r.2.who with | .far n => s.behindPort port n | _ => false) }
  let s := ([0, 1, 2, 3] : List Nat).foldl (fun (s : State) d => s.logErr d 0x0B 0x15 0 0 0 0 0) s
  let p := s.port port
  (s.setPort port { p with up := false, status := bumpField p.status 32, fails := 0 }).event

/-- R393, R395: a flit is retried; the eighth retry in a row declares a peer reset. -/
def execFlitRetry (port : Nat) (s : State) : Host.Outcome State Fault Refusal :=
  .next <|
    if port < 12 then
      let p := s.port port
      let s := s.setPort port { p with status := bumpField p.status 16, fails := p.fails + 1, flitAt := s.pt }
      if p.fails + 1 ≥ 8 then s.peerReset port else s
    else s

/-- R395: no flit has arrived for 10,000 pt. -/
def execLinkSilenceTimeout (port : Nat) (s : State) : Host.Outcome State Fault Refusal :=
  .next (if port < 12 ∧ (s.port port).flitAt + 10000 ≤ s.pt then s.peerReset port else s)

/-- R395: the peer's reset notice. -/
def execResetNotice (port : Nat) (s : State) : Host.Outcome State Fault Refusal :=
  .next (if port < 12 then s.peerReset port else s)

/-- R394: a link has trained. -/
def execLinkTraining (port peer : Nat) (s : State) : Host.Outcome State Fault Refusal :=
  .next (if port < 12 then s.setPort port { s.port port with up := true, peer := peer % 256, fails := 0, flitAt := s.pt } else s)

/-- A good flit has come from a node: the retries in a row end. -/
def State.goodFlit (s : State) (node : Nat) : State :=
  let n := s.portOf node
  if s.routeOk node then s.setPort n { s.port n with fails := 0, flitAt := s.pt } else s

/-- R394: an inbound access is refused: it is logged, and the sender is told. -/
def State.refuseInbound (s : State) (node : Nat) (addr : W64) (code : Nat) : State :=
  let k := addr.toNat / 2 ^ 22 % 2 ^ 9
  let s := s.logErr (k / 128) 0x0E code k 0 0 addr 0
  { s with outbox := s.outbox ++ [.linkAnswer node addr code] }

/-- R394: the fault code of an inbound access of n bytes by its address. -/
def State.inboundCheck (s : State) (addr : W64) (n : Nat) : Option Nat :=
  let off := addr.toNat % 2 ^ 22
  if addr.extractLsb' 60 4 ≠ 0xA#4 ∨ addr.toNat / 2 ^ 31 % 2 ^ 8 ≠ s.node then some 0x05
  else if addr.extractLsb' 39 21 ≠ 0#21 ∨ off + n > 2 ^ 22 then some 0x08
  else if !([1, 2, 4, 8].contains n) ∨ off % n ≠ 0 then some 0x04
  else none

/-- R229, R230, R394: an inbound access that passes goes on to its scratchpad controller. -/
def State.inboundAccess (s : State) (node pasid : Nat) (addr : W64) (n : Nat) (op : AccOp) : State :=
  match s.inboundCheck addr n with
  | some c => s.refuseInbound node addr c
  | none =>
    s.addReq { who := .far node, pasid := some pasid, level := 0, addr := addr, op := op, phase := .fabric, due := s.clk,
               posted := false, dpa := 0, kid := addr.toNat / 2 ^ 22 % 2 ^ 9, dest := 0 }

/-- The integer type of a store of n bytes. -/
def storeTy (n : Nat) : Ty :=
  match n with
  | 1 => .n8
  | 2 => .n16
  | 4 => .n32
  | _ => .b64

/-- R320, R321: an inbound message or reply goes on to the cluster it names. -/
def State.inboundMsg (s : State) (node pasid kid : Nat) (dest : W64) (op : AccOp) (ph : Phase) : State :=
  s.addReq { who := .far node, pasid := some pasid, level := 0, addr := dest, op := op, phase := ph, due := s.clk, posted := false,
             dpa := 0, kid := kid, dest := dest }

/-- R229, R241, R394: another node answers a write or update of this part. -/
def State.linkAnswered (s : State) (req code : Nat) : State :=
  match mfind s.reqs req with
  | some r =>
    if r.phase = .link then
      ((s.goodFlit r.node).dropReq req).answer r (if code = 0 then .ok 0 else .err code r.addr)
    else s
  | none => s

/-- R394: INBOUND_CREURN_ACCESS. -/
def execInboundCreurnAccess (x : Inbound) (s : State) : Host.Outcome State Fault Refusal :=
  .next <| match x with
    | .write node pasid addr n v => (s.goodFlit node).inboundAccess node pasid addr n (.store (storeTy n) false v)
    | .nibble node pasid addr hi v => (s.goodFlit node).inboundAccess node pasid addr 1 (.store .i4 hi v)
    | .addm node pasid addr ty v => (s.goodFlit node).inboundAccess node pasid addr (alignOf ty) (.addm ty v)
    | .amo node pasid addr op ty v => (s.goodFlit node).inboundAccess node pasid addr (alignOf ty) (.amo op ty v)
    | .message pasid dest header payload =>
      let node := header.toNat / 2 ^ 19 % 2 ^ 8
      let s := s.goodFlit node
      if dest.toNat / 2 ^ 22 ≠ 0 ∨ destNode dest ≠ s.node then s.refuseInbound node dest 0x05
      else
        let ctr := if header.getLsbD 52 then some (header.toNat / 2 ^ 48 % 16) else none
        s.inboundMsg node pasid (destKid dest) dest (.msg (header :: payload) ctr) .message
    | .reply node pasid dest tag v =>
      let s := s.goodFlit node
      -- R320, R394: a call header names the caller's node
      if dest.toNat / 2 ^ 19 % 2 ^ 8 ≠ s.node then s.refuseInbound node dest 0x05
      else s.inboundMsg node pasid (dest.toNat / 2 ^ 10 % 2 ^ 9) dest (.reply tag v) .replying
    | .answer req code => s.linkAnswered req code

/-! ### The far tier (R392) -/

/-- R314, R392: the modified L2 lines of a downstream port's range are dropped, each with an entry in its die's log. -/
def State.dropFar (s : State) (port d : Nat) : State :=
  let gone := ((s.die d).l2.filter fun l => l.2 && s.farPort l.1 == some port).map (·.1)
  let s := s.setDie d { s.die d with l2 := (s.die d).l2.filter fun l => !(gone.contains l.1) }
  gone.foldl (fun (s : State) a => s.logBy d 0x06 0x13 hostWho (BitVec.ofNat 64 a) 0) s

/-- R392, R397: a downstream link fails. -/
def execFarLinkFailure (port : Nat) (s : State) : Host.Outcome State Fault Refusal :=
  .next <|
    if port < 2 then
      let w := mget s.fars 0 port
      let s := ([0, 1, 2, 3] : List Nat).foldl (fun (s : State) d => s.dropFar port d) s
      ({ s with fars := mput s.fars port ((w &&& ~~~(1#64 <<< 12)) ||| (1#64 <<< 13)) }).event
    else s

/-! ### Attestation (R398, R399) -/

/-- Response codes of the security engine (log 11). -/
def spdmError : Nat := 0x7F

def State.spdmAnswer (s : State) (code : Nat) (ws : List W64) : State := { s with outbox := s.outbox ++ [.spdm code ws] }

/-- The n words of an item. -/
def secretWords (item n : Nat) : List W64 := (List.range n).map (Config.secret item)

/-- R398: the digest of a firmware image, by index and version. -/
def State.digest (s : State) (index : Nat) : List W64 := secretWords (16 + index + 65536 * mget s.fwVersion 0 index) 4

/-- A signature, new for each request. -/
def State.signed (s : State) (code : Nat) (ws : List W64) : State :=
  { s with fresh := s.fresh + 1 }.spdmAnswer code (ws ++ secretWords (2 ^ 32 + s.fresh) 8)

def execGetVersion (s : State) : Host.Outcome State Fault Refusal := .next (s.spdmAnswer 0x04 [0x13])

def execGetCapabilities (s : State) : Host.Outcome State Fault Refusal := .next (s.spdmAnswer 0x61 [])

/-- R398: only SM2 and SM3 are negotiated; a requester that offers neither gets ERROR. -/
def execNegotiateAlgorithms (sm2 sm3 : Bool) (s : State) : Host.Outcome State Fault Refusal :=
  .next <|
    if sm2 || sm3 then
      { s with spdmAlgs := some (sm2, sm3) }.spdmAnswer 0x63 [BitVec.ofNat 64 ((if sm2 then 1 else 0) + (if sm3 then 2 else 0))]
    else s.spdmAnswer spdmError []

def execGetDigests (s : State) : Host.Outcome State Fault Refusal := .next (s.spdmAnswer 0x01 (secretWords 1 4))

/-- R398: slot 0 holds the chain. -/
def execGetCertificate (slot : Nat) (s : State) : Host.Outcome State Fault Refusal :=
  .next (if slot = 0 then s.spdmAnswer 0x02 (secretWords 0 64) else s.spdmAnswer spdmError [])

def execChallenge (slot : Nat) (nonce : W64) (s : State) : Host.Outcome State Fault Refusal :=
  .next (if slot = 0 then s.signed 0x03 [nonce] else s.spdmAnswer spdmError [])

def execGetMeasurements (index : Nat) (s : State) : Host.Outcome State Fault Refusal :=
  .next (if 1 ≤ index ∧ index ≤ 5 then s.signed 0x60 (s.digest index) else s.spdmAnswer spdmError [])

/-- R398: ERROR UnsupportedRequest. -/
def execSpdmSessionRequest (s : State) : Host.Outcome State Fault Refusal := .next (s.spdmAnswer spdmError [0x07])

/-- R399: an image waits for the next package reset, beside other images that do. -/
def execFirmwareUpdate (index version : Nat) (s : State) : Host.Outcome State Fault Refusal :=
  .next (if 1 ≤ index ∧ index ≤ 5 then { s with fwPending := mput s.fwPending index version } else s)

/-! ### Boot, power and cooling (R401 to R403) -/

/-- R381, R399, R401: the machine after a package reset; what the outside will still do, and firmware images, stay. -/
def State.restart (s : State) (trip : Bool) : State :=
  { State.reset with
    inputs := s.inputs, upsets := s.upsets, fresh := s.fresh, thermal := trip, haltOnBreak := s.haltOnBreak
    outbox := s.outbox ++ [.notice noticeReset 0]
    fwVersion := s.fwPending.foldl (fun m x => mput m x.1 x.2) s.fwVersion }

/-- R401: PACKAGE_RESET; the record of an earlier trip is cleared. -/
def execPackageReset (s : State) : Host.Outcome State Fault Refusal := .next (s.restart false)

/-- R403: THERMAL_TRIP. -/
def execThermalTrip (s : State) : Host.Outcome State Fault Refusal := .next (s.restart true)

/-- R399: whether every firmware image passes its check. -/
def State.imagesOk (s : State) : Bool := [1, 2, 3, 4, 5].all fun i => Config.imageOk i (mget s.fwVersion 0 i)

/-- R391, R392: what boot writes of a downstream port: the capacity it maps, and that the link of a device has trained, unless it has failed
since; gib is the capacity of the device, of which a part may lie beyond what is mapped. -/
def farWord (was : W64) (gib mapped : Nat) : W64 :=
  if was.getLsbD 13 then BitVec.ofNat 64 (mapped + 2 ^ 13) else if gib = 0 then 0 else BitVec.ofNat 64 (mapped + 2 ^ 12)

/-- R229, R235, R391, R393: the fabric is configured. -/
def State.configure (s : State) : State :=
  let c0 := min (Config.farGiB 0) 2048
  let c1 := min (Config.farGiB 1) (2048 - c0)
  { s with
    node := Config.bootNode % 256
    routes := (List.range 256).map fun n => (n, BitVec.ofNat 64 (Config.bootRoute n % 32))
    fars := [(0, farWord (mget s.fars 0 0) (Config.farGiB 0) c0), (1, farWord (mget s.fars 0 1) (Config.farGiB 1) c1)]
    pasidBase := Config.bootPasidBase &&& 0x000FFFFFFFFFF000 }

/-- R399, R401, R403: BOOT_STAGE. -/
def execBootStage (s : State) : Host.Outcome State Fault Refusal :=
  .next <| match s.bootStage with
    | 0 => { s with bootStage := 1 }
    | 1 => { s with bootStage := if s.imagesOk then 2 else 6 }
    | 2 => { s with bootStage := 3 }
    | 3 => { s.configure with bootStage := 4 }
    | 4 => { s with bootStage := if s.thermal then 7 else 5 }
    | _ => s

/-- R402: the end of a power window. -/
def execPowerWindow (watts temp : Nat) (s : State) : Host.Outcome State Fault Refusal :=
  .next <|
    if watts > s.powerCap ∨ temp > 95 then
      if s.mhz > 1000 then { s with mhz := max 1000 (s.mhz - 100), thr := min 65535 (s.thr + 1) } else s
    else if watts * 100 ≤ s.powerCap * 95 ∧ temp < 90 then { s with mhz := min 2000 (s.mhz + 100) }
    else s

/-- R397: the temperature reaches 95 degrees. -/
def execTemperature95c (s : State) : Host.Outcome State Fault Refusal := .next s.event

/-! ### The debug port (R212) -/

/-- R212: halt-on-break is armed or disarmed; a hart stopped for the debugger goes on after its BKPT. -/
def execHaltOnBreakArm (arm : Bool) (restart : Option Ent) (s : State) : Host.Outcome State Fault Refusal :=
  let s := { s with haltOnBreak := arm }
  .next <| match restart with
    | some e =>
      let h := s.hart e
      if h.rot = .debug then s.setHart e { h with rot := .ready, pc := h.pc + 8 } else s
    | none => s

end Sys2Proof.Machine
end

