-- ==== Sys2Proof/Machine/Predicate.lean ====
section
/-! DEFINITION. The predicate instructions of the lap set (R106, R120 to R123). -/

namespace Sys2Proof.Machine

/-- Writes a predicate. -/
def setPred (s : State) (p : Fin 7) (v : Bool) : Act := doneWith s (.p p) (if v then 1 else 0)

/-- R121: an integer relation. -/
def intRel (rel : Rel) (a b : Int) : Bool :=
  match rel with
  | .eq => a == b
  | .ne => a != b
  | .lt => decide (a < b)
  | .le => decide (a ≤ b)
  | .gt => decide (a > b)
  | .ge => decide (a ≥ b)
  | .unordered => false
  | .ordered => true

/-- R121: signed for an i kind, unsigned for an n kind. -/
def execCmp (g : Guard) (ty : Ty) (rel : Rel) (p : Fin 7) (a : LSpec) (b : BSrc) (s : State) :
    Host.Outcome State Fault Refusal :=
  runLap (.cmp g ty rel p a b) s fun rd s =>
    setPred s p (intRel rel (intVal ty (rd a).toNat) (intVal ty (bValue rd ty b).toNat))

/-- R122: bit 2 pa + pb of the truth table. -/
def execPlog (g : Guard) (p pa pb : Fin 7) (tt : BitVec 4) (s : State) : Host.Outcome State Fault Refusal :=
  runLap (.plog g p pa pb tt) s fun rd s =>
    setPred s p (tt.getLsbD ((if rd (.p pa) ≠ 0 then 2 else 0) + (if rd (.p pb) ≠ 0 then 1 else 0)))

/-- R123: a predicate is written with whether A is nonzero, a value with the predicate. -/
def execPmov (g : Guard) (d a : LSpec) (s : State) : Host.Outcome State Fault Refusal :=
  runLap (.pmov g d a) s fun rd s => doneWith s d (if rd a ≠ 0 then 1 else 0)

/-- R120. -/
def execSel (g : Guard) (d a : LSpec) (b : BSrc) (p : Fin 7) (s : State) : Host.Outcome State Fault Refusal :=
  runLap (.sel g d a b p) s fun rd s =>
    doneWith s d (if (s.hart s.actor).p[p] then rd a else bValue rd .b64 b)

end Sys2Proof.Machine
end

