-- ==== Sys2Proof/Machine/System.lean ====
section
/-! DEFINITION. The system instructions (R198, R199, R211 to R213). -/

namespace Sys2Proof.Machine

/-- R212, R201: the cause's imm names the instruction. -/
def execTrap (g : Guard) (imm : BitVec 8) (s : State) : Host.Outcome State Fault Refusal :=
  runLap (.trap g imm) s fun _ _ => .trap { code := 0x1D, imm := imm }

/-- R212, R205: always delegated. -/
def execScall (g : Guard) (imm : BitVec 8) (s : State) : Host.Outcome State Fault Refusal :=
  runLap (.scall g imm) s fun _ _ => .trap { code := 0x1D, imm := imm, scall := true }

/-- R212: a breakpoint, or a stop for the debugger when halt-on-break is armed. -/
def execBkpt (g : Guard) (imm : BitVec 8) (s : State) : Host.Outcome State Fault Refusal :=
  runLap (.bkpt g imm) s fun _ s =>
    if s.haltOnBreak then
      let h := s.hart s.actor
      .stay (s.setHart s.actor { Hart.settled h with rot := .debug })
    else .trap { code := 0x1C, imm := imm }

/-- R212, R73: a TEPC that is no multiple of 8 raises 0x04 with hnd still 1. -/
def execHret (g : Guard) (s : State) : Host.Outcome State Fault Refusal :=
  runLap (.hret g) s fun _ s =>
    let epc := (s.hart s.actor).tr.epc
    if epc.extractLsb' 0 3 = 0#3 then .goto (s.returnTrap s.actor) epc else .trap { code := 0x04, addr := epc }

/-- R198, R212. -/
def execSrrd (g : Guard) (d : LSpec) (num : BitVec 12) (s : State) : Host.Outcome State Fault Refusal :=
  runLap (.srrd g d num) s fun _ s => doneWith s d (s.sysReg s.actor num.toNat)

/-- R198, R212. -/
def execSrwr (g : Guard) (a : LSpec) (num : BitVec 12) (s : State) : Host.Outcome State Fault Refusal :=
  runLap (.srwr g a num) s fun rd s => .done (s.setSysReg s.actor num.toNat (rd a))

/-- R212. -/
def execFlgrd (g : Guard) (d : LSpec) (s : State) : Host.Outcome State Fault Refusal :=
  runLap (.flgrd g d) s fun _ s => doneWith s d (s.hart s.actor).flg

/-- R212: clears the sticky flags of a mask. -/
def execFlgclr (g : Guard) (m : BitVec 5) (s : State) : Host.Outcome State Fault Refusal :=
  runLap (.flgclr g m) s fun _ s =>
    let h := s.hart s.actor
    .done (s.setHart s.actor { h with flg := h.flg &&& ~~~(m.setWidth 64) })

/-- R213: MUMODE is written after its waits, by a step of its own; CTXCTL.wchk at once. -/
def execModeset (g : Guard) (a : LSpec) (num : BitVec 12) (s : State) : Host.Outcome State Fault Refusal :=
  runLap (.modeset g a num) s fun rd s =>
    match entKid s.actor with
    | none => .trap { code := 0x01 }
    | some k =>
      let v := rd a
      if num.toNat = 0x203 then
        leaveWith (.modeset g a num) s none none (.mumode (v.toNat % 4) false) none none
      else
        let n := ctxNum num.toNat
        let t := s.ctx k n.1 n.2
        .done (s.setCtx k n.1 n.2 { t with wchk := v.getLsbD 0 })

end Sys2Proof.Machine
end

