-- ==== Sys2Proof/Machine/TileOps.lean ====
section
/-! DEFINITION. The tile instructions of the lap set (R256 to R276). -/

namespace Sys2Proof.Machine

/-- R272: the fields of a TOPEN descriptor. -/
structure TileDesc where
  xrows : Nat
  xper : Nat
  timer : Nat
  dest : Nat
  zero : Bool
deriving DecidableEq, Repr

def tileDesc (b : W64) : TileDesc :=
  { xrows := b.toNat % 2 ^ 7, xper := b.toNat / 2 ^ 7 % 2 ^ 10, timer := b.toNat / 2 ^ 17 % 2 ^ 20,
    dest := b.toNat / 2 ^ 37 % 8, zero := decide (b.toNat / 2 ^ 40 = 0) }

/-- R272: whether a descriptor is legal for a row size. -/
def TileDesc.ok (x : TileDesc) (rb : Nat) : Bool :=
  x.zero && decide (x.xrows ≤ 64) && decide (x.xper ≤ 512) && decide (x.xper ≤ rb) && (x.xrows != 0 || x.xper == 0)

/-- R272, R337: whether a footprint is free: it meets no live buffer and no kick word. -/
def State.footprintFree (s : State) (k off n : Nat) : Bool :=
  ((s.cluster k).tiles.all fun t => !t.2.live || decide (t.2.base + t.2.size ≤ off) || decide (off + n ≤ t.2.base))
    && !(decide (off < reKick + 8) && decide (ceKick < off + n))

/-- R272: the lowest free index. -/
def State.freeIndex (s : State) (k : Nat) : Option Nat := (List.range 256).find? fun i => !(s.tile k i).live

/-- R272: opens a buffer at an index. -/
def State.openTile (s : State) (k i off : Nat) (ty : Ty) (nk : Nk) (wide : Bool) (x : TileDesc) : State :=
  let old := s.tile k i
  let rb := rowBytes ty nk wide
  let per := if x.xper = 0 then rb else x.xper
  let t : Tile := { Tile.zero with
    base := off, state := 1, gen := if old.gen = 255 then 1 else old.gen + 1, dest := x.dest, ty := ty, nk := nk, wide := wide
    xrows := x.xrows, xper := x.xper, expn := 2 * x.xrows * per, timer := x.timer, opnpt := s.pt, due := s.pt + x.timer }
  let n := 512 + 64 * rb
  let a := cspBase k + off
  let s := { s with full := s.full.filter fun w => !(a ≤ w && w < a + n) }.clear a n
  s.putTile k i t

/-- R271, R272: an address outside the own scratchpad's space is 0x05 whatever its other bits. The handle lands 16 + footprint / 512 clk after issue. -/
def execTopen (g : Guard) (ty : Ty) (nk : Nk) (wide : Bool) (d a b : LSpec) (s : State) : Host.Outcome State Fault Refusal :=
  runLap (.topen g ty nk wide d a b) s fun rd s =>
    let ea := rd a
    let x := tileDesc (rd b)
    let rb := rowBytes ty nk wide
    let n := 512 + 64 * rb
    match decodePlace s.actor ea with
    | .ok (.csp k off) =>
      if off + n > 2 ^ 22 then .trap { code := 0x08, addr := ea }
      else if off % 512 ≠ 0 then .trap { code := 0x04, addr := ea }
      else if !(x.ok rb) then .trap { code := 0x0A, addr := ea }
      else if !(s.footprintFree k off n) then .trap { code := 0x0A, addr := ea }
      else match s.freeIndex k with
        | none => .trap { code := 0x0A, addr := ea }
        | some i =>
          let s := s.openTile k i off ty nk wide x
          let v := BitVec.ofNat 64 (tileHandle i (s.tile k i))
          leaveWith (.topen g ty nk wide d a b) s (some d) none .plain (some (s.clk + 16 + (n + 511) / 512)) (some (.ok v))
    | .error c => .trap { code := if ea.extractLsb' 60 4 = 9#4 then c else 0x05, addr := ea }
    | .ok _ => .trap { code := 0x05, addr := ea }

/-- R256, R271: a tile instruction of a hart with a scratchpad, on a current handle. -/
def onTile (s : State) (h : W64) (f : Nat → Nat → Tile → Act) : Act :=
  match entKid s.actor with
  | none => .trap { code := 0x05 }
  | some k =>
    match s.tileOf k (h.setWidth 16) with
    | some (i, t) => f k i t
    | none => .trap { code := 0x0A }

/-- R276, R32: takes the grant of the bank of a header's word 0, then acts. -/
def withHeaderBank (s : State) (k base : Nat) (f : State → Act) : Act :=
  if s.bankFree k (bankOf base) then f (s.grantBanks k [bankOf base]) else .forfeit fun s => s.forfeitBank s.actor

/-- R273. -/
def State.markRows (s : State) (k i : Nat) (m : W64) : State :=
  let t := s.tile k i
  let new := m &&& ~~~t.vmask
  let per := if t.xper = 0 then t.rb else t.xper
  let n := 2 * per * popcount 64 new.toNat
  (s.putTile k i { t with vmask := t.vmask ||| m, arrn := min (t.arrn + n) (2 ^ 32 - 1) }).sealIfComplete k i

/-- R273: a literal is sign-extended. -/
def execTvalid (g : Guard) (a : LSpec) (b : BSrc) (s : State) : Host.Outcome State Fault Refusal :=
  runLap (.tvalid g a b) s fun rd s =>
    onTile s (rd a) fun k i t =>
      if t.state ≠ 1 then .trap { code := 0x0A }
      else withHeaderBank s k t.base fun s => .done (s.markRows k i (bValue rd .b64 b))

/-- R268, R274: a release at cluster scope, then the seal. -/
def execSeal (g : Guard) (a : LSpec) (s : State) : Host.Outcome State Fault Refusal :=
  runLap (.seal g a) s fun rd s =>
    onTile s (rd a) fun k i _ =>
      if s.needsRelease s.actor .cluster then .release .cluster else .done (s.sealTile k i 1)

/-- R275. -/
def execTfree (g : Guard) (a : LSpec) (s : State) : Host.Outcome State Fault Refusal :=
  runLap (.tfree g a) s fun rd s =>
    onTile s (rd a) fun k i t =>
      if t.state = 1 ∨ t.state = 4 then withHeaderBank s k t.base fun s => .done (s.putTile k i { t with state := 0 })
      else .trap { code := 0x0A }

/-- R276: the status word. -/
def tileStatus (i : Nat) (t : Tile) (h : W64) : W64 :=
  BitVec.ofNat 64 (tileHandle i t + t.state * 2 ^ 16 + t.cause * 2 ^ 19
    + (if h.toNat / 256 % 256 = t.gen then 2 ^ 21 else 0) + (if t.pend then 2 ^ 22 else 0)
    + min (t.arrn / 2) 65535 * 2 ^ 23 + min t.refc 255 * 2 ^ 39)

/-- R276. -/
def execTstat (g : Guard) (d a : LSpec) (s : State) : Host.Outcome State Fault Refusal :=
  runLap (.tstat g d a) s fun rd s =>
    match entKid s.actor with
    | none => .trap { code := 0x05 }
    | some k =>
      let i := (rd a).toNat % 256
      let t := s.tile k i
      withHeaderBank s k t.base fun s => doneWith s d (tileStatus i t (rd a))

end Sys2Proof.Machine
end

