-- ==== Sys2Proof/Machine/Dispatch.lean ====
section
/-! DEFINITION. What each instruction and step of the opcode table does: one meaning per constructor. -/

namespace Sys2Proof.Machine

def exec (i : Instr) (s : State) : Host.Outcome State Fault Refusal :=
  match i with
  | .nop => Sys2Proof.Machine.execNop s
  | .br g disp => Sys2Proof.Machine.execBr g disp s
  | .jmp g d a => Sys2Proof.Machine.execJmp g d a s
  | .call g d disp => Sys2Proof.Machine.execCall g d disp s
  | .ret g a => Sys2Proof.Machine.execRet g a s
  | .loop g d disp => Sys2Proof.Machine.execLoop g d disp s
  | .halt g => Sys2Proof.Machine.execHalt g s
  | .trap g imm => Sys2Proof.Machine.execTrap g imm s
  | .hret g => Sys2Proof.Machine.execHret g s
  | .scall g imm => Sys2Proof.Machine.execScall g imm s
  | .srrd g d num => Sys2Proof.Machine.execSrrd g d num s
  | .srwr g a num => Sys2Proof.Machine.execSrwr g a num s
  | .flgrd g d => Sys2Proof.Machine.execFlgrd g d s
  | .flgclr g m => Sys2Proof.Machine.execFlgclr g m s
  | .bkpt g imm => Sys2Proof.Machine.execBkpt g imm s
  | .modeset g a num => Sys2Proof.Machine.execModeset g a num s
  | .add o => Sys2Proof.Machine.execAdd o s
  | .sub o => Sys2Proof.Machine.execSub o s
  | .mul o => Sys2Proof.Machine.execMul o s
  | .mulh o => Sys2Proof.Machine.execMulh o s
  | .mulhn o => Sys2Proof.Machine.execMulhn o s
  | .div o => Sys2Proof.Machine.execDiv o s
  | .divn o => Sys2Proof.Machine.execDivn o s
  | .rem o => Sys2Proof.Machine.execRem o s
  | .remn o => Sys2Proof.Machine.execRemn o s
  | .neg o => Sys2Proof.Machine.execNeg o s
  | .abs o => Sys2Proof.Machine.execAbs o s
  | .min o => Sys2Proof.Machine.execMin o s
  | .max o => Sys2Proof.Machine.execMax o s
  | .minn o => Sys2Proof.Machine.execMinn o s
  | .maxn o => Sys2Proof.Machine.execMaxn o s
  | .mov g d b => Sys2Proof.Machine.execMov g d b s
  | .and o => Sys2Proof.Machine.execAnd o s
  | .or o => Sys2Proof.Machine.execOr o s
  | .xor o => Sys2Proof.Machine.execXor o s
  | .andn o => Sys2Proof.Machine.execAndn o s
  | .shl o => Sys2Proof.Machine.execShl o s
  | .shr o => Sys2Proof.Machine.execShr o s
  | .sra o => Sys2Proof.Machine.execSra o s
  | .rot o => Sys2Proof.Machine.execRot o s
  | .bfx g d a pos len => Sys2Proof.Machine.execBfx g d a pos len s
  | .bfi g d a pos len => Sys2Proof.Machine.execBfi g d a pos len s
  | .pcnt o => Sys2Proof.Machine.execPcnt o s
  | .clz o => Sys2Proof.Machine.execClz o s
  | .ctz o => Sys2Proof.Machine.execCtz o s
  | .brev o => Sys2Proof.Machine.execBrev o s
  | .bswap o => Sys2Proof.Machine.execBswap o s
  | .lea g d a disp => Sys2Proof.Machine.execLea g d a disp s
  | .cmp g ty rel p a b => Sys2Proof.Machine.execCmp g ty rel p a b s
  | .plog g p pa pb tt => Sys2Proof.Machine.execPlog g p pa pb tt s
  | .pmov g d a => Sys2Proof.Machine.execPmov g d a s
  | .sel g d a b p => Sys2Proof.Machine.execSel g d a b p s
  | .pfxc g d a b => Sys2Proof.Machine.execPfxc g d a b s
  | .intx g d a b c => Sys2Proof.Machine.execIntx g d a b c s
  | .fadd o => Sys2Proof.Machine.execFadd o s
  | .fsub o => Sys2Proof.Machine.execFsub o s
  | .fmul o => Sys2Proof.Machine.execFmul o s
  | .fdiv o => Sys2Proof.Machine.execFdiv o s
  | .fsqrt o => Sys2Proof.Machine.execFsqrt o s
  | .fma o c => Sys2Proof.Machine.execFma o c s
  | .fmin o => Sys2Proof.Machine.execFmin o s
  | .fmax o => Sys2Proof.Machine.execFmax o s
  | .fcmp g ty rel p a b => Sys2Proof.Machine.execFcmp g ty rel p a b s
  | .fclass o => Sys2Proof.Machine.execFclass o s
  | .fsgn o op => Sys2Proof.Machine.execFsgn o op s
  | .cvt g dty dnk sty snk rm ns d a => Sys2Proof.Machine.execCvt g dty dnk sty snk rm ns d a s
  | .cvtd o => Sys2Proof.Machine.execCvtd o s
  | .cvte o ns => Sys2Proof.Machine.execCvte o ns s
  | .frnd o => Sys2Proof.Machine.execFrnd o s
  | .ld g cls ty hi d a disp => Sys2Proof.Machine.execLd g cls ty hi d a disp s
  | .st g cls ty hi d a disp => Sys2Proof.Machine.execSt g cls ty hi d a disp s
  | .ldt g ty d a eps disp => Sys2Proof.Machine.execLdt g ty d a eps disp s
  | .addm g cls ty d a disp => Sys2Proof.Machine.execAddm g cls ty d a disp s
  | .amo g cls op ty d a b => Sys2Proof.Machine.execAmo g cls op ty d a b s
  | .cas g cls ty d a b => Sys2Proof.Machine.execCas g cls ty d a b s
  | .sts g cls ty d a b => Sys2Proof.Machine.execSts g cls ty d a b s
  | .pref g a disp => Sys2Proof.Machine.execPref g a disp s
  | .topen g ty nk wide d a b => Sys2Proof.Machine.execTopen g ty nk wide d a b s
  | .tvalid g a b => Sys2Proof.Machine.execTvalid g a b s
  | .seal g a => Sys2Proof.Machine.execSeal g a s
  | .tfree g a => Sys2Proof.Machine.execTfree g a s
  | .tstat g d a => Sys2Proof.Machine.execTstat g d a s
  | .fence g sc rel acq => Sys2Proof.Machine.execFence g sc rel acq s
  | .drain g sc reg => Sys2Proof.Machine.execDrain g sc reg s
  | .gidx g ty a b sh => Sys2Proof.Machine.execGidx g ty a b sh s
  | .sidx g ty d a b sh => Sys2Proof.Machine.execSidx g ty d a b sh s
  | .aqclr g d => Sys2Proof.Machine.execAqclr g d s
  | .qstat g d => Sys2Proof.Machine.execQstat g d s
  | .send o => Sys2Proof.Machine.execSend o s
  | .callr o => Sys2Proof.Machine.execCallr o s
  | .reply g a b => Sys2Proof.Machine.execReply g a b s
  | .slpush g a b => Sys2Proof.Machine.execSlpush g a b s
  | .slpop g d => Sys2Proof.Machine.execSlpop g d s
  | .slsteal g d => Sys2Proof.Machine.execSlsteal g d s
  | .mjob g d a b cc => Sys2Proof.Machine.execMjob g d a b cc s
  | .launch g d a b => Sys2Proof.Machine.execLaunch g d a b s
  | .dtld g a t => Sys2Proof.Machine.execDtld g a t s
  | .dtrd g d b t => Sys2Proof.Machine.execDtrd g d b t s
  | .srfence g re rec => Sys2Proof.Machine.execSrfence g re rec s
  | .tbfill g a b => Sys2Proof.Machine.execTbfill g a b s
  | .tbfillVec g a => Sys2Proof.Machine.execTbfillVec g a s
  | .tbinv g d key seqOnly => Sys2Proof.Machine.execTbinv g d key seqOnly s
  | .tbprobe g d a => Sys2Proof.Machine.execTbprobe g d a s
  | .grpfind o => Sys2Proof.Machine.execGrpfind o s
  | .sqset o => Sys2Proof.Machine.execSqset o s
  | .sqsetOp o => Sys2Proof.Machine.execSqsetOp o s
  | .sqsetUser o => Sys2Proof.Machine.execSqsetUser o s
  | .sqsetPrio o => Sys2Proof.Machine.execSqsetPrio o s
  | .sqget g d a w => Sys2Proof.Machine.execSqget g d a w s
  | .sqbuild g d a b c => Sys2Proof.Machine.execSqbuild g d a b c s
  | .erset g a b c => Sys2Proof.Machine.execErset g a b c s
  | .erget o w => Sys2Proof.Machine.execErget o w s
  | .tolset g a b c die => Sys2Proof.Machine.execTolset g a b c die s
  | .tbind g ctr => Sys2Proof.Machine.execTbind g ctr s
  | .tcset g b ctr => Sys2Proof.Machine.execTcset g b ctr s
  | .tcrd g d ctr => Sys2Proof.Machine.execTcrd g d ctr s
  | .pegarm o => Sys2Proof.Machine.execPegarm o s
  | .pegarmAdd o => Sys2Proof.Machine.execPegarmAdd o s
  | .pegwait o => Sys2Proof.Machine.execPegwait o s
  | .rcsnap g a b => Sys2Proof.Machine.execRcsnap g a b s
  | .rcrd g d b => Sys2Proof.Machine.execRcrd g d b s
  | .bump g d b al => Sys2Proof.Machine.execBump g d b al s
  | .bumpset g d a b al => Sys2Proof.Machine.execBumpset g d a b al s
  | .xcopy g ty d a b c => Sys2Proof.Machine.execXcopy g ty d a b c s
  | .xconv g dty dnk sty snk rm ns d a b c => Sys2Proof.Machine.execXconv g dty dnk sty snk rm ns d a b c s
  | .route g d a => Sys2Proof.Machine.execRoute g d a s
  | .cmdnext g d => Sys2Proof.Machine.execCmdnext g d s
  | .cmddone g a b c sys irq => Sys2Proof.Machine.execCmddone g a b c sys irq s
  | .bundleIssue b => Sys2Proof.Machine.execBundleIssue b s
  | .resultLanding kid cc => Sys2Proof.Machine.execResultLanding kid cc s
  | .storeBufferWrite kid cc x => Sys2Proof.Machine.execStoreBufferWrite kid cc x s
  | .sealEffect kid cc x => Sys2Proof.Machine.execSealEffect kid cc x s
  | .cpgoPush kid cc x => Sys2Proof.Machine.execCpgoPush kid cc x s
  | .freezeOverrun kid cc => Sys2Proof.Machine.execFreezeOverrun kid cc s
  | .stepStart kid cc => Sys2Proof.Machine.execStepStart kid cc s
  | .stepRetire kid cc => Sys2Proof.Machine.execStepRetire kid cc s
  | .randomBlock kid => Sys2Proof.Machine.execRandomBlock kid s
  | .ctxResume kid cc x => Sys2Proof.Machine.execCtxResume kid cc x s
  | .ctxResumeAt kid cc x a => Sys2Proof.Machine.execCtxResumeAt kid cc x a s
  | .ctxKill kid cc x => Sys2Proof.Machine.execCtxKill kid cc x s
  | .threadResume kid core slot => Sys2Proof.Machine.execThreadResume kid core slot s
  | .threadResumeAt kid core slot a => Sys2Proof.Machine.execThreadResumeAt kid core slot a s
  | .threadKill kid core slot => Sys2Proof.Machine.execThreadKill kid core slot s
  | .escalatedFault e => Sys2Proof.Machine.execEscalatedFault e s
  | .longOpLanding e => Sys2Proof.Machine.execLongOpLanding e s
  | .accessAnswerLands e => Sys2Proof.Machine.execAccessAnswerLands e s
  | .gatherLanding e => Sys2Proof.Machine.execGatherLanding e s
  | .postedStorePlace req => Sys2Proof.Machine.execPostedStorePlace req s
  | .releaseComplete e => Sys2Proof.Machine.execReleaseComplete e s
  | .mumodeWrite e => Sys2Proof.Machine.execMumodeWrite e s
  | .decodeTableReplace e => Sys2Proof.Machine.execDecodeTableReplace e s
  | .syncStallWatchdog kid core slot => Sys2Proof.Machine.execSyncStallWatchdog kid core slot s
  | .controllerRetry req => Sys2Proof.Machine.execControllerRetry req s
  | .fabricAccess req => Sys2Proof.Machine.execFabricAccess req s
  | .messageAccept req => Sys2Proof.Machine.execMessageAccept req s
  | .messageResend req => Sys2Proof.Machine.execMessageResend req s
  | .replyLanding req => Sys2Proof.Machine.execReplyLanding req s
  | .sealTimer kid idx => Sys2Proof.Machine.execSealTimer kid idx s
  | .writeArrivesHome req => Sys2Proof.Machine.execWriteArrivesHome req s
  | .globalReadAnswer req => Sys2Proof.Machine.execGlobalReadAnswer req s
  | .leaseExpiry kid pasid line => Sys2Proof.Machine.execLeaseExpiry kid pasid line s
  | .translationRequest req => Sys2Proof.Machine.execTranslationRequest req s
  | .walkEnd die pasid page => Sys2Proof.Machine.execWalkEnd die pasid page s
  | .translationInvalidate pasid base pages => Sys2Proof.Machine.execTranslationInvalidate pasid base pages s
  | .invalidationComplete => Sys2Proof.Machine.execInvalidationComplete s
  | .cchEviction kid pasid line => Sys2Proof.Machine.execCchEviction kid pasid line s
  | .forcedDrain kid line => Sys2Proof.Machine.execForcedDrain kid line s
  | .drainFold req => Sys2Proof.Machine.execDrainFold req s
  | .tolerantLoadAnswer req => Sys2Proof.Machine.execTolerantLoadAnswer req s
  | .regionSwitch e => Sys2Proof.Machine.execRegionSwitch e s
  | .mjobStart kid cc => Sys2Proof.Machine.execMjobStart kid cc s
  | .mjobReply e => Sys2Proof.Machine.execMjobReply e s
  | .engineCommandStart e => Sys2Proof.Machine.execEngineCommandStart e s
  | .engineRunEnd e => Sys2Proof.Machine.execEngineRunEnd e s
  | .qtailWrite q v => Sys2Proof.Machine.execQtailWrite q v s
  | .queueEnable q => Sys2Proof.Machine.execQueueEnable q s
  | .queueStop q => Sys2Proof.Machine.execQueueStop q s
  | .queueDestroy q => Sys2Proof.Machine.execQueueDestroy q s
  | .queueKill q => Sys2Proof.Machine.execQueueKill q s
  | .queueClear q => Sys2Proof.Machine.execQueueClear q s
  | .registerWrite addr v => Sys2Proof.Machine.execRegisterWrite addr v s
  | .launchStart die => Sys2Proof.Machine.execLaunchStart die s
  | .launchFinish die gen => Sys2Proof.Machine.execLaunchFinish die gen s
  | .dependenceCheck die => Sys2Proof.Machine.execDependenceCheck die s
  | .barrierCompletion q => Sys2Proof.Machine.execBarrierCompletion q s
  | .preemption die gen => Sys2Proof.Machine.execPreemption die gen s
  | .restore die gen => Sys2Proof.Machine.execRestore die gen s
  | .hostRead addr bytes => Sys2Proof.Machine.execHostRead addr bytes s
  | .hostWrite addr bytes v => Sys2Proof.Machine.execHostWrite addr bytes v s
  | .backInvalidationResponse line => Sys2Proof.Machine.execBackInvalidationResponse line s
  | .hostSnoop x => Sys2Proof.Machine.execHostSnoop x s
  | .barAccess write off bytes v => Sys2Proof.Machine.execBarAccess write off bytes v s
  | .inboundCreurnAccess x => Sys2Proof.Machine.execInboundCreurnAccess x s
  | .flitRetry port => Sys2Proof.Machine.execFlitRetry port s
  | .linkSilenceTimeout port => Sys2Proof.Machine.execLinkSilenceTimeout port s
  | .resetNotice port => Sys2Proof.Machine.execResetNotice port s
  | .linkTraining port peer => Sys2Proof.Machine.execLinkTraining port peer s
  | .farLinkFailure port => Sys2Proof.Machine.execFarLinkFailure port s
  | .powerWindow watts temp => Sys2Proof.Machine.execPowerWindow watts temp s
  | .thermalTrip => Sys2Proof.Machine.execThermalTrip s
  | .packageReset => Sys2Proof.Machine.execPackageReset s
  | .bootStage => Sys2Proof.Machine.execBootStage s
  | .getVersion => Sys2Proof.Machine.execGetVersion s
  | .getCapabilities => Sys2Proof.Machine.execGetCapabilities s
  | .negotiateAlgorithms sm2 sm3 => Sys2Proof.Machine.execNegotiateAlgorithms sm2 sm3 s
  | .getDigests => Sys2Proof.Machine.execGetDigests s
  | .getCertificate slot => Sys2Proof.Machine.execGetCertificate slot s
  | .challenge slot nonce => Sys2Proof.Machine.execChallenge slot nonce s
  | .getMeasurements index => Sys2Proof.Machine.execGetMeasurements index s
  | .spdmSessionRequest => Sys2Proof.Machine.execSpdmSessionRequest s
  | .firmwareUpdate index version => Sys2Proof.Machine.execFirmwareUpdate index version s
  | .illegalInstruction w => Sys2Proof.Machine.execIllegalInstruction w s
  | .atsTranslationAnswer pasid page r => Sys2Proof.Machine.execAtsTranslationAnswer pasid page r s
  | .pageRequestAnswer e ok => Sys2Proof.Machine.execPageRequestAnswer e ok s
  | .temperature95c => Sys2Proof.Machine.execTemperature95c s
  | .haltOnBreakArm arm restart => Sys2Proof.Machine.execHaltOnBreakArm arm restart s
  | .msixTableAccess a write => Sys2Proof.Machine.execMsixTableAccess a write s

end Sys2Proof.Machine
end

