-- ==== Sys2Proof/Machine/Turns.lean ====
section
/-! DEFINITION. What happens in a clk, in order: who issues, which steps are due, and how time goes on (R18, R20 to R22, R28, R31
to R35, R148, R337, R381, R384; log 3, log 5, log 14, log 16). -/

namespace Sys2Proof.Machine

/-! ### Who issues -/

/-- R20, R33, R371: a lap thread may issue when it is ready; parked on what it has to look at itself, it tries again. -/
def Hart.tries (h : Hart) : Bool :=
  match h.rot with
  | .ready => true
  | .parked => h.pend.isNone && (match h.wait with | .trigger _ => false | _ => true)
  | _ => false

/-- R338: an engine issues during its run. -/
def Engine.runs (g : Engine) : Bool :=
  match g.run with
  | .placed | .cmd _ _ _ => true
  | _ => false

/-- R20, R21, R214, R338: whether an entity issues when its turn comes. -/
def State.canIssue (s : State) (e : Ent) : Bool :=
  match e with
  | .lap k _ _ => (s.hart e).tries && !(s.kidStops k)
  | .ctx k cc x =>
    let c := s.cc k cc
    c.issuing == x && (s.ctx k cc x).ready && (!(s.kidStops k) || c.freeze != 0)
  | .ce k => (s.hart e).tries && (s.engine e).runs && !(s.kidStops k)
  | .re _ => (s.hart e).tries && (s.engine e).runs
  | .hart _ => (s.hart e).tries
  | .far _ => false

/-! ### One turn -/

/-- R20, R385: a turn in which a parked thread has tried again: an instruction issued, or an idle turn. -/
def State.countTry (s : State) (e : Ent) : State :=
  match e with
  | .lap k _ _ => s.perf k (if (s.hart e).rot = .parked then 0x02 else 0x01) 1
  | _ => s

/-- R385: an instruction that a ready lap thread issues. -/
def State.countIssue (s : State) (e : Ent) : State :=
  match e with
  | .lap k _ _ => s.perf k 0x01 1
  | _ => s

/-- Counts the turn of a parked thread. -/
def afterTry (e : Ent) : Host.Outcome State Fault Refusal → Host.Outcome State Fault Refusal
  | .next s => .next (s.countTry e)
  | o => o

/-- R204, R209: in the clk in which its sync-stall fault is due a parked thread leaves its instruction unissued, but for one that
meets a synchronous fault: that goes first, and the other waits. -/
def unlessStalled (e : Ent) (s : State) (o : Host.Outcome State Fault Refusal) : Host.Outcome State Fault Refusal :=
  match e, o with
  | .lap k c _, .next t => if (s.hart e).stalled (s.core k c) && !(t.hart e).stall then .next s else .next t
  | _, o => o

/-- R72, R73: the turn of a hart: the instruction at its pc, an illegal word, or a fetch fault. -/
def hartTurn (e : Ent) (s : State) : Host.Outcome State Fault Refusal :=
  let s := { s with actor := e }
  let pc := (s.hart e).pc
  let parked : Bool := (s.hart e).rot == .parked
  let run (i : Instr) (s : State) : Host.Outcome State Fault Refusal :=
    if parked then afterTry e (exec i s) else exec i (s.countIssue e)
  unlessStalled e s <| match s.fetchAt e pc with
  | .wait s => .next s
  | .fault c a s => .next (s.takeTrap e { code := c, addr := a } pc 0)
  | .ok (.ok i) _ s => run i s
  | .ok (.error _) w s => run (.illegalInstruction w) s

/-- One turn of the list. -/
def State.turn (s : State) : Turn → Host.Outcome State Fault Refusal
  | .ev i => exec i s
  | .fetch e =>
    if s.canIssue e then
      match e with
      | .ctx k cc x => exec (.bundleIssue (s.bundleAt k cc (s.ctx k cc x).pc)) { s with actor := e }
      | e => hartTurn e s
    else .next s

/-! ### Steps that are due -/

/-- R31, R109, R213, R245, R290, R327, R347, R366: what is due of a hart. -/
def hartDue (s : State) (e : Ent) (h : Hart) : List Instr :=
  (match h.pend with
    | some p =>
      if p.isDue s.clk then
        match p.act with
        | .mumode _ _ => [.mumodeWrite e]
        | .table _ _ => [.decodeTableReplace e]
        | .region _ _ _ _ => [.regionSwitch e]
        | .job => if p.ans.isSome then [.mjobReply e] else []
        | .drainFence => [.accessAnswerLands e]
        | .steal => if p.ans.isSome then [.accessAnswerLands e] else []
        | _ => if p.ans.isSome then [if p.long then .longOpLanding e else .accessAnswerLands e] else []
      else []
    | none => [])
  ++ (if h.rel.isSome ∧ h.rot = .out then [.releaseComplete e] else [])

/-- R31, R245: what is due of a request that asks for no bank. -/
def reqDue (s : State) (id : Nat) (r : Req) : List Instr :=
  if s.clk < r.due then []
  else match r.phase with
    | .station => [.translationRequest id]
    | .home => [.globalReadAnswer id]
    | .write => (match r.op with | .drain _ _ _ => [.drainFold id] | _ => [.writeArrivesHome id])
    | .held => (match decodePlace r.who r.addr with | .ok (.glob _) => [.writeArrivesHome id] | _ => [])
    | .tolerant => [.tolerantLoadAnswer id]
    | .message => [.messageAccept id]
    | .resend => [.messageResend id]
    | .replying => [.replyLanding id]
    | .retry => [.controllerRetry id]
    | .link | .miss | .fabric | .posted => []

/-- The clusters that run a launch. -/
def State.liveKids (s : State) : List Nat := (s.clusters.filter fun c => c.2.launch.isSome).map (·.1)

/-- R258, R264, R286, R335: what is due of a cluster. -/
def kidDue (s : State) (k : Nat) : List Instr :=
  let c := s.cluster k
  ((c.tiles.filter fun t => t.2.timedOut s.pt).map fun t => .sealTimer k t.1)
  ++ ((c.cch.filter fun l => l.expiry ≤ s.pt ∧ l.valid &&& ~~~s.keptBytes k l ≠ 0).map fun l => .leaseExpiry k l.pasid l.line)
  ++ (if c.rngQ.length ≤ 62 ∧ c.rngAt + 4 ≤ s.clk then [.randomBlock k] else [])
  ++ [0, 1].flatMap fun cc => if (s.cc k cc).jobs.isEmpty then [] else [.mjobStart k cc]

/-- R338: what is due of an engine. -/
def engineDue (s : State) (e : Ent) : List Instr :=
  match (s.engine e).run with
  | .ending _ _ _ _ => [.engineRunEnd e]
  | .idle => if (s.engine e).queue.isEmpty then [] else [.engineCommandStart e]
  | .cmd _ _ _ => if s.cutsRun e then [.engineRunEnd e] else []
  | .placed => []

/-- R210, R384: the watchdog, and faults that are escalated. -/
def faultDue (s : State) : List Instr :=
  s.harts.flatMap (fun x =>
    match x.1 with
    | .lap k c t =>
      (if x.2.stalled (s.core k c) then [Instr.syncStallWatchdog k c t] else [])
        ++ (if (s.escalation x.1).isSome then [.escalatedFault x.1] else [])
    | _ => [])
  ++ (s.ctxs.flatMap fun x =>
    if (s.escalation (.ctx x.1.1 x.1.2.1 x.1.2.2)).isSome then [.escalatedFault (.ctx x.1.1 x.1.2.1 x.1.2.2)] else [])
  ++ s.escalated.flatMap fun x => if s.killDue x.1 then [.escalatedFault x.1] else []

/-- R235, R240, R298: what is due of translation and of forced drains. -/
def commonDue (s : State) : List Instr :=
  ((s.walks.filter fun w => !w.ats && decide (w.due ≤ s.clk)).map fun w => .walkEnd w.die w.pasid w.page)
  ++ (if s.tinval.isSome then [.invalidationComplete] else [])
  ++ s.dies.flatMap fun d => d.2.forced.map fun f => .forcedDrain f.2 f.1

/-- R27, R28, R30, R214, R219, R309 to R311: what the command stream harts do at the end of a lap, so that what they start begins
with the next. -/
def hartWork (s : State) : List Instr :=
  if s.clk % 16 = 15 then
    (s.launches.flatMap fun l =>
      if l.stopping then [Instr.preemption l.die (l.count % 256)]
      else if l.saved.isNone || l.killed then [.launchFinish l.die (l.count % 256)] else [])
    ++ (s.queues.flatMap fun q => if q.2.barrier.isSome then [Instr.barrierCompletion q.1] else [])
    ++ (([0, 1, 2, 3] : List Nat).flatMap fun d =>
      (if s.clk % 512 = 511 then [Instr.dependenceCheck d] else []) ++ [.launchStart d])
    ++ s.launches.flatMap fun l => if l.saved.isSome && !l.killed then [Instr.restore l.die (l.count % 256)] else []
  else []

/-! ### Turns that ask for banks (R20, R21, R32) -/

/-- R32: the rank of an entity among equals: control core 0, control core 1, copy engine, the mesh, then lap cores ascending. -/
def bankRank : Ent → Nat
  | .ctx k cc _ => k * 64 + cc
  | .ce k => k * 64 + 2
  | .lap k c _ => k * 64 + 4 + c
  | .re _ | .hart _ | .far _ => 2 ^ 15

/-- R32: the rank of a message of the mesh that has come to a cluster. -/
def meshRank (k : Nat) : Nat := k * 64 + 3

/-- A turn that may ask for a bank, with its age and its rank. -/
structure Contender where
  age : Option Nat
  rank : Nat
  turn : Turn

/-- R32: a contender goes before another: the oldest forfeit, then the rank. -/
def Contender.before (a b : Contender) : Bool :=
  match a.age, b.age with
  | some m, some n => decide (m < n) || (m == n && decide (a.rank ≤ b.rank))
  | some _, none => true
  | none, some _ => false
  | none, none => decide (a.rank ≤ b.rank)

/-- Puts a contender before the first that does not go before it. -/
def insertContender (a : Contender) : List Contender → List Contender
  | [] => [a]
  | b :: t => if a.before b then a :: b :: t else b :: insertContender a t

/-- The entities whose turn this clk is. -/
def State.issuers (s : State) (ks : List Nat) : List Ent :=
  (ks.flatMap fun k => [0, 1].flatMap fun cc => [Ent.ctx k cc (s.cc k cc).issuing])
  ++ (s.harts.map (·.1)).filter fun e =>
    match e with
    | .lap _ _ t => decide (t = s.clk % 16)
    | _ => true

/-- R32, R380: the rank of an issuer: a copy engine's BUMP and BUMPSET are served after those of the lap cores. -/
def State.issueRank (s : State) (e : Ent) : Nat :=
  match e with
  | .ce k =>
    (match s.fetchAt e (s.hart e).pc with
      | .ok (.ok (.bump _ _ _ _)) _ _ | .ok (.ok (.bumpset _ _ _ _ _)) _ _ => k * 64 + 36
      | _ => bankRank e)
  | e => bankRank e

/-- R32: the age of an issuer: of a context, that of the bundle its control core holds. -/
def State.issueAge (s : State) : Ent → Option Nat
  | .ctx k cc _ => (s.cc k cc).ldAge
  | e => (s.hart e).forfeit

/-- R170: store buffers of a control core ask for their banks beside its bundle. -/
def storeContenders (s : State) (ks : List Nat) : List Contender :=
  (s.ctxs.filter fun x => ks.contains x.1.1).flatMap fun x =>
    match x.2.sbuf with
    | [] => []
    | e :: _ => [{ age := e.age, rank := bankRank (.ctx x.1.1 x.1.2.1 x.1.2.2), turn := .ev (.storeBufferWrite x.1.1 x.1.2.1 x.1.2.2) }]

/-- R245, R318: gathers that may land. -/
def gatherContenders (s : State) : List Contender :=
  (s.harts.filter fun x => !x.2.aq.isEmpty || x.2.resent).map fun x =>
    { age := x.2.gAge, rank := bankRank x.1, turn := .ev (.gatherLanding x.1) }

/-- R245, R282: requests that have come to a scratchpad: posted stores as their own issuers rank, the rest as the mesh. -/
def reqContenders (s : State) : List Contender :=
  s.reqs.flatMap fun r =>
    if s.clk < r.2.due then []
    else match r.2.phase with
      | .posted => [{ age := r.2.forfeit, rank := bankRank r.2.who, turn := .ev (.postedStorePlace r.1) }]
      | .fabric => [{ age := r.2.forfeit, rank := meshRank r.2.kid, turn := .ev (.fabricAccess r.1) }]
      | .held =>
        (match decodePlace r.2.who r.2.addr with
          | .ok (.glob _) => []
          | _ => [{ age := r.2.forfeit, rank := meshRank r.2.kid, turn := .ev (.fabricAccess r.1) }])
      | _ => []

/-- R32: the turns of this clk that may ask for a bank, the issue turns among them, in their order. -/
def State.contenders (s : State) (ks : List Nat) (order : List Ent) : List Contender :=
  (storeContenders s ks ++ reqContenders s ++ gatherContenders s
    ++ order.map fun e => ({ age := s.issueAge e, rank := s.issueRank e, turn := .fetch e } : Contender)).foldr insertContender []

/-- R323, R325: the threads of a cluster that still wait for records of the next core's sled. -/
def stealers (s : State) (k : Nat) : List Instr :=
  (s.harts.filter fun x =>
    (match x.1 with | .lap k' _ _ => k' == k | _ => false)
      && (match x.2.pend with | some p => p.act == .steal && p.ans.isNone | none => false)).map fun x => .longOpLanding x.1

/-- R142, R146, R188, R196, R274, R325, R337: what ends a clk of a cluster. A control core that has come to its boundary stands
still; one that is still frozen there goes on, its queued steps too. -/
def kidEnd (s : State) (k : Nat) : List Instr :=
  ((s.ctxs.filter fun x => x.1.1 = k ∧ (!x.2.seals.isEmpty ∨ !x.2.cpgos.isEmpty)).flatMap fun x =>
    [Instr.sealEffect k x.1.2.1 x.1.2.2, .cpgoPush k x.1.2.1 x.1.2.2])
  ++ stealers s k
  ++ [0, 1].flatMap fun cc =>
    if s.kidStops k && (s.cc k cc).freeze == 0 then [] else [.stepStart k cc, .resultLanding k cc, .freezeOverrun k cc]

/-! ### A clk -/

/-- R18, R381: one clk takes 1,000 / mhz ns; the phase is kept in 1/mhz of a ns (log 16). -/
def State.tick (s : State) : State :=
  let p := s.phase + 1000
  { s with clk := s.clk + 1, pt := s.pt + p / s.mhz, phase := p % s.mhz }

/-- R384: parked laps are counted at each lap boundary. -/
def State.countParks (s : State) : State :=
  if s.clk % 16 = 0 then
    { s with harts := s.harts.map fun (x : Ent × Hart) =>
        if x.2.rot = .parked then (x.1, { x.2 with parkN := x.2.parkN + 1 }) else x }
  else s

/-- R20, R385: the turns of a cluster's lap cores that no thread uses. -/
def State.countIdle (s : State) (order : List Ent) (ks : List Nat) : State :=
  ks.foldl (fun (s : State) k =>
    s.perf k 0x02 (32 - (order.filter fun e => match e with | .lap k' _ _ => k' == k | _ => false).length)) s

/-- What is to be done in the clk that begins. -/
def State.turnList (s : State) (ks : List Nat) (order : List Ent) : List Turn :=
  let evs (l : List Instr) : List Turn := l.map .ev
  evs (ks.flatMap fun k => [Instr.stepRetire k 0, .stepRetire k 1])
  ++ evs (ks.flatMap (kidDue s))
  ++ evs (s.harts.flatMap fun x => hartDue s x.1 x.2)
  ++ evs (commonDue s)
  ++ evs (s.reqs.flatMap fun r => reqDue s r.1 r.2)
  ++ evs ((ks.map Ent.ce ++ ([0, 1, 2, 3] : List Nat).map Ent.re).flatMap (engineDue s))
  ++ evs ((s.inputs.filter fun i => i.1 ≤ s.clk).map (·.2))
  ++ (s.contenders ks order).map (·.turn)
  ++ evs (faultDue s)
  ++ evs (ks.flatMap (kidEnd s))
  ++ evs (hartWork s)

/-- R242, R400, R401: a soft error: a corrected one is counted, saturating; another makes its word uncorrectable. -/
def State.upset (s : State) : Upset → State
  | .corrected d =>
    let x := s.die d
    s.setDie d { x with corrected := if x.corrected.toNat < 2 ^ 32 - 1 then x.corrected + 1 else x.corrected }
  | .lost a => { s with bad := setAdd s.bad (a / 8 * 8) }

/-- R400: the soft errors of this clk. -/
def State.softErrors (s : State) : State :=
  let due := s.upsets.filter fun u => decide (u.1 ≤ s.clk)
  if due.isEmpty then s
  else due.foldl (fun (s : State) u => s.upset u.2) { s with upsets := s.upsets.filter fun u => !(decide (u.1 ≤ s.clk)) }

/-- The end of a clk and the beginning of the next: array time passes, the clock ticks, parks are counted, contexts are chosen. -/
def State.advance (s : State) : State :=
  let ks := s.liveKids
  let s := ks.foldl (fun (s : State) k => (s.arrayClk k 0).arrayClk k 1) s
  let s := s.tick.softErrors.countParks
  let s := ks.foldl (fun (s : State) k => if s.kidStops k then s else (s.select k 0).select k 1) s
  let order := (s.issuers ks).filter s.canIssue
  let l := s.turnList ks order
  let s := s.countIdle order ks
  { s with turns := l, inputs := s.inputs.filter fun i => !(decide (i.1 ≤ s.clk)) }

end Sys2Proof.Machine
end

