-- ==== Sys2Proof/Machine/Step.lean ====
section
/-! DEFINITION. One step of the machine: the next turn of the clk, or the end of the clk; and the placing of one instruction where
the next step fetches it (log 4, log 17). -/

namespace Sys2Proof.Machine

/-- One step. -/
def step (s : State) : Host.Outcome State Fault Refusal :=
  match s.turns with
  | [] => .next s.advance
  | t :: rest => { s with turns := rest }.turn t

/-- The hart that runs a placed lap word (R85): the copy engine, the routing engine or the command stream hart for their own
instructions, a lap thread for any other. -/
def placedOn : Option Instr → Ent
  | some (.xcopy _ _ _ _ _ _) | some (.xconv _ _ _ _ _ _ _ _ _ _ _) => .ce 0
  | some (.route _ _ _) => .re 0
  | some (.cmdnext _ _) | some (.cmddone _ _ _ _ _ _) => .hart 0
  | _ => .lap 0 0 0

/-- Where a placed lap word stands: a virtual address, and the same device physical address. -/
def placedAt : Nat := 0x10000

/-- A launch of PASID 0 on rink 0 of die 0, as a placed instruction needs one to be fetched under. -/
def placedLaunch : Launch :=
  { count := 1, die := 0, queue := 0, prio := 0, pasid := 0, pkt := [],
    img := { reloc := false, rinks := 1, lapOff := 0, lapSize := 0, bunOff := 0, bunSize := 0, engOff := 0, engSize := 0,
             datOff := 0, datSize := 0, hasHandler := false, handler := 0, deleg := 0, map := [] },
    rinks := [0], saved := none, kept := [], reCmds := [], restores := 0, faultEnd := none, stopping := false, badRinks := [], vec := 0 }

/-- R235 to R237: a PASID table entry, and three tables that map the first GiB to itself. -/
def placedTables (s : State) : State :=
  ({ s with pasidBase := 0 }.dropLeaf 0 0 placedAt)
    |>.wr64 0 0x1001 |>.wr64 8 0 |>.wr64 0x1000 0x2001 |>.wr64 0x2000 0x3001 |>.wr64 0x3000 0x3F

/-- The launch, in cluster 0. -/
def placedKid (s : State) : State :=
  let s := { s with launches := placedLaunch :: s.launches }
  s.setCluster 0 { s.cluster 0 with launch := some 1 }

/-- A hart ready at the placed word. -/
def placedThread (s : State) (e : Ent) : State :=
  let s := s.setHart e { s.hart e with rot := .ready, wait := .none, pend := none, pc := BitVec.ofNat 64 placedAt, base := 0, size := 128 }
  match e with
  | .ce _ => s.setEngine e { s.engine e with run := .placed, launch := some (0, 1) }
  | .re _ => s.setEngine e { s.engine e with run := .cmd 0 0 0, launch := some (0, 1) }
  | _ => s

/-- The host's question: s with the instruction whose bits are w stored where the next step fetches it. -/
def State.withFetchWord (s : State) (nbits w : Nat) : State :=
  if nbits ≤ 128 then
    let e := placedOn (decodeTableWord nbits w)
    let s := placedThread (placedKid (placedTables s)) e
    let s := (s.wr64 placedAt (tableBits w 0)).wr64 (placedAt + 8) (tableBits w 1)
    { s with turns := [.fetch e] }
  else
    let s := placedKid s
    let s := (List.range 8).foldl (fun (s : State) i => s.wr64 (bundleBase 0 0 + 8 * i) (tableBits w i)) s
    let s := s.setCc 0 0 { s.cc 0 0 with issuing := 0, loaded := 64 }
    let s := s.setCtx 0 0 0 { s.ctx 0 0 0 with state := 1, pc := 0, npc := 64, nnpc := 128 }
    { s with turns := [.fetch (.ctx 0 0 0)] }

end Sys2Proof.Machine
end

