-- ==== Sys2Proof/Safety.lean ====
section
/-! DEFINITION. What counts as a safe state and a safe step, in the terms the claims use. -/

namespace Sys2Proof

open Sys2Proof.Machine

/-- Memory stands in its canonical form (log 1). -/
def MemOk (s : State) : Prop := memWf s.mem = true

/-- The package registers stand in the ranges that R382, R401 and R402 give them. -/
def RangesOk (s : State) : Prop :=
  1000 ≤ s.mhz ∧ s.mhz ≤ 2000 ∧ 1000 ≤ s.powerCap ∧ s.powerCap ≤ 2400 ∧ 100 ≤ s.lease ∧ s.lease ≤ 2000 ∧ s.bootStage ≤ 7
    ∧ s.thr ≤ 65535

/-- A step is safe when it goes on to a state. -/
def SafeStep (s : State) : Prop := ∃ t, step s = .next t

/-- What an instruction leaves unchanged outside the hart that issues it: every other hart. -/
def OtherHartsSame (e : Ent) (s t : State) : Prop := ∀ f, f ≠ e → t.hart f = s.hart f

/-- Every byte of memory reads as before. -/
def MemSame (s t : State) : Prop := ∀ a, memGet t.mem a = memGet s.mem a

/-- Every byte of memory outside n bytes from a reads as before. -/
def MemSameBut (a n : Nat) (s t : State) : Prop := ∀ b, b < a ∨ a + n ≤ b → memGet t.mem b = memGet s.mem b

/-! ### When a lap word issues and executes -/

/-- R204: no fault has fallen due that waits for the thread's next boundary. -/
abbrev NoneDue (h : Hart) : Prop := h.late = none ∧ h.stall = false

/-- A lap word executes in this step: its issuer is a hart, none of the checks of R72 fails, its guard executes (R71), its pops are
made (R75, R108: their words are vals, and the state after them is s₁), and its destination can take a push (R111, R114). -/
structure Issues (i : Instr) (e : Ent) (s : State) (vals : List (LSpec × W64)) (s₁ : State) : Prop where
  actor : s.actor = e
  isHart : entIsHart e = true
  check : lapCheck i e s = none
  guard : guardHolds (s.hart e) (lapGuard i) = true
  pops : popAll e (lapSrcs i) [] s = .ok vals s₁
  room : (lapDst i).bind (pushBlocked s₁ e) = none

/-- What the word reads a source as: a popped word, or the register (R74, R75). -/
abbrev src (s : State) (e : Ent) (vals : List (LSpec × W64)) (r : LSpec) : W64 := readSpec s e vals r

/-- What the word reads source B as at a type: a source, or the literal (R70). -/
abbrev srcB (s : State) (e : Ent) (vals : List (LSpec × W64)) (t : Ty) (b : BSrc) : W64 := bValue (readSpec s e vals) t b

/-- The word completes with this value for its destination d, and the thread goes on after the word (R107). -/
def Writes (i : Instr) (d : LSpec) (v : State → Ent → List (LSpec × W64) → W64) : Prop :=
  ∀ e s vals s₁, Issues i e s vals s₁ → exec i s = .next ((s₁.writeSpec e d (v s e vals)).goOn e (nextPc s e i))

/-- The word raises a fault: the thread takes it at the word, and none of its pops is made (R72, R203). -/
def Faults (i : Instr) (s : State) (e : Ent) (t : Trap) : Prop :=
  exec i s = .next (s.takeTrap e t (s.hart e).pc (insnWord i))

/-! ### Frames -/

/-- What a hart keeps through a word with destination d: every register but d, the flag register, the trap registers, the window,
the queues but for a push to aq, and the marks of earlier calls and stores. -/
structure HartKeeps (d : Option LSpec) (h h' : Hart) : Prop where
  win : ∀ n : BitVec 7, d ≠ some (.s n) → h'.s[n.toNat] = h.s[n.toNat]
  shadow : ∀ n : BitVec 4, d ≠ some (.h n) → h'.h[n.toNat] = h.h[n.toNat]
  pred : ∀ i : Fin 7, d ≠ some (.p i) → h'.p[i] = h.p[i]
  flg : h'.flg = h.flg
  tr : h'.tr = h.tr
  window : h'.base = h.base ∧ h'.size = h.size
  aq : d ≠ some .aq → h'.aq = h.aq
  marks : h'.slot = h.slot ∧ h'.callTag = h.callTag ∧ h'.pwf = h.pwf ∧ h'.horizon = h.horizon

/-- What a lap core keeps but for its links and its inbox. -/
structure CoreKeeps (c c' : LapCore) : Prop where
  sled : c'.sled = c.sled
  trig : c'.trig = c.trig
  toks : c'.toks = c.toks ∧ c'.tokVec = c.tokVec ∧ c'.victim = c.victim
  dog : c'.thr = c.thr ∧ c'.wen = c.wen

/-- What a cluster keeps but for what its cache holds and what its counters count. -/
structure ClusterKeeps (c c' : Cluster) : Prop where
  launch : c'.launch = c.launch
  regs : c'.mumode = c.mumode ∧ c'.clsvec = c.clsvec ∧ c'.cldeleg = c.cldeleg ∧ c'.cctd = c.cctd
  latch : c'.latch = c.latch ∧ c'.incoming = c.incoming
  tiles : c'.tiles = c.tiles
  bumps : c'.bumps = c.bumps
  shapes : c'.shapes = c.shapes
  ce : c'.ce = c.ce

/-- A word of hart e that writes only its destination d: every other register and every other hart, every byte of memory, every
full bit, every context, control core, die, table, host queue and launch stay. -/
structure OnlyWrites (e : Ent) (d : Option LSpec) (s t : State) : Prop where
  hart : HartKeeps d (s.hart e) (t.hart e)
  others : OtherHartsSame e s t
  mem : MemSame s t
  full : t.full = s.full ∧ t.bad = s.bad
  cores : ∀ k c, CoreKeeps (s.core k c) (t.core k c)
  clusters : ∀ k, ClusterKeeps (s.cluster k) (t.cluster k)
  ctxs : ∀ k c x, t.ctx k c x = s.ctx k c x
  ccs : ∀ k c, t.cc k c = s.cc k c
  dies : ∀ n, t.die n = s.die n
  tabs : ∀ n, t.tab n = s.tab n
  queues : ∀ q, t.hq q = s.hq q
  launches : t.launches = s.launches
  reqs : t.reqs = s.reqs
  time : t.clk = s.clk ∧ t.pt = s.pt

/-! ### Results in the spec's terms -/

/-- R102: a result at the type's width, extended to 64 bits by its kind: an i kind with its sign, an n kind with zeros. -/
def extTo (t : Ty) (x : BitVec (tyW t)) : W64 := if t.isSigned then x.signExtend 64 else x.setWidth 64

/-- An integer word of two sources writes f of them: A and B at the type's width w, and all of B (R102, R116). -/
def IntWrites (k : Alu → Instr) (f : (w : Nat) → BitVec w → BitVec w → W64 → BitVec w) : Prop :=
  ∀ o : Alu, o.ty.isInt = true → Writes (k o) o.d fun s e vals =>
    extTo o.ty (f (tyW o.ty) ((src s e vals o.a).setWidth _) ((srcB s e vals o.ty o.b).setWidth _) (srcB s e vals o.ty o.b))

/-- An integer word of one source writes f of it at the type's width. -/
def IntWrites1 (k : Alu1 → Instr) (f : (w : Nat) → BitVec w → BitVec w) : Prop :=
  ∀ o : Alu1, o.ty.isInt = true → Writes (k o) o.d fun s e vals => extTo o.ty (f (tyW o.ty) ((src s e vals o.a).setWidth _))

/-- The number of 1 bits. -/
def ones {w : Nat} (x : BitVec w) : Nat := (List.range w).countP fun i => x.getLsbD i

/-- How many bits from the top are 0. -/
def zerosAbove {w : Nat} (x : BitVec w) : Nat := ((List.range w).reverse.takeWhile fun i => !x.getLsbD i).length

/-- How many bits from the bottom are 0. -/
def zerosBelow {w : Nat} (x : BitVec w) : Nat := ((List.range w).takeWhile fun i => !x.getLsbD i).length

/-- R107, R109: the word leaves the rotation; its answer for destination d lands n clk later, and the thread goes on after the
word. -/
def LeavesFor (i : Instr) (e : Ent) (s s₁ : State) (n : Nat) (d : Option LSpec) (act : LandAct) (a : Ans) : Prop :=
  exec i s = .next (s₁.setHart e { Hart.settled (s₁.hart e) with
    rot := .out
    pend := some { insn := insnWord i, next := nextPc s e i, dst := d, acq := none, act := act, due := some (s.clk + n),
                   ans := some a, long := true } })

/-- R109, R116, R117: a division leaves the rotation for 40 clk; what lands is f of the operands, or, when the divisor is 0 at its
width, the fault 0x0E, which writes nothing. -/
def DivLands (k : Alu → Instr) (f : (w : Nat) → BitVec w → BitVec w → BitVec w) : Prop :=
  ∀ o : Alu, o.ty.isInt = true → ∀ e s vals s₁, Issues (k o) e s vals s₁ →
    let a := (src s e vals o.a).setWidth (tyW o.ty)
    let b := (srcB s e vals o.ty o.b).setWidth (tyW o.ty)
    if b = 0 then LeavesFor (k o) e s s₁ 40 none .plain (.err 0x0E 0)
    else LeavesFor (k o) e s s₁ 40 (some o.d) .plain (.ok (extTo o.ty (f (tyW o.ty) a b)))

/-- R125: the next position from a start at which two presence words both hold a value, with its ranks; bit 63 when there is none. -/
def nextCommon (a b c : W64) : W64 :=
  let start := (c.extractLsb' 24 8).toNat
  match (List.range 64).find? fun i => decide (start ≤ i) && a.getLsbD i && b.getLsbD i with
  | none => 0x8000000000000000
  | some i => (BitVec.ofNat 64 (i + 1) <<< 24) ||| (BitVec.ofNat 64 i <<< 16) ||| (BitVec.ofNat 64 (ones (b.setWidth i)) <<< 8)
      ||| BitVec.ofNat 64 (ones (a.setWidth i))

/-- R121: an order relation of two values at a type's width: by their signed readings for an i kind, by the unsigned for an n
kind. -/
def orderHolds (t : Ty) (rel : Rel) (a b : BitVec (tyW t)) : Bool :=
  let lt : Bool := if t.isSigned then a.slt b else a.ult b
  match rel with
  | .eq => a == b
  | .ne => a != b
  | .lt => lt
  | .le => lt || a == b
  | .gt => !(lt || a == b)
  | .ge => !lt
  | _ => false

/-- A predicate as the value a write of it carries. -/
def bit (b : Bool) : W64 := if b then 1 else 0

/-- A word of the lap set: one that has an encoding in the lap format (R68). -/
def isLapWord (i : Instr) : Bool := (encodeLap i).isSome

/-- The words whose only effect is the value they write to their destination. -/
def registerOnly : Instr → Bool
  | .nop | .srrd _ _ _ | .flgrd _ _ | .add _ | .sub _ | .mul _ | .mulh _ | .mulhn _ | .neg _ | .abs _ | .min _ | .max _ | .minn _
  | .maxn _ | .mov _ _ _ | .and _ | .or _ | .xor _ | .andn _ | .shl _ | .shr _ | .sra _ | .rot _ | .bfx _ _ _ _ _ | .bfi _ _ _ _ _
  | .pcnt _ | .clz _ | .ctz _ | .brev _ | .bswap _ | .lea _ _ _ _ | .cmp _ _ _ _ _ _ | .plog _ _ _ _ _ | .pmov _ _ _
  | .sel _ _ _ _ _ | .pfxc _ _ _ _ | .intx _ _ _ _ _ => true
  | _ => false

/-- The words of scalar floating point that are done in the clk they issue in. -/
def floatAtOnce : Instr → Bool
  | .fadd _ | .fsub _ | .fmul _ | .fma _ _ | .fmin _ | .fmax _ | .fcmp _ _ _ _ _ _ | .fclass _ | .fsgn _ _ | .cvt _ _ _ _ _ _ _ _ _
  | .cvtd _ | .cvte _ _ | .frnd _ => true
  | _ => false

/-! ### Floating point -/

/-- The number a finite value stands for. -/
def ratOf : FVal → ℚ
  | .num neg m e _ => (if neg then -1 else 1) * m * (2 : ℚ) ^ e
  | _ => 0

/-- A finite value held exactly. -/
def isFinite : FVal → Bool
  | .zero _ => true
  | .num _ m _ st => m != 0 && !st
  | _ => false

/-- A value is the sign neg, a number, and nothing beyond: what an exact result is before it is rounded. -/
def Exactly (x : FVal) (q : ℚ) : Prop := isFinite x = true ∧ ratOf x = q

/-- R44, R45, R54: an exact or special result with its flags, rounded to a type. -/
def rounded (t : Ty) (rm : Rm) (x : FVal × Flags) : Nat × Flags :=
  let r := roundVal (tyFmt t) rm false 0 x.1
  (r.1, x.2 ||| r.2)

/-- R55, R61, R107: a float word with these operands and this result: an offcut among the operands raises 0x0C, a flag whose trap is
enabled raises 0x0D with its causes, and otherwise the flags are set and the result is written. -/
def FloatWrites (i : Instr) (d : LSpec) (t : Ty) (xs : State → Ent → List (LSpec × W64) → List W64)
    (r : State → Ent → List (LSpec × W64) → Nat × Flags) : Prop :=
  ∀ e s vals s₁, Issues i e s vals s₁ →
  if (xs s e vals).any (isOffcut t) then Faults i s e { code := 0x0C }
  else
    let v := r s e vals
    let c := s.fpTraps e v.2
    if c = 0#5 then exec i s = .next (((s₁.raise e v.2).writeSpec e d (BitVec.ofNat 64 v.1)).goOn e (nextPc s e i))
    else Faults i s e { code := 0x0D, fpc := c }

/-- R109: a long float word: the same, its flags or its fault with the landing. -/
def FloatLands (i : Instr) (d : LSpec) (t : Ty) (clks : Nat) (xs : State → Ent → List (LSpec × W64) → List W64)
    (r : State → Ent → List (LSpec × W64) → Nat × Flags) : Prop :=
  ∀ e s vals s₁, Issues i e s vals s₁ →
  if (xs s e vals).any (isOffcut t) then Faults i s e { code := 0x0C }
  else
    let v := r s e vals
    let c := s.fpTraps e v.2
    if c = 0#5 then LeavesFor i e s s₁ clks (some d) (.flags v.2) (.ok (BitVec.ofNat 64 v.1))
    else LeavesFor i e s s₁ clks (some d) (.flags c) (.err 0x0D 0)

/-! ### Where an access finds its element -/

/-- R32, R227, R244, R282: an element of b bytes at physical address p of the issuer's local memory, named by ea, that it may reach at once:
aligned, no posted store of its own on the way to the word, its bank free in this clk, and no uncorrectable word in it. -/
structure LocalPlace (s : State) (k c n : Nat) (ea : W64) (b p : Nat) : Prop where
  space : ea.toNat / 2 ^ 15 = 2 ^ 48
  place : p = localBase k c + ea.toNat % 2 ^ 15
  aligned : ea.toNat % b = 0
  free : s.postedAt (.lap k c n) ea = false
  bank : s.bankFree k (localBank c p) = true
  good : ∀ w ∈ s.bad, w + 8 ≤ p ∨ p + b ≤ w

/-- R227, R244, R262, R282, R32: the same for an offset of the own cluster's scratchpad: its bank is free in this clk, it is in no kick
word and in no live tile buffer. -/
structure ScratchPlace (s : State) (k c n : Nat) (ea : W64) (b off : Nat) : Prop where
  space : ea.toNat / 2 ^ 22 = 0x24000000000
  place : off = ea.toNat % 2 ^ 22
  aligned : ea.toNat % b = 0
  free : s.postedAt (.lap k c n) ea = false
  good : ∀ w ∈ s.bad, w + 8 ≤ cspBase k + off ∨ cspBase k + off + b ≤ w
  bank : s.bankFree k (off / 8 % 64) = true
  plain : off / 8 * 8 ≠ 0x3FFF00 ∧ off / 8 * 8 ≠ 0x3FFF08
  tile : ∀ x ∈ (s.cluster k).tiles, x.2.state = 0 ∨ off + b ≤ x.2.base ∨ x.2.base + x.2.size ≤ off

/-- R36, R102, R103: n bytes of memory as a loaded value of a type. -/
def loaded (s : State) (t : Ty) (p : Nat) : W64 := extTo t (BitVec.ofNat _ (memRead s.mem p (tyW t / 8)))

/-- R36: the b bytes of memory from p hold the low bytes of a value, and every other byte is as before. -/
def Stores (p b : Nat) (v : W64) (s t : State) : Prop :=
  (∀ j, j < b → memGet t.mem (p + j) = v.extractLsb' (8 * j) 8) ∧ MemSameBut p b s t

/-- Memory and its error marks put back: what is left of a step beside its store. -/
def unstored (t s : State) : State := { t with mem := s.mem, bad := s.bad }

/-- A word that cannot be done yet parks its thread: registers, queues, memory and full bits as they are. -/
def ParksOn (i : Instr) (s : State) (e : Ent) (w : Wait) : Prop :=
  ∃ t : State, exec i s = .next t ∧ (t.hart e).rot = .parked ∧ (t.hart e).wait = w ∧ (t.hart e).pc = (s.hart e).pc
    ∧ (t.hart e).s = (s.hart e).s ∧ (t.hart e).p = (s.hart e).p ∧ (t.hart e).dq = (s.hart e).dq ∧ (t.hart e).aq = (s.hart e).aq
    ∧ MemSame s t ∧ t.full = s.full

/-- R250: the new value of an AMO at its width. -/
def amoResult (op : AmoOp) {w : Nat} (m b : BitVec w) : BitVec w :=
  match op with
  | .add => m + b
  | .and => m &&& b
  | .or => m ||| b
  | .xor => m ^^^ b
  | .min => if m.toInt ≤ b.toInt then m else b
  | .max => if m.toInt ≤ b.toInt then b else m
  | .minn => if m ≤ b then m else b
  | .maxn => if m ≤ b then b else m
  | .swap => b

/-- A request of entity e has been sent: the new entry of the requests, and the thread stands out of the rotation until its answer
lands in d. -/
def SendsAndWaits (i : Instr) (s : State) (e : Ent) (d : Option LSpec) (ea : W64) (op : AccOp) (ph : Phase) : Prop :=
  ∃ (t : State) (id : Nat) (r : Req), exec i s = .next t ∧ t.reqs = mput s.reqs id r
    ∧ r.who = e ∧ r.addr = ea ∧ r.op = op ∧ r.phase = ph ∧ r.posted = false ∧ r.pasid = s.entPasid e ∧ s.clk < r.due
    ∧ (t.hart e).rot = .out ∧ (t.hart e).pend.map (·.dst) = some d ∧ (t.hart e).pend.bind (·.ans) = none ∧ MemSame s t

/-- R245: a posted request of entity e has been sent, and its thread goes on. -/
def Posts (i : Instr) (s : State) (e : Ent) (ea : W64) (op : AccOp) (ph : Phase) : Prop :=
  ∃ (t : State) (id : Nat) (r : Req), exec i s = .next t ∧ t.reqs = mput s.reqs id r
    ∧ r.who = e ∧ r.addr = ea ∧ r.op = op ∧ r.phase = ph ∧ r.posted = true ∧ s.clk < r.due
    ∧ (t.hart e).rot = .ready ∧ (t.hart e).pc = nextPc s e i ∧ MemSame s t

/-- The word leaves the rotation for n clk with nothing to write, and acquires at a scope when it lands. -/
def LeavesFor' (i : Instr) (e : Ent) (s : State) (n : Nat) (acq : Option Scope) : Prop :=
  ∃ (t : State) (p : Pend), exec i s = .next t ∧ (t.hart e).rot = .out ∧ (t.hart e).pend = some p ∧ p.dst = none ∧ p.acq = acq
    ∧ p.due = some (s.clk + n) ∧ p.ans = some (.ok 0) ∧ p.next = nextPc s e i

/-- The word leaves the rotation; its answer for destination d lands n clk later, and the thread goes on after the word; the rest of
the machine stands as u says (R107, R345). -/
def Lands (i : Instr) (e : Ent) (s u : State) (n : Nat) (d : Option LSpec) (act : LandAct) (a : Ans) : Prop :=
  exec i s = .next (u.setHart e { Hart.settled (u.hart e) with
    rot := .out
    pend := some { insn := insnWord i, next := nextPc s e i, dst := d, acq := none, act := act, due := some (s.clk + n),
                   ans := some a, long := false } })

/-! ### Requests at their stations and homes -/

/-- A request somebody waits for: not posted, no prefetch, no read made ahead of its turn, its thread of this part and its launch not
gone. -/
def waited (r : Req) : Prop := r.posted = false ∧ r.op ≠ .pref ∧ r.early = false ∧ r.gone = false ∧ ∀ n, r.who ≠ .far n

/-- R31: an answer has reached the thread that waits for it. -/
def Told (r : Req) (a : Ans) (s t : State) : Prop :=
  waited r → ∀ p, (s.hart r.who).pend = some p → (t.hart r.who).pend = some { p with ans := some a }

/-- A request is done with, and every other stands as it did. -/
def Dropped (id : Nat) (s t : State) : Prop := mfind t.reqs id = none ∧ ∀ j, j ≠ id → mfind t.reqs j = mfind s.reqs j

/-- Nothing stands between the homes and their memory: no uncorrectable word, no registration, no tolerance region and no
allowance. -/
def PlainHomes (s : State) : Prop :=
  s.bad = [] ∧ ∀ d, (s.die d).regs = [] ∧ (s.die d).regions = [] ∧ (s.die d).allows = [] ∧ (s.die d).forced = []

/-! ### Bundles -/

/-- R86: the bundle of eight nops. -/
def nopBundle : Bundle := { s := .nop, v0 := .nop, v1 := .nop, m := .nop, ld := .nop, st := .nop, cp := .nop, sy := .nop }

/-- R145, R146: a context issues within its bundle memory while nothing else is under way on its control core: no result is pending, no row
leaves, no register is shown as it was, no bank is waited for, and its jig neither records nor runs. -/
structure CtxIssues (s : State) (k cc x : Nat) : Prop where
  actor : s.actor = .ctx k cc x
  inside : (s.ctx k cc x).pc.toNat < (s.cc k cc).loaded
  jig : (s.ctx k cc x).jig.running = false ∧ (s.ctx k cc x).jig.recording = false
  still : (s.cc k cc).pending = [] ∧ (s.cc k cc).overlay = [] ∧ (s.cc k cc).flq = [] ∧ (s.cc k cc).ldNeed = none

/-- R142, R145: a bundle with no branch issues: the context goes on to the next bundle, no register of it has changed yet, nor has any other
context or a vector register; P says what else is so. -/
def Bundles (b : Bundle) (s : State) (k cc x : Nat) (P : State → Prop) : Prop :=
  let t := s.ctx k cc x
  ∃ u : State, exec (.bundleIssue b) s = .next u
    ∧ (let w := u.ctx k cc x
       w.pc = t.npc ∧ w.npc = t.nnpc ∧ w.nnpc = t.nnpc + 64 ∧ w.c = t.c ∧ w.q = t.q ∧ w.m = t.m ∧ w.flg = t.flg ∧ w.state = t.state)
    ∧ (∀ y, y ≠ x → u.ctx k cc y = s.ctx k cc y) ∧ (u.cc k cc).v = (s.cc k cc).v ∧ P u

/-- R150: the syllable in a slot raises a fault: the bundle has no effect, and its context takes the trap. -/
def BundleFaults (b : Bundle) (s : State) (k cc x : Nat) (t : Trap) (slot : Nat) : Prop :=
  ∃ u : State, u.ctx k cc x = s.ctx k cc x ∧ MemSame s u ∧ exec (.bundleIssue b) s = .next (u.ctxTrap k cc x t slot false)

/-- R146: the bundle waits in a frozen clk that counts: its context stays as it is. -/
def BundleWaits (b : Bundle) (s : State) (k cc x : Nat) : Prop :=
  ∃ u : State, exec (.bundleIssue b) s = .next u ∧ u.ctx k cc x = s.ctx k cc x ∧ (u.cc k cc).freeze = max 1 (s.cc k cc).freeze + 1
    ∧ (u.cc k cc).pending = (s.cc k cc).pending ∧ MemSame s u

/-- R149: the bundle is held: its context gives up its turn and waits with a code. -/
def BundleHeld (b : Bundle) (s : State) (k cc x code : Nat) : Prop :=
  ∃ u : State, exec (.bundleIssue b) s = .next u ∧ u.ctx k cc x = { s.ctx k cc x with state := 3, wait := code } ∧ (u.cc k cc).yield = true
    ∧ MemSame s u

/-- R140, R142: what a pending result leaves of a register that holds old. -/
def landed (p : PWrite) (old : VReg) : VReg := match p.mask with | none => p.val | some m => (old &&& ~~~m) ||| (p.val &&& m)

/-! ### Fetching -/

/-- R36, R68, R70: the words at a physical address are those of instruction i: one, or one and its literal word. -/
def CodeAt (s : State) (a : Nat) (i : Instr) : Prop :=
  let w := s.rd64 a
  if w.extractLsb' 58 2 = 0#2 then decodeWords [w] = some i else decodeWords [w, s.rd64 (a + 8)] = some i

end Sys2Proof
end

