-- ==== Sys2Proof/Certificates/Slice0/Obligations.lean ====
section
/-! DEFINITION. The statements for the provers. A statement made of several claims names them; each claim says by its own docstring
which rules of spec/ it formalises. -/

open Sys2Proof Sys2Proof.Machine

/-- R116 with R102, R107 and R109: what every integer, bit and shift word writes, at every type and every operand; the four
divisions land theirs 40 clk later.
Completes: add, sub, mul, mulh, mulhn, div, divn, rem, remn, neg, abs, min, max, minn, maxn, and, or, xor, andn, shl, shr, sra, rot, pcnt, clz, ctz, brev, bswap. -/
def Obligations.IntegerResults : Prop :=
  IntWrites .add (fun _ a b _ => a + b) ∧ IntWrites .sub (fun _ a b _ => a - b) ∧ IntWrites .mul (fun _ a b _ => a * b)
  ∧ IntWrites .mulh (fun w a b _ => BitVec.ofInt w (a.toInt * b.toInt / 2 ^ w))
  ∧ IntWrites .mulhn (fun w a b _ => BitVec.ofNat w (a.toNat * b.toNat / 2 ^ w))
  ∧ DivLands .div (fun w a b => BitVec.ofInt w (a.toInt.tdiv b.toInt)) ∧ DivLands .divn (fun _ a b => a / b)
  ∧ DivLands .rem (fun w a b => BitVec.ofInt w (a.toInt - b.toInt * a.toInt.tdiv b.toInt)) ∧ DivLands .remn (fun _ a b => a % b)
  ∧ IntWrites1 .neg (fun _ a => -a) ∧ IntWrites1 .abs (fun w a => BitVec.ofInt w |a.toInt|)
  ∧ IntWrites .min (fun _ a b _ => if a.toInt ≤ b.toInt then a else b)
  ∧ IntWrites .max (fun _ a b _ => if a.toInt ≤ b.toInt then b else a)
  ∧ IntWrites .minn (fun _ a b _ => if a ≤ b then a else b) ∧ IntWrites .maxn (fun _ a b _ => if a ≤ b then b else a)
  ∧ IntWrites .and (fun _ a b _ => a &&& b) ∧ IntWrites .or (fun _ a b _ => a ||| b) ∧ IntWrites .xor (fun _ a b _ => a ^^^ b)
  ∧ IntWrites .andn (fun _ a b _ => a &&& ~~~b) ∧ IntWrites .shl (fun w a _ b => a <<< (b.toNat % w))
  ∧ IntWrites .shr (fun w a _ b => a >>> (b.toNat % w)) ∧ IntWrites .sra (fun w a _ b => a.sshiftRight (b.toNat % w))
  ∧ IntWrites .rot (fun w a _ b => a.rotateLeft (b.toNat % w))
  ∧ IntWrites1 .pcnt (fun w a => BitVec.ofNat w (ones a)) ∧ IntWrites1 .clz (fun w a => BitVec.ofNat w (zerosAbove a))
  ∧ IntWrites1 .ctz (fun w a => BitVec.ofNat w (zerosBelow a))
  ∧ IntWrites1 .brev (fun w a => BitVec.ofFnLE fun i : Fin w => a.getLsbD (w - 1 - i))
  ∧ IntWrites1 .bswap (fun w a => BitVec.ofFnLE fun i : Fin w => a.getLsbD (8 * (w / 8 - 1 - i / 8) + i % 8))

/-- R118, R119, R124, R125: fields, moves, addresses and the intersect words. BFX gives bit pos + i of A as bit i for the len low bits
and zeros above; BFI puts the len low bits of A at pos and keeps every other bit of D; MOV gives all of B, LEA the sum of A and
the displacement, PFXC the sum of B and the number of 1 bits of A, INTX the next common position. The field len of the
instruction holds the length less 1. -/
def Claims.FieldAndMoveResults : Prop :=
  (∀ g d a pos len, Writes (.bfx g d a pos len) d fun s e vals =>
    BitVec.ofFnLE fun i : Fin 64 => decide (i.val ≤ len.toNat) && (src s e vals a).getLsbD (pos.toNat + i))
  ∧ (∀ g d a pos len, Writes (.bfi g d a pos len) d fun s e vals =>
    BitVec.ofFnLE fun i : Fin 64 =>
      if pos.toNat ≤ i.val ∧ i.val ≤ pos.toNat + len.toNat then (src s e vals a).getLsbD (i - pos.toNat) else (src s e vals d).getLsbD i)
  ∧ (∀ g d b, Writes (.mov g d b) d fun s e vals => srcB s e vals .b64 b)
  ∧ (∀ g d a disp, Writes (.lea g d a disp) d fun s e vals => src s e vals a + dispValue disp)
  ∧ (∀ g d a b, Writes (.pfxc g d a b) d fun s e vals => src s e vals b + BitVec.ofNat 64 (ones (src s e vals a)))
  ∧ ∀ g d a b c, Writes (.intx g d a b c) d fun s e vals => nextCommon (src s e vals a) (src s e vals b) (src s e vals c)

/-- R120 to R123: what the predicate words write. CMP writes whether the relation holds of A and B at the type's width, PLOG the bit
2 pa + pb of its truth table, PMOV whether A is nonzero (a predicate as 1 or 0), SEL A when its predicate is 1 and else B. -/
def Claims.PredicateResults : Prop :=
  (∀ g ty rel p a b, ty.isInt = true → rel.isOrder = true → Writes (.cmp g ty rel p a b) (.p p) fun s e vals =>
    bit (orderHolds ty rel ((src s e vals a).setWidth _) ((srcB s e vals ty b).setWidth _)))
  ∧ (∀ g p pa pb tt, Writes (.plog g p pa pb tt) (.p p) fun s e _ =>
    bit (tt.getLsbD (2 * (s.hart e).p[pa].toNat + (s.hart e).p[pb].toNat)))
  ∧ (∀ g d a, Writes (.pmov g d a) d fun s e vals => bit (src s e vals a != 0))
  ∧ ∀ g d a b p, Writes (.sel g d a b p) d fun s e vals =>
    if (s.hart e).p[p] then src s e vals a else srcB s e vals .b64 b

/-- Fields, moves, comparisons and predicates: their results.
Completes: bfx, bfi, mov, lea, pfxc, intx, cmp, plog, pmov, sel. -/
def Obligations.MoveFieldAndPredicateResults : Prop := Claims.FieldAndMoveResults ∧ Claims.PredicateResults

/-- R126, R73: where the control-flow words take the thread and the link they leave; a target that is no multiple of 8 raises 0x04 and
the pc does not change. LOOP writes D whether or not it branches. -/
def Claims.Branches : Prop :=
  ∀ e s vals s₁,
  (Issues .nop e s vals s₁ → exec .nop s = .next (s₁.goOn e ((s.hart e).pc + 8)))
  ∧ (∀ g disp, Issues (.br g disp) e s vals s₁ →
      let t := (s.hart e).pc + 8 * disp.signExtend 64
      if t.toNat % 8 = 0 then exec (.br g disp) s = .next (s₁.goOn e t) else Faults (.br g disp) s e { code := 0x04, addr := t })
  ∧ (∀ g d a, Issues (.jmp g d a) e s vals s₁ →
      let t := src s e vals a
      if t.toNat % 8 = 0 then exec (.jmp g d a) s = .next ((s₁.writeSpec e d ((s.hart e).pc + 8)).goOn e t)
      else Faults (.jmp g d a) s e { code := 0x04, addr := t })
  ∧ (∀ g d disp, Issues (.call g d disp) e s vals s₁ →
      let t := (s.hart e).pc + 8 * disp.signExtend 64
      if t.toNat % 8 = 0 then exec (.call g d disp) s = .next ((s₁.writeSpec e d ((s.hart e).pc + 8)).goOn e t)
      else Faults (.call g d disp) s e { code := 0x04, addr := t })
  ∧ (∀ g a, Issues (.ret g a) e s vals s₁ →
      let t := src s e vals a
      if t.toNat % 8 = 0 then exec (.ret g a) s = .next (s₁.goOn e t) else Faults (.ret g a) s e { code := 0x04, addr := t })
  ∧ ∀ g d disp, Issues (.loop g d disp) e s vals s₁ →
      let v := src s e vals d - 1
      let t := (s.hart e).pc + 8 * disp.signExtend 64
      if v = 0 then exec (.loop g d disp) s = .next ((s₁.writeSpec e d v).goOn e ((s.hart e).pc + 8))
      else if t.toNat % 8 = 0 then exec (.loop g d disp) s = .next ((s₁.writeSpec e d v).goOn e t)
      else Faults (.loop g d disp) s e { code := 0x04, addr := t }

/-- R127, R203, R241, R282: HALT ends the thread: it halts with its data queue empty and its gathers still to land, its registers keep their
values, and no other hart and no byte of memory changes. With a posted write failure on record it takes 0x14 instead, which clears the
record. While a posted store of the thread has not taken its place, HALT has no effect and the thread issues it again. -/
def Claims.HaltEnds : Prop :=
  ∀ g e s vals s₁, Issues (.halt g) e s vals s₁ →
  if s.postedCount e ≠ 0 then exec (.halt g) s = .next s
  else match (s.hart e).pwf with
  | none => ∃ t, exec (.halt g) s = .next t ∧ (t.hart e).rot = .halted ∧ (t.hart e).dq = []
      ∧ (t.hart e).aq = (s.hart e).flown ++ (s.hart e).aq ∧ HartKeeps (some .aq) (s.hart e) (t.hart e) ∧ OtherHartsSame e s t ∧ MemSame s t
  | some a => exec (.halt g) s = .next
      ((s.setHart e { s.hart e with pwf := none }).takeTrap e { code := 0x14, addr := a } (s.hart e).pc (insnWord (.halt g)))

/-- Control-flow words: target, link, misaligned target; HALT ends the thread.
Completes: nop, br, jmp, call, ret, loop, halt. -/
def Obligations.ControlFlow : Prop := Claims.Branches ∧ Claims.HaltEnds

/-- R205: how a lap thread enters its trap. A delegated fault outside a handler goes to the vector with TEPC, level and hnd set; any
other is escalated, and the thread leaves the rotation, trapped. -/
def Obligations.TrapEntry : Prop :=
  ∀ (s : State) k c n (t : Trap) (epc insn : W64),
  let e := Ent.lap k c n
  let h := s.hart e
  let s' := s.takeTrap e t epc insn
  let h' := s'.hart e
  let deleg : Bool := t.scall || (!neverDelegated t.code && (s.cluster k).cldeleg.getLsbD t.code)
  h'.tr.addr = t.addr ∧ h'.tr.insn = insn
  ∧ (if deleg = true ∧ h.tr.hnd = false ∧ (s.cluster k).clsvec ≠ 0 then
      h'.rot = .ready ∧ h'.pc = (s.cluster k).clsvec ∧ h'.tr.epc = epc ∧ h'.tr.level = 1 ∧ h'.tr.hnd = true ∧ h'.tr.cause = t.cause
    else h'.rot = .trapped ∧ h'.tr.cause = t.cause ||| (1#64 <<< 26) ∧ h'.tr.epc = h.tr.epc ∧ h'.tr.level = h.tr.level
      ∧ h'.tr.hnd = h.tr.hnd)

/-- R205: what entering a trap leaves: the thread's registers, flags, queues and scratch register, every other hart and record, and
every byte of memory. -/
def Claims.TrapEntryFrame : Prop :=
  ∀ (s : State) k c n (t : Trap) (epc insn : W64),
  let e := Ent.lap k c n
  let s' := s.takeTrap e t epc insn
  (s'.hart e).s = (s.hart e).s ∧ (s'.hart e).h = (s.hart e).h ∧ (s'.hart e).p = (s.hart e).p ∧ (s'.hart e).flg = (s.hart e).flg
  ∧ (s'.hart e).aq = (s.hart e).aq ∧ (s'.hart e).dq = (s.hart e).dq ∧ (s'.hart e).tr.scr = (s.hart e).tr.scr
  ∧ OtherHartsSame e s s' ∧ MemSame s s' ∧ s'.cores = s.cores ∧ s'.clusters = s.clusters ∧ s'.ctxs = s.ctxs ∧ s'.reqs = s.reqs

/-- R201: the fields of the cause word of a fault, and that its reserved bits are 0. -/
def Claims.CauseLayout : Prop :=
  ∀ t : Trap, t.code < 256 →
  t.cause.extractLsb' 0 8 = BitVec.ofNat 8 t.code ∧ t.cause.extractLsb' 8 8 = t.imm ∧ t.cause.extractLsb' 16 5 = t.fpc
  ∧ t.cause.extractLsb' 21 4 = 0#4 ∧ t.cause.getLsbD 25 = t.scall ∧ t.cause.extractLsb' 26 6 = 0#6
  ∧ t.cause.extractLsb' 32 10 = t.info ∧ t.cause.extractLsb' 42 22 = 0#22

/-- What taking a fault leaves unchanged; the fields of the cause word. -/
def Obligations.TrapFrameAndCause : Prop := Claims.TrapEntryFrame ∧ Claims.CauseLayout

/-- R212: TRAP raises 0x1D and SCALL a delegated 0x1D with the address after the word as the resume point; BKPT raises 0x1C, or stops
the hart for the debugger when halt-on-break is armed; HRET goes to TEPC at level 0 with hnd clear, where a posted write
failure that waited for its return may be raised (R204), or raises 0x04 when TEPC is no multiple of 8.
Completes: trap, scall, bkpt, hret. -/
def Obligations.SystemCalls : Prop :=
  ∀ e s vals s₁,
  (∀ g imm, Issues (.trap g imm) e s vals s₁ → exec (.trap g imm) s = .next
      (s.takeTrap e { code := 0x1D, imm := imm } ((s.hart e).pc + 8) (insnWord (.trap g imm))))
  ∧ (∀ g imm, Issues (.scall g imm) e s vals s₁ → exec (.scall g imm) s = .next
      (s.takeTrap e { code := 0x1D, imm := imm, scall := true } ((s.hart e).pc + 8) (insnWord (.scall g imm))))
  ∧ (∀ g imm, Issues (.bkpt g imm) e s vals s₁ →
      if s.haltOnBreak then ∃ t, exec (.bkpt g imm) s = .next t ∧ (t.hart e).rot = .debug ∧ (t.hart e).pc = (s.hart e).pc
        ∧ OnlyWrites e none s t
      else Faults (.bkpt g imm) s e { code := 0x1C, imm := imm })
  ∧ ∀ g, Issues (.hret g) e s vals s₁ →
      let p := (s.hart e).tr.epc
      if p.toNat % 8 = 0 then
        let back := { (s.hart e).tr with level := 0, hnd := false }
        exec (.hret g) s = .next ((s.setHart e { s.hart e with pc := p, tr := back, lateHeld := false }).goOn e p)
      else Faults (.hret g) s e { code := 0x04, addr := p }

/-- R198, R212: SRRD and FLGRD complete: what they write for every system register they may read, each as it stands, zero-extended. That any
level may read a CTXCMD is the model's reading (log 84). -/
def Claims.SystemRegisterReads : Prop :=
  (∀ g d, Writes (.flgrd g d) d fun s e _ => (s.hart e).flg)
  ∧ (∀ g d, Writes (.srrd g d 0x000) d fun s e _ => (s.hart e).flg)
  ∧ (∀ g d, Writes (.srrd g d 0x001) d fun s e _ => BitVec.ofNat 64 (s.level e + (if (s.hart e).tr.hnd then 4 else 0)))
  ∧ (∀ g d, Writes (.srrd g d 0x002) d fun s e _ => (s.hart e).tr.epc)
  ∧ (∀ g d, Writes (.srrd g d 0x003) d fun s e _ => (s.hart e).tr.cause)
  ∧ (∀ g d, Writes (.srrd g d 0x004) d fun s e _ => (s.hart e).tr.addr)
  ∧ (∀ g d, Writes (.srrd g d 0x005) d fun s e _ => (s.hart e).tr.insn)
  ∧ (∀ g d, Writes (.srrd g d 0x006) d fun s e _ => (s.hart e).tr.scr)
  ∧ (∀ g d, Writes (.srrd g d 0x200) d fun s e _ => (s.cluster (entKidReg e)).clsvec)
  ∧ (∀ g d, Writes (.srrd g d 0x201) d fun s e _ => (s.cluster (entKidReg e)).cldeleg.setWidth 64)
  ∧ (∀ g d, Writes (.srrd g d 0x202) d fun s e _ => (s.cluster (entKidReg e)).cctd.setWidth 64)
  ∧ (∀ g d, Writes (.srrd g d 0x203) d fun s e _ => BitVec.ofNat 64 (s.cluster (entKidReg e)).mumode)
  ∧ ∀ (c : Fin 2) (x : Fin 4) (g : Guard) (d : LSpec),
    let n (b : Nat) : BitVec 12 := BitVec.ofNat 12 (b + 4 * c + x)
    Writes (.srrd g d 0x100) d (fun _ e _ => match e with | .lap k c _ => BitVec.ofNat 64 (Config.lcap k c) | _ => 0)
    ∧ Writes (.srrd g d (n 0x210)) d (fun s e _ => s.ctxSt (entKidReg e) c x)
    ∧ (Writes (.srrd g d (n 0x218)) d fun s e _ => (s.ctx (entKidReg e) c x).flg)
    ∧ (Writes (.srrd g d (n 0x220)) d fun s e _ => (s.ctx (entKidReg e) c x).cau)
    ∧ (Writes (.srrd g d (n 0x228)) d fun s e _ => (s.ctx (entKidReg e) c x).epc)
    ∧ (Writes (.srrd g d (n 0x230)) d fun s e _ => (s.ctx (entKidReg e) c x).adr)
    ∧ (Writes (.srrd g d (n 0x238)) d fun _ _ _ => 0)
    ∧ Writes (.srrd g d (n 0x240)) d fun s e _ => bit (s.ctx (entKidReg e) c x).wchk

/-- R198, R199, R202, R207, R212, R213: SRWR of every register it may write, FLGCLR and MODESET of a context's wchk complete: they change the one
field, at once, and the thread goes on after the word. A write of CTXCMD does what the command of its low six bits does, and nothing
when that is none. -/
def Claims.SystemRegisterWrites : Prop :=
  ∀ e s vals s₁,
  (∀ g a, Issues (.srwr g a 0x000) e s vals s₁ → exec (.srwr g a 0x000) s =
      .next ((s₁.setHart e { s₁.hart e with flg := flgWrite (s.hart e).flg (src s e vals a) }).goOn e ((s.hart e).pc + 8)))
  ∧ (∀ g a, Issues (.srwr g a 0x002) e s vals s₁ → exec (.srwr g a 0x002) s =
      .next ((s₁.setHart e { s₁.hart e with tr := { (s.hart e).tr with epc := src s e vals a } }).goOn e ((s.hart e).pc + 8)))
  ∧ (∀ g a, Issues (.srwr g a 0x006) e s vals s₁ → exec (.srwr g a 0x006) s =
      .next ((s₁.setHart e { s₁.hart e with tr := { (s.hart e).tr with scr := src s e vals a } }).goOn e ((s.hart e).pc + 8)))
  ∧ (∀ g m, Issues (.flgclr g m) e s vals s₁ → exec (.flgclr g m) s =
      .next ((s₁.setHart e { s₁.hart e with flg := BitVec.ofFnLE fun i : Fin 64 => (s.hart e).flg.getLsbD i && !m.getLsbD i }).goOn e
        ((s.hart e).pc + 8)))
  ∧ (∀ g a, Issues (.srwr g a 0x202) e s vals s₁ → ∃ t : State, exec (.srwr g a 0x202) s = .next (t.goOn e ((s.hart e).pc + 8))
      ∧ (t.cluster (entKidReg e)).cctd = (src s e vals a).setWidth 10 ∧ t.hart e = s₁.hart e)
  ∧ (∀ g a, Issues (.srwr g a 0x200) e s vals s₁ → ∃ t : State, exec (.srwr g a 0x200) s = .next (t.goOn e ((s.hart e).pc + 8))
      ∧ (t.cluster (entKidReg e)).clsvec = src s e vals a ∧ t.hart e = s₁.hart e)
  ∧ (∀ g a, Issues (.srwr g a 0x201) e s vals s₁ → ∃ t : State, exec (.srwr g a 0x201) s = .next (t.goOn e ((s.hart e).pc + 8))
      ∧ t.hart e = s₁.hart e ∧ ∀ i, i < 32 → (t.cluster (entKidReg e)).cldeleg.getLsbD i =
          ((src s e vals a).getLsbD i && decide (i ∉ [0, 15, 16, 22, 31])))
  ∧ ∀ (c : Fin 2) (x : Fin 4) (g : Guard) (a : LSpec),
    let n (b : Nat) : BitVec 12 := BitVec.ofNat 12 (b + 4 * c + x)
    let old := s.ctx (entKidReg e) c x
    (Issues (.srwr g a (n 0x218)) e s vals s₁ → ∃ t : State, exec (.srwr g a (n 0x218)) s = .next (t.goOn e ((s.hart e).pc + 8))
      ∧ t.ctx (entKidReg e) c x = { old with flg := flgWrite old.flg (src s e vals a) } ∧ t.hart e = s₁.hart e)
    ∧ (Issues (.srwr g a (n 0x238)) e s vals s₁ →
      let v := src s e vals a
      let Does (t : State) : Prop := exec (.srwr g a (n 0x238)) s = .next (t.goOn e ((s.hart e).pc + 8))
      let k := entKidReg e
      (v.extractLsb' 0 6 = 1#6 → ∃ t, exec (.ctxResume k c x) s₁ = .next t ∧ Does t)
      ∧ (v.extractLsb' 0 6 = 2#6 → ∃ t, exec (.ctxResumeAt k c x v) s₁ = .next t ∧ Does t)
      ∧ (v.extractLsb' 0 6 = 3#6 → ∃ t, exec (.ctxKill k c x) s₁ = .next t ∧ Does t)
      ∧ (3 < (v.extractLsb' 0 6).toNat ∨ v.extractLsb' 0 6 = 0#6 → Does s₁))
    ∧ (Issues (.modeset g a (n 0x240)) e s vals s₁ → ∃ t : State, exec (.modeset g a (n 0x240)) s = .next (t.goOn e ((s.hart e).pc + 8))
      ∧ t.ctx (entKidReg e) c x = { old with wchk := (src s e vals a).getLsbD 0 } ∧ t.hart e = s₁.hart e)

/-- R199, R6: a write of FLG: the flags and enables take the value written, the reserved bits stay 0, and a drm of 5 to 7 leaves drm
as it was. -/
def Claims.FlagRegisterWrite : Prop :=
  ∀ old new : W64,
  (∀ i, i < 8 → (flgWrite old new).getLsbD i = new.getLsbD i)
  ∧ (∀ i, 11 ≤ i → (flgWrite old new).getLsbD i = false)
  ∧ (flgWrite old new).extractLsb' 8 3 = if 5 ≤ (new.extractLsb' 8 3).toNat then old.extractLsb' 8 3 else new.extractLsb' 8 3

/-- R213: MODESET of MUMODE takes the thread out of the rotation with its write pending. The write waits twice: until no step is queued and
no bundle frozen, once, and then for the next clk that is a multiple of 128, in which the mode is written, the code 3 leaving it as it
was, and the thread rejoins. -/
def Claims.ArrayModeWrite : Prop :=
  (∀ g a e s vals s₁, Issues (.modeset g a 0x203) e s vals s₁ → ∃ t, exec (.modeset g a 0x203) s = .next t
      ∧ (t.hart e).rot = .out ∧ (t.cluster (entKidReg e)).mumode = (s.cluster (entKidReg e)).mumode
      ∧ (t.hart e).pend.map (·.act) = some (.mumode ((src s e vals a).toNat % 4) false))
  ∧ ∀ k c n (s : State) (p : Pend) (v : Nat) (idle : Bool), (s.hart (.lap k c n)).pend = some p → p.act = .mumode v idle → p.dst = none →
    p.acq = none → NoneDue (s.hart (.lap k c n)) →
    let now : Prop := idle = true ∨ ∀ i : Fin 2, (s.cc k i).queue = [] ∧ (s.cc k i).run = none ∧ (s.cc k i).freeze = 0
    (s.clk % 128 = 0 → now → ∃ t, exec (.mumodeWrite (.lap k c n)) s = .next t
        ∧ (t.cluster k).mumode = (if v < 3 then v else (s.cluster k).mumode)
        ∧ (t.hart (.lap k c n)).rot = .ready ∧ (t.hart (.lap k c n)).pc = p.next ∧ (t.hart (.lap k c n)).pend = none)
    ∧ (s.clk % 128 ≠ 0 ∨ ¬now → ∃ b : Bool, (b = true ↔ now) ∧
        exec (.mumodeWrite (.lap k c n)) s =
          .next (s.setHart (.lap k c n) { s.hart (.lap k c n) with pend := some { p with act := .mumode v b } }))

/-- System registers and flags: what is read, what is written, the array mode.
Completes: srrd, srwr, flgrd, flgclr, modeset, mumodeWrite. -/
def Obligations.SystemRegisters : Prop := Claims.SystemRegisterReads ∧ Claims.SystemRegisterWrites ∧ Claims.FlagRegisterWrite ∧ Claims.ArrayModeWrite

/-- R72, R83, R85: the checks of a word come first, in their order and whatever its guard is: a word or specifier that may not be
used on this hart raises 0x01, then one that needs a higher level 0x03, then a register at or above the window size, 128 of an engine, 0x02. -/
def Claims.ChecksOfAWord : Prop :=
  ∀ i e s, isLapWord i = true → s.actor = e → entIsHart e = true →
  let window := match e with | .lap _ _ _ => (s.hart e).size | _ => 128
  let wrong := lapRunsOn i e = false ∨ ∃ r ∈ lapSpecs i, specRunsOn r e = false
  (wrong → ∃ t, Faults i s e t ∧ t.code = 0x01)
  ∧ (¬wrong → s.level e < lapLevel i → Faults i s e { code := 0x03 })
  ∧ (¬wrong → lapLevel i ≤ s.level e → (∀ g, i ≠ .hret g) → ∀ n, .s n ∈ lapSpecs i → window ≤ n.toNat →
      ∃ m, .s m ∈ lapSpecs i ∧ window ≤ m.toNat ∧ Faults i s e { code := 0x02, info := m.setWidth 10 })
  ∧ ∀ g, i = .hret g → lapLevel i ≤ s.level e → (s.hart e).tr.hnd = false → Faults i s e { code := 0x03 }

/-- R71: a word whose guard does not execute only moves its thread past it and its literal. -/
def Claims.GuardedOff : Prop :=
  ∀ i e s, isLapWord i = true → s.actor = e → entIsHart e = true → lapCheck i e s = none →
  guardHolds (s.hart e) (lapGuard i) = false → exec i s = .next (s.goOn e (nextPc s e i))

/-- R31, R72: a lap word of a hart always goes on to a state: it is done, it parks, or it takes a fault. -/
def Claims.HartsGoOn : Prop := ∀ i s, isLapWord i = true → entIsHart s.actor = true → ∃ t, exec i s = .next t

/-- The checks of a word, a guard that does not hold, and that a hart always goes on. -/
def Obligations.IssueChecks : Prop := Claims.ChecksOfAWord ∧ Claims.GuardedOff ∧ Claims.HartsGoOn

/-- R74, R84, R104: what a source that is not popped reads as. -/
def Claims.SourceValues : Prop :=
  ∀ i e s vals s₁, Issues i e s vals s₁ →
  (∀ n, src s e vals (.s n) = (s.hart e).s[n.toNat]) ∧ (∀ n, src s e vals (.h n) = (s.hart e).h[n.toNat])
  ∧ (∀ p, src s e vals (.p p) = bit (s.hart e).p[p]) ∧ src s e vals .z = 0
  ∧ src s e vals .lap = BitVec.ofNat 64 (s.clk / 16) ∧ src s e vals .clk = BitVec.ofNat 64 (s.pt % 2 ^ 48)
  ∧ ∀ (k c n : Nat),
    (e = .lap k c n → src s e vals .tid = BitVec.ofNat 64 n ∧ src s e vals .cid = BitVec.ofNat 64 c ∧ src s e vals .kid = BitVec.ofNat 64 k)
    ∧ (e = .ce k → src s e vals .tid = 0 ∧ src s e vals .cid = 32 ∧ src s e vals .kid = BitVec.ofNat 64 k)
    ∧ (e = .re k → src s e vals .tid = 0 ∧ src s e vals .cid = 33 ∧ src s e vals .kid = BitVec.ofNat 64 (k * 128))
    ∧ (e = .hart k → src s e vals .tid = 0 ∧ src s e vals .cid = 34 ∧ src s e vals .kid = BitVec.ofNat 64 (k * 128))

/-- R75, R108, R110, R114, R320: what a popped source reads as, and what is left: a queue, link or inbox gives its oldest word once, however
many fields name it, and one that no field names keeps its words. -/
def Claims.PoppedSources : Prop :=
  ∀ i e s vals s₁, Issues i e s vals s₁ →
  (.dq ∈ lapSrcs i → ∃ w, (s.hart e).dq = .word w :: (s₁.hart e).dq ∧ src s e vals .dq = w)
  ∧ (.dq ∉ lapSrcs i → (s₁.hart e).dq = (s.hart e).dq)
  ∧ ∀ k c n, e = .lap k c n →
    (∀ d, .port d ∈ lapSrcs i →
      let l := (s.core k (neighbour c d)).link (Dir.back d)
      let l' := (s₁.core k (neighbour c d)).link (Dir.back d)
      ∃ t w, l.words = (t, w) :: l'.words ∧ t < s.clk ∧ src s e vals (.port d) = w ∧ l'.popAt = some s.clk)
    ∧ (.mb ∈ lapSrcs i → ∃ m rest, (s.core k c).inbox = m :: rest ∧ src s e vals .mb = m.words.headD 0
        ∧ (s₁.core k c).inbox = if m.words.length ≤ 1 then rest else { m with words := m.words.tail, head := false } :: rest)
    ∧ (.mb ∉ lapSrcs i → (s₁.core k c).inbox = (s.core k c).inbox)

/-- R70: what a literal gives as source B: 64 bits as they stand; 32 bits extended with their sign for an integer type and for b64, and
as the low bits of the pattern for f32, f16 and bf16. A displacement of 19 or 32 bits is extended with its sign. -/
def Claims.LiteralOperands : Prop :=
  ∀ (rd : LSpec → W64) (t : Ty),
  (∀ v, bValue rd t (.lit64 v) = v)
  ∧ (∀ v : W32, t.isInt = true ∨ t = .b64 → (bValue rd t (.lit32 v)).toInt = v.toInt)
  ∧ (∀ v : W32, t = .f32 ∨ t = .f16 ∨ t = .bf16 → (bValue rd t (.lit32 v)).toNat = v.toNat)
  ∧ (∀ v, (dispValue (.imm v)).toInt = v.toInt) ∧ (∀ v, (dispValue (.lit32 v)).toInt = v.toInt)
  ∧ ∀ v, dispValue (.lit64 v) = v

/-- What a word reads its sources as: registers, pops and literals. -/
def Obligations.Sources : Prop := Claims.SourceValues ∧ Claims.PoppedSources ∧ Claims.LiteralOperands

/-- R110, R111, R114, R33, R384: when a move to or from a link or queue cannot be made: a read of dq with no gather outstanding raises
0x0B; any other parks the thread at the word, its registers as they are and its park count 0. -/
def Claims.BlockedMoves : Prop :=
  ∀ (s : State) k c n i, s.actor = .lap k c n →
  let e := Ent.lap k c n
  let Parks (w : Wait) : Prop := ∃ t, exec i s = .next t ∧ (t.hart e).rot = .parked ∧ (t.hart e).wait = w ∧ (t.hart e).parkN = 0
    ∧ (t.hart e).pc = (s.hart e).pc ∧ (t.hart e).s = (s.hart e).s ∧ (t.hart e).p = (s.hart e).p
    ∧ (t.hart e).dq = (s.hart e).dq ∧ (t.hart e).aq = (s.hart e).aq
  lapCheck i e s = none → guardHolds (s.hart e) (lapGuard i) = true → (s.hart e).rot = .ready →
  (∀ g d, i = .mov g d (.reg .dq) → (s.hart e).dq = [] → if (s.hart e).aq = [] then Faults i s e { code := 0x0B } else Parks (.own 0x86))
  ∧ (∀ g d p, i = .mov g d (.reg (.port p)) → ((s.core k (neighbour c p)).link (Dir.back p)).words = [] → Parks (.port p))
  ∧ (∀ g d, i = .mov g d (.reg .mb) → (s.core k c).inbox = [] → Parks (.own 0x87))
  ∧ (∀ g p v, i = .mov g (.port p) (.lit64 v) → ((s.core k c).link p).words.length = 4 → Parks (.port p))
  ∧ ∀ g v, i = .mov g .aq (.lit64 v) → (s.hart e).aq.length = 8 → Parks (.own 0x85)

/-- R74, R110, R245: what a write of each destination does: the one register takes the value (a predicate whether it is nonzero), a port
link gains a word with the clk of its push, the address queue gains a gather of a 64-bit word, and z takes nothing. -/
def Claims.DestinationWrites : Prop :=
  ∀ (s : State) e v,
  (∀ (n : BitVec 7) (m : Fin 128), ((s.writeSpec e (.s n) v).hart e).s[m] = if m.val = n.toNat then v else (s.hart e).s[m])
  ∧ (∀ (n : BitVec 4) (m : Fin 16), ((s.writeSpec e (.h n) v).hart e).h[m] = if m.val = n.toNat then v else (s.hart e).h[m])
  ∧ (∀ p q : Fin 7, ((s.writeSpec e (.p p) v).hart e).p[q] = if q = p then decide (v ≠ 0) else (s.hart e).p[q])
  ∧ s.writeSpec e .z v = s
  ∧ (∀ k c n d, e = .lap k c n → let l := (s.core k c).link d
      (s.writeSpec e (.port d) v).core k c = (s.core k c).setLink d { l with words := l.words ++ [(s.clk, v)] })
  ∧ ∃ due, ((s.writeSpec e .aq v).hart e).aq = (s.hart e).aq ++ [({ addr := v, ty := .b64, hi := false, no := s.fresh }, due)]
      ∧ s.clk < due

/-- What a write of each destination does, and moves that wait. -/
def Obligations.Destinations : Prop := Claims.BlockedMoves ∧ Claims.DestinationWrites

/-- R102, R107, R116 to R126: a word that writes only a register leaves everything else as it is: all other registers, the flag and
trap registers, every other hart, every byte of memory, the control cores, tables, queues and time. -/
def Claims.RegisterWordFrame : Prop :=
  ∀ i e s vals s₁, registerOnly i = true → Issues i e s vals s₁ → NoneDue (s.hart e) →
  ∃ t, exec i s = .next t ∧ OnlyWrites e (lapDst i) s t

/-- R54, R107, R128 to R135: a float word of a lap thread that is done at once takes a fault, or writes its destination and sets flags, and
leaves everything else as it is. -/
def Claims.FloatWordFrame : Prop :=
  ∀ i k c n s vals s₁, let e := Ent.lap k c n
  floatAtOnce i = true → Issues i e s vals s₁ → NoneDue (s.hart e) →
  (∃ x, Faults i s e x ∧ x.code ∈ [0x0C, 0x0D, 0x17])
  ∨ ∃ t : State, exec i s = .next t ∧ (s.hart e).flg &&& (t.hart e).flg = (s.hart e).flg
    ∧ (∀ j, 5 ≤ j → (t.hart e).flg.getLsbD j = (s.hart e).flg.getLsbD j)
    ∧ OnlyWrites e (lapDst i) s (t.setHart e { t.hart e with flg := (s.hart e).flg })

/-- What integer and float words leave unchanged. -/
def Obligations.WordFrames : Prop := Claims.RegisterWordFrame ∧ Claims.FloatWordFrame

/-- R128, R103, R109: what the rounding float words write: the exact or special result of their operands, rounded once under the mode
their field names. FDIV and FSQRT land theirs 40 clk later for f64 and 20 clk later for the other types. -/
def Claims.FloatArithmetic : Prop :=
  let rm (s : State) (e : Ent) (o : FAlu) : Rm := rmOf (s.hart e).flg o.rm
  let a (o : FAlu) (s : State) (e : Ent) (vals : List (LSpec × W64)) : W64 := src s e vals o.a
  let b (o : FAlu) (s : State) (e : Ent) (vals : List (LSpec × W64)) : W64 := srcB s e vals o.ty o.b
  (∀ o, FloatWrites (.fadd o) o.d o.ty (fun s e v => [a o s e v, b o s e v]) fun s e v =>
    rounded o.ty (rm s e o) (fAdd (rm s e o) (fpVal o.ty (a o s e v)) (fpVal o.ty (b o s e v))))
  ∧ (∀ o, FloatWrites (.fsub o) o.d o.ty (fun s e v => [a o s e v, b o s e v]) fun s e v =>
    rounded o.ty (rm s e o) (fAdd (rm s e o) (fpVal o.ty (a o s e v)) (fpVal o.ty (b o s e v)).neg))
  ∧ (∀ o, FloatWrites (.fmul o) o.d o.ty (fun s e v => [a o s e v, b o s e v]) fun s e v =>
    rounded o.ty (rm s e o) (fMul (fpVal o.ty (a o s e v)) (fpVal o.ty (b o s e v))))
  ∧ (∀ o c, FloatWrites (.fma o c) o.d o.ty (fun s e v => [a o s e v, b o s e v, src s e v c]) fun s e v =>
    rounded o.ty (rm s e o) (fFma (rm s e o) (fpVal o.ty (a o s e v)) (fpVal o.ty (b o s e v)) (fpVal o.ty (src s e v c))))
  ∧ (∀ o, FloatLands (.fdiv o) o.d o.ty (if o.ty = .f64 then 40 else 20) (fun s e v => [a o s e v, b o s e v]) fun s e v =>
    rounded o.ty (rm s e o) (fDiv (fpVal o.ty (a o s e v)) (fpVal o.ty (b o s e v))))
  ∧ ∀ o : FAlu1, FloatLands (.fsqrt o) o.d o.ty (if o.ty = .f64 then 40 else 20) (fun s e v => [src s e v o.a]) fun s e v =>
    rounded o.ty (rmOf (s.hart e).flg o.rm) (fSqrt (fpVal o.ty (src s e v o.a)))

/-- R54, R55, R199: the flag register under a float word: flags are only set, and the trap enables in bits 5, 6 and 7 are for OF, DZ
and NV; UF and NX never trap. -/
def Claims.FlagsAndEnables : Prop :=
  ∀ (f : W64) (r : Flags) (j : Nat),
  (flgRaise f r).getLsbD j = (f.getLsbD j || r.getLsbD j)
  ∧ (flgTrapped f r).getLsbD j = (r.getLsbD j && decide (2 ≤ j ∧ j ≤ 4) && f.getLsbD (j + 3))

/-- Float words: results, flags and enabled traps.
Completes: fadd, fsub, fmul, fma, fdiv, fsqrt. -/
def Obligations.FloatArithmeticAndFlags : Prop := Claims.FloatArithmetic ∧ Claims.FlagsAndEnables

/-- R47, R52, R66, R128: the exact results before rounding, as numbers: sum, difference, product and fused product of finite values, the
sign of an exact zero sum, and what infinities, zeros and NaNs give with their flags. -/
def Claims.ExactFloatResults : Prop :=
  ∀ (rm : Rm) (a b c : FVal) (p q r : ℚ),
  (Exactly a p → Exactly b q → Exactly c r →
    Exactly (fAdd rm a b).1 (p + q) ∧ (fAdd rm a b).2 = 0 ∧ Exactly (fAdd rm a b.neg).1 (p - q)
    ∧ Exactly (fMul a b).1 (p * q) ∧ (fMul a b).2 = 0 ∧ Exactly (fFma rm a b c).1 (p * q + r) ∧ (fFma rm a b c).2 = 0)
  ∧ (Exactly a p → Exactly b q → p + q = 0 → p ≠ 0 → (fAdd rm a b).1 = .zero (decide (rm = .rdn)))
  ∧ (Exactly a p → p < 0 → fSqrt a = (.nan false, fNV))
  ∧ (Exactly a p → p ≠ 0 → ∀ z, ∃ n, fDiv a (.zero z) = (.inf n, fDZ))
  ∧ (∀ x y, fDiv (.zero x) (.zero y) = (.nan false, fNV) ∧ fDiv (.inf x) (.inf y) = (.nan false, fNV)
      ∧ fMul (.zero x) (.inf y) = (.nan false, fNV) ∧ fAdd rm (.inf x) (.inf !x) = (.nan false, fNV)
      ∧ fFma rm (.zero x) (.inf y) c = (.nan false, fNV) ∧ fSqrt (.zero x) = (.zero x, 0))
  ∧ ∀ sig, (fAdd rm (.nan sig) b).1 = .nan false ∧ (fMul b (.nan sig)).1 = .nan false
      ∧ (b.isNan = false → fAdd rm (.nan sig) b = (.nan false, if sig then fNV else 0))

/-- R38, R44, R45, R54: rounding to a float type: a number the type holds is given back as its own code with no flag, under every mode; a
rounded result that does not overflow lies on the side its mode names, and sets NX exactly when it differs from the number. -/
def Claims.FloatRounding : Prop :=
  ∀ (t : Ty) (rm : Rm), t.isFloat = true →
  (∀ v : W64, isFinite (fpVal t v) = true → rounded t rm (fpVal t v, 0) = (v.toNat % 2 ^ tyW t, 0))
  ∧ ∀ (neg : Bool) (m : Nat) (e : Int), m ≠ 0 → rm ∈ [.rne, .rtz, .rdn, .rup, .rna] →
    let x : FVal := .num neg m e false
    let r := rounded t rm (x, 0)
    let y := ratOf (decF (tyFmt t) r.1)
    r.2.getLsbD 2 = false →
      (rm = .rtz → |y| ≤ |ratOf x|) ∧ (rm = .rdn → y ≤ ratOf x) ∧ (rm = .rup → ratOf x ≤ y) ∧ (r.2.getLsbD 0 = false ↔ y = ratOf x)

/-- Exact float results and their rounding. -/
def Obligations.FloatExactness : Prop := Claims.ExactFloatResults ∧ Claims.FloatRounding

/-- R53, R61, R129 to R132: FMIN, FMAX, FCMP, FCLASS and FSGN: which operand, relation, class bit or sign they give; an offcut among the
operands raises 0x0C. -/
def Claims.FloatSelections : Prop :=
  (∀ o, FloatWrites (.fmin o) o.d o.ty (fun s e v => [src s e v o.a, srcB s e v o.ty o.b]) fun s e v =>
    let a := src s e v o.a
    let b := srcB s e v o.ty o.b
    let r := fMinMax false (fpVal o.ty a) (fpVal o.ty b)
    ((if r.1 = 0 then a.toNat % 2 ^ tyW o.ty else if r.1 = 1 then b.toNat % 2 ^ tyW o.ty else (tyFmt o.ty).dnan), r.2))
  ∧ (∀ o, FloatWrites (.fmax o) o.d o.ty (fun s e v => [src s e v o.a, srcB s e v o.ty o.b]) fun s e v =>
    let a := src s e v o.a
    let b := srcB s e v o.ty o.b
    let r := fMinMax true (fpVal o.ty a) (fpVal o.ty b)
    ((if r.1 = 0 then a.toNat % 2 ^ tyW o.ty else if r.1 = 1 then b.toNat % 2 ^ tyW o.ty else (tyFmt o.ty).dnan), r.2))
  ∧ (∀ g ty rel p a b, FloatWrites (.fcmp g ty rel p a b) (.p p) ty (fun s e v => [src s e v a, srcB s e v ty b]) fun s e v =>
    let r := fCompare rel (fpVal ty (src s e v a)) (fpVal ty (srcB s e v ty b))
    (if r.1 then 1 else 0, r.2))
  ∧ (∀ o : Alu1, ∀ e s vals s₁, Issues (.fclass o) e s vals s₁ →
    if isOffcut o.ty (src s e vals o.a) then Faults (.fclass o) s e { code := 0x0C }
    else exec (.fclass o) s = .next ((s₁.writeSpec e o.d (BitVec.ofNat 64 (classWord (tyFmt o.ty) (fpVal o.ty (src s e vals o.a))))).goOn e
      ((s.hart e).pc + 8)))
  ∧ ∀ o op e s vals s₁, Issues (.fsgn o op) e s vals s₁ → o.ty.isFloat = true →
    if isOffcut o.ty (src s e vals o.a) || isOffcut o.ty (srcB s e vals o.ty o.b) then Faults (.fsgn o op) s e { code := 0x0C }
    else
    let w := tyW o.ty
    let a := src s e vals o.a
    let sb := (srcB s e vals o.ty o.b).getLsbD (w - 1)
    exec (.fsgn o op) s = .next ((s₁.writeSpec e o.d (BitVec.ofFnLE fun i : Fin 64 =>
      if i.val < w - 1 then a.getLsbD i
      else i.val == w - 1 && (match op with | .copy => sb | .neg => !sb | .xor => a.getLsbD (w - 1) != sb))).goOn e
        (nextPc s e (.fsgn o op)))

/-- R53, R129 to R131: the order of float values and what a NaN gives: a comparison, minimum or maximum of finite values follows their
numbers; one quiet NaN gives the other operand; the ordered relations of a NaN are false and raise NV; exactly one class bit is set. -/
def Claims.FloatOrder : Prop :=
  ∀ (a b : FVal) (p q : ℚ),
  (Exactly a p → Exactly b q → p ≠ q →
    fCompare .lt a b = (decide (p < q), 0) ∧ fCompare .le a b = (decide (p < q), 0) ∧ fCompare .gt a b = (decide (q < p), 0)
    ∧ fCompare .ge a b = (decide (q < p), 0) ∧ fCompare .eq a b = (false, 0) ∧ fCompare .ne a b = (true, 0)
    ∧ fMinMax false a b = (if p < q then 0 else 1, 0) ∧ fMinMax true a b = (if p < q then 1 else 0, 0))
  ∧ fCompare .lt (.zero true) (.zero false) = (true, 0) ∧ fCompare .eq (.zero true) (.zero false) = (false, 0)
  ∧ (∀ s, fCompare .lt (.nan s) b = (false, fNV) ∧ fCompare .ge b (.nan s) = (false, fNV)
      ∧ (fCompare .unordered (.nan s) b).1 = true ∧ (fCompare .eq b (.nan s)).1 = false)
  ∧ (b.isNan = false → ∀ m, fMinMax m (.nan false) b = (1, 0) ∧ fMinMax m b (.nan false) = (0, 0))
  ∧ ∀ t : Ty, ∃ k, k < 10 ∧ classWord (tyFmt t) a = 2 ^ k

/-- Float minimum, maximum, sign, class and comparison.
Completes: fmin, fmax, fcmp, fclass, fsgn. -/
def Obligations.FloatSelectionAndOrder : Prop := Claims.FloatSelections ∧ Claims.FloatOrder

/-- R61, R133 to R135: the conversions: an offcut goes between f32 and f64 and raises 0x0C for any other destination; a table with no
code for the value raises 0x17; otherwise the word writes the converted code and sets its flags, NV for a signalling NaN among them;
FRND rounds to an integral value of its own type. Completes: CVT, CVTD, CVTE, FRND. -/
def Obligations.Conversions : Prop :=
  (∀ g dty dnk sty snk rm ns d a e s vals s₁, let i := Instr.cvt g dty dnk sty snk rm ns d a
    Issues i e s vals s₁ →
    let x := src s e vals a
    if isOffcut sty x then
      (if dty = .f32 ∨ dty = .f64 then exec i s = .next ((s₁.writeSpec e d (offcutTo dty x)).goOn e ((s.hart e).pc + 8))
       else Faults i s e { code := 0x0C })
    else match convert dty dnk sty snk (s.tab (ownTab e)) (rmOf (s.hart e).flg rm) ns 0 x.toNat with
      | none => Faults i s e { code := 0x17, info := 1023 }
      | some r =>
        let v : W64 := if dty.isSigned then BitVec.ofInt 64 (intVal dty r.1) else BitVec.ofNat 64 r.1
        if s.fpTraps e r.2 = 0#5 then exec i s = .next (((s₁.raise e r.2).writeSpec e d v).goOn e ((s.hart e).pc + 8))
        else ∃ t, Faults i s e t ∧ t.code = 0x0D)
  ∧ (∀ (o : FAlu1) e s vals s₁, Issues (.cvtd o) e s vals s₁ → o.ty.isFloat = true →
    let r := rounded o.ty (rmOf (s.hart e).flg o.rm) ((s.tab (ownTab e)).decode (src s e vals o.a).toNat, 0)
    if s.fpTraps e r.2 = 0#5 then
      exec (.cvtd o) s = .next (((s₁.raise e r.2).writeSpec e o.d (BitVec.ofNat 64 r.1)).goOn e ((s.hart e).pc + 8))
    else ∃ t, Faults (.cvtd o) s e t ∧ t.code = 0x0D)
  ∧ (∀ (o : FAlu1) ns e s vals s₁, Issues (.cvte o ns) e s vals s₁ → o.ty.isFloat = true →
    let a := src s e vals o.a
    let x := fpVal o.ty a
    if isOffcut o.ty a then Faults (.cvte o ns) s e { code := 0x0C }
    else match encTable (s.tab (ownTab e)).encTab (rmOf (s.hart e).flg o.rm) ns 0 x with
    | none => Faults (.cvte o ns) s e { code := 0x17, info := 1023 }
    | some r =>
      let f := r.2 ||| (if x.isSig then fNV else 0)
      if s.fpTraps e f = 0#5 then
        exec (.cvte o ns) s = .next (((s₁.raise e f).writeSpec e o.d (BitVec.ofNat 64 r.1)).goOn e ((s.hart e).pc + 8))
      else ∃ t, Faults (.cvte o ns) s e t ∧ t.code = 0x0D)
  ∧ ∀ o : FAlu1, FloatWrites (.frnd o) o.d o.ty (fun s e v => [src s e v o.a]) fun s e v =>
    let x := fRoundInt (rmOf (s.hart e).flg o.rm) (fpVal o.ty (src s e v o.a))
    ((rounded o.ty (rmOf (s.hart e).flg o.rm) (x.1, 0)).1, x.2)

/-- R244, R245, R107, R32: a plain load or store of a lap thread in its local memory, at every type of whole bytes, its bank free in this clk:
the load writes the element widened by its type, and takes the bank; the store writes its low bytes and changes no other byte, and nothing
else but the pc. Completes: LD, ST. -/
def Claims.LocalLoadAndStore : Prop :=
  ∀ (s : State) k c n vals s₁ g ty d a disp p, ty ≠ .i4 →
  let e := Ent.lap k c n
  let ea := src s e vals a + dispValue disp
  MemOk s → LocalPlace s k c n ea (tyW ty / 8) p →
  (Issues (.ld g .plain ty false d a disp) e s vals s₁ →
    exec (.ld g .plain ty false d a disp) s = .next (((s₁.grantBanks k [localBank c p]).writeSpec e d (loaded s ty p)).goOn e
      (nextPc s e (.ld g .plain ty false d a disp))))
  ∧ (Issues (.st g .plain ty false d a disp) e s vals s₁ → NoneDue (s.hart e) →
    ∃ t, exec (.st g .plain ty false d a disp) s = .next t ∧ Stores p (tyW ty / 8) (src s e vals d) s t ∧ OnlyWrites e none s (unstored t s)
      ∧ (t.hart e).pc = nextPc s e (.st g .plain ty false d a disp))

/-- R244: a 4-bit element is the low or the high half of the byte at its address: a load extends it with its sign, a store leaves the
other half and every other byte. -/
def Claims.NibbleLoadAndStore : Prop :=
  ∀ (s : State) k c n vals s₁ g hi d a disp p,
  let e := Ent.lap k c n
  let ea := src s e vals a + dispValue disp
  MemOk s → LocalPlace s k c n ea 1 p →
  (Issues (.ld g .plain .i4 hi d a disp) e s vals s₁ →
    exec (.ld g .plain .i4 hi d a disp) s = .next (((s₁.grantBanks k [localBank c p]).writeSpec e d
      (((memGet s.mem p).extractLsb' (if hi then 4 else 0) 4).signExtend 64)).goOn e (nextPc s e (.ld g .plain .i4 hi d a disp))))
  ∧ (Issues (.st g .plain .i4 hi d a disp) e s vals s₁ → NoneDue (s.hart e) →
    ∃ t : State, exec (.st g .plain .i4 hi d a disp) s = .next t ∧ MemSameBut p 1 s t
      ∧ (memGet t.mem p).extractLsb' (if hi then 4 else 0) 4 = (src s e vals d).extractLsb' 0 4
      ∧ (memGet t.mem p).extractLsb' (if hi then 0 else 4) 4 = (memGet s.mem p).extractLsb' (if hi then 0 else 4) 4
      ∧ OnlyWrites e none s (unstored t s))

/-- R245, R254, R279: loads and stores of the own scratchpad. Plain ones leave the full bit of the word; a take waits for a full word and
empties it, a peek leaves it full, a give waits for an empty word, stores and fills it. One that waits parks its thread on the word. -/
def Claims.ScratchLoadAndStore : Prop :=
  ∀ (s : State) k c n vals s₁ g ty d a disp off, ty ≠ .i4 →
  let e := Ent.lap k c n
  let ea := src s e vals a + dispValue disp
  let p := cspBase k + off
  let w := p / 8 * 8
  MemOk s → ScratchPlace s k c n ea (tyW ty / 8) off → NoneDue (s.hart e) →
  let Loads (cls : Cls) (full : List Nat) : Prop :=
    ∃ u : State, exec (.ld g cls ty false d a disp) s = .next ((u.writeSpec e d (loaded s ty p)).goOn e (nextPc s e (.ld g cls ty false d a disp)))
      ∧ u.mem = s.mem ∧ u.full = full ∧ u.hart e = s₁.hart e ∧ OnlyWrites e none s { u with full := s.full }
  let StoresIt (cls : Cls) (full : List Nat) : Prop :=
    ∃ t : State, exec (.st g cls ty false d a disp) s = .next t ∧ Stores p (tyW ty / 8) (src s e vals d) s t ∧ t.full = full
      ∧ OnlyWrites e none s { unstored t s with full := s.full }
  (Issues (.ld g .plain ty false d a disp) e s vals s₁ → Loads .plain s.full)
  ∧ (Issues (.st g .plain ty false d a disp) e s vals s₁ → StoresIt .plain s.full)
  ∧ (Issues (.ld g .take ty false d a disp) e s vals s₁ →
      if s.isFull w then Loads .take (setDel s.full w)
      else (s.hart e).rot = .ready → ParksOn (.ld g .take ty false d a disp) s e (.word ea))
  ∧ (Issues (.ld g .peek ty false d a disp) e s vals s₁ →
      if s.isFull w then Loads .peek s.full
      else (s.hart e).rot = .ready → ParksOn (.ld g .peek ty false d a disp) s e (.word ea))
  ∧ (Issues (.st g .give ty false d a disp) e s vals s₁ → (s₁.hart e).relDone = true →
      if s.isFull w then (s.hart e).rot = .ready → ParksOn (.st g .give ty false d a disp) s e (.word ea)
      else StoresIt .give (setAdd s.full w))

/-- Loads and stores of local memory and scratchpad, with their frame.
Completes: ld, st. -/
def Obligations.LoadsAndStores : Prop := Claims.LocalLoadAndStore ∧ Claims.NibbleLoadAndStore ∧ Claims.ScratchLoadAndStore

/-- R250, R251, R249: the atomic words of every class on local memory (AMO and CAS) and on the own scratchpad (ADDM too): an AMO stores its
result and writes the old value, a CAS stores only when the old value is the one expected, an ADDM adds and writes nothing: integers
modulo their width, floats rounded to nearest even, with the default NaN when either is a NaN. An aq class acquires at its scope after the
write; an rl class is meant with its release complete. No other byte changes. An offcut addend faults 0x0C. Completes: AMO, CAS, ADDM. -/
def Obligations.AtomicWords : Prop :=
  ∀ (s : State) k c n vals s₁ g cls ty p, MemOk s → ty ≠ .i4 →
  let e := Ent.lap k c n
  let old : BitVec (tyW ty) := BitVec.ofNat _ (memRead s.mem p (tyW ty / 8))
  let there (ea : W64) : Prop := LocalPlace s k c n ea (tyW ty / 8) p
  let own (ea : W64) : Prop := ∃ off, ScratchPlace s k c n ea (tyW ty / 8) off ∧ p = cspBase k + off
  let Does (i : Instr) (d : LSpec) (acq : Option Scope) (st : Bool) (new : W64) : Prop :=
    ∃ u : State, exec i s = .next (((u.writeSpec e d (extTo ty old)).acquireOpt e acq).goOn e (nextPc s e i))
      ∧ (if st then Stores p (tyW ty / 8) new s u else MemSame s u) ∧ OnlyWrites e none s (unstored u s)
  (∀ sc, cls = .release sc → (s.hart e).relDone = true ∧ (s.hart e).pwf = none) →
  (∀ op d a b, let i := Instr.amo g cls op ty d a b
    ty.isInt = true → ¬ (d = .z ∧ cls = .relaxed) → Issues i e s vals s₁ → there (src s e vals a) ∨ own (src s e vals a) →
    Does i d (clsAcq cls) true ((amoResult op old ((srcB s e vals ty b).setWidth _)).setWidth 64))
  ∧ (∀ d a b, let i := Instr.cas g cls ty d a b
    ty.isInt = true → Issues i e s vals s₁ → there (src s e vals a) ∨ own (src s e vals a) →
    Does i d (clsAcq cls) (old == (src s e vals d).setWidth _) (src s e vals b))
  ∧ ∀ d a disp, let i := Instr.addm g cls ty d a disp
    cls = .plain → Issues i e s vals s₁ → own (src s e vals a + dispValue disp) →
    if ty.isFloat = true then
      let f := tyFmt ty
      let x := decF f old.toNat
      let y := decF f ((src s e vals d).toNat % 2 ^ tyW ty)
      if isOffcut ty (src s e vals d) then Faults i s e { code := 0x0C }
      else if x.isNan || y.isNan then Does i .z none true (BitVec.ofNat 64 f.dnan)
      else Does i .z none true (BitVec.ofNat 64 (rounded ty .rne (fAdd .rne x y)).1)
    else Does i .z none true ((old + (src s e vals d).setWidth _).setWidth 64)

/-- R227, R228, R231, R244: where a plain load of a lap thread faults, with its address, before anything is read: an address in no space, an
offset outside a scratchpad or the local memory, a misaligned element, and the MMIO space for a task. -/
def Obligations.AddressFaults : Prop :=
  ∀ (s : State) k c n vals s₁ g ty hi d a disp,
  let e := Ent.lap k c n
  let i := Instr.ld g .plain ty hi d a disp
  let ea := src s e vals a + dispValue disp
  let top := (ea.extractLsb' 60 4).toNat
  Issues i e s vals s₁ →
  (top ∈ [1, 2, 3, 4, 5, 6, 7, 12, 13, 14, 15] → Faults i s e { code := 0x05, addr := ea })
  ∧ (top = 0 → ea.extractLsb' 56 4 ≠ 0#4 → Faults i s e { code := 0x05, addr := ea })
  ∧ (top = 8 → ea.extractLsb' 15 45 ≠ 0#45 → Faults i s e { code := 0x08, addr := ea })
  ∧ (top = 9 → ea.extractLsb' 22 38 ≠ 0#38 → Faults i s e { code := 0x08, addr := ea })
  ∧ (top = 10 → ea.extractLsb' 39 21 ≠ 0#21 → Faults i s e { code := 0x08, addr := ea })
  ∧ (ea.toNat / 2 ^ 15 = 2 ^ 48 ∨ ea.toNat / 2 ^ 22 = 0x24000000000 ∨ ea.toNat < 2 ^ 56 → ty ≠ .i4 → ea.toNat % (tyW ty / 8) ≠ 0 →
      Faults i s e { code := 0x04, addr := ea })
  ∧ (top = 11 → ty ≠ .b64 → Faults i s e { code := 0x05, addr := ea })
  ∧ (top = 11 → ty = .b64 → mmioOk ea = true → ea.toNat % 8 = 0 → s.level e = 0 → Faults i s e { code := 0x07, addr := ea })

/-- R28, R245, R247, R248, R249 to R253: the accesses that leave for another place. A global load with no cached line, a tolerant load, a store,
an addition and an atomic word send a request and wait, an atomic word of an rl class when its release has been made; a relaxed store,
addition, range and a relaxed AMO without a result are posted and their thread goes on; a relaxed load pushes a gather; PREF asks for a
line, or does nothing outside global space, and never faults. -/
def Claims.AccessesSent : Prop :=
  ∀ (s : State) k c n vals s₁ g ty d a disp, let e := Ent.lap k c n
  let ea := src s e vals a + dispValue disp
  let A := src s e vals a
  let glob (x : W64) : Prop := x.toNat < 2 ^ 56 ∧ x.toNat % alignOf ty = 0 ∧ s.postedAt e x = false ∧ (s.cluster k).cch = []
    ∧ s.entPasid e ≠ none
  let own (x : W64) : Prop := x.toNat / 2 ^ 15 = 2 ^ 48 ∧ x.toNat % alignOf ty = 0
  let released (cls : Cls) : Prop := ∀ sc, cls = .release sc → (s.hart e).relDone = true
  NoneDue (s.hart e) →
  (∀ hi, Issues (.ld g .plain ty hi d a disp) e s vals s₁ → glob ea →
    SendsAndWaits (.ld g .plain ty hi d a disp) s e (some d) ea (.load ty hi) .station)
  ∧ (∀ eps, Issues (.ldt g ty d a eps disp) e s vals s₁ → glob ea →
    SendsAndWaits (.ldt g ty d a eps disp) s e (some d) ea (.tload ty (src s e vals eps)) .station)
  ∧ (∀ hi, Issues (.st g .plain ty hi d a disp) e s vals s₁ → glob ea →
    SendsAndWaits (.st g .plain ty hi d a disp) s e none ea (.store ty hi (src s e vals d)) .station)
  ∧ (Issues (.addm g .plain ty d a disp) e s vals s₁ → glob ea → (ty.isFloat && isOffcut ty (src s e vals d)) = false →
    SendsAndWaits (.addm g .plain ty d a disp) s e none ea (.addm ty (src s e vals d)) .station)
  ∧ (∀ cls op b, let i := Instr.amo g cls op ty d a b
    let v := srcB s e vals ty b
    Issues i e s vals s₁ → released cls →
    (¬(d = .z ∧ cls = .relaxed) → glob A → SendsAndWaits i s e (some d) A (.amo op ty v) .station)
    ∧ (d = .z → cls = .relaxed → s.postedCount e < 8 → (glob A → Posts i s e A (.amo op ty v) .station) ∧ (own A → Posts i s e A (.amo op ty v) .posted)))
  ∧ (∀ cls b, let i := Instr.cas g cls ty d a b
    Issues i e s vals s₁ → released cls → glob A → SendsAndWaits i s e (some d) A (.cas ty (src s e vals d) (src s e vals b)) .station)
  ∧ (∀ hi, Issues (.st g .relaxed ty hi d a disp) e s vals s₁ → own ea → s.postedCount e < 8 →
    Posts (.st g .relaxed ty hi d a disp) s e ea (.store ty hi (src s e vals d)) .posted)
  ∧ (Issues (.addm g .relaxed ty d a disp) e s vals s₁ → glob ea → s.postedCount e < 8 → (ty.isFloat && isOffcut ty (src s e vals d)) = false →
    Posts (.addm g .relaxed ty d a disp) s e ea (.addm ty (src s e vals d)) .station)
  ∧ (∀ b stride cnt, let i := Instr.sts g .relaxed ty d a b
    let words := stsReads (src s e vals d) ty cnt
    Issues i e s vals s₁ → A.toNat < 2 ^ 56 →
    stride = ((src s e vals b).extractLsb' 0 32).signExtend 64 → cnt = ((src s e vals b).extractLsb' 32 12).toNat + 1 → stride ≠ 0 →
    A.toNat % alignOf ty = 0 → stride.toInt % alignOf ty = 0 → s.postedCount e < 8 →
    (∀ u l, s₁.takeReads e words = .ok u → stsSource u e (src s e vals d) ty cnt = .ok l → Posts i s e A (.sts ty stride l) .posted)
    ∧ ∀ u, s₁ = s → s.takeReads e words = .error u → exec i s = .next u)
  ∧ (∀ hi, Issues (.ld g .relaxed ty hi .aq a disp) e s vals s₁ → own ea →
    ∃ (t : State) (due : Nat), exec (.ld g .relaxed ty hi .aq a disp) s = .next t ∧ s.clk < due
      ∧ (t.hart e).aq = (s.hart e).aq ++ [({ addr := ea, ty := ty, hi := hi, no := s.fresh }, due)] ∧ OnlyWrites e (some .aq) s t)
  ∧ (Issues (.pref g a disp) e s vals s₁ →
    if ea.toNat < 2 ^ 56 ∧ s.entPasid e ≠ none then Posts (.pref g a disp) s e ea .pref .station
    else exec (.pref g a disp) s = .next (s₁.goOn e (nextPc s e (.pref g a disp))))

/-- R32: the accesses of an instruction are granted one by one, in their order: all at once when their banks are free and no two of
them lie in one bank; with a bank taken, what has been granted counts, and the thread forfeits its turn and keeps its age. -/
def Claims.GrantedReads : Prop :=
  ∀ (s : State) k c n (l : List W64), let e := Ent.lap k c n
  let h := s.hart e
  h.early = [] → (∀ a ∈ l, a.toNat / 2 ^ 15 = 2 ^ 48) → (l.map (fun a => a.toNat / 8 % 8)).Nodup → h.reads = 0 →
  let bank (a : W64) : Nat := localBank c (localBase k c + a.toNat % 2 ^ 15)
  ((∀ a ∈ l, s.bankFree k (bank a) = true) → ∃ u, s.takeReads e l = .ok u ∧ u.mem = s.mem ∧ u.harts = s.harts ∧ u.reqs = s.reqs ∧ u.bad = s.bad)
  ∧ ∀ l₁ a l₂, l = l₁ ++ a :: l₂ → (∀ x ∈ l₁, s.bankFree k (bank x) = true) → s.bankFree k (bank a) = false →
    ∃ u, s.takeReads e l = .error u ∧ u.mem = s.mem ∧ u.hart e = { h with reads := l₁.length, forfeit := h.forfeit.or (some s.clk) }

/-- R252, R282: the source of an STS in local memory, with no store of the thread on its way: its elements in order, each at the type's
width. -/
def Claims.RangeSource : Prop :=
  ∀ (s : State) k c n (a : W64) ty cnt, ty ≠ .i4 → a.toNat % (tyW ty / 8) = 0 → a.toNat / 2 ^ 15 = 2 ^ 48 →
  a.toNat % 2 ^ 15 + cnt * (tyW ty / 8) ≤ 2 ^ 15 → s.bad = [] →
  (∀ q ∈ s.reqs, q.2.who ≠ .lap k c n) →
  stsSource s (.lap k c n) a ty cnt = .ok ((List.range cnt).map fun i =>
    BitVec.ofNat 64 (memRead s.mem (localBase k c + a.toNat % 2 ^ 15 + i * (tyW ty / 8)) (tyW ty / 8)))

/-- Accesses that leave for another place.
Completes: sts, pref. -/
def Obligations.AccessesSent : Prop := Claims.AccessesSent ∧ Claims.GrantedReads ∧ Claims.RangeSource

/-- R31, R107, R109, R203, R279: a value that is due lands for a thread out of the rotation: it is written to the destination, a float word's
flags are set, the access acquires at its scope, and the thread goes on after the word; a fault that is due is taken at the word, and nothing is written. The two steps are the
landing of a long operation and that of an access. -/
def Claims.ValueLandings : Prop :=
  ∀ (s : State) k c n (p : Pend) (a : Ans), let e := Ent.lap k c n
  let h := s.hart e
  h.pend = some p → p.ans = some a → (∀ d, p.due = some d → d ≤ s.clk) →
  let i := if p.long then Instr.longOpLanding e else .accessAnswerLands e
  let s' := s.setHart e { h with pend := none }
  (∀ v d, a = .ok v → p.dst = some d → p.act = .plain → pushBlocked s e d = none →
    exec i s = .next (((s'.writeSpec e d v).acquireOpt e p.acq).goOn e p.next))
  ∧ (∀ v d f, a = .ok v → p.dst = some d → p.act = .flags f → pushBlocked s e d = none →
    exec i s = .next ((((s'.raise e f).writeSpec e d v).acquireOpt e p.acq).goOn e p.next))
  ∧ (∀ v, a = .ok v → p.dst = none → p.act = .plain → exec i s = .next ((s'.acquireOpt e p.acq).goOn e p.next))
  ∧ (∀ code addr, a = .err code addr → p.act = .plain →
    exec i s = .next (s'.takeTrap e { code := code, addr := addr } h.pc p.insn))
  ∧ ∀ code addr f, a = .err code addr → p.act = .flags f →
    exec i s = .next (s'.takeTrap e { code := code, fpc := f } h.pc p.insn)

/-- R127, R216, R245, R318: the oldest gather of a thread lands when its time has come and the data queue has room: its element in local memory
becomes the newest data word, and the gather leaves the address queue; that of a halted thread is discarded as it lands. Nothing else of the
thread changes but that it holds no answer of a hart for the gather. The number of a gather is below the counter it was drawn from. -/
def Claims.GatherLands : Prop :=
  ∀ (s : State) k c n g due rest p, let e := Ent.lap k c n
  let h := s.hart e
  h.aq = (g, due) :: rest → due ≤ s.clk → h.dq.length < 8 → (∀ x ∈ h.dq, ∃ w, x = .word w) → g.ty ≠ .i4 → g.hi = false →
  LocalPlace s k c n g.addr (tyW g.ty / 8) p → g.no ≤ s.fresh → (∀ x ∈ h.early, x.addr ≠ g.addr) →
  ∃ t, exec (.gatherLanding e) s = .next t
    ∧ t.hart e = { h with aq := rest, dq := if h.rot = .halted then [] else h.dq ++ [.word (loaded s g.ty p)], gAge := none
                          early := h.early.filter fun x => !x.gather }
    ∧ OtherHartsSame e s t ∧ MemSame s t

/-- R241, R242: a gather that meets uncorrectable data, and a read of dq that meets its fault: the data queue holds the fault in the
gather's place, and the read raises it with the gather's address. -/
def Claims.GatherFault : Prop :=
  ∀ (s : State) k c n g due rest, let e := Ent.lap k c n
  let h := s.hart e
  (h.aq = (g, due) :: rest → due ≤ s.clk → h.dq = [] → h.rot ≠ .halted → h.early = [] → g.addr.toNat / 2 ^ 15 = 2 ^ 48 → g.ty = .b64 → g.addr.toNat % 8 = 0 →
    s.postedAt e g.addr = false → g.no ≤ s.fresh → (localBase k c + g.addr.toNat % 2 ^ 15) ∈ s.bad →
    s.bankFree k (localBank c (localBase k c + g.addr.toNat % 2 ^ 15)) = true →
    ∃ t, exec (.gatherLanding e) s = .next t ∧ (t.hart e).dq = [.fault 0x13 g] ∧ (t.hart e).aq = rest)
  ∧ ∀ code q gd d, s.actor = e → lapCheck (.mov gd d (.reg .dq)) e s = none → guardHolds h gd = true → h.dq = .fault code g :: q →
    ∃ t : State, exec (.mov gd d (.reg .dq)) s = .next (t.takeTrap e { code := code, addr := g.addr } h.pc (insnWord (.mov gd d (.reg .dq))))
      ∧ t.hart e = { h with dq := .resend g :: q }

/-- Answers land: long operations, accesses and gathers.
Completes: longOpLanding, accessAnswerLands, gatherLanding. -/
def Obligations.Landings : Prop := Claims.ValueLandings ∧ Claims.GatherLands ∧ Claims.GatherFault

/-- R278, R290, R302: a fence of a thread. With nothing outstanding one of a scope within the cluster is done at once; one that releases
with something outstanding, or at a wider scope, first leaves the rotation; one that acquires at a wider scope is done 24 clk later.
The release goes on when every earlier access has taken its place, and at a wider scope when pt has come to the horizon. -/
def Claims.FencesAndReleases : Prop :=
  ∀ (s : State) k c n vals s₁ g sc rel acq, let e := Ent.lap k c n
  let i := Instr.fence g sc rel acq
  let wide : Prop := sc ∈ [.die, .package, .system]
  let idle : Prop := (s.hart e).aq = [] ∧ (∀ q m, DqEnt.flying q m ∉ (s.hart e).dq) ∧ ∀ r ∈ s.reqs, r.2.who ≠ e
  (Issues i e s vals s₁ → NoneDue (s.hart e) → ¬wide → idle →
    exec i s = .next (s.goOn e ((s.hart e).pc + 8)))
  ∧ (Issues i e s vals s₁ → rel = true → wide ∨ (s.hart e).aq ≠ [] → (s.hart e).relDone = false →
    ∃ t, exec i s = .next t ∧ (t.hart e).rot = .out ∧ (t.hart e).rel = some { scope := sc, target := none } ∧ (t.hart e).pc = (s.hart e).pc)
  ∧ (Issues i e s vals s₁ → rel = false → acq = true → wide → LeavesFor' i e s 24 (some sc))
  ∧ (∀ r, (s.hart e).rel = some r → (s.hart e).rot = .out → r.target = none → idle →
    exec (.releaseComplete e) s = .next (s.setHart e
      (if r.scope ∈ [.die, .package, .system] then { s.hart e with rel := some { r with target := some (s.cluster k).horizon } }
       else { s.hart e with rel := none, relDone := true, rot := .ready })))
  ∧ ∀ r h, (s.hart e).rel = some r → (s.hart e).rot = .out → r.target = some h → r.scope ≠ .system →
    exec (.releaseComplete e) s = .next (if h ≤ s.pt then s.setHart e { s.hart e with rel := none, relDone := true, rot := .ready } else s)

/-- R303: DRAIN leaves the rotation; a region index above 63 raises 0x17; it lands when no drained sum of the entity is on its way. -/
def Claims.DrainWord : Prop :=
  ∀ (s : State) k c n vals s₁ g sc, let e := Ent.lap k c n
  (Issues (.drain g sc none) e s vals s₁ → ∃ t p, exec (.drain g sc none) s = .next t ∧ (t.hart e).rot = .out ∧ (t.hart e).pend = some p
      ∧ p.act = .drainFence ∧ p.next = (s.hart e).pc + 8)
  ∧ (∀ r, Issues (.drain g sc (some r)) e s vals s₁ →
      if 63 < (src s e vals r).toNat then ∃ x, Faults (.drain g sc (some r)) s e x ∧ x.code = 0x17
      else ∃ t p, exec (.drain g sc (some r)) s = .next t ∧ (t.hart e).rot = .out ∧ (t.hart e).pend = some p
        ∧ p.act = .drainFence ∧ p.next = (s.hart e).pc + 8)
  ∧ ∀ p, (s.hart e).pend = some p → p.act = .drainFence → p.long = false → p.due = none → p.dst = none → p.acq = none →
    (∀ q ∈ s.reqs, q.2.who ≠ e) →
    exec (.accessAnswerLands e) s = .next ((s.setHart e { s.hart e with pend := none }).goOn e p.next)

/-- FENCE, releases and DRAIN.
Completes: fence, drain, releaseComplete. -/
def Obligations.FencesAndDrains : Prop := Claims.FencesAndReleases ∧ Claims.DrainWord

/-- R32, R241, R245, R282: a posted store to local memory takes its place when it is due, no earlier relaxed access of its entity to the word
waits, and its bank is free: its bytes are written and its request is gone. One that its place refuses is dropped: memory is as it was, and
the entity's record holds its address. One whose bank is taken keeps its age. -/
def Claims.PostedStores : Prop :=
  ∀ (s : State) k c n id (r : Req) ty v p, let e := Ent.lap k c n
  MemOk s → mfind s.reqs id = some r → r.who = e → r.phase = .posted → r.due ≤ s.clk → r.posted = true → r.op = .store ty false v → ty ≠ .i4 →
  (∀ q ∈ s.reqs, q.1 ≠ id → q.2.who ≠ e) → (s.hart e).aq = [] → (∀ q m, DqEnt.flying q m ∉ (s.hart e).dq) →
  let free := s.bankFree k (localBank c (localBase k c + r.addr.toNat % 2 ^ 15))
  (r.addr.toNat / 2 ^ 15 = 2 ^ 48 → free = false → exec (.postedStorePlace id) s = .next (s.setReq id { r with forfeit := r.forfeit.or (some s.clk) }))
  ∧ (free = true → r.addr.toNat / 2 ^ 15 = 2 ^ 48 → p = localBase k c + r.addr.toNat % 2 ^ 15 → r.addr.toNat % (tyW ty / 8) = 0 → s.bad = [] →
    ∃ t, exec (.postedStorePlace id) s = .next t ∧ t.reqs = mdel s.reqs id ∧ Stores p (tyW ty / 8) v s t ∧ t.harts = s.harts)
  ∧ (free = true → r.addr.toNat / 2 ^ 15 = 2 ^ 48 → r.addr.toNat % (tyW ty / 8) ≠ 0 →
    ∃ t : State, exec (.postedStorePlace id) s = .next t ∧ t.reqs = mdel s.reqs id ∧ MemSame s t
      ∧ (t.hart e).pwf = some ((s.hart e).pwf.getD r.addr))

/-- R32, R229, R230, R245, R254: a fabric access that comes to its scratchpad with its bank free: traffic of the running launch is served there, a load with its value;
other traffic is refused and its issuer answered 0x07; a request told to retry sets out again. -/
def Claims.FabricAccesses : Prop :=
  ∀ (s : State) k c n id (r : Req) (p : Pend) l, let e := Ent.lap k c n
  mfind s.reqs id = some r → r.who = e → r.posted = false → r.early = false → r.gone = false → r.due ≤ s.clk → (s.hart e).pend = some p →
  (∀ q ∈ s.reqs, q.1 ≠ id → q.2.who ≠ e) →
  (s.cluster r.kid).launch.bind (s.launch (r.kid / 128)) = some l → (∀ x ∈ s.launches, x.saved = none) →
  (r.phase = .fabric → r.pasid = some l.pasid → r.op = .load .b64 false → s.bad = [] → (s.cluster r.kid).tiles = [] →
    r.addr.toNat % 2 ^ 22 < 0x3FFF00 → s.bankFree r.kid (r.addr.toNat % 2 ^ 22 / 8 % 64) = true →
    ∃ t : State, exec (.fabricAccess id) s = .next t ∧ t.reqs = mdel s.reqs id ∧ MemSame s t
      ∧ (t.hart e).pend = some { p with ans := some (.ok (loaded s .b64 (cspBase r.kid + r.addr.toNat % 2 ^ 22))) })
  ∧ (r.phase = .fabric → r.pasid.isSome → r.pasid ≠ some l.pasid →
    ∃ t : State, exec (.fabricAccess id) s = .next t ∧ t.reqs = mdel s.reqs id ∧ MemSame s t
      ∧ (t.hart e).pend = some { p with ans := some (.err 0x07 r.addr) })
  ∧ (r.phase = .retry → r.addr.toNat / 2 ^ 60 = 10 → r.addr.toNat % 2 ^ 60 < 2 ^ 39 →
    exec (.controllerRetry id) s = .next (s.setReq id { r with phase := .fabric }))

/-- Posted stores and fabric accesses take their place.
Completes: postedStorePlace, fabricAccess, controllerRetry. -/
def Obligations.PostedAndFabric : Prop := Claims.PostedStores ∧ Claims.FabricAccesses

/-- R230, R320 to R322, R370: a message that comes to a core of its launch: with a free entry the inbox takes it whole and its sender is
answered; with 32 messages it is told to retry and is sent again a lap later. A free cluster discards it and answers 0x07. A reply with
the tag its caller waits for is that caller's answer, and its landing acquires at the scope it was sent with.
Completes: messageAccept, messageResend, replyLanding. -/
def Obligations.Messages : Prop :=
  ∀ (s : State) k c n id (r : Req) (p : Pend) l words, let e := Ent.lap k c n
  let core := r.dest.toNat % 32
  let box := (s.core r.kid core).inbox
  mfind s.reqs id = some r → r.who = e → r.due ≤ s.clk → (s.hart e).pend = some p → r.posted = false → r.early = false → r.gone = false →
  (∀ q ∈ s.reqs, q.1 ≠ id → q.2.who ≠ e) → r.pasid = some l.pasid →
  (s.cluster r.kid).launch.bind (s.launch (r.kid / 128)) = some l →
  (r.op = .msg words none → words ≠ [] → r.phase = .message → box.length < 32 → p.act = .plain →
    ∃ t : State, exec (.messageAccept id) s = .next t ∧ t.reqs = mdel s.reqs id
      ∧ (t.core r.kid core).inbox = box ++ [{ words := words, head := true, scope := if r.kid = k then .cluster else .package }]
      ∧ (t.hart e).pend = some { p with ans := some (.ok 0) })
  ∧ (r.op = .msg words none → words ≠ [] → r.phase = .message → 32 ≤ box.length →
    exec (.messageAccept id) s = .next (s.setReq id { r with phase := .resend, due := s.clk + 16 }))
  ∧ (r.phase = .resend → exec (.messageResend id) s = .next (s.setReq id { r with phase := .message }))
  ∧ ∀ k' c' n' tag v p' nd, r.op = .reply tag v → r.phase = .replying → headerEnt r.dest = .lap k' c' n' →
      (s.hart (.lap k' c' n')).pend = some p' → p'.act = .replySlot nd → (s.hart (.lap k' c' n')).slot = some tag →
      ∃ t : State, exec (.replyLanding id) s = .next t ∧ (t.hart (.lap k' c' n')).slot = none ∧ (t.hart (.lap k' c' n')).rot = .out
        ∧ (t.hart (.lap k' c' n')).pend = some { p' with ans := some (.ok v), acq := some (if r.kid = k then .cluster else .package) }

/-- R256, R258, R272: TOPEN opens the lowest free index: its generation advances by one, 255 going to 1; the header takes the descriptor's
fields and every other is 0; the data area is zeroed and its words empty; no byte outside the footprint changes; and the handle lands
16 + footprint / 512 clk after issue. -/
def Claims.TileOpens : Prop :=
  ∀ (s : State) k c n vals s₁ g ty nk wide d a b i, let e := Ent.lap k c n
  let ea := src s e vals a
  let desc := src s e vals b
  let off := ea.toNat % 2 ^ 22
  let rb := rowBytes ty nk wide
  let size := 512 + 64 * rb
  let f (p w : Nat) : Nat := (desc.toNat / 2 ^ p) % 2 ^ w
  MemOk s → Issues (.topen g ty nk wide d a b) e s vals s₁ → ea.toNat / 2 ^ 22 = 0x24000000000 → off % 512 = 0 → off + size ≤ 0x3FFF00 →
  desc.toNat < 2 ^ 40 → f 0 7 ≤ 64 → f 7 10 ≤ 512 → f 7 10 ≤ rb → (f 0 7 = 0 → f 7 10 = 0) →
  (∀ x ∈ (s.cluster k).tiles, x.2.state = 0 ∨ x.2.base + x.2.size ≤ off ∨ off + size ≤ x.2.base) →
  i < 256 → (s.tile k i).state = 0 → (∀ j < i, (s.tile k j).state ≠ 0) →
  let gen := if (s.tile k i).gen = 255 then 1 else (s.tile k i).gen + 1
  ∃ t p, exec (.topen g ty nk wide d a b) s = .next t
    ∧ t.tile k i = { Tile.zero with
        base := off, state := 1, gen := gen, dest := f 37 3, ty := ty, nk := nk, wide := wide, xrows := f 0 7, xper := f 7 10,
        expn := 2 * f 0 7 * (if f 7 10 = 0 then rb else f 7 10), timer := f 17 20, opnpt := s.pt, due := s.pt + f 17 20 }
    ∧ (∀ j, j ≠ i → t.tile k j = s.tile k j)
    ∧ (∀ j, 512 ≤ j → j < size → memGet t.mem (cspBase k + off + j) = 0) ∧ MemSameBut (cspBase k + off) size s t
    ∧ (∀ w, w ∈ t.full ↔ w ∈ s.full ∧ ¬(cspBase k + off ≤ w ∧ w < cspBase k + off + size))
    ∧ (t.hart e).rot = .out ∧ (t.hart e).pend = some p ∧ p.dst = some d ∧ p.ans = some (.ok (BitVec.ofNat 64 (gen * 256 + i)))
    ∧ p.due = some (s.clk + 16 + (size + 511) / 512)

/-- R256, R257, R273 to R276: the words on a handle of the own cluster. A handle whose generation is not its index's present one, is 0, or
whose index is free is not current, and TVALID, SEAL and TFREE of it raise 0x0A; TVALID of a buffer that is not open and TFREE of one
that is neither open nor released do too. TSTAT never faults on its handle. -/
def Claims.TileWords : Prop :=
  ∀ (s : State) k c n vals s₁ g a b, let e := Ent.lap k c n
  let h := src s e vals a
  let i := h.toNat % 256
  let t := s.tile k i
  let current : Prop := t.state ≠ 0 ∧ t.gen = h.toNat / 256 % 256 ∧ t.gen ≠ 0
  let bad (x : Instr) : Prop := Faults x s e { code := 0x0A }
  (Issues (.tvalid g a b) e s vals s₁ → ¬current ∨ t.state ≠ 1 → bad (.tvalid g a b))
  ∧ (Issues (.seal g a) e s vals s₁ → ¬current → bad (.seal g a))
  ∧ (Issues (.tfree g a) e s vals s₁ → ¬current ∨ (t.state ≠ 1 ∧ t.state ≠ 4) → bad (.tfree g a))
  ∧ (s.bankFree k (t.base / 8 % 64) = true →
    (Issues (.tvalid g a b) e s vals s₁ → current → t.state = 1 →
      let m := srcB s e vals .b64 b
      let arrn := min (t.arrn + 2 * (if t.xper = 0 then t.rb else t.xper) * ones (m &&& ~~~t.vmask)) (2 ^ 32 - 1)
      (t.expn = 0 ∨ arrn < t.expn) →
      ∃ u, exec (.tvalid g a b) s = .next u ∧ u.tile k i = { t with vmask := t.vmask ||| m, arrn := arrn }
        ∧ ∀ j, j ≠ i → u.tile k j = s.tile k j)
    ∧ (Issues (.tfree g a) e s vals s₁ → current → t.state = 1 ∨ t.state = 4 →
      ∃ u, exec (.tfree g a) s = .next u ∧ u.tile k i = { t with state := 0 } ∧ MemSame s u ∧ ∀ j, j ≠ i → u.tile k j = s.tile k j)
    ∧ ∀ d, Issues (.tstat g d a) e s vals s₁ → ∃ (u : State) (v : W64), exec (.tstat g d a) s = .next ((u.writeSpec e d v).goOn e ((s.hart e).pc + 8))
      ∧ u.hart e = s₁.hart e ∧ MemSame s u
      ∧ (i < 256 → t.gen < 256 → t.state < 8 → t.cause < 4 →
          v.extractLsb' 0 8 = BitVec.ofNat 8 i ∧ v.extractLsb' 8 8 = BitVec.ofNat 8 t.gen ∧ v.extractLsb' 16 3 = BitVec.ofNat 3 t.state
          ∧ v.extractLsb' 19 2 = BitVec.ofNat 2 t.cause ∧ v.getLsbD 21 = decide (h.toNat / 256 % 256 = t.gen) ∧ v.getLsbD 22 = t.pend
          ∧ v.extractLsb' 23 16 = BitVec.ofNat 16 (min (t.arrn / 2) 65535) ∧ v.extractLsb' 39 8 = BitVec.ofNat 8 (min t.refc 255)
          ∧ v.extractLsb' 47 17 = 0#17))

/-- Tile buffers are opened, validated, read and freed.
Completes: topen, tvalid, tfree, tstat. -/
def Obligations.TileBuffers : Prop := Claims.TileOpens ∧ Claims.TileWords

/-- R263, R264, R266, R274: what seals an open buffer: a SEAL word whose stores have been written (cause 1), a context's SEAL likewise, a TVALID
that reaches the expected count (cause 2), the seal timer at the time it is due (cause 3). The state becomes sealed with the cause and the time, and the
handle goes to the queue of its context when that has room and no post waits. A buffer that is not open stays as it is.
Completes: seal, sealTimer, sealEffect. -/
def Obligations.Sealing : Prop :=
  ∀ (s : State) k i, let t := s.tile k i
  let x := s.ctx k (t.dest / 4) (t.dest % 4)
  let Sealed (cause : Nat) (u : State) : Prop :=
    u.tile k i = { t with state := 2, cause := cause, selpt := s.pt }
    ∧ (u.ctx k (t.dest / 4) (t.dest % 4)).handles = x.handles ++ [BitVec.ofNat 16 (t.gen * 256 + i)]
  (t.state = 1 → x.handles.length < 16 → (s.cluster k).posts = [] →
    (0 < t.timer → t.due ≤ s.pt → ∃ u, exec (.sealTimer k i) s = .next u ∧ Sealed 3 u)
    ∧ (∀ c n vals s₁ g a, let e := Ent.lap k c n
        Issues (.seal g a) e s vals s₁ → (s.hart e).relDone = true → (src s e vals a).toNat % 256 = i →
        (src s e vals a).toNat / 256 % 256 = t.gen → t.gen ≠ 0 → ∃ u, exec (.seal g a) s = .next u ∧ Sealed 1 u)
    ∧ (∀ c n vals s₁ g a b, let e := Ent.lap k c n
        let m := srcB s e vals .b64 b
        let v := min (t.arrn + 2 * (if t.xper = 0 then t.rb else t.xper) * ones (m &&& ~~~t.vmask)) (2 ^ 32 - 1)
        Issues (.tvalid g a b) e s vals s₁ → s.bankFree k (t.base / 8 % 64) = true → (src s e vals a).toNat % 256 = i →
        (src s e vals a).toNat / 256 % 256 = t.gen → t.gen ≠ 0 → 0 < t.expn → t.expn ≤ v →
        ∃ u : State, exec (.tvalid g a b) s = .next u
          ∧ u.tile k i = { t with vmask := t.vmask ||| m, arrn := v, state := 2, cause := 2, selpt := s.pt }
          ∧ (u.ctx k (t.dest / 4) (t.dest % 4)).handles = x.handles ++ [BitVec.ofNat 16 (t.gen * 256 + i)])
    ∧ ∀ cc cx rest, i < 256 → t.gen < 256 → t.gen ≠ 0 → (s.ctx k cc cx).seals = (BitVec.ofNat 16 (t.gen * 256 + i), 0) :: rest →
        (cc, cx) ≠ (t.dest / 4, t.dest % 4) →
        ∃ u : State, exec (.sealEffect k cc cx) s = .next u ∧ Sealed 1 u ∧ (u.ctx k cc cx).seals = rest)
  ∧ (t.state ≠ 1 → s.sealTile k i 1 = s ∧ s.sealTile k i 2 = s ∧ s.sealTile k i 3 = s)
  ∧ (t.timer = 0 ∨ s.pt < t.due → exec (.sealTimer k i) s = .next s)

/-- R318, R319: GIDX pushes a gather of its type at A + (B << FN), SIDX posts a store there, AQCLR empties both queues and counts what it
discards, and QSTAT gives the counts. -/
def Claims.GatherWords : Prop :=
  ∀ (s : State) k c n vals s₁ g ty d a b sh, let e := Ent.lap k c n
  let h := s.hart e
  let ea := src s e vals a + (src s e vals b <<< BitVec.toNat sh)
  NoneDue h →
  (Issues (.gidx g ty a b sh) e s vals s₁ → ∃ (t : State) (due : Nat), exec (.gidx g ty a b sh) s = .next t ∧ s.clk < due
    ∧ (t.hart e).aq = h.aq ++ [({ addr := ea, ty := ty, hi := false, no := s.fresh }, due)] ∧ OnlyWrites e (some .aq) s t)
  ∧ (Issues (.sidx g ty d a b sh) e s vals s₁ → ea.toNat < 2 ^ 56 → s.entPasid e ≠ none → s.postedCount e < 8 →
    ∃ ph, Posts (.sidx g ty d a b sh) s e ea (.store ty false (src s e vals d)) ph)
  ∧ (Issues (.aqclr g d) e s vals s₁ → exec (.aqclr g d) s = .next (((s.setHart e { h with aq := [], dq := [] }).writeSpec e d
      (BitVec.ofNat 64 (h.aq.length + h.dq.length))).goOn e (h.pc + 8)))
  ∧ (Issues (.qstat g d) e s vals s₁ → ∃ v, exec (.qstat g d) s = .next ((s.writeSpec e d v).goOn e (h.pc + 8))
    ∧ (h.aq.length ≤ 8 → h.dq.length ≤ 8 → s.postedCount e ≤ 8 → (s.core k c).inbox.length ≤ 32 → (s.core k c).sled.length ≤ 64 →
        v.extractLsb' 0 4 = BitVec.ofNat 4 h.aq.length ∧ v.extractLsb' 4 4 = BitVec.ofNat 4 h.dq.length
        ∧ v.extractLsb' 8 4 = BitVec.ofNat 4 (s.postedCount e) ∧ v.extractLsb' 12 6 = BitVec.ofNat 6 (s.core k c).inbox.length
        ∧ v.extractLsb' 18 7 = BitVec.ofNat 7 (s.core k c).sled.length ∧ v.getLsbD 25 = h.slot.isSome ∧ v.extractLsb' 26 38 = 0#38))

/-- R323 to R325: the sled of a core: SLPUSH puts its record on top, or raises 0x18 when it holds 64; SLPOP takes the top record into h3 and
h4, or writes 0; SLSTEAL leaves the rotation, and in the first clk in which nothing else has taken effect on either sled it moves the
oldest records of the next core, at most half of them rounded up and as many as there is room for, below the thief's own; their number
lands 24 clk after issue. That a steal yields to the other operations of its clk is the model's choice (log 45). -/
def Claims.SledWords : Prop :=
  ∀ (s : State) k c n vals s₁ g d a b, let e := Ent.lap k c n
  let own := (s.core k c).sled
  let next := (s.core k ((c + 1) % 32)).sled
  c < 32 →
  (Issues (.slpush g a b) e s vals s₁ →
    if 64 ≤ own.length then Faults (.slpush g a b) s e { code := 0x18 }
    else ∃ t, exec (.slpush g a b) s = .next t ∧ (t.core k c).sled = own ++ [(src s e vals a, src s e vals b)] ∧ (t.hart e).s = (s.hart e).s)
  ∧ (Issues (.slpop g d) e s vals s₁ → own = [] → exec (.slpop g d) s = .next ((s.writeSpec e d 0).goOn e ((s.hart e).pc + 8)))
  ∧ (∀ l r, Issues (.slpop g d) e s vals s₁ → own = l ++ [r] → ∃ u : State, exec (.slpop g d) s = .next ((u.writeSpec e d 1).goOn e ((s.hart e).pc + 8))
    ∧ (u.core k c).sled = l ∧ u.hart e = { s.hart e with h := ((s.hart e).h.set 3 r.1).set 4 r.2 })
  ∧ (Issues (.slsteal g d) e s vals s₁ →
    ∃ t p, exec (.slsteal g d) s = .next t ∧ (t.core k c).sled = own ∧ (t.core k ((c + 1) % 32)).sled = next
      ∧ (t.hart e).rot = .out ∧ (t.hart e).pend = some p ∧ p.act = .steal ∧ p.dst = some d ∧ p.ans = none ∧ p.acq = none
      ∧ p.due = some (s.clk + 24) ∧ p.next = (s.hart e).pc + 8)
  ∧ ∀ p, (s.hart e).pend = some p → p.act = .steal →
    let m := min ((next.length + 1) / 2) (64 - own.length)
    let taken : Prop := (s.core k c).sledAt = some s.clk ∨ (s.core k ((c + 1) % 32)).sledAt = some s.clk
    (p.ans = none → taken → exec (.longOpLanding e) s = .next s)
    ∧ (p.ans = none → ¬taken → ∃ t : State, exec (.longOpLanding e) s = .next t ∧ (t.core k c).sled = next.take m ++ own
        ∧ (t.core k ((c + 1) % 32)).sled = next.drop m ∧ t.hart e = { s.hart e with pend := some { p with ans := some (.ok (BitVec.ofNat 64 m)) } }
        ∧ MemSame s t)
    ∧ ∀ v r, p.ans = some (.ok v) → p.dst = some r → pushBlocked s e r = none → p.long = false → p.acq = none →
        (∀ x, p.due = some x → x ≤ s.clk) →
        exec (.accessAnswerLands e) s = .next (((s.setHart e { s.hart e with pend := none }).writeSpec e r v).goOn e p.next)

/-- Gather and sled words.
Completes: gidx, sidx, aqclr, qstat, slpush, slpop, slsteal. -/
def Obligations.GatherAndSledWords : Prop := Claims.GatherWords ∧ Claims.SledWords

/-- R32, R320, R322, R393: SEND, CALLR and REPLY, their release made and the words of their payload granted (otherwise they are tried again): a message of its header and payload words, or a reply with the
call's tag, sets out for the core the destination names; SEND waits for it to be taken, CALLR takes the next tag and arms the reply
slot with it; REPLY goes on. To another node the same leaves by a link where a route stands; without one the word raises 0x07. A destination above 22 bits or a payload that is not aligned faults, and so does a reply to no call. -/
def Claims.MessageWords : Prop :=
  ∀ (s : State) k c n vals s₁ (o : Msg), let e := Ent.lap k c n
  let h := s.hart e
  let dest := src s e vals o.a
  let pay := src s e vals o.b
  let cnt := o.words.toNat + 1
  let ctr := if o.noCtr then none else some o.ctr.toNat
  let Sent (t : State) (r : Req) (ph : Phase) : Prop := (∃ id, t.reqs = mput s.reqs id r) ∧ r.who = e ∧ r.phase = ph ∧ r.pasid = s.entPasid e
    ∧ s.clk < r.due
  h.relDone = true → h.pwf = none → NoneDue h →
  (Issues (.send o) e s vals s₁ → 2 ^ 22 ≤ dest.toNat → Faults (.send o) s e { code := 0x05, addr := dest })
  ∧ (Issues (.send o) e s vals s₁ → dest.toNat < 2 ^ 22 → pay.toNat % 8 ≠ 0 → Faults (.send o) s e { code := 0x04, addr := pay })
  ∧ (∀ u, s₁ = s → dest.toNat < 2 ^ 22 → pay.toNat % 8 = 0 → s.takeReads e (wordAddrs pay cnt) = .error u →
    (Issues (.send o) e s vals s₁ → exec (.send o) s = .next u) ∧ (Issues (.callr o) e s vals s₁ → exec (.callr o) s = .next u))
  ∧ (∀ v ws, dest.toNat / 2 ^ 14 = s.node → s.node < 256 → pay.toNat % 8 = 0 → s₁.takeReads e (wordAddrs pay cnt) = .ok v →
    v.plainWords e pay cnt = .ok ws v →
    (Issues (.send o) e s vals s₁ → ∃ t r, exec (.send o) s = .next t ∧ Sent t r .message ∧ r.dest = dest
      ∧ r.op = .msg (msgHeader s e cnt none ctr :: ws) ctr ∧ r.kid = dest.toNat / 32 % 512 ∧ (t.hart e).rot = .out)
    ∧ (Issues (.callr o) e s vals s₁ → ∃ t r, exec (.callr o) s = .next t ∧ Sent t r .message ∧ r.dest = dest
      ∧ r.op = .msg (msgHeader s e cnt (some h.callTag.toNat) ctr :: ws) ctr ∧ (t.hart e).rot = .out ∧ (t.hart e).slot = some h.callTag.toNat
      ∧ (t.hart e).callTag = h.callTag + 1))
  ∧ (∀ v ws node, dest.toNat / 2 ^ 14 = node → node < 256 → node ≠ s.node → pay.toNat % 8 = 0 → s₁.takeReads e (wordAddrs pay cnt) = .ok v →
    v.plainWords e pay cnt = .ok ws v →
    let link (call : Option Nat) : Out := .link node (s.entPasid e) dest (.msg (msgHeader s e cnt call ctr :: ws) ctr)
    (s.routeOk node = false → (Issues (.send o) e s vals s₁ → Faults (.send o) s e { code := 0x07, addr := dest })
      ∧ (Issues (.callr o) e s vals s₁ → Faults (.callr o) s e { code := 0x07, addr := dest }))
    ∧ (s.routeOk node = true →
      (Issues (.send o) e s vals s₁ → ∃ t, exec (.send o) s = .next t ∧ t.outbox = s.outbox ++ [link none] ∧ (t.hart e).rot = .out
        ∧ (t.hart e).pend.map (·.next) = some (h.pc + 8))
      ∧ (Issues (.callr o) e s vals s₁ → ∃ t, exec (.callr o) s = .next t ∧ t.outbox = s.outbox ++ [link (some h.callTag.toNat)]
        ∧ (t.hart e).rot = .parked ∧ (t.hart e).wait = .reply h.callTag.toNat ∧ (t.hart e).slot = some h.callTag.toNat
        ∧ (t.hart e).callTag = h.callTag + 1)))
  ∧ ∀ g a b, Issues (.reply g a b) e s vals s₁ → let x := src s e vals a
    (x.getLsbD 30 = false → Faults (.reply g a b) s e { code := 0x05, addr := x })
    ∧ (x.getLsbD 30 = true → x.toNat / 2 ^ 19 % 256 = s.node → ∃ t r, exec (.reply g a b) s = .next t ∧ Sent t r .replying ∧ r.dest = x
        ∧ r.op = .reply (x.toNat / 2 ^ 32 % 65536) (src s e vals b) ∧ (t.hart e).rot = .ready ∧ (t.hart e).pc = h.pc + 8)
    ∧ ∀ node, x.getLsbD 30 = true → x.toNat / 2 ^ 19 % 256 = node → node ≠ s.node →
        if s.routeOk node then ∃ t, exec (.reply g a b) s = .next t
          ∧ t.outbox = s.outbox ++ [.link node (s.entPasid e) x (.reply (x.toNat / 2 ^ 32 % 65536) (src s e vals b))]
          ∧ (t.hart e).rot = .ready ∧ (t.hart e).pc = h.pc + 8
        else Faults (.reply g a b) s e { code := 0x07, addr := x }

/-- R320: the fields of a message header. -/
def Claims.MessageHeader : Prop :=
  ∀ (s : State) k c n cnt call ctr, k < 512 → c < 32 → n < 16 → s.node < 256 → 1 ≤ cnt → cnt ≤ 8 → (∀ t, call = some t → t < 65536) →
  (∀ x, ctr = some x → x < 16) →
  let h := msgHeader s (.lap k c n) cnt call ctr
  h.extractLsb' 0 6 = BitVec.ofNat 6 c ∧ h.extractLsb' 6 4 = BitVec.ofNat 4 n ∧ h.extractLsb' 10 9 = BitVec.ofNat 9 k
  ∧ h.extractLsb' 19 8 = BitVec.ofNat 8 s.node ∧ h.extractLsb' 27 3 = BitVec.ofNat 3 (cnt - 1) ∧ h.getLsbD 30 = call.isSome
  ∧ h.getLsbD 31 = false ∧ h.extractLsb' 32 16 = BitVec.ofNat 16 (call.getD 0) ∧ h.extractLsb' 48 4 = BitVec.ofNat 4 (ctr.getD 0)
  ∧ h.getLsbD 52 = ctr.isSome ∧ h.extractLsb' 53 11 = 0#11

/-- R327: MJOB places a job in the queue of its control core and leaves the rotation until the job's reply lands; an entry that is not
64-byte aligned raises 0x04; while the queue is full the thread parks. -/
def Claims.JobWord : Prop :=
  ∀ (s : State) k c n vals s₁ g d a b cc, let e := Ent.lap k c n
  let i := Instr.mjob g d a b cc
  let q := s.cc k cc.toNat
  Issues i e s vals s₁ →
  ((src s e vals a).toNat % 64 ≠ 0 → Faults i s e { code := 0x04, addr := src s e vals a })
  ∧ ((src s e vals a).toNat % 64 = 0 → (s.hart e).relDone = true → 4 ≤ q.jobs.length → (s.hart e).rot = .ready → ParksOn i s e (.reply 0))
  ∧ ((src s e vals a).toNat % 64 = 0 → (s.hart e).relDone = true → q.jobs.length < 4 → ∃ t p, exec i s = .next t
      ∧ (t.cc k cc.toNat).jobs = q.jobs ++ [{ entry := src s e vals a, arg := src s e vals b, tag := s.issuerTag e }]
      ∧ (t.hart e).rot = .out ∧ (t.hart e).pend = some p ∧ p.dst = some d ∧ p.act = .job ∧ p.next = (s.hart e).pc + 8)
  ∧ ∀ p v r, (s.hart e).pend = some p → p.act = .job → p.ans = some (.ok v) → p.dst = some r → pushBlocked s e r = none →
      exec (.mjobReply e) s =
        .next ((((s.setHart e { s.hart e with pend := none }).writeSpec e r v).acquireOpt e p.acq).goOn e p.next)

/-- SEND, CALLR, REPLY and MJOB.
Completes: send, callr, reply, mjob, mjobReply. -/
def Obligations.MessageAndJobWords : Prop := Claims.MessageWords ∧ Claims.MessageHeader ∧ Claims.JobWord

/-- R353 to R355: the token buffer of a core. A fill rewrites the valid entry of its key, else takes the lowest invalid entry, else the one
the victim counter names, which goes on by one modulo 64. TBINV clears the valid entries of its key, of its sequence, or all, and
writes their number. TBPROBE writes the address of its key's entry; on a miss the thread goes to the vector with the key in h8 and its
own address in h9, its source not popped, or, with no vector, raises 0x0F. That the key in h8 is the whole of A is the model's reading
(log 44).
Completes: tbfill, tbfillVec, tbinv, tbprobe. -/
def Obligations.TokenBuffer : Prop :=
  ∀ (s : State) k c n vals s₁ g d a b, let e := Ent.lap k c n
  let x := s₁.core k c
  let key := src s e vals a
  let next := (s.hart e).pc + 8
  let ofSeq (y : TokEnt) : Prop := y.v = true ∧ y.seq = key.extractLsb' 32 16
  let ofKey (y : TokEnt) : Prop := ofSeq y ∧ y.blk = key.extractLsb' 0 32
  let Cleared (i : Instr) (which : TokEnt → Prop) : Prop := ∃ (ys : Vector TokEnt 64) (m : Nat),
    exec i s = .next (((s₁.setCore k c { x with toks := ys }).writeSpec e d (BitVec.ofNat 64 m)).goOn e next)
    ∧ (∀ j : Fin 64, (which x.toks[j] → ys[j] = { x.toks[j] with v := false }) ∧ (¬which x.toks[j] → ys[j] = x.toks[j]))
    ∧ ∃ js : List (Fin 64), js.Nodup ∧ js.length = m ∧ ∀ j, j ∈ js ↔ which x.toks[j]
  (x.victim < 64 → Issues (.tbfill g a b) e s vals s₁ → ∃ (j : Fin 64) (v : Nat),
    exec (.tbfill g a b) s = .next ((s₁.setCore k c { x with
      toks := x.toks.set j { v := true, blk := key.extractLsb' 0 32, seq := key.extractLsb' 32 16, addr := src s e vals b }
      victim := v }).goOn e next)
    ∧ ((∃ i : Fin 64, ofKey x.toks[i]) → ofKey x.toks[j] ∧ v = x.victim)
    ∧ ((∀ i : Fin 64, ¬ofKey x.toks[i]) → (∃ i : Fin 64, x.toks[i].v = false) →
        x.toks[j].v = false ∧ (∀ i : Fin 64, i < j → x.toks[i].v = true) ∧ v = x.victim)
    ∧ ((∀ i : Fin 64, ¬ofKey x.toks[i] ∧ x.toks[i].v = true) → j.val = x.victim ∧ v = (x.victim + 1) % 64))
  ∧ (Issues (.tbfillVec g a) e s vals s₁ →
    exec (.tbfillVec g a) s = .next ((s₁.setCore k c { x with tokVec := src s e vals a }).goOn e next))
  ∧ (Issues (.tbinv g d (some a) false) e s vals s₁ → Cleared (.tbinv g d (some a) false) ofKey)
  ∧ (Issues (.tbinv g d (some a) true) e s vals s₁ → Cleared (.tbinv g d (some a) true) ofSeq)
  ∧ (Issues (.tbinv g d none false) e s vals s₁ → Cleared (.tbinv g d none false) fun y => y.v = true)
  ∧ (Issues (.tbprobe g d a) e s vals s₁ →
    (∀ j : Fin 64, ofKey x.toks[j] → (∀ i : Fin 64, i < j → ¬ofKey x.toks[i]) →
      exec (.tbprobe g d a) s = .next ((s₁.writeSpec e d x.toks[j].addr).goOn e next))
    ∧ ((∀ i : Fin 64, ¬ofKey x.toks[i]) →
      if x.tokVec = 0 then Faults (.tbprobe g d a) s e { code := 0x0F }
      else exec (.tbprobe g d a) s = .next (((s.writeSpec e (.h 8) key).writeSpec e (.h 9) (s.hart e).pc).goOn e x.tokVec)))

/-- R32, R345 to R348: DTLD of an image in the own local memory, its banks free, reads its 260 words of 32 bits and leaves the rotation for more than 64 clk; the words
then become the table FN names, header and entries at once, an entry's bits 31 to 21 ignored; a malformed image raises 0x17 and changes nothing; an offset of the address that is not a multiple of 4
raises 0x04. For a control core the change waits for the end of its running step, and loads of one table replace it in the order of their turns. DTRD reads an entry, a place of the permutation or the
header; an index above 512 raises 0x17. -/
def Claims.DecodeTableWords : Prop :=
  ∀ (s : State) k c n vals s₁ g d a b t, let e := Ent.lap k c n
  let ea := src s e vals a
  let w (j : Nat) : W32 := BitVec.ofNat 32 (memRead s₁.mem (localBase k c + ea.toNat % 2 ^ 15 + 4 * j) 4)
  let tab : TabId := match t with | .own => .core k c | .cc0 => .cc k 0 | .cc1 => .cc k 1
  let es : List W32 := (List.range 256).map fun j => w (4 + j)
  let entryOk (x : W32) : Prop :=
    (if x.toNat / 2 ^ 19 % 4 = 0 then x.toNat / 2 ^ 10 % 256 ≤ 254 ∧ x.toNat % 2 ^ 18 ≠ 0 else x.toNat % 2 ^ 18 = 0)
  let wid := (w 0).toNat
  let good : Prop := (wid = 4 ∨ wid = 6 ∨ wid = 8) ∧ w 1 = 0 ∧ w 3 = 0
    ∧ (0 < (w 2).toNat ∧ (w 2).toNat < 0x7F800000) ∧ ∀ j, j < 2 ^ wid → entryOk (w (4 + j))
  (Issues (.dtld g a t) e s vals s₁ → (∀ j, j < 260 → LocalPlace s₁ k c n (ea + BitVec.ofNat 64 (4 * j)) 4 (localBase k c + ea.toNat % 2 ^ 15 + 4 * j)) →
    (good → ∃ (u : State) (m : Nat), 64 < m ∧ Lands (.dtld g a t) e s u m none
        (.table tab { width := wid, tiny := w 2, entries := es.map (· &&& 0x1FFFFF) }) (.ok 0)
        ∧ u.hart e = s₁.hart e ∧ u.tabs = s.tabs ∧ MemSame s u)
    ∧ (¬good → Faults (.dtld g a t) s e { code := 0x17, info := 1023 }))
  ∧ (Issues (.dtld g a t) e s vals s₁ → ea.toNat / 2 ^ 15 = 2 ^ 48 → ea.toNat % 4 ≠ 0 →
    ∃ u : State, exec (.dtld g a t) s = .next (u.takeTrap e { code := 0x04, addr := ea } (s.hart e).pc (insnWord (.dtld g a t))) ∧ u.tabs = s.tabs)
  ∧ (∀ p x, (s.hart e).pend = some p → p.act = .table tab x → p.acq = none → p.dst = none → (∀ m, p.due = some m → m ≤ s.clk) →
    let earlier : Prop := ∃ y ∈ s.harts, ∃ q x', y.2.pend = some q ∧ q.act = .table tab x' ∧ q.due.getD 0 < p.due.getD 0
    ((∃ cc, tab = .cc k cc ∧ (s.cc k cc).run.isSome) ∨ earlier → exec (.decodeTableReplace e) s = .next s)
    ∧ ((∀ cc, tab = .cc k cc → (s.cc k cc).run = none) → ¬earlier →
      exec (.decodeTableReplace e) s = .next (((s.setTab tab x).setHart e { s.hart e with pend := none }).goOn e p.next)))
  ∧ (Issues (.dtrd g d b t) e s vals s₁ →
    let x := s₁.tab tab
    let idx := (srcB s e vals .b64 b).toNat
    (idx < 256 → exec (.dtrd g d b t) s = .next ((s₁.writeSpec e d ((x.entries.getD idx 0).setWidth 64)).goOn e (nextPc s e (.dtrd g d b t))))
    ∧ (256 ≤ idx → idx ≤ 512 → ∃ v, tableWord x idx = some v
        ∧ exec (.dtrd g d b t) s = .next ((s₁.writeSpec e d v).goOn e (nextPc s e (.dtrd g d b t))))
    ∧ (512 < idx → Faults (.dtrd g d b t) s e { code := 0x17, info := if idx < 1024 then BitVec.ofNat 10 idx else 1023 }))

/-- R59, R348: what DTRD reads of the permutation and the header of a table of up to 8 bits: the candidates are the codes whose entries are
finite or zero; index 512 gives the width, their number and the tiny bound; index 256 + p gives the code at place p with bit 8 for p
below their number, and 0 beyond; the codes rise by value, -0 before +0, the lower code first. -/
def Claims.TablePermutation : Prop :=
  ∀ (x : DTab), x.width ≤ 8 → x.entries.length = 256 →
  let ent (cd : Nat) : W32 := x.entries.getD cd 0
  let cands := (List.range (2 ^ x.width)).filter fun cd => decide ((ent cd).toNat / 2 ^ 19 % 4 < 2)
  let before (p q : Nat) : Prop := entInt (ent p) < entInt (ent q)
    ∨ (entInt (ent p) = entInt (ent q) ∧
        let np : Bool := entCls (ent p) = 1 && entNeg (ent p)
        let nq : Bool := entCls (ent q) = 1 && entNeg (ent q)
        (np = true ∧ nq = false) ∨ (np = nq ∧ p < q))
  (∃ v, tableWord x 512 = some v ∧ v.extractLsb' 0 8 = BitVec.ofNat 8 x.width ∧ v.extractLsb' 8 9 = BitVec.ofNat 9 cands.length
    ∧ v.extractLsb' 17 15 = 0 ∧ v.extractLsb' 32 32 = x.tiny)
  ∧ (∀ p, p < 256 → cands.length ≤ p → tableWord x (256 + p) = some 0)
  ∧ ∃ perm : List Nat, perm.Perm cands ∧ perm.Pairwise before
    ∧ ∀ p, (h : p < perm.length) → tableWord x (256 + p) = some (BitVec.ofNat 64 (256 + perm[p]))

/-- Decode tables are loaded, read and replaced.
Completes: dtld, dtrd, decodeTableReplace. -/
def Obligations.DecodeTables : Prop := Claims.DecodeTableWords ∧ Claims.TablePermutation

/-- R345, R350: SRFENCE drops the record of its address, or all, from the own cluster's cache, and lands 12 clk after issue; with re also from the
die's routing engine, and it leaves the rotation until that engine has answered. -/
def Claims.ShapeFence : Prop :=
  ∀ (s : State) k c n vals s₁ g rec, let e := Ent.lap k c n
  let keep (x : W64 × List W64) : Bool := match rec with | some r => x.1 != src s e vals r | none => false
  let s₂ := s₁.setCluster k { s₁.cluster k with shapes := (s₁.cluster k).shapes.filter keep }
  (Issues (.srfence g false rec) e s vals s₁ → Lands (.srfence g false rec) e s s₂ 12 none .plain (.ok 0))
  ∧ (Issues (.srfence g true rec) e s vals s₁ → ∃ t p, exec (.srfence g true rec) s = .next t ∧ (t.hart e).rot = .out
    ∧ (t.hart e).pend = some p ∧ p.ans = some (.ok 0) ∧ p.next = (s.hart e).pc + 8 ∧ (∃ m, p.due = some m ∧ s.clk < m)
    ∧ (t.cluster k).shapes = (s₁.cluster k).shapes.filter keep
    ∧ (t.die (k / 128)).shapes = (s.die (k / 128)).shapes.filter keep)

/-- R32, R345, R350 to R352: GRPFIND of a well-formed record in the own scratchpad, cached or not, with no store of the thread on its way, no
uncorrectable word and the banks of its cluster free. For a vector whose tiles do not fall, the
result is out of range at or beyond the last tile, and otherwise group, first row and rows of the group that the tile lies in. It lands
90 clk after issue when the record was cached, else 114, and the record is cached after it. A record that is not well-formed raises
0x17. -/
def Claims.GroupSearch : Prop :=
  ∀ (s : State) k c n vals s₁ (o : Dab), let e := Ent.lap k c n
  let rec_ := src s e vals o.a
  let t := (srcB s e vals .b64 o.b).toNat % 2 ^ 32
  let off := rec_.toNat % 2 ^ 22
  let cached := ((s₁.cluster k).shapes.find? fun x => x.1 = rec_).map (·.2)
  let word (j : Nat) : W64 := match cached with | some r => r.getD j 0 | none => BitVec.ofNat 64 (memRead s₁.mem (cspBase k + off + 8 * j) 8)
  let G := (word 2).toNat
  let vec := (word 1).toNat % 2 ^ 22
  let well : Prop := word 0 = 0x1502 ∧ 1 ≤ G ∧ G ≤ 65535 ∧ word 6 = 8 ∧ ∀ j, j < 24 → j ∉ [0, 1, 2, 6] → word j = 0
  let W (i : Nat) := memRead s₁.mem (cspBase k + vec + 8 * i) 8
  let tile (i : Nat) := W i / 2 ^ 32
  let row (i : Nat) := W i % 2 ^ 32
  Issues (.grpfind o) e s vals s₁ → rec_.toNat / 2 ^ 22 = 0x24000000000 → off % 64 = 0 → off + 192 ≤ 0x3FFF00 →
  s.bad = [] → (∀ q ∈ s.reqs, q.2.who ≠ e) → (∀ b, s₁.bankFree k b = true) →
  (¬well → Faults (.grpfind o) s e { code := 0x17, info := 1023 })
  ∧ (well → (word 1).toNat / 2 ^ 22 = 0x24000000000 → vec % 8 = 0 → vec + 8 * (G + 1) ≤ 0x3FFF00 →
      (∀ i, i < G → tile i ≤ tile (i + 1)) → tile 0 = 0 →
    ∃ (u : State) (v : W64), Lands (.grpfind o) e s u (if cached.isSome then 90 else 114) (some o.d) .plain (.ok v)
      ∧ u.hart e = s₁.hart e ∧ MemSame s u ∧ ((u.cluster k).shapes.head?).map (·.1) = some rec_
      ∧ (tile G ≤ t → v = 0x8000000000000000)
      ∧ ∀ i, i < G → tile i ≤ t → t < tile (i + 1) → 64 * (t - tile i) ≤ row (i + 1) - row i → row i ≤ row (i + 1) →
          let rs := row i + 64 * (t - tile i)
          v = BitVec.ofNat 64 (i + rs * 2 ^ 16 + min 64 (row (i + 1) - rs) * 2 ^ 48))

/-- SRFENCE and GRPFIND.
Completes: srfence, grpfind. -/
def Obligations.ShapesAndGroups : Prop := Claims.ShapeFence ∧ Claims.GroupSearch

/-- R369 to R372: the trigger counters of a core. TCRD writes the counter's word; TCSET sets its count, clears under, and wakes the bound
thread when the count is 0; a value of B above 32 bits raises 0x17; TBIND goes on at once when the count is 0, raises 0x17 when another
thread is bound, and otherwise binds and parks its thread after the word. A decrement at 0 sets under; one from 1 of a bound counter
ends the binding and wakes its thread. -/
def Claims.TriggerCounters : Prop :=
  ∀ (s : State) k c n vals s₁ g d b (ctr : BitVec 4), n < 16 → let e := Ent.lap k c n
  let t := (s.core k c).trigAt ctr.toNat
  let f := Ent.lap k c t.slot
  let waits : Prop := (s.hart f).rot = .parked ∧ (s.hart f).wait = .trigger ctr.toNat
  let v := srcB s e vals .b64 b
  let SetTo (u : State) (y : Trig) : Prop := (u.core k c).trigAt ctr.toNat = y
    ∧ (∀ j, j ≠ ctr.toNat → (u.core k c).trigAt j = (s.core k c).trigAt j) ∧ MemSame s u
  let Woken (u : State) : Prop := (u.hart f).rot = .ready ∧ (u.hart f).wait = .none ∧ (u.hart f).pc = (s.hart f).pc ∧ (u.hart f).s = (s.hart f).s
  (Issues (.tcrd g d ctr) e s vals s₁ → ∃ w : W64, exec (.tcrd g d ctr) s = .next ((s₁.writeSpec e d w).goOn e ((s.hart e).pc + 8))
    ∧ (t.count < 2 ^ 32 → t.slot < 16 → w.extractLsb' 0 32 = BitVec.ofNat 32 t.count ∧ w.extractLsb' 32 4 = BitVec.ofNat 4 t.slot
        ∧ w.getLsbD 36 = t.bound ∧ w.getLsbD 37 = t.under ∧ w.extractLsb' 38 26 = 0#26))
  ∧ (Issues (.tcset g b ctr) e s vals s₁ →
    (2 ^ 32 ≤ v.toNat → Faults (.tcset g b ctr) s e { code := 0x17, info := v.setWidth 10 })
    ∧ (v.toNat < 2 ^ 32 → v ≠ 0 ∨ t.bound = false → ∃ u : State, exec (.tcset g b ctr) s = .next (u.goOn e (nextPc s e (.tcset g b ctr)))
        ∧ SetTo u { t with count := v.toNat, under := false, acq := none } ∧ u.harts = s₁.harts)
    ∧ (v = 0 → t.bound = true → waits → f ≠ e → ∃ u : State, exec (.tcset g b ctr) s = .next (u.goOn e (nextPc s e (.tcset g b ctr)))
        ∧ SetTo u { t with count := 0, under := false, acq := none, bound := false } ∧ Woken u))
  ∧ (Issues (.tbind g ctr) e s vals s₁ →
    (t.bound = true → t.slot ≠ n → Faults (.tbind g ctr) s e { code := 0x17, info := ctr.setWidth 10 })
    ∧ (t.bound = false ∨ t.slot = n → t.count = 0 →
        exec (.tbind g ctr) s = .next ((s.acquireOpt e t.acq).goOn e ((s.hart e).pc + 8)))
    ∧ (t.bound = false ∨ t.slot = n → t.count ≠ 0 → ∃ u : State, exec (.tbind g ctr) s = .next u ∧ SetTo u { t with slot := n, bound := true }
        ∧ (u.hart e).rot = .parked ∧ (u.hart e).wait = .trigger ctr.toNat ∧ (u.hart e).pc = (s.hart e).pc + 8 ∧ (u.hart e).s = (s.hart e).s))
  ∧ (t.count = 0 → SetTo (s.decrement k c ctr.toNat none) { t with under := true })
  ∧ (1 < t.count → SetTo (s.decrement k c ctr.toNat none) { t with count := t.count - 1 })
  ∧ (t.count = 1 → t.bound = false → SetTo (s.decrement k c ctr.toNat none) { t with count := 0 })
  ∧ (t.count = 1 → t.bound = true → waits →
      SetTo (s.decrement k c ctr.toNat none) { t with count := 0, bound := false } ∧ Woken (s.decrement k c ctr.toNat none))

/-- R373 to R375: the peg words. On a peg of the own scratchpad whose release is made, PEGARM sets its target and clears its count, PEGARM
.add adds and, at the target, starts the next generation; both write the old word. An addition beyond the target, or to a peg with no
target, raises 0x1A, and a bad operand raises 0x17. PEGWAIT writes the word once its generation has come, and parks until then. On a global
peg each is sent to the word's home. -/
def Claims.PegWords : Prop :=
  ∀ (s : State) k c n vals s₁ (o : Dab) off, MemOk s → let e := Ent.lap k c n
  let ea := src s e vals o.a
  let b := srcB s e vals .b64 o.b
  let m : W64 := BitVec.ofNat 64 (memRead s.mem (cspBase k + off) 8)
  let cnt := (m.extractLsb' 0 28).toNat
  let tgt := m.extractLsb' 28 28
  let gen := m.extractLsb' 56 8
  let Becomes (i : Instr) (w : W64) : Prop := ∃ u : State, exec i s = .next ((u.writeSpec e o.d m).goOn e (nextPc s e i))
    ∧ Stores (cspBase k + off) 8 w s u ∧ OnlyWrites e none s (unstored u s)
  let glob : Prop := ea.toNat < 2 ^ 56 ∧ ea.toNat % 8 = 0 ∧ s.postedAt e ea = false ∧ s.entPasid e ≠ none
  (Issues (.pegarm o) e s vals s₁ → (s.hart e).relDone = true → ScratchPlace s k c n ea 8 off →
    (b.toNat < 2 ^ 28 → Becomes (.pegarm o) (gen ++ (b.extractLsb' 0 28 ++ 0#28)))
    ∧ (2 ^ 28 ≤ b.toNat → Faults (.pegarm o) s e { code := 0x17, info := b.setWidth 10 }))
  ∧ (Issues (.pegarmAdd o) e s vals s₁ → (s.hart e).relDone = true → ScratchPlace s k c n ea 8 off →
    (b = 0 ∨ 2 ^ 28 ≤ b.toNat → Faults (.pegarmAdd o) s e { code := 0x17, info := b.setWidth 10 })
    ∧ (b ≠ 0 → b.toNat < 2 ^ 28 → tgt = 0 ∨ tgt.toNat < cnt + b.toNat → Faults (.pegarmAdd o) s e { code := 0x1A, addr := ea })
    ∧ (b ≠ 0 → b.toNat < 2 ^ 28 → cnt + b.toNat < tgt.toNat → Becomes (.pegarmAdd o) (gen ++ (tgt ++ BitVec.ofNat 28 (cnt + b.toNat))))
    ∧ (b ≠ 0 → b.toNat < 2 ^ 28 → cnt + b.toNat = tgt.toNat → Becomes (.pegarmAdd o) ((gen + 1) ++ (tgt ++ 0#28))))
  ∧ (Issues (.pegwait o) e s vals s₁ → ScratchPlace s k c n ea 8 off →
    (2 ^ 8 ≤ b.toNat → Faults (.pegwait o) s e { code := 0x17, info := b.setWidth 10 })
    ∧ (b.toNat < 2 ^ 8 → (gen - b.extractLsb' 0 8).toNat < 128 → ∃ u : State,
        exec (.pegwait o) s = .next (u.goOn e (nextPc s e (.pegwait o))) ∧ u.hart e = (s₁.writeSpec e o.d m).hart e ∧ OnlyWrites e (some o.d) s u)
    ∧ (b.toNat < 2 ^ 8 → 128 ≤ (gen - b.extractLsb' 0 8).toNat → (s.hart e).rot = .ready → ParksOn (.pegwait o) s e (.peg ea)))
  ∧ (glob → (Issues (.pegarm o) e s vals s₁ → (s.hart e).relDone = true → (s.hart e).pwf = none → b.toNat < 2 ^ 28 →
      SendsAndWaits (.pegarm o) s e (some o.d) ea (.pegArm b.toNat) .station)
    ∧ (Issues (.pegarmAdd o) e s vals s₁ → (s.hart e).relDone = true → (s.hart e).pwf = none → b ≠ 0 → b.toNat < 2 ^ 28 →
      SendsAndWaits (.pegarmAdd o) s e (some o.d) ea (.pegAdd b.toNat) .station)
    ∧ (Issues (.pegwait o) e s vals s₁ → b.toNat < 2 ^ 8 → SendsAndWaits (.pegwait o) s e (some o.d) ea (.pegWait b.toNat) .station))

/-- Trigger counters and pegs.
Completes: tbind, tcset, tcrd, pegarm, pegarmAdd, pegwait. -/
def Obligations.CountersAndPegs : Prop := Claims.TriggerCounters ∧ Claims.PegWords

/-- R32, R376, R377: RCRD writes a routing pair of the issuer's die 40 clk after issue; RCSNAP to the own scratchpad, its banks free, writes the 32 pairs of its
bank to its address and clears them, and no other pair. -/
def Claims.RoutingCounters : Prop :=
  ∀ (s : State) k c n vals s₁ g d a b, MemOk s → let e := Ent.lap k c n
  let v := srcB s e vals .b64 b
  let pair (u : State) (j : Nat) : W64 := mget (u.die (k / 128)).rcs 0 j
  let ea := src s e vals a
  let off := ea.toNat % 2 ^ 22
  (Issues (.rcrd g d b) e s vals s₁ →
    if v.toNat ≤ 255 then Lands (.rcrd g d b) e s s₁ 40 (some d) .plain (.ok (pair s v.toNat))
    else Faults (.rcrd g d b) s e { code := 0x17, info := v.setWidth 10 })
  ∧ (Issues (.rcsnap g a b) e s vals s₁ → ea.toNat / 2 ^ 22 = 0x24000000000 → ea.toNat % 8 = 0 → v.toNat > 7 →
    Faults (.rcsnap g a b) s e { code := 0x17, info := v.setWidth 10 })
  ∧ (Issues (.rcsnap g a b) e s vals s₁ → ea.toNat / 2 ^ 22 = 0x24000000000 → ea.toNat % 8 = 0 → v.toNat ≤ 7 → off + 256 ≤ 0x3FFF00 →
    (s.cluster k).tiles = [] → s.bad = [] → (∀ q ∈ s.reqs, q.2.who ≠ e) → (∀ j, s.bankFree k j = true) →
    ∃ t p, exec (.rcsnap g a b) s = .next t ∧ (t.hart e).rot = .out ∧ (t.hart e).pend = some p ∧ p.ans = some (.ok 0)
      ∧ p.next = nextPc s e (.rcsnap g a b)
      ∧ (∀ j, j < 32 → memRead t.mem (cspBase k + off + 8 * j) 8 = (pair s (32 * v.toNat + j)).toNat) ∧ MemSameBut (cspBase k + off) 256 s t
      ∧ ∀ j, pair t j = if j / 32 = v.toNat then 0 else pair s j)

/-- R378, R379: the bump allocators. BUMPSET sets the allocator, and the old word 0 lands 12 clk later; it raises 0x17 for a valid one that is
malformed.
BUMP rounds its size up to the alignment, takes the block at the pointer when it fits, and otherwise goes on along the chunk list; its
address lands 12 clk after issue and 12 later for the header read here, its bank free, with no store of the thread on its way and no
uncorrectable word. An exhausted or invalid allocator raises 0x1B, a bad size or header
0x17. -/
def Claims.BumpAllocators : Prop :=
  ∀ (s : State) k c n vals s₁ g d a b r (al : BitVec 3), let e := Ent.lap k c n
  let x := s₁.cluster k
  let w := x.bumps[al.toNat]
  let f (v : W64) (p m : Nat) : Nat := (v.toNat / 2 ^ p) % 2 ^ m
  let ptr := f w.1 0 23
  let lim := f w.1 23 23
  let unit := 2 ^ (3 + f w.1 46 3)
  let chain := f w.2 0 22
  let B := srcB s e vals .b64 b
  let size := (B.toNat + unit - 1) / unit * unit
  let i := Instr.bump g d b al
  let mk (p l ch : Nat) : W64 × W64 := (BitVec.ofNat 64 (p + l * 2 ^ 23 + f w.1 46 3 * 2 ^ 46 + 2 ^ 63), BitVec.ofNat 64 ch)
  let Takes (p l ch clks : Nat) : Prop := Lands i e s (s₁.setCluster k { x with bumps := x.bumps.set al.toNat (mk (p + size) l ch) }) clks
    (some d) .plain (.ok (BitVec.ofNat 64 (0x9000000000000000 + p)))
  let TakesNext (p l ch : Nat) : Prop := ∃ u : State, Lands i e s u 24 (some d) .plain (.ok (BitVec.ofNat 64 (0x9000000000000000 + p)))
    ∧ (u.cluster k).bumps = x.bumps.set al.toNat (mk (p + size) l ch) ∧ u.hart e = s₁.hart e ∧ MemSame s u
  let A := src s e vals a
  let R := src s e vals r
  let Sets (y : W64 × W64) : Prop := Lands (.bumpset g d a r al) e s (s₁.setCluster k { x with bumps := x.bumps.set al.toNat y }) 12 (some d)
    .plain (.ok w.1)
  let legal : Prop := f A 49 14 = 0 ∧ f A 46 3 ≠ 7 ∧ f A 0 23 ≤ f A 23 23 ∧ f A 23 23 ≤ 0x400000 ∧ f R 22 42 = 0 ∧ f R 0 3 = 0
  (Issues (.bumpset g d a r al) e s vals s₁ →
    (A.getLsbD 63 = true → ¬legal → Faults (.bumpset g d a r al) s e { code := 0x17, info := 1023 })
    ∧ (A.getLsbD 63 = true → legal → Sets (A, R))
    ∧ (A.getLsbD 63 = false → ∃ y : W64 × W64, Sets y ∧ y.1.getLsbD 63 = false))
  ∧ (Issues i e s vals s₁ →
    (B = 0 ∨ 2 ^ 21 < B.toNat → Faults i s e { code := 0x17, info := B.setWidth 10 })
    ∧ (B ≠ 0 → B.toNat ≤ 2 ^ 21 → w.1.getLsbD 63 = false → Faults i s e { code := 0x1B })
    ∧ (B ≠ 0 → B.toNat ≤ 2 ^ 21 → w.1.getLsbD 63 = true →
      (ptr + size ≤ lim → Takes ptr lim chain 12)
      ∧ (lim < ptr + size → chain = 0 → Faults i s e { code := 0x1B })
      ∧ (lim < ptr + size → chain ≠ 0 → chain % 8 = 0 → chain < 0x3FFF00 → s.bad = [] → (∀ q ∈ s.reqs, q.2.who ≠ e) →
        let h := memRead s.mem (cspBase k + chain) 8
        let hs := h % 2 ^ 22
        let p := (chain + 8 + unit - 1) / unit * unit
        let bad : Prop := h / 2 ^ 44 ≠ 0 ∨ hs < 8 ∨ 0x400000 < chain + hs
        (bad → Faults i s e { code := 0x17, info := 1023 })
        ∧ (¬bad → p + size ≤ chain + hs → s.bankFree k (chain / 8 % 64) = true → (s.hart e).reads = 0 → TakesNext p (chain + hs) (h / 2 ^ 22 % 2 ^ 22))
        ∧ (¬bad → chain + hs < p + size → h / 2 ^ 22 % 2 ^ 22 = 0 → Faults i s e { code := 0x1B }))))

/-- Routing counters and bump allocators.
Completes: rcsnap, rcrd, bump, bumpset. -/
def Obligations.RoutingCountsAndBumps : Prop := Claims.RoutingCounters ∧ Claims.BumpAllocators

/-- R32, R343, R345, R356 to R358: the sequence table of the issuer's die. SQSET admits the image of 32 bytes at B, its banks free, into a free entry with its pending
count above 0, as waiting with the next stamp, the count of admissions before it plus one (log 42); its operations follow their table; user and prio are set in an entry that is not free;
SQGET reads a word. The result lands 40 clk after issue, or after the die's table unit is free, which serves one operation after another (log 89): 0 when the operation took effect, 1 when it was refused and changed nothing. An
index above 4,095 or an operation that is none of 1 to 7, as malformed, raises 0x17. No other entry changes. -/
def Claims.SequenceTable : Prop :=
  ∀ (s : State) k c n vals s₁ (o : Dab) w, let e := Ent.lap k c n
  let A := src s e vals o.a
  let B := srcB s e vals .b64 o.b
  let idx := A.toNat
  let D := k / 128
  let old := s.seqAt D idx
  let word (j : Nat) : W64 := old.getD j 0
  let st := (word 0).toNat % 8
  let pend := (word 1).toNat / 2 ^ 32
  let ctx := (word 1).toNat % 2 ^ 32
  let img (j : Nat) : W64 := BitVec.ofNat 64 (memRead s.mem (localBase k c + B.toNat % 2 ^ 15 + 8 * j) 8)
  let wait := max s.clk (s.die D).unitFree - s.clk + 40
  let Done (i : Instr) (ws : List W64) : Prop := ∃ u : State, Lands i e s u wait (some o.d) .plain (.ok 0) ∧ u.seqAt D idx = ws
    ∧ (∀ d q, (d, q) ≠ (D, idx) → u.seqAt d q = s.seqAt d q) ∧ u.hart e = s₁.hart e ∧ MemSame s u
  let Refused (i : Instr) : Prop := ∃ u : State, Lands i e s u wait (some o.d) .plain (.ok 1) ∧ u.dies = (s₁.useUnit D 40).dies
    ∧ u.hart e = s₁.hart e ∧ MemSame s u
  let stateTo (x : Nat) : List W64 := ((word 0).extractLsb' 3 61 ++ BitVec.ofNat 3 x) :: old.drop 1
  (Issues (.sqset o) e s vals s₁ → (s.hart e).reads = 0 → (∀ j, j < 4 → LocalPlace s k c n (B + BitVec.ofNat 64 (8 * j)) 8 (localBase k c + B.toNat % 2 ^ 15 + 8 * j)) →
    (idx > 4095 → Faults (.sqset o) s e { code := 0x17, info := A.setWidth 10 })
    ∧ (idx ≤ 4095 → st ≠ 0 ∨ (img 1).toNat < 2 ^ 32 → Refused (.sqset o))
    ∧ (idx ≤ 4095 → st = 0 → 2 ^ 32 ≤ (img 1).toNat →
      Done (.sqset o) [((s.die D).admits + 1) ++ (0#16 ++ ((img 0).extractLsb' 8 8 ++ 1#8)), img 1, img 2, img 3]))
  ∧ (idx > 4095 → (Issues (.sqsetOp o) e s vals s₁ → Faults (.sqsetOp o) s e { code := 0x17, info := A.setWidth 10 })
    ∧ (Issues (.sqsetUser o) e s vals s₁ → Faults (.sqsetUser o) s e { code := 0x17, info := A.setWidth 10 })
    ∧ (Issues (.sqsetPrio o) e s vals s₁ → Faults (.sqsetPrio o) s e { code := 0x17, info := A.setWidth 10 })
    ∧ ∀ g, Issues (.sqget g o.d o.a w) e s vals s₁ → Faults (.sqget g o.d o.a w) s e { code := 0x17, info := A.setWidth 10 })
  ∧ (idx ≤ 4095 → Issues (.sqsetOp o) e s vals s₁ →
    let i := Instr.sqsetOp o
    let op := B.toNat
    (op = 0 ∨ 7 < op → Faults i s e { code := 0x17, info := 1023 })
    ∧ (op = 1 → if st ∈ [1, 2, 3] then Done i (stateTo 4) else Refused i)
    ∧ (op = 2 → if st = 4 then Done i (stateTo (if pend = 0 then 3 else if ctx = 0 then 1 else 2)) else Refused i)
    ∧ (op = 3 → if st ∈ [3, 4] then Done i (stateTo 5) else Refused i)
    ∧ (op = 4 → if st = 5 then Done i (stateTo 4) else Refused i)
    ∧ (op = 5 → if st ∈ [1, 2, 3, 4, 5] then Done i (stateTo 6) else Refused i)
    ∧ (op = 6 → if st = 6 then Done i (stateTo 0) else Refused i)
    ∧ (op = 7 → Done i [0, 0, 0, 0]))
  ∧ (idx ≤ 4095 → Issues (.sqsetUser o) e s vals s₁ → if st = 0 then Refused (.sqsetUser o) else Done (.sqsetUser o) (old.set 3 B))
  ∧ (idx ≤ 4095 → Issues (.sqsetPrio o) e s vals s₁ → if st = 0 then Refused (.sqsetPrio o)
      else Done (.sqsetPrio o) (old.set 0 ((word 0).extractLsb' 16 48 ++ (B.extractLsb' 0 8 ++ (word 0).extractLsb' 0 8))))
  ∧ ∀ g, idx ≤ 4095 → Issues (.sqget g o.d o.a w) e s vals s₁ → Lands (.sqget g o.d o.a w) e s (s₁.useUnit D 40) wait (some o.d) .plain
      (.ok (word w.toNat))

/-- R32, R359: the order in which SQBUILD takes the sequences, what bounds a batch, and its word: with a record in the own local memory, its banks
free, the batch is written there, its sequences are brought on, the build count rises by one, and the number of its entries lands 1,024 + 8m clk after issue
and after the die's table unit is free at the earliest (log 89), with the release and the decrement to follow. Bad budgets raise 0x17. -/
def Claims.SequenceBuild : Prop :=
  (∀ l : List (Nat × List W64),
    let dec (x : Nat × List W64) : Bool := seqState x.2 == 3
    (buildList l).Perm (l.filter fun x => [1, 2, 3].contains (seqState x.2))
    ∧ (buildList l).Pairwise fun a b => (dec a = true ∧ dec b = false) ∨ (dec a = dec b ∧ (seqPrio b.2 < seqPrio a.2
        ∨ (seqPrio a.2 = seqPrio b.2 ∧ (seqStamp a.2 < seqStamp b.2 ∨ (seqStamp a.2 = seqStamp b.2 ∧ a.1 ≤ b.1))))))
  ∧ (∀ tb sb ch l, let r := (buildList l).foldl (buildOne tb sb ch) { recs := [], m := 0, used := 0, seqs := [] }
    r.m ≤ sb ∧ r.used ≤ tb ∧ r.recs.length = 2 * r.m ∧ r.seqs.map (·.1) = ((buildList l).take r.m).map (·.1)
    ∧ (r.m < (buildList l).length → r.m = sb ∨ r.used = tb))
  ∧ ∀ (s : State) k c n vals s₁ g d a b ct, let e := Ent.lap k c n
    let i := Instr.sqbuild g d a b ct
    let D := k / 128
    let x := s.die D
    let ea := src s e vals a
    let w := (src s e vals b).toNat
    let tb := w % 2 ^ 16
    let sb := w / 2 ^ 16 % 2 ^ 12
    let base := localBase k c + ea.toNat % 2 ^ 15
    let name : Option W64 := if ct = .z then none else some (src s e vals ct)
    let good : Prop := 0 < tb ∧ 0 < sb ∧ sb ≤ 1024 ∧ w / 2 ^ 28 % 16 = 0 ∧ w < 2 ^ 48 ∧ ∀ v, name = some v → v.toNat < 2 ^ 18
    let r := (buildList x.seqs).foldl (buildOne tb sb (w / 2 ^ 32 % 2 ^ 16)) { recs := [], m := 0, used := 0, seqs := [] }
    MemOk s → (x.seqs.map (·.1)).Nodup → Issues i e s vals s₁ → ea.toNat / 2 ^ 15 = 2 ^ 48 → ea.toNat % 8 = 0 →
    ea.toNat % 2 ^ 15 + 8 + 16 * sb ≤ 2 ^ 15 → s.bad = [] → (∀ q ∈ s.reqs, q.2.who ≠ e) →
    (¬good → Faults i s e { code := 0x17, info := 1023 })
    ∧ (good → (∀ j, s.bankFree k j = true) → ∃ t p, exec i s = .next t ∧ (t.hart e).rot = .out ∧ (t.hart e).pend = some p ∧ p.dst = some d
      ∧ p.ans = some (.ok (BitVec.ofNat 64 r.m)) ∧ p.due = some (max s.clk x.unitFree + (1024 + 8 * r.m)) ∧ p.act = .build none name
      ∧ (t.die D).builds = x.builds + 1
      ∧ memRead t.mem base 8 = r.m + r.used * 2 ^ 16 + x.builds.toNat * 2 ^ 32
      ∧ (∀ j, j < 2 * r.m → memRead t.mem (base + 8 + 8 * j) 8 = (r.recs.getD j 0).toNat) ∧ MemSameBut base (8 + 16 * r.m) s t
      ∧ ∀ q, t.seqAt D q = mget r.seqs (s.seqAt D q) q)

/-- The sequence table and the building of a batch.
Completes: sqset, sqsetOp, sqsetUser, sqsetPrio, sqget, sqbuild. -/
def Obligations.Sequences : Prop := Claims.SequenceTable ∧ Claims.SequenceBuild

/-- R360, R361: the expert table of the issuer's die. ERSET replaces an entry as a whole, the reserved bits of its word 1 checked even where it does not split (log 43); ERGET gives the destination of a token, or a word.
Both land 40 clk after issue, or after the die's table unit is free (log 89). An index above 255 and a malformed entry raise 0x17. -/
def Claims.ExpertTable : Prop :=
  ∀ (s : State) k c n vals s₁ g a b ct (o : Dab) w, let e := Ent.lap k c n
  let D := k / 128
  let f (v : W64) (p m : Nat) : Nat := v.toNat / 2 ^ p % 2 ^ m
  let wait := max s.clk (s.die D).unitFree - s.clk + 40
  let fits (v : W64) : Prop := f v 0 5 + f v 22 5 ≤ 31
  let W0 := src s e vals b
  let W1 := src s e vals ct
  let legal : Prop := if W0.getLsbD 63 then f W0 27 5 = 0 ∧ f W0 34 29 = 0 ∧ f W1 35 29 = 0 ∧ f W0 32 2 ≠ 3 ∧ fits W0 ∧ (f W0 32 2 ≠ 0 → fits W1)
    else W0 = 0 ∧ W1 = 0
  (Issues (.erset g a b ct) e s vals s₁ → let A := src s e vals a
    (255 < A.toNat → Faults (.erset g a b ct) s e { code := 0x17, info := A.setWidth 10 })
    ∧ (A.toNat ≤ 255 → ¬legal → Faults (.erset g a b ct) s e { code := 0x17, info := 1023 })
    ∧ (A.toNat ≤ 255 → legal → ∃ u : State, Lands (.erset g a b ct) e s u wait none .plain (.ok 0) ∧ u.hart e = s₁.hart e ∧ MemSame s u
      ∧ ∀ j, mget (u.die D).experts (0, 0) j = if j = A.toNat then (W0, W1) else mget (s.die D).experts (0, 0) j))
  ∧ (Issues (.erget o w) e s vals s₁ → let A := src s e vals o.a
    let x := mget (s.die D).experts (0, 0) A.toNat
    let t := (srcB s e vals .b64 o.b).toNat % 2 ^ 32
    let split := f x.1 32 2
    let rep : Prop := (split = 1 ∧ t % 2 = 1) ∨ (split = 2 ∧ t * 0x9E3779B9 % 2 ^ 32 / 2 ^ 24 < f x.2 27 8)
    let dest (y : W64) : W64 := BitVec.ofNat 64 (f y 5 17 * 32 + (f y 0 5 + t % (f y 22 5 + 1)) % 32)
    let Gives (v : W64) : Prop := Lands (.erget o w) e s (s₁.useUnit D 40) wait (some o.d) .plain (.ok v)
    (255 < A.toNat → Faults (.erget o w) s e { code := 0x17, info := A.setWidth 10 })
    ∧ (A.toNat ≤ 255 →
      (w = 0 → x.1.getLsbD 63 = false → Gives 0x8000000000000000)
      ∧ (w = 0 → x.1.getLsbD 63 = true → (rep → Gives (dest x.2)) ∧ (¬rep → Gives (dest x.1)))
      ∧ (w = 1 → Gives x.1) ∧ (w = 2 → Gives x.2)))

/-- R365, R366: TOLSET of a legal entry leaves the rotation, and its die's table takes the entry when the switch is due and no allowance is
outstanding, an invalid entry like any other; the thread then goes on. An index above 63 and a malformed entry raise 0x17. -/
def Claims.ToleranceTable : Prop :=
  ∀ (s : State) k c n vals s₁ g a b ct (die : BitVec 2), let e := Ent.lap k c n
  let i := Instr.tolset g a b ct die
  let A := src s e vals a
  let W0 := src s e vals b
  let W1 := src s e vals ct
  let f (p m : Nat) : Nat := W0.toNat / 2 ^ p % 2 ^ m
  let legal : Prop := f 60 4 = 0 ∧ f 56 2 ≠ 3 ∧ f 58 2 ≠ 3
    ∧ (f 36 20 = 0 ∨ (0 < W1.toNat ∧ W1.toNat < if f 56 2 = 2 then 0x7FF0000000000000 else 0x7F800000))
  (Issues i e s vals s₁ →
    (63 < A.toNat → Faults i s e { code := 0x17, info := A.setWidth 10 })
    ∧ (A.toNat ≤ 63 → ¬legal → Faults i s e { code := 0x17, info := 1023 })
    ∧ (A.toNat ≤ 63 → legal → ∃ t p, exec i s = .next t ∧ (t.hart e).rot = .out ∧ (t.hart e).pend = some p
      ∧ p.act = .region die.toNat A.toNat W0 W1 ∧ p.next = (s.hart e).pc + 8 ∧ (∃ m, p.due = some m ∧ s.clk < m)
      ∧ (∀ q, (t.die q).regions = (s.die q).regions) ∧ MemSame s t))
  ∧ ∀ p d j w0 w1, (s.hart e).pend = some p → p.act = .region d j w0 w1 → p.dst = none → p.acq = none →
    ((∃ m, p.due = some m ∧ s.clk < m) → exec (.regionSwitch e) s = .next s)
    ∧ ((∀ m, p.due = some m → m ≤ s.clk) → (s.die d).allows = [] → ∃ u : State, exec (.regionSwitch e) s = .next (u.goOn e p.next)
      ∧ u.hart e = { s.hart e with pend := none } ∧ MemSame s u
      ∧ ∀ q, mfind (u.die d).regions q = if q = j then some (w0, w1) else mfind (s.die d).regions q)

/-- The expert table and the tolerance regions.
Completes: erset, erget, tolset, regionSwitch. -/
def Obligations.ExpertsAndTolerance : Prop := Claims.ExpertTable ∧ Claims.ToleranceTable

/-- R32, R36, R338 to R340: the copies of a copy engine within its scratchpad, one element, or one group of packed 6-bit results, each time the
word issues (log 33). XCOPY stores the element as it is; XCONV stores it converted, and gathers its flags; packed elements lie in the bits
that R36 gives them, and the rest of their bytes stay. Before the last element the word stays where it is and the engine holds the
progress; the last writes D and the engine goes on; with every element done it only goes on. An address in no space ends the run with 0x05
and D at the elements done; a packed side, of the source or of the destination, with another stride or with a count that is no whole number of
groups raises 0x04. No access of the engine is on its way (R282), and the banks it has still to be granted are free, each asked for once.
Completes: XCOPY, XCONV. -/
def Obligations.EngineCopies : Prop :=
  ∀ (s : State) k vals s₁ g ty d a b c, MemOk s → s.bad = [] → (s.cluster k).tiles = [] →
  (∀ q ∈ s.reqs, q.2.who ≠ .ce k) → let e := Ent.ce k
  (s.hart e).early = [] →
  let A := src s e vals a
  let B := src s e vals b
  let C := src s e vals c
  let count := C.toNat % 2 ^ 22 + 1
  let n := (s.engine e).progress.getD (src s e vals d).toNat
  let ssrc : W64 := (C.extractLsb' 22 21).signExtend 64
  let sdst : W64 := (C.extractLsb' 43 21).signExtend 64
  let own (x : W64) (bytes : Nat) : Prop := x.toNat / 2 ^ 22 = 0x24000000000 ∧ x.toNat % 2 ^ 22 + bytes ≤ 0x3FFF00
  let place (x : W64) : Nat := cspBase k + x.toNat % 2 ^ 22
  let granted (l : List W64) : Prop := let ask := (l.drop (s.hart e).reads).map fun x => x.toNat % 2 ^ 22 / 8 % 64
    ask.Nodup ∧ ∀ j ∈ ask, s.bankFree k j = true
  -- element j of a side of w bits: its first byte, and the bytes it lies in
  let at_ (base stride : W64) (w j : Nat) : W64 := if w ∈ [4, 6] then base + BitVec.ofNat 64 (w * j / 8) else base + stride * BitVec.ofNat 64 j * BitVec.ofNat 64 (w / 8)
  let span (w j m : Nat) : Nat := if w ∈ [4, 6] then (w * (j + m) + 7) / 8 - w * j / 8 else w / 8
  let wide (w : Nat) : Prop := w ∈ [4, 6, 8, 16, 32, 64]
  let whole (base stride : W64) (w j m : Nat) : Prop := own (at_ base stride w j) (span w j m) ∧ (w ∉ [4, 6] → (at_ base stride w j).toNat % (w / 8) = 0)
  let got (w j : Nat) : Nat := memRead s.mem (place (at_ B ssrc w j)) (span w j 1) / 2 ^ (if w ∈ [4, 6] then w * j % 8 else 0) % 2 ^ w
  let Goes (i : Instr) (m p bytes v : Nat) (f : Flags) : Prop :=
    if n + m < count then ∃ t : State, exec i s = .next t ∧ Stores p bytes (BitVec.ofNat 64 v) s t ∧ (t.engine e).progress = some (n + m)
      ∧ (t.hart e).pc = (s.hart e).pc ∧ (t.hart e).rot = (s.hart e).rot ∧ (t.hart e).s = (s.hart e).s
      ∧ (t.engine e).flags = (s.engine e).flags ||| f
    else ∃ u : State, exec i s = .next ((u.writeSpec e d (BitVec.ofNat 64 (n + m))).goOn e (nextPc s e i)) ∧ Stores p bytes (BitVec.ofNat 64 v) s u
      ∧ (u.engine e).progress = none ∧ (u.hart e).s = (s.hart e).s ∧ (u.engine e).flags = (s.engine e).flags ||| f
  let Over (i : Instr) : Prop := exec i s = .next ((s₁.setEngine e { s₁.engine e with progress := none }).goOn e (nextPc s e i))
  (Issues (.xcopy g ty d a b c) e s vals s₁ → ty ≠ .i4 → ty ∉ [.narrow, .dt] →
    let i := Instr.xcopy g ty d a b c
    let w := tyW ty
    let sa := at_ B ssrc w n
    let da := at_ A sdst w n
    (count ≤ n → Over i)
    ∧ (n < count → whole B ssrc w n 1 → whole A sdst w n 1 → granted [sa, da] → Goes i 1 (place da) (w / 8) (got w n) 0)
    ∧ (n < count → (sa.extractLsb' 60 4).toNat ∈ [1, 2, 3, 4, 5, 6, 7, 12, 13, 14, 15] → (∀ j m, s.bankFree j m = true) →
      ∃ u : State, exec i s = .next ((u.writeSpec e d (BitVec.ofNat 64 n)).takeTrap e { code := 0x05, addr := sa, elems := n } (s.hart e).pc
        (insnWord i)) ∧ u.hart e = { s.hart e with reads := 0 } ∧ MemSame s u))
  ∧ ∀ dn sty sn rm ns, let i := Instr.xconv g ty dn sty sn rm ns d a b c
    let W := (s.tab (.ce k)).width
    let ws := tyBits sty sn W
    let wd := tyBits ty dn W
    let loose (w : Nat) (stride : W64) : Prop := (w = 4 ∧ (stride ≠ 1 ∨ count % 2 ≠ 0)) ∨ (w = 6 ∧ (stride ≠ 1 ∨ count % 4 ≠ 0))
    Issues i e s vals s₁ →
    (loose ws ssrc ∨ loose wd sdst → Faults i s e { code := 0x04, addr := A })
    ∧ (¬(loose ws ssrc ∨ loose wd sdst) → count ≤ n → Over i)
    ∧ (wide ws → wide wd → ¬(loose ws ssrc ∨ loose wd sdst) → n < count →
      let m := if wd = 6 then min count ((n / 4 + 1) * 4) - n else 1
      let da := at_ A sdst wd n
      let bits := if wd ∈ [4, 6] then wd * n % 8 else 0
      let old := memRead s.mem (place da) (span wd n m)
      ∀ xs : List (Nat × Flags), xs.length = m → whole A sdst wd n m →
      (∀ j, j < m → whole B ssrc ws (n + j) 1 ∧ isOffcut sty (BitVec.ofNat 64 (got ws (n + j))) = false
        ∧ convert ty dn sty sn (s.tab (.ce k)) (rmOf (s.hart e).flg rm) ns 0 (got ws (n + j)) = xs[j]?) →
      granted (wordsIn (unitAddrs B ssrc n m ws) ++ wordsIn (unitAddrs A sdst n m wd)) →
      -- the bytes of the results, with the bits below and above them as they were
      let v := ((xs.map (·.1)).zipIdx.map fun x => x.1 % 2 ^ wd * 2 ^ (bits + wd * x.2)).sum + old % 2 ^ bits + old / 2 ^ (bits + wd * m) * 2 ^ (bits + wd * m)
      Goes i m (place da) (span wd n m) v ((xs.map (·.2)).foldl (· ||| ·) 0))

/-- R362, R363, R376: the routing pass. The experts chosen for a token are distinct, as many as there are up to k, and never one
whose value is a NaN; a routing pair that counts a choice rises by one and stays at its largest count. The record is read once: the engine
keeps it for the pass. A record that breaks its rules raises 0x17 with D at the tokens done. A pass of which every token is done is
complete at once; otherwise one token is done each time the word issues (log 33), and after the last one D holds the number of tokens. Completes:
ROUTE. -/
def Obligations.RoutingPass : Prop :=
  (∀ xs : List Nat, (∀ x ∈ xs, x < 2 ^ 32) → ∀ k, let nan (x : Nat) : Bool := (f32v x).isNan
    let sel := bestOf xs k
    sel.Nodup ∧ sel.length = min k (xs.countP fun x => !nan x) ∧ (∀ j ∈ sel, j < xs.length ∧ nan (xs.getD j 0) = false))
  ∧ (∀ (w : W64) wt, ((pairAdd w wt).1.extractLsb' 0 32).toNat = min ((w.extractLsb' 0 32).toNat + 1) (2 ^ 32 - 1))
  ∧ ∀ (s : State) dn vals s₁ g d a r, let e := Ent.re dn
    let i := Instr.route g d a
    let t := (s.engine e).progress.getD (src s e vals d).toNat
    let rec_ := src s e vals a
    let got (x : State) : State := match (s.engine e).pass with
      | some _ => x
      | none => let y := x.setShapes e ((rec_, r) :: (x.shapesOf e).filter fun q => q.1 != rec_)
        y.setEngine e { y.engine e with pass := some r }
    let ended (x : State) : State := x.setEngine e { x.engine e with progress := none, pass := none }
    Issues i e s vals s₁ → rec_.toNat % 64 = 0 →
    (match (s.engine e).pass with
      | some q => q = r
      | none => (s.shapesOf e).find? (fun x => x.1 = rec_) = some (rec_, r)) →
    (parsePass r = none → exec i s = .next ((s.writeSpec e d (BitVec.ofNat 64 t)).takeTrap e { code := 0x17, info := 1023, elems := t }
      (s.hart e).pc (insnWord i)))
    ∧ ∀ p, parsePass r = some p →
      (p.n ≤ t → exec i s = .next ((ended (got s₁)).goOn e ((s.hart e).pc + 8)))
      ∧ (t + 1 = p.n → ∀ v u, routeToken (got s₁) e p t = .ok v u →
        exec i s = .next (((ended u).writeSpec e d (BitVec.ofNat 64 p.n)).goOn e ((s.hart e).pc + 8)))
      ∧ (t + 1 < p.n → ∀ v u, s₁ = s → routeToken (got s) e p t = .ok v u →
        exec i s = .next ((u.setEngine e { u.engine e with progress := some (t + 1) }).setHart e
          { u.hart e with forfeit := none, reads := 0, early := (u.hart e).early.filter fun x => x.gather }))

/-- R32, R311, R316, R317: the words on host queues. LAUNCH, its release made and its packet readable in the own scratchpad, its banks granted, leaves the rotation
until the H-die answers: 2 when the queue is not active and 1 when its ring is full, nothing written; when its packet has been written the
tail has advanced by one and the answer is 0. CMDNEXT of a hart takes the selected packet: the queue's head advances by one, and the nine
words are written; with none it parks. CMDDONE writes the completion record, in global memory, and raises the queue's vector when asked to.
Completes: LAUNCH, CMDNEXT, CMDDONE. -/
def Obligations.HostQueueWords : Prop :=
  (∀ (s : State) k c n vals s₁ g d a b, let e := Ent.lap k c n
    let i := Instr.launch g d a b
    let A := src s e vals a
    let q := (src s e vals b).toNat
    Issues i e s vals s₁ → A.toNat / 2 ^ 22 = 0x24000000000 →
    (A.toNat % 64 ≠ 0 → Faults i s e { code := 0x04, addr := A })
    ∧ (A.toNat % 64 = 0 → 2 ^ 12 ≤ q → Faults i s e { code := 0x17, info := (src s e vals b).setWidth 10 })
    ∧ (∀ w, A.toNat % 64 = 0 → q < 2 ^ 12 → (s.hart e).relDone = true → s.bad = [] → (∀ r ∈ s.reqs, r.2.who ≠ e) →
      s₁.takeReads e (wordAddrs A 8) = .ok w →
      let off := A.toNat % 2 ^ 22
      off < 0x3FFF00 →
      let pkt := (List.range 8).map fun j => s.rd64 (cspBase k + off + 8 * j)
      let Leaves (v : Ans) (P : State → Prop) : Prop := ∃ (t : State) (p : Pend), exec i s = .next t ∧ (t.hart e).rot = .out
        ∧ (t.hart e).pend = some p ∧ p.dst = some d ∧ p.ans = some v ∧ (∃ m, p.due = some m ∧ s.clk < m)
        ∧ p.next = (s.hart e).pc + 8 ∧ P t
      ((s.hq q).state ≠ 1 → Leaves (.ok 2) fun t => t.queues = s.queues ∧ MemSame s t)
      ∧ ((s.hq q).state = 1 → 2 ^ (s.hq q).lsz ≤ (s.hq q).pending → Leaves (.ok 1) fun t => t.queues = s.queues ∧ MemSame s t)
      ∧ (∀ u : State, (s.hq q).state = 1 → (s.hq q).pending < 2 ^ (s.hq q).lsz → w.draw.2.pushPacket q pkt = (some (.ok 0), u) →
        Leaves (.ok 0) fun t => (t.hq q).tail = (s.hq q).tail + 1 ∧ MemSame u t)))
  ∧ (∀ (s : State) dn vals s₁ g (d : BitVec 7), let e := Ent.hart dn
    let i := Instr.cmdnext g d
    Issues i e s vals s₁ → d.toNat ≤ 119 →
    (s.nextPacket dn = none → (s.hart e).rot = .ready → ParksOn i s e (.own 0))
    ∧ ∀ q p, s.nextPacket dn = some (q, p) → 8 ≤ p.length → ∃ u : State, exec i s = .next (u.goOn e ((s.hart e).pc + 8))
      ∧ (u.hq q).head = (s.hq q).head + 1 ∧ (u.die dn).lastq = q ∧ MemSame s u
      ∧ ∀ j : Fin 128, (u.hart e).s[j] = if d.toNat ≤ j.val ∧ j.val < d.toNat + 8 then p.getD (j.val - d.toNat) 0
          else if j.val = d.toNat + 8 then BitVec.ofNat 64 q else (s.hart e).s[j])
  ∧ ∀ (s : State) dn vals s₁ g a b c sys irq, let e := Ent.hart dn
    let i := Instr.cmddone g a b c sys irq
    let va := src s e vals a + 56
    let Q := src s e vals c
    let x := s.hq Q.toNat
    Issues i e s vals s₁ → (s.hart e).relDone = true → (s.hart e).pwf = none → (s.hart e).reads = 0 →
    (2 ^ 12 ≤ Q.toNat → va.toNat < 2 ^ 56 → va.toNat % 8 = 0 → Faults i s e { code := 0x17, info := Q.setWidth 10 })
    ∧ ∀ w u, Q.toNat < 2 ^ 12 → va.toNat < 2 ^ 56 → va.toNat % 8 = 0 →
      s₁.gwrite e (some x.pasid) va.toNat (.store .b64 false (src s e vals b)) = .ok w u →
      exec i s = .next ((if irq then u.msi x.vec else u).goOn e ((s.hart e).pc + 8))

/-- R307, R326, R338: an idle copy engine starts the command at the head of its queue with its registers and its pc set, or, for a command word with a
nonzero bit among 31 to 22, gives the mailbox at once with 0x05. A fault ends its run with its code and its elements. At the end the
engine releases at die scope, and the mailbox word is written and full when it was empty and its bank free; an offset that is no multiple of 8
is rounded down to one (log 67, the model's choice). A routing engine's run of a killed launch ends at its next instruction boundary, and gives
no mailbox (log 80, the model's reading). A queued matrix job starts in the lowest context that is absent or ended and in which no earlier job is still to end (R326 names
the states 0 and 4; a context whose job has not ended is in use), at its entry bundle, with the argument in c0 and the issuer's tag in c1.
Completes: engineCommandStart, engineRunEnd, mjobStart. -/
def Obligations.EngineRuns : Prop :=
  ∀ (s : State) k, let e := Ent.ce k
  let g := s.engine e
  let h := s.hart e
  (∀ c rest w l, g.run = .idle → g.queue = c :: rest → c.word = some w → (s.cluster k).launch.bind (s.launch (k / 128)) = some l →
    l.stopping = false → l.saved = none → c.scope = none → s.gathersOut e = false →
    (w.extractLsb' 22 10 ≠ 0#10 → ∃ t : State, exec (.engineCommandStart e) s = .next t
      ∧ t.engine e = { g with queue := rest, run := .ending w c.tag 0x05 c.kid } ∧ t.hart e = h)
    ∧ (w.extractLsb' 22 10 = 0#10 → ∃ t : State, exec (.engineCommandStart e) s = .next t
      ∧ t.engine e = { g with queue := rest, run := .cmd w c.tag c.kid, flags := 0, launch := some (l.die, l.count), progress := none, pass := none }
      ∧ (t.hart e).rot = .ready ∧ (t.hart e).pc = l.pkt.getD 1 0 + BitVec.ofNat 64 l.img.engOff + (w.extractLsb' 32 32).setWidth 64
      ∧ (t.hart e).s = (h.s.set 1 (0x9000000000000000 + (w.extractLsb' 0 22).setWidth 64)).set 2 w
      ∧ (t.hart e).h = h.h ∧ (t.hart e).p = h.p ∧ (t.hart e).flg = h.flg ∧ MemSame s t))
  ∧ (∀ (t : Trap) epc insn w tag kid, g.run = .cmd w tag kid → t.code < 256 → let s' := s.takeTrap e t epc insn
    ∃ v : W64, (s'.engine e).run = .ending w tag v kid ∧ (s'.hart e).rot = .halted
      ∧ v.extractLsb' 0 8 = BitVec.ofNat 8 t.code ∧ v.extractLsb' 8 5 = g.flags ∧ v.extractLsb' 16 16 = BitVec.ofNat 16 (min t.elems 65535)
      ∧ v.extractLsb' 32 32 = 0#32)
  ∧ (∀ w tag v, g.run = .ending w tag v k → let off := w.toNat % 2 ^ 22 / 8 * 8
    (h.rel = none → (∀ r ∈ s.reqs, r.2.who ≠ e) → h.aq = [] → h.dq = [] → ∃ t : State, exec (.engineRunEnd e) s = .next t
      ∧ (t.hart e).rel = some { scope := .die, target := some (s.cluster k).horizon } ∧ (t.hart e).pwf = none
      ∧ (t.engine e).run = .ending w tag (if h.pwf.isSome ∧ v.extractLsb' 0 8 = 0#8 then v ||| 0x14 else v) k)
    ∧ ∀ m sc, h.rel = some { scope := sc, target := some m } → m ≤ s.pt → off < 0x3FFF00 → (s.cluster k).tiles = [] → s.bad = [] → MemOk s →
      (∀ l ∈ s.launches, l.saved = none) → s.runKilled e = false →
      (s.isFull (cspBase k + off) = true → exec (.engineRunEnd e) s = .next s)
      ∧ (s.bankFree k (off / 8 % 64) = false → exec (.engineRunEnd e) s = .next s)
      ∧ (s.isFull (cspBase k + off) = false → s.bankFree k (off / 8 % 64) = true → ∃ t : State, exec (.engineRunEnd e) s = .next t ∧ Stores (cspBase k + off) 8 v s t
        ∧ t.isFull (cspBase k + off) = true ∧ (t.engine e).run = .idle))
  ∧ (∀ d l, let r := Ent.re d
    let x := s.engine r
    x.launch.bind (fun y => s.launch y.1 y.2) = some l → l.killed = true →
    (∀ w tag kid, x.run = .cmd w tag kid →
      if (s.hart r).rot = .out ∨ x.progress ≠ none ∨ x.pass ≠ none then exec (.engineRunEnd r) s = .next s
      else ∃ t : State, exec (.engineRunEnd r) s = .next t ∧ t.engine r = { x with run := .ending w tag 0 kid }
        ∧ t.hart r = { Hart.settled (s.hart r) with rot := .halted, pend := none, dq := [], aq := [], early := [], slot := none } ∧ MemSame s t)
    ∧ ∀ w tag v kid m sc, x.run = .ending w tag v kid → (s.hart r).rel = some { scope := sc, target := some m } → m ≤ s.pt →
      exec (.engineRunEnd r) s = .next (s.setEngine r { x with run := .idle }))
  ∧ ∀ cc j rest, (s.cc k cc).jobs = j :: rest → (∀ l, (s.cluster k).launch.bind (s.launch (k / 128)) = some l → l.stopping = false) →
    let free (x : Nat) : Prop := (s.ctx k cc x).state ∈ [0, 4] ∧ (s.ctx k cc x).job = none
    ((∀ x, x < 4 → ¬free x) → exec (.mjobStart k cc) s = .next s)
    ∧ ∀ x, x < 4 → free x → (∀ y, y < x → ¬free y) → ∃ t : State, exec (.mjobStart k cc) s = .next t ∧ (t.cc k cc).jobs = rest
      ∧ (t.ctx k cc x).state = 1 ∧ (t.ctx k cc x).pc = j.entry ∧ (t.ctx k cc x).npc = j.entry + 64 ∧ (t.ctx k cc x).nnpc = j.entry + 128
      ∧ (t.ctx k cc x).c[0] = j.arg ∧ (t.ctx k cc x).c[1] = j.tag ∧ (∀ i : Fin 64, 2 ≤ i.val → (t.ctx k cc x).c[i] = 0)
      ∧ (t.ctx k cc x).job = some j.tag ∧ ∀ y, y ≠ x → t.ctx k cc y = s.ctx k cc y

/-- R306 to R308, R382, R383, R401, R403: the commands of a queue in the state they are listed for, at boot stage 5, or at stage 7, which the first of
them moves to 5: enable makes an idle or stopped queue with a legal ring size active, and puts one with another size in error with cause
0x0D; stop, destroy, kill and clear. A destroy and a kill keep a barrier that has been consumed (log 46, the model's choice: R307 says only
head := tail). A kill marks each launch of the queue killed and drops its routing-engine commands; the threads, contexts and copy engines of one
that runs end in the same step (log 80, the model's reading), and no other hart changes (its record and its clusters: LaunchEnds). A command not listed for the state is ignored. A tail write
that makes more packets pending than the ring holds puts the queue in error. Writes of QTAIL, of the lease length and of a watchdog's register
over MMIO do what they say. -/
def Claims.QueueCommands : Prop :=
  ∀ (s : State) q v, q < 4096 → let x := s.hq q
  let After (i : Instr) (y : HQueue) : Prop := ∃ t : State, exec i s = .next t ∧ t.hq q = y ∧ (∀ p, p ≠ q → t.hq p = s.hq p) ∧ MemSame s t
  let tailed : HQueue := if 2 ^ x.lsz < (v.setWidth 32 - x.head).toNat then { x with tail := v.setWidth 32, state := 3, cause := 0x0D }
    else { x with tail := v.setWidth 32 }
  (After (.qtailWrite q v) tailed
    ∧ After (.registerWrite (BitVec.ofNat 64 (0xB000000800000000 + 0x2000000 + 0x40 * q + 0x18)) v) tailed)
  ∧ (s.bootStage ∈ [5, 7] →
    let After (i : Instr) (y : HQueue) : Prop := ∃ t : State, exec i s = .next t ∧ t.bootStage = 5 ∧ t.hq q = y ∧ (∀ p, p ≠ q → t.hq p = s.hq p) ∧ MemSame s t
    let ignored := { s with bootStage := 5 }
    (x.state ∈ [0, 2] → 4 ≤ x.lsz → x.lsz ≤ 12 → After (.queueEnable q) { x with state := 1 })
    ∧ (x.state ∈ [0, 2] → x.lsz < 4 ∨ 12 < x.lsz → After (.queueEnable q) { x with state := 3, cause := 0x0D })
    ∧ (x.state ∉ [0, 2] → exec (.queueEnable q) s = .next ignored)
    ∧ (x.state = 1 → After (.queueStop q) { x with state := 2 }) ∧ (x.state ≠ 1 → exec (.queueStop q) s = .next ignored)
    ∧ After (.queueDestroy q) { x with state := 0, head := x.tail }
    ∧ After (.queueKill q) { x with state := 0, head := x.tail }
    ∧ (x.state = 3 → After (.queueClear q) { x with state := 2, cause := 0 }) ∧ (x.state ≠ 3 → exec (.queueClear q) s = .next ignored))
  ∧ (∃ t : State, exec (.queueKill q) s = .next t
    ∧ (∀ l ∈ s.launches, l.queue = q → s.launch l.die l.count = some l →
      (∃ m ∈ t.launches, m = { l with killed := true, stopping := false, kept := [], own := [], reCmds := [], farCmds := [] })
      ∧ (∀ d, d < 4 → ∀ c ∈ (t.die d).re.queue, c.launch ≠ some (l.die, l.count))
      ∧ (l.saved = none → ∀ k ∈ l.kids, (∀ e, entIn k e = true → t.hart e = (s.hart e).ended)
        ∧ (∀ cc y, t.ctx k cc y = (s.ctx k cc y).ended) ∧ (t.cluster k).ce.queue = [] ∧ (t.cluster k).ce.run = .idle))
    ∧ ∀ e, (∀ l ∈ s.launches, l.queue = q → ∀ m, s.launch l.die l.count = some m → m.saved = none → ∀ k ∈ m.kids, entIn k e = false) →
      t.hart e = s.hart e)
  ∧ (s.bootStage ∉ [5, 7] → exec (.queueEnable q) s = .next s)
  ∧ (∃ t : State, exec (.registerWrite 0xB000000800000008 v) s = .next t ∧ MemSame s t
      ∧ t.lease = if 100 ≤ v.toNat % 2 ^ 11 ∧ v.toNat % 2 ^ 11 ≤ 2000 then v.toNat % 2 ^ 11 else s.lease)
  ∧ ∀ (k : Fin 512) (c : Fin 32), ∃ t : State,
      exec (.registerWrite (BitVec.ofNat 64 (0xB000000000000000 + k.val / 128 * 2 ^ 33 + k.val % 128 * 2 ^ 26 + 0x500000 + 8 * c.val)) v) s = .next t
      ∧ t.core k c = { s.core k c with thr := (v.extractLsb' 0 24).toNat, wen := v.getLsbD 24 }

/-- R308 to R311: what the hart does at the heads of a die's queues. A ready nop packet is consumed and its queue is the last served; a bad packet
is consumed, and one that cannot be fetched is not, and either leaves its queue in error; with no active queue, and no completion record that
waits, nothing changes. A barrier that has been consumed completes once no launch of its queue is left. -/
def Claims.QueueHeads : Prop :=
  ∀ (s : State) d q, s.owed = [] → let x := s.hq q
  (s.queueOrder d = [] → exec (.launchStart d) s = .next s ∧ exec (.dependenceCheck d) s = .next s)
  ∧ (∀ p, s.queueOrder d = [q] → s.headPkt q = (.ready p, s) → pktOp p = 0 → ∃ t : State, exec (.launchStart d) s = .next t
      ∧ (t.hq q).head = x.head + 1 ∧ (t.hq q).tail = x.tail ∧ (t.die d).lastq = q)
  ∧ (∀ p, s.queueOrder d = [q] → s.headPkt q = (.ready p, s) → exec (.dependenceCheck d) s = .next s)
  ∧ (∀ p u, s.queueOrder d = [q] → s.headPkt q = (.bad p, u) → u.queues = s.queues → ∃ t : State, exec (.dependenceCheck d) s = .next t
      ∧ t.hq q = { x with head := x.head + 1, state := 3, cause := 0x04 } ∧ t.mem = u.mem)
  ∧ (∀ code a u, s.queueOrder d = [q] → s.headPkt q = (.fault code a, u) → u.queues = s.queues → ∃ t : State, exec (.dependenceCheck d) s = .next t
      ∧ t.hq q = { x with state := 3, cause := 0x03 } ∧ t.mem = u.mem)
  ∧ (x.barrier = none → exec (.barrierCompletion q) s = .next s)
  ∧ ((∃ l ∈ s.launches, l.queue = q) → exec (.barrierCompletion q) s = .next s)
  ∧ ∀ p, x.barrier = some p → (∀ l ∈ s.launches, l.queue ≠ q) → ∃ t : State, exec (.barrierCompletion q) s = .next t
      ∧ t.hq q = { x with barrier := none }

/-- Queue commands, and what a hart does at the heads of its queues.
Completes: qtailWrite, queueEnable, queueStop, queueDestroy, queueKill, queueClear, registerWrite, dependenceCheck, barrierCompletion. -/
def Obligations.Queues : Prop := Claims.QueueCommands ∧ Claims.QueueHeads

/-- R27, R100, R105: where a launch puts a lap thread: at its entry address in the image, in its register window, with the packet's pointers and
the task words in h0 to h7 and every other register 0; and a cluster it starts runs it. -/
def Claims.LaunchPlaces : Prop :=
  ∀ (s : State) (l : Launch) pkt task bun dat p m, m ∈ l.img.map →
  let at_ (e : List Byte) (i : Nat) : Nat := (e.getD i 0).toNat
  at_ m 0 = 1 → at_ m 1 = p →
  (∀ e ∈ l.img.map, at_ e 0 = 1 → at_ e 1 = p → at_ e 2 = at_ m 2 → at_ e 3 = at_ m 3 → e = m) →
  let k := posKid l.die l.rinks p
  let t := s.startCluster l pkt task bun dat p
  let h := t.hart (.lap k (at_ m 2) (at_ m 3))
  let entry := ∑ j ∈ Finset.range 8, at_ m (8 + j) * 256 ^ j
  (t.cluster k).launch = some l.count
  ∧ h.rot = .ready ∧ h.pc = BitVec.ofNat 64 ((pkt.getD 1 0).toNat + l.img.lapOff + entry)
  ∧ h.base = at_ m 4 + 256 * at_ m 5 ∧ h.size = at_ m 6 ∧ (∀ i : Fin 128, h.s[i] = 0) ∧ (∀ i : Fin 7, h.p[i] = false) ∧ h.flg = 0
  ∧ h.h[0] = pkt.getD 4 0 ∧ h.h[1] = pkt.getD 5 0 ∧ h.h[2] = pkt.getD 6 0
  ∧ (∀ j : Fin 5, h.h[3 + j.val] = task.getD j 0) ∧ ∀ j : Fin 8, h.h[8 + j.val] = 0

/-- R27 to R29, R97 to R100, R309, R311, R313: the hart starts the launch of a queue's head packet when its rinks are free: its image header, map,
task words, bundle code and data read, its header, map and placement well-formed, and its set descriptor written. The launch is then one of
the machine's, its clusters run it, and the packet is consumed. Completes: LAUNCH_START. -/
def Claims.LaunchStarts : Prop :=
  ∀ (s : State) d q p hd u₁ mw u₂ task u₃ bun u₄ dat u₅ v, let x := s.hq q
  let img := (p.getD 1 0).toNat
  let m := parseHeader hd ((List.range (half (wd hd 6) 1)).map fun i => wordBytesOf (wd mw (2 * i)) ++ wordBytesOf (wd mw (2 * i + 1)))
  let l : Launch := { count := (u₅.die d).launches + 1, die := d, queue := q, prio := x.prio, pasid := x.pasid, vec := x.vec, pkt := p, img := m,
                      rinks := pktRinks p, saved := none, kept := [], reCmds := [], restores := 0, faultEnd := none, stopping := false, badRinks := [] }
  s.owed = [] → s.queueOrder d = [q] → x.die = d → s.headPkt q = (.ready p, s) → pktOp p ∉ [0, 2] → s.givesWay d x.prio (pktRinks p) = false →
  (pktRinks p).all (s.rinkFree d) = true →
  s.hread d x.pasid img 8 = .ok hd u₁ → headerOk hd = true →
  u₁.hread d x.pasid (img + half (wd hd 6) 0) (2 * half (wd hd 6) 1) = .ok mw u₂ → mapOk m = true → placeCheck m d (pktRinks p) = none →
  u₂.hread d x.pasid (p.getD 7 0).toNat 5 = .ok task u₃ → u₃.hread d x.pasid (img + m.bunOff) (m.bunSize / 8) = .ok bun u₄ →
  u₄.hread d x.pasid (img + m.datOff) ((m.datSize + 7) / 8) = .ok dat u₅ → u₅.writeDesc l = .ok v → v.queues = s.queues →
  ∃ t : State, exec (.launchStart d) s = .next t ∧ l ∈ t.launches ∧ (t.hq q).head = x.head + 1 ∧ (t.die d).lastq = q
    ∧ ∀ i, i < 8 * l.rinks.length → (t.cluster (posKid d l.rinks i)).launch = some l.count

/-- R30, R297, R307, R310, R397: a launch ends only when it has finished everywhere, or has been killed and comes to rest: its clusters' drains
first, then its writes visible, and, with system scope, the host's answers to the snoops of its clusters' lines. The hart then writes the
completion record in the packet's memory, the status 0 done, 2 killed or 3 ended by a fault with its code, and pt; it raises the queue's
vector when the packet asks for it. The launch is gone and each of its clusters is free; what its threads, contexts, control cores and tiles
hold stays. A record that meets a fault is logged with cause 0x03 and the launch ends as well; one that waits for a translation is owed. -/
def Claims.LaunchEnds : Prop :=
  ∀ (s : State) d gen l, s.launchOf d gen = some l →
  let kids := if l.saved.isSome then [] else l.kids
  let w0 := l.pkt.getD 0 0
  let at_ := (l.pkt.getD 7 0).toNat + 56
  let code := if l.killed then 0 else l.faultEnd.getD 0
  let status := if l.killed then 2 else if l.faultEnd.isSome then 3 else 0
  let v : W64 := BitVec.ofNat 64 (status + code * 2 ^ 8 + s.pt % 2 ^ 48 * 2 ^ 16)
  let drained := ∀ k ∈ kids, ∀ c ∈ (s.cluster k).cch, c.allow = none
  let answered := w0.getLsbD 8 = true → ∀ x ∈ s.snoops, ∀ k, x.2 = some k → k ∉ kids
  let i := Instr.launchFinish d gen
  (s.canFinish l = false → exec i s = .next s)
  ∧ (s.canFinish l = true → ¬drained → ∃ t : State, exec i s = .next t ∧ t.launches = s.launches ∧ MemSame s t)
  ∧ (s.canFinish l = true → drained → s.pt < s.horizonOf kids ∨ ¬answered → exec i s = .next s)
  ∧ (s.canFinish l = true → drained → s.horizonOf kids ≤ s.pt → answered →
    let Ends (u : State) : Prop := ∃ t : State, exec i s = .next t ∧ (∀ x ∈ t.launches, ¬(x.die = l.die ∧ x.count = l.count))
      ∧ (∀ k ∈ kids, (t.cluster k).launch = none ∧ (t.cluster k).cch = [] ∧ (t.cluster k).tiles = (u.cluster k).tiles)
      ∧ t.harts = u.harts ∧ t.ctxs = u.ctxs ∧ t.ccs = u.ccs ∧ MemSame u t ∧ t.outbox = u.outbox ∧ t.owed = u.owed
    let raised (u : State) : State := if w0.getLsbD 9 then u.msi l.vec else u
    let rec_ := s.gwrite (.hart l.die) (some l.pasid) at_ (.store .b64 false v)
    (∀ w u, rec_ = .ok w u → Ends (raised u))
    ∧ (∀ c u, rec_ = .fault c u → Ends (raised (u.logErr l.die 0x03 c (l.die * 128) 34 0 (BitVec.ofNat 64 at_) 0)))
    ∧ ∀ u, rec_ = .wait u → let o : Owed := { die := l.die, pasid := l.pasid, addr := at_, value := v, vec := if w0.getLsbD 9 then some l.vec else none }
      Ends { u with owed := u.owed ++ [o] })

/-- Launches are placed and end.
Completes: launchStart, launchFinish. -/
def Obligations.Launches : Prop := Claims.LaunchPlaces ∧ Claims.LaunchStarts ∧ Claims.LaunchEnds

/-- R214, R215, R219, R220, R230, R410, R26: a pre-emption stops its launch first; once its clusters are quiet, their pending writes landed, its drains
done and its writes visible, they are saved, in their save areas and nowhere else, and free. Its routing-engine commands leave the queues and
are kept, and so is what its entities have sent that still stands (log 10, the model's choice), but not what a parked thread sends again. A
restore of a launch that is not saved, or that no free rinks can take, does nothing; where a window does not fit the target cores the launch
stays saved and those rinks are noted; otherwise, its bundle code read and its set descriptor written, it runs on the rinks taken (which of
several the hart takes: log 68), and the traffic kept for it is executed at once. -/
def Claims.Preemptions : Prop :=
  ∀ (s : State) d gen l, s.launchOf d gen = some l →
  (l.saved.isSome → exec (.preemption d gen) s = .next s)
  ∧ (l.saved = none → exec (.restore d gen) s = .next s)
  ∧ (s.restoresOn l = none → exec (.restore d gen) s = .next s)
  ∧ (l.saved = none → l.stopping = false → ∃ t : State, exec (.preemption d gen) s = .next t ∧ t.mem = s.mem ∧ t.harts = s.harts
      ∧ { l with stopping := true } ∈ t.launches)
  ∧ (l.saved = none → l.stopping = true → (∀ k ∈ l.kids, s.quiet k = true ∧ s.unlanded k 0 = false ∧ s.unlanded k 1 = false) →
    s.reBusyRun l = false → (∀ k ∈ l.kids, ∀ c ∈ (s.cluster k).cch, c.allow = none) → s.horizonOf l.kids ≤ s.pt → MemOk s →
    let mine (e : Ent) : Bool := l.kids.any fun k => entIn k e
    -- a read made ahead that is still to be answered is made again
    let now : State := { s with
      harts := s.harts.map fun h => if mine h.1 then (h.1, { h.2 with early := h.2.early.filter fun x => x.ans.isSome }) else h }
    ∃ t : State, exec (.preemption d gen) s = .next t ∧ (∀ k ∈ l.kids, (t.cluster k).launch = none)
      ∧ (∀ a, a < 2 ^ 65 → memGet t.mem a = memGet s.mem a)
      ∧ (∀ n, n < 4 → ∀ c ∈ (t.die n).re.queue, c.launch ≠ some (l.die, l.count))
      ∧ ∃ l' ∈ t.launches, l'.count = l.count ∧ l'.die = l.die ∧ l'.stopping = false
        ∧ l'.saved = some (l.kids.zipIdx.map fun x => now.savedRecords x.1 x.2)
        ∧ l'.reCmds = (s.die l.die).re.queue.filter (fun c => c.launch = some (l.die, l.count))
        ∧ (∀ id ∈ l.kept, id ∈ l'.kept)
        ∧ ∀ id r, (id, r) ∈ s.reqs → mine r.who = true → r.early = false → (r.posted = true ∨ (s.hart r.who).rot ≠ .parked) → id ∈ l'.own)
  ∧ ∀ cs rk, l.saved = some cs → s.restoresOn l = some rk →
    (s.windowsFit l rk = false → ∃ t : State, exec (.restore d gen) s = .next t ∧ { l with badRinks := l.badRinks ++ [rk] } ∈ t.launches
      ∧ MemSame s t)
    ∧ ∀ bun u v, s.windowsFit l rk = true →
      s.hread l.die l.pasid ((l.pkt.getD 1 0).toNat + l.img.bunOff) (l.img.bunSize / 8) = .ok bun u → u.launches = s.launches →
      let l' := { l with rinks := rk, saved := none, restores := l.restores + 1, kept := [], own := [], reCmds := [], farCmds := [] }
      u.writeDesc l' = .ok v → v.launches = s.launches →
      ∃ x : State, exec (.restore d gen) s = .next (l.kept.foldl State.runKept x) ∧ l' ∈ x.launches
        ∧ (∀ id ∈ l.kept, ∀ r, mfind v.reqs id = some r → ∃ r', mfind x.reqs id = some r' ∧ r'.op = r.op
          ∧ r'.phase ∈ [.fabric, .message, .replying] ∧ r'.due = x.clk)
        ∧ ∀ c ∈ cs, (∀ c' ∈ cs, posKid l.die rk c'.pos = posKid l.die rk c.pos → c' = c) →
          (x.cluster (posKid l.die rk c.pos)).launch = c.cluster.launch

/-- R215, R216, R219: what is saved of a cluster is what a restore puts back. The save area holds every byte of the scratchpad, and a core's
part every byte of its local memory, and a restore puts them into the target cluster; a thread of the target is what its record says. Every
field of a thread comes back from its record: its pc, flags, window, shadow and predicate registers, its trap registers, its level, what it
waits for, and its queues; one that is out of the rotation on an answer waits for it again, one that waits for a matrix job among them, which is
saved as parked on its reply slot (where the areas lie: log 10; the wait for a job: log 28, the other answers: log 82, the model's choices). -/
def Claims.SaveAndRestore : Prop :=
  (∀ (s : State) k pos gen cmds n d p o, MemOk s → k < 512 → cmds.length ≤ 8 → o < 2 ^ 22 → let a := saveBase d n p
    memGet (s.saveArea a k pos gen cmds).mem (areaCsp a + o) = memGet s.mem (cspBase k + o))
  ∧ (∀ (s : State) k c a o was, MemOk s → k < 512 → c < 32 → 2 ^ 65 ≤ a → o < 2 ^ 15 →
    memGet (s.saveCore a k c).mem (a + o) = memGet s.mem (localBase k c + o)
    ∧ memGet (s.loadCore a k c was).mem (localBase k c + o) = memGet s.mem (a + o))
  ∧ (∀ (s : State) (l : Launch) rk (x : SavedCluster) bun c t o, MemOk s → let k := posKid l.die rk x.pos
    let old := posKid l.die l.rinks x.pos
    let a := saveBase l.die l.count x.pos
    let u := s.putSaved l rk x bun
    let r := s.threadRec (s.corePart a c) t
    k < 512 → c < 32 → t < 16 → o < 2 ^ 22 → l.img.bunSize ≤ 2 ^ 17 →
    memGet u.mem (cspBase k + o) = memGet s.mem (areaCsp a + o)
    ∧ (s.rd (r + 0x12) 1 ≠ 0 → u.hart (.lap k c t) = s.loadHart r (mget x.harts .zero (.lap old c t))))
  ∧ ∀ (s : State) a (h : Hart), MemOk s → h.size ≤ 128 → h.base < 2 ^ 16 → h.tr.level < 4 → h.dq.length ≤ 8 → h.aq.length ≤ 8 →
    (∀ x ∈ h.dq, match x with | .word _ | .resend _ => True | .fault c _ => 0 < c ∧ c < 256 | .flying _ _ => False) →
    (∀ x ∈ h.aq, decTy (encTy x.1.ty) = x.1.ty) →
    (match h.wait with | .trigger n | .reply n | .own n => n < 2 ^ 64 | _ => True) →
    let h' := ((s.clear a 1376).saveHart a h).loadHart a h
    h'.pc = h.pc ∧ h'.flg = h.flg ∧ h'.h = h.h ∧ h'.p = h.p ∧ h'.base = h.base ∧ h'.size = h.size ∧ h'.tr = h.tr
    ∧ (∀ i : Fin 128, h'.s[i] = if i.val < h.size then h.s[i] else 0)
    ∧ h'.dq = h.dq ∧ h'.aq.map (fun g => (g.1.addr, g.1.ty, g.1.hi)) = h.aq.map (fun g => (g.1.addr, g.1.ty, g.1.hi))
    ∧ h'.parkN = 0
    ∧ (h.rot ∈ [.ready, .parked, .halted, .trapped] → h'.rot = h.rot ∧ h'.wait = h.wait)
    ∧ (h.rot = .out → h'.rot = .out ∧ h'.pend = h.pend)

/-- Pre-emption and restore.
Completes: preemption, restore. -/
def Obligations.PreemptionAndRestore : Prop := Claims.Preemptions ∧ Claims.SaveAndRestore

/-- R203, R207, R231: the commands to a trapped lap thread or context. Resume lets it issue again where it is, resume-at at the address of the
command with its low six bits 0 (a context with the two bundles after it), kill ends it; each does nothing to one that is not trapped. -/
def Claims.HandlerCommands : Prop :=
  ∀ (s : State) k c n cc x a,
  let e := Ent.lap k c n
  let h := s.hart e
  let t := s.ctx k cc x
  let Thread (i : Instr) (rot : Rot) (pc : W64) : Prop := ∃ u : State, exec i s = .next u ∧ (u.hart e).rot = rot ∧ (u.hart e).pc = pc
    ∧ (u.hart e).s = h.s ∧ (u.hart e).h = h.h ∧ (u.hart e).p = h.p ∧ (u.hart e).flg = h.flg ∧ (u.hart e).tr = h.tr
    ∧ OtherHartsSame e s u ∧ MemSame s u
  let Context (i : Instr) (y : Ctx) : Prop := ∃ u : State, exec i s = .next u ∧ u.ctx k cc x = y ∧ MemSame s u
    ∧ ∀ z, z ≠ x → u.ctx k cc z = s.ctx k cc z
  let p := a &&& ~~~63#64
  (h.rot = .trapped → Thread (.threadResume k c n) .ready h.pc ∧ Thread (.threadResumeAt k c n a) .ready p ∧ Thread (.threadKill k c n) .halted h.pc)
  ∧ (h.rot ≠ .trapped → exec (.threadResume k c n) s = .next s ∧ exec (.threadResumeAt k c n a) s = .next s ∧ exec (.threadKill k c n) s = .next s)
  ∧ (t.state = 5 → Context (.ctxResume k cc x) { t with state := 1 }
    ∧ Context (.ctxResumeAt k cc x a) { t with state := 1, pc := p, npc := p + 64, nnpc := p + 128 }
    ∧ (t.job = none → Context (.ctxKill k cc x) { t with state := 4, wait := 0, replay := [] }))
  ∧ (t.state ≠ 5 → exec (.ctxResume k cc x) s = .next s ∧ exec (.ctxResumeAt k cc x a) s = .next s ∧ exec (.ctxKill k cc x) s = .next s)

/-- R210: an escalated fault is met once: a thread that found its page absent has the page asked of the host, and resumes or ends as the host
answers; any other is logged with cause 0x08 and its address when the log has room, and its thread ends when the hart has come to it.
That an escalated fault always kills is this model's choice (log 30). -/
def Claims.EscalatedFaults : Prop :=
  ∀ (s : State) k c n, let e := Ent.lap k c n
  let h := s.hart e
  let D := k / 128
  let code := h.tr.cause.toNat % 256
  (h.rot = .trapped → h.tr.cause.getLsbD 26 = true → (∀ x ∈ s.escalated, x.1 ≠ e) →
    (code = 0x06 → ∃ u : State, exec (.escalatedFault e) s = .next u ∧ u.hart e = h ∧ (e, none) ∈ u.escalated
      ∧ u.outbox.getLast? = some (.pri ((s.entPasid e).getD 0) (h.tr.addr.toNat / 4096 * 4096)))
    ∧ (code ≠ 0x06 → ∃ u : State, exec (.escalatedFault e) s = .next u ∧ u.hart e = h ∧ (∃ m, (e, some m) ∈ u.escalated ∧ s.clk < m)
      ∧ (((s.die D).logTail - (s.die D).logHead).toNat < 256 → (u.die D).logTail = (s.die D).logTail + 1
        ∧ let l := mget (u.die D).log { w0 := 0, w1 := 0, w2 := 0, w3 := 0 } ((s.die D).logTail.toNat % 256)
          l.w0.extractLsb' 0 8 = 0x08#8 ∧ l.w1 = h.tr.addr)))
  ∧ (s.escalated = [(e, none)] → h.rot = .trapped →
    (∃ u : State, exec (.pageRequestAnswer e true) s = .next u ∧ (u.hart e).rot = .ready ∧ (u.hart e).pc = h.pc ∧ u.escalated = [])
    ∧ ∃ u : State, exec (.pageRequestAnswer e false) s = .next u ∧ (u.hart e).rot = .halted ∧ u.escalated = [])
  ∧ ((e, none) ∉ s.escalated → ∀ ok, exec (.pageRequestAnswer e ok) s = .next s)
  ∧ ∀ m, s.escalated = [(e, some m)] → h.rot = .trapped →
    (m ≤ s.clk → ∃ u : State, exec (.escalatedFault e) s = .next u ∧ (u.hart e).rot = .halted)
    ∧ (s.clk < m → exec (.escalatedFault e) s = .next s)

/-- R33, R72, R81, R209, R212, R371, R384: a thread parked for the laps of its core's watchdog, enabled, takes 0x10 at its parked instruction, and no
other does; a threshold of 0 counts as 2^24; of one parked in TBIND, TEPC is the address after it. A word that is no instruction raises 0x01 with its opcode. Arming the debug port lets a hart
that a BKPT stopped go on, at the word after it (log 65, the model's choice: R212 does not say where). -/
def Claims.WatchdogAndIllegal : Prop :=
  ∀ (s : State) k c n, let e := Ent.lap k c n
  let h := s.hart e
  let x := s.core k c
  let due : Prop := h.rot = .parked ∧ x.wen = true ∧ (if x.thr = 0 then 2 ^ 24 else x.thr) ≤ h.parkN
  (due → ∃ (u : State) (w : W64), exec (.syncStallWatchdog k c n) s = .next (u.takeTrap e { code := 0x10 } h.pc w)
      ∧ u.hart e = { h with slot := none, tr := match h.wait with | .trigger _ => { h.tr with epc := h.pc } | _ => h.tr } ∧ OtherHartsSame e s u ∧ MemSame s u)
  ∧ (¬due → exec (.syncStallWatchdog k c n) s = .next s)
  ∧ (∀ w, s.actor = e → exec (.illegalInstruction w) s = .next (s.takeTrap e { code := 0x01, info := (w.extractLsb' 50 8).setWidth 10 } h.pc w))
  ∧ ∀ arm, exec (.haltOnBreakArm arm none) s = .next { s with haltOnBreak := arm }
    ∧ (h.rot = .debug → exec (.haltOnBreakArm arm (some e)) s =
        .next ({ s with haltOnBreak := arm }.setHart e { h with rot := .ready, pc := h.pc + 8 }))
    ∧ (h.rot ≠ .debug → exec (.haltOnBreakArm arm (some e)) s = .next { s with haltOnBreak := arm })

/-- Commands to trapped entities, escalation, the watchdog and illegal words.
Completes: threadResume, threadResumeAt, threadKill, ctxResume, ctxResumeAt, ctxKill, escalatedFault, pageRequestAnswer, syncStallWatchdog, illegalInstruction, haltOnBreakArm. -/
def Obligations.TrapCommands : Prop := Claims.HandlerCommands ∧ Claims.EscalatedFaults ∧ Claims.WatchdogAndIllegal

/-- R86, R89, R142, R144, R145, R152, R153: a bundle of one S syllable, or of none, issued by a context within its bundle memory, with no
write pending on its core: its pc triple advances, to the branch's target after the two delay bundles where it branches; a result is
pending with its latency, and lands in its register at the end of the last cycle of it. A syllable whose guard is a false predicate does
nothing, and one whose guard is true is as with none. A misaligned target raises 0x04, a word that is no syllable 0x01, an address beyond the
loaded bundles 0x05, for slot 0 (log 49, the model's choice of the slot); HALTC ends the context. -/
def Claims.BundleCycle : Prop :=
  ∀ (s : State) k cc x, s.actor = .ctx k cc x →
  let t := s.ctx k cc x
  let c := s.cc k cc
  let one (y : Slot SSyl) : Bundle := { nopBundle with s := y }
  let C (n : BitVec 6) : W64 := t.c[n.toNat]
  let val : SSrc → W64 | .reg n => C n | .imm v => v.signExtend 64
  let Goes (y : SSyl) (nn : W64) (ws : List (CReg × W64 × Nat)) : Prop := ∃ u : State, exec (.bundleIssue (one (.op 0 y))) s = .next u
    ∧ (u.ctx k cc x).pc = t.npc ∧ (u.ctx k cc x).npc = t.nnpc ∧ (u.ctx k cc x).nnpc = nn ∧ (u.ctx k cc x).c = t.c ∧ (u.ctx k cc x).q = t.q
    ∧ (u.cc k cc).pending = ws.map (fun w => { x := x, reg := w.1, val := w.2.1.setWidth 4096, mask := none, left := w.2.2, flags := 0 })
    ∧ MemSame s u
  let next := t.nnpc + 64
  let goal (b : W64) (d : W32) : W64 := b + d.signExtend 64 * 64
  (c.loaded ≤ t.pc.toNat → ∀ b, exec (.bundleIssue b) s = .next (s.ctxTrap k cc x { code := 0x05, addr := t.pc } 0 false))
  ∧ (t.pc.toNat < c.loaded → t.jig.running = false → t.jig.recording = false → c.pending = [] → c.overlay = [] → c.pre = none → c.ldNeed = none →
    (∃ u : State, exec (.bundleIssue (one .nop)) s = .next u ∧ u.ctx k cc x = { t with pc := t.npc, npc := t.nnpc, nnpc := next })
    ∧ (∀ d a b, let A := C a
      let B := val b
      Goes (.bin .add d a b) next [(.c x d, A + B, 1)] ∧ Goes (.bin .sub d a b) next [(.c x d, A - B, 1)]
      ∧ Goes (.bin .mul d a b) next [(.c x d, A * B, 3)] ∧ Goes (.bin .and d a b) next [(.c x d, A &&& B, 1)]
      ∧ Goes (.bin .or d a b) next [(.c x d, A ||| B, 1)] ∧ Goes (.bin .xor d a b) next [(.c x d, A ^^^ B, 1)]
      ∧ Goes (.bin .shl d a b) next [(.c x d, A <<< (B.extractLsb' 0 6).toNat, 1)]
      ∧ Goes (.bin .shr d a b) next [(.c x d, A >>> (B.extractLsb' 0 6).toNat, 1)]
      ∧ Goes (.bin .sra d a b) next [(.c x d, A.sshiftRight (B.extractLsb' 0 6).toNat, 1)]
      ∧ Goes (.bin .min d a b) next [(.c x d, if A.toInt ≤ B.toInt then A else B, 1)]
      ∧ Goes (.bin .max d a b) next [(.c x d, if A.toInt < B.toInt then B else A, 1)]
      ∧ Goes (.mov d b) next [(.c x d, B, 1)])
    ∧ (∀ q cond a b, let A := C a
      let B := val b
      let holds : Bool := match cond with
        | .eq => A = B | .ne => A ≠ B | .lt => A.toInt < B.toInt | .le => A.toInt ≤ B.toInt | .gt => B.toInt < A.toInt
        | .ge => B.toInt ≤ A.toInt | .ltu => A.toNat < B.toNat | .leu => A.toNat ≤ B.toNat | .gtu => B.toNat < A.toNat | .geu => B.toNat ≤ A.toNat
      Goes (.cmp q cond a b) next [(.q x q, bit holds, 1)])
    ∧ (∀ d a b (q : BitVec 4), Goes (.sel d a b q) next [(.c x d, if q = 0 ∨ t.q[q.toNat] = true then C a else val b, 1)])
    ∧ (∀ (g : BitVec 4) y, g ≠ 0 →
      (t.q[g.toNat] = true → exec (.bundleIssue (one (.op g y))) s = exec (.bundleIssue (one (.op 0 y))) s)
      ∧ (t.q[g.toNat] = false → ∃ u : State, exec (.bundleIssue (one (.op g y))) s = .next u
        ∧ u.ctx k cc x = { t with pc := t.npc, npc := t.nnpc, nnpc := next } ∧ (u.cc k cc).pending = [] ∧ MemSame s u))
    ∧ (∀ d a v, Goes (.leaImm d a v) next [(.c x d, C a + v.signExtend 64, 1)])
    ∧ (∀ d a b sh, Goes (.lea d a b sh) next [(.c x d, C a + (C b <<< sh.toNat), 1)])
    ∧ (∀ disp, Goes (.br disp) (goal t.pc disp) [])
    ∧ (∀ d disp, Goes (.call d disp) (goal t.pc disp) [(.c x d, t.pc + 192, 1)])
    ∧ (∀ d disp, Goes (.loopc d disp) (if C d = 1 then next else goal t.pc disp) [(.c x d, C d - 1, 1)])
    ∧ (∀ a disp, (goal (C a) disp).extractLsb' 0 6 = 0#6 → Goes (.jmp a disp) (goal (C a) disp) [])
    ∧ (∀ a disp, (goal (C a) disp).extractLsb' 0 6 ≠ 0#6 → BundleFaults (one (.op 0 (.jmp a disp))) s k cc x { code := 0x04, addr := goal (C a) disp } 0)
    ∧ (∀ a, (C a).extractLsb' 0 6 = 0#6 → Goes (.ret a) (C a) [])
    ∧ (∀ a, (C a).extractLsb' 0 6 ≠ 0#6 → BundleFaults (one (.op 0 (.ret a))) s k cc x { code := 0x04, addr := C a } 0)
    ∧ (∀ w, exec (.bundleIssue (one (.illegal w))) s =
        .next (s.ctxTrap k cc x { code := 0x01, info := (w.extractLsb' 52 8).setWidth 10 } 0 false))
    ∧ (t.refused = false → t.sbuf = [] → ∃ u : State, exec (.bundleIssue (one (.op 0 .haltc))) s = .next u ∧ (u.ctx k cc x).state = 4
        ∧ (u.ctx k cc x).c = t.c ∧ (u.ctx k cc x).pc = t.npc))
  ∧ ∀ d v n, c.freeze = 0 → c.pending = [{ x := x, reg := .c x d, val := v, mask := none, left := n + 1, flags := 0 }] →
    (∀ y, y < 4 → (s.ctx k cc y).job = none ∧ (s.ctx k cc y).replay = [] ∧ (s.ctx k cc y).fall = none) → ∃ u : State, exec (.resultLanding k cc) s = .next u
      ∧ (n = 0 → (u.cc k cc).pending = [] ∧ (u.ctx k cc x).c = t.c.set d.toNat (v.setWidth 64))
      ∧ (n ≠ 0 → (u.cc k cc).pending = [{ x := x, reg := .c x d, val := v, mask := none, left := n, flags := 0 }] ∧ (u.ctx k cc x).c = t.c)
      ∧ (u.cc k cc).scyc = c.scyc + 1 ∧ (u.ctx k cc x).pc = t.pc

/-- R87, R139 to R142, R150, R154 to R157: what a V syllable writes, in either slot: one result for its register, pending with its latency; its
active lanes hold what the operation gives of the source lanes, and every other lane keeps what the register held. The integer operations of
two sources are those of the lanes' width; a float sum, difference, product and fused product are rounded once in the mode named, with their
flags; an active offcut raises 0x0C and a flag whose trap is enabled 0x0D. VSEL takes its lanes by m0 and VMOV as they are; that VSEL raises nothing for an offcut is log 94, the model's choice. VCMP writes a whole
mask register, 0 in a lane that is not active, and VMOVM moves one. -/
def Claims.VectorSyllables : Prop :=
  ∀ (s : State) k cc x (first : Bool), CtxIssues s k cc x → (s.cc k cc).pre = none →
  let t := s.ctx k cc x
  let V (v : VSpec) : VReg := match v with | .v n => (s.cc k cc).vreg n | _ => 0
  let bun (y : VSyl) : Bundle := if first then { nopBundle with v0 := .op 0 y } else { nopBundle with v1 := .op 0 y }
  let slot := if first then 1 else 2
  let on (m : BitVec 3) (i : Nat) : Bool := m == 0 || decide (512 ≤ i) || t.m[m.toNat].getLsbD i
  let one (y : VSyl) (r : CReg) (l : Nat) (f : Flags) (P : PWrite → Prop) : Prop := Bundles (bun y) s k cc x fun u =>
    MemSame s u ∧ ∃ p, (u.cc k cc).pending = [p] ∧ p.x = x ∧ p.reg = r ∧ p.left = l ∧ p.flags = f ∧ P p
  let Puts (y : VSyl) (w : Nat) (m : BitVec 3) (n l : Nat) (f : Flags) (val : Nat → Nat) : Prop := one y (.v n) l f fun p =>
    ∀ old i, i < 4096 / w → laneAt w (landed p old) i = if on m i then val i else laneAt w old i
  (∀ ty m n a b, ty.isInt = true → let w := tyW ty
    let A (i : Nat) : BitVec w := BitVec.ofNat w (laneAt w (V a) i)
    let B (i : Nat) : BitVec w := BitVec.ofNat w (laneAt w (V b) i)
    let op (o : VBin) (l : Nat) (val : BitVec w → BitVec w → BitVec w) : Prop :=
      Puts (.bin o ty .rne m (.v n) a b) w m n l 0 fun i => (val (A i) (B i)).toNat
    op .add 4 (· + ·) ∧ op .sub 4 (· - ·) ∧ op .mul 4 (· * ·) ∧ op .and 2 (· &&& ·) ∧ op .or 2 (· ||| ·) ∧ op .xor 2 (· ^^^ ·)
    ∧ op .shl 2 (fun p q => p <<< (q.toNat % w))
    ∧ op .min 4 (fun p q => if (if ty.isSigned then p.toInt ≤ q.toInt else p.toNat ≤ q.toNat) then p else q)
    ∧ op .max 4 (fun p q => if (if ty.isSigned then q.toInt ≤ p.toInt else q.toNat ≤ p.toNat) then p else q)
    ∧ (∀ rel d, rel.isOrder = true → one (.cmp ty rel m d a b) (.m x d) 4 0 fun p => p.mask = none ∧ ∀ i, i < 512 →
        p.val.getLsbD i = (decide (i < 4096 / w) && on m i && orderHolds ty rel (A i) (B i))))
  ∧ (∀ ty m n a b, ty.isLane = true → ty ∉ [.narrow, .dt] → let w := tyW ty
    Puts (.mov ty m (.v n) a) w m n 2 0 (fun i => laneAt w (V a) i)
    ∧ Puts (.sel ty m (.v n) a b) w m n 2 0 fun i => if t.m[0].getLsbD i then laneAt w (V a) i else laneAt w (V b) i)
  ∧ (∀ d a, one (.movm d a) (.m x d) 2 0 fun p => p.mask = none ∧ p.val.setWidth 512 = t.m[a.toNat])
  ∧ ∀ ty rm m n a b c, ty.isFloat = true → rm ∈ [.rne, .rtz, .rdn, .rup, .rna] → let w := tyW ty
    let val (v : VSpec) (i : Nat) : FVal := decF (tyFmt ty) (laneAt w (V v) i)
    let off (l : List VSpec) : Prop := ∃ i v, i < 4096 / w ∧ on m i = true ∧ v ∈ l ∧ isOffcut ty (BitVec.ofNat 64 (laneAt w (V v) i)) = true
    let op (y : VSyl) (l : Nat) (srcs : List VSpec) (f : Nat → FVal × Flags) : Prop :=
      let flags := ((List.range (4096 / w)).map fun i => if on m i then (rounded ty rm (f i)).2 else 0).foldl (· ||| ·) 0
      (off srcs → BundleFaults (bun y) s k cc x { code := 0x0C } slot)
      ∧ (¬off srcs → flgTrapped t.flg flags ≠ 0 → BundleFaults (bun y) s k cc x { code := 0x0D, fpc := flgTrapped t.flg flags } slot)
      ∧ (¬off srcs → flgTrapped t.flg flags = 0 → Puts y w m n l flags fun i => (rounded ty rm (f i)).1)
    op (.bin .add ty rm m (.v n) a b) 4 [a, b] (fun i => fAdd rm (val a i) (val b i))
    ∧ op (.bin .sub ty rm m (.v n) a b) 4 [a, b] (fun i => fAdd rm (val a i) (val b i).neg)
    ∧ op (.bin .mul ty rm m (.v n) a b) 4 [a, b] (fun i => fMul (val a i) (val b i))
    ∧ op (.fma ty rm m (.v n) a b c) 5 [a, b, c] (fun i => fFma rm (val a i) (val b i) (val c i))

/-- R331 to R333: the jig. JIGLD clears it and records the next bundles; a bundle that issues meanwhile adds its V, M, LD and ST slots to it.
JIGRUN starts the passes; in a pass the entry that is due issues beside the stream, its register specifiers moved by the stride times the
pass, and one that would leave the registers is illegal in its slot; then the next entry is due, of the next pass after the last entry,
and after the last pass the jig stops. JIGEND stops it and keeps its entries. -/
def Claims.JigSyllables : Prop :=
  ∀ (s : State) k cc x, s.actor = .ctx k cc x → let t := s.ctx k cc x
  let j := t.jig
  let c := s.cc k cc
  t.pc.toNat < c.loaded → c.pending = [] → c.overlay = [] → c.flq = [] → c.pre = none → c.ldNeed = none →
  let sy (y : SySyl) : Bundle := { nopBundle with sy := .op 0 y }
  let C (n : BitVec 6) : W64 := t.c[n.toNat]
  let Jig (b : Bundle) (v : JigState) : Prop := Bundles b s k cc x fun u => MemSame s u ∧ (u.ctx k cc x).jig = v
  (j.running = false → j.recording = false →
    (∀ a n, Jig (sy (.jigld a n)) { n := n.toNat, recording := true, running := false, waiting := false, recorded := 0, next := 0, stride := C a,
                                    passes := 0, pass := 0, entries := [] })
    ∧ (∀ a, let n := (C a).toNat % 2 ^ 32
      Jig (sy (.jigrun a)) { j with running := n ≠ 0 ∧ j.recorded ≠ 0, waiting := false, passes := n, pass := 1, next := 0 })
    ∧ ∀ w, Jig (sy (.jigend w)) { j with running := false, waiting := false })
  ∧ (j.running = false → j.recording = true → ∀ d a,
    Jig { nopBundle with v0 := .op 0 (.movm d a) } { j with
      entries := j.entries ++ [{ v0 := .op 0 (.movm d a), v1 := .nop, m := .nop, ld := .nop, st := .nop }]
      recorded := j.recorded + 1, recording := j.recorded + 1 < j.n })
  ∧ ∀ ty imm (n : Nat), j.running = true → j.recording = false → ty.isInt = true →
    j.entries[j.next]? = some { v0 := .op 0 (.li ty imm 0 (.v n)), v1 := .nop, m := .nop, ld := .nop, st := .nop } →
    let r : Int := n + j.pass * (j.stride.extractLsb' 0 8).toInt
    (0 ≤ r → r < 768 → Bundles nopBundle s k cc x fun u => MemSame s u
      ∧ (∃ p, (u.cc k cc).pending = [p] ∧ p.x = x ∧ p.reg = .v r.toNat ∧ p.mask = none
        ∧ ∀ i, i < 4096 / tyW ty → laneAt (tyW ty) p.val i = ((imm.signExtend 64).setWidth (tyW ty)).toNat)
      ∧ (u.ctx k cc x).jig = (if j.next + 1 < j.recorded then { j with next := j.next + 1 }
        else if j.pass < j.passes then { j with next := 0, pass := j.pass + 1 }
        else { j with next := 0, pass := j.pass + 1, running := false }))
    ∧ (r < 0 ∨ 768 ≤ r → ∃ (u : State) (info : BitVec 10), u.ctx k cc x = t ∧ MemSame s u
      ∧ exec (.bundleIssue nopBundle) s = .next (u.ctxTrap k cc x { code := 0x01, info := info } 1 true))

/-- R146, R150, R201, R206, R210: what a trap does to its context, when no write is pending on its core: it is trapped with its cause word, the
syllable's slot, its pc and address, and the fault's code; the word says escalated when no handler core is named. While writes are pending
the context issues no more, its state is shown as it was (log 90, the model's choice), and the trap is entered with the last landing. A freeze longer than 4,096 clk traps the issuing context with 0x12,
and a shorter one does not. -/
def Claims.ContextTrap : Prop :=
  ∀ (s : State) k cc x (t : Trap) slot jig, t.code < 256 → slot < 8 →
  let v := s.ctx k cc x
  let u := s.ctxTrap k cc x t slot jig
  let w := u.ctx k cc x
  let en := (s.cluster k).cctd.getLsbD 9
  ((s.cc k cc).pending = [] → w.state = 5 ∧ w.epc = v.pc ∧ w.adr = t.addr ∧ w.lastf = t.code ∧ w.pc = v.pc ∧ w.npc = v.npc ∧ w.nnpc = v.nnpc ∧ w.c = v.c ∧ w.q = v.q
    ∧ w.m = v.m ∧ w.flg = v.flg ∧ MemSame s u ∧ (∀ y, y ≠ x → u.ctx k cc y = s.ctx k cc y)
    ∧ w.cau.extractLsb' 0 8 = BitVec.ofNat 8 t.code ∧ w.cau.extractLsb' 8 8 = t.imm ∧ w.cau.extractLsb' 21 3 = BitVec.ofNat 3 slot
    ∧ w.cau.getLsbD 24 = jig ∧ w.cau.getLsbD 26 = !en ∧ w.cau.extractLsb' 32 10 = t.info ∧ (u.cc k cc).freeze = 0)
  ∧ (∀ m, 0 < m → (∃ p ∈ (s.cc k cc).pending, p.left = m) → (∀ p ∈ (s.cc k cc).pending, p.left ≤ m) →
    ∃ f, w.fall = some f ∧ f.left = m ∧ f.code = t.code ∧ f.adr = t.addr ∧ w.state = v.state ∧ w.ready = false ∧ w.pc = v.pc ∧ w.c = v.c
      ∧ MemSame s u)
  ∧ (∀ f, x < 4 → v.fall = some f → f.left = 1 → (s.cc k cc).freeze = 0 → ∃ u : State, exec (.resultLanding k cc) s = .next u
      ∧ (u.ctx k cc x).state = 5 ∧ (u.ctx k cc x).cau = f.cau ∧ (u.ctx k cc x).epc = v.pc ∧ (u.ctx k cc x).adr = f.adr
      ∧ (u.ctx k cc x).lastf = f.code ∧ (u.ctx k cc x).fall = none)
  ∧ ((s.cc k cc).freeze ≤ 4097 → exec (.freezeOverrun k cc) s = .next s)
  ∧ (4097 < (s.cc k cc).freeze → ∃ sl f, sl < 8 ∧
      let u := { s with fresh := f }.ctxTrap k cc (s.cc k cc).issuing { code := 0x12 } sl false
      exec (.freezeOverrun k cc) s = .next (u.setCc k cc { u.cc k cc with heldAt := some s.clk }))

/-- A control core: bundles, landings and traps.
Completes: bundleIssue, resultLanding, freezeOverrun. -/
def Obligations.ControlCores : Prop := Claims.BundleCycle ∧ Claims.VectorSyllables ∧ Claims.JigSyllables ∧ Claims.ContextTrap

/-- R62: the sums of the array. A group of finite products is summed exactly with the accumulator and rounded once; the product of two present
rows is that of their values, and an absent row gives +0; an i8 element adds its products modulo 2^32. -/
def Claims.ArraySums : Prop :=
  (∀ f v fl (l : List (FVal × Flags)), isFinite (decF f v) = true → (∀ p ∈ l, isFinite p.1 = true) →
    ∃ y, Exactly y (ratOf (decF f v) + (l.map fun p => ratOf p.1).sum) ∧ (addGroup f (v, fl) l).1 = (roundVal f .rne false 0 y).1)
  ∧ (∀ a b tab r j c, (a.present r = false ∨ b.present j = false → prodAt a b tab r j c = (.zero false, 0))
    ∧ (a.present r = true → b.present j = true → isFinite (a.value tab r c) = true → isFinite (b.value tab j c) = true →
        Exactly (prodAt a b tab r j c).1 (ratOf (a.value tab r c) * ratOf (b.value tab j c))))
  ∧ ∀ a b tab r j (v : W64), a.present r = true → b.present j = true → v.toNat < 2 ^ 32 →
    ((stepElem .i8 a b tab r j v).1.toNat : Int) =
      ((v.toNat : Int) + ∑ c ∈ Finset.range 64, intVal .i8 (a.pattern r c) * intVal .i8 (b.pattern j c)) % 2 ^ 32

/-- R146, R174, R175, R178, R188: a queued step starts when none runs and its core is not frozen by more than a step wait: it leaves the queue with the array clk of its product class, and the row and
column masks of its accumulator take in its tiles'. A step of a plain sum that has run retires: each element that is no offcut has the
step's products added, and the step count rises by one modulo 2^15. -/
def Claims.ArraySteps : Prop :=
  ∀ (s : State) k cc, let c := s.cc k cc
  let halted : Prop := (c.freeze ≠ 0 ∧ c.stepWait = false) ∨ c.heldAt = some s.clk
  ((∃ q, c.run = some q) ∨ c.queue = [] ∨ halted → exec (.stepStart k cc) s = .next s)
  ∧ (∀ q rest ta tb p, ¬halted → c.run = none → c.queue = q :: rest → q.acc < 4 → s.stepImgs k q = some (ta, tb) → pairClass ta tb = some p →
    (c.accu q.acc).st.extractLsb' 0 2 = 0#2 → ∃ u : State, exec (.stepStart k cc) s = .next u
      ∧ (u.cc k cc).run = some { q with left := match p with | .f64 => 1024 | .f32 => 256 | .half => 64 | .e2m1 | .mx2m1 => 16 | _ => 32 }
      ∧ (u.cc k cc).queue = rest
      ∧ ((u.cc k cc).accu q.acc).row = (c.accu q.acc).row ||| ta.vmask
      ∧ ((u.cc k cc).accu q.acc).col = (if (c.accu q.acc).st.extractLsb' 25 15 = 0#15 then tb.vmask else (c.accu q.acc).col &&& tb.vmask)
      ∧ ((u.cc k cc).accu q.acc).elems = (c.accu q.acc).elems)
  ∧ (c.run = none → exec (.stepRetire k cc) s = .next s)
  ∧ (∀ q, c.run = some q → q.left ≠ 0 → exec (.stepRetire k cc) s = .next s)
  ∧ ∀ q ta tb p, c.run = some q → q.left = 0 → q.acc < 4 → s.stepImgs k q = some (ta, tb) → pairClass ta tb = some p →
    let a := c.accu q.acc
    a.st.extractLsb' 0 2 = 0#2 → ∃ u : State, exec (.stepRetire k cc) s = .next u ∧ (u.cc k cc).run = none ∧ (u.cc k cc).queue = c.queue
      ∧ let b := (u.cc k cc).accu q.acc
        b.st.extractLsb' 25 15 = a.st.extractLsb' 25 15 + 1 ∧ b.row = a.row ∧ b.col = a.col
        ∧ ∀ i, i < 4096 → b.elem i = if isOffcut a.ty (a.elem i) then a.elem i else (stepElem p ta tb (s.tab (.cc k cc)) (i / 64) (i % 64) (a.elem i)).1

/-- R22, R90, R142, R144, R167, R171 to R173, R175, R177 to R180, R185, R187 to R194: what an M syllable does while no step is queued or runs.
In sole mode the other control core's M syllables raise 0x03. MMA and MMAF queue a step where the tiles are sealed, form a product class and
the accumulator takes it, and raise 0x0A or 0x1E otherwise; MBLD fills the latch, and MROT passes it on in two phases, waiting for each.
ACCDECL and ACCZERO set an accumulator; ACCDRAIN sends its rows out one a cycle; ACCLD reads 64 registers in 64 frozen clk and then sets the
elements. The podium syllables raise 0x08 for a row above 63 and 0x1E for what is no podium; where an insertion meets a NaN, NV joins the
accumulator's flags and, as a result of latency 1, the context's; VERDRD reads the verdicts. That the elements a verdict sum had decided are
forgotten when they are loaded is log 86, the model's choice. -/
def Claims.MatrixSyllables : Prop :=
  ∀ (s : State) k cc x, CtxIssues s k cc x → let c := s.cc k cc
  let t := s.ctx k cc x
  let b (y : MSyl) : Bundle := { nopBundle with m := .op 0 y }
  let Traps (y : MSyl) (code : Nat) : Prop := BundleFaults (b y) s k cc x { code := code } 3
  let mode := (s.cluster k).mumode
  let C (n : BitVec 6) : W64 := t.c[n.toNat]
  let V (n : Nat) : VReg := c.vreg n
  (∀ y, (mode = 1 ∧ cc ≠ 0) ∨ (mode = 2 ∧ cc ≠ 1) → Traps y 0x03)
  ∧ (¬((mode = 1 ∧ cc ≠ 0) ∨ (mode = 2 ∧ cc ≠ 1)) → c.queue = [] → c.run = none →
    let M (y : MSyl) (P : State → Prop) : Prop := Bundles (b y) s k cc x fun u => MemSame s u ∧ (u.cc k cc).run = none ∧ P u
    let Sets (acc : BitVec 2) (y : MSyl) (P : Accu → List PWrite → Prop) : Prop := M y fun u => (u.cc k cc).queue = []
      ∧ (∀ i, i < 4 → i ≠ acc.toNat → (u.cc k cc).accu i = c.accu i) ∧ P ((u.cc k cc).accu acc.toNat) (u.cc k cc).pending
    (∀ acc, let A := c.accu acc.toNat
      c.pre = none →
      let Steps (y : MSyl) (ia ib : Option TImg) (q : AStep) : Prop :=
        (∀ a b p, ia = some a → ib = some b → pairClass a b = some p →
          let takes : Prop := A.kind ≠ 2 ∧ A.atype = p.accType ∧ A.done = false ∧ (A.kind = 1 → A.ins = true ∨ A.step < A.len)
          (takes → M y fun u => (u.cc k cc).queue = [q] ∧ (u.cc k cc).acc = c.acc ∧ (u.cc k cc).pending = []) ∧ (¬takes → Traps y 0x1E))
        ∧ ((∀ a b p, ia = some a → ib = some b → pairClass a b ≠ some p) → Traps y 0x0A)
      let img (r : BitVec 6) : Option TImg := match s.tileOf k ((C r).setWidth 16) with
        | some (i, tl) => if tl.state ∈ [2, 3] then some (s.tileImg k i) else none
        | none => none
      let step (r : BitVec 6) (o : Option (BitVec 16)) : AStep := { acc := acc.toNat, x := x, a := (C r).setWidth 16, b := o, left := 0 }
      (∀ p q, Steps (.mma acc p q) (img p) (img q) (step p (some ((C q).setWidth 16))))
      ∧ (∀ p, (s.cluster k).latch ≠ .empty → Steps (.mmaf acc p) (img p) (s.cluster k).latch.img (step p none))
      ∧ (∀ p, (s.cluster k).latch = .empty → BundleWaits (b (.mmaf acc p)) s k cc x))
    ∧ (c.pre = none →
      (∀ r i tl, s.tileOf k ((C r).setWidth 16) = some (i, tl) → tl.state ∈ [2, 3] → M (.mbld r) fun u => (u.cluster k).latch = s.latchTile k i)
      ∧ (∀ r, (∀ i tl, s.tileOf k ((C r).setWidth 16) = some (i, tl) → tl.state ∉ [2, 3]) → Traps (.mbld r) 0x0A)
      ∧ (c.rotBy = none → let n := k / 8 * 8 + (k % 8 + 1) % 8
        ((s.cluster n).incoming = .empty → (s.cluster k).incoming ≠ .empty → M .mrot fun u => (u.cluster k).latch = (s.cluster k).incoming
          ∧ (u.cluster k).incoming = .empty ∧ (u.cluster n).incoming = (s.cluster k).latch ∧ (u.cluster n).latch = (s.cluster n).latch)
        ∧ ((s.cluster n).incoming = .empty → (s.cluster k).incoming = .empty → BundleWaits (b .mrot) s k cc x
          ∧ ∃ u : State, exec (.bundleIssue (b .mrot)) s = .next u ∧ (u.cluster n).incoming = (s.cluster k).latch ∧ (u.cc k cc).rotBy = some x)
        ∧ ((s.cluster n).incoming ≠ .empty → BundleWaits (b .mrot) s k cc x)))
    ∧ ∀ acc, let A := c.accu acc.toNat
      let zeroed (v : Accu) : Prop := v.elems = [] ∧ v.row = 0 ∧ v.col = BitVec.allOnes 64 ∧ v.raise = List.replicate 64 0xFF800000
        ∧ v.snap = List.replicate 64 0xFF800000 ∧ v.decided = []
      (c.pre = none → Sets acc (.acczero acc) fun v w => zeroed v ∧ v.st = (A.st.extractLsb' 0 25).setWidth 64 ∧ v.th = A.th ∧ w = [])
      ∧ (∀ r (d : BitVec 25), c.pre = none → let fld (lo n : Nat) : Nat := (d.extractLsb' lo n).toNat
        let plain : Prop := fld 4 6 = 0
        let legal : Prop := (fld 0 2 = 0 ∧ fld 2 2 < 3 ∧ plain ∧ fld 10 15 = 0)
          ∨ (fld 0 2 = 1 ∧ 1 ≤ fld 10 15 ∧ ((fld 4 2 ∈ [0, 2] ∧ fld 2 2 < 2 ∧ fld 7 3 = 0)
            ∨ (fld 4 2 = 1 ∧ fld 2 2 = 0 ∧ fld 7 2 ≠ acc.toNat ∧ ¬(d.getLsbD 9 = true ∧ d.getLsbD 6 = true) ∧ (c.accu (fld 7 2)).kind = 2)))
          ∨ (fld 0 2 = 2 ∧ fld 2 2 = 0 ∧ plain ∧ fld 10 15 < 64)
        let free : Prop := A.kind = 2 → fld 0 2 ≠ 2 → ∀ i, i < 4 → i ≠ acc.toNat → ¬((c.accu i).kind = 1 ∧ (c.accu i).pred = 1 ∧ (c.accu i).tgt = acc.toNat)
        (legal → free → Sets acc (.accdecl acc r d) fun v w => zeroed v ∧ v.st = d.setWidth 64 ∧ w = []
          ∧ v.th = if fld 4 2 ≠ 2 then A.th else if fld 2 2 = 1 then C r else ((C r).extractLsb' 0 32).setWidth 64)
        ∧ (¬(legal ∧ free) → Traps (.accdecl acc r d) 0x1E))
      ∧ (∀ n, c.pre = none → let w := if A.kind = 2 ∨ A.atype = 1 then 64 else 32
        let out (r : Nat) : Prop := A.kind = 2 ∨ A.row.getLsbD r = true
        Sets acc (.accdrain acc (.v n)) fun v ps => v = A
          ∧ (∀ r, r < 64 → out r → ∃ p ∈ ps, p.x = x ∧ p.reg = .v (n + r) ∧ p.left = 4 + r ∧ p.mask = none ∧ p.flags = 0
              ∧ ∀ j, laneAt w p.val j = if j < 64 then (A.elem (64 * r + j)).toNat % 2 ^ w else 0)
          ∧ (∀ p ∈ ps, ∃ r, r < 64 ∧ out r ∧ p.reg = .v (n + r)))
      ∧ (∀ n p q, (c.pre = none → ∃ u : State, exec (.bundleIssue (b (.accld acc (.v n) p q))) s = .next u ∧ u.ctx k cc x = t
            ∧ (u.cc k cc).pre = some 63 ∧ (u.cc k cc).acc = c.acc ∧ (u.cc k cc).freeze = max 1 c.freeze + 1)
        ∧ (∀ m, c.pre = some (m + 1) → ∃ u : State, exec (.bundleIssue (b (.accld acc (.v n) p q))) s = .next u ∧ u.ctx k cc x = t
            ∧ (u.cc k cc).pre = some m ∧ (u.cc k cc).acc = c.acc ∧ (u.cc k cc).freeze = max 1 c.freeze + 1)
        ∧ (c.pre = some 0 → A.kind = 2 → Traps (.accld acc (.v n) p q) 0x1E)
        ∧ (c.pre = some 0 → A.kind ≠ 2 → let w := if A.atype = 1 then 64 else 32
          Sets acc (.accld acc (.v n) p q) fun v ps => ps = []
            ∧ (∀ r j, r < 64 → j < 64 → v.elem (64 * r + j) = BitVec.ofNat 64 (laneAt w (V (n + r)) j))
            ∧ v.step = (C p).toNat % 2 ^ 15 ∧ v.allab = false ∧ v.done = false ∧ v.st.extractLsb' 0 25 = A.st.extractLsb' 0 25
            ∧ v.row = C q ∧ v.col = BitVec.allOnes 64 ∧ v.raise = A.raise ∧ v.snap = A.snap ∧ v.th = A.th))
      ∧ (c.pre = none →
        let Pod (y : MSyl) (r : Accu × Bool) : Prop :=
          (r.2 = false → Sets acc y fun v w => v = r.1 ∧ w = [])
          ∧ (r.2 = true → flgTrapped t.flg fNV = 0 → Sets acc y fun v w => v = { r.1 with st := r.1.st ||| BitVec.ofNat 64 (fNV.toNat * 2 ^ 40) }
            ∧ ∃ p, w = [p] ∧ p.x = x ∧ p.reg = .z ∧ p.left = 1 ∧ p.flags = fNV)
          ∧ (r.2 = true → flgTrapped t.flg fNV ≠ 0 → BundleFaults (b y) s k cc x { code := 0x0D, fpc := flgTrapped t.flg fNV } 3)
        let Row (y : MSyl) (r : BitVec 6) (l : List W64) : Prop :=
          (63 < (C r).toNat → Traps y 0x08) ∧ ((C r).toNat ≤ 63 → A.kind ≠ 2 → Traps y 0x1E)
          ∧ ((C r).toNat ≤ 63 → A.kind = 2 → Pod y (insertAll A (C r).toNat l))
        let f32s (n r : Nat) : W32 := BitVec.ofNat 32 (laneAt 32 (V n) r)
        (∀ n r (m : BitVec 3), Row (.pins acc (.v n) r m) r (((List.range 128).filter fun i => m = 0 ∨ t.m[m.toNat].getLsbD i).map fun i =>
            f32s (n + 1) i ++ f32s n i))
        ∧ (∀ n r, Row (.pmerge acc (.v n) r) r (((List.range 64).map fun i => BitVec.ofNat 64 (laneAt 64 (V n) i)).filter (· ≠ emptyPair)))
        ∧ (∀ n, let off : Prop := ∃ r, r < 64 ∧ isOffcut .f32 ((f32s n r).setWidth 64) = true
          (off → Traps (.praise acc (.v n)) 0x0C) ∧ (¬off → A.kind ≠ 2 → Traps (.praise acc (.v n)) 0x1E)
          ∧ (¬off → A.kind = 2 → Pod (.praise acc (.v n)) ((List.range 64).foldl (fun (y : Accu × Bool) r =>
            ((y.1.praise r (f32s n r)).1, y.2 || (y.1.praise r (f32s n r)).2)) (A, false))))
        ∧ (A.kind ≠ 2 → Traps (.mbldPod acc) 0x1E ∧ ∀ v, Traps (.pfloor acc v) 0x1E)
        ∧ (A.kind = 2 → (M (.mbldPod acc) fun u => (u.cluster k).latch = .podium A.st A.elems A.raise)
          ∧ ∀ n, Sets acc (.pfloor acc (.v n)) fun v w => v = A ∧ ∃ p, w = [p] ∧ p.x = x ∧ p.reg = .v n ∧ p.left = 4 ∧ p.mask = none
            ∧ ∀ r, laneAt 32 p.val r = if r < 64 then (let l := A.pairs r
              if l.length = A.podLen then (l.getD (A.podLen - 1) emptyPair).toNat % 2 ^ 32 else (A.raiseAt r).toNat) else 0)
        ∧ (∀ st elems raise, (s.cluster k).latch = .podium st elems raise → A.kind ≠ 2 → Traps (.pmergeL acc) 0x1E)
        ∧ ((∀ st elems raise, (s.cluster k).latch ≠ .podium st elems raise) → Traps (.pmergeL acc) 0x0A)
        ∧ (∀ st elems raise, (s.cluster k).latch = .podium st elems raise → A.kind = 2 →
          let im : Accu := { A with st := st, elems := elems, raise := raise }
          Pod (.pmergeL acc) ((List.range 64).foldl (fun (y : Accu × Bool) r => let p := y.1.praise r (im.raiseAt r)
            let q := insertAll p.1 r (im.pairs r)
            (q.1, y.2 || p.2 || q.2)) (A, false)))
        ∧ (∀ n, (A.kind ≠ 1 → Traps (.verdrd acc (.v n)) 0x1E)
          ∧ (A.kind = 1 → Sets acc (.verdrd acc (.v n)) fun v w => v = A ∧ ∃ p q, w = [p, q] ∧ p.reg = .v n ∧ q.reg = .v (n + 1)
            ∧ (∀ r, r = p ∨ r = q → r.x = x ∧ r.left = 4 ∧ r.mask = none)
            ∧ ∀ i, i < 4096 → let e := A.elem i
              p.val.getLsbD i = (if isOffcut A.ty e then e.getLsbD 0 else A.done && A.verdict (i / 64) e)
              ∧ q.val.getLsbD i = (isOffcut A.ty e || A.done)))))

/-- R185, R192, R193: what inserting a pair leaves of a podium row of L places: an offcut, a value below the row's raise value and a pair that the
row holds change nothing; a NaN changes nothing and is reported; any other pair takes its place by rank, a zero as +0, and the lowest falls out
of a full row. Raising a row's raise value drops the pairs below it. Every other row stays. -/
def Claims.PodiumRows : Prop :=
  ∀ (a : Accu) r (v i : W32), a.kind = 2 → r < 64 → a.raise.length = 64 →
  let x := f32v v.toNat
  let p : W64 := i ++ (match x with | .zero _ => 0#32 | _ => v)
  let l := a.pairs r
  let above (q : W64) : Bool := ranksAbove (pairVal p) (pairVal q) (pairIdx p) (pairIdx q)
  let below (q : FVal) : Prop := podBelow q (f32v (a.raiseAt r).toNat) = true
  let Others (b : Accu) : Prop := (∀ q, q < 64 → q ≠ r → b.pairs q = a.pairs q ∧ b.raiseAt q = a.raiseAt q) ∧ b.st = a.st ∧ b.row = a.row ∧ b.col = a.col
  (isOffcut .f32 (v.setWidth 64) = true → a.insert r v i = (a, false))
  ∧ (isOffcut .f32 (v.setWidth 64) = false → x.isNan = true → a.insert r v i = (a, true))
  ∧ (isOffcut .f32 (v.setWidth 64) = false → x.isNan = false → (below x ∨ p ∈ l) → a.insert r v i = (a, false))
  ∧ (isOffcut .f32 (v.setWidth 64) = false → x.isNan = false → ¬below x → p ∉ l → p ≠ emptyPair → let b := (a.insert r v i).1
    (a.insert r v i).2 = false ∧ Others b ∧ b.raiseAt r = a.raiseAt r
    ∧ b.pairs r = (l.takeWhile (fun q => !above q) ++ p :: l.dropWhile (fun q => !above q)).take a.podLen)
  ∧ (x.isNan = true → a.praise r v = (a, true))
  ∧ (x.isNan = false → podBelow (f32v (a.raiseAt r).toNat) x = false → a.praise r v = (a, false))
  ∧ (x.isNan = false → podBelow (f32v (a.raiseAt r).toNat) x = true → let b := (a.praise r v).1
    (a.praise r v).2 = false ∧ Others b ∧ b.raiseAt r = v ∧ b.pairs r = l.filter fun q => !podBelow (pairVal q) x)

/-- The array: sums and steps, and the M syllables.
Completes: stepStart, stepRetire. -/
def Obligations.ArrayArithmetic : Prop := Claims.ArraySums ∧ Claims.ArraySteps ∧ Claims.MatrixSyllables ∧ Claims.PodiumRows

/-- R32, R146, R149, R150, R153, R165 to R170, R258, R262, R274, R304, R328 to R330, R335 to R337, R341: what the syllables of the LD, ST, CP and SY
slots do, in a context with nothing buffered unless it is said. A load of the own scratchpad writes its register with latency 8 once every
bank of its words is free, and waits until then; a store enters the store buffer, and waits for a place in it; CPGO enters the copy engine's
queue, as a reserved entry while stores are buffered, and is held when it is full; CPSTAT reads the engine's state. HWAIT takes the oldest
handle, whose buffer is then in use, and is held when there is none; HPEEK shows it; HREL releases it; MBWAIT takes a full word when its bank
is free and is held on an empty one; SWITCH yields; RQSEED seeds the generator; SEAL waits for the stores before it; FENCEC waits for
the stores, and reports a refused one. -/
def Claims.MemorySyllables : Prop :=
  ∀ (s : State) k cc x, CtxIssues s k cc x → (s.cc k cc).pre = none → s.bad = [] →
  let c := s.cc k cc
  let t := s.ctx k cc x
  let C (n : BitVec 6) : W64 := t.c[n.toNat]
  let V (n : Nat) : VReg := c.vreg n
  let on (m : BitVec 3) (i : Nat) : Bool := m == 0 || decide (512 ≤ i) || t.m[m.toNat].getLsbD i
  let own (a : W64) (n : Nat) : Prop := a.toNat / 2 ^ 22 = 0x24000000000 ∧ a.toNat % 2 ^ 22 + n ≤ 0x3FFF00
  let off (a : W64) : Nat := a.toNat % 2 ^ 22
  let free (l : List Nat) : Prop := (∀ w ∈ l, s.bankFree k (w / 8 % 64) = true) ∧ ∀ w ∈ l, ∀ v ∈ l, w / 8 % 64 = v / 8 % 64 → w = v
  let bytes (a n : Nat) : Nat := ∑ j ∈ Finset.range n, (memGet s.mem (cspBase k + a + j)).toNat * 256 ^ j
  let ld (y : LdSyl) : Bundle := { nopBundle with ld := .op 0 y }
  let st (y : StSyl) : Bundle := { nopBundle with st := .op 0 y }
  let cp (y : CpSyl) : Bundle := { nopBundle with cp := .op 0 y }
  let sy (y : SySyl) : Bundle := { nopBundle with sy := .op 0 y }
  let pend (r : CReg) (n : Nat) (v : VReg) : List PWrite := [{ x := x, reg := r, val := v, mask := none, left := n, flags := 0 }]
  let Writes (b : Bundle) (r : CReg) (n : Nat) (v : VReg) : Prop := Bundles b s k cc x fun u => MemSame s u ∧ (u.cc k cc).pending = pend r n v
  -- LD
  (t.sbuf = [] → ∀ n a e imm,
    (let ea : W64 := C a + C e + imm.signExtend 64
      let y := LdSyl.vld (.v n) a e imm
      let words := (List.range 64).map fun i => off ea + 8 * i
      (own ea 512 → ea.toNat % 8 = 0 →
        (free words → Writes (ld y) (.v n) 8 (BitVec.ofNat 4096 (bytes (off ea) 512))) ∧ (¬free words → BundleWaits (ld y) s k cc x))
      ∧ (own ea 512 → ea.toNat % 8 ≠ 0 → BundleFaults (ld y) s k cc x { code := 0x04, addr := ea } 4)
      ∧ (ea.extractLsb' 60 4 ≠ 9#4 → BundleFaults (ld y) s k cc x { code := 0x05, addr := ea } 4)
      ∧ (ea.toNat / 2 ^ 22 = 0x24000000000 → 2 ^ 22 < off ea + 512 → BundleFaults (ld y) s k cc x { code := 0x08, addr := ea } 4))
    ∧ (∀ ty, ty.isLane = true → ty ∉ [.narrow, .dt] → let w := tyW ty
      let ea (i : Nat) : W64 := C a + imm.signExtend 64 + BitVec.ofNat 64 i * C e
      let words := spanWords ((List.range (4096 / w)).map fun i => (off (ea i), w / 8))
      (∀ i, i < 4096 / w → own (ea i) (w / 8) ∧ (ea i).toNat % (w / 8) = 0) →
        (free words → Writes (ld (.vlds ty (.v n) a e imm)) (.v n) 8 (ofLanes w ((List.range (4096 / w)).map fun i => bytes (off (ea i)) (w / 8))))
        ∧ (¬free words → BundleWaits (ld (.vlds ty (.v n) a e imm)) s k cc x))
    ∧ (let r : W64 := C e + imm.signExtend 64
      let y := LdSyl.vldh (.v n) a e imm
      (63 < r.toNat → BundleFaults (ld y) s k cc x { code := 0x08 } 4)
      ∧ (∀ i tl, s.tileOf k ((C a).setWidth 16) = some (i, tl) → tl.state ∈ [2, 3] → r.toNat ≤ 63 → let o := tl.base + 0x200 + r.toNat * tl.rb
        o + tl.rb ≤ 0x3FFF00 → free (spanWords [(o, tl.rb)]) →
          Writes (ld y) (.v n) 8 (if tl.vmask.getLsbD r.toNat then BitVec.ofNat 4096 (bytes o tl.rb) else 0))
      ∧ ((∀ i tl, s.tileOf k ((C a).setWidth 16) = some (i, tl) → tl.state ∉ [2, 3]) → r.toNat ≤ 63 → BundleFaults (ld y) s k cc x { code := 0x0A } 4)))
  -- ST
  ∧ (∀ ty give m n a e imm, ty.isLane = true → ty ∉ [.narrow, .dt] → (s.cluster k).tiles = [] → let w := tyW ty
    let Enters (y : StSyl) (ea : Nat → W64) : Prop :=
      let es := ((List.range (4096 / w)).filter fun i => on m i).map fun i => (off (ea i), laneAt w (V n) i, ea i)
      (t.sbuf.length < 4 → (∀ i, i < 4096 / w → own (ea i) (w / 8)) → Bundles (st y) s k cc x fun u => MemSame s u ∧ (u.cc k cc).pending = []
        ∧ (u.ctx k cc x).sbuf = t.sbuf ++ [{ give := give, elems := es, ty := ty, need := spanWords (es.map fun z => (z.1, w / 8)), age := none }])
      ∧ (4 ≤ t.sbuf.length → BundleWaits (st y) s k cc x)
    let ea : W64 := C a + C e + imm.signExtend 64
    let eas (i : Nat) : W64 := C a + imm.signExtend 64 + BitVec.ofNat 64 i * C e
    (ea.toNat % 8 = 0 → Enters (.vst ty give m (.v n) a e imm) fun i => ea + BitVec.ofNat 64 (i * (w / 8)))
    ∧ (t.sbuf.length < 4 → own ea 512 → ea.toNat % 8 ≠ 0 → BundleFaults (st (.vst ty give m (.v n) a e imm)) s k cc x { code := 0x04, addr := ea } 5)
    ∧ ((∀ i, i < 4096 / w → (eas i).toNat % (w / 8) = 0) → Enters (.vstm ty give m (.v n) a e imm) eas))
  -- CP
  ∧ (∀ a, let g := (s.cluster k).ce
    let entry (o : Option W64) : EngCmd := { word := o, tag := s.issuerTag (.ctx k cc x), scope := (if o = none then none else some .cluster),
                                             launch := s.kickLaunch (.ctx k cc x) k, kid := k }
    let stat : W64 := BitVec.ofNat 64 (g.queue.length + (if g.run = .idle then 0 else 16) + g.lastFault * 256)
    (g.queue.length < 8 → t.sbuf = [] → t.cpgos = [] → Bundles (cp (.cpgo a)) s k cc x fun u => MemSame s u
      ∧ (u.cluster k).ce = { g with queue := g.queue ++ [entry (some (C a))] } ∧ (u.ctx k cc x).cpgos = [])
    ∧ (g.queue.length < 8 → t.sbuf ≠ [] → Bundles (cp (.cpgo a)) s k cc x fun u => MemSame s u
      ∧ (u.cluster k).ce = { g with queue := g.queue ++ [entry none] } ∧ (u.ctx k cc x).cpgos = t.cpgos ++ [(C a, t.sbuf.length)])
    ∧ (8 ≤ g.queue.length → BundleHeld (cp (.cpgo a)) s k cc x 3)
    ∧ Writes (cp (.cpstat a false)) (.c x a) 2 (stat.setWidth 4096)
    ∧ (g.run = .idle → g.queue = [] → Writes (cp (.cpstat a true)) (.c x a) 2 (stat.setWidth 4096))
    ∧ (g.run ≠ .idle ∨ g.queue ≠ [] → BundleHeld (cp (.cpstat a true)) s k cc x 3))
  -- SY
  ∧ ∀ d a, let ea := C a
    let Does (y : SySyl) (P : State → Prop) : Prop := Bundles (sy y) s k cc x P
    let held := s.tileOf k ((C a).setWidth 16)
    (t.handles = [] → BundleHeld (sy (.hwait d)) s k cc x 1 ∧ Writes (sy (.hpeek d)) (.c x d) 2 0)
    ∧ (∀ h rest, t.handles = h :: rest → Writes (sy (.hpeek d)) (.c x d) 2 (h.setWidth 4096)
      ∧ ((s.cluster k).posts = [] → Does (.hwait d) fun u => (u.cc k cc).pending = pend (.c x d) 2 (h.setWidth 4096) ∧ (u.ctx k cc x).handles = rest
        ∧ ∀ i tl, s.tileOf k h = some (i, tl) → tl.state = 2 → s.tile k i = tl ∧ u.tile k i = { tl with state := 3 }))
    ∧ (∀ i tl, held = some (i, tl) → tl.state = 3 →
      (s.stepsName k ((C a).setWidth 16) = false → Does (.hrel a) fun u => u.tile k i = { tl with state := 4, releasing := false })
      ∧ (s.stepsName k ((C a).setWidth 16) = true → Does (.hrel a) fun u => u.tile k i = { tl with releasing := true }))
    ∧ ((∀ i tl, held = some (i, tl) → tl.state ≠ 3) → BundleFaults (sy (.hrel a)) s k cc x { code := 0x0A } 7)
    ∧ (own ea 8 → ea.toNat % 8 = 0 → (s.cluster k).tiles = [] → let p := cspBase k + off ea
      (s.isFull p = true → s.bankFree k (off ea / 8 % 64) = true → Does (.mbwait d a) fun u => MemSame s u
        ∧ (u.cc k cc).pending = pend (.c x d) 2 ((s.rd64 p).setWidth 4096) ∧ u.isFull p = false)
      ∧ (s.isFull p = true → s.bankFree k (off ea / 8 % 64) = false → BundleWaits (sy (.mbwait d a)) s k cc x)
      ∧ (s.isFull p = false → BundleHeld (sy (.mbwait d a)) s k cc x 2))
    ∧ (own ea 8 → ea.toNat % 8 ≠ 0 → BundleFaults (sy (.mbwait d a)) s k cc x { code := 0x04, addr := ea } 7)
    ∧ (ea ∈ [0x90000000003FFF00, 0x90000000003FFF08] → BundleFaults (sy (.mbwait d a)) s k cc x { code := 0x05, addr := ea } 7)
    ∧ (Does .switch fun u => MemSame s u ∧ (u.cc k cc).yield = true)
    ∧ (Does (.rqseed d a) fun u => MemSame s u ∧ (u.cluster k).rngQ = [] ∧ (u.cluster k).rngKey = C a ∧ (u.cluster k).rngCtr = (C d).setWidth 128)
    ∧ (held = none → BundleFaults (sy (.seal a)) s k cc x { code := 0x0A } 7)
    ∧ (∀ i tl, held = some (i, tl) →
      (t.sbuf ≠ [] → Does (.seal a) fun u => MemSame s u ∧ (u.ctx k cc x).seals = t.seals ++ [((C a).setWidth 16, t.sbuf.length)])
      ∧ (t.sbuf = [] → t.seals = [] → tl.state ≠ 1 → Does (.seal a) fun u => MemSame s u ∧ (u.cluster k).tiles = (s.cluster k).tiles)
      ∧ (t.sbuf = [] → t.seals = [] → tl.state = 1 → ∃ u : State, exec (.bundleIssue (sy (.seal a))) s = .next u ∧ (u.ctx k cc x).pc = t.npc
          ∧ (u.tile k i).state = 2 ∧ (u.tile k i).cause = 1 ∧ (u.tile k i).base = tl.base))
    ∧ (t.sbuf ≠ [] → BundleWaits (sy .fencec) s k cc x)
    ∧ (t.sbuf = [] → t.refused = false → Does .fencec fun u => MemSame s u ∧ (u.cc k cc).pending = [])
    ∧ (t.sbuf = [] → t.refused = true → ∃ u : State, u.ctx k cc x = t ∧ MemSame s u ∧ let w := u.ctxTrap k cc x { code := 0x14 } 7 false
        exec (.bundleIssue (sy .fencec)) s = .next (w.setCtx k cc x { w.ctx k cc x with refused := false }))

/-- R32, R168 to R170, R335, R337: a context's oldest buffered store is written when its banks are free; a command pushed by CPGO fills its reserved
entry once the stores before it have been written; the generator appends one block of two words while two places are free. -/
def Claims.StoreQueues : Prop :=
  ∀ (s : State) k cc x, let t := s.ctx k cc x
  (t.sbuf = [] → exec (.storeBufferWrite k cc x) s = .next s)
  ∧ (∀ off v addr o rest, MemOk s → t.sbuf = { give := false, elems := [(off, v, addr)], ty := .b64, need := [off], age := o } :: rest → off % 8 = 0 →
    off + 8 ≤ 0x3FFF00 → (s.cluster k).tiles = [] → s.bad = [] → s.bankFree k (off / 8 % 64) = true → v < 2 ^ 64 →
    ∃ u : State, exec (.storeBufferWrite k cc x) s = .next u ∧ Stores (cspBase k + off) 8 (BitVec.ofNat 64 v) s u ∧ (u.ctx k cc x).sbuf = rest
      ∧ (u.ctx k cc x).c = t.c ∧ (u.ctx k cc x).refused = t.refused)
  ∧ (t.cpgos = [] → exec (.cpgoPush k cc x) s = .next s)
  ∧ (∀ v n rest, t.cpgos = (v, n + 1) :: rest → exec (.cpgoPush k cc x) s = .next s)
  ∧ (∀ v rest q tail, t.cpgos = (v, 0) :: rest → (s.cluster k).ce.queue = q :: tail → q.word = none → q.tag = s.issuerTag (.ctx k cc x) →
    ∃ u : State, exec (.cpgoPush k cc x) s = .next u ∧ (u.ctx k cc x).cpgos = rest
      ∧ (u.cluster k).ce.queue = { q with word := some v, scope := some .cluster } :: tail)
  ∧ (62 < (s.cluster k).rngQ.length → exec (.randomBlock k) s = .next s)
  ∧ ((s.cluster k).rngQ.length ≤ 62 → ∃ u : State, exec (.randomBlock k) s = .next u ∧ (u.cluster k).rngCtr = (s.cluster k).rngCtr + 1
      ∧ (u.cluster k).rngKey = (s.cluster k).rngKey
      ∧ let w := philoxBlock (s.cluster k).rngKey (s.cluster k).rngCtr
        (u.cluster k).rngQ = (s.cluster k).rngQ ++ [w.1, w.2])

/-- The syllables that load, store and queue, and what the store buffer, CPGO and the generator then do.
Completes: storeBufferWrite, cpgoPush, randomBlock. -/
def Obligations.ContextQueues : Prop := Claims.MemorySyllables ∧ Claims.StoreQueues

/-- R235 to R237, R239, R240: where a walk comes to: an entry that is not valid is an absent page, an entry with a bit that must be 0, a leaf
above level 2, a table below level 0 and a leaf misaligned for its level is a protection fault that names the entry, a leaf gives the page
with its permissions, and a table leads a level down; a table entry that the station holds for a level leads down without a read. An entry that
leads to a table with no memory at its slot is the one the protection fault names. The PASID entry leads to its root, to the host, or to a protection fault,
which names no entry (log 22, the model's reading) unless its root has no memory. -/
def Obligations.WalkResults : Prop :=
  ∀ (s : State) (held : Nat → Option W64) va, s.bad = [] →
  let walk (level table : Nat) : WalkRes := (walkFrom s held va level table).res
  let down (e : W64) : Nat := (e.extractLsb' 12 40).toNat * 4096
  let slot (level table : Nat) : Nat := table + 8 * (va / 2 ^ (12 + 9 * level) % (if level = 4 then 256 else 512))
  -- the entry in a table is held, or lies in HBM
  let found (level table : Nat) : Prop := held level ≠ none ∨ slot level table < Config.hbmEnd
  let hole (level table : Nat) : Prop := held level = none ∧ Config.hbmEnd ≤ slot level table ∧ slot level table < Config.farBase
  (∀ level table, held level = none → let at_ := slot level table
    let e : W64 := s.rd64 at_
    let base := down e
    let span := 2 ^ (12 + 9 * level)
    at_ < Config.hbmEnd →
    (e.getLsbD 0 = false → walk level table = .fault 0x06 none)
    ∧ (e.getLsbD 0 = true → e.extractLsb' 7 3 ≠ 0#3 ∨ e.extractLsb' 52 7 ≠ 0#7 → walk level table = .fault 0x07 (some at_))
    ∧ (e.getLsbD 0 = true → e.extractLsb' 7 3 = 0#3 → e.extractLsb' 52 7 = 0#7 → e.getLsbD 1 = true →
        (3 ≤ level ∨ base % span ≠ 0 → walk level table = .fault 0x07 (some at_))
        ∧ (level ≤ 2 → base % span = 0 → base + span ≤ Config.hbmEnd → walk level table =
            .leaf { absent := false, dpa := base + va % span / 4096 * 4096, host := false, rd := e.getLsbD 2, wr := e.getLsbD 3,
                    ex := e.getLsbD 4, usr := e.getLsbD 5 }))
    ∧ (e.getLsbD 0 = true → e.extractLsb' 7 3 = 0#3 → e.extractLsb' 52 7 = 0#7 → e.getLsbD 1 = false →
        (e.extractLsb' 2 5 ≠ 0#5 ∨ level = 0 → walk level table = .fault 0x07 (some at_))
        ∧ (e.extractLsb' 2 5 = 0#5 → 0 < level → found (level - 1) base → walk level table = walk (level - 1) base)
        ∧ (e.extractLsb' 2 5 = 0#5 → 0 < level → hole (level - 1) base → walk level table = .fault 0x07 (some at_))))
  ∧ (∀ level table e, held (level + 1) = some e → (found level (down e) → walk (level + 1) table = walk level (down e))
      ∧ (hole level (down e) → walk (level + 1) table = .fault 0x07 (some (slot (level + 1) table))))
  ∧ (∀ level table, hole level table → walk level table = .fault 0x07 (some (slot level table)))
  ∧ ∀ pasid, let a := s.pasidBase.toNat + 16 * pasid
    let w := s.rd64 a
    let good : Prop := w.getLsbD 0 = true ∧ w.extractLsb' 2 10 = 0#10 ∧ w.extractLsb' 52 12 = 0#12 ∧ s.rd64 (a + 8) = 0
    a < Config.hbmEnd →
    (¬good → (s.walkPage held pasid va).res = .fault 0x07 none) ∧ (good → w.getLsbD 1 = true → (s.walkPage held pasid va).res = .host)
    ∧ (good → w.getLsbD 1 = false → (found 4 (down w) → (s.walkPage held pasid va).res = walk 4 (down w))
      ∧ (hole 4 (down w) → (s.walkPage held pasid va).res = .fault 0x07 (some a)))

/-- R237, R239, R240, R286: a request at its station. A leaf that permits it sends it on with its address; one that does not answers protection
(0x07); a page the host reported absent answers 0x06, once; a request of a page that is being walked joins its miss register, and any
other starts a walk, which begins at once while fewer than 32 of the station's run. A station with 512 miss registers in use, or 8,192 requests, accepts
nothing, and a posted access waits for the earlier relaxed accesses of its entity to its word. A store of a cluster that holds the line is accepted: it is answered, its bytes are in the copy, and it goes on to
its home. -/
def Claims.TranslationRequests : Prop :=
  ∀ (s : State) id (r : Req) p, mfind s.reqs id = some r → r.pasid = some p →
  let die := entDie r.who
  let va := r.addr.toNat
  let Becomes (q : Req) : Prop := ∃ u : State, exec (.translationRequest id) s = .next u ∧ mfind u.reqs id = some q ∧ MemSame s u
  let Answers (a : Ans) : Prop := ∃ u : State, exec (.translationRequest id) s = .next u ∧ Dropped id s u ∧ Told r a s u ∧ MemSame s u
  let st := stationOf die p va
  let mine : List Walk := s.walks.filter fun w => stationOf w.die w.pasid w.page = st
  let full : Prop := 512 ≤ mine.length ∨ 8192 ≤ (mine.map fun w => w.reqs.length).sum
  let behind : Prop := r.isPosted = true ∧ s.postHeld id r = true
  (r.phase ≠ .station ∨ s.clk < r.due ∨ full ∨ behind → exec (.translationRequest id) s = .next s)
  ∧ (r.phase = .station → r.due ≤ s.clk → ¬full → ¬behind →
    (∀ l, s.leafAt die p va = some l → l.absent = false → l.permits r.op.need r.level = true →
      (∀ ty hi, r.op = .load ty hi → ∃ n, n < 400 ∧ Becomes { r with phase := .home, dpa := l.dpa + va % 4096, due := s.clk + n + 1 })
      ∧ (∀ ty e n', r.op = .cas ty e n' → ∃ n, n < 400 ∧ Becomes { r with phase := .write, dpa := l.dpa + va % 4096, due := s.clk + n + 1 })
      ∧ (∀ k c t ty v c₀, r.who = .lap k c t → r.op = .store ty false v → ty.isPlain = true → va % (tyW ty / 8) = 0 → id < s.fresh →
          s.cchAt k p (lineOf va) = some c₀ → ∃ (u : State) (c₁ : CchLine) (j : Nat) (q : Req), exec (.translationRequest id) s = .next u
          ∧ mfind u.reqs id = none ∧ Told r (.ok 0) s u ∧ MemSame s u ∧ u.cchAt k p (lineOf va) = some c₁ ∧ c₁.inflight = c₀.inflight + 1
          ∧ c₁.bytes (va % 64) (tyW ty / 8) = v.toNat % 2 ^ tyW ty ∧ j ≠ id ∧ mfind u.reqs j = some q ∧ q.op = r.op ∧ q.phase = .write
          ∧ q.dpa = c₀.dpa + va % 64 ∧ s.clk < q.due ∧ q.due ≤ s.clk + 400))
    ∧ (∀ l, s.leafAt die p va = some l → l.absent = false → l.permits r.op.need r.level = false → Answers (.err 0x07 r.addr))
    ∧ (∀ l, s.leafAt die p va = some l → l.absent = true → Answers (.err 0x06 r.addr))
    ∧ (s.leafAt die p va = none →
      (∀ w, s.walks = [w] → w.die = die → w.pasid = p → w.page = pageOf va → ∃ u : State,
        exec (.translationRequest id) s = .next u ∧ mfind u.reqs id = some { r with phase := .miss } ∧ u.walks = [{ w with reqs := w.reqs ++ [id] }])
      ∧ ((∀ w ∈ s.walks, ¬(w.die = die ∧ w.pasid = p ∧ w.page = pageOf va)) → ∃ (u : State) (due : Nat),
        exec (.translationRequest id) s = .next u ∧ mfind u.reqs id = some { r with phase := .miss } ∧ s.clk < due
        ∧ u.walks = s.walks ++ [{ die := die, pasid := p, page := pageOf va, reqs := [id], due := due, ats := false
                                  begun := (mine.filter fun w => w.begun && !w.ats).length < 32 }])))

/-- R235, R239, R240: the end of a walk. Before it is due nothing happens; then its miss register is freed, a leaf is kept and serves the
request, and a fault is its answer; a walk that has not begun does not end; in host mode the host is asked, and its answer does the same, a page not present answering 0x06. -/
def Claims.WalkEnds : Prop :=
  ∀ (s : State) die pasid page w id (r : Req), die < 4 → s.walks = [w] → w.die = die → w.pasid = pasid → w.page = page → page % 4096 = 0 →
  w.reqs = [id] → mfind s.reqs id = some r →
  let Serves (i : Instr) (l : Leaf) : Prop := ∀ ty hi, r.op = .load ty hi → ∃ (u : State) (due : Nat), exec i s = .next u
    ∧ u.leafAt die pasid page = some l ∧ u.walks = [] ∧ MemSame s u
    ∧ (l.permits .rd r.level = true → mfind u.reqs id = some { r with phase := .home, dpa := l.dpa + r.addr.toNat % 4096, due := due })
    ∧ (l.permits .rd r.level = false → Dropped id s u ∧ Told r (.err 0x07 r.addr) s u)
  let Fails (i : Instr) (c : Nat) : Prop := ∃ u : State, exec i s = .next u ∧ u.walks = [] ∧ u.leaves = s.leaves ∧ MemSame s u ∧ Dropped id s u
    ∧ Told r (.err c r.addr) s u
  let ends : WalkRes := (s.walkPage (s.tableAt die pasid page) pasid page).res
  (w.ats = false → s.clk < w.due ∨ w.begun = false → exec (.walkEnd die pasid page) s = .next s)
  ∧ (w.ats = false → w.begun = true → w.due ≤ s.clk →
    (∀ l, ends = .leaf l → Serves (.walkEnd die pasid page) l)
    ∧ (∀ c d, ends = .fault c d → Fails (.walkEnd die pasid page) c)
    ∧ (ends = .host → exec (.walkEnd die pasid page) s =
        .next { s with walks := [{ w with ats := true }], outbox := s.outbox ++ [.ats pasid page] }))
  ∧ (∀ a, w.ats = false → exec (.atsTranslationAnswer pasid page a) s = .next s)
  ∧ (w.ats = true → (∀ a rd wr ex, Serves (.atsTranslationAnswer pasid page (.page a rd wr ex))
        { absent := false, dpa := hostBase + pageOf a, host := true, rd := rd, wr := wr, ex := ex, usr := true })
      ∧ Fails (.atsTranslationAnswer pasid page .notPresent) 0x06)

/-- R240: an invalidation removes the leaves of its range from every station, the table entries that select an address of it, and its lines from every cluster cache; its status reads 0
until every request translated under one of them has been answered, and then 1. -/
def Claims.Invalidation : Prop :=
  ∀ (s : State),
  (∀ pasid base pages, let p := pasid % 2 ^ 20
    ∃ u : State, exec (.translationInvalidate pasid base pages) s = .next u ∧ u.tstatus = 0 ∧ MemSame s u
      ∧ (∀ st va, inRange base pages va = true → mfind u.leaves (st, p, va) = none)
      ∧ (∀ st level sel, entryInRange base pages (st, p, level, sel) = true → mfind u.tables (st, p, level, sel) = none)
      ∧ (∀ st q va, q ≠ p ∨ inRange base pages va = false → mfind u.leaves (st, q, va) = mfind s.leaves (st, q, va))
      ∧ (∀ k, ∀ l ∈ (u.cluster k).cch, ¬(l.pasid = p ∧ inRange base pages l.line = true))
      ∧ ∀ id r, (id, r) ∈ s.reqs → r.pasid = some p → inRange base pages r.addr.toNat = true → r.phase = .home ∨ r.phase = .write ∨ r.phase = .tolerant →
          ∃ ids, u.tinval = some ids ∧ id ∈ ids)
  ∧ (s.tinval = none → exec .invalidationComplete s = .next s)
  ∧ ∀ ids, s.tinval = some ids →
      ((∃ id ∈ ids, ∃ r, (id, r) ∈ s.reqs) → exec .invalidationComplete s = .next s)
      ∧ ((∀ id ∈ ids, ∀ r, (id, r) ∉ s.reqs) → exec .invalidationComplete s = .next { s with tinval := none, tstatus := 1 })

/-- Translation requests, ends of walks and invalidation.
Completes: translationRequest, walkEnd, atsTranslationAnswer, translationInvalidate, invalidationComplete. -/
def Obligations.Translations : Prop := Claims.TranslationRequests ∧ Claims.WalkEnds ∧ Claims.Invalidation

/-- R286, R298: a load at its home. Of a word in no region and registered to nobody, it is answered with what memory holds; the cache of a
cluster takes the whole line with a lease that ends at the answer's pt plus the lease length. A load of a line with an allowance
outstanding waits, and its holder is sent a forced drain; it is answered once every forced drain of the line has been folded. -/
def Claims.GlobalReads : Prop :=
  ∀ (s : State) id (r : Req) ty, mfind s.reqs id = some r → r.op = .load ty false → ty.isPlain = true → r.dpa % (tyW ty / 8) = 0 →
  r.dpa + 64 ≤ Config.hbmEnd → (∀ q ∈ s.reqs, q.2.phase = .write → lineOf q.2.dpa ≠ lineOf r.dpa) →
  let Gives (i : Instr) : Prop :=
    (∀ d, r.who = .re d → ∃ u : State, exec i s = .next u ∧ Dropped id s u ∧ MemSame s u ∧ Told r (.ok (loaded s ty r.dpa)) s u)
    ∧ ∀ k c t p lf c₀, r.who = .lap k c t → r.pasid = some p → s.leafAt (entDie r.who) p r.addr.toNat = some lf →
      s.cchAt k p (lineOf r.addr.toNat) = some c₀ → c₀.dpa = lineOf r.dpa → r.addr.toNat % 64 = r.dpa % 64 →
      ∃ (u : State) (c₁ : CchLine), exec i s = .next u ∧ Dropped id s u ∧ MemSame s u ∧ Told r (.ok (loaded s ty r.dpa)) s u
        ∧ u.cchAt k p (lineOf r.addr.toNat) = some c₁ ∧ c₁.valid = BitVec.allOnes 64 ∧ c₁.expiry = s.pt + s.lease ∧ c₁.osum = []
        ∧ ∀ j, j < 64 → c₁.bytes j 1 = (memGet s.mem (lineOf r.dpa + j)).toNat
  (r.phase = .home → s.clk < r.due → exec (.globalReadAnswer id) s = .next s)
  ∧ (r.phase = .home → r.due ≤ s.clk → PlainHomes s → Gives (.globalReadAnswer id))
  ∧ (∀ g k a, r.phase = .home → r.due ≤ s.clk → s.regionAt r.dpa = some g → s.allowsOn (lineOf r.dpa) = [(k, a)] →
      isFinite (trackVal g.ty a) = true → 0 < ratOf (trackVal g.ty a) → ∃ u : State, exec (.globalReadAnswer id) s = .next u
      ∧ mfind u.reqs id = some { r with phase := .tolerant } ∧ (lineOf r.dpa, k) ∈ (u.die (homeDie (lineOf r.dpa))).forced ∧ MemSame s u)
  ∧ (r.phase = .tolerant → s.forcedOn (lineOf r.dpa) = true ∨ s.drainOn (lineOf r.dpa) = true → exec (.tolerantLoadAnswer id) s = .next s)
  ∧ (r.phase = .tolerant → PlainHomes s → Gives (.tolerantLoadAnswer id))

/-- R249 to R251, R285, R299: a write or an atomic operation arrives at its home and takes its place in memory: a store puts its bytes, an AMO
its result and a CAS its new value where the old one is the one expected, and both answer the old value; an addition adds. No other byte
changes. Before a store to a line with allowances outstanding takes its place, every allowance of the line has come home, in the same step
(log 12), the sums its own cluster withholds behind it apart (log 92). -/
def Claims.WritesAtTheHome : Prop :=
  ∀ (s : State) id (r : Req), MemOk s → mfind s.reqs id = some r → r.phase = .write →
  (∀ q ∈ s.reqs, q.1 ≠ id → q.2.phase = .write → lineOf q.2.dpa ≠ lineOf r.dpa) → r.dpa + 8 ≤ Config.hbmEnd →
  let Puts (n : Nat) (v : W64) (a : Option Ans) : Prop := ∃ u : State, exec (.writeArrivesHome id) s = .next u ∧ Dropped id s u ∧ Stores r.dpa n v s u
    ∧ (match a with | some x => Told r x s u | none => True)
  (s.clk < r.due → exec (.writeArrivesHome id) s = .next s)
  ∧ (r.due ≤ s.clk → PlainHomes s → ∀ ty, ty ≠ .i4 → let n := tyW ty / 8
    let old : BitVec (tyW ty) := BitVec.ofNat _ (memRead s.mem r.dpa n)
    (∀ v, r.op = .store ty false v → ty.isPlain = true → Puts n v (if (entKid r.who).isNone then some (.ok 0) else none))
    ∧ (∀ b, r.op = .store .i4 true b → ty = .n8 → Puts 1 ((b.setWidth 4 ++ old.setWidth 4 : BitVec 8).setWidth 64) none)
    ∧ (ty.isInt = true →
      (∀ op b, r.op = .amo op ty b → Puts n ((amoResult op old (b.setWidth _)).setWidth 64) (some (.ok (extTo ty old))))
      ∧ (∀ e v, r.op = .cas ty e v → if old = e.setWidth _ then Puts n v (some (.ok (extTo ty old)))
          else ∃ u : State, exec (.writeArrivesHome id) s = .next u ∧ Dropped id s u ∧ MemSame s u ∧ Told r (.ok (extTo ty old)) s u)
      ∧ (∀ b, r.op = .addm ty b → Puts n ((old + b.setWidth _).setWidth 64) (if (entKid r.who).isNone then some (.ok 0) else none))))
  ∧ (∀ ty v, r.due ≤ s.clk → r.op = .store ty false v → ty.isPlain = true → s.bad = [] → s.allowsOn (lineOf r.dpa) ≠ [] →
      r.dpa % (tyW ty / 8) = 0 → (∀ l, s.cchByDpa r.kid (lineOf r.dpa) = some l → l.sums = []) →
      ∃ u : State, exec (.writeArrivesHome id) s = .next u ∧ mfind u.reqs id = none
      ∧ u.allowsOn (lineOf r.dpa) = [] ∧ ∀ j, j < tyW ty / 8 → memGet u.mem (r.dpa + j) = v.extractLsb' (8 * j) 8)

/-- Global reads and writes at their home, with their frame.
Completes: globalReadAnswer, tolerantLoadAnswer, writeArrivesHome. -/
def Obligations.HomeAccesses : Prop := Claims.GlobalReads ∧ Claims.WritesAtTheHome

/-- R286, R288, R289, R389, R390: an expired lease leaves what a write still on its way keeps (log 32), nothing where none is on its way, and
an unexpired one stands; a line with no write on its way leaves the cache, and one with a write stays; a host snoop takes a line of host
memory out of the home and out of every cluster's cache, but for additions withheld on it, and the line then holds the host's data (log 95, the
model's choice); the host's answer to a back-invalidation ends it. -/
def Claims.CacheLines : Prop :=
  ∀ (s : State) k p line,
  (s.cchAt k p line = none → exec (.leaseExpiry k p line) s = .next s ∧ exec (.cchEviction k p line) s = .next s)
  ∧ (∀ l, s.cchAt k p line = some l →
    (s.pt < l.expiry → exec (.leaseExpiry k p line) s = .next s)
    ∧ (l.expiry ≤ s.pt → ∃ u : State, exec (.leaseExpiry k p line) s = .next u ∧ u.cchAt k p line = some { l with valid := l.valid &&& s.keptBytes k l }
        ∧ (l.inflight = 0 → s.keptBytes k l = 0) ∧ (∀ q m, q ≠ p ∨ m ≠ line → u.cchAt k q m = s.cchAt k q m) ∧ MemSame s u)
    ∧ (l.inflight ≠ 0 → exec (.cchEviction k p line) s = .next s)
    ∧ (l.inflight = 0 → ∃ u : State, exec (.cchEviction k p line) s = .next u ∧ u.cchAt k p line = none
        ∧ (∀ q m, q ≠ p ∨ m ≠ line → u.cchAt k q m = s.cchAt k q m) ∧ MemSame s u
        ∧ ∀ x ∈ (u.die (homeDie l.dpa)).regs, x.1 = homeSlice l.dpa → x.2.kid = k → ∀ j, j < 64 → x.2.covers (l.dpa + j) = false))
  ∧ (∀ a data, MemOk s → let dl := hostBase + lineOf a
      ∃ u : State, exec (.hostSnoop ⟨a, data⟩) s = .next u
      ∧ (∀ j, j < 64 → memGet u.mem (dl + j) = data.extractLsb' (8 * j) 8) ∧ MemSameBut dl 64 s u ∧ mfind (u.die (homeDie dl)).l2 dl = none
      ∧ ∀ k x, x ∈ (u.cluster k).cch ↔ (x ∈ (s.cluster k).cch ∧ x.dpa ≠ dl)
          ∨ ∃ l ∈ (s.cluster k).cch, l.dpa = dl ∧ l.allow ≠ none ∧ x = { l with valid := 0, dirty := 0, expiry := 0 })
  ∧ ∀ a, exec (.backInvalidationResponse a) s = .next { s with snoops := s.snoops.filter fun x => x.1 ≠ lineOf a }

/-- R296 to R298: a forced drain takes the withheld sums and the allowance from the cluster that holds one and sends the sums to the home;
one that holds none returns its allowance, once no drain is on its way to the line. A drain is folded at the home as an addition to its element, and returns the allowance
where it says so. -/
def Claims.Drains : Prop :=
  ∀ (s : State) k line, let d := homeDie line
  ((line, k) ∉ (s.die d).forced → exec (.forcedDrain k line) s = .next s)
  ∧ ((line, k) ∈ (s.die d).forced →
    (∀ l a, s.cchByDpa k line = some l → l.allow = some a → ∃ (u : State) (id : Nat) (q : Req) (ty : Ty), exec (.forcedDrain k line) s = .next u
      ∧ u.reqs = mput s.reqs id q ∧ q.op = .drain ty l.sums true ∧ q.phase = .write ∧ q.dpa = l.dpa ∧ q.kid = k ∧ q.posters = l.posters ∧ MemSame s u
      ∧ u.cchAt k l.pasid l.line = some { l with allow := none, tracker := 0, sums := [], posters := [] })
    ∧ ((∀ l, s.cchByDpa k line = some l → l.allow = none) → s.drainOn line = true → exec (.forcedDrain k line) s = .next s)
    ∧ ((∀ l, s.cchByDpa k line = some l → l.allow = none) → s.drainOn line = false → ∃ u : State, exec (.forcedDrain k line) s = .next u ∧ MemSame s u
      ∧ mfind (u.die d).allows (line, k) = none ∧ (line, k) ∉ (u.die d).forced))
  ∧ ∀ id (r : Req) ty off v back, MemOk s → mfind s.reqs id = some r → r.op = .drain ty [(off, v)] back → r.phase = .write →
    (s.clk < r.due → exec (.drainFold id) s = .next s)
    ∧ (r.due ≤ s.clk → (∀ q ∈ s.reqs, q.1 ≠ id → q.2.phase ≠ .write) → s.bad = [] → (∀ d, (s.die d).regs = []) →
      lineOf r.dpa + 64 ≤ Config.hbmEnd → off + tyW ty / 8 ≤ 64 → ty.isFloat = true →
      let a := lineOf r.dpa + off
      ∃ u : State, exec (.drainFold id) s = .next u ∧ Dropped id s u
        ∧ Stores a (tyW ty / 8) (BitVec.ofNat 64 (addmVal ty (memRead s.mem a (tyW ty / 8)) v.toNat)) s u
        ∧ mfind (u.die (homeDie (lineOf r.dpa))).allows (lineOf r.dpa, r.kid) =
            if back then none else mfind (s.die (homeDie (lineOf r.dpa))).allows (lineOf r.dpa, r.kid))

/-- Cache lines, forced drains and their folding.
Completes: leaseExpiry, cchEviction, forcedDrain, drainFold, hostSnoop, backInvalidationResponse. -/
def Obligations.CachesAndDrains : Prop := Claims.CacheLines ∧ Claims.Drains

/-- R298, R387 to R389: a host read of bytes of one line of HBM, with nothing withheld on it, is answered with what memory holds, in words of up to 8
bytes, and the host then holds the line (log 69, the model's choice); a host write puts its bytes, up to a line of them, and changes no other; neither does anything outside HBM or across a
line. -/
def Claims.HostAccesses : Prop :=
  ∀ (s : State) a n v, MemOk s → PlainHomes s → s.reqs = [] →
  (1 ≤ n → a / 64 = (a + n - 1) / 64 → a + n ≤ Config.hbmEnd →
    (∃ u : State, exec (.hostRead a n) s = .next u ∧ MemSame s u ∧ lineOf a ∈ u.hostHeld ∧ u.harts = s.harts
      ∧ u.outbox = s.outbox ++ (List.range ((n + 7) / 8)).map fun j =>
          .hostData (a + 8 * j) (BitVec.ofNat 64 (memRead s.mem (a + 8 * j) (min 8 (n - 8 * j)))))
    ∧ ∃ u : State, exec (.hostWrite a n v) s = .next u ∧ (∀ j, j < n → memGet u.mem (a + j) = v.extractLsb' (8 * j) 8) ∧ MemSameBut a n s u
      ∧ u.harts = s.harts ∧ u.outbox = s.outbox)
  ∧ (n = 0 ∨ a / 64 ≠ (a + n - 1) / 64 ∨ Config.hbmEnd < a + n →
      exec (.hostRead a n) s = .next s ∧ exec (.hostWrite a n v) s = .next s)

/-- R387, R397: BAR0 takes aligned accesses of 8 bytes and turns any other away without effect; a read answers the register, and a write of the event
vector writes its 12 bits. The event vector is sent, with the address and data of its table entry, when it is enabled and open, and waits as
pending while it is masked. BAR2 takes aligned accesses of 4 or 8 bytes: a read answers bytes of a table entry, or the pending bits; a write
changes them in the entry, and an unmasked vector that is pending is sent. The layout of an entry is PCI Express's (log 20, presumed). -/
def Claims.BarsAndVectors : Prop :=
  ∀ (s : State) off n v w,
  (n ≠ 8 ∨ off % 8 ≠ 0 ∨ 2 ^ 27 ≤ off → exec (.barAccess w off n v) s = .next { s with outbox := s.outbox ++ [.notice noticeUnsupported off] })
  ∧ exec (.barAccess false 0x10 8 v) s = .next { s with outbox := s.outbox ++ [.barData 0x10 (BitVec.ofNat 64 s.bootStage)] }
  ∧ exec (.barAccess false 0x28 8 v) s = .next { s with outbox := s.outbox ++ [.barData 0x28 s.evvec] }
  ∧ exec (.barAccess true 0x28 8 v) s = .next { s with evvec := v &&& 0xFFF }
  ∧ (let c := v.toNat % 2 ^ 12
     exec (.barAccess true 0x18 8 v) s = .next (if 1000 ≤ c ∧ c ≤ 2400 then { s with powerCap := c } else s))
  ∧ (s.evvec.getLsbD 11 = false → exec .temperature95c s = .next s)
  ∧ (s.evvec.getLsbD 11 = true → let x := s.evvec.toNat % 2 ^ 11
      (x ∈ s.msixOpen → exec .temperature95c s = .next { s with outbox := s.outbox ++ [s.irqOf x] })
      ∧ (x ∉ s.msixOpen → ∃ u : State, exec .temperature95c s = .next u ∧ x ∈ u.msixPend ∧ u.outbox = s.outbox))
  ∧ ((n ≠ 4 ∧ n ≠ 8) ∨ off % n ≠ 0 ∨ 2 ^ 16 ≤ off →
      ∀ o : Option W64, exec (.msixTableAccess ⟨off, n⟩ o) s = .next { s with outbox := s.outbox ++ [.notice noticeUnsupported off] })
  ∧ (n ∈ [4, 8] → off % n = 0 →
    let x := off / 16
    let entry (t : State) (i : Nat) : BitVec 8 := ((if x ∈ t.msixOpen then 0#32 else 1#32) ++ (mget t.msixTab (0, 0) x).2 ++ (mget t.msixTab (0, 0) x).1 :
      BitVec 128).extractLsb' (8 * i) 8
    (off < 0x8000 → (∃ d : W64, exec (.msixTableAccess ⟨off, n⟩ none) s = .next { s with outbox := s.outbox ++ [.bar2Data off d] }
        ∧ ∀ i, i < 8 → d.extractLsb' (8 * i) 8 = if i < n then entry s (off % 16 + i) else 0)
      ∧ ∃ u : State, exec (.msixTableAccess ⟨off, n⟩ (some v)) s = .next u
        ∧ (∀ y, y ≠ x → mget u.msixTab (0, 0) y = mget s.msixTab (0, 0) y ∧ (y ∈ u.msixOpen ↔ y ∈ s.msixOpen) ∧ (y ∈ u.msixPend ↔ y ∈ s.msixPend))
        ∧ (∀ i, i < 12 → entry u i = if off % 16 ≤ i ∧ i < off % 16 + n then v.extractLsb' (8 * (i - off % 16)) 8 else entry s i)
        ∧ (x ∈ u.msixOpen ↔ if off % 16 ≤ 12 ∧ 12 < off % 16 + n then v.getLsbD (8 * (12 - off % 16)) = false else x ∈ s.msixOpen)
        ∧ (x ∈ u.msixPend ↔ x ∈ s.msixPend ∧ x ∉ u.msixOpen)
        ∧ u.outbox = s.outbox ++ (if x ∈ s.msixPend ∧ x ∈ u.msixOpen then [u.irqOf x] else []))
    ∧ (0x8000 ≤ off → off < 2 ^ 16 → exec (.msixTableAccess ⟨off, n⟩ (some v)) s = .next s
      ∧ ∃ d : W64, exec (.msixTableAccess ⟨off, n⟩ none) s = .next { s with outbox := s.outbox ++ [.bar2Data off d] }
        ∧ ∀ i, i < 64 → d.getLsbD i = (decide (off < 0x8100) && decide (i < 8 * n) && decide (8 * (off - 0x8000) + i ∈ s.msixPend))))

/-- Host accesses, BARs and interrupt vectors.
Completes: hostRead, hostWrite, barAccess, temperature95c, msixTableAccess. -/
def Obligations.HostBus : Prop := Claims.HostAccesses ∧ Claims.BarsAndVectors

/-- R393 to R395, R397: a link that has trained is up with its peer. A retried flit is counted, and the eighth in a row is a peer reset, as are a
silence of 10,000 pt and the peer's notice: the link is down and the reset counted, a request that waits on the peer is answered 0x15, what
the peer sent and is not executed is discarded, every die logs cause 0x0B, and the event vector is raised. A failed downstream link is marked
so and is up no more, and the modified lines of its range are dropped from the second-level slices, each with a log entry. -/
def Claims.Links : Prop :=
  ∀ (s : State) n, let p := s.port n
  let Resets (i : Instr) : Prop := ∃ u : State, exec i s = .next u ∧ MemSame s u ∧ (u.port n).up = false ∧ (u.port n).peer = p.peer
    ∧ (u.port n).status.extractLsb' 32 16 = (if p.status.extractLsb' 32 16 = 0xFFFF#16 then 0xFFFF#16 else p.status.extractLsb' 32 16 + 1)
    ∧ (∀ m, m ≠ n → u.port m = s.port m)
    ∧ (∀ q ∈ u.reqs, ∀ m, q.2.who = .far m → s.behindPort n m = false)
    ∧ (∀ id r, s.reqs = [(id, r)] → r.phase = .link → s.behindPort n r.node = true → waited r →
        Dropped id s u ∧ Told r (.err 0x15 r.addr) s u)
    ∧ ((∀ q ∈ s.reqs, q.2.posted = false) → ∀ d, d < 4 → ((s.die d).logTail - (s.die d).logHead).toNat < 256 → (u.die d).logTail = (s.die d).logTail + 1
        ∧ ((mfind (u.die d).log ((s.die d).logTail.toNat % 256)).map fun e => e.w0.extractLsb' 0 16) = some 0x150B#16)
    ∧ (s.evvec.getLsbD 11 = true → s.evvec.toNat % 2 ^ 11 ∈ s.msixOpen → s.irqOf (s.evvec.toNat % 2 ^ 11) ∈ u.outbox)
  (n < 12 → (p.flitAt + 10000 ≤ s.pt → Resets (.linkSilenceTimeout n)) ∧ (s.pt < p.flitAt + 10000 → exec (.linkSilenceTimeout n) s = .next s)
    ∧ Resets (.resetNotice n) ∧ (7 ≤ p.fails → Resets (.flitRetry n))
    ∧ (p.fails < 7 → ∃ u : State, exec (.flitRetry n) s = .next u ∧ MemSame s u ∧ (u.port n).up = p.up ∧ (u.port n).fails = p.fails + 1
        ∧ (u.port n).flitAt = s.pt ∧ u.reqs = s.reqs ∧ u.harts = s.harts
        ∧ (u.port n).status.extractLsb' 16 16 = if p.status.extractLsb' 16 16 = 0xFFFF#16 then 0xFFFF#16 else p.status.extractLsb' 16 16 + 1)
    ∧ ∀ m, m < 256 → ∃ u : State, exec (.linkTraining n m) s = .next u ∧ u.port n = { p with up := true, peer := m, fails := 0, flitAt := s.pt }
        ∧ (∀ j, j ≠ n → u.port j = s.port j))
  ∧ (n < 2 → ∃ u : State, exec (.farLinkFailure n) s = .next u ∧ (mget u.fars 0 n).getLsbD 12 = false ∧ (mget u.fars 0 n).getLsbD 13 = true
      ∧ (∀ b, b ≠ 12 → b ≠ 13 → (mget u.fars 0 n).getLsbD b = (mget s.fars 0 n).getLsbD b) ∧ (∀ m, m ≠ n → mget u.fars 0 m = mget s.fars 0 m)
      ∧ (∀ d, d < 4 → (∀ y ∈ (u.die d).l2, ¬(y.2 = true ∧ s.farPort y.1 = some n))
        ∧ ∀ a, (s.die d).l2 = [(a, true)] → s.farPort a = some n → ((s.die d).logTail - (s.die d).logHead).toNat < 256 →
          (u.die d).logTail = (s.die d).logTail + 1
          ∧ ((mfind (u.die d).log ((s.die d).logTail.toNat % 256)).map fun e => e.w0.extractLsb' 0 16) = some 0x1306#16)
      ∧ (s.evvec.getLsbD 11 = true → s.evvec.toNat % 2 ^ 11 ∈ s.msixOpen → s.irqOf (s.evvec.toNat % 2 ^ 11) ∈ u.outbox))

/-- R228, R229, R241, R246, R320, R321, R394: an inbound write. An address that is no fabric scratchpad address of this node answers the sender with 0x05, one with a bit
that must be zero or bytes past the scratchpad's end with 0x08, a size or alignment that no access has with 0x04, and nothing is written;
any other goes on to the scratchpad it names, a nibble's too. A message for this node goes on to its inbox, and a reply to its caller; a reply whose
caller is of another node is refused with 0x05. The answer to a request of this part reaches
its thread. -/
def Claims.InboundAccesses : Prop :=
  ∀ (s : State) node pasid (a : W64) n v,
  let i := Instr.inboundCreurnAccess (.write node pasid a n v)
  let ours : Prop := a.extractLsb' 60 4 = 0xA#4 ∧ a.toNat / 2 ^ 31 % 2 ^ 8 = s.node
  let off := a.toNat % 2 ^ 22
  let Refused (c : Nat) : Prop := ∃ u : State, exec i s = .next u ∧ MemSame s u ∧ u.reqs = s.reqs ∧ u.harts = s.harts ∧ .linkAnswer node a c ∈ u.outbox
  (¬ours → Refused 0x05)
  ∧ (ours → a.extractLsb' 39 21 ≠ 0#21 ∨ 2 ^ 22 < off + n → Refused 0x08)
  ∧ (ours → a.extractLsb' 39 21 = 0#21 → off + n ≤ 2 ^ 22 → n ∉ [1, 2, 4, 8] ∨ off % n ≠ 0 → Refused 0x04)
  ∧ (ours → a.extractLsb' 39 21 = 0#21 → off + n ≤ 2 ^ 22 → off % n = 0 → ∀ ty, (n, ty) ∈ [(1, Ty.n8), (2, Ty.n16), (4, Ty.n32), (8, Ty.b64)] →
      ∃ (u : State) (id : Nat) (q : Req), exec i s = .next u ∧ MemSame s u ∧ u.reqs = mput s.reqs id q ∧ q.who = .far node ∧ q.pasid = some pasid
        ∧ q.op = .store ty false v ∧ q.addr = a ∧ q.phase = .fabric ∧ q.kid = a.toNat / 2 ^ 22 % 2 ^ 9 ∧ q.posted = false)
  ∧ (∀ hi, ours → a.extractLsb' 39 21 = 0#21 → ∃ (u : State) (id : Nat) (q : Req), exec (.inboundCreurnAccess (.nibble node pasid a hi v)) s = .next u
      ∧ MemSame s u ∧ u.reqs = mput s.reqs id q ∧ q.who = .far node ∧ q.op = .store .i4 hi v ∧ q.addr = a ∧ q.phase = .fabric)
  ∧ (∀ dest tag, let i := Instr.inboundCreurnAccess (.reply node pasid dest tag v)
      (dest.toNat / 2 ^ 19 % 2 ^ 8 ≠ s.node → ∃ u : State, exec i s = .next u ∧ MemSame s u ∧ u.reqs = s.reqs ∧ u.harts = s.harts
        ∧ .linkAnswer node dest 0x05 ∈ u.outbox)
      ∧ (dest.toNat / 2 ^ 19 % 2 ^ 8 = s.node → ∃ (u : State) (id : Nat) (q : Req), exec i s = .next u ∧ u.reqs = mput s.reqs id q
        ∧ q.dest = dest ∧ q.phase = .replying ∧ q.op = .reply tag v ∧ q.kid = dest.toNat / 2 ^ 10 % 2 ^ 9))
  ∧ (∀ dest header pay, dest.toNat / 2 ^ 22 = 0 → dest.toNat / 2 ^ 14 % 2 ^ 8 = s.node →
      ∃ (u : State) (id : Nat) (q : Req), exec (.inboundCreurnAccess (.message pasid dest header pay)) s = .next u ∧ u.reqs = mput s.reqs id q
        ∧ q.dest = dest ∧ q.phase = .message ∧ q.pasid = some pasid ∧ ∃ c, q.op = .msg (header :: pay) c)
  ∧ ∀ id (r : Req) c, mfind s.reqs id = some r →
      (r.phase ≠ .link → exec (.inboundCreurnAccess (.answer id c)) s = .next s)
      ∧ (r.phase = .link → ∃ u : State, exec (.inboundCreurnAccess (.answer id c)) s = .next u ∧ Dropped id s u ∧ MemSame s u
          ∧ Told r (if c = 0 then .ok 0 else .err c r.addr) s u)

/-- Creurn links and inbound accesses.
Completes: linkTraining, linkSilenceTimeout, resetNotice, flitRetry, farLinkFailure, inboundCreurnAccess. -/
def Obligations.CreurnLinks : Prop := Claims.Links ∧ Claims.InboundAccesses

/-- R398, R399: every request of the security engine is answered, and changes nothing else but what it negotiates or stages: SM2 and SM3 alone
are negotiated, and a requester of neither gets ERROR; a session request gets ERROR UnsupportedRequest; only slot 0 holds a chain, and
only the indices 1 to 5 are measured. The codes and words of the answers are the model's (log 11), and so is how algorithms are offered and how slots and indices are numbered (log 70,
presumed). -/
def Claims.SecurityEngine : Prop :=
  ∀ (s : State), let Says (i : Instr) (c : Nat) (ws : List W64) : Prop := exec i s = .next { s with outbox := s.outbox ++ [.spdm c ws] }
  Says .getVersion 0x04 [0x13] ∧ Says .getCapabilities 0x61 [] ∧ Says .spdmSessionRequest spdmError [0x07]
  ∧ (∃ ws, ws.length = 4 ∧ Says .getDigests 0x01 ws)
  ∧ (∀ n, if n = 0 then ∃ ws, Says (.getCertificate n) 0x02 ws else Says (.getCertificate n) spdmError [])
  ∧ (∀ n x, if n = 0 then ∃ ws, exec (.challenge n x) s = .next { s with fresh := s.fresh + 1, outbox := s.outbox ++ [.spdm 0x03 (x :: ws)] }
      else Says (.challenge n x) spdmError [])
  ∧ (∀ n, if n ∈ [1, 2, 3, 4, 5] then ∃ ws, exec (.getMeasurements n) s = .next { s with fresh := s.fresh + 1, outbox := s.outbox ++ [.spdm 0x60 ws] }
      else Says (.getMeasurements n) spdmError [])
  ∧ (∀ a b, if a || b then ∃ ws, exec (.negotiateAlgorithms a b) s =
        .next { s with spdmAlgs := some (a, b), outbox := s.outbox ++ [.spdm 0x63 ws] }
      else Says (.negotiateAlgorithms a b) spdmError [])
  ∧ ∀ n x, exec (.firmwareUpdate n x) s = .next (if n ∈ [1, 2, 3, 4, 5] then { s with fwPending := mput s.fwPending n x } else s)

/-- R381, R397, R399, R401, R403: boot passes stages 0 to 4 to 5, to 7 after a thermal trip, and to recovery when an image fails its check, where it stays. A
package reset, by a trip or not, leaves time, stage, memory (log 1) and every register (log 7) as reset does, and every staged image takes effect; the soft errors
still to come stay to come (log 48). -/
def Claims.BootAndReset : Prop :=
  ∀ (s : State),
  let To (n : Nat) : Prop := ∃ u : State, exec .bootStage s = .next u ∧ u.bootStage = n ∧ MemSame s u ∧ u.harts = s.harts ∧ u.thermal = s.thermal
  (s.bootStage = 0 → To 1) ∧ (s.bootStage = 1 → To (if s.imagesOk then 2 else 6)) ∧ (s.bootStage = 2 → To 3) ∧ (s.bootStage = 3 → To 4)
  ∧ (s.bootStage = 4 → To (if s.thermal then 7 else 5)) ∧ (4 < s.bootStage → exec .bootStage s = .next s)
  ∧ ∀ i trip, (i, trip) ∈ [(Instr.packageReset, false), (Instr.thermalTrip, true)] → ∃ u : State, exec i s = .next u ∧ u.thermal = trip
    ∧ u.clk = 0 ∧ u.pt = 0 ∧ u.bootStage = 0 ∧ u.mem = State.reset.mem ∧ u.full = [] ∧ u.bad = [] ∧ u.launches = [] ∧ u.reqs = []
    ∧ (∀ e, u.hart e = Hart.zero) ∧ (∀ k c x, u.ctx k c x = Ctx.zero) ∧ (∀ k c, u.core k c = LapCore.zero) ∧ (∀ k, u.cluster k = Cluster.zero)
    ∧ (∀ d, u.die d = Die.zero) ∧ (∀ q, u.hq q = HQueue.zero) ∧ u.lease = 1000 ∧ u.powerCap = 2400 ∧ u.mhz = 2000 ∧ u.thr = 0 ∧ u.evvec = 0
    ∧ u.fwPending = [] ∧ u.upsets = s.upsets
    ∧ ((s.fwPending.map (·.1)).Nodup → ∀ m, mget u.fwVersion 0 m = (mfind s.fwPending m).getD (mget s.fwVersion 0 m))

/-- R402: the end of a power window: above the cap, or above 95 degrees, the clock goes one step of 100 MHz down to no lower than 1,000 MHz, and the
step is counted; after a window 5 per cent below the cap and under 90 degrees it goes one step up to no higher than 2,000 MHz; else it stays. -/
def Claims.PowerWindows : Prop :=
  ∀ (s : State) watts temp, RangesOk s → ∃ u : State, exec (.powerWindow watts temp) s = .next u ∧ RangesOk u
  ∧ u.mem = s.mem ∧ u.harts = s.harts ∧ u.clk = s.clk ∧ u.pt = s.pt
  ∧ (s.powerCap < watts ∨ 95 < temp → u.mhz = max 1000 (s.mhz - 100) ∧ u.thr = if 1000 < s.mhz then min 65535 (s.thr + 1) else s.thr)
  ∧ (watts ≤ s.powerCap → temp ≤ 95 → u.thr = s.thr ∧ u.mhz = if 20 * watts ≤ 19 * s.powerCap ∧ temp < 90 then min 2000 (s.mhz + 100) else s.mhz)

/-- Security engine, boot, reset and power.
Completes: getVersion, getCapabilities, negotiateAlgorithms, getDigests, getCertificate, challenge, getMeasurements, spdmSessionRequest, firmwareUpdate, bootStage, packageReset, thermalTrip, powerWindow. -/
def Obligations.PackageServices : Prop := Claims.SecurityEngine ∧ Claims.BootAndReset ∧ Claims.PowerWindows

/-- R126, R133, R211, R244, R315, R344, R368 and the worked encodings of chapter 3: words of the spec's encoding tables are read as the
instructions they stand for. -/
def Claims.LapWordsDecode : Prop :=
  decodeWords [0] = some .nop
  ∧ decodeWords [0x10060003FFFFFFFD] = some (.br (.on 0) (BitVec.ofInt 34 (-3)))
  ∧ decodeWords [0xB4401C1C00100000, 0x3E8] = some (.add { g := .off 2, ty := .i32, d := .s 7, a := .s 7, b := .lit32 1000 })
  ∧ decodeWords [0x0180_0C10_0200_0010] = some (.ld .always .take .b64 false (.s 3) (.s 4) (.imm 16))
  ∧ decodeWords [0x0184_1C0A_0068_0005] = some (.st .always .plain .i4 true (.s 7) (.s 2) (.imm 5))
  ∧ decodeWords [0x0190_0C10_140B_0400] = some (.amo .always (.release .package) .add .i64 (.s 3) (.s 4) (.reg (.s 5)))
  ∧ decodeWords [0x0140_080C_0070_0A80] = some (.cvt .always .narrow .e4m3 .f32 .e4m3 .rne true (.s 2) (.s 3))
  ∧ decodeWords [0x0034_0000_0000_0011] = some (.flgclr .always 0b10001)
  ∧ decodeWords [0x0254_0408_0C00_0033] = some (.callr { g := .always, d := .s 1, a := .s 2, b := .s 3, words := 3, ctr := 6, noCtr := false })
  ∧ decodeWords [0x0284_0800_0C00_0002] = some (.dtrd .always (.s 2) (.reg (.s 3)) .cc1)
  ∧ decodeWords [0x06CC_0810_0000_0001, 0x200] = some (.pegarmAdd { g := .always, d := .s 2, a := .s 4, b := .lit32 0x200 })
  ∧ decodeWords [0x0310_0008_0C00_0403] = some (.cmddone .always (.s 2) (.s 3) (.s 4) true true)

/-- R86 to R89, R187, R328: the worked bundle of chapter 3, and syllables of the spec's tables in the other slots, are read as what they
stand for. -/
def Claims.SyllablesDecode : Prop :=
  (decodeBundle 0x0411_0400_0000_0040 0x0010_1409_0340_0A00 0x0030_1811_0080_0A00 0 0 0 0 0 =
    { s := .op 0 (.bin .add 4 4 (.imm 64)), v0 := .op 0 (.bin .add .f32 .rne 0 (.v 5) (.v 9) (.v 13)),
      v1 := .op 0 (.bin .mul .f32 .rne 0 (.v 6) (.v 17) (.v 2)), m := .nop, ld := .nop, st := .nop, cp := .nop, sy := .nop })
  ∧ (decodeBundle 0x0161_420C_0000_0000 0 0 0x0014_0010_5000_0000 0 0 0x0021_C000_0000_0001 0x0040_0300_0000_0001).s
      = .op 0 (.grpfind 5 2 3)
  ∧ decSlot decMSyl MSyl.wf 0x0014_0010_5000_0000 = .op 0 (.mma 1 4 5)
  ∧ decSlot decCp (fun _ => true) 0x0021_C000_0000_0001 = .op 0 (.cpstat 7 true)
  ∧ decSlot decSy SySyl.wf 0x0040_0300_0000_0001 = .op 0 (.jigld 3 1)
  ∧ decSlot decSy SySyl.wf 0x0091_4400_0000_0000 = .op 0 (.rqseed 5 4)

/-- Words of the spec decode to what they stand for. -/
def Obligations.WordsDecode : Prop := Claims.LapWordsDecode ∧ Claims.SyllablesDecode

/-- R68 to R70, R86: an instruction is read back from its words, every operand at every value. -/
def Obligations.EncodeDecode : Prop := ∀ i : Instr, i.wf = true → decodeWords (encode i) = some i

/-- R68 to R72, R81: words that the decoder reads as an instruction of the lap set are its only words: no bit of them is ignored. -/
def Claims.WordsAreExact : Prop :=
  ∀ ws i, decodeWords ws = some i → (∀ b, i ≠ .bundleIssue b) → i.wf = true ∧ encode i = ws

/-- R71, R72, R81: the words that are no instruction: the guard 0b1000, a length field of 0b11, an opcode of no cell of the map, and opcode 0
in a word that is not all zero. -/
def Claims.WordsRefused : Prop :=
  ∀ f : LapFields, f.g = 8#4 ∨ f.l = 3#2 ∨ (f.op = 0#8 ∧ f.toWord ≠ 0) ∨ 0xC5 ≤ f.op.toNat
    ∨ f.op.toNat / 16 = 7 ∨ (0x36 ≤ f.op.toNat ∧ f.op.toNat < 0x40) ∨ (0x4B ≤ f.op.toNat ∧ f.op.toNat < 0x50)
    ∨ (0x54 ≤ f.op.toNat ∧ f.op.toNat < 0x60) ∨ (0x68 ≤ f.op.toNat ∧ f.op.toNat < 0x70) ∨ (0x85 ≤ f.op.toNat ∧ f.op.toNat < 0x88)
    ∨ (0x8A ≤ f.op.toNat ∧ f.op.toNat < 0x90) ∨ (0x9C ≤ f.op.toNat ∧ f.op.toNat < 0xA0) ∨ (0xAD ≤ f.op.toNat ∧ f.op.toNat < 0xB0)
    ∨ (0xB9 ≤ f.op.toNat ∧ f.op.toNat < 0xC0) → ∃ e, decodeLap f = .error e

/-- No bit of a word is ignored, and the words that are no instruction. -/
def Obligations.OneWordOneMeaning : Prop := Claims.WordsAreExact ∧ Claims.WordsRefused

/-- R36, R70, R72, R86, R234, R237: a step runs the instruction whose words stand at the program counter: of a command stream hart at their
physical address, of a lap thread or a routing engine at the address its leaf gives, where the leaf permits execution. It is exec of
that instruction, at the state with the turn taken and, for a routing engine and a lap thread, the second-level lines the fetch touched,
for a lap thread also its cache lines and issue count. A context runs the bundle at its
pc. A word that is no instruction runs as the illegal one; a turn of an event runs the event. That a fetch takes no time and meets a cold
cache here is log 5, that a command stream hart's code stands at physical addresses log 9, the model's choices. -/
def Claims.TurnsOfHarts : Prop :=
  ∀ (s : State) e rest i, s.turns = .fetch e :: rest →
  let h := s.hart e
  let pc := h.pc.toNat
  let at_ : State := { s with turns := rest, actor := e }
  (h.rot = .ready →
    (∀ d, e = .hart d → pc + 16 ≤ 2 ^ 64 →
      (CodeAt s pc i → step s = exec i at_)
      ∧ (∀ w, w = s.rd64 pc → w.extractLsb' 58 2 = 0#2 → decodeWords [w] = none → step s = exec (.illegalInstruction w) at_))
    ∧ (∀ p l, s.entPasid e = some p → pc < 2 ^ 56 → pc % 8 = 0 → pc % 4096 + 16 ≤ 4096 → s.leafAt (entDie e) p pc = some l →
      l.absent = false → l.permits .ex (s.level e) = true → l.dpa % 4096 = 0 → l.dpa + 4096 ≤ Config.hbmEnd → PlainHomes s → s.reqs = [] →
      s.stationFull (stationOf (entDie e) p pc) = false → CodeAt s (l.dpa + pc % 4096) i →
      (∀ d, e = .re d → (s.engine e).runs = true → ∃ u : State, step s = exec i u ∧ u.actor = e ∧ u.turns = rest
          ∧ u.harts = s.harts ∧ u.cores = s.cores ∧ u.ctxs = s.ctxs ∧ u.ccs = s.ccs ∧ u.clusters = s.clusters ∧ u.tabs = s.tabs ∧ u.mem = s.mem
          ∧ u.full = s.full ∧ u.reqs = s.reqs ∧ u.launches = s.launches ∧ u.clk = s.clk ∧ u.pt = s.pt
          ∧ ∀ j, u.die j = { s.die j with l2 := (u.die j).l2 })
      ∧ (∀ k c t, e = .lap k c t → s.kidStops k = false → (s.cluster k).cch = [] → ∃ u : State, step s = exec i u ∧ u.actor = e ∧ u.turns = rest
          ∧ u.harts = s.harts ∧ u.cores = s.cores ∧ u.ctxs = s.ctxs ∧ u.ccs = s.ccs ∧ u.tabs = s.tabs ∧ u.mem = s.mem ∧ u.full = s.full
          ∧ u.reqs = s.reqs ∧ u.launches = s.launches ∧ u.clk = s.clk ∧ u.pt = s.pt
          ∧ ClusterKeeps (s.cluster k) (u.cluster k) ∧ ∀ j, j ≠ k → u.cluster j = s.cluster j)))
  ∧ (∀ k cc x b, e = .ctx k cc x → s.canIssue e = true → let a := bundleBase k cc + (s.ctx k cc x).pc.toNat
      decodeWords ((List.range 8).map fun j => s.rd64 (a + 8 * j)) = some (.bundleIssue b) → step s = exec (.bundleIssue b) at_)
  ∧ (s.canIssue e = false → step s = .next { s with turns := rest })

/-- R18, R20, R381: a turn of an event runs it; when nothing is left to do in a clk the next begins: clk is one more, and pt goes on by the
1,000 / mhz ns the clk took, the rest of a ns kept (log 16, the model's choice); nothing is taken from memory or from a hart's registers. -/
def Claims.TurnsAndTime : Prop :=
  ∀ (s : State),
  (∀ i rest, s.turns = .ev i :: rest → step s = exec i { s with turns := rest })
  ∧ (s.turns = [] → ∃ t : State, step s = .next t ∧ t.clk = s.clk + 1 ∧ t.mem = s.mem ∧ t.full = s.full ∧ t.reqs = s.reqs
      ∧ (0 < s.mhz → s.phase < s.mhz → t.pt * s.mhz + t.phase = s.pt * s.mhz + s.phase + 1000 ∧ t.phase < s.mhz)
      ∧ ∀ e, (t.hart e).s = (s.hart e).s ∧ (t.hart e).p = (s.hart e).p ∧ (t.hart e).pc = (s.hart e).pc ∧ (t.hart e).rot = (s.hart e).rot)

/-- A step runs the instruction at the program counter; events and time. -/
def Obligations.StepRunsTheWord : Prop := Claims.TurnsOfHarts ∧ Claims.TurnsAndTime

/-- R72, R203, R206, R209: no step of the machine stops: a turn of a hart, of a context or of an event, and the end of a clk, all go on to a state. An
event turn that holds a word of the lap set, a bundle or the illegal word is left out: such a word runs in its issuer's own turn. -/
def Obligations.EveryTurnGoesOn : Prop :=
  ∀ s : State, (∀ i rest, s.turns = .ev i :: rest → encodeLap i = none ∧ (∀ b, i ≠ .bundleIssue b) ∧ ∀ w, i ≠ .illegalInstruction w) → SafeStep s

/-- R35, R100, R137, R198, R314, R381, R382, R401, R402: what reset leaves: time 0, boot stage 0, the lease length 1,000, a cap of 2,400 W, a clock of 2,000 MHz, empty
queues and logs, no launch, no request; every register whose reset value the spec gives or the model names (log 7; memory: log 1) reads 0. -/
def Claims.AfterReset : Prop :=
  let r := State.reset
  r.clk = 0 ∧ r.pt = 0 ∧ r.bootStage = 0 ∧ r.lease = 1000 ∧ r.powerCap = 2400 ∧ r.mhz = 2000 ∧ r.thr = 0 ∧ r.evvec = 0 ∧ r.node = 0
  ∧ r.pasidBase = 0 ∧ r.launches = [] ∧ r.reqs = [] ∧ r.full = [] ∧ r.bad = [] ∧ r.walks = [] ∧ r.leaves = []
  ∧ (∀ a, memGet r.mem a = 0)
  ∧ (∀ e, (r.hart e).s = Vector.replicate 128 0 ∧ (r.hart e).flg = 0 ∧ (r.hart e).pc = 0 ∧ (r.hart e).dq = [] ∧ (r.hart e).aq = [])
  ∧ (∀ q, (r.hq q).state = 0 ∧ (r.hq q).head = 0 ∧ (r.hq q).tail = 0)
  ∧ (∀ d, (r.die d).logHead = 0 ∧ (r.die d).logTail = 0 ∧ (r.die d).dropped = 0)
  ∧ (∀ k c x, (r.ctx k c x).c = Vector.replicate 64 0 ∧ (r.ctx k c x).flg = 0)
  ∧ (∀ k, (r.cluster k).launch = none ∧ (r.cluster k).mumode = 0)

/-- The model's form of memory (log 1), and the ranges of R382, R401 and R402, hold at reset. -/
def Claims.ResetInvariant : Prop := MemOk State.reset ∧ RangesOk State.reset

/-- What reset leaves, and that the invariant holds there. -/
def Obligations.ResetValues : Prop := Claims.AfterReset ∧ Claims.ResetInvariant

/-- R382, R401, R402 and the model's form of memory (log 1): from every state that has both, every step keeps memory in its canonical form, the
lease length in 100 to 2,000, the cap in 1,000 to 2,400 W, the clock in 1,000 to 2,000 MHz, the count of steps down in its 16 bits and the
boot stage in 0 to 7. -/
def Obligations.StepKeepsInvariant : Prop := ∀ s t : State, MemOk s → RangesOk s → step s = .next t → MemOk t ∧ RangesOk t

/-- R198, R199, R212, R213, R133 to R135, R107: the system words and the conversions of a lap thread complete whenever they issue, a conversion
whose operand is no offcut, whose table has a code for it, and while no float trap is enabled: what they write, and that the thread goes on
after them; MODESET of MUMODE leaves the rotation with its write pending. Completes: SRRD, SRWR, FLGRD, FLGCLR, MODESET, CVT, CVTD, CVTE,
FRND. -/
def Claims.SystemWordsComplete : Prop :=
  ∀ (s : State) k c n vals s₁ g d a, let e := Ent.lap k c n
  let next := (s.hart e).pc + 8
  let A := src s e vals a
  let noTraps : Prop := (s.hart e).flg.extractLsb' 5 3 = 0#3
  let Gives (i : Instr) (r : Nat × Flags) (v : W64) : Prop := exec i s = .next (((s₁.raise e r.2).writeSpec e d v).goOn e next)
  (Issues (.flgrd g d) e s vals s₁ → exec (.flgrd g d) s = .next ((s₁.writeSpec e d (s.hart e).flg).goOn e next))
  ∧ (∀ num, Issues (.srrd g d num) e s vals s₁ → ∃ v, exec (.srrd g d num) s = .next ((s₁.writeSpec e d v).goOn e next))
  ∧ (∀ num, Issues (.srwr g a num) e s vals s₁ → ∃ u : State, exec (.srwr g a num) s = .next (u.goOn e next) ∧ (u.hart e).s = (s.hart e).s
      ∧ (num = 0x006 → (u.hart e).tr.scr = A))
  ∧ (∀ m, Issues (.flgclr g m) e s vals s₁ → ∃ u : State, exec (.flgclr g m) s = .next (u.goOn e next)
      ∧ ∀ j, (u.hart e).flg.getLsbD j = ((s.hart e).flg.getLsbD j && !m.getLsbD j))
  ∧ (Issues (.modeset g a 0x203) e s vals s₁ → ∃ t, exec (.modeset g a 0x203) s = .next t ∧ (t.hart e).rot = .out
      ∧ (t.hart e).pend.map (·.act) = some (.mumode (A.toNat % 4) false))
  ∧ (∀ (cc : Fin 2) (x : Fin 4), let num := BitVec.ofNat 12 (0x240 + 4 * cc + x)
      Issues (.modeset g a num) e s vals s₁ → ∃ u : State, exec (.modeset g a num) s = .next (u.goOn e next)
        ∧ (u.ctx k cc x).wchk = A.getLsbD 0)
  ∧ (noTraps →
    (∀ dty dnk sty snk rm ns r, let i := Instr.cvt g dty dnk sty snk rm ns d a
      Issues i e s vals s₁ → isOffcut sty A = false →
      convert dty dnk sty snk (s.tab (ownTab e)) (rmOf (s.hart e).flg rm) ns 0 A.toNat = some r → Gives i r (extendElem dty r.1))
    ∧ ∀ ty rm, let o : FAlu1 := { g := g, ty := ty, d := d, a := a, rm := rm }
      let m := rmOf (s.hart e).flg rm
      (Issues (.cvtd o) e s vals s₁ → ty.isFloat = true →
        let r := rounded ty m ((s.tab (ownTab e)).decode A.toNat, 0)
        Gives (.cvtd o) r (BitVec.ofNat 64 r.1))
      ∧ (∀ ns r, Issues (.cvte o ns) e s vals s₁ → isOffcut ty A = false → convert .dt .e4m3 ty .e4m3 (s.tab (ownTab e)) m ns 0 A.toNat = some r →
        Gives (.cvte o ns) r (BitVec.ofNat 64 r.1))
      ∧ (Issues (.frnd o) e s vals s₁ → isOffcut ty A = false →
        let x := fRoundInt m (fpVal ty A)
        Gives (.frnd o) (0, x.2) (BitVec.ofNat 64 (rounded ty m (x.1, 0)).1)))

/-- R247, R286: a plain or tolerant load of global memory whose line the cluster's cache holds under its PASID, readable at its level, with
every byte valid under a live lease, in no tolerance region, with nothing acquired since and no failed range: it is answered at once, and its value lands 20 clk later. -/
def Claims.CachedLoads : Prop :=
  ∀ (s : State) k c n vals s₁ g ty d a disp pas (l : CchLine), ty ≠ .i4 →
  let e := Ent.lap k c n
  let ea := src s e vals a + dispValue disp
  let w := tyW ty / 8
  let v := extTo ty (BitVec.ofNat _ (l.data.toNat / 256 ^ (ea.toNat % 64) % 256 ^ w))
  ea.toNat < 2 ^ 56 → ea.toNat % w = 0 → s.postedAt e ea = false → s.entPasid e = some pas →
  (s.cluster k).cch.find? (fun x => x.pasid = pas ∧ x.line = ea.toNat / 64 * 64) = some l →
  l.rd = true → (l.usr = true ∨ 0 < s.level e) → (∀ j, j < w → l.valid.getLsbD (ea.toNat % 64 + j) = true) → s.pt < l.expiry →
  s.regionAt l.dpa = none → l.acquired = false → s.farFailed l.dpa = false →
  (Issues (.ld g .plain ty false d a disp) e s vals s₁ →
    Lands (.ld g .plain ty false d a disp) e s (s₁.perf k 0x0A 1) 20 (some d) .plain (.ok v))
  ∧ (∀ eps, Issues (.ldt g ty d a eps disp) e s vals s₁ →
    Lands (.ldt g ty d a eps disp) e s (s₁.perf k 0x0A 1) 20 (some d) .plain (.ok v))

/-- R249 to R253, R107: the atomic words and the range words complete: on integers in local memory an AMO and a CAS write the old value and an
ADDM of the own scratchpad adds; STS of a source in local memory is taken as a whole, in the turn in which the last words of its source are granted, a relaxed one
posted; PREF goes on after it.
Completes: AMO, CAS, ADDM, STS, PREF. -/
def Claims.MemoryWordsComplete : Prop :=
  ∀ (s : State) k c n vals s₁ g cls ty d a, MemOk s → ty ≠ .i4 → let e := Ent.lap k c n
  let w := tyW ty / 8
  (∀ sc, cls = .release sc → (s.hart e).relDone = true ∧ (s.hart e).pwf = none) →
  (∀ p, ty.isInt = true → LocalPlace s k c n (src s e vals a) w p →
    let old : BitVec (tyW ty) := BitVec.ofNat _ (memRead s.mem p w)
    let Old (i : Instr) : Prop := ∃ u : State, exec i s = .next (((u.writeSpec e d (extTo ty old)).acquireOpt e (clsAcq cls)).goOn e (nextPc s e i))
      ∧ (u.hart e).s = (s.hart e).s
    (∀ op b, ¬ (d = .z ∧ cls = .relaxed) → Issues (.amo g cls op ty d a b) e s vals s₁ → Old (.amo g cls op ty d a b))
    ∧ ∀ b, Issues (.cas g cls ty d a b) e s vals s₁ → Old (.cas g cls ty d a b))
  ∧ (∀ disp off, ty.isInt = true → cls = .plain → Issues (.addm g cls ty d a disp) e s vals s₁ →
      ScratchPlace s k c n (src s e vals a + dispValue disp) w off →
      ∃ u : State, exec (.addm g cls ty d a disp) s = .next (u.goOn e (nextPc s e (.addm g cls ty d a disp)))
        ∧ Stores (cspBase k + off) w (BitVec.ofNat 64 (memRead s.mem (cspBase k + off) w) + src s e vals d) s u)
  ∧ (∀ b disp, let ea := src s e vals a
    let stride : W64 := ((src s e vals b).extractLsb' 0 32).signExtend 64
    let cnt := ((src s e vals b).extractLsb' 32 12).toNat + 1
    let from_ := src s e vals d
    let l := (List.range cnt).map fun i => BitVec.ofNat 64 (memRead s.mem (localBase k c + from_.toNat % 2 ^ 15 + i * w) w)
    let ready : Prop := ea.toNat < 2 ^ 56 ∧ ea.toNat % w = 0 ∧ stride ≠ 0 ∧ stride.toInt % w = 0 ∧ from_.toNat / 2 ^ 15 = 2 ^ 48 ∧ from_.toNat % w = 0
      ∧ from_.toNat % 2 ^ 15 + cnt * w ≤ 2 ^ 15 ∧ NoneDue (s.hart e) ∧ s.bad = [] ∧ (∀ q ∈ s.reqs, q.2.who ≠ e)
      -- the words of the source still to be read lie in free banks, each in its own
      ∧ (s.hart e).early = [] ∧ (let still := (stsReads from_ ty cnt).drop (s.hart e).reads
        (∀ x ∈ still, s.bankFree k (localBank c (localBase k c + x.toNat % 2 ^ 15)) = true) ∧ (still.map fun x => x.toNat / 8 % 8).Nodup)
    (Issues (.sts g .relaxed ty d a b) e s vals s₁ → ready → Posts (.sts g .relaxed ty d a b) s e ea (.sts ty stride l) .posted)
    ∧ (∀ pas, Issues (.sts g .plain ty d a b) e s vals s₁ → ready → s.entPasid e = some pas → s.roomFor k cnt = true →
        (∀ i, i < cnt → s.stationFull (stationOf (entDie e) pas (ea + BitVec.ofNat 64 i * stride).toNat) = false ∧ (ea + BitVec.ofNat 64 i * stride).toNat < 2 ^ 56 ∧
          ∃ lf, s.leafAt (entDie e) pas (ea + BitVec.ofNat 64 i * stride).toNat = some lf ∧ lf.absent = false ∧ lf.permits .wr (s.level e) = true) →
        ∃ t p, exec (.sts g .plain ty d a b) s = .next t ∧ (t.hart e).rot = .out ∧ (t.hart e).pend = some p ∧ p.ans = some (.ok 0)
          ∧ p.next = (s.hart e).pc + 8)
    ∧ (Issues (.pref g a disp) e s vals s₁ → ∃ u : State, exec (.pref g a disp) s = .next (u.goOn e (nextPc s e (.pref g a disp)))
        ∧ (u.hart e).s = (s.hart e).s ∧ MemSame s u))

/-- R316, R320, R322, R107: SEND and CALLR to a core of the own node with their payload in local memory and the banks of its words free, and CMDDONE with its record on a page its
hart may write, complete: the message sets out with the payload's words; the record stands in memory. Completes: SEND, CALLR, CMDDONE. -/
def Claims.QueueWordsComplete : Prop :=
  (∀ (s : State) k c n vals s₁ (o : Msg), let e := Ent.lap k c n
    let h := s.hart e
    let dest := src s e vals o.a
    let pay := src s e vals o.b
    let cnt := o.words.toNat + 1
    let ctr := if o.noCtr then none else some o.ctr.toNat
    let ws := (List.range cnt).map fun i => s.rd64 (localBase k c + pay.toNat % 2 ^ 15 + 8 * i)
    let Sets (i : Instr) (call : Option Nat) : Prop := ∃ (t : State) (id : Nat) (r : Req), exec i s = .next t ∧ t.reqs = mput s.reqs id r
      ∧ r.who = e ∧ r.phase = .message ∧ r.dest = dest ∧ r.op = .msg (msgHeader s e cnt call ctr :: ws) ctr
      ∧ (t.hart e).rot = .out ∧ (t.hart e).pend.map (·.next) = some (h.pc + 8)
    h.relDone = true → h.pwf = none → dest.toNat / 2 ^ 14 = s.node → s.node < 256 → pay.toNat / 2 ^ 15 = 2 ^ 48 → pay.toNat % 8 = 0 →
    pay.toNat % 2 ^ 15 + 8 * cnt ≤ 2 ^ 15 → s.bad = [] → (∀ q ∈ s.reqs, q.2.who ≠ e) → h.early = [] → NoneDue h →
    (∀ j, h.reads ≤ j → j < cnt → s.bankFree k (localBank c (localBase k c + pay.toNat % 2 ^ 15 + 8 * j)) = true) →
    (Issues (.send o) e s vals s₁ → Sets (.send o) none)
    ∧ (Issues (.callr o) e s vals s₁ → Sets (.callr o) (some h.callTag.toNat)))
  ∧ ∀ (s : State) dn vals s₁ g a b c sys l, let e := Ent.hart dn
    let i := Instr.cmddone g a b c sys false
    let va := src s e vals a + 56
    let Q := src s e vals c
    let p := l.dpa + va.toNat % 4096
    MemOk s → Issues i e s vals s₁ → (s.hart e).relDone = true → (s.hart e).pwf = none → Q.toNat < 2 ^ 12 → va.toNat < 2 ^ 56 → va.toNat % 8 = 0 →
    s.leafAt dn (s.hq Q.toNat).pasid va.toNat = some l → l.absent = false → l.permits .wr (s.level e) = true → PlainHomes s → s.reqs = [] →
    l.dpa % 4096 = 0 → p + 8 ≤ Config.hbmEnd → s.stationFull (stationOf dn (s.hq Q.toNat).pasid va.toNat) = false →
    ∃ u : State, exec i s = .next (u.goOn e ((s.hart e).pc + 8)) ∧ Stores p 8 (src s e vals b) s u

/-- System, conversion, memory and queue words that complete, and what they write.
Completes: srrd, srwr, flgrd, flgclr, modeset, cvt, cvtd, cvte, frnd, ldt, addm, amo, cas, sts, pref, send, callr, cmddone. -/
def Obligations.Completions : Prop := Claims.SystemWordsComplete ∧ Claims.CachedLoads ∧ Claims.MemoryWordsComplete ∧ Claims.QueueWordsComplete
end

