-- ==== Sys2Proof/Laws/Map.lean ====
section
/-! SUPPORT. Laws of the finite maps and of canonical memories: a read after a write, and that every operation keeps the canonical
form (log 1). -/

namespace Sys2Proof.Machine

/-! ### Finite maps -/

variable {κ α : Type} [DecidableEq κ]

@[simp] theorem mget_nil (d : α) (k : κ) : mget [] d k = d := rfl

/-- A value read back under its key, and every other key as before. -/
theorem mget_mput (m : KMap κ α) (d : α) (k j : κ) (v : α) : mget (mput m k v) d j = if j = k then v else mget m d j := by
  induction m with
  | nil => simp [mput, mget, eq_comm]
  | cons x t ih =>
    obtain ⟨k', v'⟩ := x
    by_cases h : k' = k
    · subst h; simp only [mput, if_true, mget]; by_cases h2 : k' = j <;> simp [h2, eq_comm]
      intro h3; exact absurd h3.symm h2
    · simp only [mput, if_neg h, mget]
      by_cases h2 : k' = j
      · subst h2; simp [h]
      · simp [h2, ih]

@[simp] theorem mget_mput_self (m : KMap κ α) (d : α) (k : κ) (v : α) : mget (mput m k v) d k = v := by simp [mget_mput]

theorem mget_mput_ne (m : KMap κ α) (d : α) {k j : κ} (v : α) (h : j ≠ k) : mget (mput m k v) d j = mget m d j := by
  simp [mget_mput, h]

theorem mfind_mput (m : KMap κ α) (k j : κ) (v : α) : mfind (mput m k v) j = if j = k then some v else mfind m j := by
  induction m with
  | nil => simp [mput, mfind, eq_comm]
  | cons x t ih =>
    obtain ⟨k', v'⟩ := x
    by_cases h : k' = k
    · subst h; simp only [mput, if_true, mfind]; by_cases h2 : k' = j <;> simp [h2, eq_comm]
      intro h3; exact absurd h3.symm h2
    · simp only [mput, if_neg h, mfind]
      by_cases h2 : k' = j
      · subst h2; simp [h]
      · simp [h2, ih]

/-! ### Memories -/

/-- What no listed address reads. -/
theorem memGet_below {m : List (Nat × Byte)} {a : Nat} (h : ∀ x ∈ m, a < x.1) : memGet m a = 0 := by
  cases m with
  | nil => rfl
  | cons x t =>
    obtain ⟨k, v⟩ := x
    have hk : a < k := h (k, v) (by simp)
    simp [memGet, Nat.ne_of_gt hk, hk]

/-- Every address listed after the first is above it. -/
theorem memWf_above {k : Nat} {v : Byte} {t : List (Nat × Byte)} (h : memWf ((k, v) :: t) = true) :
    v ≠ 0 ∧ memWf t = true ∧ ∀ x ∈ t, k < x.1 := by
  induction t generalizing k v with
  | nil => simpa [memWf] using h
  | cons y t ih =>
    obtain ⟨k', v'⟩ := y
    simp only [memWf, Bool.and_eq_true, bne_iff_ne, ne_eq, decide_eq_true_eq] at h
    obtain ⟨⟨hv, hlt⟩, hw⟩ := h
    refine ⟨hv, hw, ?_⟩
    intro x hx
    rcases List.mem_cons.1 hx with rfl | hx
    · exact hlt
    · exact Nat.lt_trans hlt ((ih hw).2.2 x hx)

theorem memWf_cons {k : Nat} {v : Byte} {t : List (Nat × Byte)} (hv : v ≠ 0) (ht : memWf t = true) (ha : ∀ x ∈ t, k < x.1) :
    memWf ((k, v) :: t) = true := by
  cases t with
  | nil => simpa [memWf] using hv
  | cons y t =>
    obtain ⟨k', v'⟩ := y
    have hv' : ¬ v = 0#8 := hv
    simp [memWf, hv', ha (k', v') (by simp), ht]

/-- The addresses a memory lists after a byte is set. -/
theorem mem_memSet {m : List (Nat × Byte)} {a : Nat} {b : Byte} {x : Nat × Byte} (h : x ∈ memSet m a b) : x ∈ m ∨ x.1 = a := by
  induction m with
  | nil => by_cases hb : b = 0 <;> simp_all [memSet]
  | cons y t ih =>
    obtain ⟨k, v⟩ := y
    simp only [memSet] at h
    split at h
    · rcases List.mem_cons.1 h with rfl | h
      · simp
      · rcases ih h with h | h <;> simp [h]
    · split at h
      · split at h
        · simp [h]
        · rcases List.mem_cons.1 h with rfl | h <;> simp_all
      · split at h
        · exact Or.inl h
        · rcases List.mem_cons.1 h with rfl | h <;> simp_all

/-- Setting a byte keeps the canonical form. -/
theorem memWf_memSet {m : List (Nat × Byte)} (a : Nat) (b : Byte) (h : memWf m = true) : memWf (memSet m a b) = true := by
  induction m with
  | nil => by_cases hb : b = 0#8 <;> simp [memSet, memWf, hb]
  | cons y t ih =>
    obtain ⟨k, v⟩ := y
    obtain ⟨hv, hw, ha⟩ := memWf_above h
    simp only [memSet]
    split
    · rename_i hk
      refine memWf_cons hv (ih hw) ?_
      intro x hx
      rcases mem_memSet hx with hx | hx
      · exact ha x hx
      · omega
    · split
      · rename_i hk
        split
        · exact hw
        · rename_i hb; subst hk; exact memWf_cons hb hw ha
      · split
        · exact h
        · rename_i h1 h2 hb
          refine memWf_cons hb h ?_
          intro x hx
          rcases List.mem_cons.1 hx with rfl | hx
          · omega
          · have := ha x hx; omega

/-- A byte reads back as it was set, and every other byte as before. -/
theorem memGet_memSet {m : List (Nat × Byte)} (a c : Nat) (b : Byte) (h : memWf m = true) :
    memGet (memSet m a b) c = if c = a then b else memGet m c := by
  induction m with
  | nil =>
    by_cases hb : b = 0#8
    · simp [memSet, memGet, hb]
    · by_cases hc : c = a
      · simp [memSet, memGet, hb, hc]
      · have hc' : ¬a = c := fun h => hc h.symm
        simp [memSet, memGet, hb, hc, hc']
  | cons y t ih =>
    obtain ⟨k, v⟩ := y
    obtain ⟨hv, hw, ha⟩ := memWf_above h
    simp only [memSet]
    split
    · rename_i hk
      simp only [memGet, ih hw]
      split
      · rename_i hkc; subst hkc; simp [Nat.ne_of_lt hk]
      · split
        · rename_i hck; rw [if_neg (by omega)]
        · rfl
    · split
      · rename_i hka hk
        subst hk
        split
        · rename_i hb
          subst hb
          by_cases hc : c = k
          · subst hc; rw [if_pos rfl]; exact memGet_below ha
          · rw [if_neg hc]; simp only [memGet, if_neg (Ne.symm hc)]
            split
            · exact memGet_below fun x hx => by have := ha x hx; omega
            · rfl
        · simp only [memGet]
          by_cases hc : c = k
          · simp [hc]
          · simp [hc, Ne.symm hc]
      · rename_i h1 h2
        split
        · rename_i hb
          subst hb
          by_cases hc : c = a
          · subst hc; simp [memGet, h2, Nat.lt_of_le_of_ne (Nat.le_of_not_lt h1) (Ne.symm h2)]
          · simp [hc]
        · simp only [memGet]
          by_cases hc : c = a
          · simp [hc]
          · rw [if_neg (Ne.symm hc), if_neg hc]
            split
            · rename_i hca; rw [if_neg (by omega), if_pos (by omega)]
            · rfl

/-- Writing bytes keeps the canonical form. -/
theorem memWf_memWrite {m : List (Nat × Byte)} (a n v : Nat) (h : memWf m = true) : memWf (memWrite m a n v) = true := by
  induction n generalizing m a v with
  | zero => exact h
  | succ n ih => exact ih _ _ (memWf_memSet _ _ h)

/-- A byte after a write of n bytes: a byte of the value where it was written, and as before elsewhere. -/
theorem memGet_memWrite {m : List (Nat × Byte)} (a n v c : Nat) (h : memWf m = true) :
    memGet (memWrite m a n v) c = if a ≤ c ∧ c < a + n then BitVec.ofNat 8 (v / 256 ^ (c - a)) else memGet m c := by
  induction n generalizing m a v with
  | zero => simp only [memWrite]; rw [if_neg (by omega)]
  | succ n ih =>
    simp only [memWrite]
    rw [ih _ _ (memWf_memSet _ _ h), memGet_memSet _ _ _ h]
    by_cases h1 : c = a
    · subst h1; simp
    · by_cases h2 : a + 1 ≤ c ∧ c < a + 1 + n
      · rw [if_pos h2, if_pos (by omega), Nat.div_div_eq_div_mul]
        have : c - a = (c - (a + 1)) + 1 := by omega
        rw [this, Nat.pow_succ, Nat.mul_comm]
      · rw [if_neg h2, if_neg h1, if_neg (by omega)]

theorem memRead_congr {m m' : List (Nat × Byte)} {a n : Nat} (h : ∀ c, a ≤ c → c < a + n → memGet m c = memGet m' c) :
    memRead m a n = memRead m' a n := by
  induction n generalizing a with
  | zero => rfl
  | succ n ih =>
    simp only [memRead]
    rw [h a (by omega) (by omega), ih (fun c h1 h2 => h c (by omega) (by omega))]

/-- The bytes written read back as the value's low bytes. -/
theorem memRead_memWrite_self {m : List (Nat × Byte)} (a n v : Nat) (h : memWf m = true) :
    memRead (memWrite m a n v) a n = v % 256 ^ n := by
  induction n generalizing m a v with
  | zero => simp [memRead, Nat.mod_one]
  | succ n ih =>
    simp only [memRead]
    have h0 : memGet (memWrite m a (n + 1) v) a = BitVec.ofNat 8 v := by
      rw [memGet_memWrite _ _ _ _ h]; simp
    have h1 : memRead (memWrite m a (n + 1) v) (a + 1) n = v / 256 % 256 ^ n := by
      simp only [memWrite]; exact ih _ _ (memWf_memSet _ _ h)
    rw [h0, h1, Nat.pow_succ, Nat.mul_comm (256 ^ n) 256, Nat.mod_mul]
    simp

/-- A read that meets none of the bytes written. -/
theorem memRead_memWrite_ne {m : List (Nat × Byte)} (a n v b k : Nat) (h : memWf m = true) (hd : b + k ≤ a ∨ a + n ≤ b) :
    memRead (memWrite m a n v) b k = memRead m b k :=
  memRead_congr fun c h1 h2 => by rw [memGet_memWrite _ _ _ _ h, if_neg (by omega)]

theorem memWf_filter {m : List (Nat × Byte)} (p : Nat × Byte → Bool) (h : memWf m = true) : memWf (m.filter p) = true := by
  induction m with
  | nil => rfl
  | cons y t ih =>
    obtain ⟨k, v⟩ := y
    obtain ⟨hv, hw, ha⟩ := memWf_above h
    simp only [List.filter_cons]
    split
    · exact memWf_cons hv (ih hw) fun x hx => ha x (List.mem_filter.1 hx).1
    · exact ih hw

/-- Clearing bytes keeps the canonical form. -/
theorem memWf_memClear {m : List (Nat × Byte)} (a n : Nat) (h : memWf m = true) : memWf (memClear m a n) = true :=
  memWf_filter _ h

/-- A byte after n bytes have been cleared: 0 among them, and as before elsewhere. -/
theorem memGet_memClear {m : List (Nat × Byte)} (a n c : Nat) (h : memWf m = true) :
    memGet (memClear m a n) c = if a ≤ c ∧ c < a + n then 0 else memGet m c := by
  induction m with
  | nil => simp [memClear, memGet]
  | cons y t ih =>
    obtain ⟨k, v⟩ := y
    obtain ⟨hv, hw, ha⟩ := memWf_above h
    have ih := ih hw
    simp only [memClear] at ih ⊢
    simp only [List.filter_cons]
    split
    · rename_i hk
      simp only [Bool.or_eq_true, decide_eq_true_eq] at hk
      simp only [memGet, ih]
      by_cases h1 : k = c
      · subst h1; rw [if_pos rfl, if_pos rfl, if_neg (by omega)]
      · rw [if_neg h1, if_neg h1]
        split <;> simp
    · rename_i hk
      simp only [Bool.or_eq_true, decide_eq_true_eq, not_or, Nat.not_lt, Nat.not_le] at hk
      rw [ih]
      simp only [memGet]
      by_cases h1 : a ≤ c ∧ c < a + n
      · rw [if_pos h1, if_pos h1]
      · rw [if_neg h1, if_neg h1]
        by_cases h2 : k = c
        · subst h2; omega
        · rw [if_neg h2]
          split
          · exact memGet_below fun x hx => by have := ha x hx; omega
          · rfl

/-! ### Sets of addresses -/

@[simp] theorem setHas_setAdd (m : List Nat) (a b : Nat) : setHas (setAdd m a) b = (decide (b = a) || setHas m b) := by
  induction m with
  | nil => simp [setAdd, setHas]
  | cons k t ih =>
    simp only [setAdd]
    split
    · simp only [setHas, List.contains_cons] at ih ⊢
      rw [ih]; cases decide (b = a) <;> simp
    · split
      · rename_i h; subst h; simp only [setHas, List.contains_cons]
        by_cases hb : b = k <;> simp [hb]
      · simp only [setHas, List.contains_cons, beq_eq_decide]

@[simp] theorem setHas_setDel (m : List Nat) (a b : Nat) : setHas (setDel m a) b = (decide (b ≠ a) && setHas m b) := by
  simp only [setHas, setDel]
  by_cases h : b = a
  · simp [h]
  · simp [h]

/-! ### Sorting -/

theorem insertBy_perm {β : Type} (le : β → β → Bool) (x : β) (l : List β) : (insertBy le x l).Perm (x :: l) := by
  induction l with
  | nil => exact .refl _
  | cons y t ih =>
    simp only [insertBy]
    split
    · exact .refl _
    · exact (List.Perm.cons y ih).trans (List.Perm.swap x y t)

/-- A sorted list has the elements of the list. -/
theorem sortBy_perm {β : Type} (le : β → β → Bool) (l : List β) : (sortBy le l).Perm l := by
  induction l with
  | nil => exact .refl _
  | cons x t ih => exact (insertBy_perm le x _).trans (.cons x ih)

/-- A sorted list stands in its order, when the order is total and transitive on the list. -/
theorem sortBy_pairwise {β : Type} (le : β → β → Bool) (total : ∀ a b, le a b = false → le b a = true)
    (trans : ∀ a b c, le a b = true → le b c = true → le a c = true) (l : List β) :
    (sortBy le l).Pairwise fun a b => le a b = true := by
  induction l with
  | nil => exact .nil
  | cons x t ih =>
    simp only [sortBy]
    generalize sortBy le t = u at ih
    induction u with
    | nil => simp [insertBy]
    | cons y v ih2 =>
      have hy := List.pairwise_cons.mp ih
      simp only [insertBy]
      split
      · rename_i h
        refine List.pairwise_cons.mpr ⟨fun z hz => ?_, ih⟩
        rcases List.mem_cons.mp hz with rfl | hz
        · exact h
        · exact trans _ _ _ h (hy.1 z hz)
      · rename_i h
        refine List.pairwise_cons.mpr ⟨fun z hz => ?_, ih2 hy.2⟩
        rcases List.mem_cons.mp ((insertBy_perm le x v).mem_iff.mp hz) with rfl | hz
        · exact total _ _ (by simpa using h)
        · exact hy.1 z hz

end Sys2Proof.Machine
end

