-- ==== Sys2Proof/Laws/State.lean ====
section
/-! SUPPORT. What each update of the state leaves: one lemma per field and update, and one per record read back. -/

namespace Sys2Proof.Machine

/-! ### setHart -/

@[simp] theorem State.setHart_actor (s : State) (e : Ent) (h : Hart) : (s.setHart e h).actor = s.actor := rfl
@[simp] theorem State.setHart_turns (s : State) (e : Ent) (h : Hart) : (s.setHart e h).turns = s.turns := rfl
@[simp] theorem State.setHart_inputs (s : State) (e : Ent) (h : Hart) : (s.setHart e h).inputs = s.inputs := rfl
@[simp] theorem State.setHart_upsets (s : State) (e : Ent) (h : Hart) : (s.setHart e h).upsets = s.upsets := rfl
@[simp] theorem State.setHart_fresh (s : State) (e : Ent) (h : Hart) : (s.setHart e h).fresh = s.fresh := rfl
@[simp] theorem State.setHart_outbox (s : State) (e : Ent) (h : Hart) : (s.setHart e h).outbox = s.outbox := rfl
@[simp] theorem State.setHart_clk (s : State) (e : Ent) (h : Hart) : (s.setHart e h).clk = s.clk := rfl
@[simp] theorem State.setHart_pt (s : State) (e : Ent) (h : Hart) : (s.setHart e h).pt = s.pt := rfl
@[simp] theorem State.setHart_phase (s : State) (e : Ent) (h : Hart) : (s.setHart e h).phase = s.phase := rfl
@[simp] theorem State.setHart_mem (s : State) (e : Ent) (h : Hart) : (s.setHart e h).mem = s.mem := rfl
@[simp] theorem State.setHart_full (s : State) (e : Ent) (h : Hart) : (s.setHart e h).full = s.full := rfl
@[simp] theorem State.setHart_bad (s : State) (e : Ent) (h : Hart) : (s.setHart e h).bad = s.bad := rfl
@[simp] theorem State.setHart_cores (s : State) (e : Ent) (h : Hart) : (s.setHart e h).cores = s.cores := rfl
@[simp] theorem State.setHart_ctxs (s : State) (e : Ent) (h : Hart) : (s.setHart e h).ctxs = s.ctxs := rfl
@[simp] theorem State.setHart_ccs (s : State) (e : Ent) (h : Hart) : (s.setHart e h).ccs = s.ccs := rfl
@[simp] theorem State.setHart_clusters (s : State) (e : Ent) (h : Hart) : (s.setHart e h).clusters = s.clusters := rfl
@[simp] theorem State.setHart_dies (s : State) (e : Ent) (h : Hart) : (s.setHart e h).dies = s.dies := rfl
@[simp] theorem State.setHart_tabs (s : State) (e : Ent) (h : Hart) : (s.setHart e h).tabs = s.tabs := rfl
@[simp] theorem State.setHart_queues (s : State) (e : Ent) (h : Hart) : (s.setHart e h).queues = s.queues := rfl
@[simp] theorem State.setHart_launches (s : State) (e : Ent) (h : Hart) : (s.setHart e h).launches = s.launches := rfl
@[simp] theorem State.setHart_owed (s : State) (e : Ent) (h : Hart) : (s.setHart e h).owed = s.owed := rfl
@[simp] theorem State.setHart_reqs (s : State) (e : Ent) (h : Hart) : (s.setHart e h).reqs = s.reqs := rfl
@[simp] theorem State.setHart_leaves (s : State) (e : Ent) (h : Hart) : (s.setHart e h).leaves = s.leaves := rfl
@[simp] theorem State.setHart_tables (s : State) (e : Ent) (h : Hart) : (s.setHart e h).tables = s.tables := rfl
@[simp] theorem State.setHart_walks (s : State) (e : Ent) (h : Hart) : (s.setHart e h).walks = s.walks := rfl
@[simp] theorem State.setHart_node (s : State) (e : Ent) (h : Hart) : (s.setHart e h).node = s.node := rfl
@[simp] theorem State.setHart_lease (s : State) (e : Ent) (h : Hart) : (s.setHart e h).lease = s.lease := rfl
@[simp] theorem State.setHart_leases (s : State) (e : Ent) (h : Hart) : (s.setHart e h).leases = s.leases := rfl
@[simp] theorem State.setHart_bootStage (s : State) (e : Ent) (h : Hart) : (s.setHart e h).bootStage = s.bootStage := rfl
@[simp] theorem State.setHart_thermal (s : State) (e : Ent) (h : Hart) : (s.setHart e h).thermal = s.thermal := rfl
@[simp] theorem State.setHart_powerCap (s : State) (e : Ent) (h : Hart) : (s.setHart e h).powerCap = s.powerCap := rfl
@[simp] theorem State.setHart_mhz (s : State) (e : Ent) (h : Hart) : (s.setHart e h).mhz = s.mhz := rfl
@[simp] theorem State.setHart_thr (s : State) (e : Ent) (h : Hart) : (s.setHart e h).thr = s.thr := rfl
@[simp] theorem State.setHart_pasidBase (s : State) (e : Ent) (h : Hart) : (s.setHart e h).pasidBase = s.pasidBase := rfl
@[simp] theorem State.setHart_evvec (s : State) (e : Ent) (h : Hart) : (s.setHart e h).evvec = s.evvec := rfl
@[simp] theorem State.setHart_tcmd (s : State) (e : Ent) (h : Hart) : (s.setHart e h).tcmd = s.tcmd := rfl
@[simp] theorem State.setHart_tbase (s : State) (e : Ent) (h : Hart) : (s.setHart e h).tbase = s.tbase := rfl
@[simp] theorem State.setHart_tpages (s : State) (e : Ent) (h : Hart) : (s.setHart e h).tpages = s.tpages := rfl
@[simp] theorem State.setHart_tstatus (s : State) (e : Ent) (h : Hart) : (s.setHart e h).tstatus = s.tstatus := rfl
@[simp] theorem State.setHart_tinval (s : State) (e : Ent) (h : Hart) : (s.setHart e h).tinval = s.tinval := rfl
@[simp] theorem State.setHart_ports (s : State) (e : Ent) (h : Hart) : (s.setHart e h).ports = s.ports := rfl
@[simp] theorem State.setHart_routes (s : State) (e : Ent) (h : Hart) : (s.setHart e h).routes = s.routes := rfl
@[simp] theorem State.setHart_fars (s : State) (e : Ent) (h : Hart) : (s.setHart e h).fars = s.fars := rfl
@[simp] theorem State.setHart_msixOpen (s : State) (e : Ent) (h : Hart) : (s.setHart e h).msixOpen = s.msixOpen := rfl
@[simp] theorem State.setHart_msixTab (s : State) (e : Ent) (h : Hart) : (s.setHart e h).msixTab = s.msixTab := rfl
@[simp] theorem State.setHart_msixPend (s : State) (e : Ent) (h : Hart) : (s.setHart e h).msixPend = s.msixPend := rfl
@[simp] theorem State.setHart_hostHeld (s : State) (e : Ent) (h : Hart) : (s.setHart e h).hostHeld = s.hostHeld := rfl
@[simp] theorem State.setHart_snoops (s : State) (e : Ent) (h : Hart) : (s.setHart e h).snoops = s.snoops := rfl
@[simp] theorem State.setHart_spdmAlgs (s : State) (e : Ent) (h : Hart) : (s.setHart e h).spdmAlgs = s.spdmAlgs := rfl
@[simp] theorem State.setHart_fwPending (s : State) (e : Ent) (h : Hart) : (s.setHart e h).fwPending = s.fwPending := rfl
@[simp] theorem State.setHart_fwVersion (s : State) (e : Ent) (h : Hart) : (s.setHart e h).fwVersion = s.fwVersion := rfl
@[simp] theorem State.setHart_haltOnBreak (s : State) (e : Ent) (h : Hart) : (s.setHart e h).haltOnBreak = s.haltOnBreak := rfl
@[simp] theorem State.setHart_escalated (s : State) (e : Ent) (h : Hart) : (s.setHart e h).escalated = s.escalated := rfl

/-! ### setCore -/

@[simp] theorem State.setCore_actor (s : State) (k c : Nat) (x : LapCore) : (s.setCore k c x).actor = s.actor := rfl
@[simp] theorem State.setCore_turns (s : State) (k c : Nat) (x : LapCore) : (s.setCore k c x).turns = s.turns := rfl
@[simp] theorem State.setCore_inputs (s : State) (k c : Nat) (x : LapCore) : (s.setCore k c x).inputs = s.inputs := rfl
@[simp] theorem State.setCore_upsets (s : State) (k c : Nat) (x : LapCore) : (s.setCore k c x).upsets = s.upsets := rfl
@[simp] theorem State.setCore_fresh (s : State) (k c : Nat) (x : LapCore) : (s.setCore k c x).fresh = s.fresh := rfl
@[simp] theorem State.setCore_outbox (s : State) (k c : Nat) (x : LapCore) : (s.setCore k c x).outbox = s.outbox := rfl
@[simp] theorem State.setCore_clk (s : State) (k c : Nat) (x : LapCore) : (s.setCore k c x).clk = s.clk := rfl
@[simp] theorem State.setCore_pt (s : State) (k c : Nat) (x : LapCore) : (s.setCore k c x).pt = s.pt := rfl
@[simp] theorem State.setCore_phase (s : State) (k c : Nat) (x : LapCore) : (s.setCore k c x).phase = s.phase := rfl
@[simp] theorem State.setCore_mem (s : State) (k c : Nat) (x : LapCore) : (s.setCore k c x).mem = s.mem := rfl
@[simp] theorem State.setCore_full (s : State) (k c : Nat) (x : LapCore) : (s.setCore k c x).full = s.full := rfl
@[simp] theorem State.setCore_bad (s : State) (k c : Nat) (x : LapCore) : (s.setCore k c x).bad = s.bad := rfl
@[simp] theorem State.setCore_harts (s : State) (k c : Nat) (x : LapCore) : (s.setCore k c x).harts = s.harts := rfl
@[simp] theorem State.setCore_ctxs (s : State) (k c : Nat) (x : LapCore) : (s.setCore k c x).ctxs = s.ctxs := rfl
@[simp] theorem State.setCore_ccs (s : State) (k c : Nat) (x : LapCore) : (s.setCore k c x).ccs = s.ccs := rfl
@[simp] theorem State.setCore_clusters (s : State) (k c : Nat) (x : LapCore) : (s.setCore k c x).clusters = s.clusters := rfl
@[simp] theorem State.setCore_dies (s : State) (k c : Nat) (x : LapCore) : (s.setCore k c x).dies = s.dies := rfl
@[simp] theorem State.setCore_tabs (s : State) (k c : Nat) (x : LapCore) : (s.setCore k c x).tabs = s.tabs := rfl
@[simp] theorem State.setCore_queues (s : State) (k c : Nat) (x : LapCore) : (s.setCore k c x).queues = s.queues := rfl
@[simp] theorem State.setCore_launches (s : State) (k c : Nat) (x : LapCore) : (s.setCore k c x).launches = s.launches := rfl
@[simp] theorem State.setCore_owed (s : State) (k c : Nat) (x : LapCore) : (s.setCore k c x).owed = s.owed := rfl
@[simp] theorem State.setCore_reqs (s : State) (k c : Nat) (x : LapCore) : (s.setCore k c x).reqs = s.reqs := rfl
@[simp] theorem State.setCore_leaves (s : State) (k c : Nat) (x : LapCore) : (s.setCore k c x).leaves = s.leaves := rfl
@[simp] theorem State.setCore_tables (s : State) (k c : Nat) (x : LapCore) : (s.setCore k c x).tables = s.tables := rfl
@[simp] theorem State.setCore_walks (s : State) (k c : Nat) (x : LapCore) : (s.setCore k c x).walks = s.walks := rfl
@[simp] theorem State.setCore_node (s : State) (k c : Nat) (x : LapCore) : (s.setCore k c x).node = s.node := rfl
@[simp] theorem State.setCore_lease (s : State) (k c : Nat) (x : LapCore) : (s.setCore k c x).lease = s.lease := rfl
@[simp] theorem State.setCore_leases (s : State) (k c : Nat) (x : LapCore) : (s.setCore k c x).leases = s.leases := rfl
@[simp] theorem State.setCore_bootStage (s : State) (k c : Nat) (x : LapCore) : (s.setCore k c x).bootStage = s.bootStage := rfl
@[simp] theorem State.setCore_thermal (s : State) (k c : Nat) (x : LapCore) : (s.setCore k c x).thermal = s.thermal := rfl
@[simp] theorem State.setCore_powerCap (s : State) (k c : Nat) (x : LapCore) : (s.setCore k c x).powerCap = s.powerCap := rfl
@[simp] theorem State.setCore_mhz (s : State) (k c : Nat) (x : LapCore) : (s.setCore k c x).mhz = s.mhz := rfl
@[simp] theorem State.setCore_thr (s : State) (k c : Nat) (x : LapCore) : (s.setCore k c x).thr = s.thr := rfl
@[simp] theorem State.setCore_pasidBase (s : State) (k c : Nat) (x : LapCore) : (s.setCore k c x).pasidBase = s.pasidBase := rfl
@[simp] theorem State.setCore_evvec (s : State) (k c : Nat) (x : LapCore) : (s.setCore k c x).evvec = s.evvec := rfl
@[simp] theorem State.setCore_tcmd (s : State) (k c : Nat) (x : LapCore) : (s.setCore k c x).tcmd = s.tcmd := rfl
@[simp] theorem State.setCore_tbase (s : State) (k c : Nat) (x : LapCore) : (s.setCore k c x).tbase = s.tbase := rfl
@[simp] theorem State.setCore_tpages (s : State) (k c : Nat) (x : LapCore) : (s.setCore k c x).tpages = s.tpages := rfl
@[simp] theorem State.setCore_tstatus (s : State) (k c : Nat) (x : LapCore) : (s.setCore k c x).tstatus = s.tstatus := rfl
@[simp] theorem State.setCore_tinval (s : State) (k c : Nat) (x : LapCore) : (s.setCore k c x).tinval = s.tinval := rfl
@[simp] theorem State.setCore_ports (s : State) (k c : Nat) (x : LapCore) : (s.setCore k c x).ports = s.ports := rfl
@[simp] theorem State.setCore_routes (s : State) (k c : Nat) (x : LapCore) : (s.setCore k c x).routes = s.routes := rfl
@[simp] theorem State.setCore_fars (s : State) (k c : Nat) (x : LapCore) : (s.setCore k c x).fars = s.fars := rfl
@[simp] theorem State.setCore_msixOpen (s : State) (k c : Nat) (x : LapCore) : (s.setCore k c x).msixOpen = s.msixOpen := rfl
@[simp] theorem State.setCore_msixTab (s : State) (k c : Nat) (x : LapCore) : (s.setCore k c x).msixTab = s.msixTab := rfl
@[simp] theorem State.setCore_msixPend (s : State) (k c : Nat) (x : LapCore) : (s.setCore k c x).msixPend = s.msixPend := rfl
@[simp] theorem State.setCore_hostHeld (s : State) (k c : Nat) (x : LapCore) : (s.setCore k c x).hostHeld = s.hostHeld := rfl
@[simp] theorem State.setCore_snoops (s : State) (k c : Nat) (x : LapCore) : (s.setCore k c x).snoops = s.snoops := rfl
@[simp] theorem State.setCore_spdmAlgs (s : State) (k c : Nat) (x : LapCore) : (s.setCore k c x).spdmAlgs = s.spdmAlgs := rfl
@[simp] theorem State.setCore_fwPending (s : State) (k c : Nat) (x : LapCore) : (s.setCore k c x).fwPending = s.fwPending := rfl
@[simp] theorem State.setCore_fwVersion (s : State) (k c : Nat) (x : LapCore) : (s.setCore k c x).fwVersion = s.fwVersion := rfl
@[simp] theorem State.setCore_haltOnBreak (s : State) (k c : Nat) (x : LapCore) : (s.setCore k c x).haltOnBreak = s.haltOnBreak := rfl
@[simp] theorem State.setCore_escalated (s : State) (k c : Nat) (x : LapCore) : (s.setCore k c x).escalated = s.escalated := rfl

/-! ### setCtx -/

@[simp] theorem State.setCtx_actor (s : State) (k c x : Nat) (v : Ctx) : (s.setCtx k c x v).actor = s.actor := rfl
@[simp] theorem State.setCtx_turns (s : State) (k c x : Nat) (v : Ctx) : (s.setCtx k c x v).turns = s.turns := rfl
@[simp] theorem State.setCtx_inputs (s : State) (k c x : Nat) (v : Ctx) : (s.setCtx k c x v).inputs = s.inputs := rfl
@[simp] theorem State.setCtx_upsets (s : State) (k c x : Nat) (v : Ctx) : (s.setCtx k c x v).upsets = s.upsets := rfl
@[simp] theorem State.setCtx_fresh (s : State) (k c x : Nat) (v : Ctx) : (s.setCtx k c x v).fresh = s.fresh := rfl
@[simp] theorem State.setCtx_outbox (s : State) (k c x : Nat) (v : Ctx) : (s.setCtx k c x v).outbox = s.outbox := rfl
@[simp] theorem State.setCtx_clk (s : State) (k c x : Nat) (v : Ctx) : (s.setCtx k c x v).clk = s.clk := rfl
@[simp] theorem State.setCtx_pt (s : State) (k c x : Nat) (v : Ctx) : (s.setCtx k c x v).pt = s.pt := rfl
@[simp] theorem State.setCtx_phase (s : State) (k c x : Nat) (v : Ctx) : (s.setCtx k c x v).phase = s.phase := rfl
@[simp] theorem State.setCtx_mem (s : State) (k c x : Nat) (v : Ctx) : (s.setCtx k c x v).mem = s.mem := rfl
@[simp] theorem State.setCtx_full (s : State) (k c x : Nat) (v : Ctx) : (s.setCtx k c x v).full = s.full := rfl
@[simp] theorem State.setCtx_bad (s : State) (k c x : Nat) (v : Ctx) : (s.setCtx k c x v).bad = s.bad := rfl
@[simp] theorem State.setCtx_harts (s : State) (k c x : Nat) (v : Ctx) : (s.setCtx k c x v).harts = s.harts := rfl
@[simp] theorem State.setCtx_cores (s : State) (k c x : Nat) (v : Ctx) : (s.setCtx k c x v).cores = s.cores := rfl
@[simp] theorem State.setCtx_ccs (s : State) (k c x : Nat) (v : Ctx) : (s.setCtx k c x v).ccs = s.ccs := rfl
@[simp] theorem State.setCtx_clusters (s : State) (k c x : Nat) (v : Ctx) : (s.setCtx k c x v).clusters = s.clusters := rfl
@[simp] theorem State.setCtx_dies (s : State) (k c x : Nat) (v : Ctx) : (s.setCtx k c x v).dies = s.dies := rfl
@[simp] theorem State.setCtx_tabs (s : State) (k c x : Nat) (v : Ctx) : (s.setCtx k c x v).tabs = s.tabs := rfl
@[simp] theorem State.setCtx_queues (s : State) (k c x : Nat) (v : Ctx) : (s.setCtx k c x v).queues = s.queues := rfl
@[simp] theorem State.setCtx_launches (s : State) (k c x : Nat) (v : Ctx) : (s.setCtx k c x v).launches = s.launches := rfl
@[simp] theorem State.setCtx_owed (s : State) (k c x : Nat) (v : Ctx) : (s.setCtx k c x v).owed = s.owed := rfl
@[simp] theorem State.setCtx_reqs (s : State) (k c x : Nat) (v : Ctx) : (s.setCtx k c x v).reqs = s.reqs := rfl
@[simp] theorem State.setCtx_leaves (s : State) (k c x : Nat) (v : Ctx) : (s.setCtx k c x v).leaves = s.leaves := rfl
@[simp] theorem State.setCtx_tables (s : State) (k c x : Nat) (v : Ctx) : (s.setCtx k c x v).tables = s.tables := rfl
@[simp] theorem State.setCtx_walks (s : State) (k c x : Nat) (v : Ctx) : (s.setCtx k c x v).walks = s.walks := rfl
@[simp] theorem State.setCtx_node (s : State) (k c x : Nat) (v : Ctx) : (s.setCtx k c x v).node = s.node := rfl
@[simp] theorem State.setCtx_lease (s : State) (k c x : Nat) (v : Ctx) : (s.setCtx k c x v).lease = s.lease := rfl
@[simp] theorem State.setCtx_leases (s : State) (k c x : Nat) (v : Ctx) : (s.setCtx k c x v).leases = s.leases := rfl
@[simp] theorem State.setCtx_bootStage (s : State) (k c x : Nat) (v : Ctx) : (s.setCtx k c x v).bootStage = s.bootStage := rfl
@[simp] theorem State.setCtx_thermal (s : State) (k c x : Nat) (v : Ctx) : (s.setCtx k c x v).thermal = s.thermal := rfl
@[simp] theorem State.setCtx_powerCap (s : State) (k c x : Nat) (v : Ctx) : (s.setCtx k c x v).powerCap = s.powerCap := rfl
@[simp] theorem State.setCtx_mhz (s : State) (k c x : Nat) (v : Ctx) : (s.setCtx k c x v).mhz = s.mhz := rfl
@[simp] theorem State.setCtx_thr (s : State) (k c x : Nat) (v : Ctx) : (s.setCtx k c x v).thr = s.thr := rfl
@[simp] theorem State.setCtx_pasidBase (s : State) (k c x : Nat) (v : Ctx) : (s.setCtx k c x v).pasidBase = s.pasidBase := rfl
@[simp] theorem State.setCtx_evvec (s : State) (k c x : Nat) (v : Ctx) : (s.setCtx k c x v).evvec = s.evvec := rfl
@[simp] theorem State.setCtx_tcmd (s : State) (k c x : Nat) (v : Ctx) : (s.setCtx k c x v).tcmd = s.tcmd := rfl
@[simp] theorem State.setCtx_tbase (s : State) (k c x : Nat) (v : Ctx) : (s.setCtx k c x v).tbase = s.tbase := rfl
@[simp] theorem State.setCtx_tpages (s : State) (k c x : Nat) (v : Ctx) : (s.setCtx k c x v).tpages = s.tpages := rfl
@[simp] theorem State.setCtx_tstatus (s : State) (k c x : Nat) (v : Ctx) : (s.setCtx k c x v).tstatus = s.tstatus := rfl
@[simp] theorem State.setCtx_tinval (s : State) (k c x : Nat) (v : Ctx) : (s.setCtx k c x v).tinval = s.tinval := rfl
@[simp] theorem State.setCtx_ports (s : State) (k c x : Nat) (v : Ctx) : (s.setCtx k c x v).ports = s.ports := rfl
@[simp] theorem State.setCtx_routes (s : State) (k c x : Nat) (v : Ctx) : (s.setCtx k c x v).routes = s.routes := rfl
@[simp] theorem State.setCtx_fars (s : State) (k c x : Nat) (v : Ctx) : (s.setCtx k c x v).fars = s.fars := rfl
@[simp] theorem State.setCtx_msixOpen (s : State) (k c x : Nat) (v : Ctx) : (s.setCtx k c x v).msixOpen = s.msixOpen := rfl
@[simp] theorem State.setCtx_msixTab (s : State) (k c x : Nat) (v : Ctx) : (s.setCtx k c x v).msixTab = s.msixTab := rfl
@[simp] theorem State.setCtx_msixPend (s : State) (k c x : Nat) (v : Ctx) : (s.setCtx k c x v).msixPend = s.msixPend := rfl
@[simp] theorem State.setCtx_hostHeld (s : State) (k c x : Nat) (v : Ctx) : (s.setCtx k c x v).hostHeld = s.hostHeld := rfl
@[simp] theorem State.setCtx_snoops (s : State) (k c x : Nat) (v : Ctx) : (s.setCtx k c x v).snoops = s.snoops := rfl
@[simp] theorem State.setCtx_spdmAlgs (s : State) (k c x : Nat) (v : Ctx) : (s.setCtx k c x v).spdmAlgs = s.spdmAlgs := rfl
@[simp] theorem State.setCtx_fwPending (s : State) (k c x : Nat) (v : Ctx) : (s.setCtx k c x v).fwPending = s.fwPending := rfl
@[simp] theorem State.setCtx_fwVersion (s : State) (k c x : Nat) (v : Ctx) : (s.setCtx k c x v).fwVersion = s.fwVersion := rfl
@[simp] theorem State.setCtx_haltOnBreak (s : State) (k c x : Nat) (v : Ctx) : (s.setCtx k c x v).haltOnBreak = s.haltOnBreak := rfl
@[simp] theorem State.setCtx_escalated (s : State) (k c x : Nat) (v : Ctx) : (s.setCtx k c x v).escalated = s.escalated := rfl

/-! ### setCc -/

@[simp] theorem State.setCc_actor (s : State) (k c : Nat) (v : CcState) : (s.setCc k c v).actor = s.actor := rfl
@[simp] theorem State.setCc_turns (s : State) (k c : Nat) (v : CcState) : (s.setCc k c v).turns = s.turns := rfl
@[simp] theorem State.setCc_inputs (s : State) (k c : Nat) (v : CcState) : (s.setCc k c v).inputs = s.inputs := rfl
@[simp] theorem State.setCc_upsets (s : State) (k c : Nat) (v : CcState) : (s.setCc k c v).upsets = s.upsets := rfl
@[simp] theorem State.setCc_fresh (s : State) (k c : Nat) (v : CcState) : (s.setCc k c v).fresh = s.fresh := rfl
@[simp] theorem State.setCc_outbox (s : State) (k c : Nat) (v : CcState) : (s.setCc k c v).outbox = s.outbox := rfl
@[simp] theorem State.setCc_clk (s : State) (k c : Nat) (v : CcState) : (s.setCc k c v).clk = s.clk := rfl
@[simp] theorem State.setCc_pt (s : State) (k c : Nat) (v : CcState) : (s.setCc k c v).pt = s.pt := rfl
@[simp] theorem State.setCc_phase (s : State) (k c : Nat) (v : CcState) : (s.setCc k c v).phase = s.phase := rfl
@[simp] theorem State.setCc_mem (s : State) (k c : Nat) (v : CcState) : (s.setCc k c v).mem = s.mem := rfl
@[simp] theorem State.setCc_full (s : State) (k c : Nat) (v : CcState) : (s.setCc k c v).full = s.full := rfl
@[simp] theorem State.setCc_bad (s : State) (k c : Nat) (v : CcState) : (s.setCc k c v).bad = s.bad := rfl
@[simp] theorem State.setCc_harts (s : State) (k c : Nat) (v : CcState) : (s.setCc k c v).harts = s.harts := rfl
@[simp] theorem State.setCc_cores (s : State) (k c : Nat) (v : CcState) : (s.setCc k c v).cores = s.cores := rfl
@[simp] theorem State.setCc_ctxs (s : State) (k c : Nat) (v : CcState) : (s.setCc k c v).ctxs = s.ctxs := rfl
@[simp] theorem State.setCc_clusters (s : State) (k c : Nat) (v : CcState) : (s.setCc k c v).clusters = s.clusters := rfl
@[simp] theorem State.setCc_dies (s : State) (k c : Nat) (v : CcState) : (s.setCc k c v).dies = s.dies := rfl
@[simp] theorem State.setCc_tabs (s : State) (k c : Nat) (v : CcState) : (s.setCc k c v).tabs = s.tabs := rfl
@[simp] theorem State.setCc_queues (s : State) (k c : Nat) (v : CcState) : (s.setCc k c v).queues = s.queues := rfl
@[simp] theorem State.setCc_launches (s : State) (k c : Nat) (v : CcState) : (s.setCc k c v).launches = s.launches := rfl
@[simp] theorem State.setCc_owed (s : State) (k c : Nat) (v : CcState) : (s.setCc k c v).owed = s.owed := rfl
@[simp] theorem State.setCc_reqs (s : State) (k c : Nat) (v : CcState) : (s.setCc k c v).reqs = s.reqs := rfl
@[simp] theorem State.setCc_leaves (s : State) (k c : Nat) (v : CcState) : (s.setCc k c v).leaves = s.leaves := rfl
@[simp] theorem State.setCc_tables (s : State) (k c : Nat) (v : CcState) : (s.setCc k c v).tables = s.tables := rfl
@[simp] theorem State.setCc_walks (s : State) (k c : Nat) (v : CcState) : (s.setCc k c v).walks = s.walks := rfl
@[simp] theorem State.setCc_node (s : State) (k c : Nat) (v : CcState) : (s.setCc k c v).node = s.node := rfl
@[simp] theorem State.setCc_lease (s : State) (k c : Nat) (v : CcState) : (s.setCc k c v).lease = s.lease := rfl
@[simp] theorem State.setCc_leases (s : State) (k c : Nat) (v : CcState) : (s.setCc k c v).leases = s.leases := rfl
@[simp] theorem State.setCc_bootStage (s : State) (k c : Nat) (v : CcState) : (s.setCc k c v).bootStage = s.bootStage := rfl
@[simp] theorem State.setCc_thermal (s : State) (k c : Nat) (v : CcState) : (s.setCc k c v).thermal = s.thermal := rfl
@[simp] theorem State.setCc_powerCap (s : State) (k c : Nat) (v : CcState) : (s.setCc k c v).powerCap = s.powerCap := rfl
@[simp] theorem State.setCc_mhz (s : State) (k c : Nat) (v : CcState) : (s.setCc k c v).mhz = s.mhz := rfl
@[simp] theorem State.setCc_thr (s : State) (k c : Nat) (v : CcState) : (s.setCc k c v).thr = s.thr := rfl
@[simp] theorem State.setCc_pasidBase (s : State) (k c : Nat) (v : CcState) : (s.setCc k c v).pasidBase = s.pasidBase := rfl
@[simp] theorem State.setCc_evvec (s : State) (k c : Nat) (v : CcState) : (s.setCc k c v).evvec = s.evvec := rfl
@[simp] theorem State.setCc_tcmd (s : State) (k c : Nat) (v : CcState) : (s.setCc k c v).tcmd = s.tcmd := rfl
@[simp] theorem State.setCc_tbase (s : State) (k c : Nat) (v : CcState) : (s.setCc k c v).tbase = s.tbase := rfl
@[simp] theorem State.setCc_tpages (s : State) (k c : Nat) (v : CcState) : (s.setCc k c v).tpages = s.tpages := rfl
@[simp] theorem State.setCc_tstatus (s : State) (k c : Nat) (v : CcState) : (s.setCc k c v).tstatus = s.tstatus := rfl
@[simp] theorem State.setCc_tinval (s : State) (k c : Nat) (v : CcState) : (s.setCc k c v).tinval = s.tinval := rfl
@[simp] theorem State.setCc_ports (s : State) (k c : Nat) (v : CcState) : (s.setCc k c v).ports = s.ports := rfl
@[simp] theorem State.setCc_routes (s : State) (k c : Nat) (v : CcState) : (s.setCc k c v).routes = s.routes := rfl
@[simp] theorem State.setCc_fars (s : State) (k c : Nat) (v : CcState) : (s.setCc k c v).fars = s.fars := rfl
@[simp] theorem State.setCc_msixOpen (s : State) (k c : Nat) (v : CcState) : (s.setCc k c v).msixOpen = s.msixOpen := rfl
@[simp] theorem State.setCc_msixTab (s : State) (k c : Nat) (v : CcState) : (s.setCc k c v).msixTab = s.msixTab := rfl
@[simp] theorem State.setCc_msixPend (s : State) (k c : Nat) (v : CcState) : (s.setCc k c v).msixPend = s.msixPend := rfl
@[simp] theorem State.setCc_hostHeld (s : State) (k c : Nat) (v : CcState) : (s.setCc k c v).hostHeld = s.hostHeld := rfl
@[simp] theorem State.setCc_snoops (s : State) (k c : Nat) (v : CcState) : (s.setCc k c v).snoops = s.snoops := rfl
@[simp] theorem State.setCc_spdmAlgs (s : State) (k c : Nat) (v : CcState) : (s.setCc k c v).spdmAlgs = s.spdmAlgs := rfl
@[simp] theorem State.setCc_fwPending (s : State) (k c : Nat) (v : CcState) : (s.setCc k c v).fwPending = s.fwPending := rfl
@[simp] theorem State.setCc_fwVersion (s : State) (k c : Nat) (v : CcState) : (s.setCc k c v).fwVersion = s.fwVersion := rfl
@[simp] theorem State.setCc_haltOnBreak (s : State) (k c : Nat) (v : CcState) : (s.setCc k c v).haltOnBreak = s.haltOnBreak := rfl
@[simp] theorem State.setCc_escalated (s : State) (k c : Nat) (v : CcState) : (s.setCc k c v).escalated = s.escalated := rfl

/-! ### setCluster -/

@[simp] theorem State.setCluster_actor (s : State) (k : Nat) (v : Cluster) : (s.setCluster k v).actor = s.actor := rfl
@[simp] theorem State.setCluster_turns (s : State) (k : Nat) (v : Cluster) : (s.setCluster k v).turns = s.turns := rfl
@[simp] theorem State.setCluster_inputs (s : State) (k : Nat) (v : Cluster) : (s.setCluster k v).inputs = s.inputs := rfl
@[simp] theorem State.setCluster_upsets (s : State) (k : Nat) (v : Cluster) : (s.setCluster k v).upsets = s.upsets := rfl
@[simp] theorem State.setCluster_fresh (s : State) (k : Nat) (v : Cluster) : (s.setCluster k v).fresh = s.fresh := rfl
@[simp] theorem State.setCluster_outbox (s : State) (k : Nat) (v : Cluster) : (s.setCluster k v).outbox = s.outbox := rfl
@[simp] theorem State.setCluster_clk (s : State) (k : Nat) (v : Cluster) : (s.setCluster k v).clk = s.clk := rfl
@[simp] theorem State.setCluster_pt (s : State) (k : Nat) (v : Cluster) : (s.setCluster k v).pt = s.pt := rfl
@[simp] theorem State.setCluster_phase (s : State) (k : Nat) (v : Cluster) : (s.setCluster k v).phase = s.phase := rfl
@[simp] theorem State.setCluster_mem (s : State) (k : Nat) (v : Cluster) : (s.setCluster k v).mem = s.mem := rfl
@[simp] theorem State.setCluster_full (s : State) (k : Nat) (v : Cluster) : (s.setCluster k v).full = s.full := rfl
@[simp] theorem State.setCluster_bad (s : State) (k : Nat) (v : Cluster) : (s.setCluster k v).bad = s.bad := rfl
@[simp] theorem State.setCluster_harts (s : State) (k : Nat) (v : Cluster) : (s.setCluster k v).harts = s.harts := rfl
@[simp] theorem State.setCluster_cores (s : State) (k : Nat) (v : Cluster) : (s.setCluster k v).cores = s.cores := rfl
@[simp] theorem State.setCluster_ctxs (s : State) (k : Nat) (v : Cluster) : (s.setCluster k v).ctxs = s.ctxs := rfl
@[simp] theorem State.setCluster_ccs (s : State) (k : Nat) (v : Cluster) : (s.setCluster k v).ccs = s.ccs := rfl
@[simp] theorem State.setCluster_dies (s : State) (k : Nat) (v : Cluster) : (s.setCluster k v).dies = s.dies := rfl
@[simp] theorem State.setCluster_tabs (s : State) (k : Nat) (v : Cluster) : (s.setCluster k v).tabs = s.tabs := rfl
@[simp] theorem State.setCluster_queues (s : State) (k : Nat) (v : Cluster) : (s.setCluster k v).queues = s.queues := rfl
@[simp] theorem State.setCluster_launches (s : State) (k : Nat) (v : Cluster) : (s.setCluster k v).launches = s.launches := rfl
@[simp] theorem State.setCluster_owed (s : State) (k : Nat) (v : Cluster) : (s.setCluster k v).owed = s.owed := rfl
@[simp] theorem State.setCluster_reqs (s : State) (k : Nat) (v : Cluster) : (s.setCluster k v).reqs = s.reqs := rfl
@[simp] theorem State.setCluster_leaves (s : State) (k : Nat) (v : Cluster) : (s.setCluster k v).leaves = s.leaves := rfl
@[simp] theorem State.setCluster_tables (s : State) (k : Nat) (v : Cluster) : (s.setCluster k v).tables = s.tables := rfl
@[simp] theorem State.setCluster_walks (s : State) (k : Nat) (v : Cluster) : (s.setCluster k v).walks = s.walks := rfl
@[simp] theorem State.setCluster_node (s : State) (k : Nat) (v : Cluster) : (s.setCluster k v).node = s.node := rfl
@[simp] theorem State.setCluster_lease (s : State) (k : Nat) (v : Cluster) : (s.setCluster k v).lease = s.lease := rfl
@[simp] theorem State.setCluster_leases (s : State) (k : Nat) (v : Cluster) : (s.setCluster k v).leases = s.leases := rfl
@[simp] theorem State.setCluster_bootStage (s : State) (k : Nat) (v : Cluster) : (s.setCluster k v).bootStage = s.bootStage := rfl
@[simp] theorem State.setCluster_thermal (s : State) (k : Nat) (v : Cluster) : (s.setCluster k v).thermal = s.thermal := rfl
@[simp] theorem State.setCluster_powerCap (s : State) (k : Nat) (v : Cluster) : (s.setCluster k v).powerCap = s.powerCap := rfl
@[simp] theorem State.setCluster_mhz (s : State) (k : Nat) (v : Cluster) : (s.setCluster k v).mhz = s.mhz := rfl
@[simp] theorem State.setCluster_thr (s : State) (k : Nat) (v : Cluster) : (s.setCluster k v).thr = s.thr := rfl
@[simp] theorem State.setCluster_pasidBase (s : State) (k : Nat) (v : Cluster) : (s.setCluster k v).pasidBase = s.pasidBase := rfl
@[simp] theorem State.setCluster_evvec (s : State) (k : Nat) (v : Cluster) : (s.setCluster k v).evvec = s.evvec := rfl
@[simp] theorem State.setCluster_tcmd (s : State) (k : Nat) (v : Cluster) : (s.setCluster k v).tcmd = s.tcmd := rfl
@[simp] theorem State.setCluster_tbase (s : State) (k : Nat) (v : Cluster) : (s.setCluster k v).tbase = s.tbase := rfl
@[simp] theorem State.setCluster_tpages (s : State) (k : Nat) (v : Cluster) : (s.setCluster k v).tpages = s.tpages := rfl
@[simp] theorem State.setCluster_tstatus (s : State) (k : Nat) (v : Cluster) : (s.setCluster k v).tstatus = s.tstatus := rfl
@[simp] theorem State.setCluster_tinval (s : State) (k : Nat) (v : Cluster) : (s.setCluster k v).tinval = s.tinval := rfl
@[simp] theorem State.setCluster_ports (s : State) (k : Nat) (v : Cluster) : (s.setCluster k v).ports = s.ports := rfl
@[simp] theorem State.setCluster_routes (s : State) (k : Nat) (v : Cluster) : (s.setCluster k v).routes = s.routes := rfl
@[simp] theorem State.setCluster_fars (s : State) (k : Nat) (v : Cluster) : (s.setCluster k v).fars = s.fars := rfl
@[simp] theorem State.setCluster_msixOpen (s : State) (k : Nat) (v : Cluster) : (s.setCluster k v).msixOpen = s.msixOpen := rfl
@[simp] theorem State.setCluster_msixTab (s : State) (k : Nat) (v : Cluster) : (s.setCluster k v).msixTab = s.msixTab := rfl
@[simp] theorem State.setCluster_msixPend (s : State) (k : Nat) (v : Cluster) : (s.setCluster k v).msixPend = s.msixPend := rfl
@[simp] theorem State.setCluster_hostHeld (s : State) (k : Nat) (v : Cluster) : (s.setCluster k v).hostHeld = s.hostHeld := rfl
@[simp] theorem State.setCluster_snoops (s : State) (k : Nat) (v : Cluster) : (s.setCluster k v).snoops = s.snoops := rfl
@[simp] theorem State.setCluster_spdmAlgs (s : State) (k : Nat) (v : Cluster) : (s.setCluster k v).spdmAlgs = s.spdmAlgs := rfl
@[simp] theorem State.setCluster_fwPending (s : State) (k : Nat) (v : Cluster) : (s.setCluster k v).fwPending = s.fwPending := rfl
@[simp] theorem State.setCluster_fwVersion (s : State) (k : Nat) (v : Cluster) : (s.setCluster k v).fwVersion = s.fwVersion := rfl
@[simp] theorem State.setCluster_haltOnBreak (s : State) (k : Nat) (v : Cluster) : (s.setCluster k v).haltOnBreak = s.haltOnBreak := rfl
@[simp] theorem State.setCluster_escalated (s : State) (k : Nat) (v : Cluster) : (s.setCluster k v).escalated = s.escalated := rfl

/-! ### setDie -/

@[simp] theorem State.setDie_actor (s : State) (d : Nat) (v : Die) : (s.setDie d v).actor = s.actor := rfl
@[simp] theorem State.setDie_turns (s : State) (d : Nat) (v : Die) : (s.setDie d v).turns = s.turns := rfl
@[simp] theorem State.setDie_inputs (s : State) (d : Nat) (v : Die) : (s.setDie d v).inputs = s.inputs := rfl
@[simp] theorem State.setDie_upsets (s : State) (d : Nat) (v : Die) : (s.setDie d v).upsets = s.upsets := rfl
@[simp] theorem State.setDie_fresh (s : State) (d : Nat) (v : Die) : (s.setDie d v).fresh = s.fresh := rfl
@[simp] theorem State.setDie_outbox (s : State) (d : Nat) (v : Die) : (s.setDie d v).outbox = s.outbox := rfl
@[simp] theorem State.setDie_clk (s : State) (d : Nat) (v : Die) : (s.setDie d v).clk = s.clk := rfl
@[simp] theorem State.setDie_pt (s : State) (d : Nat) (v : Die) : (s.setDie d v).pt = s.pt := rfl
@[simp] theorem State.setDie_phase (s : State) (d : Nat) (v : Die) : (s.setDie d v).phase = s.phase := rfl
@[simp] theorem State.setDie_mem (s : State) (d : Nat) (v : Die) : (s.setDie d v).mem = s.mem := rfl
@[simp] theorem State.setDie_full (s : State) (d : Nat) (v : Die) : (s.setDie d v).full = s.full := rfl
@[simp] theorem State.setDie_bad (s : State) (d : Nat) (v : Die) : (s.setDie d v).bad = s.bad := rfl
@[simp] theorem State.setDie_harts (s : State) (d : Nat) (v : Die) : (s.setDie d v).harts = s.harts := rfl
@[simp] theorem State.setDie_cores (s : State) (d : Nat) (v : Die) : (s.setDie d v).cores = s.cores := rfl
@[simp] theorem State.setDie_ctxs (s : State) (d : Nat) (v : Die) : (s.setDie d v).ctxs = s.ctxs := rfl
@[simp] theorem State.setDie_ccs (s : State) (d : Nat) (v : Die) : (s.setDie d v).ccs = s.ccs := rfl
@[simp] theorem State.setDie_clusters (s : State) (d : Nat) (v : Die) : (s.setDie d v).clusters = s.clusters := rfl
@[simp] theorem State.setDie_tabs (s : State) (d : Nat) (v : Die) : (s.setDie d v).tabs = s.tabs := rfl
@[simp] theorem State.setDie_queues (s : State) (d : Nat) (v : Die) : (s.setDie d v).queues = s.queues := rfl
@[simp] theorem State.setDie_launches (s : State) (d : Nat) (v : Die) : (s.setDie d v).launches = s.launches := rfl
@[simp] theorem State.setDie_owed (s : State) (d : Nat) (v : Die) : (s.setDie d v).owed = s.owed := rfl
@[simp] theorem State.setDie_reqs (s : State) (d : Nat) (v : Die) : (s.setDie d v).reqs = s.reqs := rfl
@[simp] theorem State.setDie_leaves (s : State) (d : Nat) (v : Die) : (s.setDie d v).leaves = s.leaves := rfl
@[simp] theorem State.setDie_tables (s : State) (d : Nat) (v : Die) : (s.setDie d v).tables = s.tables := rfl
@[simp] theorem State.setDie_walks (s : State) (d : Nat) (v : Die) : (s.setDie d v).walks = s.walks := rfl
@[simp] theorem State.setDie_node (s : State) (d : Nat) (v : Die) : (s.setDie d v).node = s.node := rfl
@[simp] theorem State.setDie_lease (s : State) (d : Nat) (v : Die) : (s.setDie d v).lease = s.lease := rfl
@[simp] theorem State.setDie_leases (s : State) (d : Nat) (v : Die) : (s.setDie d v).leases = s.leases := rfl
@[simp] theorem State.setDie_bootStage (s : State) (d : Nat) (v : Die) : (s.setDie d v).bootStage = s.bootStage := rfl
@[simp] theorem State.setDie_thermal (s : State) (d : Nat) (v : Die) : (s.setDie d v).thermal = s.thermal := rfl
@[simp] theorem State.setDie_powerCap (s : State) (d : Nat) (v : Die) : (s.setDie d v).powerCap = s.powerCap := rfl
@[simp] theorem State.setDie_mhz (s : State) (d : Nat) (v : Die) : (s.setDie d v).mhz = s.mhz := rfl
@[simp] theorem State.setDie_thr (s : State) (d : Nat) (v : Die) : (s.setDie d v).thr = s.thr := rfl
@[simp] theorem State.setDie_pasidBase (s : State) (d : Nat) (v : Die) : (s.setDie d v).pasidBase = s.pasidBase := rfl
@[simp] theorem State.setDie_evvec (s : State) (d : Nat) (v : Die) : (s.setDie d v).evvec = s.evvec := rfl
@[simp] theorem State.setDie_tcmd (s : State) (d : Nat) (v : Die) : (s.setDie d v).tcmd = s.tcmd := rfl
@[simp] theorem State.setDie_tbase (s : State) (d : Nat) (v : Die) : (s.setDie d v).tbase = s.tbase := rfl
@[simp] theorem State.setDie_tpages (s : State) (d : Nat) (v : Die) : (s.setDie d v).tpages = s.tpages := rfl
@[simp] theorem State.setDie_tstatus (s : State) (d : Nat) (v : Die) : (s.setDie d v).tstatus = s.tstatus := rfl
@[simp] theorem State.setDie_tinval (s : State) (d : Nat) (v : Die) : (s.setDie d v).tinval = s.tinval := rfl
@[simp] theorem State.setDie_ports (s : State) (d : Nat) (v : Die) : (s.setDie d v).ports = s.ports := rfl
@[simp] theorem State.setDie_routes (s : State) (d : Nat) (v : Die) : (s.setDie d v).routes = s.routes := rfl
@[simp] theorem State.setDie_fars (s : State) (d : Nat) (v : Die) : (s.setDie d v).fars = s.fars := rfl
@[simp] theorem State.setDie_msixOpen (s : State) (d : Nat) (v : Die) : (s.setDie d v).msixOpen = s.msixOpen := rfl
@[simp] theorem State.setDie_msixTab (s : State) (d : Nat) (v : Die) : (s.setDie d v).msixTab = s.msixTab := rfl
@[simp] theorem State.setDie_msixPend (s : State) (d : Nat) (v : Die) : (s.setDie d v).msixPend = s.msixPend := rfl
@[simp] theorem State.setDie_hostHeld (s : State) (d : Nat) (v : Die) : (s.setDie d v).hostHeld = s.hostHeld := rfl
@[simp] theorem State.setDie_snoops (s : State) (d : Nat) (v : Die) : (s.setDie d v).snoops = s.snoops := rfl
@[simp] theorem State.setDie_spdmAlgs (s : State) (d : Nat) (v : Die) : (s.setDie d v).spdmAlgs = s.spdmAlgs := rfl
@[simp] theorem State.setDie_fwPending (s : State) (d : Nat) (v : Die) : (s.setDie d v).fwPending = s.fwPending := rfl
@[simp] theorem State.setDie_fwVersion (s : State) (d : Nat) (v : Die) : (s.setDie d v).fwVersion = s.fwVersion := rfl
@[simp] theorem State.setDie_haltOnBreak (s : State) (d : Nat) (v : Die) : (s.setDie d v).haltOnBreak = s.haltOnBreak := rfl
@[simp] theorem State.setDie_escalated (s : State) (d : Nat) (v : Die) : (s.setDie d v).escalated = s.escalated := rfl

/-! ### setTab -/

@[simp] theorem State.setTab_actor (s : State) (t : TabId) (v : DTab) : (s.setTab t v).actor = s.actor := rfl
@[simp] theorem State.setTab_turns (s : State) (t : TabId) (v : DTab) : (s.setTab t v).turns = s.turns := rfl
@[simp] theorem State.setTab_inputs (s : State) (t : TabId) (v : DTab) : (s.setTab t v).inputs = s.inputs := rfl
@[simp] theorem State.setTab_upsets (s : State) (t : TabId) (v : DTab) : (s.setTab t v).upsets = s.upsets := rfl
@[simp] theorem State.setTab_fresh (s : State) (t : TabId) (v : DTab) : (s.setTab t v).fresh = s.fresh := rfl
@[simp] theorem State.setTab_outbox (s : State) (t : TabId) (v : DTab) : (s.setTab t v).outbox = s.outbox := rfl
@[simp] theorem State.setTab_clk (s : State) (t : TabId) (v : DTab) : (s.setTab t v).clk = s.clk := rfl
@[simp] theorem State.setTab_pt (s : State) (t : TabId) (v : DTab) : (s.setTab t v).pt = s.pt := rfl
@[simp] theorem State.setTab_phase (s : State) (t : TabId) (v : DTab) : (s.setTab t v).phase = s.phase := rfl
@[simp] theorem State.setTab_mem (s : State) (t : TabId) (v : DTab) : (s.setTab t v).mem = s.mem := rfl
@[simp] theorem State.setTab_full (s : State) (t : TabId) (v : DTab) : (s.setTab t v).full = s.full := rfl
@[simp] theorem State.setTab_bad (s : State) (t : TabId) (v : DTab) : (s.setTab t v).bad = s.bad := rfl
@[simp] theorem State.setTab_harts (s : State) (t : TabId) (v : DTab) : (s.setTab t v).harts = s.harts := rfl
@[simp] theorem State.setTab_cores (s : State) (t : TabId) (v : DTab) : (s.setTab t v).cores = s.cores := rfl
@[simp] theorem State.setTab_ctxs (s : State) (t : TabId) (v : DTab) : (s.setTab t v).ctxs = s.ctxs := rfl
@[simp] theorem State.setTab_ccs (s : State) (t : TabId) (v : DTab) : (s.setTab t v).ccs = s.ccs := rfl
@[simp] theorem State.setTab_clusters (s : State) (t : TabId) (v : DTab) : (s.setTab t v).clusters = s.clusters := rfl
@[simp] theorem State.setTab_dies (s : State) (t : TabId) (v : DTab) : (s.setTab t v).dies = s.dies := rfl
@[simp] theorem State.setTab_queues (s : State) (t : TabId) (v : DTab) : (s.setTab t v).queues = s.queues := rfl
@[simp] theorem State.setTab_launches (s : State) (t : TabId) (v : DTab) : (s.setTab t v).launches = s.launches := rfl
@[simp] theorem State.setTab_owed (s : State) (t : TabId) (v : DTab) : (s.setTab t v).owed = s.owed := rfl
@[simp] theorem State.setTab_reqs (s : State) (t : TabId) (v : DTab) : (s.setTab t v).reqs = s.reqs := rfl
@[simp] theorem State.setTab_leaves (s : State) (t : TabId) (v : DTab) : (s.setTab t v).leaves = s.leaves := rfl
@[simp] theorem State.setTab_tables (s : State) (t : TabId) (v : DTab) : (s.setTab t v).tables = s.tables := rfl
@[simp] theorem State.setTab_walks (s : State) (t : TabId) (v : DTab) : (s.setTab t v).walks = s.walks := rfl
@[simp] theorem State.setTab_node (s : State) (t : TabId) (v : DTab) : (s.setTab t v).node = s.node := rfl
@[simp] theorem State.setTab_lease (s : State) (t : TabId) (v : DTab) : (s.setTab t v).lease = s.lease := rfl
@[simp] theorem State.setTab_leases (s : State) (t : TabId) (v : DTab) : (s.setTab t v).leases = s.leases := rfl
@[simp] theorem State.setTab_bootStage (s : State) (t : TabId) (v : DTab) : (s.setTab t v).bootStage = s.bootStage := rfl
@[simp] theorem State.setTab_thermal (s : State) (t : TabId) (v : DTab) : (s.setTab t v).thermal = s.thermal := rfl
@[simp] theorem State.setTab_powerCap (s : State) (t : TabId) (v : DTab) : (s.setTab t v).powerCap = s.powerCap := rfl
@[simp] theorem State.setTab_mhz (s : State) (t : TabId) (v : DTab) : (s.setTab t v).mhz = s.mhz := rfl
@[simp] theorem State.setTab_thr (s : State) (t : TabId) (v : DTab) : (s.setTab t v).thr = s.thr := rfl
@[simp] theorem State.setTab_pasidBase (s : State) (t : TabId) (v : DTab) : (s.setTab t v).pasidBase = s.pasidBase := rfl
@[simp] theorem State.setTab_evvec (s : State) (t : TabId) (v : DTab) : (s.setTab t v).evvec = s.evvec := rfl
@[simp] theorem State.setTab_tcmd (s : State) (t : TabId) (v : DTab) : (s.setTab t v).tcmd = s.tcmd := rfl
@[simp] theorem State.setTab_tbase (s : State) (t : TabId) (v : DTab) : (s.setTab t v).tbase = s.tbase := rfl
@[simp] theorem State.setTab_tpages (s : State) (t : TabId) (v : DTab) : (s.setTab t v).tpages = s.tpages := rfl
@[simp] theorem State.setTab_tstatus (s : State) (t : TabId) (v : DTab) : (s.setTab t v).tstatus = s.tstatus := rfl
@[simp] theorem State.setTab_tinval (s : State) (t : TabId) (v : DTab) : (s.setTab t v).tinval = s.tinval := rfl
@[simp] theorem State.setTab_ports (s : State) (t : TabId) (v : DTab) : (s.setTab t v).ports = s.ports := rfl
@[simp] theorem State.setTab_routes (s : State) (t : TabId) (v : DTab) : (s.setTab t v).routes = s.routes := rfl
@[simp] theorem State.setTab_fars (s : State) (t : TabId) (v : DTab) : (s.setTab t v).fars = s.fars := rfl
@[simp] theorem State.setTab_msixOpen (s : State) (t : TabId) (v : DTab) : (s.setTab t v).msixOpen = s.msixOpen := rfl
@[simp] theorem State.setTab_msixTab (s : State) (t : TabId) (v : DTab) : (s.setTab t v).msixTab = s.msixTab := rfl
@[simp] theorem State.setTab_msixPend (s : State) (t : TabId) (v : DTab) : (s.setTab t v).msixPend = s.msixPend := rfl
@[simp] theorem State.setTab_hostHeld (s : State) (t : TabId) (v : DTab) : (s.setTab t v).hostHeld = s.hostHeld := rfl
@[simp] theorem State.setTab_snoops (s : State) (t : TabId) (v : DTab) : (s.setTab t v).snoops = s.snoops := rfl
@[simp] theorem State.setTab_spdmAlgs (s : State) (t : TabId) (v : DTab) : (s.setTab t v).spdmAlgs = s.spdmAlgs := rfl
@[simp] theorem State.setTab_fwPending (s : State) (t : TabId) (v : DTab) : (s.setTab t v).fwPending = s.fwPending := rfl
@[simp] theorem State.setTab_fwVersion (s : State) (t : TabId) (v : DTab) : (s.setTab t v).fwVersion = s.fwVersion := rfl
@[simp] theorem State.setTab_haltOnBreak (s : State) (t : TabId) (v : DTab) : (s.setTab t v).haltOnBreak = s.haltOnBreak := rfl
@[simp] theorem State.setTab_escalated (s : State) (t : TabId) (v : DTab) : (s.setTab t v).escalated = s.escalated := rfl

/-! ### setHq -/

@[simp] theorem State.setHq_actor (s : State) (q : Nat) (v : HQueue) : (s.setHq q v).actor = s.actor := rfl
@[simp] theorem State.setHq_turns (s : State) (q : Nat) (v : HQueue) : (s.setHq q v).turns = s.turns := rfl
@[simp] theorem State.setHq_inputs (s : State) (q : Nat) (v : HQueue) : (s.setHq q v).inputs = s.inputs := rfl
@[simp] theorem State.setHq_upsets (s : State) (q : Nat) (v : HQueue) : (s.setHq q v).upsets = s.upsets := rfl
@[simp] theorem State.setHq_fresh (s : State) (q : Nat) (v : HQueue) : (s.setHq q v).fresh = s.fresh := rfl
@[simp] theorem State.setHq_outbox (s : State) (q : Nat) (v : HQueue) : (s.setHq q v).outbox = s.outbox := rfl
@[simp] theorem State.setHq_clk (s : State) (q : Nat) (v : HQueue) : (s.setHq q v).clk = s.clk := rfl
@[simp] theorem State.setHq_pt (s : State) (q : Nat) (v : HQueue) : (s.setHq q v).pt = s.pt := rfl
@[simp] theorem State.setHq_phase (s : State) (q : Nat) (v : HQueue) : (s.setHq q v).phase = s.phase := rfl
@[simp] theorem State.setHq_mem (s : State) (q : Nat) (v : HQueue) : (s.setHq q v).mem = s.mem := rfl
@[simp] theorem State.setHq_full (s : State) (q : Nat) (v : HQueue) : (s.setHq q v).full = s.full := rfl
@[simp] theorem State.setHq_bad (s : State) (q : Nat) (v : HQueue) : (s.setHq q v).bad = s.bad := rfl
@[simp] theorem State.setHq_harts (s : State) (q : Nat) (v : HQueue) : (s.setHq q v).harts = s.harts := rfl
@[simp] theorem State.setHq_cores (s : State) (q : Nat) (v : HQueue) : (s.setHq q v).cores = s.cores := rfl
@[simp] theorem State.setHq_ctxs (s : State) (q : Nat) (v : HQueue) : (s.setHq q v).ctxs = s.ctxs := rfl
@[simp] theorem State.setHq_ccs (s : State) (q : Nat) (v : HQueue) : (s.setHq q v).ccs = s.ccs := rfl
@[simp] theorem State.setHq_clusters (s : State) (q : Nat) (v : HQueue) : (s.setHq q v).clusters = s.clusters := rfl
@[simp] theorem State.setHq_dies (s : State) (q : Nat) (v : HQueue) : (s.setHq q v).dies = s.dies := rfl
@[simp] theorem State.setHq_tabs (s : State) (q : Nat) (v : HQueue) : (s.setHq q v).tabs = s.tabs := rfl
@[simp] theorem State.setHq_launches (s : State) (q : Nat) (v : HQueue) : (s.setHq q v).launches = s.launches := rfl
@[simp] theorem State.setHq_owed (s : State) (q : Nat) (v : HQueue) : (s.setHq q v).owed = s.owed := rfl
@[simp] theorem State.setHq_reqs (s : State) (q : Nat) (v : HQueue) : (s.setHq q v).reqs = s.reqs := rfl
@[simp] theorem State.setHq_leaves (s : State) (q : Nat) (v : HQueue) : (s.setHq q v).leaves = s.leaves := rfl
@[simp] theorem State.setHq_tables (s : State) (q : Nat) (v : HQueue) : (s.setHq q v).tables = s.tables := rfl
@[simp] theorem State.setHq_walks (s : State) (q : Nat) (v : HQueue) : (s.setHq q v).walks = s.walks := rfl
@[simp] theorem State.setHq_node (s : State) (q : Nat) (v : HQueue) : (s.setHq q v).node = s.node := rfl
@[simp] theorem State.setHq_lease (s : State) (q : Nat) (v : HQueue) : (s.setHq q v).lease = s.lease := rfl
@[simp] theorem State.setHq_leases (s : State) (q : Nat) (v : HQueue) : (s.setHq q v).leases = s.leases := rfl
@[simp] theorem State.setHq_bootStage (s : State) (q : Nat) (v : HQueue) : (s.setHq q v).bootStage = s.bootStage := rfl
@[simp] theorem State.setHq_thermal (s : State) (q : Nat) (v : HQueue) : (s.setHq q v).thermal = s.thermal := rfl
@[simp] theorem State.setHq_powerCap (s : State) (q : Nat) (v : HQueue) : (s.setHq q v).powerCap = s.powerCap := rfl
@[simp] theorem State.setHq_mhz (s : State) (q : Nat) (v : HQueue) : (s.setHq q v).mhz = s.mhz := rfl
@[simp] theorem State.setHq_thr (s : State) (q : Nat) (v : HQueue) : (s.setHq q v).thr = s.thr := rfl
@[simp] theorem State.setHq_pasidBase (s : State) (q : Nat) (v : HQueue) : (s.setHq q v).pasidBase = s.pasidBase := rfl
@[simp] theorem State.setHq_evvec (s : State) (q : Nat) (v : HQueue) : (s.setHq q v).evvec = s.evvec := rfl
@[simp] theorem State.setHq_tcmd (s : State) (q : Nat) (v : HQueue) : (s.setHq q v).tcmd = s.tcmd := rfl
@[simp] theorem State.setHq_tbase (s : State) (q : Nat) (v : HQueue) : (s.setHq q v).tbase = s.tbase := rfl
@[simp] theorem State.setHq_tpages (s : State) (q : Nat) (v : HQueue) : (s.setHq q v).tpages = s.tpages := rfl
@[simp] theorem State.setHq_tstatus (s : State) (q : Nat) (v : HQueue) : (s.setHq q v).tstatus = s.tstatus := rfl
@[simp] theorem State.setHq_tinval (s : State) (q : Nat) (v : HQueue) : (s.setHq q v).tinval = s.tinval := rfl
@[simp] theorem State.setHq_ports (s : State) (q : Nat) (v : HQueue) : (s.setHq q v).ports = s.ports := rfl
@[simp] theorem State.setHq_routes (s : State) (q : Nat) (v : HQueue) : (s.setHq q v).routes = s.routes := rfl
@[simp] theorem State.setHq_fars (s : State) (q : Nat) (v : HQueue) : (s.setHq q v).fars = s.fars := rfl
@[simp] theorem State.setHq_msixOpen (s : State) (q : Nat) (v : HQueue) : (s.setHq q v).msixOpen = s.msixOpen := rfl
@[simp] theorem State.setHq_msixTab (s : State) (q : Nat) (v : HQueue) : (s.setHq q v).msixTab = s.msixTab := rfl
@[simp] theorem State.setHq_msixPend (s : State) (q : Nat) (v : HQueue) : (s.setHq q v).msixPend = s.msixPend := rfl
@[simp] theorem State.setHq_hostHeld (s : State) (q : Nat) (v : HQueue) : (s.setHq q v).hostHeld = s.hostHeld := rfl
@[simp] theorem State.setHq_snoops (s : State) (q : Nat) (v : HQueue) : (s.setHq q v).snoops = s.snoops := rfl
@[simp] theorem State.setHq_spdmAlgs (s : State) (q : Nat) (v : HQueue) : (s.setHq q v).spdmAlgs = s.spdmAlgs := rfl
@[simp] theorem State.setHq_fwPending (s : State) (q : Nat) (v : HQueue) : (s.setHq q v).fwPending = s.fwPending := rfl
@[simp] theorem State.setHq_fwVersion (s : State) (q : Nat) (v : HQueue) : (s.setHq q v).fwVersion = s.fwVersion := rfl
@[simp] theorem State.setHq_haltOnBreak (s : State) (q : Nat) (v : HQueue) : (s.setHq q v).haltOnBreak = s.haltOnBreak := rfl
@[simp] theorem State.setHq_escalated (s : State) (q : Nat) (v : HQueue) : (s.setHq q v).escalated = s.escalated := rfl

/-! ### setLaunch -/

@[simp] theorem State.setLaunch_actor (s : State) (v : Launch) : (s.setLaunch v).actor = s.actor := rfl
@[simp] theorem State.setLaunch_turns (s : State) (v : Launch) : (s.setLaunch v).turns = s.turns := rfl
@[simp] theorem State.setLaunch_inputs (s : State) (v : Launch) : (s.setLaunch v).inputs = s.inputs := rfl
@[simp] theorem State.setLaunch_upsets (s : State) (v : Launch) : (s.setLaunch v).upsets = s.upsets := rfl
@[simp] theorem State.setLaunch_fresh (s : State) (v : Launch) : (s.setLaunch v).fresh = s.fresh := rfl
@[simp] theorem State.setLaunch_outbox (s : State) (v : Launch) : (s.setLaunch v).outbox = s.outbox := rfl
@[simp] theorem State.setLaunch_clk (s : State) (v : Launch) : (s.setLaunch v).clk = s.clk := rfl
@[simp] theorem State.setLaunch_pt (s : State) (v : Launch) : (s.setLaunch v).pt = s.pt := rfl
@[simp] theorem State.setLaunch_phase (s : State) (v : Launch) : (s.setLaunch v).phase = s.phase := rfl
@[simp] theorem State.setLaunch_mem (s : State) (v : Launch) : (s.setLaunch v).mem = s.mem := rfl
@[simp] theorem State.setLaunch_full (s : State) (v : Launch) : (s.setLaunch v).full = s.full := rfl
@[simp] theorem State.setLaunch_bad (s : State) (v : Launch) : (s.setLaunch v).bad = s.bad := rfl
@[simp] theorem State.setLaunch_harts (s : State) (v : Launch) : (s.setLaunch v).harts = s.harts := rfl
@[simp] theorem State.setLaunch_cores (s : State) (v : Launch) : (s.setLaunch v).cores = s.cores := rfl
@[simp] theorem State.setLaunch_ctxs (s : State) (v : Launch) : (s.setLaunch v).ctxs = s.ctxs := rfl
@[simp] theorem State.setLaunch_ccs (s : State) (v : Launch) : (s.setLaunch v).ccs = s.ccs := rfl
@[simp] theorem State.setLaunch_clusters (s : State) (v : Launch) : (s.setLaunch v).clusters = s.clusters := rfl
@[simp] theorem State.setLaunch_dies (s : State) (v : Launch) : (s.setLaunch v).dies = s.dies := rfl
@[simp] theorem State.setLaunch_tabs (s : State) (v : Launch) : (s.setLaunch v).tabs = s.tabs := rfl
@[simp] theorem State.setLaunch_queues (s : State) (v : Launch) : (s.setLaunch v).queues = s.queues := rfl
@[simp] theorem State.setLaunch_owed (s : State) (v : Launch) : (s.setLaunch v).owed = s.owed := rfl
@[simp] theorem State.setLaunch_reqs (s : State) (v : Launch) : (s.setLaunch v).reqs = s.reqs := rfl
@[simp] theorem State.setLaunch_leaves (s : State) (v : Launch) : (s.setLaunch v).leaves = s.leaves := rfl
@[simp] theorem State.setLaunch_tables (s : State) (v : Launch) : (s.setLaunch v).tables = s.tables := rfl
@[simp] theorem State.setLaunch_walks (s : State) (v : Launch) : (s.setLaunch v).walks = s.walks := rfl
@[simp] theorem State.setLaunch_node (s : State) (v : Launch) : (s.setLaunch v).node = s.node := rfl
@[simp] theorem State.setLaunch_lease (s : State) (v : Launch) : (s.setLaunch v).lease = s.lease := rfl
@[simp] theorem State.setLaunch_leases (s : State) (v : Launch) : (s.setLaunch v).leases = s.leases := rfl
@[simp] theorem State.setLaunch_bootStage (s : State) (v : Launch) : (s.setLaunch v).bootStage = s.bootStage := rfl
@[simp] theorem State.setLaunch_thermal (s : State) (v : Launch) : (s.setLaunch v).thermal = s.thermal := rfl
@[simp] theorem State.setLaunch_powerCap (s : State) (v : Launch) : (s.setLaunch v).powerCap = s.powerCap := rfl
@[simp] theorem State.setLaunch_mhz (s : State) (v : Launch) : (s.setLaunch v).mhz = s.mhz := rfl
@[simp] theorem State.setLaunch_thr (s : State) (v : Launch) : (s.setLaunch v).thr = s.thr := rfl
@[simp] theorem State.setLaunch_pasidBase (s : State) (v : Launch) : (s.setLaunch v).pasidBase = s.pasidBase := rfl
@[simp] theorem State.setLaunch_evvec (s : State) (v : Launch) : (s.setLaunch v).evvec = s.evvec := rfl
@[simp] theorem State.setLaunch_tcmd (s : State) (v : Launch) : (s.setLaunch v).tcmd = s.tcmd := rfl
@[simp] theorem State.setLaunch_tbase (s : State) (v : Launch) : (s.setLaunch v).tbase = s.tbase := rfl
@[simp] theorem State.setLaunch_tpages (s : State) (v : Launch) : (s.setLaunch v).tpages = s.tpages := rfl
@[simp] theorem State.setLaunch_tstatus (s : State) (v : Launch) : (s.setLaunch v).tstatus = s.tstatus := rfl
@[simp] theorem State.setLaunch_tinval (s : State) (v : Launch) : (s.setLaunch v).tinval = s.tinval := rfl
@[simp] theorem State.setLaunch_ports (s : State) (v : Launch) : (s.setLaunch v).ports = s.ports := rfl
@[simp] theorem State.setLaunch_routes (s : State) (v : Launch) : (s.setLaunch v).routes = s.routes := rfl
@[simp] theorem State.setLaunch_fars (s : State) (v : Launch) : (s.setLaunch v).fars = s.fars := rfl
@[simp] theorem State.setLaunch_msixOpen (s : State) (v : Launch) : (s.setLaunch v).msixOpen = s.msixOpen := rfl
@[simp] theorem State.setLaunch_msixTab (s : State) (v : Launch) : (s.setLaunch v).msixTab = s.msixTab := rfl
@[simp] theorem State.setLaunch_msixPend (s : State) (v : Launch) : (s.setLaunch v).msixPend = s.msixPend := rfl
@[simp] theorem State.setLaunch_hostHeld (s : State) (v : Launch) : (s.setLaunch v).hostHeld = s.hostHeld := rfl
@[simp] theorem State.setLaunch_snoops (s : State) (v : Launch) : (s.setLaunch v).snoops = s.snoops := rfl
@[simp] theorem State.setLaunch_spdmAlgs (s : State) (v : Launch) : (s.setLaunch v).spdmAlgs = s.spdmAlgs := rfl
@[simp] theorem State.setLaunch_fwPending (s : State) (v : Launch) : (s.setLaunch v).fwPending = s.fwPending := rfl
@[simp] theorem State.setLaunch_fwVersion (s : State) (v : Launch) : (s.setLaunch v).fwVersion = s.fwVersion := rfl
@[simp] theorem State.setLaunch_haltOnBreak (s : State) (v : Launch) : (s.setLaunch v).haltOnBreak = s.haltOnBreak := rfl
@[simp] theorem State.setLaunch_escalated (s : State) (v : Launch) : (s.setLaunch v).escalated = s.escalated := rfl

/-! ### wr -/

@[simp] theorem State.wr_actor (s : State) (a n v : Nat) : (s.wr a n v).actor = s.actor := rfl
@[simp] theorem State.wr_turns (s : State) (a n v : Nat) : (s.wr a n v).turns = s.turns := rfl
@[simp] theorem State.wr_inputs (s : State) (a n v : Nat) : (s.wr a n v).inputs = s.inputs := rfl
@[simp] theorem State.wr_upsets (s : State) (a n v : Nat) : (s.wr a n v).upsets = s.upsets := rfl
@[simp] theorem State.wr_fresh (s : State) (a n v : Nat) : (s.wr a n v).fresh = s.fresh := rfl
@[simp] theorem State.wr_outbox (s : State) (a n v : Nat) : (s.wr a n v).outbox = s.outbox := rfl
@[simp] theorem State.wr_clk (s : State) (a n v : Nat) : (s.wr a n v).clk = s.clk := rfl
@[simp] theorem State.wr_pt (s : State) (a n v : Nat) : (s.wr a n v).pt = s.pt := rfl
@[simp] theorem State.wr_phase (s : State) (a n v : Nat) : (s.wr a n v).phase = s.phase := rfl
@[simp] theorem State.wr_full (s : State) (a n v : Nat) : (s.wr a n v).full = s.full := rfl
@[simp] theorem State.wr_harts (s : State) (a n v : Nat) : (s.wr a n v).harts = s.harts := rfl
@[simp] theorem State.wr_cores (s : State) (a n v : Nat) : (s.wr a n v).cores = s.cores := rfl
@[simp] theorem State.wr_ctxs (s : State) (a n v : Nat) : (s.wr a n v).ctxs = s.ctxs := rfl
@[simp] theorem State.wr_ccs (s : State) (a n v : Nat) : (s.wr a n v).ccs = s.ccs := rfl
@[simp] theorem State.wr_clusters (s : State) (a n v : Nat) : (s.wr a n v).clusters = s.clusters := rfl
@[simp] theorem State.wr_dies (s : State) (a n v : Nat) : (s.wr a n v).dies = s.dies := rfl
@[simp] theorem State.wr_tabs (s : State) (a n v : Nat) : (s.wr a n v).tabs = s.tabs := rfl
@[simp] theorem State.wr_queues (s : State) (a n v : Nat) : (s.wr a n v).queues = s.queues := rfl
@[simp] theorem State.wr_launches (s : State) (a n v : Nat) : (s.wr a n v).launches = s.launches := rfl
@[simp] theorem State.wr_owed (s : State) (a n v : Nat) : (s.wr a n v).owed = s.owed := rfl
@[simp] theorem State.wr_reqs (s : State) (a n v : Nat) : (s.wr a n v).reqs = s.reqs := rfl
@[simp] theorem State.wr_leaves (s : State) (a n v : Nat) : (s.wr a n v).leaves = s.leaves := rfl
@[simp] theorem State.wr_tables (s : State) (a n v : Nat) : (s.wr a n v).tables = s.tables := rfl
@[simp] theorem State.wr_walks (s : State) (a n v : Nat) : (s.wr a n v).walks = s.walks := rfl
@[simp] theorem State.wr_node (s : State) (a n v : Nat) : (s.wr a n v).node = s.node := rfl
@[simp] theorem State.wr_lease (s : State) (a n v : Nat) : (s.wr a n v).lease = s.lease := rfl
@[simp] theorem State.wr_leases (s : State) (a n v : Nat) : (s.wr a n v).leases = s.leases := rfl
@[simp] theorem State.wr_bootStage (s : State) (a n v : Nat) : (s.wr a n v).bootStage = s.bootStage := rfl
@[simp] theorem State.wr_thermal (s : State) (a n v : Nat) : (s.wr a n v).thermal = s.thermal := rfl
@[simp] theorem State.wr_powerCap (s : State) (a n v : Nat) : (s.wr a n v).powerCap = s.powerCap := rfl
@[simp] theorem State.wr_mhz (s : State) (a n v : Nat) : (s.wr a n v).mhz = s.mhz := rfl
@[simp] theorem State.wr_thr (s : State) (a n v : Nat) : (s.wr a n v).thr = s.thr := rfl
@[simp] theorem State.wr_pasidBase (s : State) (a n v : Nat) : (s.wr a n v).pasidBase = s.pasidBase := rfl
@[simp] theorem State.wr_evvec (s : State) (a n v : Nat) : (s.wr a n v).evvec = s.evvec := rfl
@[simp] theorem State.wr_tcmd (s : State) (a n v : Nat) : (s.wr a n v).tcmd = s.tcmd := rfl
@[simp] theorem State.wr_tbase (s : State) (a n v : Nat) : (s.wr a n v).tbase = s.tbase := rfl
@[simp] theorem State.wr_tpages (s : State) (a n v : Nat) : (s.wr a n v).tpages = s.tpages := rfl
@[simp] theorem State.wr_tstatus (s : State) (a n v : Nat) : (s.wr a n v).tstatus = s.tstatus := rfl
@[simp] theorem State.wr_tinval (s : State) (a n v : Nat) : (s.wr a n v).tinval = s.tinval := rfl
@[simp] theorem State.wr_ports (s : State) (a n v : Nat) : (s.wr a n v).ports = s.ports := rfl
@[simp] theorem State.wr_routes (s : State) (a n v : Nat) : (s.wr a n v).routes = s.routes := rfl
@[simp] theorem State.wr_fars (s : State) (a n v : Nat) : (s.wr a n v).fars = s.fars := rfl
@[simp] theorem State.wr_msixOpen (s : State) (a n v : Nat) : (s.wr a n v).msixOpen = s.msixOpen := rfl
@[simp] theorem State.wr_msixTab (s : State) (a n v : Nat) : (s.wr a n v).msixTab = s.msixTab := rfl
@[simp] theorem State.wr_msixPend (s : State) (a n v : Nat) : (s.wr a n v).msixPend = s.msixPend := rfl
@[simp] theorem State.wr_hostHeld (s : State) (a n v : Nat) : (s.wr a n v).hostHeld = s.hostHeld := rfl
@[simp] theorem State.wr_snoops (s : State) (a n v : Nat) : (s.wr a n v).snoops = s.snoops := rfl
@[simp] theorem State.wr_spdmAlgs (s : State) (a n v : Nat) : (s.wr a n v).spdmAlgs = s.spdmAlgs := rfl
@[simp] theorem State.wr_fwPending (s : State) (a n v : Nat) : (s.wr a n v).fwPending = s.fwPending := rfl
@[simp] theorem State.wr_fwVersion (s : State) (a n v : Nat) : (s.wr a n v).fwVersion = s.fwVersion := rfl
@[simp] theorem State.wr_haltOnBreak (s : State) (a n v : Nat) : (s.wr a n v).haltOnBreak = s.haltOnBreak := rfl
@[simp] theorem State.wr_escalated (s : State) (a n v : Nat) : (s.wr a n v).escalated = s.escalated := rfl

/-! ### wr64 -/

@[simp] theorem State.wr64_actor (s : State) (a : Nat) (v : W64) : (s.wr64 a v).actor = s.actor := rfl
@[simp] theorem State.wr64_turns (s : State) (a : Nat) (v : W64) : (s.wr64 a v).turns = s.turns := rfl
@[simp] theorem State.wr64_inputs (s : State) (a : Nat) (v : W64) : (s.wr64 a v).inputs = s.inputs := rfl
@[simp] theorem State.wr64_upsets (s : State) (a : Nat) (v : W64) : (s.wr64 a v).upsets = s.upsets := rfl
@[simp] theorem State.wr64_fresh (s : State) (a : Nat) (v : W64) : (s.wr64 a v).fresh = s.fresh := rfl
@[simp] theorem State.wr64_outbox (s : State) (a : Nat) (v : W64) : (s.wr64 a v).outbox = s.outbox := rfl
@[simp] theorem State.wr64_clk (s : State) (a : Nat) (v : W64) : (s.wr64 a v).clk = s.clk := rfl
@[simp] theorem State.wr64_pt (s : State) (a : Nat) (v : W64) : (s.wr64 a v).pt = s.pt := rfl
@[simp] theorem State.wr64_phase (s : State) (a : Nat) (v : W64) : (s.wr64 a v).phase = s.phase := rfl
@[simp] theorem State.wr64_full (s : State) (a : Nat) (v : W64) : (s.wr64 a v).full = s.full := rfl
@[simp] theorem State.wr64_harts (s : State) (a : Nat) (v : W64) : (s.wr64 a v).harts = s.harts := rfl
@[simp] theorem State.wr64_cores (s : State) (a : Nat) (v : W64) : (s.wr64 a v).cores = s.cores := rfl
@[simp] theorem State.wr64_ctxs (s : State) (a : Nat) (v : W64) : (s.wr64 a v).ctxs = s.ctxs := rfl
@[simp] theorem State.wr64_ccs (s : State) (a : Nat) (v : W64) : (s.wr64 a v).ccs = s.ccs := rfl
@[simp] theorem State.wr64_clusters (s : State) (a : Nat) (v : W64) : (s.wr64 a v).clusters = s.clusters := rfl
@[simp] theorem State.wr64_dies (s : State) (a : Nat) (v : W64) : (s.wr64 a v).dies = s.dies := rfl
@[simp] theorem State.wr64_tabs (s : State) (a : Nat) (v : W64) : (s.wr64 a v).tabs = s.tabs := rfl
@[simp] theorem State.wr64_queues (s : State) (a : Nat) (v : W64) : (s.wr64 a v).queues = s.queues := rfl
@[simp] theorem State.wr64_launches (s : State) (a : Nat) (v : W64) : (s.wr64 a v).launches = s.launches := rfl
@[simp] theorem State.wr64_owed (s : State) (a : Nat) (v : W64) : (s.wr64 a v).owed = s.owed := rfl
@[simp] theorem State.wr64_reqs (s : State) (a : Nat) (v : W64) : (s.wr64 a v).reqs = s.reqs := rfl
@[simp] theorem State.wr64_leaves (s : State) (a : Nat) (v : W64) : (s.wr64 a v).leaves = s.leaves := rfl
@[simp] theorem State.wr64_tables (s : State) (a : Nat) (v : W64) : (s.wr64 a v).tables = s.tables := rfl
@[simp] theorem State.wr64_walks (s : State) (a : Nat) (v : W64) : (s.wr64 a v).walks = s.walks := rfl
@[simp] theorem State.wr64_node (s : State) (a : Nat) (v : W64) : (s.wr64 a v).node = s.node := rfl
@[simp] theorem State.wr64_lease (s : State) (a : Nat) (v : W64) : (s.wr64 a v).lease = s.lease := rfl
@[simp] theorem State.wr64_leases (s : State) (a : Nat) (v : W64) : (s.wr64 a v).leases = s.leases := rfl
@[simp] theorem State.wr64_bootStage (s : State) (a : Nat) (v : W64) : (s.wr64 a v).bootStage = s.bootStage := rfl
@[simp] theorem State.wr64_thermal (s : State) (a : Nat) (v : W64) : (s.wr64 a v).thermal = s.thermal := rfl
@[simp] theorem State.wr64_powerCap (s : State) (a : Nat) (v : W64) : (s.wr64 a v).powerCap = s.powerCap := rfl
@[simp] theorem State.wr64_mhz (s : State) (a : Nat) (v : W64) : (s.wr64 a v).mhz = s.mhz := rfl
@[simp] theorem State.wr64_thr (s : State) (a : Nat) (v : W64) : (s.wr64 a v).thr = s.thr := rfl
@[simp] theorem State.wr64_pasidBase (s : State) (a : Nat) (v : W64) : (s.wr64 a v).pasidBase = s.pasidBase := rfl
@[simp] theorem State.wr64_evvec (s : State) (a : Nat) (v : W64) : (s.wr64 a v).evvec = s.evvec := rfl
@[simp] theorem State.wr64_tcmd (s : State) (a : Nat) (v : W64) : (s.wr64 a v).tcmd = s.tcmd := rfl
@[simp] theorem State.wr64_tbase (s : State) (a : Nat) (v : W64) : (s.wr64 a v).tbase = s.tbase := rfl
@[simp] theorem State.wr64_tpages (s : State) (a : Nat) (v : W64) : (s.wr64 a v).tpages = s.tpages := rfl
@[simp] theorem State.wr64_tstatus (s : State) (a : Nat) (v : W64) : (s.wr64 a v).tstatus = s.tstatus := rfl
@[simp] theorem State.wr64_tinval (s : State) (a : Nat) (v : W64) : (s.wr64 a v).tinval = s.tinval := rfl
@[simp] theorem State.wr64_ports (s : State) (a : Nat) (v : W64) : (s.wr64 a v).ports = s.ports := rfl
@[simp] theorem State.wr64_routes (s : State) (a : Nat) (v : W64) : (s.wr64 a v).routes = s.routes := rfl
@[simp] theorem State.wr64_fars (s : State) (a : Nat) (v : W64) : (s.wr64 a v).fars = s.fars := rfl
@[simp] theorem State.wr64_msixOpen (s : State) (a : Nat) (v : W64) : (s.wr64 a v).msixOpen = s.msixOpen := rfl
@[simp] theorem State.wr64_msixTab (s : State) (a : Nat) (v : W64) : (s.wr64 a v).msixTab = s.msixTab := rfl
@[simp] theorem State.wr64_msixPend (s : State) (a : Nat) (v : W64) : (s.wr64 a v).msixPend = s.msixPend := rfl
@[simp] theorem State.wr64_hostHeld (s : State) (a : Nat) (v : W64) : (s.wr64 a v).hostHeld = s.hostHeld := rfl
@[simp] theorem State.wr64_snoops (s : State) (a : Nat) (v : W64) : (s.wr64 a v).snoops = s.snoops := rfl
@[simp] theorem State.wr64_spdmAlgs (s : State) (a : Nat) (v : W64) : (s.wr64 a v).spdmAlgs = s.spdmAlgs := rfl
@[simp] theorem State.wr64_fwPending (s : State) (a : Nat) (v : W64) : (s.wr64 a v).fwPending = s.fwPending := rfl
@[simp] theorem State.wr64_fwVersion (s : State) (a : Nat) (v : W64) : (s.wr64 a v).fwVersion = s.fwVersion := rfl
@[simp] theorem State.wr64_haltOnBreak (s : State) (a : Nat) (v : W64) : (s.wr64 a v).haltOnBreak = s.haltOnBreak := rfl
@[simp] theorem State.wr64_escalated (s : State) (a : Nat) (v : W64) : (s.wr64 a v).escalated = s.escalated := rfl

/-! ### setFull -/

@[simp] theorem State.setFull_actor (s : State) (a : Nat) : (s.setFull a).actor = s.actor := rfl
@[simp] theorem State.setFull_turns (s : State) (a : Nat) : (s.setFull a).turns = s.turns := rfl
@[simp] theorem State.setFull_inputs (s : State) (a : Nat) : (s.setFull a).inputs = s.inputs := rfl
@[simp] theorem State.setFull_upsets (s : State) (a : Nat) : (s.setFull a).upsets = s.upsets := rfl
@[simp] theorem State.setFull_fresh (s : State) (a : Nat) : (s.setFull a).fresh = s.fresh := rfl
@[simp] theorem State.setFull_outbox (s : State) (a : Nat) : (s.setFull a).outbox = s.outbox := rfl
@[simp] theorem State.setFull_clk (s : State) (a : Nat) : (s.setFull a).clk = s.clk := rfl
@[simp] theorem State.setFull_pt (s : State) (a : Nat) : (s.setFull a).pt = s.pt := rfl
@[simp] theorem State.setFull_phase (s : State) (a : Nat) : (s.setFull a).phase = s.phase := rfl
@[simp] theorem State.setFull_mem (s : State) (a : Nat) : (s.setFull a).mem = s.mem := rfl
@[simp] theorem State.setFull_bad (s : State) (a : Nat) : (s.setFull a).bad = s.bad := rfl
@[simp] theorem State.setFull_harts (s : State) (a : Nat) : (s.setFull a).harts = s.harts := rfl
@[simp] theorem State.setFull_cores (s : State) (a : Nat) : (s.setFull a).cores = s.cores := rfl
@[simp] theorem State.setFull_ctxs (s : State) (a : Nat) : (s.setFull a).ctxs = s.ctxs := rfl
@[simp] theorem State.setFull_ccs (s : State) (a : Nat) : (s.setFull a).ccs = s.ccs := rfl
@[simp] theorem State.setFull_clusters (s : State) (a : Nat) : (s.setFull a).clusters = s.clusters := rfl
@[simp] theorem State.setFull_dies (s : State) (a : Nat) : (s.setFull a).dies = s.dies := rfl
@[simp] theorem State.setFull_tabs (s : State) (a : Nat) : (s.setFull a).tabs = s.tabs := rfl
@[simp] theorem State.setFull_queues (s : State) (a : Nat) : (s.setFull a).queues = s.queues := rfl
@[simp] theorem State.setFull_launches (s : State) (a : Nat) : (s.setFull a).launches = s.launches := rfl
@[simp] theorem State.setFull_owed (s : State) (a : Nat) : (s.setFull a).owed = s.owed := rfl
@[simp] theorem State.setFull_reqs (s : State) (a : Nat) : (s.setFull a).reqs = s.reqs := rfl
@[simp] theorem State.setFull_leaves (s : State) (a : Nat) : (s.setFull a).leaves = s.leaves := rfl
@[simp] theorem State.setFull_tables (s : State) (a : Nat) : (s.setFull a).tables = s.tables := rfl
@[simp] theorem State.setFull_walks (s : State) (a : Nat) : (s.setFull a).walks = s.walks := rfl
@[simp] theorem State.setFull_node (s : State) (a : Nat) : (s.setFull a).node = s.node := rfl
@[simp] theorem State.setFull_lease (s : State) (a : Nat) : (s.setFull a).lease = s.lease := rfl
@[simp] theorem State.setFull_leases (s : State) (a : Nat) : (s.setFull a).leases = s.leases := rfl
@[simp] theorem State.setFull_bootStage (s : State) (a : Nat) : (s.setFull a).bootStage = s.bootStage := rfl
@[simp] theorem State.setFull_thermal (s : State) (a : Nat) : (s.setFull a).thermal = s.thermal := rfl
@[simp] theorem State.setFull_powerCap (s : State) (a : Nat) : (s.setFull a).powerCap = s.powerCap := rfl
@[simp] theorem State.setFull_mhz (s : State) (a : Nat) : (s.setFull a).mhz = s.mhz := rfl
@[simp] theorem State.setFull_thr (s : State) (a : Nat) : (s.setFull a).thr = s.thr := rfl
@[simp] theorem State.setFull_pasidBase (s : State) (a : Nat) : (s.setFull a).pasidBase = s.pasidBase := rfl
@[simp] theorem State.setFull_evvec (s : State) (a : Nat) : (s.setFull a).evvec = s.evvec := rfl
@[simp] theorem State.setFull_tcmd (s : State) (a : Nat) : (s.setFull a).tcmd = s.tcmd := rfl
@[simp] theorem State.setFull_tbase (s : State) (a : Nat) : (s.setFull a).tbase = s.tbase := rfl
@[simp] theorem State.setFull_tpages (s : State) (a : Nat) : (s.setFull a).tpages = s.tpages := rfl
@[simp] theorem State.setFull_tstatus (s : State) (a : Nat) : (s.setFull a).tstatus = s.tstatus := rfl
@[simp] theorem State.setFull_tinval (s : State) (a : Nat) : (s.setFull a).tinval = s.tinval := rfl
@[simp] theorem State.setFull_ports (s : State) (a : Nat) : (s.setFull a).ports = s.ports := rfl
@[simp] theorem State.setFull_routes (s : State) (a : Nat) : (s.setFull a).routes = s.routes := rfl
@[simp] theorem State.setFull_fars (s : State) (a : Nat) : (s.setFull a).fars = s.fars := rfl
@[simp] theorem State.setFull_msixOpen (s : State) (a : Nat) : (s.setFull a).msixOpen = s.msixOpen := rfl
@[simp] theorem State.setFull_msixTab (s : State) (a : Nat) : (s.setFull a).msixTab = s.msixTab := rfl
@[simp] theorem State.setFull_msixPend (s : State) (a : Nat) : (s.setFull a).msixPend = s.msixPend := rfl
@[simp] theorem State.setFull_hostHeld (s : State) (a : Nat) : (s.setFull a).hostHeld = s.hostHeld := rfl
@[simp] theorem State.setFull_snoops (s : State) (a : Nat) : (s.setFull a).snoops = s.snoops := rfl
@[simp] theorem State.setFull_spdmAlgs (s : State) (a : Nat) : (s.setFull a).spdmAlgs = s.spdmAlgs := rfl
@[simp] theorem State.setFull_fwPending (s : State) (a : Nat) : (s.setFull a).fwPending = s.fwPending := rfl
@[simp] theorem State.setFull_fwVersion (s : State) (a : Nat) : (s.setFull a).fwVersion = s.fwVersion := rfl
@[simp] theorem State.setFull_haltOnBreak (s : State) (a : Nat) : (s.setFull a).haltOnBreak = s.haltOnBreak := rfl
@[simp] theorem State.setFull_escalated (s : State) (a : Nat) : (s.setFull a).escalated = s.escalated := rfl

/-! ### setEmpty -/

@[simp] theorem State.setEmpty_actor (s : State) (a : Nat) : (s.setEmpty a).actor = s.actor := rfl
@[simp] theorem State.setEmpty_turns (s : State) (a : Nat) : (s.setEmpty a).turns = s.turns := rfl
@[simp] theorem State.setEmpty_inputs (s : State) (a : Nat) : (s.setEmpty a).inputs = s.inputs := rfl
@[simp] theorem State.setEmpty_upsets (s : State) (a : Nat) : (s.setEmpty a).upsets = s.upsets := rfl
@[simp] theorem State.setEmpty_fresh (s : State) (a : Nat) : (s.setEmpty a).fresh = s.fresh := rfl
@[simp] theorem State.setEmpty_outbox (s : State) (a : Nat) : (s.setEmpty a).outbox = s.outbox := rfl
@[simp] theorem State.setEmpty_clk (s : State) (a : Nat) : (s.setEmpty a).clk = s.clk := rfl
@[simp] theorem State.setEmpty_pt (s : State) (a : Nat) : (s.setEmpty a).pt = s.pt := rfl
@[simp] theorem State.setEmpty_phase (s : State) (a : Nat) : (s.setEmpty a).phase = s.phase := rfl
@[simp] theorem State.setEmpty_mem (s : State) (a : Nat) : (s.setEmpty a).mem = s.mem := rfl
@[simp] theorem State.setEmpty_bad (s : State) (a : Nat) : (s.setEmpty a).bad = s.bad := rfl
@[simp] theorem State.setEmpty_harts (s : State) (a : Nat) : (s.setEmpty a).harts = s.harts := rfl
@[simp] theorem State.setEmpty_cores (s : State) (a : Nat) : (s.setEmpty a).cores = s.cores := rfl
@[simp] theorem State.setEmpty_ctxs (s : State) (a : Nat) : (s.setEmpty a).ctxs = s.ctxs := rfl
@[simp] theorem State.setEmpty_ccs (s : State) (a : Nat) : (s.setEmpty a).ccs = s.ccs := rfl
@[simp] theorem State.setEmpty_clusters (s : State) (a : Nat) : (s.setEmpty a).clusters = s.clusters := rfl
@[simp] theorem State.setEmpty_dies (s : State) (a : Nat) : (s.setEmpty a).dies = s.dies := rfl
@[simp] theorem State.setEmpty_tabs (s : State) (a : Nat) : (s.setEmpty a).tabs = s.tabs := rfl
@[simp] theorem State.setEmpty_queues (s : State) (a : Nat) : (s.setEmpty a).queues = s.queues := rfl
@[simp] theorem State.setEmpty_launches (s : State) (a : Nat) : (s.setEmpty a).launches = s.launches := rfl
@[simp] theorem State.setEmpty_owed (s : State) (a : Nat) : (s.setEmpty a).owed = s.owed := rfl
@[simp] theorem State.setEmpty_reqs (s : State) (a : Nat) : (s.setEmpty a).reqs = s.reqs := rfl
@[simp] theorem State.setEmpty_leaves (s : State) (a : Nat) : (s.setEmpty a).leaves = s.leaves := rfl
@[simp] theorem State.setEmpty_tables (s : State) (a : Nat) : (s.setEmpty a).tables = s.tables := rfl
@[simp] theorem State.setEmpty_walks (s : State) (a : Nat) : (s.setEmpty a).walks = s.walks := rfl
@[simp] theorem State.setEmpty_node (s : State) (a : Nat) : (s.setEmpty a).node = s.node := rfl
@[simp] theorem State.setEmpty_lease (s : State) (a : Nat) : (s.setEmpty a).lease = s.lease := rfl
@[simp] theorem State.setEmpty_leases (s : State) (a : Nat) : (s.setEmpty a).leases = s.leases := rfl
@[simp] theorem State.setEmpty_bootStage (s : State) (a : Nat) : (s.setEmpty a).bootStage = s.bootStage := rfl
@[simp] theorem State.setEmpty_thermal (s : State) (a : Nat) : (s.setEmpty a).thermal = s.thermal := rfl
@[simp] theorem State.setEmpty_powerCap (s : State) (a : Nat) : (s.setEmpty a).powerCap = s.powerCap := rfl
@[simp] theorem State.setEmpty_mhz (s : State) (a : Nat) : (s.setEmpty a).mhz = s.mhz := rfl
@[simp] theorem State.setEmpty_thr (s : State) (a : Nat) : (s.setEmpty a).thr = s.thr := rfl
@[simp] theorem State.setEmpty_pasidBase (s : State) (a : Nat) : (s.setEmpty a).pasidBase = s.pasidBase := rfl
@[simp] theorem State.setEmpty_evvec (s : State) (a : Nat) : (s.setEmpty a).evvec = s.evvec := rfl
@[simp] theorem State.setEmpty_tcmd (s : State) (a : Nat) : (s.setEmpty a).tcmd = s.tcmd := rfl
@[simp] theorem State.setEmpty_tbase (s : State) (a : Nat) : (s.setEmpty a).tbase = s.tbase := rfl
@[simp] theorem State.setEmpty_tpages (s : State) (a : Nat) : (s.setEmpty a).tpages = s.tpages := rfl
@[simp] theorem State.setEmpty_tstatus (s : State) (a : Nat) : (s.setEmpty a).tstatus = s.tstatus := rfl
@[simp] theorem State.setEmpty_tinval (s : State) (a : Nat) : (s.setEmpty a).tinval = s.tinval := rfl
@[simp] theorem State.setEmpty_ports (s : State) (a : Nat) : (s.setEmpty a).ports = s.ports := rfl
@[simp] theorem State.setEmpty_routes (s : State) (a : Nat) : (s.setEmpty a).routes = s.routes := rfl
@[simp] theorem State.setEmpty_fars (s : State) (a : Nat) : (s.setEmpty a).fars = s.fars := rfl
@[simp] theorem State.setEmpty_msixOpen (s : State) (a : Nat) : (s.setEmpty a).msixOpen = s.msixOpen := rfl
@[simp] theorem State.setEmpty_msixTab (s : State) (a : Nat) : (s.setEmpty a).msixTab = s.msixTab := rfl
@[simp] theorem State.setEmpty_msixPend (s : State) (a : Nat) : (s.setEmpty a).msixPend = s.msixPend := rfl
@[simp] theorem State.setEmpty_hostHeld (s : State) (a : Nat) : (s.setEmpty a).hostHeld = s.hostHeld := rfl
@[simp] theorem State.setEmpty_snoops (s : State) (a : Nat) : (s.setEmpty a).snoops = s.snoops := rfl
@[simp] theorem State.setEmpty_spdmAlgs (s : State) (a : Nat) : (s.setEmpty a).spdmAlgs = s.spdmAlgs := rfl
@[simp] theorem State.setEmpty_fwPending (s : State) (a : Nat) : (s.setEmpty a).fwPending = s.fwPending := rfl
@[simp] theorem State.setEmpty_fwVersion (s : State) (a : Nat) : (s.setEmpty a).fwVersion = s.fwVersion := rfl
@[simp] theorem State.setEmpty_haltOnBreak (s : State) (a : Nat) : (s.setEmpty a).haltOnBreak = s.haltOnBreak := rfl
@[simp] theorem State.setEmpty_escalated (s : State) (a : Nat) : (s.setEmpty a).escalated = s.escalated := rfl

/-! ### cure -/

@[simp] theorem State.cure_actor (s : State) (a n : Nat) : (s.cure a n).actor = s.actor := rfl
@[simp] theorem State.cure_turns (s : State) (a n : Nat) : (s.cure a n).turns = s.turns := rfl
@[simp] theorem State.cure_inputs (s : State) (a n : Nat) : (s.cure a n).inputs = s.inputs := rfl
@[simp] theorem State.cure_upsets (s : State) (a n : Nat) : (s.cure a n).upsets = s.upsets := rfl
@[simp] theorem State.cure_fresh (s : State) (a n : Nat) : (s.cure a n).fresh = s.fresh := rfl
@[simp] theorem State.cure_outbox (s : State) (a n : Nat) : (s.cure a n).outbox = s.outbox := rfl
@[simp] theorem State.cure_clk (s : State) (a n : Nat) : (s.cure a n).clk = s.clk := rfl
@[simp] theorem State.cure_pt (s : State) (a n : Nat) : (s.cure a n).pt = s.pt := rfl
@[simp] theorem State.cure_phase (s : State) (a n : Nat) : (s.cure a n).phase = s.phase := rfl
@[simp] theorem State.cure_mem (s : State) (a n : Nat) : (s.cure a n).mem = s.mem := rfl
@[simp] theorem State.cure_full (s : State) (a n : Nat) : (s.cure a n).full = s.full := rfl
@[simp] theorem State.cure_harts (s : State) (a n : Nat) : (s.cure a n).harts = s.harts := rfl
@[simp] theorem State.cure_cores (s : State) (a n : Nat) : (s.cure a n).cores = s.cores := rfl
@[simp] theorem State.cure_ctxs (s : State) (a n : Nat) : (s.cure a n).ctxs = s.ctxs := rfl
@[simp] theorem State.cure_ccs (s : State) (a n : Nat) : (s.cure a n).ccs = s.ccs := rfl
@[simp] theorem State.cure_clusters (s : State) (a n : Nat) : (s.cure a n).clusters = s.clusters := rfl
@[simp] theorem State.cure_dies (s : State) (a n : Nat) : (s.cure a n).dies = s.dies := rfl
@[simp] theorem State.cure_tabs (s : State) (a n : Nat) : (s.cure a n).tabs = s.tabs := rfl
@[simp] theorem State.cure_queues (s : State) (a n : Nat) : (s.cure a n).queues = s.queues := rfl
@[simp] theorem State.cure_launches (s : State) (a n : Nat) : (s.cure a n).launches = s.launches := rfl
@[simp] theorem State.cure_owed (s : State) (a n : Nat) : (s.cure a n).owed = s.owed := rfl
@[simp] theorem State.cure_reqs (s : State) (a n : Nat) : (s.cure a n).reqs = s.reqs := rfl
@[simp] theorem State.cure_leaves (s : State) (a n : Nat) : (s.cure a n).leaves = s.leaves := rfl
@[simp] theorem State.cure_tables (s : State) (a n : Nat) : (s.cure a n).tables = s.tables := rfl
@[simp] theorem State.cure_walks (s : State) (a n : Nat) : (s.cure a n).walks = s.walks := rfl
@[simp] theorem State.cure_node (s : State) (a n : Nat) : (s.cure a n).node = s.node := rfl
@[simp] theorem State.cure_lease (s : State) (a n : Nat) : (s.cure a n).lease = s.lease := rfl
@[simp] theorem State.cure_leases (s : State) (a n : Nat) : (s.cure a n).leases = s.leases := rfl
@[simp] theorem State.cure_bootStage (s : State) (a n : Nat) : (s.cure a n).bootStage = s.bootStage := rfl
@[simp] theorem State.cure_thermal (s : State) (a n : Nat) : (s.cure a n).thermal = s.thermal := rfl
@[simp] theorem State.cure_powerCap (s : State) (a n : Nat) : (s.cure a n).powerCap = s.powerCap := rfl
@[simp] theorem State.cure_mhz (s : State) (a n : Nat) : (s.cure a n).mhz = s.mhz := rfl
@[simp] theorem State.cure_thr (s : State) (a n : Nat) : (s.cure a n).thr = s.thr := rfl
@[simp] theorem State.cure_pasidBase (s : State) (a n : Nat) : (s.cure a n).pasidBase = s.pasidBase := rfl
@[simp] theorem State.cure_evvec (s : State) (a n : Nat) : (s.cure a n).evvec = s.evvec := rfl
@[simp] theorem State.cure_tcmd (s : State) (a n : Nat) : (s.cure a n).tcmd = s.tcmd := rfl
@[simp] theorem State.cure_tbase (s : State) (a n : Nat) : (s.cure a n).tbase = s.tbase := rfl
@[simp] theorem State.cure_tpages (s : State) (a n : Nat) : (s.cure a n).tpages = s.tpages := rfl
@[simp] theorem State.cure_tstatus (s : State) (a n : Nat) : (s.cure a n).tstatus = s.tstatus := rfl
@[simp] theorem State.cure_tinval (s : State) (a n : Nat) : (s.cure a n).tinval = s.tinval := rfl
@[simp] theorem State.cure_ports (s : State) (a n : Nat) : (s.cure a n).ports = s.ports := rfl
@[simp] theorem State.cure_routes (s : State) (a n : Nat) : (s.cure a n).routes = s.routes := rfl
@[simp] theorem State.cure_fars (s : State) (a n : Nat) : (s.cure a n).fars = s.fars := rfl
@[simp] theorem State.cure_msixOpen (s : State) (a n : Nat) : (s.cure a n).msixOpen = s.msixOpen := rfl
@[simp] theorem State.cure_msixTab (s : State) (a n : Nat) : (s.cure a n).msixTab = s.msixTab := rfl
@[simp] theorem State.cure_msixPend (s : State) (a n : Nat) : (s.cure a n).msixPend = s.msixPend := rfl
@[simp] theorem State.cure_hostHeld (s : State) (a n : Nat) : (s.cure a n).hostHeld = s.hostHeld := rfl
@[simp] theorem State.cure_snoops (s : State) (a n : Nat) : (s.cure a n).snoops = s.snoops := rfl
@[simp] theorem State.cure_spdmAlgs (s : State) (a n : Nat) : (s.cure a n).spdmAlgs = s.spdmAlgs := rfl
@[simp] theorem State.cure_fwPending (s : State) (a n : Nat) : (s.cure a n).fwPending = s.fwPending := rfl
@[simp] theorem State.cure_fwVersion (s : State) (a n : Nat) : (s.cure a n).fwVersion = s.fwVersion := rfl
@[simp] theorem State.cure_haltOnBreak (s : State) (a n : Nat) : (s.cure a n).haltOnBreak = s.haltOnBreak := rfl
@[simp] theorem State.cure_escalated (s : State) (a n : Nat) : (s.cure a n).escalated = s.escalated := rfl

/-! ### draw -/

@[simp] theorem State.draw_actor (s : State) : (s.draw.2).actor = s.actor := rfl
@[simp] theorem State.draw_turns (s : State) : (s.draw.2).turns = s.turns := rfl
@[simp] theorem State.draw_inputs (s : State) : (s.draw.2).inputs = s.inputs := rfl
@[simp] theorem State.draw_upsets (s : State) : (s.draw.2).upsets = s.upsets := rfl
@[simp] theorem State.draw_outbox (s : State) : (s.draw.2).outbox = s.outbox := rfl
@[simp] theorem State.draw_clk (s : State) : (s.draw.2).clk = s.clk := rfl
@[simp] theorem State.draw_pt (s : State) : (s.draw.2).pt = s.pt := rfl
@[simp] theorem State.draw_phase (s : State) : (s.draw.2).phase = s.phase := rfl
@[simp] theorem State.draw_mem (s : State) : (s.draw.2).mem = s.mem := rfl
@[simp] theorem State.draw_full (s : State) : (s.draw.2).full = s.full := rfl
@[simp] theorem State.draw_bad (s : State) : (s.draw.2).bad = s.bad := rfl
@[simp] theorem State.draw_harts (s : State) : (s.draw.2).harts = s.harts := rfl
@[simp] theorem State.draw_cores (s : State) : (s.draw.2).cores = s.cores := rfl
@[simp] theorem State.draw_ctxs (s : State) : (s.draw.2).ctxs = s.ctxs := rfl
@[simp] theorem State.draw_ccs (s : State) : (s.draw.2).ccs = s.ccs := rfl
@[simp] theorem State.draw_clusters (s : State) : (s.draw.2).clusters = s.clusters := rfl
@[simp] theorem State.draw_dies (s : State) : (s.draw.2).dies = s.dies := rfl
@[simp] theorem State.draw_tabs (s : State) : (s.draw.2).tabs = s.tabs := rfl
@[simp] theorem State.draw_queues (s : State) : (s.draw.2).queues = s.queues := rfl
@[simp] theorem State.draw_launches (s : State) : (s.draw.2).launches = s.launches := rfl
@[simp] theorem State.draw_owed (s : State) : (s.draw.2).owed = s.owed := rfl
@[simp] theorem State.draw_reqs (s : State) : (s.draw.2).reqs = s.reqs := rfl
@[simp] theorem State.draw_leaves (s : State) : (s.draw.2).leaves = s.leaves := rfl
@[simp] theorem State.draw_tables (s : State) : (s.draw.2).tables = s.tables := rfl
@[simp] theorem State.draw_walks (s : State) : (s.draw.2).walks = s.walks := rfl
@[simp] theorem State.draw_node (s : State) : (s.draw.2).node = s.node := rfl
@[simp] theorem State.draw_lease (s : State) : (s.draw.2).lease = s.lease := rfl
@[simp] theorem State.draw_leases (s : State) : (s.draw.2).leases = s.leases := rfl
@[simp] theorem State.draw_bootStage (s : State) : (s.draw.2).bootStage = s.bootStage := rfl
@[simp] theorem State.draw_thermal (s : State) : (s.draw.2).thermal = s.thermal := rfl
@[simp] theorem State.draw_powerCap (s : State) : (s.draw.2).powerCap = s.powerCap := rfl
@[simp] theorem State.draw_mhz (s : State) : (s.draw.2).mhz = s.mhz := rfl
@[simp] theorem State.draw_thr (s : State) : (s.draw.2).thr = s.thr := rfl
@[simp] theorem State.draw_pasidBase (s : State) : (s.draw.2).pasidBase = s.pasidBase := rfl
@[simp] theorem State.draw_evvec (s : State) : (s.draw.2).evvec = s.evvec := rfl
@[simp] theorem State.draw_tcmd (s : State) : (s.draw.2).tcmd = s.tcmd := rfl
@[simp] theorem State.draw_tbase (s : State) : (s.draw.2).tbase = s.tbase := rfl
@[simp] theorem State.draw_tpages (s : State) : (s.draw.2).tpages = s.tpages := rfl
@[simp] theorem State.draw_tstatus (s : State) : (s.draw.2).tstatus = s.tstatus := rfl
@[simp] theorem State.draw_tinval (s : State) : (s.draw.2).tinval = s.tinval := rfl
@[simp] theorem State.draw_ports (s : State) : (s.draw.2).ports = s.ports := rfl
@[simp] theorem State.draw_routes (s : State) : (s.draw.2).routes = s.routes := rfl
@[simp] theorem State.draw_fars (s : State) : (s.draw.2).fars = s.fars := rfl
@[simp] theorem State.draw_msixOpen (s : State) : (s.draw.2).msixOpen = s.msixOpen := rfl
@[simp] theorem State.draw_msixTab (s : State) : (s.draw.2).msixTab = s.msixTab := rfl
@[simp] theorem State.draw_msixPend (s : State) : (s.draw.2).msixPend = s.msixPend := rfl
@[simp] theorem State.draw_hostHeld (s : State) : (s.draw.2).hostHeld = s.hostHeld := rfl
@[simp] theorem State.draw_snoops (s : State) : (s.draw.2).snoops = s.snoops := rfl
@[simp] theorem State.draw_spdmAlgs (s : State) : (s.draw.2).spdmAlgs = s.spdmAlgs := rfl
@[simp] theorem State.draw_fwPending (s : State) : (s.draw.2).fwPending = s.fwPending := rfl
@[simp] theorem State.draw_fwVersion (s : State) : (s.draw.2).fwVersion = s.fwVersion := rfl
@[simp] theorem State.draw_haltOnBreak (s : State) : (s.draw.2).haltOnBreak = s.haltOnBreak := rfl
@[simp] theorem State.draw_escalated (s : State) : (s.draw.2).escalated = s.escalated := rfl
@[simp] theorem State.draw_fresh (s : State) : (s.draw.2).fresh = s.fresh + 1 := rfl

/-! ### Records -/

theorem State.setHart_hart (s : State) (e f : Ent) (h : Hart) : (s.setHart e h).hart f = if f = e then h else s.hart f :=
  mget_mput _ _ _ _ _
@[simp] theorem State.setHart_hart_self (s : State) (e : Ent) (h : Hart) : (s.setHart e h).hart e = h := mget_mput_self _ _ _ _
@[simp] theorem State.setCore_hart (s : State) (k c : Nat) (x : LapCore) (f : Ent) : (s.setCore k c x).hart f = s.hart f := rfl
@[simp] theorem State.setCtx_hart (s : State) (k c x : Nat) (v : Ctx) (f : Ent) : (s.setCtx k c x v).hart f = s.hart f := rfl
@[simp] theorem State.setCc_hart (s : State) (k c : Nat) (v : CcState) (f : Ent) : (s.setCc k c v).hart f = s.hart f := rfl
@[simp] theorem State.setCluster_hart (s : State) (k : Nat) (v : Cluster) (f : Ent) : (s.setCluster k v).hart f = s.hart f := rfl
@[simp] theorem State.setDie_hart (s : State) (d : Nat) (v : Die) (f : Ent) : (s.setDie d v).hart f = s.hart f := rfl
@[simp] theorem State.setTab_hart (s : State) (t : TabId) (v : DTab) (f : Ent) : (s.setTab t v).hart f = s.hart f := rfl
@[simp] theorem State.setHq_hart (s : State) (q : Nat) (v : HQueue) (f : Ent) : (s.setHq q v).hart f = s.hart f := rfl
@[simp] theorem State.setLaunch_hart (s : State) (v : Launch) (f : Ent) : (s.setLaunch v).hart f = s.hart f := rfl
@[simp] theorem State.wr_hart (s : State) (a n v : Nat) (f : Ent) : (s.wr a n v).hart f = s.hart f := rfl
@[simp] theorem State.wr64_hart (s : State) (a : Nat) (v : W64) (f : Ent) : (s.wr64 a v).hart f = s.hart f := rfl
@[simp] theorem State.setFull_hart (s : State) (a : Nat) (f : Ent) : (s.setFull a).hart f = s.hart f := rfl
@[simp] theorem State.setEmpty_hart (s : State) (a : Nat) (f : Ent) : (s.setEmpty a).hart f = s.hart f := rfl
@[simp] theorem State.cure_hart (s : State) (a n : Nat) (f : Ent) : (s.cure a n).hart f = s.hart f := rfl
@[simp] theorem State.draw_hart (s : State) (e : Ent) : (s.draw.2).hart e = s.hart e := rfl

@[simp] theorem State.setHart_core (s : State) (e : Ent) (h : Hart) (k2 c2 : Nat) : (s.setHart e h).core k2 c2 = s.core k2 c2 := rfl
theorem State.setCore_core (s : State) (k c k2 c2 : Nat) (x : LapCore) : (s.setCore k c x).core k2 c2 = if (k2, c2) = (k, c) then x else s.core k2 c2 :=
  mget_mput _ _ _ _ _
@[simp] theorem State.setCore_core_self (s : State) (k c : Nat) (x : LapCore) : (s.setCore k c x).core k c = x := mget_mput_self _ _ _ _
@[simp] theorem State.setCtx_core (s : State) (k c x : Nat) (v : Ctx) (k2 c2 : Nat) : (s.setCtx k c x v).core k2 c2 = s.core k2 c2 := rfl
@[simp] theorem State.setCc_core (s : State) (k c : Nat) (v : CcState) (k2 c2 : Nat) : (s.setCc k c v).core k2 c2 = s.core k2 c2 := rfl
@[simp] theorem State.setCluster_core (s : State) (k : Nat) (v : Cluster) (k2 c2 : Nat) : (s.setCluster k v).core k2 c2 = s.core k2 c2 := rfl
@[simp] theorem State.setDie_core (s : State) (d : Nat) (v : Die) (k2 c2 : Nat) : (s.setDie d v).core k2 c2 = s.core k2 c2 := rfl
@[simp] theorem State.setTab_core (s : State) (t : TabId) (v : DTab) (k2 c2 : Nat) : (s.setTab t v).core k2 c2 = s.core k2 c2 := rfl
@[simp] theorem State.setHq_core (s : State) (q : Nat) (v : HQueue) (k2 c2 : Nat) : (s.setHq q v).core k2 c2 = s.core k2 c2 := rfl
@[simp] theorem State.setLaunch_core (s : State) (v : Launch) (k2 c2 : Nat) : (s.setLaunch v).core k2 c2 = s.core k2 c2 := rfl
@[simp] theorem State.wr_core (s : State) (a n v : Nat) (k2 c2 : Nat) : (s.wr a n v).core k2 c2 = s.core k2 c2 := rfl
@[simp] theorem State.wr64_core (s : State) (a : Nat) (v : W64) (k2 c2 : Nat) : (s.wr64 a v).core k2 c2 = s.core k2 c2 := rfl
@[simp] theorem State.setFull_core (s : State) (a : Nat) (k2 c2 : Nat) : (s.setFull a).core k2 c2 = s.core k2 c2 := rfl
@[simp] theorem State.setEmpty_core (s : State) (a : Nat) (k2 c2 : Nat) : (s.setEmpty a).core k2 c2 = s.core k2 c2 := rfl
@[simp] theorem State.cure_core (s : State) (a n : Nat) (k2 c2 : Nat) : (s.cure a n).core k2 c2 = s.core k2 c2 := rfl
@[simp] theorem State.draw_core (s : State) (k c : Nat) : (s.draw.2).core k c = s.core k c := rfl

@[simp] theorem State.setHart_ctx (s : State) (e : Ent) (h : Hart) (k2 c2 x2 : Nat) : (s.setHart e h).ctx k2 c2 x2 = s.ctx k2 c2 x2 := rfl
@[simp] theorem State.setCore_ctx (s : State) (k c : Nat) (x : LapCore) (k2 c2 x2 : Nat) : (s.setCore k c x).ctx k2 c2 x2 = s.ctx k2 c2 x2 := rfl
theorem State.setCtx_ctx (s : State) (k c x k2 c2 x2 : Nat) (v : Ctx) : (s.setCtx k c x v).ctx k2 c2 x2 = if (k2, c2, x2) = (k, c, x) then v else s.ctx k2 c2 x2 :=
  mget_mput _ _ _ _ _
@[simp] theorem State.setCtx_ctx_self (s : State) (k c x : Nat) (v : Ctx) : (s.setCtx k c x v).ctx k c x = v := mget_mput_self _ _ _ _
@[simp] theorem State.setCc_ctx (s : State) (k c : Nat) (v : CcState) (k2 c2 x2 : Nat) : (s.setCc k c v).ctx k2 c2 x2 = s.ctx k2 c2 x2 := rfl
@[simp] theorem State.setCluster_ctx (s : State) (k : Nat) (v : Cluster) (k2 c2 x2 : Nat) : (s.setCluster k v).ctx k2 c2 x2 = s.ctx k2 c2 x2 := rfl
@[simp] theorem State.setDie_ctx (s : State) (d : Nat) (v : Die) (k2 c2 x2 : Nat) : (s.setDie d v).ctx k2 c2 x2 = s.ctx k2 c2 x2 := rfl
@[simp] theorem State.setTab_ctx (s : State) (t : TabId) (v : DTab) (k2 c2 x2 : Nat) : (s.setTab t v).ctx k2 c2 x2 = s.ctx k2 c2 x2 := rfl
@[simp] theorem State.setHq_ctx (s : State) (q : Nat) (v : HQueue) (k2 c2 x2 : Nat) : (s.setHq q v).ctx k2 c2 x2 = s.ctx k2 c2 x2 := rfl
@[simp] theorem State.setLaunch_ctx (s : State) (v : Launch) (k2 c2 x2 : Nat) : (s.setLaunch v).ctx k2 c2 x2 = s.ctx k2 c2 x2 := rfl
@[simp] theorem State.wr_ctx (s : State) (a n v : Nat) (k2 c2 x2 : Nat) : (s.wr a n v).ctx k2 c2 x2 = s.ctx k2 c2 x2 := rfl
@[simp] theorem State.wr64_ctx (s : State) (a : Nat) (v : W64) (k2 c2 x2 : Nat) : (s.wr64 a v).ctx k2 c2 x2 = s.ctx k2 c2 x2 := rfl
@[simp] theorem State.setFull_ctx (s : State) (a : Nat) (k2 c2 x2 : Nat) : (s.setFull a).ctx k2 c2 x2 = s.ctx k2 c2 x2 := rfl
@[simp] theorem State.setEmpty_ctx (s : State) (a : Nat) (k2 c2 x2 : Nat) : (s.setEmpty a).ctx k2 c2 x2 = s.ctx k2 c2 x2 := rfl
@[simp] theorem State.cure_ctx (s : State) (a n : Nat) (k2 c2 x2 : Nat) : (s.cure a n).ctx k2 c2 x2 = s.ctx k2 c2 x2 := rfl
@[simp] theorem State.draw_ctx (s : State) (k c x : Nat) : (s.draw.2).ctx k c x = s.ctx k c x := rfl

@[simp] theorem State.setHart_cc (s : State) (e : Ent) (h : Hart) (k2 c2 : Nat) : (s.setHart e h).cc k2 c2 = s.cc k2 c2 := rfl
@[simp] theorem State.setCore_cc (s : State) (k c : Nat) (x : LapCore) (k2 c2 : Nat) : (s.setCore k c x).cc k2 c2 = s.cc k2 c2 := rfl
@[simp] theorem State.setCtx_cc (s : State) (k c x : Nat) (v : Ctx) (k2 c2 : Nat) : (s.setCtx k c x v).cc k2 c2 = s.cc k2 c2 := rfl
theorem State.setCc_cc (s : State) (k c k2 c2 : Nat) (v : CcState) : (s.setCc k c v).cc k2 c2 = if (k2, c2) = (k, c) then v else s.cc k2 c2 :=
  mget_mput _ _ _ _ _
@[simp] theorem State.setCc_cc_self (s : State) (k c : Nat) (v : CcState) : (s.setCc k c v).cc k c = v := mget_mput_self _ _ _ _
@[simp] theorem State.setCluster_cc (s : State) (k : Nat) (v : Cluster) (k2 c2 : Nat) : (s.setCluster k v).cc k2 c2 = s.cc k2 c2 := rfl
@[simp] theorem State.setDie_cc (s : State) (d : Nat) (v : Die) (k2 c2 : Nat) : (s.setDie d v).cc k2 c2 = s.cc k2 c2 := rfl
@[simp] theorem State.setTab_cc (s : State) (t : TabId) (v : DTab) (k2 c2 : Nat) : (s.setTab t v).cc k2 c2 = s.cc k2 c2 := rfl
@[simp] theorem State.setHq_cc (s : State) (q : Nat) (v : HQueue) (k2 c2 : Nat) : (s.setHq q v).cc k2 c2 = s.cc k2 c2 := rfl
@[simp] theorem State.setLaunch_cc (s : State) (v : Launch) (k2 c2 : Nat) : (s.setLaunch v).cc k2 c2 = s.cc k2 c2 := rfl
@[simp] theorem State.wr_cc (s : State) (a n v : Nat) (k2 c2 : Nat) : (s.wr a n v).cc k2 c2 = s.cc k2 c2 := rfl
@[simp] theorem State.wr64_cc (s : State) (a : Nat) (v : W64) (k2 c2 : Nat) : (s.wr64 a v).cc k2 c2 = s.cc k2 c2 := rfl
@[simp] theorem State.setFull_cc (s : State) (a : Nat) (k2 c2 : Nat) : (s.setFull a).cc k2 c2 = s.cc k2 c2 := rfl
@[simp] theorem State.setEmpty_cc (s : State) (a : Nat) (k2 c2 : Nat) : (s.setEmpty a).cc k2 c2 = s.cc k2 c2 := rfl
@[simp] theorem State.cure_cc (s : State) (a n : Nat) (k2 c2 : Nat) : (s.cure a n).cc k2 c2 = s.cc k2 c2 := rfl
@[simp] theorem State.draw_cc (s : State) (k c : Nat) : (s.draw.2).cc k c = s.cc k c := rfl

@[simp] theorem State.setHart_cluster (s : State) (e : Ent) (h : Hart) (k2 : Nat) : (s.setHart e h).cluster k2 = s.cluster k2 := rfl
@[simp] theorem State.setCore_cluster (s : State) (k c : Nat) (x : LapCore) (k2 : Nat) : (s.setCore k c x).cluster k2 = s.cluster k2 := rfl
@[simp] theorem State.setCtx_cluster (s : State) (k c x : Nat) (v : Ctx) (k2 : Nat) : (s.setCtx k c x v).cluster k2 = s.cluster k2 := rfl
@[simp] theorem State.setCc_cluster (s : State) (k c : Nat) (v : CcState) (k2 : Nat) : (s.setCc k c v).cluster k2 = s.cluster k2 := rfl
theorem State.setCluster_cluster (s : State) (k k2 : Nat) (v : Cluster) : (s.setCluster k v).cluster k2 = if k2 = k then v else s.cluster k2 :=
  mget_mput _ _ _ _ _
@[simp] theorem State.setCluster_cluster_self (s : State) (k : Nat) (v : Cluster) : (s.setCluster k v).cluster k = v := mget_mput_self _ _ _ _
@[simp] theorem State.setDie_cluster (s : State) (d : Nat) (v : Die) (k2 : Nat) : (s.setDie d v).cluster k2 = s.cluster k2 := rfl
@[simp] theorem State.setTab_cluster (s : State) (t : TabId) (v : DTab) (k2 : Nat) : (s.setTab t v).cluster k2 = s.cluster k2 := rfl
@[simp] theorem State.setHq_cluster (s : State) (q : Nat) (v : HQueue) (k2 : Nat) : (s.setHq q v).cluster k2 = s.cluster k2 := rfl
@[simp] theorem State.setLaunch_cluster (s : State) (v : Launch) (k2 : Nat) : (s.setLaunch v).cluster k2 = s.cluster k2 := rfl
@[simp] theorem State.wr_cluster (s : State) (a n v : Nat) (k2 : Nat) : (s.wr a n v).cluster k2 = s.cluster k2 := rfl
@[simp] theorem State.wr64_cluster (s : State) (a : Nat) (v : W64) (k2 : Nat) : (s.wr64 a v).cluster k2 = s.cluster k2 := rfl
@[simp] theorem State.setFull_cluster (s : State) (a : Nat) (k2 : Nat) : (s.setFull a).cluster k2 = s.cluster k2 := rfl
@[simp] theorem State.setEmpty_cluster (s : State) (a : Nat) (k2 : Nat) : (s.setEmpty a).cluster k2 = s.cluster k2 := rfl
@[simp] theorem State.cure_cluster (s : State) (a n : Nat) (k2 : Nat) : (s.cure a n).cluster k2 = s.cluster k2 := rfl
@[simp] theorem State.draw_cluster (s : State) (k : Nat) : (s.draw.2).cluster k = s.cluster k := rfl

@[simp] theorem State.setHart_die (s : State) (e : Ent) (h : Hart) (d2 : Nat) : (s.setHart e h).die d2 = s.die d2 := rfl
@[simp] theorem State.setCore_die (s : State) (k c : Nat) (x : LapCore) (d2 : Nat) : (s.setCore k c x).die d2 = s.die d2 := rfl
@[simp] theorem State.setCtx_die (s : State) (k c x : Nat) (v : Ctx) (d2 : Nat) : (s.setCtx k c x v).die d2 = s.die d2 := rfl
@[simp] theorem State.setCc_die (s : State) (k c : Nat) (v : CcState) (d2 : Nat) : (s.setCc k c v).die d2 = s.die d2 := rfl
@[simp] theorem State.setCluster_die (s : State) (k : Nat) (v : Cluster) (d2 : Nat) : (s.setCluster k v).die d2 = s.die d2 := rfl
theorem State.setDie_die (s : State) (d d2 : Nat) (v : Die) : (s.setDie d v).die d2 = if d2 = d then v else s.die d2 :=
  mget_mput _ _ _ _ _
@[simp] theorem State.setDie_die_self (s : State) (d : Nat) (v : Die) : (s.setDie d v).die d = v := mget_mput_self _ _ _ _
@[simp] theorem State.setTab_die (s : State) (t : TabId) (v : DTab) (d2 : Nat) : (s.setTab t v).die d2 = s.die d2 := rfl
@[simp] theorem State.setHq_die (s : State) (q : Nat) (v : HQueue) (d2 : Nat) : (s.setHq q v).die d2 = s.die d2 := rfl
@[simp] theorem State.setLaunch_die (s : State) (v : Launch) (d2 : Nat) : (s.setLaunch v).die d2 = s.die d2 := rfl
@[simp] theorem State.wr_die (s : State) (a n v : Nat) (d2 : Nat) : (s.wr a n v).die d2 = s.die d2 := rfl
@[simp] theorem State.wr64_die (s : State) (a : Nat) (v : W64) (d2 : Nat) : (s.wr64 a v).die d2 = s.die d2 := rfl
@[simp] theorem State.setFull_die (s : State) (a : Nat) (d2 : Nat) : (s.setFull a).die d2 = s.die d2 := rfl
@[simp] theorem State.setEmpty_die (s : State) (a : Nat) (d2 : Nat) : (s.setEmpty a).die d2 = s.die d2 := rfl
@[simp] theorem State.cure_die (s : State) (a n : Nat) (d2 : Nat) : (s.cure a n).die d2 = s.die d2 := rfl
@[simp] theorem State.draw_die (s : State) (d : Nat) : (s.draw.2).die d = s.die d := rfl

@[simp] theorem State.setHart_tab (s : State) (e : Ent) (h : Hart) (t2 : TabId) : (s.setHart e h).tab t2 = s.tab t2 := rfl
@[simp] theorem State.setCore_tab (s : State) (k c : Nat) (x : LapCore) (t2 : TabId) : (s.setCore k c x).tab t2 = s.tab t2 := rfl
@[simp] theorem State.setCtx_tab (s : State) (k c x : Nat) (v : Ctx) (t2 : TabId) : (s.setCtx k c x v).tab t2 = s.tab t2 := rfl
@[simp] theorem State.setCc_tab (s : State) (k c : Nat) (v : CcState) (t2 : TabId) : (s.setCc k c v).tab t2 = s.tab t2 := rfl
@[simp] theorem State.setCluster_tab (s : State) (k : Nat) (v : Cluster) (t2 : TabId) : (s.setCluster k v).tab t2 = s.tab t2 := rfl
@[simp] theorem State.setDie_tab (s : State) (d : Nat) (v : Die) (t2 : TabId) : (s.setDie d v).tab t2 = s.tab t2 := rfl
theorem State.setTab_tab (s : State) (t t2 : TabId) (v : DTab) : (s.setTab t v).tab t2 = if t2 = t then v else s.tab t2 :=
  mget_mput _ _ _ _ _
@[simp] theorem State.setTab_tab_self (s : State) (t : TabId) (v : DTab) : (s.setTab t v).tab t = v := mget_mput_self _ _ _ _
@[simp] theorem State.setHq_tab (s : State) (q : Nat) (v : HQueue) (t2 : TabId) : (s.setHq q v).tab t2 = s.tab t2 := rfl
@[simp] theorem State.setLaunch_tab (s : State) (v : Launch) (t2 : TabId) : (s.setLaunch v).tab t2 = s.tab t2 := rfl
@[simp] theorem State.wr_tab (s : State) (a n v : Nat) (t2 : TabId) : (s.wr a n v).tab t2 = s.tab t2 := rfl
@[simp] theorem State.wr64_tab (s : State) (a : Nat) (v : W64) (t2 : TabId) : (s.wr64 a v).tab t2 = s.tab t2 := rfl
@[simp] theorem State.setFull_tab (s : State) (a : Nat) (t2 : TabId) : (s.setFull a).tab t2 = s.tab t2 := rfl
@[simp] theorem State.setEmpty_tab (s : State) (a : Nat) (t2 : TabId) : (s.setEmpty a).tab t2 = s.tab t2 := rfl
@[simp] theorem State.cure_tab (s : State) (a n : Nat) (t2 : TabId) : (s.cure a n).tab t2 = s.tab t2 := rfl
@[simp] theorem State.draw_tab (s : State) (t : TabId) : (s.draw.2).tab t = s.tab t := rfl

@[simp] theorem State.setHart_hq (s : State) (e : Ent) (h : Hart) (q2 : Nat) : (s.setHart e h).hq q2 = s.hq q2 := rfl
@[simp] theorem State.setCore_hq (s : State) (k c : Nat) (x : LapCore) (q2 : Nat) : (s.setCore k c x).hq q2 = s.hq q2 := rfl
@[simp] theorem State.setCtx_hq (s : State) (k c x : Nat) (v : Ctx) (q2 : Nat) : (s.setCtx k c x v).hq q2 = s.hq q2 := rfl
@[simp] theorem State.setCc_hq (s : State) (k c : Nat) (v : CcState) (q2 : Nat) : (s.setCc k c v).hq q2 = s.hq q2 := rfl
@[simp] theorem State.setCluster_hq (s : State) (k : Nat) (v : Cluster) (q2 : Nat) : (s.setCluster k v).hq q2 = s.hq q2 := rfl
@[simp] theorem State.setDie_hq (s : State) (d : Nat) (v : Die) (q2 : Nat) : (s.setDie d v).hq q2 = s.hq q2 := rfl
@[simp] theorem State.setTab_hq (s : State) (t : TabId) (v : DTab) (q2 : Nat) : (s.setTab t v).hq q2 = s.hq q2 := rfl
theorem State.setHq_hq (s : State) (q q2 : Nat) (v : HQueue) : (s.setHq q v).hq q2 = if q2 = q then v else s.hq q2 :=
  mget_mput _ _ _ _ _
@[simp] theorem State.setHq_hq_self (s : State) (q : Nat) (v : HQueue) : (s.setHq q v).hq q = v := mget_mput_self _ _ _ _
@[simp] theorem State.setLaunch_hq (s : State) (v : Launch) (q2 : Nat) : (s.setLaunch v).hq q2 = s.hq q2 := rfl
@[simp] theorem State.wr_hq (s : State) (a n v : Nat) (q2 : Nat) : (s.wr a n v).hq q2 = s.hq q2 := rfl
@[simp] theorem State.wr64_hq (s : State) (a : Nat) (v : W64) (q2 : Nat) : (s.wr64 a v).hq q2 = s.hq q2 := rfl
@[simp] theorem State.setFull_hq (s : State) (a : Nat) (q2 : Nat) : (s.setFull a).hq q2 = s.hq q2 := rfl
@[simp] theorem State.setEmpty_hq (s : State) (a : Nat) (q2 : Nat) : (s.setEmpty a).hq q2 = s.hq q2 := rfl
@[simp] theorem State.cure_hq (s : State) (a n : Nat) (q2 : Nat) : (s.cure a n).hq q2 = s.hq q2 := rfl
@[simp] theorem State.draw_hq (s : State) (q : Nat) : (s.draw.2).hq q = s.hq q := rfl

theorem State.setHart_hart_ne (s : State) {e f : Ent} (h : Hart) (hf : f ≠ e) : (s.setHart e h).hart f = s.hart f := by
  rw [State.setHart_hart, if_neg hf]

end Sys2Proof.Machine
end

