-- ==== Sys2Proof/Laws/Lap.lean ====
section
/-! SUPPORT. What the shared operations of a lap word do: the frame it runs in, its pops, its write, and how the thread goes on. -/

namespace Sys2Proof

open Sys2Proof.Machine

/-- A word that issues and executes does what its body says of the state after the pops. -/
theorem runLap_of_issues {i : Instr} {e : Ent} {s s₁ : State} {vals : List (LSpec × W64)} (h : Issues i e s vals s₁)
    (body : (LSpec → W64) → State → Act) :
    runLap i s body = .next (finish i e s (body (readSpec s e vals) s₁)) := by
  obtain ⟨rfl, h2, h3, h4, h5, h6⟩ := h
  simp only [runLap, h2, h3, h4, h5, h6, if_true]

/-- A word whose guard does not execute only moves the thread past it. -/
theorem runLap_guardOff {i : Instr} {s : State} (body : (LSpec → W64) → State → Act) (h : entIsHart s.actor = true)
    (hc : lapCheck i s.actor s = none) (hg : guardHolds (s.hart s.actor) (lapGuard i) = false) :
    runLap i s body = .next (s.goOn s.actor (nextPc s s.actor i)) := by
  simp [runLap, h, hc, hg]

/-- A word that fails a check raises its fault. -/
theorem runLap_check {i : Instr} {s : State} {t : Trap} (body : (LSpec → W64) → State → Act) (h : entIsHart s.actor = true)
    (hc : lapCheck i s.actor s = some t) :
    runLap i s body = .next (s.takeTrap s.actor t (s.hart s.actor).pc (insnWord i)) := by
  simp [runLap, h, hc]

/-- A lap word of a hart always goes on to a state. -/
theorem runLap_next {i : Instr} {s : State} (body : (LSpec → W64) → State → Act) (h : entIsHart s.actor = true) :
    ∃ t, runLap i s body = .next t := by
  simp only [runLap, h, if_true]
  split
  · exact ⟨_, rfl⟩
  · split
    · split
      · exact ⟨_, rfl⟩
      · exact ⟨_, rfl⟩
      · split
        · split <;> exact ⟨_, rfl⟩
        · exact ⟨_, rfl⟩
    · exact ⟨_, rfl⟩

/-! ### Pops -/

/-- A relation that holds over each pop holds over all pops of a word. -/
theorem popAll_induct {e : Ent} {R : State → State → Prop} (refl : ∀ s, R s s) (trans : ∀ {a b c}, R a b → R b c → R a c)
    (one : ∀ r vals s vals' s', popOne e r vals s = .ok vals' s' → R s s') :
    ∀ rs vals s vals' s', popAll e rs vals s = .ok vals' s' → R s s' := by
  intro rs
  induction rs with
  | nil => intro vals s vals' s' h; simp only [popAll, PopRes.ok.injEq] at h; rw [← h.2]; exact refl _
  | cons r t ih =>
    intro vals s vals' s' h
    simp only [popAll] at h
    split at h
    · rename_i v s'' h1
      exact trans (one _ _ _ _ _ h1) (ih _ _ _ _ h)
    · rename_i h1; simp_all

/-- What one pop is: nothing, a word of a neighbour's link, a word of the inbox, or a word of dq. -/
inductive PopStep (e : Ent) (s : State) : State → Prop where
  | same : PopStep e s s
  | link (k n : Nat) (d : Dir) (l : Link) : PopStep e s (s.setCore k n ((s.core k n).setLink d l))
  | inbox (k c t : Nat) (x : List InMsg) (h : e = .lap k c t) : PopStep e s (s.setCore k c { s.core k c with inbox := x })
  | header (k c t : Nat) (x : List InMsg) (sc : Scope) (h : e = .lap k c t) :
      PopStep e s ((s.setCore k c { s.core k c with inbox := x }).acquire e sc)
  | dq (q : List DqEnt) : PopStep e s (s.setHart e { s.hart e with dq := q })

theorem popOne_step {e : Ent} {r : LSpec} {vals vals' : List (LSpec × W64)} {s s' : State}
    (h : popOne e r vals s = .ok vals' s') : PopStep e s s' := by
  simp only [popOne] at h
  split at h
  · simp only [PopRes.ok.injEq] at h; rw [← h.2]; exact .same
  · split at h
    · split at h
      · simp only [PopRes.ok.injEq] at h; rw [← h.2]; exact .link _ _ _ _
      · cases h
    · split at h
      · cases h
      · simp only [PopRes.ok.injEq] at h
        rw [← h.2]
        split
        · exact .header _ _ _ _ _ rfl
        · exact .inbox _ _ _ _ rfl
    · split at h
      · split at h <;> cases h
      · simp only [PopRes.ok.injEq] at h; rw [← h.2]; exact .dq _
      · cases h
      · cases h
      · cases h
    · simp only [PopRes.ok.injEq] at h; rw [← h.2]; exact .same

/-! ### Acquires -/

theorem HartKeeps.refl (d : Option LSpec) (h : Hart) : HartKeeps d h h :=
  ⟨fun _ _ => rfl, fun _ _ => rfl, fun _ _ => rfl, rfl, rfl, ⟨rfl, rfl⟩, fun _ => rfl, ⟨rfl, rfl, rfl, rfl⟩⟩

theorem HartKeeps.trans {d : Option LSpec} {a b c : Hart} (x : HartKeeps d a b) (y : HartKeeps d b c) : HartKeeps d a c :=
  ⟨fun n h => (y.win n h).trans (x.win n h), fun n h => (y.shadow n h).trans (x.shadow n h),
   fun n h => (y.pred n h).trans (x.pred n h), y.flg.trans x.flg, y.tr.trans x.tr,
   ⟨y.window.1.trans x.window.1, y.window.2.trans x.window.2⟩, fun h => (y.aq h).trans (x.aq h),
   ⟨y.marks.1.trans x.marks.1, y.marks.2.1.trans x.marks.2.1, y.marks.2.2.1.trans x.marks.2.2.1,
    y.marks.2.2.2.trans x.marks.2.2.2⟩⟩

theorem HartKeeps.weaken {d : Option LSpec} {a b : Hart} (x : HartKeeps none a b) : HartKeeps d a b :=
  ⟨fun n _ => x.win n nofun, fun n _ => x.shadow n nofun, fun n _ => x.pred n nofun, x.flg, x.tr, x.window,
   fun _ => x.aq nofun, x.marks⟩

theorem CoreKeeps.refl (c : LapCore) : CoreKeeps c c := ⟨rfl, rfl, ⟨rfl, rfl, rfl⟩, ⟨rfl, rfl⟩⟩

theorem CoreKeeps.trans {a b c : LapCore} (x : CoreKeeps a b) (y : CoreKeeps b c) : CoreKeeps a c :=
  ⟨y.sled.trans x.sled, y.trig.trans x.trig,
   ⟨y.toks.1.trans x.toks.1, y.toks.2.1.trans x.toks.2.1, y.toks.2.2.trans x.toks.2.2⟩,
   ⟨y.dog.1.trans x.dog.1, y.dog.2.trans x.dog.2⟩⟩

theorem ClusterKeeps.refl (c : Cluster) : ClusterKeeps c c :=
  ⟨rfl, ⟨rfl, rfl, rfl, rfl⟩, ⟨rfl, rfl⟩, rfl, rfl, rfl, rfl⟩

theorem ClusterKeeps.trans {a b c : Cluster} (x : ClusterKeeps a b) (y : ClusterKeeps b c) : ClusterKeeps a c :=
  ⟨y.launch.trans x.launch,
   ⟨y.regs.1.trans x.regs.1, y.regs.2.1.trans x.regs.2.1, y.regs.2.2.1.trans x.regs.2.2.1, y.regs.2.2.2.trans x.regs.2.2.2⟩,
   ⟨y.latch.1.trans x.latch.1, y.latch.2.trans x.latch.2⟩, y.tiles.trans x.tiles, y.bumps.trans x.bumps,
   y.shapes.trans x.shapes, y.ce.trans x.ce⟩

theorem OnlyWrites.refl (e : Ent) (d : Option LSpec) (s : State) : OnlyWrites e d s s :=
  ⟨.refl _ _, fun _ _ => rfl, fun _ => rfl, ⟨rfl, rfl⟩, fun _ _ => .refl _, fun _ => .refl _, fun _ _ _ => rfl, fun _ _ => rfl,
   fun _ => rfl, fun _ => rfl, fun _ => rfl, rfl, rfl, ⟨rfl, rfl⟩⟩

theorem OnlyWrites.trans {e : Ent} {d : Option LSpec} {a b c : State} (x : OnlyWrites e d a b) (y : OnlyWrites e d b c) :
    OnlyWrites e d a c :=
  ⟨x.hart.trans y.hart, fun f h => (y.others f h).trans (x.others f h), fun n => (y.mem n).trans (x.mem n),
   ⟨y.full.1.trans x.full.1, y.full.2.trans x.full.2⟩, fun k n => (x.cores k n).trans (y.cores k n),
   fun k => (x.clusters k).trans (y.clusters k), fun k n m => (y.ctxs k n m).trans (x.ctxs k n m),
   fun k n => (y.ccs k n).trans (x.ccs k n), fun n => (y.dies n).trans (x.dies n), fun n => (y.tabs n).trans (x.tabs n),
   fun n => (y.queues n).trans (x.queues n), y.launches.trans x.launches, y.reqs.trans x.reqs,
   ⟨y.time.1.trans x.time.1, y.time.2.trans x.time.2⟩⟩

theorem OnlyWrites.weaken {e : Ent} {d : Option LSpec} {a b : State} (x : OnlyWrites e none a b) : OnlyWrites e d a b :=
  ⟨x.hart.weaken, x.others, x.mem, x.full, x.cores, x.clusters, x.ctxs, x.ccs, x.dies, x.tabs, x.queues, x.launches, x.reqs,
   x.time⟩

/-- A core written with the same sled, triggers, tokens and watchdog changes no more than its links and inbox. -/
theorem onlyWrites_setCore (e : Ent) (d : Option LSpec) (s : State) (k c : Nat) {x : LapCore} (h : CoreKeeps (s.core k c) x) :
    OnlyWrites e d s (s.setCore k c x) := by
  refine ⟨.refl _ _, fun _ _ => rfl, fun _ => rfl, ⟨rfl, rfl⟩, ?_, fun _ => .refl _, fun _ _ _ => rfl, fun _ _ => rfl,
    fun _ => rfl, fun _ => rfl, fun _ => rfl, rfl, rfl, ⟨rfl, rfl⟩⟩
  intro k2 c2
  rw [State.setCore_core]
  split
  · rename_i hk; simp only [Prod.mk.injEq] at hk; obtain ⟨rfl, rfl⟩ := hk; exact h
  · exact .refl _

theorem onlyWrites_setCluster (e : Ent) (d : Option LSpec) (s : State) (k : Nat) {x : Cluster} (h : ClusterKeeps (s.cluster k) x) :
    OnlyWrites e d s (s.setCluster k x) := by
  refine ⟨.refl _ _, fun _ _ => rfl, fun _ => rfl, ⟨rfl, rfl⟩, fun _ _ => .refl _, ?_, fun _ _ _ => rfl, fun _ _ => rfl,
    fun _ => rfl, fun _ => rfl, fun _ => rfl, rfl, rfl, ⟨rfl, rfl⟩⟩
  intro k2
  rw [State.setCluster_cluster]
  split
  · rename_i hk; subst hk; exact h
  · exact .refl _

theorem onlyWrites_setHart {e : Ent} {d : Option LSpec} {s : State} {x : Hart} (h : HartKeeps d (s.hart e) x) :
    OnlyWrites e d s (s.setHart e x) := by
  refine ⟨?_, fun f hf => s.setHart_hart_ne x hf, fun _ => rfl, ⟨rfl, rfl⟩, fun _ _ => .refl _, fun _ => .refl _,
    fun _ _ _ => rfl, fun _ _ => rfl, fun _ => rfl, fun _ => rfl, fun _ => rfl, rfl, rfl, ⟨rfl, rfl⟩⟩
  rw [State.setHart_hart_self]; exact h

/-- An acquire changes no more than what a cluster's cache holds. -/
theorem onlyWrites_acquire (e : Ent) (d : Option LSpec) (s : State) (f : Ent) (sc : Scope) : OnlyWrites e d s (s.acquire f sc) := by
  simp only [State.acquire]
  split
  · simp only [State.acquireAt]
    split
    · exact onlyWrites_setCluster e d s _ ⟨rfl, ⟨rfl, rfl, rfl, rfl⟩, ⟨rfl, rfl⟩, rfl, rfl, rfl, rfl⟩
    · exact .refl _ _ _
  · exact .refl _ _ _

@[simp] theorem State.acquire_actor (s : State) (f : Ent) (sc : Scope) : (s.acquire f sc).actor = s.actor := by
  simp only [State.acquire]; split
  · simp only [State.acquireAt]; split <;> rfl
  · rfl

@[simp] theorem State.acquire_hart (s : State) (f : Ent) (sc : Scope) (g : Ent) : (s.acquire f sc).hart g = s.hart g := by
  simp only [State.acquire]; split
  · simp only [State.acquireAt]; split <;> rfl
  · rfl

@[simp] theorem State.acquire_fresh (s : State) (f : Ent) (sc : Scope) : (s.acquire f sc).fresh = s.fresh := by
  simp only [State.acquire]; split
  · simp only [State.acquireAt]; split <;> rfl
  · rfl

/-! ### What the pops of a word leave -/

theorem PopStep.onlyWrites {e : Ent} {s s' : State} (h : PopStep e s s') : OnlyWrites e none s s' := by
  cases h with
  | same => exact .refl _ _ _
  | link k n d l => exact onlyWrites_setCore e none s k n (by cases d <;> exact ⟨rfl, rfl, ⟨rfl, rfl, rfl⟩, ⟨rfl, rfl⟩⟩)
  | inbox k c t x h => exact onlyWrites_setCore e none s k c ⟨rfl, rfl, ⟨rfl, rfl, rfl⟩, ⟨rfl, rfl⟩⟩
  | header k c t x sc h =>
    refine OnlyWrites.trans (b := s.setCore k c { s.core k c with inbox := x }) ?_ (onlyWrites_acquire _ _ _ _ _)
    exact onlyWrites_setCore e none s k c ⟨rfl, rfl, ⟨rfl, rfl, rfl⟩, ⟨rfl, rfl⟩⟩
  | dq q => exact onlyWrites_setHart ⟨fun _ _ => rfl, fun _ _ => rfl, fun _ _ => rfl, rfl, rfl, ⟨rfl, rfl⟩, fun _ => rfl, ⟨rfl, rfl, rfl, rfl⟩⟩

/-- The pops of a word leave who issues, the free-value counter, and its hart but for dq. -/
structure PopsLeave (e : Ent) (s s' : State) : Prop where
  actor : s'.actor = s.actor
  fresh : s'.fresh = s.fresh
  hart : ∃ q, s'.hart e = { s.hart e with dq := q }
  only : OnlyWrites e none s s'

theorem PopStep.leave {e : Ent} {s s' : State} (h : PopStep e s s') : PopsLeave e s s' := by
  refine ⟨?_, ?_, ?_, h.onlyWrites⟩
  · cases h <;> simp
  · cases h <;> simp
  · cases h with
    | same => exact ⟨_, rfl⟩
    | link k n d l => exact ⟨(s.hart e).dq, rfl⟩
    | inbox k c t x h => exact ⟨(s.hart e).dq, rfl⟩
    | header k c t x sc h => exact ⟨(s.hart e).dq, by simp⟩
    | dq q => exact ⟨q, by simp⟩

theorem PopsLeave.trans {e : Ent} {a b c : State} (x : PopsLeave e a b) (y : PopsLeave e b c) : PopsLeave e a c := by
  obtain ⟨q, hq⟩ := x.hart
  obtain ⟨r, hr⟩ := y.hart
  exact ⟨y.actor.trans x.actor, y.fresh.trans x.fresh, ⟨r, by rw [hr, hq]⟩, x.only.trans y.only⟩

theorem PopsLeave.refl (e : Ent) (s : State) : PopsLeave e s s := ⟨rfl, rfl, ⟨_, rfl⟩, .refl _ _ _⟩

theorem popAll_leaves {e : Ent} {rs : List LSpec} {vals vals' : List (LSpec × W64)} {s s' : State}
    (h : popAll e rs vals s = .ok vals' s') : PopsLeave e s s' :=
  popAll_induct (R := PopsLeave e) (fun s => .refl e s) (fun x y => x.trans y) (fun _ _ _ _ _ h => (popOne_step h).leave)
    _ _ _ _ _ h

theorem Issues.leaves {i : Instr} {e : Ent} {s s₁ : State} {vals : List (LSpec × W64)} (h : Issues i e s vals s₁) :
    PopsLeave e s s₁ := popAll_leaves h.pops

theorem Issues.actor₁ {i : Instr} {e : Ent} {s s₁ : State} {vals : List (LSpec × W64)} (h : Issues i e s vals s₁) :
    s₁.actor = e := h.leaves.actor.trans h.actor

/-! ### The write and the way on -/

/-- A write to a destination that is no push changes no more than that register. -/
theorem onlyWrites_writeSpec (e : Ent) (d : LSpec) (s : State) (v : W64) : OnlyWrites e (some d) s (s.writeSpec e d v) := by
  cases d with
  | s n =>
    refine onlyWrites_setHart ⟨fun m hm => ?_, fun _ _ => rfl, fun _ _ => rfl, rfl, rfl, ⟨rfl, rfl⟩, fun _ => rfl, ⟨rfl, rfl, rfl, rfl⟩⟩
    have hne : n.toNat ≠ m.toNat := by
      intro he; exact hm (by rw [BitVec.eq_of_toNat_eq he])
    simp [hne]
  | h n =>
    refine onlyWrites_setHart ⟨fun _ _ => rfl, fun m hm => ?_, fun _ _ => rfl, rfl, rfl, ⟨rfl, rfl⟩, fun _ => rfl, ⟨rfl, rfl, rfl, rfl⟩⟩
    have hne : n.toNat ≠ m.toNat := by
      intro he; exact hm (by rw [BitVec.eq_of_toNat_eq he])
    simp [hne]
  | p n =>
    refine onlyWrites_setHart ⟨fun _ _ => rfl, fun _ _ => rfl, fun m hm => ?_, rfl, rfl, ⟨rfl, rfl⟩, fun _ => rfl, ⟨rfl, rfl, rfl, rfl⟩⟩
    have hne : n.val ≠ m.val := by
      intro he; exact hm (by rw [Fin.ext he])
    simp [hne]
  | port r =>
    cases e with
    | lap k c t => exact onlyWrites_setCore _ _ _ _ _ (by cases r <;> exact ⟨rfl, rfl, ⟨rfl, rfl, rfl⟩, ⟨rfl, rfl⟩⟩)
    | _ => exact .refl _ _ _
  | aq =>
    refine OnlyWrites.trans (b := s.draw.2) ?_ (onlyWrites_setHart ?_)
    · exact ⟨.refl _ _, fun _ _ => rfl, fun _ => rfl, ⟨rfl, rfl⟩, fun _ _ => .refl _, fun _ => .refl _, fun _ _ _ => rfl,
        fun _ _ => rfl, fun _ => rfl, fun _ => rfl, fun _ => rfl, rfl, rfl, ⟨rfl, rfl⟩⟩
    · exact ⟨fun _ _ => rfl, fun _ _ => rfl, fun _ _ => rfl, rfl, rfl, ⟨rfl, rfl⟩, fun h => absurd rfl h, ⟨rfl, rfl, rfl, rfl⟩⟩
  | _ => exact .refl _ _ _

/-- A write leaves where its thread stands. -/
theorem writeSpec_hart_stand (e : Ent) (d : LSpec) (s : State) (v : W64) :
    (((s.writeSpec e d v).hart e).late = (s.hart e).late ∧ ((s.writeSpec e d v).hart e).stall = (s.hart e).stall) ∧ ((s.writeSpec e d v).hart e).pc = (s.hart e).pc ∧
      ((s.writeSpec e d v).hart e).rot = (s.hart e).rot ∧ ((s.writeSpec e d v).hart e).pend = (s.hart e).pend ∧
      ((s.writeSpec e d v).hart e).flg = (s.hart e).flg ∧ ((s.writeSpec e d v).hart e).tr = (s.hart e).tr := by
  cases d with
  | port r => cases e <;> simp [State.writeSpec]
  | _ => simp [State.writeSpec]

/-- A thread with no fault that falls due at its boundary goes on at the address. -/
theorem goOn_eq {s : State} {e : Ent} (pc : W64) (h : NoneDue (s.hart e)) :
    s.goOn e pc = s.setHart e { Hart.settled (s.hart e) with pc := pc } := by
  simp [State.goOn, State.boundary, Hart.settled, h.1, h.2]

theorem onlyWrites_goOn {s : State} {e : Ent} (d : Option LSpec) (pc : W64) (h : NoneDue (s.hart e)) :
    OnlyWrites e d s (s.goOn e pc) := by
  rw [goOn_eq pc h]
  exact onlyWrites_setHart ⟨fun _ _ => rfl, fun _ _ => rfl, fun _ _ => rfl, rfl, rfl, ⟨rfl, rfl⟩, fun _ => rfl, ⟨rfl, rfl, rfl, rfl⟩⟩

/-- A word that writes one register and goes on changes no more than that register. -/
theorem Issues.onlyWrites {i : Instr} {e : Ent} {s s₁ : State} {vals : List (LSpec × W64)} (h : Issues i e s vals s₁)
    (hl : NoneDue (s.hart e)) (d : LSpec) (v pc : W64) :
    OnlyWrites e (some d) s ((s₁.writeSpec e d v).goOn e pc) := by
  obtain ⟨q, hq⟩ := h.leaves.hart
  refine (h.leaves.only.weaken.trans (onlyWrites_writeSpec e d s₁ v)).trans (onlyWrites_goOn _ _ ?_)
  exact ⟨by rw [(writeSpec_hart_stand e d s₁ v).1.1, hq]; exact hl.1, by rw [(writeSpec_hart_stand e d s₁ v).1.2, hq]; exact hl.2⟩

/-! ### Sources -/

/-- A register that no read pops. -/
def LSpec.isPlain : LSpec → Bool
  | .port _ | .mb | .dq => false
  | _ => true

theorem popOne_keys {e : Ent} {r : LSpec} {vals vals' : List (LSpec × W64)} {s s' : State}
    (h : popOne e r vals s = .ok vals' s') (hv : ∀ x ∈ vals, LSpec.isPlain x.1 = false) :
    ∀ x ∈ vals', LSpec.isPlain x.1 = false := by
  simp only [popOne] at h
  split at h
  · simp only [PopRes.ok.injEq] at h; rw [← h.1]; exact hv
  · split at h
    · split at h
      · simp only [PopRes.ok.injEq] at h; rw [← h.1]
        intro x hx; rcases List.mem_cons.1 hx with rfl | hx
        · rfl
        · exact hv x hx
      · cases h
    · split at h
      · cases h
      · simp only [PopRes.ok.injEq] at h; rw [← h.1]
        intro x hx; rcases List.mem_cons.1 hx with rfl | hx
        · rfl
        · exact hv x hx
    · split at h
      · split at h <;> cases h
      · simp only [PopRes.ok.injEq] at h; rw [← h.1]
        intro x hx; rcases List.mem_cons.1 hx with rfl | hx
        · rfl
        · exact hv x hx
      · cases h
      · cases h
      · cases h
    · simp only [PopRes.ok.injEq] at h; rw [← h.1]; exact hv

theorem popAll_keys {e : Ent} : ∀ (rs : List LSpec) (vals : List (LSpec × W64)) (s : State) (vals' : List (LSpec × W64))
    (s' : State), popAll e rs vals s = .ok vals' s' → (∀ x ∈ vals, LSpec.isPlain x.1 = false) →
    ∀ x ∈ vals', LSpec.isPlain x.1 = false := by
  intro rs
  induction rs with
  | nil => intro vals s vals' s' h hv; simp only [popAll, PopRes.ok.injEq] at h; rw [← h.1]; exact hv
  | cons r t ih =>
    intro vals s vals' s' h hv
    simp only [popAll] at h
    split at h
    · rename_i v s'' h1
      exact ih _ _ _ _ h (popOne_keys h1 hv)
    · rename_i h1; simp_all

/-- A register that no read pops is read from the state. -/
theorem Issues.src_plain {i : Instr} {e : Ent} {s s₁ : State} {vals : List (LSpec × W64)} (h : Issues i e s vals s₁) {r : LSpec}
    (hr : LSpec.isPlain r = true) : src s e vals r = s.reg e r := by
  have hk := popAll_keys _ _ _ _ _ h.pops (by simp)
  have : vals.find? (fun v => v.1 = r) = none := by
    rw [List.find?_eq_none]
    intro x hx hxr
    have := hk x hx
    simp only [decide_eq_true_eq] at hxr
    rw [hxr, hr] at this; cases this
  simp [src, readSpec, this]

end Sys2Proof
end

