-- ==== Sys2Proof/Laws/Arms.lean ====
section
/-! SUPPORT. Every lap word's arm of exec is its body run in the one frame of a lap word. -/

namespace Sys2Proof

open Sys2Proof.Machine

/-- A lap word's arm. -/
theorem exec_runLap (i : Instr) (h : isLapWord i = true) : ∃ body, ∀ s, exec i s = runLap i s body := by
  cases i
  · apply Exists.intro; intro s; simp only [exec, execNop]; exact rfl
  · apply Exists.intro; intro s; simp only [exec, execBr]; exact rfl
  · apply Exists.intro; intro s; simp only [exec, execJmp]; exact rfl
  · apply Exists.intro; intro s; simp only [exec, execCall]; exact rfl
  · apply Exists.intro; intro s; simp only [exec, execRet]; exact rfl
  · apply Exists.intro; intro s; simp only [exec, execLoop]; exact rfl
  · apply Exists.intro; intro s; simp only [exec, execHalt]; exact rfl
  · apply Exists.intro; intro s; simp only [exec, execTrap]; exact rfl
  · apply Exists.intro; intro s; simp only [exec, execHret]; exact rfl
  · apply Exists.intro; intro s; simp only [exec, execScall]; exact rfl
  · apply Exists.intro; intro s; simp only [exec, execSrrd]; exact rfl
  · apply Exists.intro; intro s; simp only [exec, execSrwr]; exact rfl
  · apply Exists.intro; intro s; simp only [exec, execFlgrd]; exact rfl
  · apply Exists.intro; intro s; simp only [exec, execFlgclr]; exact rfl
  · apply Exists.intro; intro s; simp only [exec, execBkpt]; exact rfl
  · apply Exists.intro; intro s; simp only [exec, execModeset]; exact rfl
  · apply Exists.intro; intro s; simp only [exec, execAdd, aluOp]; exact rfl
  · apply Exists.intro; intro s; simp only [exec, execSub, aluOp]; exact rfl
  · apply Exists.intro; intro s; simp only [exec, execMul, aluOp]; exact rfl
  · apply Exists.intro; intro s; simp only [exec, execMulh, aluOp]; exact rfl
  · apply Exists.intro; intro s; simp only [exec, execMulhn, aluOp]; exact rfl
  · apply Exists.intro; intro s; simp only [exec, execDiv, divOp]; exact rfl
  · apply Exists.intro; intro s; simp only [exec, execDivn, divOp]; exact rfl
  · apply Exists.intro; intro s; simp only [exec, execRem, divOp]; exact rfl
  · apply Exists.intro; intro s; simp only [exec, execRemn, divOp]; exact rfl
  · apply Exists.intro; intro s; simp only [exec, execNeg, aluOp1]; exact rfl
  · apply Exists.intro; intro s; simp only [exec, execAbs, aluOp1]; exact rfl
  · apply Exists.intro; intro s; simp only [exec, execMin, aluOp]; exact rfl
  · apply Exists.intro; intro s; simp only [exec, execMax, aluOp]; exact rfl
  · apply Exists.intro; intro s; simp only [exec, execMinn, aluOp]; exact rfl
  · apply Exists.intro; intro s; simp only [exec, execMaxn, aluOp]; exact rfl
  · apply Exists.intro; intro s; simp only [exec, execMov]; exact rfl
  · apply Exists.intro; intro s; simp only [exec, execAnd, aluOp]; exact rfl
  · apply Exists.intro; intro s; simp only [exec, execOr, aluOp]; exact rfl
  · apply Exists.intro; intro s; simp only [exec, execXor, aluOp]; exact rfl
  · apply Exists.intro; intro s; simp only [exec, execAndn, aluOp]; exact rfl
  · apply Exists.intro; intro s; simp only [exec, execShl, aluOp]; exact rfl
  · apply Exists.intro; intro s; simp only [exec, execShr, aluOp]; exact rfl
  · apply Exists.intro; intro s; simp only [exec, execSra, aluOp]; exact rfl
  · apply Exists.intro; intro s; simp only [exec, execRot, aluOp]; exact rfl
  · apply Exists.intro; intro s; simp only [exec, execBfx]; exact rfl
  · apply Exists.intro; intro s; simp only [exec, execBfi]; exact rfl
  · apply Exists.intro; intro s; simp only [exec, execPcnt, aluOp1]; exact rfl
  · apply Exists.intro; intro s; simp only [exec, execClz, aluOp1]; exact rfl
  · apply Exists.intro; intro s; simp only [exec, execCtz, aluOp1]; exact rfl
  · apply Exists.intro; intro s; simp only [exec, execBrev, aluOp1]; exact rfl
  · apply Exists.intro; intro s; simp only [exec, execBswap, aluOp1]; exact rfl
  · apply Exists.intro; intro s; simp only [exec, execLea]; exact rfl
  · apply Exists.intro; intro s; simp only [exec, execCmp]; exact rfl
  · apply Exists.intro; intro s; simp only [exec, execPlog]; exact rfl
  · apply Exists.intro; intro s; simp only [exec, execPmov]; exact rfl
  · apply Exists.intro; intro s; simp only [exec, execSel]; exact rfl
  · apply Exists.intro; intro s; simp only [exec, execPfxc]; exact rfl
  · apply Exists.intro; intro s; simp only [exec, execIntx]; exact rfl
  · apply Exists.intro; intro s; simp only [exec, execFadd, fpOp2]; exact rfl
  · apply Exists.intro; intro s; simp only [exec, execFsub, fpOp2]; exact rfl
  · apply Exists.intro; intro s; simp only [exec, execFmul, fpOp2]; exact rfl
  · apply Exists.intro; intro s; simp only [exec, execFdiv, fpOp2]; exact rfl
  · apply Exists.intro; intro s; simp only [exec, execFsqrt]; exact rfl
  · apply Exists.intro; intro s; simp only [exec, execFma]; exact rfl
  · apply Exists.intro; intro s; simp only [exec, execFmin]; exact rfl
  · apply Exists.intro; intro s; simp only [exec, execFmax]; exact rfl
  · apply Exists.intro; intro s; simp only [exec, execFcmp]; exact rfl
  · apply Exists.intro; intro s; simp only [exec, execFclass]; exact rfl
  · apply Exists.intro; intro s; simp only [exec, execFsgn]; exact rfl
  · apply Exists.intro; intro s; simp only [exec, execCvt]; exact rfl
  · apply Exists.intro; intro s; simp only [exec, execCvtd]; exact rfl
  · apply Exists.intro; intro s; simp only [exec, execCvte]; exact rfl
  · apply Exists.intro; intro s; simp only [exec, execFrnd]; exact rfl
  · apply Exists.intro; intro s; simp only [exec, execLd]; exact rfl
  · apply Exists.intro; intro s; simp only [exec, execSt]; exact rfl
  · apply Exists.intro; intro s; simp only [exec, execLdt]; exact rfl
  · apply Exists.intro; intro s; simp only [exec, execAddm]; exact rfl
  · apply Exists.intro; intro s; simp only [exec, execAmo]; exact rfl
  · apply Exists.intro; intro s; simp only [exec, execCas]; exact rfl
  · apply Exists.intro; intro s; simp only [exec, execSts]; exact rfl
  · apply Exists.intro; intro s; simp only [exec, execPref]; exact rfl
  · apply Exists.intro; intro s; simp only [exec, execTopen]; exact rfl
  · apply Exists.intro; intro s; simp only [exec, execTvalid]; exact rfl
  · apply Exists.intro; intro s; simp only [exec, execSeal]; exact rfl
  · apply Exists.intro; intro s; simp only [exec, execTfree]; exact rfl
  · apply Exists.intro; intro s; simp only [exec, execTstat]; exact rfl
  · apply Exists.intro; intro s; simp only [exec, execFence]; exact rfl
  · apply Exists.intro; intro s; simp only [exec, execDrain]; exact rfl
  · apply Exists.intro; intro s; simp only [exec, execGidx]; exact rfl
  · apply Exists.intro; intro s; simp only [exec, execSidx]; exact rfl
  · apply Exists.intro; intro s; simp only [exec, execAqclr]; exact rfl
  · apply Exists.intro; intro s; simp only [exec, execQstat]; exact rfl
  · apply Exists.intro; intro s; simp only [exec, execSend]; exact rfl
  · apply Exists.intro; intro s; simp only [exec, execCallr]; exact rfl
  · apply Exists.intro; intro s; simp only [exec, execReply]; exact rfl
  · apply Exists.intro; intro s; simp only [exec, execSlpush]; exact rfl
  · apply Exists.intro; intro s; simp only [exec, execSlpop]; exact rfl
  · apply Exists.intro; intro s; simp only [exec, execSlsteal]; exact rfl
  · apply Exists.intro; intro s; simp only [exec, execMjob]; exact rfl
  · apply Exists.intro; intro s; simp only [exec, execLaunch]; exact rfl
  · apply Exists.intro; intro s; simp only [exec, execDtld]; exact rfl
  · apply Exists.intro; intro s; simp only [exec, execDtrd]; exact rfl
  · apply Exists.intro; intro s; simp only [exec, execSrfence]; exact rfl
  · apply Exists.intro; intro s; simp only [exec, execTbfill]; exact rfl
  · apply Exists.intro; intro s; simp only [exec, execTbfillVec]; exact rfl
  · apply Exists.intro; intro s; simp only [exec, execTbinv]; exact rfl
  · apply Exists.intro; intro s; simp only [exec, execTbprobe]; exact rfl
  · apply Exists.intro; intro s; simp only [exec, execGrpfind]; exact rfl
  · apply Exists.intro; intro s; simp only [exec, execSqset]; exact rfl
  · apply Exists.intro; intro s; simp only [exec, execSqsetOp]; exact rfl
  · apply Exists.intro; intro s; simp only [exec, execSqsetUser]; exact rfl
  · apply Exists.intro; intro s; simp only [exec, execSqsetPrio]; exact rfl
  · apply Exists.intro; intro s; simp only [exec, execSqget]; exact rfl
  · apply Exists.intro; intro s; simp only [exec, execSqbuild]; exact rfl
  · apply Exists.intro; intro s; simp only [exec, execErset]; exact rfl
  · apply Exists.intro; intro s; simp only [exec, execErget]; exact rfl
  · apply Exists.intro; intro s; simp only [exec, execTolset]; exact rfl
  · apply Exists.intro; intro s; simp only [exec, execTbind]; exact rfl
  · apply Exists.intro; intro s; simp only [exec, execTcset]; exact rfl
  · apply Exists.intro; intro s; simp only [exec, execTcrd]; exact rfl
  · apply Exists.intro; intro s; simp only [exec, execPegarm]; exact rfl
  · apply Exists.intro; intro s; simp only [exec, execPegarmAdd]; exact rfl
  · apply Exists.intro; intro s; simp only [exec, execPegwait]; exact rfl
  · apply Exists.intro; intro s; simp only [exec, execRcsnap]; exact rfl
  · apply Exists.intro; intro s; simp only [exec, execRcrd]; exact rfl
  · apply Exists.intro; intro s; simp only [exec, execBump]; exact rfl
  · apply Exists.intro; intro s; simp only [exec, execBumpset]; exact rfl
  · apply Exists.intro; intro s; simp only [exec, execXcopy]; exact rfl
  · apply Exists.intro; intro s; simp only [exec, execXconv]; exact rfl
  · apply Exists.intro; intro s; simp only [exec, execRoute]; exact rfl
  · apply Exists.intro; intro s; simp only [exec, execCmdnext]; exact rfl
  · apply Exists.intro; intro s; simp only [exec, execCmddone]; exact rfl
  all_goals (exfalso; simp [isLapWord, encodeLap] at h)

/-- A lap word of a hart goes on to a state. -/
theorem exec_lap_next {i : Instr} {s : State} (h : isLapWord i = true) (he : entIsHart s.actor = true) : ∃ t, exec i s = .next t := by
  obtain ⟨body, hb⟩ := exec_runLap i h
  rw [hb]; exact runLap_next body he

end Sys2Proof
end

