-- ==== Sys2Proof/Laws/Encoding.lean ====
section
/-! SUPPORT. The codes of an instruction's fields, read back from what the encoder writes. -/

namespace Sys2Proof

@[simp] theorem decPred_encPred (i : Fin 7) : decPred (encPred i) = some i := by revert i; decide

@[simp] theorem decSpec_encSpec (r : LSpec) : decSpec (encSpec r) = some r := by
  cases r with
  | s n => revert n; decide
  | h n => revert n; decide
  | p i => revert i; decide
  | port d => cases d <;> decide
  | _ => decide

@[simp] theorem decGuard_encGuard (g : Guard) : decGuard (encGuard g) = some g := by
  cases g with
  | always => decide
  | on i => revert i; decide
  | off i => revert i; decide

@[simp] theorem decTy_encTy (t : Ty) : decTy (encTy t) = t := by cases t <;> decide
@[simp] theorem decNk_encNk (n : Nk) : decNk (encNk n) = some n := by cases n <;> decide
@[simp] theorem decRm_encRm (r : Rm) : decRm (encRm r) = some r := by cases r <;> decide
@[simp] theorem decScope_encScope (c : Scope) : decScope (encScope c) = some c := by cases c <;> decide
@[simp] theorem decCls_encCls (c : Cls) : decCls (encCls c) (encClsScope c) = some c := by
  cases c with
  | acquire s => cases s <;> decide
  | release s => cases s <;> decide
  | _ => decide
@[simp] theorem decRel_encRel (r : Rel) : decRel (encRel r) = some r := by cases r <;> decide
@[simp] theorem decAmo_encAmo (o : AmoOp) : decAmo (encAmo o) = some o := by cases o <;> decide
@[simp] theorem decSgn_encSgn (o : SgnOp) : decSgn (encSgn o) = some o := by cases o <;> decide
@[simp] theorem decTab_encTab (t : TabSel) : decTab (encTab t) = some t := by cases t <;> decide
@[simp] theorem decSOp_encSOp (o : SOp) : decSOp (encSOp o).toNat = some o := by cases o <;> decide
@[simp] theorem decSCond_encSCond (c : SCond) : decSCond (encSCond c).toNat = some c := by cases c <;> decide

/-- A vector specifier that names a register comes back. -/
theorem decV_encV {v : VSpec} (h : v.okSrc = true) : decV (encV v) = some v := by
  cases v with
  | v n =>
    have h' : n < 768 := by simpa [VSpec.okSrc] using h
    have e : (BitVec.ofNat 10 n).toNat = n := by simp; omega
    simp [decV, encV, e, h']
  | fl => decide
  | vz => decide

theorem VSpec.okSrc_of_okDst {v : VSpec} (h : v.okDst = true) : v.okSrc = true := by
  cases v <;> simp_all [VSpec.okDst, VSpec.okSrc]

theorem VSpec.okDst_of_le {m : Nat} {v : VSpec} (hm : m < 768) (h : v.le m = true) : v.okDst = true := by
  cases v <;> simp_all [VSpec.okDst, VSpec.le]; omega

/-- The fields of a lap word come back from the word. -/
@[simp] theorem LapFields.ofWord_toWord (f : LapFields) : LapFields.ofWord f.toWord f.lit = f := by
  cases f
  simp (disch := omega) only [LapFields.ofWord, LapFields.toWord, BitVec.extractLsb'_append_eq_of_add_le,
    BitVec.extractLsb'_append_eq_of_le]
  simp

@[simp] theorem LapFields.imm34_withImm (f : LapFields) (v : BitVec 34) : (f.withImm v).imm34 = v := by
  simp (disch := omega) only [LapFields.imm34, LapFields.withImm, BitVec.extractLsb'_append_extractLsb'_eq_extractLsb']
  simp

/-- A 32-bit literal has a zero upper half. -/
@[simp] theorem lit32_high (v : W32) : (v.setWidth 64).extractLsb' 32 32 = 0#32 := by
  apply BitVec.eq_of_getLsbD_eq; intro i _
  simp only [BitVec.getLsbD_extractLsb', BitVec.getLsbD_setWidth, BitVec.getLsbD_zero,
    BitVec.getLsbD_of_ge v (32 + i) (by omega), Bool.and_false]

/-- Source B comes back from its fields. -/
@[simp] theorem LapFields.bsrc_withB (f : LapFields) (hl : f.l = 0) (b : BSrc) : (f.withB b).bsrc = some b := by
  cases b with
  | reg r => simp [LapFields.bsrc, LapFields.withB, hl]
  | lit32 v => have := lit32_high v; simp_all [LapFields.bsrc, LapFields.withB]
  | lit64 v => simp [LapFields.bsrc, LapFields.withB]

/-- The displacement comes back from its fields. -/
@[simp] theorem LapFields.disp_withDisp (f : LapFields) (hl : f.l = 0) (v : Disp) : (f.withDisp v).disp = some v := by
  cases v with
  | imm v =>
    simp (disch := omega) only [LapFields.disp, LapFields.withDisp, LapFields.disp19, hl,
      BitVec.extractLsb'_append_extractLsb'_eq_extractLsb']
    simp
  | lit32 v => have := lit32_high v; simp_all [LapFields.disp, LapFields.withDisp, LapFields.disp19]
  | lit64 v => simp [LapFields.disp, LapFields.withDisp, LapFields.disp19]

/-- The fields of a vector syllable come back from its bits. -/
@[simp] theorem VFields.ofWord_bits (q : BitVec 4) (op : BitVec 8) (f : VFields) :
    VFields.ofWord (mkSyl q op f.bits) = f := by
  cases f
  simp (disch := omega) only [VFields.ofWord, VFields.bits, mkSyl, BitVec.extractLsb'_append_eq_of_add_le,
    BitVec.extractLsb'_append_eq_of_le]
  simp

/-- The fields of an M syllable come back from its bits. -/
@[simp] theorem MFields.ofWord_bits (q : BitVec 4) (op : BitVec 8) (f : MFields) :
    MFields.ofWord (mkSyl q op f.bits) = f := by
  cases f
  simp (disch := omega) only [MFields.ofWord, MFields.bits, mkSyl, BitVec.extractLsb'_append_eq_of_add_le,
    BitVec.extractLsb'_append_eq_of_le]
  simp

@[simp] theorem sylQ_mkSyl (q : BitVec 4) (op : BitVec 8) (v : BitVec 52) : sylQ (mkSyl q op v) = q := by
  simp (disch := omega) only [sylQ, mkSyl, BitVec.extractLsb'_append_eq_of_le]
  simp

@[simp] theorem sylOp_mkSyl (q : BitVec 4) (op : BitVec 8) (v : BitVec 52) : sylOp (mkSyl q op v) = op.toNat := by
  simp (disch := omega) only [sylOp, mkSyl, BitVec.extractLsb'_append_eq_of_add_le, BitVec.extractLsb'_append_eq_of_le]
  simp

/-! ### Fields made of smaller ones -/

@[simp] theorem ext_above_setWidth {n w : Nat} (s k : Nat) (x : BitVec n) (h : n ≤ s) :
    (x.setWidth w).extractLsb' s k = 0#k := by
  apply BitVec.eq_of_getLsbD_eq; intro i _
  simp [BitVec.getLsbD_of_ge x (s + i) (by omega)]

@[simp] theorem ext_low_setWidth {n w : Nat} (x : BitVec n) (h : n ≤ w) : (x.setWidth w).extractLsb' 0 n = x := by
  apply BitVec.eq_of_getLsbD_eq; intro i hi
  simp only [BitVec.getLsbD_extractLsb', BitVec.getLsbD_setWidth, hi, Nat.zero_add, decide_true, Bool.true_and,
    decide_eq_true (show i < w by omega)]

@[simp] theorem getLsbD_above_setWidth {n w i : Nat} (x : BitVec n) (h : n ≤ i) : (x.setWidth w).getLsbD i = false := by
  simp [BitVec.getLsbD_of_ge x i h]

@[simp] theorem decRel_mod (r : Rel) : decRel (encRel r % 256) = some r := by cases r <;> decide
@[simp] theorem decAmo_mod (o : AmoOp) : decAmo (encAmo o % 256) = some o := by cases o <;> decide
@[simp] theorem decSgn_mod (o : SgnOp) : decSgn (encSgn o % 256) = some o := by cases o <;> decide
@[simp] theorem decTab_mod (t : TabSel) : decTab (encTab t % 256) = some t := by cases t <;> decide

@[simp] theorem encMemB_scope (c : Cls) (hi : Bool) : (encMemB c hi).extractLsb' 0 3 = encClsScope c := by
  unfold encMemB; generalize encClsScope c = x; cases hi <;> (revert x; decide)
@[simp] theorem encMemB_zero (c : Cls) (hi : Bool) : (encMemB c hi).extractLsb' 3 4 = 0#4 := by
  unfold encMemB; generalize encClsScope c = x; cases hi <;> (revert x; decide)
@[simp] theorem encMemB_hi (c : Cls) (hi : Bool) : (encMemB c hi)[7] = hi := by
  unfold encMemB; generalize encClsScope c = x; cases hi <;> (revert x; decide)

/-- The C field of AMO, CAS and STS. -/
theorem clsC (c : Cls) :
    (0#5 ++ encClsScope c : BitVec 8).extractLsb' 3 5 = 0#5 ∧ (0#5 ++ encClsScope c : BitVec 8).extractLsb' 0 3 = encClsScope c := by
  generalize encClsScope c = x; revert x; decide

/-- A kind above a type. -/
theorem nkTy (n : Nk) (t : Ty) :
    (encNk n ++ encTy t : BitVec 8).extractLsb' 4 4 = encNk n ∧ (encNk n ++ encTy t : BitVec 8).extractLsb' 0 4 = encTy t := by
  generalize encNk n = x; generalize encTy t = y; revert x y; decide

/-- The FN field of CVT. -/
theorem cvtFn (ns : Bool) (n : Nk) :
    (BitVec.ofBool ns ++ 0#3 ++ encNk n : BitVec 8).extractLsb' 4 3 = 0#3
    ∧ (BitVec.ofBool ns ++ 0#3 ++ encNk n : BitVec 8).extractLsb' 0 4 = encNk n
    ∧ (BitVec.ofBool ns ++ 0#3 ++ encNk n : BitVec 8)[7] = ns := by
  generalize encNk n = x; cases ns <;> (revert x; decide)

/-- The FN and C fields of CVTE. -/
theorem cvteFn (ns : Bool) (t : Ty) :
    (BitVec.ofBool ns ++ 0#7 : BitVec 8).extractLsb' 0 7 = 0#7 ∧ (BitVec.ofBool ns ++ 0#7 : BitVec 8)[7] = ns
    ∧ (0#4 ++ encTy t : BitVec 8).extractLsb' 4 4 = 0#4 ∧ (0#4 ++ encTy t : BitVec 8).extractLsb' 0 4 = encTy t := by
  cases ns <;> cases t <;> decide

/-- The FN field of TOPEN. -/
theorem topenFn (w : Bool) (n : Nk) :
    (0#3 ++ BitVec.ofBool w ++ encNk n : BitVec 8).extractLsb' 5 3 = 0#3
    ∧ (0#3 ++ BitVec.ofBool w ++ encNk n : BitVec 8).extractLsb' 0 4 = encNk n
    ∧ (0#3 ++ BitVec.ofBool w ++ encNk n : BitVec 8)[4] = w := by
  generalize encNk n = x; cases w <;> (revert x; decide)

/-- The FN field of SEND and CALLR. -/
theorem msgFn (b : Bool) (c : BitVec 4) (w : BitVec 3) :
    (BitVec.ofBool b ++ c ++ w : BitVec 8).extractLsb' 0 3 = w ∧ (BitVec.ofBool b ++ c ++ w : BitVec 8).extractLsb' 3 4 = c
    ∧ (BitVec.ofBool b ++ c ++ w : BitVec 8)[7] = b := by
  cases b <;> (revert c w; decide)

/-- The SC field of XCONV. -/
theorem xconvSc (ns : Bool) :
    (0#2 ++ BitVec.ofBool ns : BitVec 3).extractLsb' 1 2 = 0#2 ∧ (0#2 ++ BitVec.ofBool ns : BitVec 3)[0] = ns := by
  cases ns <;> decide

/-! ### The words of a lap instruction -/

section
variable (f : LapFields) (b : BSrc) (v : Disp) (i : BitVec 34)
@[simp] theorem LapFields.withB_g : (f.withB b).g = f.g := by cases b <;> rfl
@[simp] theorem LapFields.withB_op : (f.withB b).op = f.op := by cases b <;> rfl
@[simp] theorem LapFields.withB_d : (f.withB b).d = f.d := by cases b <;> rfl
@[simp] theorem LapFields.withB_a : (f.withB b).a = f.a := by cases b <;> rfl
@[simp] theorem LapFields.withB_rm : (f.withB b).rm = f.rm := by cases b <;> rfl
@[simp] theorem LapFields.withB_ty : (f.withB b).ty = f.ty := by cases b <;> rfl
@[simp] theorem LapFields.withB_sc : (f.withB b).sc = f.sc := by cases b <;> rfl
@[simp] theorem LapFields.withB_c : (f.withB b).c = f.c := by cases b <;> rfl
@[simp] theorem LapFields.withB_fn : (f.withB b).fn = f.fn := by cases b <;> rfl
@[simp] theorem LapFields.withDisp_g : (f.withDisp v).g = f.g := by cases v <;> rfl
@[simp] theorem LapFields.withDisp_op : (f.withDisp v).op = f.op := by cases v <;> rfl
@[simp] theorem LapFields.withDisp_d : (f.withDisp v).d = f.d := by cases v <;> rfl
@[simp] theorem LapFields.withDisp_a : (f.withDisp v).a = f.a := by cases v <;> rfl
@[simp] theorem LapFields.withDisp_b : (f.withDisp v).b = f.b := by cases v <;> rfl
@[simp] theorem LapFields.withDisp_rm : (f.withDisp v).rm = f.rm := by cases v <;> rfl
@[simp] theorem LapFields.withDisp_ty : (f.withDisp v).ty = f.ty := by cases v <;> rfl
@[simp] theorem LapFields.withImm_g : (f.withImm i).g = f.g := rfl
@[simp] theorem LapFields.withImm_l : (f.withImm i).l = f.l := rfl
@[simp] theorem LapFields.withImm_lit : (f.withImm i).lit = f.lit := rfl
@[simp] theorem LapFields.withImm_op : (f.withImm i).op = f.op := rfl
@[simp] theorem LapFields.withImm_d : (f.withImm i).d = f.d := rfl
@[simp] theorem LapFields.withImm_a : (f.withImm i).a = f.a := rfl
end

/-- Fields a word can hold: no L of 3, and no literal without an L. -/
def LapFields.Sound (f : LapFields) : Prop := f.l ≠ 3 ∧ (f.l = 0 → f.lit = 0)

theorem LapFields.sound_plain {f : LapFields} (h : f.l = 0) (h' : f.lit = 0) : f.Sound := by simp [Sound, h, h']

theorem LapFields.sound_withB {f : LapFields} (h : f.l = 0) (h' : f.lit = 0) (b : BSrc) : (f.withB b).Sound := by
  cases b <;> simp [Sound, withB, h, h']

theorem LapFields.sound_withDisp {f : LapFields} (h : f.l = 0) (h' : f.lit = 0) (v : Disp) : (f.withDisp v).Sound := by
  cases v <;> simp [Sound, withDisp, h, h']

/-- The immediate of fields that leave it zero but for FN. -/
theorem LapFields.imm34_fn {f : LapFields} (h1 : f.b = 0) (h2 : f.rm = 0) (h3 : f.ty = 0) (h4 : f.sc = 0) (h5 : f.c = 0) :
    f.imm34 = f.fn.setWidth 34 := by
  rw [imm34, h1, h2, h3, h4, h5]; generalize f.fn = x; revert x; decide

/-- What is decoded from the words of an instruction with these fields. -/
theorem decodeWords_encode {i : Instr} {f : LapFields} {g : Guard} (he : encodeLap i = some f) (hs : f.Sound)
    (hg : decGuard f.g = some g) (hd : decOp f g = .ok i) (hw : i.wf = true) : decodeWords (encode i) = some i := by
  have hb : ∀ b, i ≠ .bundleIssue b := by intro b hi; subst hi; simp [encodeLap] at he
  have e : encode i = if f.l = 0 then [f.toWord] else [f.toWord, f.lit] := by
    cases i <;> first | exact absurd rfl (hb _) | simp only [encode, he]
  have h : decodeLap f = .ok i := by simp only [decodeLap, hg, hd, hw, if_neg hs.1, if_true]
  have hl : f.toWord.extractLsb' 58 2 = f.l := congrArg LapFields.l (LapFields.ofWord_toWord f)
  rw [e]
  split
  · rename_i h0
    have hf := LapFields.ofWord_toWord f
    rw [hs.2 h0] at hf
    rw [decodeWords, hl, if_pos h0, hf, h]; rfl
  · rename_i h0
    rw [decodeWords, hl, if_neg h0, LapFields.ofWord_toWord, h]; rfl

/-! ### Slots of a bundle -/

/-- A slot comes back when its syllables do, and none of them has opcode 0. -/
theorem decSlot_encSlot {α : Type} {dec : W64 → Option α} {wf : α → Bool} {enc : α → BitVec 8 × BitVec 52}
    (h : ∀ q x, wf x = true → dec (mkSyl q (enc x).1 (enc x).2) = some x) (h0 : ∀ x, (enc x).1 ≠ 0)
    {x : Slot α} (hx : x.wf wf = true) : decSlot dec wf (encSlot enc x) = x := by
  cases x with
  | nop => rfl
  | illegal w => simp [Slot.wf] at hx
  | op q y =>
    have hy : wf y = true := hx
    have hn : mkSyl q (enc y).1 (enc y).2 ≠ 0 := by
      intro e
      have := congrArg sylOp e
      rw [sylOp_mkSyl] at this
      exact h0 y (BitVec.eq_of_toNat_eq this)
    simp only [encSlot, decSlot, if_neg hn, h q y hy, hy, sylQ_mkSyl, if_true]

end Sys2Proof
end

