-- ==== Sys2Proof/Laws/Bundle.lean ====
section
/-! SUPPORT. Every syllable of a well-formed bundle comes back from its word, and so does the bundle (R86 to R89). -/

namespace Sys2Proof

/-- The opcode and slot bits of S syllables. -/
theorem decSRI_reg (q : BitVec 4) (op : BitVec 8) (d a c : BitVec 6) (fn : BitVec 8) (h : op.toNat ≤ 15 ∨ op.toNat = 22) :
    decS (mkSyl q op (d ++ a ++ c ++ fn ++ 0#26)) = decSRI op.toNat d a fn (.reg c) (mkSyl q op (d ++ a ++ c ++ fn ++ 0#26)) false := by
  have h1 : ¬(0x41 ≤ op.toNat ∧ op.toNat ≤ 0x4F) := by omega
  simp only [decS, sylOp_mkSyl, if_neg h1, if_pos h]
  simp (disch := omega) only [mkSyl, BitVec.extractLsb'_append_eq_of_add_le, BitVec.extractLsb'_append_eq_of_le]
  simp

theorem decSRI_imm (q : BitVec 4) (op : BitVec 8) (d a : BitVec 6) (fn : BitVec 8) (v : W32) (h : op.toNat ≤ 15 ∧ op.toNat ≠ 0) :
    decS (mkSyl q (0x40 + op) (d ++ a ++ fn ++ v)) = decSRI op.toNat d a fn (.imm v) (mkSyl q (0x40 + op) (d ++ a ++ fn ++ v)) true := by
  have h1 : (0x40 + op).toNat = 0x40 + op.toNat := by rw [BitVec.toNat_add]; simp; omega
  have h2 : (0x41 ≤ 0x40 + op.toNat ∧ 0x40 + op.toNat ≤ 0x4F) := by omega
  simp only [decS, sylOp_mkSyl, h1, if_pos h2, Nat.add_sub_cancel_left]
  simp (disch := omega) only [mkSyl, BitVec.extractLsb'_append_eq_of_add_le, BitVec.extractLsb'_append_eq_of_le]
  simp

theorem lo_ext (q : BitVec 4) (op : BitVec 8) (d a c : BitVec 6) (fn : BitVec 8) : (mkSyl q op (d ++ a ++ c ++ fn ++ 0#26)).extractLsb' 34 6 = c := by
  simp (disch := omega) only [mkSyl, BitVec.extractLsb'_append_eq_of_add_le, BitVec.extractLsb'_append_eq_of_le]
  simp
theorem im_ext (q : BitVec 4) (op : BitVec 8) (d a : BitVec 6) (fn : BitVec 8) (v : W32) : (mkSyl q op (d ++ a ++ fn ++ v)).extractLsb' 0 32 = v := by
  simp (disch := omega) only [mkSyl, BitVec.extractLsb'_append_eq_of_add_le, BitVec.extractLsb'_append_eq_of_le]
  simp
theorem q6 (q : BitVec 4) : (0#2 ++ q : BitVec 6).extractLsb' 4 2 = 0#2 ∧ (0#2 ++ q : BitVec 6).extractLsb' 0 4 = q := by revert q; decide
theorem q8 (q : BitVec 4) : (0#4 ++ q : BitVec 8).extractLsb' 4 4 = 0#4 ∧ (0#4 ++ q : BitVec 8).extractLsb' 0 4 = q := by revert q; decide
theorem sh8 (q : BitVec 3) : (0#5 ++ q : BitVec 8).extractLsb' 3 5 = 0#5 ∧ (0#5 ++ q : BitVec 8).extractLsb' 0 3 = q := by revert q; decide

theorem encSOp_le (o) : 1 ≤ (encSOp o).toNat ∧ (encSOp o).toNat ≤ 11 := by cases o <;> decide

theorem decS_encS (q : BitVec 4) (y : SSyl) (_ : y.wf = true) : decS (mkSyl q (encS y).1 (encS y).2) = some y := by
  cases y with
  | bin op d a b =>
    have := encSOp_le op
    have e := decSOp_encSOp op
    cases b with
    | reg c =>
      simp only [encS, encSRI]
      rw [decSRI_reg _ _ _ _ _ _ (by omega)]; cases op <;> rfl
    | imm v =>
      simp only [encS, encSRI]
      rw [decSRI_imm _ _ _ _ _ _ (by omega)]; cases op <;> rfl
  | mov d b =>
    cases b with
    | reg c => simp only [encS, encSRI]; rw [decSRI_reg _ _ _ _ _ _ (by decide)]; rfl
    | imm c => simp only [encS, encSRI]; rw [decSRI_imm _ _ _ _ _ _ (by decide)]; rfl
  | cmp p c a b =>
    cases b with
    | reg r => simp only [encS, encSRI]; rw [decSRI_reg _ _ _ _ _ _ (by decide)]; simp [decSRI, q6]
    | imm r => simp only [encS, encSRI]; rw [decSRI_imm _ _ _ _ _ _ (by decide)]; simp [decSRI, q6]
  | sel d a b p =>
    cases b with
    | reg r => simp only [encS, encSRI]; rw [decSRI_reg _ _ _ _ _ _ (by decide)]; simp [decSRI, q8]
    | imm r => simp only [encS, encSRI]; rw [decSRI_imm _ _ _ _ _ _ (by decide)]; simp [decSRI, q8]
  | lea d a b sh => simp only [encS, encSRI]; rw [decSRI_reg _ _ _ _ _ _ (by decide)]; simp [decSRI, sh8, lo_ext]
  | leaImm d a v => simp only [encS, encSRI]; rw [decSRI_imm _ _ _ _ _ _ (by decide)]; simp [decSRI, im_ext]
  | grpfind d a b => simp only [encS, encSRI]; rw [decSRI_reg _ _ _ _ _ _ (by decide)]; simp [decSRI, lo_ext]
  | br v | jmp a v | loopc d v | call d v | ret a | haltc =>
    simp only [encS, decS, sylOp_mkSyl]
    simp (disch := omega) only [mkSyl, BitVec.extractLsb'_append_eq_of_add_le, BitVec.extractLsb'_append_eq_of_le]
    simp

theorem decLd_encLd (q : BitVec 4) (y : LdSyl) (h : y.wf = true) : decLd (mkSyl q (encLd y).1 (encLd y).2) = some y := by
  cases y with
  | vld d a b i | vldh d a b i =>
    have e := decV_encV (VSpec.okSrc_of_okDst h)
    simp only [encLd, decLd, sylOp_mkSyl]
    simp (disch := omega) only [mkSyl, BitVec.extractLsb'_append_eq_of_add_le, BitVec.extractLsb'_append_eq_of_le]
    simp [e]
  | vlds t d a b i =>
    have e := decV_encV (VSpec.okSrc_of_okDst (show d.okDst = true by simp [LdSyl.wf] at h; exact h.2))
    simp only [encLd, decLd, sylOp_mkSyl]
    simp (disch := omega) only [mkSyl, BitVec.extractLsb'_append_eq_of_add_le, BitVec.extractLsb'_append_eq_of_le]
    simp [e]

theorem decSt_encSt (q : BitVec 4) (y : StSyl) (h : y.wf = true) : decSt (mkSyl q (encSt y).1 (encSt y).2) = some y := by
  cases y with
  | vst t g k v a b i | vstm t g k v a b i =>
    have e := decV_encV (VSpec.okSrc_of_okDst (show v.okDst = true by simp [StSyl.wf] at h; exact h.2))
    simp only [encSt, decSt, sylOp_mkSyl]
    simp (disch := omega) only [mkSyl, BitVec.extractLsb'_append_eq_of_add_le, BitVec.extractLsb'_append_eq_of_le]
    cases g <;> simp [e]

theorem decCp_encCp (q : BitVec 4) (y : CpSyl) : decCp (mkSyl q (encCp y).1 (encCp y).2) = some y := by
  cases y with
  | cpgo x =>
    simp only [encCp, decCp, sylOp_mkSyl]
    simp (disch := omega) only [mkSyl, BitVec.extractLsb'_append_eq_of_add_le, BitVec.extractLsb'_append_eq_of_le]
    simp
  | cpstat x w =>
    have e : (mkSyl q 2 (x ++ 0#45 ++ BitVec.ofBool w)).getLsbD 0 = w := by
      have e2 : (mkSyl q 2 (x ++ 0#45 ++ BitVec.ofBool w)).extractLsb' 0 1 = BitVec.ofBool w := by
        simp (disch := omega) only [mkSyl, BitVec.extractLsb'_append_eq_of_add_le, BitVec.extractLsb'_append_eq_of_le]
        simp
      have := congrArg (fun v => v.getLsbD 0) e2
      simpa using this
    simp only [encCp, decCp, sylOp_mkSyl, e]
    simp (disch := omega) only [mkSyl, BitVec.extractLsb'_append_eq_of_add_le, BitVec.extractLsb'_append_eq_of_le]
    simp

theorem jigN (x : BitVec 20) (n : BitVec 5) :
    (x ++ 0#27 ++ n).extractLsb' 5 27 = 0#27 ∧ (x ++ 0#27 ++ n).extractLsb' 0 5 = n := by
  constructor
  · simp (disch := omega) only [BitVec.extractLsb'_append_eq_of_add_le, BitVec.extractLsb'_append_eq_of_le]; simp
  · simp (disch := omega) only [BitVec.extractLsb'_append_eq_of_add_le, BitVec.extractLsb'_append_eq_of_le]; simp

theorem decSy_encSy (q : BitVec 4) (y : SySyl) : decSy (mkSyl q (encSy y).1 (encSy y).2) = some y := by
  cases y <;> (simp only [encSy, decSy, sylOp_mkSyl]
               simp (disch := omega) only [mkSyl, BitVec.extractLsb'_append_eq_of_add_le, BitVec.extractLsb'_append_eq_of_le]
               try simp)
  case jigld a n =>
    exact jigN _ _
  case jigend w => cases w <;> decide

theorem mLow (k : BitVec 3) : (0#25 ++ k : BitVec 28).extractLsb' 3 25 = 0#25 ∧ (0#25 ++ k : BitVec 28).extractLsb' 0 3 = k := by
  revert k; decide

theorem accDecl (k : BitVec 25) : (0#3 ++ k : BitVec 28).extractLsb' 25 3 = 0#3 ∧ (0#3 ++ k : BitVec 28).extractLsb' 0 25 = k := by
  constructor
  · simp (disch := omega) only [BitVec.extractLsb'_append_eq_of_add_le, BitVec.extractLsb'_append_eq_of_le]; simp
  · simp (disch := omega) only [BitVec.extractLsb'_append_eq_of_add_le, BitVec.extractLsb'_append_eq_of_le]; simp

theorem decMSyl_encMSyl (q : BitVec 4) (y : MSyl) (h : y.wf = true) : decMSyl (mkSyl q (encMSyl y).1 (encMSyl y).2) = some y := by
  cases y with
  | accdrain c v =>
    have e : decV (encV v) = some v := by
      rcases (by simpa [MSyl.wf] using h : v = .vz ∨ v.le 704 = true) with h | h
      · subst h; decide
      · exact decV_encV (VSpec.okSrc_of_okDst (VSpec.okDst_of_le (by decide) h))
    simp [encMSyl, decMSyl, sylOp_mkSyl, MFields.ofWord_bits, e]
  | accld c v x z => 
    have e := decV_encV (VSpec.okSrc_of_okDst (VSpec.okDst_of_le (m := 704) (by decide) (by simpa [MSyl.wf] using h)))
    simp [encMSyl, decMSyl, sylOp_mkSyl, MFields.ofWord_bits, e]
  | pins c v x z =>
    have e := decV_encV (VSpec.okSrc_of_okDst (VSpec.okDst_of_le (m := 766) (by decide) (by simpa [MSyl.wf] using h)))
    simp [encMSyl, decMSyl, sylOp_mkSyl, MFields.ofWord_bits, e, mLow]
  | verdrd c v =>
    have e := decV_encV (VSpec.okSrc_of_okDst (VSpec.okDst_of_le (m := 766) (by decide) (by simpa [MSyl.wf] using h)))
    simp [encMSyl, decMSyl, sylOp_mkSyl, MFields.ofWord_bits, e]
  | pmerge c v x | pfloor c v | praise c v =>
    have e := decV_encV (VSpec.okSrc_of_okDst (by simpa [MSyl.wf] using h))
    simp [encMSyl, decMSyl, sylOp_mkSyl, MFields.ofWord_bits, e]
  | accdecl c x d => simp [encMSyl, decMSyl, sylOp_mkSyl, MFields.ofWord_bits, accDecl]
  | mma | mmaf | mbld | mbldPod | acczero | pmergeL => simp [encMSyl, decMSyl, sylOp_mkSyl, MFields.ofWord_bits]
  | mrot =>
    have e : (0 : BitVec 52) = MFields.bits ⟨0, 0, 0, 0, 0⟩ := by decide
    simp only [encMSyl, e]
    simp [decMSyl, sylOp_mkSyl, MFields.ofWord_bits]

theorem decRel_mod10 (r : Rel) : decRel (encRel r % 1024) = some r := by cases r <;> decide
theorem decSgn_mod10 (r : SgnOp) : decSgn (encSgn r % 1024) = some r := by cases r <;> decide
theorem ext3 (m : BitVec 3) : (m.setWidth 10).extractLsb' 3 7 = 0#7 ∧ (m.setWidth 10).extractLsb' 0 3 = m := by revert m; decide
theorem cvtB (n : Nk) : (0#6 ++ encNk n : BitVec 10).extractLsb' 4 6 = 0#6 ∧ (0#6 ++ encNk n : BitVec 10).extractLsb' 0 4 = encNk n := by
  cases n <;> decide
theorem cvtC (t : Ty) (n : Nk) : (encTy t ++ encNk n ++ 0#2 : BitVec 10).extractLsb' 0 2 = 0#2
    ∧ (encTy t ++ encNk n ++ 0#2 : BitVec 10).extractLsb' 6 4 = encTy t ∧ (encTy t ++ encNk n ++ 0#2 : BitVec 10).extractLsb' 2 4 = encNk n := by
  generalize encTy t = x; generalize encNk n = y; revert x y; decide
theorem ofBool_eq_one (b : Bool) : (BitVec.ofBool b == 1#1) = b := by cases b <;> rfl
theorem li_append (v : BitVec 30) : v.extractLsb' 20 10 ++ v.extractLsb' 10 10 ++ v.extractLsb' 0 10 = v := by
  apply BitVec.eq_of_getLsbD_eq
  intro i hi
  simp only [BitVec.getLsbD_append, BitVec.getLsbD_extractLsb']
  by_cases h1 : i < 10
  · simp [h1]
  · by_cases h2 : i - 10 < 10
    · have h3 : 10 + (i - 10) = i := by omega
      simp [h1, h2, h3]
    · have h3 : 20 + (i - 10 - 10) = i := by omega
      have h4 : i - 10 - 10 < 10 := by omega
      simp [h1, h2, h3, h4]

theorem decVSyl_encVSyl (q : BitVec 4) (y : VSyl) (h : y.wf = true) : decVSyl (mkSyl q (encVSyl y).1 (encVSyl y).2) = some y := by
  have D : ∀ {v : VSpec}, v.okDst = true → decV (encV v) = some v := fun h => decV_encV (VSpec.okSrc_of_okDst h)
  have E : ∀ {v : VSpec}, v.okSrc = true → decV (encV v) = some v := fun h => decV_encV h
  cases y
  case bin op ty rm k d a b =>
    simp [VSyl.wf] at h
    cases op <;> simp [encVSyl, encVBin, decVSyl, decVLow, decVHigh, decVBin, VFields.mk3, D, E, h]
  case shr ty ar k d a b =>
    simp [VSyl.wf] at h
    cases ar <;> simp [encVSyl, decVSyl, decVHigh, VFields.mk3, D, E, h]
  case cmp => 
    simp [VSyl.wf] at h
    simp [encVSyl, decVSyl, decVLow, VFields.mk3, D, E, h, decRel_mod10, ext3]
  case sgn =>
    simp [VSyl.wf] at h
    simp [encVSyl, decVSyl, decVLow, VFields.mk3, D, E, h, decSgn_mod10]
  case cvt =>
    simp [VSyl.wf] at h
    simp [encVSyl, decVSyl, decVHigh, VFields.mk3, D, E, h, cvtB, cvtC, ofBool_eq_one]
  case red ty op rm k d a =>
    simp [VSyl.wf] at h
    cases op <;> simp [encVSyl, encVRed, decVSyl, decVHigh, VFields.mk3, D, E, h]
  case trans op ty rm ns k d a =>
    simp [VSyl.wf] at h
    cases op <;> simp [encVSyl, encVTrans, decVSyl, decVHigh, decVTrans, VFields.mk3, D, E, h, ofBool_eq_one]
  case movm =>
    simp [encVSyl, decVSyl, decVHigh, VFields.mk3, ext3, encTy]
  case li =>
    simp [VSyl.wf] at h
    simp [encVSyl, decVSyl, decVHigh, VFields.mk3, D, h, li_append]
  all_goals
    simp [VSyl.wf] at h
    simp [encVSyl, decVSyl, decVLow, decVHigh, VFields.mk3, D, E, h]

theorem encS_ne (y : SSyl) : (encS y).1 ≠ 0 := by
  cases y with
  | bin op d a b =>  cases b <;> cases op <;> simp [encS, encSRI, encSOp]
  | mov d b => cases b <;> simp [encS, encSRI]
  | cmp p c a b => cases b <;> simp [encS, encSRI]
  | sel d a b p => cases b <;> simp [encS, encSRI]
  | _ => simp [encS, encSRI]

theorem encVSyl_ne (y : VSyl) : (encVSyl y).1 ≠ 0 := by
  cases y with
  | bin op => cases op <;> simp [encVSyl, encVBin]
  | trans op => cases op <;> simp [encVSyl, encVTrans]
  | _ => simp [encVSyl]

theorem encMSyl_ne (y : MSyl) : (encMSyl y).1 ≠ 0 := by cases y <;> simp [encMSyl]
theorem encLd_ne (y : LdSyl) : (encLd y).1 ≠ 0 := by cases y <;> simp [encLd]
theorem encSt_ne (y : StSyl) : (encSt y).1 ≠ 0 := by cases y <;> simp [encSt]
theorem encCp_ne (y : CpSyl) : (encCp y).1 ≠ 0 := by cases y <;> simp [encCp]
theorem encSy_ne (y : SySyl) : (encSy y).1 ≠ 0 := by cases y <;> simp [encSy]

/-- A well-formed bundle comes back from its eight words. -/
theorem decodeWords_encodeBundle {b : Bundle} (h : b.wf = true) : decodeWords (encodeBundle b) = some (.bundleIssue b) := by
  simp only [Bundle.wf, Bool.and_eq_true] at h
  obtain ⟨⟨⟨⟨⟨⟨⟨h0, h1⟩, h2⟩, h3⟩, h4⟩, h5⟩, h6⟩, h7⟩ := h
  simp only [encodeBundle, decodeWords, decodeBundle,
    decSlot_encSlot (fun q x _ => decS_encS q x ‹_›) encS_ne h0, decSlot_encSlot decVSyl_encVSyl encVSyl_ne h1,
    decSlot_encSlot decVSyl_encVSyl encVSyl_ne h2, decSlot_encSlot decMSyl_encMSyl encMSyl_ne h3,
    decSlot_encSlot decLd_encLd encLd_ne h4, decSlot_encSlot decSt_encSt encSt_ne h5,
    decSlot_encSlot (fun q x _ => decCp_encCp q x) encCp_ne h6, decSlot_encSlot (fun q x _ => decSy_encSy q x) encSy_ne h7]

end Sys2Proof
end

