-- ==== Sys2Proof/Laws/Int.lean ====
section
/-! SUPPORT. The integer readings and results of the meanings, as bit vectors of the type's width (R102, R116). -/

namespace Sys2Proof

open Sys2Proof.Machine

theorem tyW_pos {t : Ty} (h : t.isInt = true) : 8 ≤ tyW t ∧ tyW t ≤ 64 ∧ 8 ∣ tyW t := by
  cases t <;> simp_all [Ty.isInt, tyW, tyBits]

theorem rdU_eq (t : Ty) (v : W64) : rdU t v = (v.setWidth (tyW t)).toNat := by simp [rdU]

theorem rdS_eq {t : Ty} (h : t.isInt = true) (v : W64) : rdS t v = (v.setWidth (tyW t)).toInt := by
  have hw := tyW_pos h
  have h2 : (2 : Nat) ^ tyW t = 2 * 2 ^ (tyW t - 1) := by rw [← Nat.pow_succ']; congr 1; omega
  simp only [rdS, rdU_eq, BitVec.toInt_eq_toNat_cond]
  have := (v.setWidth (tyW t)).isLt
  generalize (v.setWidth (tyW t)).toNat = x at *
  have h3 : ((2 : Int) ^ tyW t) = ((2 ^ tyW t : Nat) : Int) := by push_cast; rfl
  split <;> split <;> omega

/-- R102: the low bits of an integer, extended by kind, are the integer at the width, extended. -/
theorem extend_eq {t : Ty} (h : t.isInt = true) (i : Int) : extend t i = extTo t (BitVec.ofInt (tyW t) i) := by
  have hw := tyW_pos h
  have hb : intBits (tyW t) i = (BitVec.ofInt (tyW t) i).toNat := by simp [intBits, BitVec.toNat_ofInt]
  have hl := (BitVec.ofInt (tyW t) i).isLt
  simp only [extend, extTo, hb]
  split
  · rename_i hs
    generalize hx : BitVec.ofInt (tyW t) i = x at *
    have h2 : (2 : Nat) ^ tyW t = 2 * 2 ^ (tyW t - 1) := by rw [← Nat.pow_succ']; congr 1; omega
    have h3 : ((2 : Int) ^ tyW t) = ((2 ^ tyW t : Nat) : Int) := by push_cast; rfl
    have : intVal t x.toNat = x.toInt := by
      simp only [intVal, hs, true_and, BitVec.toInt_eq_toNat_cond, Nat.mod_eq_of_lt hl]
      split <;> split <;> omega
    rw [this]
    rfl
  · apply BitVec.eq_of_toNat_eq
    simp

theorem ofInt_natCast (w n : Nat) : BitVec.ofInt w (n : Int) = BitVec.ofNat w n := by
  apply BitVec.eq_of_toNat_eq; simp

/-- The sum of two readings is the sum at the width. -/
theorem ofInt_add_toNat {w : Nat} (a b : BitVec w) : BitVec.ofInt w ((a.toNat : Int) + b.toNat) = a + b := by
  rw [← Int.natCast_add, ofInt_natCast]; apply BitVec.eq_of_toNat_eq; simp

theorem ofInt_sub_toNat {w : Nat} (a b : BitVec w) : BitVec.ofInt w ((a.toNat : Int) - b.toNat) = a - b := by
  apply BitVec.eq_of_toInt_eq
  rw [BitVec.toInt_ofInt, BitVec.toInt_sub]
  simp only [BitVec.toInt_eq_toNat_bmod]
  simp

theorem ofInt_mul_toNat {w : Nat} (a b : BitVec w) : BitVec.ofInt w ((a.toNat : Int) * b.toNat) = a * b := by
  rw [← Int.natCast_mul, ofInt_natCast]; apply BitVec.eq_of_toNat_eq; simp

theorem ofInt_toInt {w : Nat} (a : BitVec w) : BitVec.ofInt w a.toInt = a := BitVec.ofInt_toInt

theorem ofInt_neg_toInt {w : Nat} (a : BitVec w) : BitVec.ofInt w (-a.toInt) = -a := by
  apply BitVec.eq_of_toInt_eq
  rw [BitVec.toInt_ofInt, BitVec.toInt_neg]

/-! ### Counting and moving bits -/

theorem popcount_eq (n : Nat) {w : Nat} (x : BitVec w) (h : n ≤ w) :
    popcount n x.toNat = (List.range n).countP fun i => x.getLsbD i := by
  induction n with
  | zero => rfl
  | succ n ih =>
    rw [List.range_succ, List.countP_append, ← ih (by omega)]
    simp only [popcount, BitVec.testBit_toNat, List.countP_cons, List.countP_nil]
    omega

theorem leadingZeros_eq (n : Nat) {w : Nat} (x : BitVec w) :
    leadingZeros n x.toNat = ((List.range n).reverse.takeWhile fun i => !x.getLsbD i).length := by
  induction n with
  | zero => rfl
  | succ n ih =>
    rw [List.range_succ, List.reverse_append]
    simp only [leadingZeros, BitVec.testBit_toNat, List.reverse_singleton, List.singleton_append, List.takeWhile_cons]
    by_cases h : x.getLsbD n = true <;> simp [ih, h]; omega

theorem trailingZeros_eq (n k : Nat) {w : Nat} (x : BitVec w) :
    trailingZeros n k x.toNat = ((List.range' k n).takeWhile fun i => !x.getLsbD i).length := by
  induction n generalizing k with
  | zero => rfl
  | succ n ih =>
    rw [List.range'_succ]
    simp only [trailingZeros, BitVec.testBit_toNat, List.takeWhile_cons]
    by_cases h : x.getLsbD k = true <;> simp [ih, h]; omega

theorem reverseBits_lt (n v : Nat) : reverseBits n v < 2 ^ n := by
  induction n with
  | zero => simp [reverseBits]
  | succ n ih =>
    have h : 2 * reverseBits n v % 2 ^ (n + 1) = 2 * reverseBits n v := Nat.mod_eq_of_lt (by omega)
    simp only [reverseBits, h]
    split <;> omega

theorem reverseBits_testBit (n v i : Nat) : (reverseBits n v).testBit i = (decide (i < n) && v.testBit (n - 1 - i)) := by
  induction n generalizing i with
  | zero => simp [reverseBits]
  | succ n ih =>
    have hl := reverseBits_lt n v
    have h : 2 * reverseBits n v % 2 ^ (n + 1) = 2 * reverseBits n v := Nat.mod_eq_of_lt (by omega)
    simp only [reverseBits, h]
    cases i with
    | zero =>
      rw [Nat.testBit_zero]
      by_cases hv : v.testBit n = true <;> simp [hv]
    | succ i =>
      rw [Nat.testBit_succ]
      have : ((if v.testBit n = true then 1 else 0) + 2 * reverseBits n v) / 2 = reverseBits n v := by split <;> omega
      rw [this, ih]
      have h1 : n + 1 - 1 - (i + 1) = n - 1 - i := by omega
      rw [h1]; simp

theorem reverseBytes_testBit (n v i : Nat) : (reverseBytes n v).testBit i =
    (decide (i < 8 * n) && v.testBit (8 * (n - 1 - i / 8) + i % 8)) := by
  induction n generalizing i with
  | zero => simp [reverseBytes]
  | succ n ih =>
    simp only [reverseBytes]
    have e : v / 256 ^ n % 256 + 256 * reverseBytes n v = 2 ^ 8 * reverseBytes n v + v / 256 ^ n % 256 := by omega
    rw [e, Nat.testBit_two_pow_mul_add _ (by omega)]
    by_cases h : i < 8
    · rw [if_pos h, show (256 : Nat) = 2 ^ 8 from rfl, Nat.testBit_mod_two_pow, ← Nat.pow_mul, Nat.testBit_div_two_pow]
      have h1 : i / 8 = 0 := by omega
      have h2 : i % 8 = i := by omega
      have h3 : i < 8 * (n + 1) := by omega
      simp only [h, h1, h2, h3, decide_true, Bool.true_and]
      congr 1; omega
    · rw [if_neg h, ih]
      have h1 : n - 1 - (i - 8) / 8 = n + 1 - 1 - i / 8 := by omega
      have h2 : (i - 8) % 8 = i % 8 := by omega
      rw [h1, h2]
      congr 1
      exact decide_eq_decide.2 (by omega)

end Sys2Proof
end

