-- ==== Sys2Proof/Laws/PerInstr.lean ====
section
/-! SUPPORT. Statements made for every instruction. RoundTrip: the decoder reads a well-formed instruction back from its words. -/

set_option linter.unusedSimpArgs false
set_option linter.unusedVariables false

namespace Sys2Proof.Laws

/-- A well-formed instruction comes back from the words the encoder gives it. -/
def RoundTrip.Statement (i : Instr) : Prop := i.wf = true → decodeWords (encode i) = some i

theorem RoundTrip.bundleIssue (b : Bundle) : RoundTrip.Statement (.bundleIssue b) := fun h => decodeWords_encodeBundle h

theorem RoundTrip.nop  : RoundTrip.Statement (.nop) := fun h =>
  decodeWords_encode (g := Guard.always) rfl (LapFields.sound_plain rfl rfl) (by simp [Alu.enc, Alu1.enc, FAlu.enc, FAlu1.enc, Dab.enc, Msg.enc, encDabc, LapFields.base])
    (by simp [Alu.enc, Alu1.enc, FAlu.enc, FAlu1.enc, Dab.enc, Msg.enc, encDabc, LapFields.base, decOp, decRow0, decAlu, decAlu1, decFAlu, decWith, LapFields.alu, LapFields.alu1, LapFields.falu, LapFields.falu1, LapFields.dab, LapFields.msg, LapFields.noLit, LapFields.noMid, LapFields.imm34_fn, encGuard]) h

theorem RoundTrip.br (g : Guard) (disp : BitVec 34) : RoundTrip.Statement (.br g disp) := fun h =>
  decodeWords_encode (g := g) rfl (LapFields.sound_plain rfl rfl) (by simp [Alu.enc, Alu1.enc, FAlu.enc, FAlu1.enc, Dab.enc, Msg.enc, encDabc, LapFields.base])
    (by simp [Alu.enc, Alu1.enc, FAlu.enc, FAlu1.enc, Dab.enc, Msg.enc, encDabc, LapFields.base, decOp, decRow0, decAlu, decAlu1, decFAlu, decWith, LapFields.alu, LapFields.alu1, LapFields.falu, LapFields.falu1, LapFields.dab, LapFields.msg, LapFields.noLit, LapFields.noMid]) h

theorem RoundTrip.jmp (g : Guard) (d : LSpec) (a : LSpec) : RoundTrip.Statement (.jmp g d a) := fun h =>
  decodeWords_encode (g := g) rfl (LapFields.sound_plain rfl rfl) (by simp [Alu.enc, Alu1.enc, FAlu.enc, FAlu1.enc, Dab.enc, Msg.enc, encDabc, LapFields.base])
    (by simp [Alu.enc, Alu1.enc, FAlu.enc, FAlu1.enc, Dab.enc, Msg.enc, encDabc, LapFields.base, decOp, decRow0, decAlu, decAlu1, decFAlu, decWith, LapFields.alu, LapFields.alu1, LapFields.falu, LapFields.falu1, LapFields.dab, LapFields.msg, LapFields.noLit, LapFields.noMid]) h

theorem RoundTrip.call (g : Guard) (d : LSpec) (disp : BitVec 34) : RoundTrip.Statement (.call g d disp) := fun h =>
  decodeWords_encode (g := g) rfl (LapFields.sound_plain rfl rfl) (by simp [Alu.enc, Alu1.enc, FAlu.enc, FAlu1.enc, Dab.enc, Msg.enc, encDabc, LapFields.base])
    (by simp [Alu.enc, Alu1.enc, FAlu.enc, FAlu1.enc, Dab.enc, Msg.enc, encDabc, LapFields.base, decOp, decRow0, decAlu, decAlu1, decFAlu, decWith, LapFields.alu, LapFields.alu1, LapFields.falu, LapFields.falu1, LapFields.dab, LapFields.msg, LapFields.noLit, LapFields.noMid]) h

theorem RoundTrip.ret (g : Guard) (a : LSpec) : RoundTrip.Statement (.ret g a) := fun h =>
  decodeWords_encode (g := g) rfl (LapFields.sound_plain rfl rfl) (by simp [Alu.enc, Alu1.enc, FAlu.enc, FAlu1.enc, Dab.enc, Msg.enc, encDabc, LapFields.base])
    (by simp [Alu.enc, Alu1.enc, FAlu.enc, FAlu1.enc, Dab.enc, Msg.enc, encDabc, LapFields.base, decOp, decRow0, decAlu, decAlu1, decFAlu, decWith, LapFields.alu, LapFields.alu1, LapFields.falu, LapFields.falu1, LapFields.dab, LapFields.msg, LapFields.noLit, LapFields.noMid]) h

theorem RoundTrip.loop (g : Guard) (d : LSpec) (disp : BitVec 34) : RoundTrip.Statement (.loop g d disp) := fun h =>
  decodeWords_encode (g := g) rfl (LapFields.sound_plain rfl rfl) (by simp [Alu.enc, Alu1.enc, FAlu.enc, FAlu1.enc, Dab.enc, Msg.enc, encDabc, LapFields.base])
    (by simp [Alu.enc, Alu1.enc, FAlu.enc, FAlu1.enc, Dab.enc, Msg.enc, encDabc, LapFields.base, decOp, decRow0, decAlu, decAlu1, decFAlu, decWith, LapFields.alu, LapFields.alu1, LapFields.falu, LapFields.falu1, LapFields.dab, LapFields.msg, LapFields.noLit, LapFields.noMid]) h

theorem RoundTrip.halt (g : Guard) : RoundTrip.Statement (.halt g) := fun h =>
  decodeWords_encode (g := g) rfl (LapFields.sound_plain rfl rfl) (by simp [Alu.enc, Alu1.enc, FAlu.enc, FAlu1.enc, Dab.enc, Msg.enc, encDabc, LapFields.base])
    (by simp [Alu.enc, Alu1.enc, FAlu.enc, FAlu1.enc, Dab.enc, Msg.enc, encDabc, LapFields.base, decOp, decRow0, decAlu, decAlu1, decFAlu, decWith, LapFields.alu, LapFields.alu1, LapFields.falu, LapFields.falu1, LapFields.dab, LapFields.msg, LapFields.noLit, LapFields.noMid, LapFields.imm34_fn]) h

theorem RoundTrip.trap (g : Guard) (imm : BitVec 8) : RoundTrip.Statement (.trap g imm) := fun h =>
  decodeWords_encode (g := g) rfl (LapFields.sound_plain rfl rfl) (by simp [Alu.enc, Alu1.enc, FAlu.enc, FAlu1.enc, Dab.enc, Msg.enc, encDabc, LapFields.base])
    (by simp [Alu.enc, Alu1.enc, FAlu.enc, FAlu1.enc, Dab.enc, Msg.enc, encDabc, LapFields.base, decOp, decRow0, decAlu, decAlu1, decFAlu, decWith, LapFields.alu, LapFields.alu1, LapFields.falu, LapFields.falu1, LapFields.dab, LapFields.msg, LapFields.noLit, LapFields.noMid, LapFields.imm34_fn]) h

theorem RoundTrip.hret (g : Guard) : RoundTrip.Statement (.hret g) := fun h =>
  decodeWords_encode (g := g) rfl (LapFields.sound_plain rfl rfl) (by simp [Alu.enc, Alu1.enc, FAlu.enc, FAlu1.enc, Dab.enc, Msg.enc, encDabc, LapFields.base])
    (by simp [Alu.enc, Alu1.enc, FAlu.enc, FAlu1.enc, Dab.enc, Msg.enc, encDabc, LapFields.base, decOp, decRow0, decAlu, decAlu1, decFAlu, decWith, LapFields.alu, LapFields.alu1, LapFields.falu, LapFields.falu1, LapFields.dab, LapFields.msg, LapFields.noLit, LapFields.noMid, LapFields.imm34_fn]) h

theorem RoundTrip.scall (g : Guard) (imm : BitVec 8) : RoundTrip.Statement (.scall g imm) := fun h =>
  decodeWords_encode (g := g) rfl (LapFields.sound_plain rfl rfl) (by simp [Alu.enc, Alu1.enc, FAlu.enc, FAlu1.enc, Dab.enc, Msg.enc, encDabc, LapFields.base])
    (by simp [Alu.enc, Alu1.enc, FAlu.enc, FAlu1.enc, Dab.enc, Msg.enc, encDabc, LapFields.base, decOp, decRow0, decAlu, decAlu1, decFAlu, decWith, LapFields.alu, LapFields.alu1, LapFields.falu, LapFields.falu1, LapFields.dab, LapFields.msg, LapFields.noLit, LapFields.noMid, LapFields.imm34_fn]) h

theorem RoundTrip.srrd (g : Guard) (d : LSpec) (num : BitVec 12) : RoundTrip.Statement (.srrd g d num) := fun h =>
  decodeWords_encode (g := g) rfl (LapFields.sound_plain rfl rfl) (by simp [Alu.enc, Alu1.enc, FAlu.enc, FAlu1.enc, Dab.enc, Msg.enc, encDabc, LapFields.base])
    (by simp [Alu.enc, Alu1.enc, FAlu.enc, FAlu1.enc, Dab.enc, Msg.enc, encDabc, LapFields.base, decOp, decRow0, decAlu, decAlu1, decFAlu, decWith, LapFields.alu, LapFields.alu1, LapFields.falu, LapFields.falu1, LapFields.dab, LapFields.msg, LapFields.noLit, LapFields.noMid]) h

theorem RoundTrip.srwr (g : Guard) (a : LSpec) (num : BitVec 12) : RoundTrip.Statement (.srwr g a num) := fun h =>
  decodeWords_encode (g := g) rfl (LapFields.sound_plain rfl rfl) (by simp [Alu.enc, Alu1.enc, FAlu.enc, FAlu1.enc, Dab.enc, Msg.enc, encDabc, LapFields.base])
    (by simp [Alu.enc, Alu1.enc, FAlu.enc, FAlu1.enc, Dab.enc, Msg.enc, encDabc, LapFields.base, decOp, decRow0, decAlu, decAlu1, decFAlu, decWith, LapFields.alu, LapFields.alu1, LapFields.falu, LapFields.falu1, LapFields.dab, LapFields.msg, LapFields.noLit, LapFields.noMid]) h

theorem RoundTrip.flgrd (g : Guard) (d : LSpec) : RoundTrip.Statement (.flgrd g d) := fun h =>
  decodeWords_encode (g := g) rfl (LapFields.sound_plain rfl rfl) (by simp [Alu.enc, Alu1.enc, FAlu.enc, FAlu1.enc, Dab.enc, Msg.enc, encDabc, LapFields.base])
    (by simp [Alu.enc, Alu1.enc, FAlu.enc, FAlu1.enc, Dab.enc, Msg.enc, encDabc, LapFields.base, decOp, decRow0, decAlu, decAlu1, decFAlu, decWith, LapFields.alu, LapFields.alu1, LapFields.falu, LapFields.falu1, LapFields.dab, LapFields.msg, LapFields.noLit, LapFields.noMid, LapFields.imm34_fn]) h

theorem RoundTrip.flgclr (g : Guard) (m : BitVec 5) : RoundTrip.Statement (.flgclr g m) := fun h =>
  decodeWords_encode (g := g) rfl (LapFields.sound_plain rfl rfl) (by simp [Alu.enc, Alu1.enc, FAlu.enc, FAlu1.enc, Dab.enc, Msg.enc, encDabc, LapFields.base])
    (by simp [Alu.enc, Alu1.enc, FAlu.enc, FAlu1.enc, Dab.enc, Msg.enc, encDabc, LapFields.base, decOp, decRow0, decAlu, decAlu1, decFAlu, decWith, LapFields.alu, LapFields.alu1, LapFields.falu, LapFields.falu1, LapFields.dab, LapFields.msg, LapFields.noLit, LapFields.noMid]) h

theorem RoundTrip.bkpt (g : Guard) (imm : BitVec 8) : RoundTrip.Statement (.bkpt g imm) := fun h =>
  decodeWords_encode (g := g) rfl (LapFields.sound_plain rfl rfl) (by simp [Alu.enc, Alu1.enc, FAlu.enc, FAlu1.enc, Dab.enc, Msg.enc, encDabc, LapFields.base])
    (by simp [Alu.enc, Alu1.enc, FAlu.enc, FAlu1.enc, Dab.enc, Msg.enc, encDabc, LapFields.base, decOp, decRow0, decAlu, decAlu1, decFAlu, decWith, LapFields.alu, LapFields.alu1, LapFields.falu, LapFields.falu1, LapFields.dab, LapFields.msg, LapFields.noLit, LapFields.noMid, LapFields.imm34_fn]) h

theorem RoundTrip.modeset (g : Guard) (a : LSpec) (num : BitVec 12) : RoundTrip.Statement (.modeset g a num) := fun h =>
  decodeWords_encode (g := g) rfl (LapFields.sound_plain rfl rfl) (by simp [Alu.enc, Alu1.enc, FAlu.enc, FAlu1.enc, Dab.enc, Msg.enc, encDabc, LapFields.base])
    (by simp [Alu.enc, Alu1.enc, FAlu.enc, FAlu1.enc, Dab.enc, Msg.enc, encDabc, LapFields.base, decOp, decRow0, decAlu, decAlu1, decFAlu, decWith, LapFields.alu, LapFields.alu1, LapFields.falu, LapFields.falu1, LapFields.dab, LapFields.msg, LapFields.noLit, LapFields.noMid]) h

theorem RoundTrip.add (o : Alu) : RoundTrip.Statement (.add o) := fun h =>
  decodeWords_encode (g := o.g) rfl (LapFields.sound_withB rfl rfl _) (by simp [Alu.enc, Alu1.enc, FAlu.enc, FAlu1.enc, Dab.enc, Msg.enc, encDabc, LapFields.base])
    (by simp [Alu.enc, Alu1.enc, FAlu.enc, FAlu1.enc, Dab.enc, Msg.enc, encDabc, LapFields.base, decOp, decRow1, decAlu, decAlu1, decFAlu, decWith, LapFields.alu, LapFields.alu1, LapFields.falu, LapFields.falu1, LapFields.dab, LapFields.msg, LapFields.noLit, LapFields.noMid]) h

theorem RoundTrip.sub (o : Alu) : RoundTrip.Statement (.sub o) := fun h =>
  decodeWords_encode (g := o.g) rfl (LapFields.sound_withB rfl rfl _) (by simp [Alu.enc, Alu1.enc, FAlu.enc, FAlu1.enc, Dab.enc, Msg.enc, encDabc, LapFields.base])
    (by simp [Alu.enc, Alu1.enc, FAlu.enc, FAlu1.enc, Dab.enc, Msg.enc, encDabc, LapFields.base, decOp, decRow1, decAlu, decAlu1, decFAlu, decWith, LapFields.alu, LapFields.alu1, LapFields.falu, LapFields.falu1, LapFields.dab, LapFields.msg, LapFields.noLit, LapFields.noMid]) h

theorem RoundTrip.mul (o : Alu) : RoundTrip.Statement (.mul o) := fun h =>
  decodeWords_encode (g := o.g) rfl (LapFields.sound_withB rfl rfl _) (by simp [Alu.enc, Alu1.enc, FAlu.enc, FAlu1.enc, Dab.enc, Msg.enc, encDabc, LapFields.base])
    (by simp [Alu.enc, Alu1.enc, FAlu.enc, FAlu1.enc, Dab.enc, Msg.enc, encDabc, LapFields.base, decOp, decRow1, decAlu, decAlu1, decFAlu, decWith, LapFields.alu, LapFields.alu1, LapFields.falu, LapFields.falu1, LapFields.dab, LapFields.msg, LapFields.noLit, LapFields.noMid]) h

theorem RoundTrip.mulh (o : Alu) : RoundTrip.Statement (.mulh o) := fun h =>
  decodeWords_encode (g := o.g) rfl (LapFields.sound_withB rfl rfl _) (by simp [Alu.enc, Alu1.enc, FAlu.enc, FAlu1.enc, Dab.enc, Msg.enc, encDabc, LapFields.base])
    (by simp [Alu.enc, Alu1.enc, FAlu.enc, FAlu1.enc, Dab.enc, Msg.enc, encDabc, LapFields.base, decOp, decRow1, decAlu, decAlu1, decFAlu, decWith, LapFields.alu, LapFields.alu1, LapFields.falu, LapFields.falu1, LapFields.dab, LapFields.msg, LapFields.noLit, LapFields.noMid]) h

theorem RoundTrip.mulhn (o : Alu) : RoundTrip.Statement (.mulhn o) := fun h =>
  decodeWords_encode (g := o.g) rfl (LapFields.sound_withB rfl rfl _) (by simp [Alu.enc, Alu1.enc, FAlu.enc, FAlu1.enc, Dab.enc, Msg.enc, encDabc, LapFields.base])
    (by simp [Alu.enc, Alu1.enc, FAlu.enc, FAlu1.enc, Dab.enc, Msg.enc, encDabc, LapFields.base, decOp, decRow1, decAlu, decAlu1, decFAlu, decWith, LapFields.alu, LapFields.alu1, LapFields.falu, LapFields.falu1, LapFields.dab, LapFields.msg, LapFields.noLit, LapFields.noMid]) h

theorem RoundTrip.div (o : Alu) : RoundTrip.Statement (.div o) := fun h =>
  decodeWords_encode (g := o.g) rfl (LapFields.sound_withB rfl rfl _) (by simp [Alu.enc, Alu1.enc, FAlu.enc, FAlu1.enc, Dab.enc, Msg.enc, encDabc, LapFields.base])
    (by simp [Alu.enc, Alu1.enc, FAlu.enc, FAlu1.enc, Dab.enc, Msg.enc, encDabc, LapFields.base, decOp, decRow1, decAlu, decAlu1, decFAlu, decWith, LapFields.alu, LapFields.alu1, LapFields.falu, LapFields.falu1, LapFields.dab, LapFields.msg, LapFields.noLit, LapFields.noMid]) h

theorem RoundTrip.divn (o : Alu) : RoundTrip.Statement (.divn o) := fun h =>
  decodeWords_encode (g := o.g) rfl (LapFields.sound_withB rfl rfl _) (by simp [Alu.enc, Alu1.enc, FAlu.enc, FAlu1.enc, Dab.enc, Msg.enc, encDabc, LapFields.base])
    (by simp [Alu.enc, Alu1.enc, FAlu.enc, FAlu1.enc, Dab.enc, Msg.enc, encDabc, LapFields.base, decOp, decRow1, decAlu, decAlu1, decFAlu, decWith, LapFields.alu, LapFields.alu1, LapFields.falu, LapFields.falu1, LapFields.dab, LapFields.msg, LapFields.noLit, LapFields.noMid]) h

theorem RoundTrip.rem (o : Alu) : RoundTrip.Statement (.rem o) := fun h =>
  decodeWords_encode (g := o.g) rfl (LapFields.sound_withB rfl rfl _) (by simp [Alu.enc, Alu1.enc, FAlu.enc, FAlu1.enc, Dab.enc, Msg.enc, encDabc, LapFields.base])
    (by simp [Alu.enc, Alu1.enc, FAlu.enc, FAlu1.enc, Dab.enc, Msg.enc, encDabc, LapFields.base, decOp, decRow1, decAlu, decAlu1, decFAlu, decWith, LapFields.alu, LapFields.alu1, LapFields.falu, LapFields.falu1, LapFields.dab, LapFields.msg, LapFields.noLit, LapFields.noMid]) h

theorem RoundTrip.remn (o : Alu) : RoundTrip.Statement (.remn o) := fun h =>
  decodeWords_encode (g := o.g) rfl (LapFields.sound_withB rfl rfl _) (by simp [Alu.enc, Alu1.enc, FAlu.enc, FAlu1.enc, Dab.enc, Msg.enc, encDabc, LapFields.base])
    (by simp [Alu.enc, Alu1.enc, FAlu.enc, FAlu1.enc, Dab.enc, Msg.enc, encDabc, LapFields.base, decOp, decRow1, decAlu, decAlu1, decFAlu, decWith, LapFields.alu, LapFields.alu1, LapFields.falu, LapFields.falu1, LapFields.dab, LapFields.msg, LapFields.noLit, LapFields.noMid]) h

theorem RoundTrip.neg (o : Alu1) : RoundTrip.Statement (.neg o) := fun h =>
  decodeWords_encode (g := o.g) rfl (LapFields.sound_plain rfl rfl) (by simp [Alu.enc, Alu1.enc, FAlu.enc, FAlu1.enc, Dab.enc, Msg.enc, encDabc, LapFields.base])
    (by simp [Alu.enc, Alu1.enc, FAlu.enc, FAlu1.enc, Dab.enc, Msg.enc, encDabc, LapFields.base, decOp, decRow1, decAlu, decAlu1, decFAlu, decWith, LapFields.alu, LapFields.alu1, LapFields.falu, LapFields.falu1, LapFields.dab, LapFields.msg, LapFields.noLit, LapFields.noMid]) h

theorem RoundTrip.abs (o : Alu1) : RoundTrip.Statement (.abs o) := fun h =>
  decodeWords_encode (g := o.g) rfl (LapFields.sound_plain rfl rfl) (by simp [Alu.enc, Alu1.enc, FAlu.enc, FAlu1.enc, Dab.enc, Msg.enc, encDabc, LapFields.base])
    (by simp [Alu.enc, Alu1.enc, FAlu.enc, FAlu1.enc, Dab.enc, Msg.enc, encDabc, LapFields.base, decOp, decRow1, decAlu, decAlu1, decFAlu, decWith, LapFields.alu, LapFields.alu1, LapFields.falu, LapFields.falu1, LapFields.dab, LapFields.msg, LapFields.noLit, LapFields.noMid]) h

theorem RoundTrip.min (o : Alu) : RoundTrip.Statement (.min o) := fun h =>
  decodeWords_encode (g := o.g) rfl (LapFields.sound_withB rfl rfl _) (by simp [Alu.enc, Alu1.enc, FAlu.enc, FAlu1.enc, Dab.enc, Msg.enc, encDabc, LapFields.base])
    (by simp [Alu.enc, Alu1.enc, FAlu.enc, FAlu1.enc, Dab.enc, Msg.enc, encDabc, LapFields.base, decOp, decRow1, decAlu, decAlu1, decFAlu, decWith, LapFields.alu, LapFields.alu1, LapFields.falu, LapFields.falu1, LapFields.dab, LapFields.msg, LapFields.noLit, LapFields.noMid]) h

theorem RoundTrip.max (o : Alu) : RoundTrip.Statement (.max o) := fun h =>
  decodeWords_encode (g := o.g) rfl (LapFields.sound_withB rfl rfl _) (by simp [Alu.enc, Alu1.enc, FAlu.enc, FAlu1.enc, Dab.enc, Msg.enc, encDabc, LapFields.base])
    (by simp [Alu.enc, Alu1.enc, FAlu.enc, FAlu1.enc, Dab.enc, Msg.enc, encDabc, LapFields.base, decOp, decRow1, decAlu, decAlu1, decFAlu, decWith, LapFields.alu, LapFields.alu1, LapFields.falu, LapFields.falu1, LapFields.dab, LapFields.msg, LapFields.noLit, LapFields.noMid]) h

theorem RoundTrip.minn (o : Alu) : RoundTrip.Statement (.minn o) := fun h =>
  decodeWords_encode (g := o.g) rfl (LapFields.sound_withB rfl rfl _) (by simp [Alu.enc, Alu1.enc, FAlu.enc, FAlu1.enc, Dab.enc, Msg.enc, encDabc, LapFields.base])
    (by simp [Alu.enc, Alu1.enc, FAlu.enc, FAlu1.enc, Dab.enc, Msg.enc, encDabc, LapFields.base, decOp, decRow1, decAlu, decAlu1, decFAlu, decWith, LapFields.alu, LapFields.alu1, LapFields.falu, LapFields.falu1, LapFields.dab, LapFields.msg, LapFields.noLit, LapFields.noMid]) h

theorem RoundTrip.maxn (o : Alu) : RoundTrip.Statement (.maxn o) := fun h =>
  decodeWords_encode (g := o.g) rfl (LapFields.sound_withB rfl rfl _) (by simp [Alu.enc, Alu1.enc, FAlu.enc, FAlu1.enc, Dab.enc, Msg.enc, encDabc, LapFields.base])
    (by simp [Alu.enc, Alu1.enc, FAlu.enc, FAlu1.enc, Dab.enc, Msg.enc, encDabc, LapFields.base, decOp, decRow1, decAlu, decAlu1, decFAlu, decWith, LapFields.alu, LapFields.alu1, LapFields.falu, LapFields.falu1, LapFields.dab, LapFields.msg, LapFields.noLit, LapFields.noMid]) h

theorem RoundTrip.mov (g : Guard) (d : LSpec) (b : BSrc) : RoundTrip.Statement (.mov g d b) := fun h =>
  decodeWords_encode (g := g) rfl (LapFields.sound_withB rfl rfl _) (by simp [Alu.enc, Alu1.enc, FAlu.enc, FAlu1.enc, Dab.enc, Msg.enc, encDabc, LapFields.base])
    (by simp [Alu.enc, Alu1.enc, FAlu.enc, FAlu1.enc, Dab.enc, Msg.enc, encDabc, LapFields.base, decOp, decRow1, decAlu, decAlu1, decFAlu, decWith, LapFields.alu, LapFields.alu1, LapFields.falu, LapFields.falu1, LapFields.dab, LapFields.msg, LapFields.noLit, LapFields.noMid]) h

theorem RoundTrip.and (o : Alu) : RoundTrip.Statement (.and o) := fun h =>
  decodeWords_encode (g := o.g) rfl (LapFields.sound_withB rfl rfl _) (by simp [Alu.enc, Alu1.enc, FAlu.enc, FAlu1.enc, Dab.enc, Msg.enc, encDabc, LapFields.base])
    (by simp [Alu.enc, Alu1.enc, FAlu.enc, FAlu1.enc, Dab.enc, Msg.enc, encDabc, LapFields.base, decOp, decRow2, decAlu, decAlu1, decFAlu, decWith, LapFields.alu, LapFields.alu1, LapFields.falu, LapFields.falu1, LapFields.dab, LapFields.msg, LapFields.noLit, LapFields.noMid]) h

theorem RoundTrip.or (o : Alu) : RoundTrip.Statement (.or o) := fun h =>
  decodeWords_encode (g := o.g) rfl (LapFields.sound_withB rfl rfl _) (by simp [Alu.enc, Alu1.enc, FAlu.enc, FAlu1.enc, Dab.enc, Msg.enc, encDabc, LapFields.base])
    (by simp [Alu.enc, Alu1.enc, FAlu.enc, FAlu1.enc, Dab.enc, Msg.enc, encDabc, LapFields.base, decOp, decRow2, decAlu, decAlu1, decFAlu, decWith, LapFields.alu, LapFields.alu1, LapFields.falu, LapFields.falu1, LapFields.dab, LapFields.msg, LapFields.noLit, LapFields.noMid]) h

theorem RoundTrip.xor (o : Alu) : RoundTrip.Statement (.xor o) := fun h =>
  decodeWords_encode (g := o.g) rfl (LapFields.sound_withB rfl rfl _) (by simp [Alu.enc, Alu1.enc, FAlu.enc, FAlu1.enc, Dab.enc, Msg.enc, encDabc, LapFields.base])
    (by simp [Alu.enc, Alu1.enc, FAlu.enc, FAlu1.enc, Dab.enc, Msg.enc, encDabc, LapFields.base, decOp, decRow2, decAlu, decAlu1, decFAlu, decWith, LapFields.alu, LapFields.alu1, LapFields.falu, LapFields.falu1, LapFields.dab, LapFields.msg, LapFields.noLit, LapFields.noMid]) h

theorem RoundTrip.andn (o : Alu) : RoundTrip.Statement (.andn o) := fun h =>
  decodeWords_encode (g := o.g) rfl (LapFields.sound_withB rfl rfl _) (by simp [Alu.enc, Alu1.enc, FAlu.enc, FAlu1.enc, Dab.enc, Msg.enc, encDabc, LapFields.base])
    (by simp [Alu.enc, Alu1.enc, FAlu.enc, FAlu1.enc, Dab.enc, Msg.enc, encDabc, LapFields.base, decOp, decRow2, decAlu, decAlu1, decFAlu, decWith, LapFields.alu, LapFields.alu1, LapFields.falu, LapFields.falu1, LapFields.dab, LapFields.msg, LapFields.noLit, LapFields.noMid]) h

theorem RoundTrip.shl (o : Alu) : RoundTrip.Statement (.shl o) := fun h =>
  decodeWords_encode (g := o.g) rfl (LapFields.sound_withB rfl rfl _) (by simp [Alu.enc, Alu1.enc, FAlu.enc, FAlu1.enc, Dab.enc, Msg.enc, encDabc, LapFields.base])
    (by simp [Alu.enc, Alu1.enc, FAlu.enc, FAlu1.enc, Dab.enc, Msg.enc, encDabc, LapFields.base, decOp, decRow2, decAlu, decAlu1, decFAlu, decWith, LapFields.alu, LapFields.alu1, LapFields.falu, LapFields.falu1, LapFields.dab, LapFields.msg, LapFields.noLit, LapFields.noMid]) h

theorem RoundTrip.shr (o : Alu) : RoundTrip.Statement (.shr o) := fun h =>
  decodeWords_encode (g := o.g) rfl (LapFields.sound_withB rfl rfl _) (by simp [Alu.enc, Alu1.enc, FAlu.enc, FAlu1.enc, Dab.enc, Msg.enc, encDabc, LapFields.base])
    (by simp [Alu.enc, Alu1.enc, FAlu.enc, FAlu1.enc, Dab.enc, Msg.enc, encDabc, LapFields.base, decOp, decRow2, decAlu, decAlu1, decFAlu, decWith, LapFields.alu, LapFields.alu1, LapFields.falu, LapFields.falu1, LapFields.dab, LapFields.msg, LapFields.noLit, LapFields.noMid]) h

theorem RoundTrip.sra (o : Alu) : RoundTrip.Statement (.sra o) := fun h =>
  decodeWords_encode (g := o.g) rfl (LapFields.sound_withB rfl rfl _) (by simp [Alu.enc, Alu1.enc, FAlu.enc, FAlu1.enc, Dab.enc, Msg.enc, encDabc, LapFields.base])
    (by simp [Alu.enc, Alu1.enc, FAlu.enc, FAlu1.enc, Dab.enc, Msg.enc, encDabc, LapFields.base, decOp, decRow2, decAlu, decAlu1, decFAlu, decWith, LapFields.alu, LapFields.alu1, LapFields.falu, LapFields.falu1, LapFields.dab, LapFields.msg, LapFields.noLit, LapFields.noMid]) h

theorem RoundTrip.rot (o : Alu) : RoundTrip.Statement (.rot o) := fun h =>
  decodeWords_encode (g := o.g) rfl (LapFields.sound_withB rfl rfl _) (by simp [Alu.enc, Alu1.enc, FAlu.enc, FAlu1.enc, Dab.enc, Msg.enc, encDabc, LapFields.base])
    (by simp [Alu.enc, Alu1.enc, FAlu.enc, FAlu1.enc, Dab.enc, Msg.enc, encDabc, LapFields.base, decOp, decRow2, decAlu, decAlu1, decFAlu, decWith, LapFields.alu, LapFields.alu1, LapFields.falu, LapFields.falu1, LapFields.dab, LapFields.msg, LapFields.noLit, LapFields.noMid]) h

theorem RoundTrip.bfx (g : Guard) (d : LSpec) (a : LSpec) (pos : BitVec 6) (len : BitVec 6) : RoundTrip.Statement (.bfx g d a pos len) := fun h =>
  decodeWords_encode (g := g) rfl (LapFields.sound_plain rfl rfl) (by simp [Alu.enc, Alu1.enc, FAlu.enc, FAlu1.enc, Dab.enc, Msg.enc, encDabc, LapFields.base])
    (by simp [Alu.enc, Alu1.enc, FAlu.enc, FAlu1.enc, Dab.enc, Msg.enc, encDabc, LapFields.base, decOp, decRow2, decAlu, decAlu1, decFAlu, decWith, LapFields.alu, LapFields.alu1, LapFields.falu, LapFields.falu1, LapFields.dab, LapFields.msg, LapFields.noLit, LapFields.noMid]) h

theorem RoundTrip.bfi (g : Guard) (d : LSpec) (a : LSpec) (pos : BitVec 6) (len : BitVec 6) : RoundTrip.Statement (.bfi g d a pos len) := fun h =>
  decodeWords_encode (g := g) rfl (LapFields.sound_plain rfl rfl) (by simp [Alu.enc, Alu1.enc, FAlu.enc, FAlu1.enc, Dab.enc, Msg.enc, encDabc, LapFields.base])
    (by simp [Alu.enc, Alu1.enc, FAlu.enc, FAlu1.enc, Dab.enc, Msg.enc, encDabc, LapFields.base, decOp, decRow2, decAlu, decAlu1, decFAlu, decWith, LapFields.alu, LapFields.alu1, LapFields.falu, LapFields.falu1, LapFields.dab, LapFields.msg, LapFields.noLit, LapFields.noMid]) h

theorem RoundTrip.pcnt (o : Alu1) : RoundTrip.Statement (.pcnt o) := fun h =>
  decodeWords_encode (g := o.g) rfl (LapFields.sound_plain rfl rfl) (by simp [Alu.enc, Alu1.enc, FAlu.enc, FAlu1.enc, Dab.enc, Msg.enc, encDabc, LapFields.base])
    (by simp [Alu.enc, Alu1.enc, FAlu.enc, FAlu1.enc, Dab.enc, Msg.enc, encDabc, LapFields.base, decOp, decRow2, decAlu, decAlu1, decFAlu, decWith, LapFields.alu, LapFields.alu1, LapFields.falu, LapFields.falu1, LapFields.dab, LapFields.msg, LapFields.noLit, LapFields.noMid]) h

theorem RoundTrip.clz (o : Alu1) : RoundTrip.Statement (.clz o) := fun h =>
  decodeWords_encode (g := o.g) rfl (LapFields.sound_plain rfl rfl) (by simp [Alu.enc, Alu1.enc, FAlu.enc, FAlu1.enc, Dab.enc, Msg.enc, encDabc, LapFields.base])
    (by simp [Alu.enc, Alu1.enc, FAlu.enc, FAlu1.enc, Dab.enc, Msg.enc, encDabc, LapFields.base, decOp, decRow2, decAlu, decAlu1, decFAlu, decWith, LapFields.alu, LapFields.alu1, LapFields.falu, LapFields.falu1, LapFields.dab, LapFields.msg, LapFields.noLit, LapFields.noMid]) h

theorem RoundTrip.ctz (o : Alu1) : RoundTrip.Statement (.ctz o) := fun h =>
  decodeWords_encode (g := o.g) rfl (LapFields.sound_plain rfl rfl) (by simp [Alu.enc, Alu1.enc, FAlu.enc, FAlu1.enc, Dab.enc, Msg.enc, encDabc, LapFields.base])
    (by simp [Alu.enc, Alu1.enc, FAlu.enc, FAlu1.enc, Dab.enc, Msg.enc, encDabc, LapFields.base, decOp, decRow2, decAlu, decAlu1, decFAlu, decWith, LapFields.alu, LapFields.alu1, LapFields.falu, LapFields.falu1, LapFields.dab, LapFields.msg, LapFields.noLit, LapFields.noMid]) h

theorem RoundTrip.brev (o : Alu1) : RoundTrip.Statement (.brev o) := fun h =>
  decodeWords_encode (g := o.g) rfl (LapFields.sound_plain rfl rfl) (by simp [Alu.enc, Alu1.enc, FAlu.enc, FAlu1.enc, Dab.enc, Msg.enc, encDabc, LapFields.base])
    (by simp [Alu.enc, Alu1.enc, FAlu.enc, FAlu1.enc, Dab.enc, Msg.enc, encDabc, LapFields.base, decOp, decRow2, decAlu, decAlu1, decFAlu, decWith, LapFields.alu, LapFields.alu1, LapFields.falu, LapFields.falu1, LapFields.dab, LapFields.msg, LapFields.noLit, LapFields.noMid]) h

theorem RoundTrip.bswap (o : Alu1) : RoundTrip.Statement (.bswap o) := fun h =>
  decodeWords_encode (g := o.g) rfl (LapFields.sound_plain rfl rfl) (by simp [Alu.enc, Alu1.enc, FAlu.enc, FAlu1.enc, Dab.enc, Msg.enc, encDabc, LapFields.base])
    (by simp [Alu.enc, Alu1.enc, FAlu.enc, FAlu1.enc, Dab.enc, Msg.enc, encDabc, LapFields.base, decOp, decRow2, decAlu, decAlu1, decFAlu, decWith, LapFields.alu, LapFields.alu1, LapFields.falu, LapFields.falu1, LapFields.dab, LapFields.msg, LapFields.noLit, LapFields.noMid]) h

theorem RoundTrip.lea (g : Guard) (d : LSpec) (a : LSpec) (disp : Disp) : RoundTrip.Statement (.lea g d a disp) := fun h =>
  decodeWords_encode (g := g) rfl (LapFields.sound_withDisp rfl rfl _) (by simp [Alu.enc, Alu1.enc, FAlu.enc, FAlu1.enc, Dab.enc, Msg.enc, encDabc, LapFields.base])
    (by simp [Alu.enc, Alu1.enc, FAlu.enc, FAlu1.enc, Dab.enc, Msg.enc, encDabc, LapFields.base, decOp, decRow2, decAlu, decAlu1, decFAlu, decWith, LapFields.alu, LapFields.alu1, LapFields.falu, LapFields.falu1, LapFields.dab, LapFields.msg, LapFields.noLit, LapFields.noMid]) h

theorem RoundTrip.cmp (g : Guard) (ty : Ty) (rel : Rel) (p : Fin 7) (a : LSpec) (b : BSrc) : RoundTrip.Statement (.cmp g ty rel p a b) := fun h =>
  decodeWords_encode (g := g) rfl (LapFields.sound_withB rfl rfl _) (by simp [Alu.enc, Alu1.enc, FAlu.enc, FAlu1.enc, Dab.enc, Msg.enc, encDabc, LapFields.base])
    (by simp [Alu.enc, Alu1.enc, FAlu.enc, FAlu1.enc, Dab.enc, Msg.enc, encDabc, LapFields.base, decOp, decRow3, decAlu, decAlu1, decFAlu, decWith, LapFields.alu, LapFields.alu1, LapFields.falu, LapFields.falu1, LapFields.dab, LapFields.msg, LapFields.noLit, LapFields.noMid]) h

theorem RoundTrip.plog (g : Guard) (p : Fin 7) (pa : Fin 7) (pb : Fin 7) (tt : BitVec 4) : RoundTrip.Statement (.plog g p pa pb tt) := fun h =>
  decodeWords_encode (g := g) rfl (LapFields.sound_plain rfl rfl) (by simp [Alu.enc, Alu1.enc, FAlu.enc, FAlu1.enc, Dab.enc, Msg.enc, encDabc, LapFields.base])
    (by simp [Alu.enc, Alu1.enc, FAlu.enc, FAlu1.enc, Dab.enc, Msg.enc, encDabc, LapFields.base, decOp, decRow3, decAlu, decAlu1, decFAlu, decWith, LapFields.alu, LapFields.alu1, LapFields.falu, LapFields.falu1, LapFields.dab, LapFields.msg, LapFields.noLit, LapFields.noMid]) h

theorem RoundTrip.pmov (g : Guard) (d : LSpec) (a : LSpec) : RoundTrip.Statement (.pmov g d a) := fun h =>
  decodeWords_encode (g := g) rfl (LapFields.sound_plain rfl rfl) (by simp [Alu.enc, Alu1.enc, FAlu.enc, FAlu1.enc, Dab.enc, Msg.enc, encDabc, LapFields.base])
    (by simp [Alu.enc, Alu1.enc, FAlu.enc, FAlu1.enc, Dab.enc, Msg.enc, encDabc, LapFields.base, decOp, decRow3, decAlu, decAlu1, decFAlu, decWith, LapFields.alu, LapFields.alu1, LapFields.falu, LapFields.falu1, LapFields.dab, LapFields.msg, LapFields.noLit, LapFields.noMid]) h

theorem RoundTrip.sel (g : Guard) (d : LSpec) (a : LSpec) (b : BSrc) (p : Fin 7) : RoundTrip.Statement (.sel g d a b p) := fun h =>
  decodeWords_encode (g := g) rfl (LapFields.sound_withB rfl rfl _) (by simp [Alu.enc, Alu1.enc, FAlu.enc, FAlu1.enc, Dab.enc, Msg.enc, encDabc, LapFields.base])
    (by simp [Alu.enc, Alu1.enc, FAlu.enc, FAlu1.enc, Dab.enc, Msg.enc, encDabc, LapFields.base, decOp, decRow3, decAlu, decAlu1, decFAlu, decWith, LapFields.alu, LapFields.alu1, LapFields.falu, LapFields.falu1, LapFields.dab, LapFields.msg, LapFields.noLit, LapFields.noMid]) h

theorem RoundTrip.pfxc (g : Guard) (d : LSpec) (a : LSpec) (b : LSpec) : RoundTrip.Statement (.pfxc g d a b) := fun h =>
  decodeWords_encode (g := g) rfl (LapFields.sound_plain rfl rfl) (by simp [Alu.enc, Alu1.enc, FAlu.enc, FAlu1.enc, Dab.enc, Msg.enc, encDabc, LapFields.base])
    (by simp [Alu.enc, Alu1.enc, FAlu.enc, FAlu1.enc, Dab.enc, Msg.enc, encDabc, LapFields.base, decOp, decRow3, decAlu, decAlu1, decFAlu, decWith, LapFields.alu, LapFields.alu1, LapFields.falu, LapFields.falu1, LapFields.dab, LapFields.msg, LapFields.noLit, LapFields.noMid]) h

theorem RoundTrip.intx (g : Guard) (d : LSpec) (a : LSpec) (b : LSpec) (c : LSpec) : RoundTrip.Statement (.intx g d a b c) := fun h =>
  decodeWords_encode (g := g) rfl (LapFields.sound_plain rfl rfl) (by simp [Alu.enc, Alu1.enc, FAlu.enc, FAlu1.enc, Dab.enc, Msg.enc, encDabc, LapFields.base])
    (by simp [Alu.enc, Alu1.enc, FAlu.enc, FAlu1.enc, Dab.enc, Msg.enc, encDabc, LapFields.base, decOp, decRow3, decAlu, decAlu1, decFAlu, decWith, LapFields.alu, LapFields.alu1, LapFields.falu, LapFields.falu1, LapFields.dab, LapFields.msg, LapFields.noLit, LapFields.noMid]) h

theorem RoundTrip.fadd (o : FAlu) : RoundTrip.Statement (.fadd o) := fun h =>
  decodeWords_encode (g := o.g) rfl (LapFields.sound_withB rfl rfl _) (by simp [Alu.enc, Alu1.enc, FAlu.enc, FAlu1.enc, Dab.enc, Msg.enc, encDabc, LapFields.base])
    (by simp [Alu.enc, Alu1.enc, FAlu.enc, FAlu1.enc, Dab.enc, Msg.enc, encDabc, LapFields.base, decOp, decRow4, decAlu, decAlu1, decFAlu, decWith, LapFields.alu, LapFields.alu1, LapFields.falu, LapFields.falu1, LapFields.dab, LapFields.msg, LapFields.noLit, LapFields.noMid]) h

theorem RoundTrip.fsub (o : FAlu) : RoundTrip.Statement (.fsub o) := fun h =>
  decodeWords_encode (g := o.g) rfl (LapFields.sound_withB rfl rfl _) (by simp [Alu.enc, Alu1.enc, FAlu.enc, FAlu1.enc, Dab.enc, Msg.enc, encDabc, LapFields.base])
    (by simp [Alu.enc, Alu1.enc, FAlu.enc, FAlu1.enc, Dab.enc, Msg.enc, encDabc, LapFields.base, decOp, decRow4, decAlu, decAlu1, decFAlu, decWith, LapFields.alu, LapFields.alu1, LapFields.falu, LapFields.falu1, LapFields.dab, LapFields.msg, LapFields.noLit, LapFields.noMid]) h

theorem RoundTrip.fmul (o : FAlu) : RoundTrip.Statement (.fmul o) := fun h =>
  decodeWords_encode (g := o.g) rfl (LapFields.sound_withB rfl rfl _) (by simp [Alu.enc, Alu1.enc, FAlu.enc, FAlu1.enc, Dab.enc, Msg.enc, encDabc, LapFields.base])
    (by simp [Alu.enc, Alu1.enc, FAlu.enc, FAlu1.enc, Dab.enc, Msg.enc, encDabc, LapFields.base, decOp, decRow4, decAlu, decAlu1, decFAlu, decWith, LapFields.alu, LapFields.alu1, LapFields.falu, LapFields.falu1, LapFields.dab, LapFields.msg, LapFields.noLit, LapFields.noMid]) h

theorem RoundTrip.fdiv (o : FAlu) : RoundTrip.Statement (.fdiv o) := fun h =>
  decodeWords_encode (g := o.g) rfl (LapFields.sound_withB rfl rfl _) (by simp [Alu.enc, Alu1.enc, FAlu.enc, FAlu1.enc, Dab.enc, Msg.enc, encDabc, LapFields.base])
    (by simp [Alu.enc, Alu1.enc, FAlu.enc, FAlu1.enc, Dab.enc, Msg.enc, encDabc, LapFields.base, decOp, decRow4, decAlu, decAlu1, decFAlu, decWith, LapFields.alu, LapFields.alu1, LapFields.falu, LapFields.falu1, LapFields.dab, LapFields.msg, LapFields.noLit, LapFields.noMid]) h

theorem RoundTrip.fsqrt (o : FAlu1) : RoundTrip.Statement (.fsqrt o) := fun h =>
  decodeWords_encode (g := o.g) rfl (LapFields.sound_plain rfl rfl) (by simp [Alu.enc, Alu1.enc, FAlu.enc, FAlu1.enc, Dab.enc, Msg.enc, encDabc, LapFields.base])
    (by simp [Alu.enc, Alu1.enc, FAlu.enc, FAlu1.enc, Dab.enc, Msg.enc, encDabc, LapFields.base, decOp, decRow4, decAlu, decAlu1, decFAlu, decWith, LapFields.alu, LapFields.alu1, LapFields.falu, LapFields.falu1, LapFields.dab, LapFields.msg, LapFields.noLit, LapFields.noMid]) h

theorem RoundTrip.fma (o : FAlu) (c : LSpec) : RoundTrip.Statement (.fma o c) := by
  intro h
  obtain ⟨g, ty, rm, d, a, b⟩ := o
  rcases b with r | v | v
  all_goals
    exact decodeWords_encode (g := g) rfl (by simp [LapFields.Sound, FAlu.enc, LapFields.base, LapFields.withB]) (by simp [Alu.enc, Alu1.enc, FAlu.enc, FAlu1.enc, Dab.enc, Msg.enc, encDabc, LapFields.base, LapFields.withB])
      (by simp [Alu.enc, Alu1.enc, FAlu.enc, FAlu1.enc, Dab.enc, Msg.enc, encDabc, LapFields.base, decOp, decRow4, decAlu, decAlu1, decFAlu, decWith, LapFields.alu, LapFields.alu1, LapFields.falu, LapFields.falu1, LapFields.dab, LapFields.msg, LapFields.noLit, LapFields.noMid, LapFields.bsrc, LapFields.withB, lit32_high]) h

theorem RoundTrip.fmin (o : Alu) : RoundTrip.Statement (.fmin o) := fun h =>
  decodeWords_encode (g := o.g) rfl (LapFields.sound_withB rfl rfl _) (by simp [Alu.enc, Alu1.enc, FAlu.enc, FAlu1.enc, Dab.enc, Msg.enc, encDabc, LapFields.base])
    (by simp [Alu.enc, Alu1.enc, FAlu.enc, FAlu1.enc, Dab.enc, Msg.enc, encDabc, LapFields.base, decOp, decRow4, decAlu, decAlu1, decFAlu, decWith, LapFields.alu, LapFields.alu1, LapFields.falu, LapFields.falu1, LapFields.dab, LapFields.msg, LapFields.noLit, LapFields.noMid]) h

theorem RoundTrip.fmax (o : Alu) : RoundTrip.Statement (.fmax o) := fun h =>
  decodeWords_encode (g := o.g) rfl (LapFields.sound_withB rfl rfl _) (by simp [Alu.enc, Alu1.enc, FAlu.enc, FAlu1.enc, Dab.enc, Msg.enc, encDabc, LapFields.base])
    (by simp [Alu.enc, Alu1.enc, FAlu.enc, FAlu1.enc, Dab.enc, Msg.enc, encDabc, LapFields.base, decOp, decRow4, decAlu, decAlu1, decFAlu, decWith, LapFields.alu, LapFields.alu1, LapFields.falu, LapFields.falu1, LapFields.dab, LapFields.msg, LapFields.noLit, LapFields.noMid]) h

theorem RoundTrip.fcmp (g : Guard) (ty : Ty) (rel : Rel) (p : Fin 7) (a : LSpec) (b : BSrc) : RoundTrip.Statement (.fcmp g ty rel p a b) := fun h =>
  decodeWords_encode (g := g) rfl (LapFields.sound_withB rfl rfl _) (by simp [Alu.enc, Alu1.enc, FAlu.enc, FAlu1.enc, Dab.enc, Msg.enc, encDabc, LapFields.base])
    (by simp [Alu.enc, Alu1.enc, FAlu.enc, FAlu1.enc, Dab.enc, Msg.enc, encDabc, LapFields.base, decOp, decRow4, decAlu, decAlu1, decFAlu, decWith, LapFields.alu, LapFields.alu1, LapFields.falu, LapFields.falu1, LapFields.dab, LapFields.msg, LapFields.noLit, LapFields.noMid]) h

theorem RoundTrip.fclass (o : Alu1) : RoundTrip.Statement (.fclass o) := fun h =>
  decodeWords_encode (g := o.g) rfl (LapFields.sound_plain rfl rfl) (by simp [Alu.enc, Alu1.enc, FAlu.enc, FAlu1.enc, Dab.enc, Msg.enc, encDabc, LapFields.base])
    (by simp [Alu.enc, Alu1.enc, FAlu.enc, FAlu1.enc, Dab.enc, Msg.enc, encDabc, LapFields.base, decOp, decRow4, decAlu, decAlu1, decFAlu, decWith, LapFields.alu, LapFields.alu1, LapFields.falu, LapFields.falu1, LapFields.dab, LapFields.msg, LapFields.noLit, LapFields.noMid]) h

theorem RoundTrip.fsgn (o : Alu) (op : SgnOp) : RoundTrip.Statement (.fsgn o op) := by
  intro h
  obtain ⟨g, ty, d, a, b⟩ := o
  rcases b with r | v | v
  all_goals
    exact decodeWords_encode (g := g) rfl (by simp [LapFields.Sound, Alu.enc, LapFields.base, LapFields.withB]) (by simp [Alu.enc, Alu1.enc, FAlu.enc, FAlu1.enc, Dab.enc, Msg.enc, encDabc, LapFields.base, LapFields.withB])
      (by simp [Alu.enc, Alu1.enc, FAlu.enc, FAlu1.enc, Dab.enc, Msg.enc, encDabc, LapFields.base, decOp, decRow4, decAlu, decAlu1, decFAlu, decWith, LapFields.alu, LapFields.alu1, LapFields.falu, LapFields.falu1, LapFields.dab, LapFields.msg, LapFields.noLit, LapFields.noMid, LapFields.bsrc, LapFields.withB, lit32_high]) h

theorem RoundTrip.cvt (g : Guard) (dty : Ty) (dnk : Nk) (sty : Ty) (snk : Nk) (rm : Rm) (ns : Bool) (d : LSpec) (a : LSpec) : RoundTrip.Statement (.cvt g dty dnk sty snk rm ns d a) := fun h =>
  decodeWords_encode (g := g) rfl (LapFields.sound_plain rfl rfl) (by simp [Alu.enc, Alu1.enc, FAlu.enc, FAlu1.enc, Dab.enc, Msg.enc, encDabc, LapFields.base])
    (by simp [Alu.enc, Alu1.enc, FAlu.enc, FAlu1.enc, Dab.enc, Msg.enc, encDabc, LapFields.base, decOp, decRow5, decAlu, decAlu1, decFAlu, decWith, LapFields.alu, LapFields.alu1, LapFields.falu, LapFields.falu1, LapFields.dab, LapFields.msg, LapFields.noLit, LapFields.noMid, cvtFn ns dnk, nkTy snk sty]) h

theorem RoundTrip.cvtd (o : FAlu1) : RoundTrip.Statement (.cvtd o) := fun h =>
  decodeWords_encode (g := o.g) rfl (LapFields.sound_plain rfl rfl) (by simp [Alu.enc, Alu1.enc, FAlu.enc, FAlu1.enc, Dab.enc, Msg.enc, encDabc, LapFields.base])
    (by simp [Alu.enc, Alu1.enc, FAlu.enc, FAlu1.enc, Dab.enc, Msg.enc, encDabc, LapFields.base, decOp, decRow5, decAlu, decAlu1, decFAlu, decWith, LapFields.alu, LapFields.alu1, LapFields.falu, LapFields.falu1, LapFields.dab, LapFields.msg, LapFields.noLit, LapFields.noMid]) h

theorem RoundTrip.cvte (o : FAlu1) (ns : Bool) : RoundTrip.Statement (.cvte o ns) := fun h =>
  decodeWords_encode (g := o.g) rfl (LapFields.sound_plain rfl rfl) (by simp [Alu.enc, Alu1.enc, FAlu.enc, FAlu1.enc, Dab.enc, Msg.enc, encDabc, LapFields.base])
    (by simp [Alu.enc, Alu1.enc, FAlu.enc, FAlu1.enc, Dab.enc, Msg.enc, encDabc, LapFields.base, decOp, decRow5, decAlu, decAlu1, decFAlu, decWith, LapFields.alu, LapFields.alu1, LapFields.falu, LapFields.falu1, LapFields.dab, LapFields.msg, LapFields.noLit, LapFields.noMid, cvteFn ns o.ty]) h

theorem RoundTrip.frnd (o : FAlu1) : RoundTrip.Statement (.frnd o) := fun h =>
  decodeWords_encode (g := o.g) rfl (LapFields.sound_plain rfl rfl) (by simp [Alu.enc, Alu1.enc, FAlu.enc, FAlu1.enc, Dab.enc, Msg.enc, encDabc, LapFields.base])
    (by simp [Alu.enc, Alu1.enc, FAlu.enc, FAlu1.enc, Dab.enc, Msg.enc, encDabc, LapFields.base, decOp, decRow5, decAlu, decAlu1, decFAlu, decWith, LapFields.alu, LapFields.alu1, LapFields.falu, LapFields.falu1, LapFields.dab, LapFields.msg, LapFields.noLit, LapFields.noMid]) h

theorem RoundTrip.ld (g : Guard) (cls : Cls) (ty : Ty) (hi : Bool) (d : LSpec) (a : LSpec) (disp : Disp) : RoundTrip.Statement (.ld g cls ty hi d a disp) := fun h =>
  decodeWords_encode (g := g) rfl (LapFields.sound_withDisp rfl rfl _) (by simp [Alu.enc, Alu1.enc, FAlu.enc, FAlu1.enc, Dab.enc, Msg.enc, encDabc, LapFields.base])
    (by simp [Alu.enc, Alu1.enc, FAlu.enc, FAlu1.enc, Dab.enc, Msg.enc, encDabc, LapFields.base, decOp, decRow6, decAlu, decAlu1, decFAlu, decWith, LapFields.alu, LapFields.alu1, LapFields.falu, LapFields.falu1, LapFields.dab, LapFields.msg, LapFields.noLit, LapFields.noMid]) h

theorem RoundTrip.st (g : Guard) (cls : Cls) (ty : Ty) (hi : Bool) (d : LSpec) (a : LSpec) (disp : Disp) : RoundTrip.Statement (.st g cls ty hi d a disp) := fun h =>
  decodeWords_encode (g := g) rfl (LapFields.sound_withDisp rfl rfl _) (by simp [Alu.enc, Alu1.enc, FAlu.enc, FAlu1.enc, Dab.enc, Msg.enc, encDabc, LapFields.base])
    (by simp [Alu.enc, Alu1.enc, FAlu.enc, FAlu1.enc, Dab.enc, Msg.enc, encDabc, LapFields.base, decOp, decRow6, decAlu, decAlu1, decFAlu, decWith, LapFields.alu, LapFields.alu1, LapFields.falu, LapFields.falu1, LapFields.dab, LapFields.msg, LapFields.noLit, LapFields.noMid]) h

theorem RoundTrip.ldt (g : Guard) (ty : Ty) (d : LSpec) (a : LSpec) (eps : LSpec) (disp : Disp) : RoundTrip.Statement (.ldt g ty d a eps disp) := fun h =>
  decodeWords_encode (g := g) rfl (LapFields.sound_withDisp rfl rfl _) (by simp [Alu.enc, Alu1.enc, FAlu.enc, FAlu1.enc, Dab.enc, Msg.enc, encDabc, LapFields.base])
    (by simp [Alu.enc, Alu1.enc, FAlu.enc, FAlu1.enc, Dab.enc, Msg.enc, encDabc, LapFields.base, decOp, decRow6, decAlu, decAlu1, decFAlu, decWith, LapFields.alu, LapFields.alu1, LapFields.falu, LapFields.falu1, LapFields.dab, LapFields.msg, LapFields.noLit, LapFields.noMid]) h

theorem RoundTrip.addm (g : Guard) (cls : Cls) (ty : Ty) (d a : LSpec) (disp : Disp) : RoundTrip.Statement (.addm g cls ty d a disp) := by
  intro h
  cases cls <;> first | (simp [Instr.wf] at h; done) | skip
  all_goals
    exact decodeWords_encode (g := g) rfl (LapFields.sound_withDisp rfl rfl _) (by simp [Alu.enc, Alu1.enc, FAlu.enc, FAlu1.enc, Dab.enc, Msg.enc, encDabc, LapFields.base])
      (by simp [Alu.enc, Alu1.enc, FAlu.enc, FAlu1.enc, Dab.enc, Msg.enc, encDabc, LapFields.base, decOp, decRow6, decAlu, decAlu1, decFAlu, decWith, LapFields.alu, LapFields.alu1, LapFields.falu, LapFields.falu1, LapFields.dab, LapFields.msg, LapFields.noLit, LapFields.noMid, decCls, encCls]) h

theorem RoundTrip.amo (g : Guard) (cls : Cls) (op : AmoOp) (ty : Ty) (d : LSpec) (a : LSpec) (b : BSrc) : RoundTrip.Statement (.amo g cls op ty d a b) := fun h =>
  decodeWords_encode (g := g) rfl (LapFields.sound_withB rfl rfl _) (by simp [Alu.enc, Alu1.enc, FAlu.enc, FAlu1.enc, Dab.enc, Msg.enc, encDabc, LapFields.base])
    (by simp [Alu.enc, Alu1.enc, FAlu.enc, FAlu1.enc, Dab.enc, Msg.enc, encDabc, LapFields.base, decOp, decRow6, decAlu, decAlu1, decFAlu, decWith, LapFields.alu, LapFields.alu1, LapFields.falu, LapFields.falu1, LapFields.dab, LapFields.msg, LapFields.noLit, LapFields.noMid, clsC cls]) h

theorem RoundTrip.cas (g : Guard) (cls : Cls) (ty : Ty) (d : LSpec) (a : LSpec) (b : LSpec) : RoundTrip.Statement (.cas g cls ty d a b) := fun h =>
  decodeWords_encode (g := g) rfl (LapFields.sound_plain rfl rfl) (by simp [Alu.enc, Alu1.enc, FAlu.enc, FAlu1.enc, Dab.enc, Msg.enc, encDabc, LapFields.base])
    (by simp [Alu.enc, Alu1.enc, FAlu.enc, FAlu1.enc, Dab.enc, Msg.enc, encDabc, LapFields.base, decOp, decRow6, decAlu, decAlu1, decFAlu, decWith, LapFields.alu, LapFields.alu1, LapFields.falu, LapFields.falu1, LapFields.dab, LapFields.msg, LapFields.noLit, LapFields.noMid, clsC cls]) h

theorem RoundTrip.sts (g : Guard) (cls : Cls) (ty : Ty) (d : LSpec) (a : LSpec) (b : LSpec) : RoundTrip.Statement (.sts g cls ty d a b) := fun h =>
  decodeWords_encode (g := g) rfl (LapFields.sound_plain rfl rfl) (by simp [Alu.enc, Alu1.enc, FAlu.enc, FAlu1.enc, Dab.enc, Msg.enc, encDabc, LapFields.base])
    (by simp [Alu.enc, Alu1.enc, FAlu.enc, FAlu1.enc, Dab.enc, Msg.enc, encDabc, LapFields.base, decOp, decRow6, decAlu, decAlu1, decFAlu, decWith, LapFields.alu, LapFields.alu1, LapFields.falu, LapFields.falu1, LapFields.dab, LapFields.msg, LapFields.noLit, LapFields.noMid, clsC cls]) h

theorem RoundTrip.pref (g : Guard) (a : LSpec) (disp : Disp) : RoundTrip.Statement (.pref g a disp) := fun h =>
  decodeWords_encode (g := g) rfl (LapFields.sound_withDisp rfl rfl _) (by simp [Alu.enc, Alu1.enc, FAlu.enc, FAlu1.enc, Dab.enc, Msg.enc, encDabc, LapFields.base])
    (by simp [Alu.enc, Alu1.enc, FAlu.enc, FAlu1.enc, Dab.enc, Msg.enc, encDabc, LapFields.base, decOp, decRow6, decAlu, decAlu1, decFAlu, decWith, LapFields.alu, LapFields.alu1, LapFields.falu, LapFields.falu1, LapFields.dab, LapFields.msg, LapFields.noLit, LapFields.noMid]) h

theorem RoundTrip.topen (g : Guard) (ty : Ty) (nk : Nk) (wide : Bool) (d : LSpec) (a : LSpec) (b : LSpec) : RoundTrip.Statement (.topen g ty nk wide d a b) := fun h =>
  decodeWords_encode (g := g) rfl (LapFields.sound_plain rfl rfl) (by simp [Alu.enc, Alu1.enc, FAlu.enc, FAlu1.enc, Dab.enc, Msg.enc, encDabc, LapFields.base])
    (by simp [Alu.enc, Alu1.enc, FAlu.enc, FAlu1.enc, Dab.enc, Msg.enc, encDabc, LapFields.base, decOp, decRow8, decAlu, decAlu1, decFAlu, decWith, LapFields.alu, LapFields.alu1, LapFields.falu, LapFields.falu1, LapFields.dab, LapFields.msg, LapFields.noLit, LapFields.noMid, topenFn wide nk]) h

theorem RoundTrip.tvalid (g : Guard) (a : LSpec) (b : BSrc) : RoundTrip.Statement (.tvalid g a b) := fun h =>
  decodeWords_encode (g := g) rfl (LapFields.sound_withB rfl rfl _) (by simp [Alu.enc, Alu1.enc, FAlu.enc, FAlu1.enc, Dab.enc, Msg.enc, encDabc, LapFields.base])
    (by simp [Alu.enc, Alu1.enc, FAlu.enc, FAlu1.enc, Dab.enc, Msg.enc, encDabc, LapFields.base, decOp, decRow8, decAlu, decAlu1, decFAlu, decWith, LapFields.alu, LapFields.alu1, LapFields.falu, LapFields.falu1, LapFields.dab, LapFields.msg, LapFields.noLit, LapFields.noMid]) h

theorem RoundTrip.seal (g : Guard) (a : LSpec) : RoundTrip.Statement (.seal g a) := fun h =>
  decodeWords_encode (g := g) rfl (LapFields.sound_plain rfl rfl) (by simp [Alu.enc, Alu1.enc, FAlu.enc, FAlu1.enc, Dab.enc, Msg.enc, encDabc, LapFields.base])
    (by simp [Alu.enc, Alu1.enc, FAlu.enc, FAlu1.enc, Dab.enc, Msg.enc, encDabc, LapFields.base, decOp, decRow8, decAlu, decAlu1, decFAlu, decWith, LapFields.alu, LapFields.alu1, LapFields.falu, LapFields.falu1, LapFields.dab, LapFields.msg, LapFields.noLit, LapFields.noMid]) h

theorem RoundTrip.tfree (g : Guard) (a : LSpec) : RoundTrip.Statement (.tfree g a) := fun h =>
  decodeWords_encode (g := g) rfl (LapFields.sound_plain rfl rfl) (by simp [Alu.enc, Alu1.enc, FAlu.enc, FAlu1.enc, Dab.enc, Msg.enc, encDabc, LapFields.base])
    (by simp [Alu.enc, Alu1.enc, FAlu.enc, FAlu1.enc, Dab.enc, Msg.enc, encDabc, LapFields.base, decOp, decRow8, decAlu, decAlu1, decFAlu, decWith, LapFields.alu, LapFields.alu1, LapFields.falu, LapFields.falu1, LapFields.dab, LapFields.msg, LapFields.noLit, LapFields.noMid]) h

theorem RoundTrip.tstat (g : Guard) (d : LSpec) (a : LSpec) : RoundTrip.Statement (.tstat g d a) := fun h =>
  decodeWords_encode (g := g) rfl (LapFields.sound_plain rfl rfl) (by simp [Alu.enc, Alu1.enc, FAlu.enc, FAlu1.enc, Dab.enc, Msg.enc, encDabc, LapFields.base])
    (by simp [Alu.enc, Alu1.enc, FAlu.enc, FAlu1.enc, Dab.enc, Msg.enc, encDabc, LapFields.base, decOp, decRow8, decAlu, decAlu1, decFAlu, decWith, LapFields.alu, LapFields.alu1, LapFields.falu, LapFields.falu1, LapFields.dab, LapFields.msg, LapFields.noLit, LapFields.noMid]) h

theorem RoundTrip.fence (g : Guard) (sc : Scope) (rel acq : Bool) : RoundTrip.Statement (.fence g sc rel acq) := by
  intro h
  cases rel <;> cases acq <;> first | (simp [Instr.wf] at h; done) | skip
  all_goals
    exact decodeWords_encode (g := g) rfl (LapFields.sound_plain rfl rfl) (by simp [Alu.enc, Alu1.enc, FAlu.enc, FAlu1.enc, Dab.enc, Msg.enc, encDabc, LapFields.base])
      (by simp [Alu.enc, Alu1.enc, FAlu.enc, FAlu1.enc, Dab.enc, Msg.enc, encDabc, LapFields.base, decOp, decRow8, decAlu, decAlu1, decFAlu, decWith, LapFields.alu, LapFields.alu1, LapFields.falu, LapFields.falu1, LapFields.dab, LapFields.msg, LapFields.noLit, LapFields.noMid]) h

theorem RoundTrip.drain (g : Guard) (sc : Scope) (reg : Option LSpec) : RoundTrip.Statement (.drain g sc reg) := by
  intro h
  cases reg
  all_goals
    exact decodeWords_encode (g := g) rfl (LapFields.sound_plain rfl rfl) (by simp [Alu.enc, Alu1.enc, FAlu.enc, FAlu1.enc, Dab.enc, Msg.enc, encDabc, LapFields.base])
      (by simp [Alu.enc, Alu1.enc, FAlu.enc, FAlu1.enc, Dab.enc, Msg.enc, encDabc, LapFields.base, decOp, decRow8, decAlu, decAlu1, decFAlu, decWith, LapFields.alu, LapFields.alu1, LapFields.falu, LapFields.falu1, LapFields.dab, LapFields.msg, LapFields.noLit, LapFields.noMid]) h

theorem RoundTrip.gidx (g : Guard) (ty : Ty) (a : LSpec) (b : LSpec) (sh : BitVec 3) : RoundTrip.Statement (.gidx g ty a b sh) := fun h =>
  decodeWords_encode (g := g) rfl (LapFields.sound_plain rfl rfl) (by simp [Alu.enc, Alu1.enc, FAlu.enc, FAlu1.enc, Dab.enc, Msg.enc, encDabc, LapFields.base])
    (by simp [Alu.enc, Alu1.enc, FAlu.enc, FAlu1.enc, Dab.enc, Msg.enc, encDabc, LapFields.base, decOp, decRow9, decAlu, decAlu1, decFAlu, decWith, LapFields.alu, LapFields.alu1, LapFields.falu, LapFields.falu1, LapFields.dab, LapFields.msg, LapFields.noLit, LapFields.noMid]) h

theorem RoundTrip.sidx (g : Guard) (ty : Ty) (d : LSpec) (a : LSpec) (b : LSpec) (sh : BitVec 3) : RoundTrip.Statement (.sidx g ty d a b sh) := fun h =>
  decodeWords_encode (g := g) rfl (LapFields.sound_plain rfl rfl) (by simp [Alu.enc, Alu1.enc, FAlu.enc, FAlu1.enc, Dab.enc, Msg.enc, encDabc, LapFields.base])
    (by simp [Alu.enc, Alu1.enc, FAlu.enc, FAlu1.enc, Dab.enc, Msg.enc, encDabc, LapFields.base, decOp, decRow9, decAlu, decAlu1, decFAlu, decWith, LapFields.alu, LapFields.alu1, LapFields.falu, LapFields.falu1, LapFields.dab, LapFields.msg, LapFields.noLit, LapFields.noMid]) h

theorem RoundTrip.aqclr (g : Guard) (d : LSpec) : RoundTrip.Statement (.aqclr g d) := fun h =>
  decodeWords_encode (g := g) rfl (LapFields.sound_plain rfl rfl) (by simp [Alu.enc, Alu1.enc, FAlu.enc, FAlu1.enc, Dab.enc, Msg.enc, encDabc, LapFields.base])
    (by simp [Alu.enc, Alu1.enc, FAlu.enc, FAlu1.enc, Dab.enc, Msg.enc, encDabc, LapFields.base, decOp, decRow9, decAlu, decAlu1, decFAlu, decWith, LapFields.alu, LapFields.alu1, LapFields.falu, LapFields.falu1, LapFields.dab, LapFields.msg, LapFields.noLit, LapFields.noMid, LapFields.imm34_fn]) h

theorem RoundTrip.qstat (g : Guard) (d : LSpec) : RoundTrip.Statement (.qstat g d) := fun h =>
  decodeWords_encode (g := g) rfl (LapFields.sound_plain rfl rfl) (by simp [Alu.enc, Alu1.enc, FAlu.enc, FAlu1.enc, Dab.enc, Msg.enc, encDabc, LapFields.base])
    (by simp [Alu.enc, Alu1.enc, FAlu.enc, FAlu1.enc, Dab.enc, Msg.enc, encDabc, LapFields.base, decOp, decRow9, decAlu, decAlu1, decFAlu, decWith, LapFields.alu, LapFields.alu1, LapFields.falu, LapFields.falu1, LapFields.dab, LapFields.msg, LapFields.noLit, LapFields.noMid, LapFields.imm34_fn]) h

theorem RoundTrip.send (o : Msg) : RoundTrip.Statement (.send o) := by
  intro h
  obtain ⟨g, d, a, b, w, c, n⟩ := o
  have hd : d = .s 0 := by simp [Instr.wf, Msg.ok] at h; exact h.1.1
  subst hd
  have e : decSpec 0#8 = some (.s 0) := by decide
  all_goals
    exact decodeWords_encode (g := g) rfl (LapFields.sound_plain rfl rfl) (by simp [Alu.enc, Alu1.enc, FAlu.enc, FAlu1.enc, Dab.enc, Msg.enc, encDabc, LapFields.base])
      (by simp [Alu.enc, Alu1.enc, FAlu.enc, FAlu1.enc, Dab.enc, Msg.enc, encDabc, LapFields.base, decOp, decRow9, decAlu, decAlu1, decFAlu, decWith, LapFields.alu, LapFields.alu1, LapFields.falu, LapFields.falu1, LapFields.dab, LapFields.msg, LapFields.noLit, LapFields.noMid, e, msgFn n c w]) h

theorem RoundTrip.callr (o : Msg) : RoundTrip.Statement (.callr o) := fun h =>
  decodeWords_encode (g := o.g) rfl (LapFields.sound_plain rfl rfl) (by simp [Alu.enc, Alu1.enc, FAlu.enc, FAlu1.enc, Dab.enc, Msg.enc, encDabc, LapFields.base])
    (by simp [Alu.enc, Alu1.enc, FAlu.enc, FAlu1.enc, Dab.enc, Msg.enc, encDabc, LapFields.base, decOp, decRow9, decAlu, decAlu1, decFAlu, decWith, LapFields.alu, LapFields.alu1, LapFields.falu, LapFields.falu1, LapFields.dab, LapFields.msg, LapFields.noLit, LapFields.noMid, msgFn o.noCtr o.ctr o.words]) h

theorem RoundTrip.reply (g : Guard) (a : LSpec) (b : LSpec) : RoundTrip.Statement (.reply g a b) := fun h =>
  decodeWords_encode (g := g) rfl (LapFields.sound_plain rfl rfl) (by simp [Alu.enc, Alu1.enc, FAlu.enc, FAlu1.enc, Dab.enc, Msg.enc, encDabc, LapFields.base])
    (by simp [Alu.enc, Alu1.enc, FAlu.enc, FAlu1.enc, Dab.enc, Msg.enc, encDabc, LapFields.base, decOp, decRow9, decAlu, decAlu1, decFAlu, decWith, LapFields.alu, LapFields.alu1, LapFields.falu, LapFields.falu1, LapFields.dab, LapFields.msg, LapFields.noLit, LapFields.noMid]) h

theorem RoundTrip.slpush (g : Guard) (a : LSpec) (b : LSpec) : RoundTrip.Statement (.slpush g a b) := fun h =>
  decodeWords_encode (g := g) rfl (LapFields.sound_plain rfl rfl) (by simp [Alu.enc, Alu1.enc, FAlu.enc, FAlu1.enc, Dab.enc, Msg.enc, encDabc, LapFields.base])
    (by simp [Alu.enc, Alu1.enc, FAlu.enc, FAlu1.enc, Dab.enc, Msg.enc, encDabc, LapFields.base, decOp, decRow9, decAlu, decAlu1, decFAlu, decWith, LapFields.alu, LapFields.alu1, LapFields.falu, LapFields.falu1, LapFields.dab, LapFields.msg, LapFields.noLit, LapFields.noMid]) h

theorem RoundTrip.slpop (g : Guard) (d : LSpec) : RoundTrip.Statement (.slpop g d) := fun h =>
  decodeWords_encode (g := g) rfl (LapFields.sound_plain rfl rfl) (by simp [Alu.enc, Alu1.enc, FAlu.enc, FAlu1.enc, Dab.enc, Msg.enc, encDabc, LapFields.base])
    (by simp [Alu.enc, Alu1.enc, FAlu.enc, FAlu1.enc, Dab.enc, Msg.enc, encDabc, LapFields.base, decOp, decRow9, decAlu, decAlu1, decFAlu, decWith, LapFields.alu, LapFields.alu1, LapFields.falu, LapFields.falu1, LapFields.dab, LapFields.msg, LapFields.noLit, LapFields.noMid, LapFields.imm34_fn]) h

theorem RoundTrip.slsteal (g : Guard) (d : LSpec) : RoundTrip.Statement (.slsteal g d) := fun h =>
  decodeWords_encode (g := g) rfl (LapFields.sound_plain rfl rfl) (by simp [Alu.enc, Alu1.enc, FAlu.enc, FAlu1.enc, Dab.enc, Msg.enc, encDabc, LapFields.base])
    (by simp [Alu.enc, Alu1.enc, FAlu.enc, FAlu1.enc, Dab.enc, Msg.enc, encDabc, LapFields.base, decOp, decRow9, decAlu, decAlu1, decFAlu, decWith, LapFields.alu, LapFields.alu1, LapFields.falu, LapFields.falu1, LapFields.dab, LapFields.msg, LapFields.noLit, LapFields.noMid, LapFields.imm34_fn]) h

theorem RoundTrip.mjob (g : Guard) (d : LSpec) (a : LSpec) (b : LSpec) (cc : BitVec 1) : RoundTrip.Statement (.mjob g d a b cc) := fun h =>
  decodeWords_encode (g := g) rfl (LapFields.sound_plain rfl rfl) (by simp [Alu.enc, Alu1.enc, FAlu.enc, FAlu1.enc, Dab.enc, Msg.enc, encDabc, LapFields.base])
    (by simp [Alu.enc, Alu1.enc, FAlu.enc, FAlu1.enc, Dab.enc, Msg.enc, encDabc, LapFields.base, decOp, decRow9, decAlu, decAlu1, decFAlu, decWith, LapFields.alu, LapFields.alu1, LapFields.falu, LapFields.falu1, LapFields.dab, LapFields.msg, LapFields.noLit, LapFields.noMid]) h

theorem RoundTrip.launch (g : Guard) (d : LSpec) (a : LSpec) (b : LSpec) : RoundTrip.Statement (.launch g d a b) := fun h =>
  decodeWords_encode (g := g) rfl (LapFields.sound_plain rfl rfl) (by simp [Alu.enc, Alu1.enc, FAlu.enc, FAlu1.enc, Dab.enc, Msg.enc, encDabc, LapFields.base])
    (by simp [Alu.enc, Alu1.enc, FAlu.enc, FAlu1.enc, Dab.enc, Msg.enc, encDabc, LapFields.base, decOp, decRow9, decAlu, decAlu1, decFAlu, decWith, LapFields.alu, LapFields.alu1, LapFields.falu, LapFields.falu1, LapFields.dab, LapFields.msg, LapFields.noLit, LapFields.noMid]) h

theorem RoundTrip.dtld (g : Guard) (a : LSpec) (t : TabSel) : RoundTrip.Statement (.dtld g a t) := fun h =>
  decodeWords_encode (g := g) rfl (LapFields.sound_plain rfl rfl) (by simp [Alu.enc, Alu1.enc, FAlu.enc, FAlu1.enc, Dab.enc, Msg.enc, encDabc, LapFields.base])
    (by simp [Alu.enc, Alu1.enc, FAlu.enc, FAlu1.enc, Dab.enc, Msg.enc, encDabc, LapFields.base, decOp, decRowA, decAlu, decAlu1, decFAlu, decWith, LapFields.alu, LapFields.alu1, LapFields.falu, LapFields.falu1, LapFields.dab, LapFields.msg, LapFields.noLit, LapFields.noMid]) h

theorem RoundTrip.dtrd (g : Guard) (d : LSpec) (b : BSrc) (t : TabSel) : RoundTrip.Statement (.dtrd g d b t) := fun h =>
  decodeWords_encode (g := g) rfl (LapFields.sound_withB rfl rfl _) (by simp [Alu.enc, Alu1.enc, FAlu.enc, FAlu1.enc, Dab.enc, Msg.enc, encDabc, LapFields.base])
    (by simp [Alu.enc, Alu1.enc, FAlu.enc, FAlu1.enc, Dab.enc, Msg.enc, encDabc, LapFields.base, decOp, decRowA, decAlu, decAlu1, decFAlu, decWith, LapFields.alu, LapFields.alu1, LapFields.falu, LapFields.falu1, LapFields.dab, LapFields.msg, LapFields.noLit, LapFields.noMid]) h

theorem RoundTrip.srfence (g : Guard) (re : Bool) (rec : Option LSpec) : RoundTrip.Statement (.srfence g re rec) := by
  intro h
  cases re <;> cases rec
  all_goals
    exact decodeWords_encode (g := g) rfl (LapFields.sound_plain rfl rfl) (by simp [Alu.enc, Alu1.enc, FAlu.enc, FAlu1.enc, Dab.enc, Msg.enc, encDabc, LapFields.base])
      (by simp [Alu.enc, Alu1.enc, FAlu.enc, FAlu1.enc, Dab.enc, Msg.enc, encDabc, LapFields.base, decOp, decRowA, decAlu, decAlu1, decFAlu, decWith, LapFields.alu, LapFields.alu1, LapFields.falu, LapFields.falu1, LapFields.dab, LapFields.msg, LapFields.noLit, LapFields.noMid]) h

theorem RoundTrip.tbfill (g : Guard) (a : LSpec) (b : LSpec) : RoundTrip.Statement (.tbfill g a b) := fun h =>
  decodeWords_encode (g := g) rfl (LapFields.sound_plain rfl rfl) (by simp [Alu.enc, Alu1.enc, FAlu.enc, FAlu1.enc, Dab.enc, Msg.enc, encDabc, LapFields.base])
    (by simp [Alu.enc, Alu1.enc, FAlu.enc, FAlu1.enc, Dab.enc, Msg.enc, encDabc, LapFields.base, decOp, decRowA, decAlu, decAlu1, decFAlu, decWith, LapFields.alu, LapFields.alu1, LapFields.falu, LapFields.falu1, LapFields.dab, LapFields.msg, LapFields.noLit, LapFields.noMid]) h

theorem RoundTrip.tbfillVec (g : Guard) (a : LSpec) : RoundTrip.Statement (.tbfillVec g a) := fun h =>
  decodeWords_encode (g := g) rfl (LapFields.sound_plain rfl rfl) (by simp [Alu.enc, Alu1.enc, FAlu.enc, FAlu1.enc, Dab.enc, Msg.enc, encDabc, LapFields.base])
    (by simp [Alu.enc, Alu1.enc, FAlu.enc, FAlu1.enc, Dab.enc, Msg.enc, encDabc, LapFields.base, decOp, decRowA, decAlu, decAlu1, decFAlu, decWith, LapFields.alu, LapFields.alu1, LapFields.falu, LapFields.falu1, LapFields.dab, LapFields.msg, LapFields.noLit, LapFields.noMid]) h

theorem RoundTrip.tbinv (g : Guard) (d : LSpec) (key : Option LSpec) (seqOnly : Bool) : RoundTrip.Statement (.tbinv g d key seqOnly) := by
  intro h
  cases key <;> cases seqOnly <;> first | (simp [Instr.wf] at h; done) | skip
  all_goals
    exact decodeWords_encode (g := g) rfl (LapFields.sound_plain rfl rfl) (by simp [Alu.enc, Alu1.enc, FAlu.enc, FAlu1.enc, Dab.enc, Msg.enc, encDabc, LapFields.base])
      (by simp [Alu.enc, Alu1.enc, FAlu.enc, FAlu1.enc, Dab.enc, Msg.enc, encDabc, LapFields.base, decOp, decRowA, decAlu, decAlu1, decFAlu, decWith, LapFields.alu, LapFields.alu1, LapFields.falu, LapFields.falu1, LapFields.dab, LapFields.msg, LapFields.noLit, LapFields.noMid]) h

theorem RoundTrip.tbprobe (g : Guard) (d : LSpec) (a : LSpec) : RoundTrip.Statement (.tbprobe g d a) := fun h =>
  decodeWords_encode (g := g) rfl (LapFields.sound_plain rfl rfl) (by simp [Alu.enc, Alu1.enc, FAlu.enc, FAlu1.enc, Dab.enc, Msg.enc, encDabc, LapFields.base])
    (by simp [Alu.enc, Alu1.enc, FAlu.enc, FAlu1.enc, Dab.enc, Msg.enc, encDabc, LapFields.base, decOp, decRowA, decAlu, decAlu1, decFAlu, decWith, LapFields.alu, LapFields.alu1, LapFields.falu, LapFields.falu1, LapFields.dab, LapFields.msg, LapFields.noLit, LapFields.noMid]) h

theorem RoundTrip.grpfind (o : Dab) : RoundTrip.Statement (.grpfind o) := fun h =>
  decodeWords_encode (g := o.g) rfl (LapFields.sound_withB rfl rfl _) (by simp [Alu.enc, Alu1.enc, FAlu.enc, FAlu1.enc, Dab.enc, Msg.enc, encDabc, LapFields.base])
    (by simp [Alu.enc, Alu1.enc, FAlu.enc, FAlu1.enc, Dab.enc, Msg.enc, encDabc, LapFields.base, decOp, decRowA, decAlu, decAlu1, decFAlu, decWith, LapFields.alu, LapFields.alu1, LapFields.falu, LapFields.falu1, LapFields.dab, LapFields.msg, LapFields.noLit, LapFields.noMid]) h

theorem RoundTrip.sqset (o : Dab) : RoundTrip.Statement (.sqset o) := fun h =>
  decodeWords_encode (g := o.g) rfl (LapFields.sound_withB rfl rfl _) (by simp [Alu.enc, Alu1.enc, FAlu.enc, FAlu1.enc, Dab.enc, Msg.enc, encDabc, LapFields.base])
    (by simp [Alu.enc, Alu1.enc, FAlu.enc, FAlu1.enc, Dab.enc, Msg.enc, encDabc, LapFields.base, decOp, decRowA, decAlu, decAlu1, decFAlu, decWith, LapFields.alu, LapFields.alu1, LapFields.falu, LapFields.falu1, LapFields.dab, LapFields.msg, LapFields.noLit, LapFields.noMid]) h

theorem RoundTrip.sqsetOp (o : Dab) : RoundTrip.Statement (.sqsetOp o) := fun h =>
  decodeWords_encode (g := o.g) rfl (LapFields.sound_withB rfl rfl _) (by simp [Alu.enc, Alu1.enc, FAlu.enc, FAlu1.enc, Dab.enc, Msg.enc, encDabc, LapFields.base])
    (by simp [Alu.enc, Alu1.enc, FAlu.enc, FAlu1.enc, Dab.enc, Msg.enc, encDabc, LapFields.base, decOp, decRowA, decAlu, decAlu1, decFAlu, decWith, LapFields.alu, LapFields.alu1, LapFields.falu, LapFields.falu1, LapFields.dab, LapFields.msg, LapFields.noLit, LapFields.noMid]) h

theorem RoundTrip.sqsetUser (o : Dab) : RoundTrip.Statement (.sqsetUser o) := fun h =>
  decodeWords_encode (g := o.g) rfl (LapFields.sound_withB rfl rfl _) (by simp [Alu.enc, Alu1.enc, FAlu.enc, FAlu1.enc, Dab.enc, Msg.enc, encDabc, LapFields.base])
    (by simp [Alu.enc, Alu1.enc, FAlu.enc, FAlu1.enc, Dab.enc, Msg.enc, encDabc, LapFields.base, decOp, decRowA, decAlu, decAlu1, decFAlu, decWith, LapFields.alu, LapFields.alu1, LapFields.falu, LapFields.falu1, LapFields.dab, LapFields.msg, LapFields.noLit, LapFields.noMid]) h

theorem RoundTrip.sqsetPrio (o : Dab) : RoundTrip.Statement (.sqsetPrio o) := fun h =>
  decodeWords_encode (g := o.g) rfl (LapFields.sound_withB rfl rfl _) (by simp [Alu.enc, Alu1.enc, FAlu.enc, FAlu1.enc, Dab.enc, Msg.enc, encDabc, LapFields.base])
    (by simp [Alu.enc, Alu1.enc, FAlu.enc, FAlu1.enc, Dab.enc, Msg.enc, encDabc, LapFields.base, decOp, decRowA, decAlu, decAlu1, decFAlu, decWith, LapFields.alu, LapFields.alu1, LapFields.falu, LapFields.falu1, LapFields.dab, LapFields.msg, LapFields.noLit, LapFields.noMid]) h

theorem RoundTrip.sqget (g : Guard) (d : LSpec) (a : LSpec) (w : BitVec 2) : RoundTrip.Statement (.sqget g d a w) := fun h =>
  decodeWords_encode (g := g) rfl (LapFields.sound_plain rfl rfl) (by simp [Alu.enc, Alu1.enc, FAlu.enc, FAlu1.enc, Dab.enc, Msg.enc, encDabc, LapFields.base])
    (by simp [Alu.enc, Alu1.enc, FAlu.enc, FAlu1.enc, Dab.enc, Msg.enc, encDabc, LapFields.base, decOp, decRowA, decAlu, decAlu1, decFAlu, decWith, LapFields.alu, LapFields.alu1, LapFields.falu, LapFields.falu1, LapFields.dab, LapFields.msg, LapFields.noLit, LapFields.noMid]) h

theorem RoundTrip.sqbuild (g : Guard) (d : LSpec) (a : LSpec) (b : LSpec) (c : LSpec) : RoundTrip.Statement (.sqbuild g d a b c) := fun h =>
  decodeWords_encode (g := g) rfl (LapFields.sound_plain rfl rfl) (by simp [Alu.enc, Alu1.enc, FAlu.enc, FAlu1.enc, Dab.enc, Msg.enc, encDabc, LapFields.base])
    (by simp [Alu.enc, Alu1.enc, FAlu.enc, FAlu1.enc, Dab.enc, Msg.enc, encDabc, LapFields.base, decOp, decRowA, decAlu, decAlu1, decFAlu, decWith, LapFields.alu, LapFields.alu1, LapFields.falu, LapFields.falu1, LapFields.dab, LapFields.msg, LapFields.noLit, LapFields.noMid]) h

theorem RoundTrip.erset (g : Guard) (a : LSpec) (b : LSpec) (c : LSpec) : RoundTrip.Statement (.erset g a b c) := fun h =>
  decodeWords_encode (g := g) rfl (LapFields.sound_plain rfl rfl) (by simp [Alu.enc, Alu1.enc, FAlu.enc, FAlu1.enc, Dab.enc, Msg.enc, encDabc, LapFields.base])
    (by simp [Alu.enc, Alu1.enc, FAlu.enc, FAlu1.enc, Dab.enc, Msg.enc, encDabc, LapFields.base, decOp, decRowA, decAlu, decAlu1, decFAlu, decWith, LapFields.alu, LapFields.alu1, LapFields.falu, LapFields.falu1, LapFields.dab, LapFields.msg, LapFields.noLit, LapFields.noMid]) h

theorem RoundTrip.erget (o : Dab) (w : Fin 3) : RoundTrip.Statement (.erget o w) := by
  intro h
  fin_cases w
  all_goals
    exact decodeWords_encode (g := o.g) rfl (LapFields.sound_withB rfl rfl _) (by simp [Alu.enc, Alu1.enc, FAlu.enc, FAlu1.enc, Dab.enc, Msg.enc, encDabc, LapFields.base])
      (by simp [Alu.enc, Alu1.enc, FAlu.enc, FAlu1.enc, Dab.enc, Msg.enc, encDabc, LapFields.base, decOp, decRowA, decAlu, decAlu1, decFAlu, decWith, LapFields.alu, LapFields.alu1, LapFields.falu, LapFields.falu1, LapFields.dab, LapFields.msg, LapFields.noLit, LapFields.noMid]) h

theorem RoundTrip.tolset (g : Guard) (a : LSpec) (b : LSpec) (c : LSpec) (die : BitVec 2) : RoundTrip.Statement (.tolset g a b c die) := fun h =>
  decodeWords_encode (g := g) rfl (LapFields.sound_plain rfl rfl) (by simp [Alu.enc, Alu1.enc, FAlu.enc, FAlu1.enc, Dab.enc, Msg.enc, encDabc, LapFields.base])
    (by simp [Alu.enc, Alu1.enc, FAlu.enc, FAlu1.enc, Dab.enc, Msg.enc, encDabc, LapFields.base, decOp, decRowA, decAlu, decAlu1, decFAlu, decWith, LapFields.alu, LapFields.alu1, LapFields.falu, LapFields.falu1, LapFields.dab, LapFields.msg, LapFields.noLit, LapFields.noMid]) h

theorem RoundTrip.tbind (g : Guard) (ctr : BitVec 4) : RoundTrip.Statement (.tbind g ctr) := fun h =>
  decodeWords_encode (g := g) rfl (LapFields.sound_plain rfl rfl) (by simp [Alu.enc, Alu1.enc, FAlu.enc, FAlu1.enc, Dab.enc, Msg.enc, encDabc, LapFields.base])
    (by simp [Alu.enc, Alu1.enc, FAlu.enc, FAlu1.enc, Dab.enc, Msg.enc, encDabc, LapFields.base, decOp, decRowB, decAlu, decAlu1, decFAlu, decWith, LapFields.alu, LapFields.alu1, LapFields.falu, LapFields.falu1, LapFields.dab, LapFields.msg, LapFields.noLit, LapFields.noMid]) h

theorem RoundTrip.tcset (g : Guard) (b : BSrc) (ctr : BitVec 4) : RoundTrip.Statement (.tcset g b ctr) := fun h =>
  decodeWords_encode (g := g) rfl (LapFields.sound_withB rfl rfl _) (by simp [Alu.enc, Alu1.enc, FAlu.enc, FAlu1.enc, Dab.enc, Msg.enc, encDabc, LapFields.base])
    (by simp [Alu.enc, Alu1.enc, FAlu.enc, FAlu1.enc, Dab.enc, Msg.enc, encDabc, LapFields.base, decOp, decRowB, decAlu, decAlu1, decFAlu, decWith, LapFields.alu, LapFields.alu1, LapFields.falu, LapFields.falu1, LapFields.dab, LapFields.msg, LapFields.noLit, LapFields.noMid]) h

theorem RoundTrip.tcrd (g : Guard) (d : LSpec) (ctr : BitVec 4) : RoundTrip.Statement (.tcrd g d ctr) := fun h =>
  decodeWords_encode (g := g) rfl (LapFields.sound_plain rfl rfl) (by simp [Alu.enc, Alu1.enc, FAlu.enc, FAlu1.enc, Dab.enc, Msg.enc, encDabc, LapFields.base])
    (by simp [Alu.enc, Alu1.enc, FAlu.enc, FAlu1.enc, Dab.enc, Msg.enc, encDabc, LapFields.base, decOp, decRowB, decAlu, decAlu1, decFAlu, decWith, LapFields.alu, LapFields.alu1, LapFields.falu, LapFields.falu1, LapFields.dab, LapFields.msg, LapFields.noLit, LapFields.noMid]) h

theorem RoundTrip.pegarm (o : Dab) : RoundTrip.Statement (.pegarm o) := fun h =>
  decodeWords_encode (g := o.g) rfl (LapFields.sound_withB rfl rfl _) (by simp [Alu.enc, Alu1.enc, FAlu.enc, FAlu1.enc, Dab.enc, Msg.enc, encDabc, LapFields.base])
    (by simp [Alu.enc, Alu1.enc, FAlu.enc, FAlu1.enc, Dab.enc, Msg.enc, encDabc, LapFields.base, decOp, decRowB, decAlu, decAlu1, decFAlu, decWith, LapFields.alu, LapFields.alu1, LapFields.falu, LapFields.falu1, LapFields.dab, LapFields.msg, LapFields.noLit, LapFields.noMid]) h

theorem RoundTrip.pegarmAdd (o : Dab) : RoundTrip.Statement (.pegarmAdd o) := fun h =>
  decodeWords_encode (g := o.g) rfl (LapFields.sound_withB rfl rfl _) (by simp [Alu.enc, Alu1.enc, FAlu.enc, FAlu1.enc, Dab.enc, Msg.enc, encDabc, LapFields.base])
    (by simp [Alu.enc, Alu1.enc, FAlu.enc, FAlu1.enc, Dab.enc, Msg.enc, encDabc, LapFields.base, decOp, decRowB, decAlu, decAlu1, decFAlu, decWith, LapFields.alu, LapFields.alu1, LapFields.falu, LapFields.falu1, LapFields.dab, LapFields.msg, LapFields.noLit, LapFields.noMid]) h

theorem RoundTrip.pegwait (o : Dab) : RoundTrip.Statement (.pegwait o) := fun h =>
  decodeWords_encode (g := o.g) rfl (LapFields.sound_withB rfl rfl _) (by simp [Alu.enc, Alu1.enc, FAlu.enc, FAlu1.enc, Dab.enc, Msg.enc, encDabc, LapFields.base])
    (by simp [Alu.enc, Alu1.enc, FAlu.enc, FAlu1.enc, Dab.enc, Msg.enc, encDabc, LapFields.base, decOp, decRowB, decAlu, decAlu1, decFAlu, decWith, LapFields.alu, LapFields.alu1, LapFields.falu, LapFields.falu1, LapFields.dab, LapFields.msg, LapFields.noLit, LapFields.noMid]) h

theorem RoundTrip.rcsnap (g : Guard) (a : LSpec) (b : BSrc) : RoundTrip.Statement (.rcsnap g a b) := fun h =>
  decodeWords_encode (g := g) rfl (LapFields.sound_withB rfl rfl _) (by simp [Alu.enc, Alu1.enc, FAlu.enc, FAlu1.enc, Dab.enc, Msg.enc, encDabc, LapFields.base])
    (by simp [Alu.enc, Alu1.enc, FAlu.enc, FAlu1.enc, Dab.enc, Msg.enc, encDabc, LapFields.base, decOp, decRowB, decAlu, decAlu1, decFAlu, decWith, LapFields.alu, LapFields.alu1, LapFields.falu, LapFields.falu1, LapFields.dab, LapFields.msg, LapFields.noLit, LapFields.noMid]) h

theorem RoundTrip.rcrd (g : Guard) (d : LSpec) (b : BSrc) : RoundTrip.Statement (.rcrd g d b) := fun h =>
  decodeWords_encode (g := g) rfl (LapFields.sound_withB rfl rfl _) (by simp [Alu.enc, Alu1.enc, FAlu.enc, FAlu1.enc, Dab.enc, Msg.enc, encDabc, LapFields.base])
    (by simp [Alu.enc, Alu1.enc, FAlu.enc, FAlu1.enc, Dab.enc, Msg.enc, encDabc, LapFields.base, decOp, decRowB, decAlu, decAlu1, decFAlu, decWith, LapFields.alu, LapFields.alu1, LapFields.falu, LapFields.falu1, LapFields.dab, LapFields.msg, LapFields.noLit, LapFields.noMid]) h

theorem RoundTrip.bump (g : Guard) (d : LSpec) (b : BSrc) (al : BitVec 3) : RoundTrip.Statement (.bump g d b al) := fun h =>
  decodeWords_encode (g := g) rfl (LapFields.sound_withB rfl rfl _) (by simp [Alu.enc, Alu1.enc, FAlu.enc, FAlu1.enc, Dab.enc, Msg.enc, encDabc, LapFields.base])
    (by simp [Alu.enc, Alu1.enc, FAlu.enc, FAlu1.enc, Dab.enc, Msg.enc, encDabc, LapFields.base, decOp, decRowB, decAlu, decAlu1, decFAlu, decWith, LapFields.alu, LapFields.alu1, LapFields.falu, LapFields.falu1, LapFields.dab, LapFields.msg, LapFields.noLit, LapFields.noMid]) h

theorem RoundTrip.bumpset (g : Guard) (d : LSpec) (a : LSpec) (b : LSpec) (al : BitVec 3) : RoundTrip.Statement (.bumpset g d a b al) := fun h =>
  decodeWords_encode (g := g) rfl (LapFields.sound_plain rfl rfl) (by simp [Alu.enc, Alu1.enc, FAlu.enc, FAlu1.enc, Dab.enc, Msg.enc, encDabc, LapFields.base])
    (by simp [Alu.enc, Alu1.enc, FAlu.enc, FAlu1.enc, Dab.enc, Msg.enc, encDabc, LapFields.base, decOp, decRowB, decAlu, decAlu1, decFAlu, decWith, LapFields.alu, LapFields.alu1, LapFields.falu, LapFields.falu1, LapFields.dab, LapFields.msg, LapFields.noLit, LapFields.noMid]) h

theorem RoundTrip.xcopy (g : Guard) (ty : Ty) (d : LSpec) (a : LSpec) (b : LSpec) (c : LSpec) : RoundTrip.Statement (.xcopy g ty d a b c) := fun h =>
  decodeWords_encode (g := g) rfl (LapFields.sound_plain rfl rfl) (by simp [Alu.enc, Alu1.enc, FAlu.enc, FAlu1.enc, Dab.enc, Msg.enc, encDabc, LapFields.base])
    (by simp [Alu.enc, Alu1.enc, FAlu.enc, FAlu1.enc, Dab.enc, Msg.enc, encDabc, LapFields.base, decOp, decRowC, decAlu, decAlu1, decFAlu, decWith, LapFields.alu, LapFields.alu1, LapFields.falu, LapFields.falu1, LapFields.dab, LapFields.msg, LapFields.noLit, LapFields.noMid]) h

theorem RoundTrip.xconv (g : Guard) (dty : Ty) (dnk : Nk) (sty : Ty) (snk : Nk) (rm : Rm) (ns : Bool) (d a b c : LSpec) : RoundTrip.Statement (.xconv g dty dnk sty snk rm ns d a b c) := by
  intro h
  have hw : (dty = .narrow ∨ dnk = .e4m3) ∧ (sty = .narrow ∨ snk = .e4m3) ∧ ¬(dty = .narrow ∧ sty = .narrow) := by
    simp [Instr.wf, cvtOk, nkFor] at h; tauto
  by_cases h1 : dty = .narrow <;> by_cases h2 : sty = .narrow
  all_goals
    exact decodeWords_encode (g := g) rfl (LapFields.sound_plain rfl rfl) (by simp [Alu.enc, Alu1.enc, FAlu.enc, FAlu1.enc, Dab.enc, Msg.enc, encDabc, LapFields.base])
      (by simp_all [Alu.enc, Alu1.enc, FAlu.enc, FAlu1.enc, Dab.enc, Msg.enc, encDabc, LapFields.base, decOp, decRowC, decAlu, decAlu1, decFAlu, decWith, LapFields.alu, LapFields.alu1, LapFields.falu, LapFields.falu1, LapFields.dab, LapFields.msg, LapFields.noLit, LapFields.noMid, xconvSc, nkTy]) h

theorem RoundTrip.route (g : Guard) (d : LSpec) (a : LSpec) : RoundTrip.Statement (.route g d a) := fun h =>
  decodeWords_encode (g := g) rfl (LapFields.sound_plain rfl rfl) (by simp [Alu.enc, Alu1.enc, FAlu.enc, FAlu1.enc, Dab.enc, Msg.enc, encDabc, LapFields.base])
    (by simp [Alu.enc, Alu1.enc, FAlu.enc, FAlu1.enc, Dab.enc, Msg.enc, encDabc, LapFields.base, decOp, decRowC, decAlu, decAlu1, decFAlu, decWith, LapFields.alu, LapFields.alu1, LapFields.falu, LapFields.falu1, LapFields.dab, LapFields.msg, LapFields.noLit, LapFields.noMid]) h

theorem RoundTrip.cmdnext (g : Guard) (d : BitVec 7) : RoundTrip.Statement (.cmdnext g d) := fun h =>
  decodeWords_encode (g := g) rfl (LapFields.sound_plain rfl rfl) (by simp [Alu.enc, Alu1.enc, FAlu.enc, FAlu1.enc, Dab.enc, Msg.enc, encDabc, LapFields.base])
    (by simp [Alu.enc, Alu1.enc, FAlu.enc, FAlu1.enc, Dab.enc, Msg.enc, encDabc, LapFields.base, decOp, decRowC, decAlu, decAlu1, decFAlu, decWith, LapFields.alu, LapFields.alu1, LapFields.falu, LapFields.falu1, LapFields.dab, LapFields.msg, LapFields.noLit, LapFields.noMid, LapFields.imm34_fn]) h

theorem RoundTrip.cmddone (g : Guard) (a b c : LSpec) (sys irq : Bool) : RoundTrip.Statement (.cmddone g a b c sys irq) := by
  intro h
  cases sys <;> cases irq
  all_goals
    exact decodeWords_encode (g := g) rfl (LapFields.sound_plain rfl rfl) (by simp [Alu.enc, Alu1.enc, FAlu.enc, FAlu1.enc, Dab.enc, Msg.enc, encDabc, LapFields.base])
      (by simp [Alu.enc, Alu1.enc, FAlu.enc, FAlu1.enc, Dab.enc, Msg.enc, encDabc, LapFields.base, decOp, decRowC, decAlu, decAlu1, decFAlu, decWith, LapFields.alu, LapFields.alu1, LapFields.falu, LapFields.falu1, LapFields.dab, LapFields.msg, LapFields.noLit, LapFields.noMid]) h

theorem RoundTrip.resultLanding (kid : Nat) (cc : Nat) : RoundTrip.Statement (.resultLanding kid cc) := fun h => absurd h (by simp [Instr.wf])

theorem RoundTrip.storeBufferWrite (kid : Nat) (cc : Nat) (x : Nat) : RoundTrip.Statement (.storeBufferWrite kid cc x) := fun h => absurd h (by simp [Instr.wf])

theorem RoundTrip.sealEffect (kid : Nat) (cc : Nat) (x : Nat) : RoundTrip.Statement (.sealEffect kid cc x) := fun h => absurd h (by simp [Instr.wf])

theorem RoundTrip.cpgoPush (kid : Nat) (cc : Nat) (x : Nat) : RoundTrip.Statement (.cpgoPush kid cc x) := fun h => absurd h (by simp [Instr.wf])

theorem RoundTrip.freezeOverrun (kid : Nat) (cc : Nat) : RoundTrip.Statement (.freezeOverrun kid cc) := fun h => absurd h (by simp [Instr.wf])

theorem RoundTrip.stepStart (kid : Nat) (cc : Nat) : RoundTrip.Statement (.stepStart kid cc) := fun h => absurd h (by simp [Instr.wf])

theorem RoundTrip.stepRetire (kid : Nat) (cc : Nat) : RoundTrip.Statement (.stepRetire kid cc) := fun h => absurd h (by simp [Instr.wf])

theorem RoundTrip.randomBlock (kid : Nat) : RoundTrip.Statement (.randomBlock kid) := fun h => absurd h (by simp [Instr.wf])

theorem RoundTrip.ctxResume (kid : Nat) (cc : Nat) (x : Nat) : RoundTrip.Statement (.ctxResume kid cc x) := fun h => absurd h (by simp [Instr.wf])

theorem RoundTrip.ctxResumeAt (kid : Nat) (cc : Nat) (x : Nat) (a : W64) : RoundTrip.Statement (.ctxResumeAt kid cc x a) := fun h => absurd h (by simp [Instr.wf])

theorem RoundTrip.ctxKill (kid : Nat) (cc : Nat) (x : Nat) : RoundTrip.Statement (.ctxKill kid cc x) := fun h => absurd h (by simp [Instr.wf])

theorem RoundTrip.threadResume (kid : Nat) (core : Nat) (slot : Nat) : RoundTrip.Statement (.threadResume kid core slot) := fun h => absurd h (by simp [Instr.wf])

theorem RoundTrip.threadResumeAt (kid : Nat) (core : Nat) (slot : Nat) (a : W64) : RoundTrip.Statement (.threadResumeAt kid core slot a) := fun h => absurd h (by simp [Instr.wf])

theorem RoundTrip.threadKill (kid : Nat) (core : Nat) (slot : Nat) : RoundTrip.Statement (.threadKill kid core slot) := fun h => absurd h (by simp [Instr.wf])

theorem RoundTrip.escalatedFault (e : Ent) : RoundTrip.Statement (.escalatedFault e) := fun h => absurd h (by simp [Instr.wf])

theorem RoundTrip.longOpLanding (e : Ent) : RoundTrip.Statement (.longOpLanding e) := fun h => absurd h (by simp [Instr.wf])

theorem RoundTrip.accessAnswerLands (e : Ent) : RoundTrip.Statement (.accessAnswerLands e) := fun h => absurd h (by simp [Instr.wf])

theorem RoundTrip.gatherLanding (e : Ent) : RoundTrip.Statement (.gatherLanding e) := fun h => absurd h (by simp [Instr.wf])

theorem RoundTrip.postedStorePlace (req : Nat) : RoundTrip.Statement (.postedStorePlace req) := fun h => absurd h (by simp [Instr.wf])

theorem RoundTrip.releaseComplete (e : Ent) : RoundTrip.Statement (.releaseComplete e) := fun h => absurd h (by simp [Instr.wf])

theorem RoundTrip.mumodeWrite (e : Ent) : RoundTrip.Statement (.mumodeWrite e) := fun h => absurd h (by simp [Instr.wf])

theorem RoundTrip.decodeTableReplace (e : Ent) : RoundTrip.Statement (.decodeTableReplace e) := fun h => absurd h (by simp [Instr.wf])

theorem RoundTrip.syncStallWatchdog (kid : Nat) (core : Nat) (slot : Nat) : RoundTrip.Statement (.syncStallWatchdog kid core slot) := fun h => absurd h (by simp [Instr.wf])

theorem RoundTrip.controllerRetry (req : Nat) : RoundTrip.Statement (.controllerRetry req) := fun h => absurd h (by simp [Instr.wf])

theorem RoundTrip.fabricAccess (req : Nat) : RoundTrip.Statement (.fabricAccess req) := fun h => absurd h (by simp [Instr.wf])

theorem RoundTrip.messageAccept (req : Nat) : RoundTrip.Statement (.messageAccept req) := fun h => absurd h (by simp [Instr.wf])

theorem RoundTrip.messageResend (req : Nat) : RoundTrip.Statement (.messageResend req) := fun h => absurd h (by simp [Instr.wf])

theorem RoundTrip.replyLanding (req : Nat) : RoundTrip.Statement (.replyLanding req) := fun h => absurd h (by simp [Instr.wf])

theorem RoundTrip.sealTimer (kid : Nat) (idx : Nat) : RoundTrip.Statement (.sealTimer kid idx) := fun h => absurd h (by simp [Instr.wf])

theorem RoundTrip.writeArrivesHome (req : Nat) : RoundTrip.Statement (.writeArrivesHome req) := fun h => absurd h (by simp [Instr.wf])

theorem RoundTrip.globalReadAnswer (req : Nat) : RoundTrip.Statement (.globalReadAnswer req) := fun h => absurd h (by simp [Instr.wf])

theorem RoundTrip.leaseExpiry (kid : Nat) (pasid : Nat) (line : Nat) : RoundTrip.Statement (.leaseExpiry kid pasid line) := fun h => absurd h (by simp [Instr.wf])

theorem RoundTrip.translationRequest (req : Nat) : RoundTrip.Statement (.translationRequest req) := fun h => absurd h (by simp [Instr.wf])

theorem RoundTrip.walkEnd (die : Nat) (pasid : Nat) (page : Nat) : RoundTrip.Statement (.walkEnd die pasid page) := fun h => absurd h (by simp [Instr.wf])

theorem RoundTrip.translationInvalidate (pasid : Nat) (base : Nat) (pages : Nat) : RoundTrip.Statement (.translationInvalidate pasid base pages) := fun h => absurd h (by simp [Instr.wf])

theorem RoundTrip.invalidationComplete : RoundTrip.Statement (.invalidationComplete) := fun h => absurd h (by simp [Instr.wf])

theorem RoundTrip.cchEviction (kid : Nat) (pasid : Nat) (line : Nat) : RoundTrip.Statement (.cchEviction kid pasid line) := fun h => absurd h (by simp [Instr.wf])

theorem RoundTrip.forcedDrain (kid : Nat) (line : Nat) : RoundTrip.Statement (.forcedDrain kid line) := fun h => absurd h (by simp [Instr.wf])

theorem RoundTrip.drainFold (req : Nat) : RoundTrip.Statement (.drainFold req) := fun h => absurd h (by simp [Instr.wf])

theorem RoundTrip.tolerantLoadAnswer (req : Nat) : RoundTrip.Statement (.tolerantLoadAnswer req) := fun h => absurd h (by simp [Instr.wf])

theorem RoundTrip.regionSwitch (e : Ent) : RoundTrip.Statement (.regionSwitch e) := fun h => absurd h (by simp [Instr.wf])

theorem RoundTrip.mjobStart (kid : Nat) (cc : Nat) : RoundTrip.Statement (.mjobStart kid cc) := fun h => absurd h (by simp [Instr.wf])

theorem RoundTrip.mjobReply (e : Ent) : RoundTrip.Statement (.mjobReply e) := fun h => absurd h (by simp [Instr.wf])

theorem RoundTrip.engineCommandStart (e : Ent) : RoundTrip.Statement (.engineCommandStart e) := fun h => absurd h (by simp [Instr.wf])

theorem RoundTrip.engineRunEnd (e : Ent) : RoundTrip.Statement (.engineRunEnd e) := fun h => absurd h (by simp [Instr.wf])

theorem RoundTrip.qtailWrite (q : Nat) (v : W64) : RoundTrip.Statement (.qtailWrite q v) := fun h => absurd h (by simp [Instr.wf])

theorem RoundTrip.queueEnable (q : Nat) : RoundTrip.Statement (.queueEnable q) := fun h => absurd h (by simp [Instr.wf])

theorem RoundTrip.queueStop (q : Nat) : RoundTrip.Statement (.queueStop q) := fun h => absurd h (by simp [Instr.wf])

theorem RoundTrip.queueDestroy (q : Nat) : RoundTrip.Statement (.queueDestroy q) := fun h => absurd h (by simp [Instr.wf])

theorem RoundTrip.queueKill (q : Nat) : RoundTrip.Statement (.queueKill q) := fun h => absurd h (by simp [Instr.wf])

theorem RoundTrip.queueClear (q : Nat) : RoundTrip.Statement (.queueClear q) := fun h => absurd h (by simp [Instr.wf])

theorem RoundTrip.registerWrite (addr : W64) (v : W64) : RoundTrip.Statement (.registerWrite addr v) := fun h => absurd h (by simp [Instr.wf])

theorem RoundTrip.launchStart (die : Nat) : RoundTrip.Statement (.launchStart die) := fun h => absurd h (by simp [Instr.wf])

theorem RoundTrip.launchFinish (die : Nat) (gen : Nat) : RoundTrip.Statement (.launchFinish die gen) := fun h => absurd h (by simp [Instr.wf])

theorem RoundTrip.dependenceCheck (die : Nat) : RoundTrip.Statement (.dependenceCheck die) := fun h => absurd h (by simp [Instr.wf])

theorem RoundTrip.barrierCompletion (q : Nat) : RoundTrip.Statement (.barrierCompletion q) := fun h => absurd h (by simp [Instr.wf])

theorem RoundTrip.preemption (die : Nat) (gen : Nat) : RoundTrip.Statement (.preemption die gen) := fun h => absurd h (by simp [Instr.wf])

theorem RoundTrip.restore (die : Nat) (gen : Nat) : RoundTrip.Statement (.restore die gen) := fun h => absurd h (by simp [Instr.wf])

theorem RoundTrip.hostRead (addr : Nat) (bytes : Nat) : RoundTrip.Statement (.hostRead addr bytes) := fun h => absurd h (by simp [Instr.wf])

theorem RoundTrip.hostWrite (addr : Nat) (bytes : Nat) (v : BitVec 512) : RoundTrip.Statement (.hostWrite addr bytes v) := fun h => absurd h (by simp [Instr.wf])

theorem RoundTrip.backInvalidationResponse (line : Nat) : RoundTrip.Statement (.backInvalidationResponse line) := fun h => absurd h (by simp [Instr.wf])

theorem RoundTrip.hostSnoop (x : Snoop) : RoundTrip.Statement (.hostSnoop x) := fun h => absurd h (by simp [Instr.wf])

theorem RoundTrip.barAccess (write : Bool) (off : Nat) (bytes : Nat) (v : W64) : RoundTrip.Statement (.barAccess write off bytes v) := fun h => absurd h (by simp [Instr.wf])

theorem RoundTrip.inboundCreurnAccess (x : Inbound) : RoundTrip.Statement (.inboundCreurnAccess x) := fun h => absurd h (by simp [Instr.wf])

theorem RoundTrip.flitRetry (port : Nat) : RoundTrip.Statement (.flitRetry port) := fun h => absurd h (by simp [Instr.wf])

theorem RoundTrip.linkSilenceTimeout (port : Nat) : RoundTrip.Statement (.linkSilenceTimeout port) := fun h => absurd h (by simp [Instr.wf])

theorem RoundTrip.resetNotice (port : Nat) : RoundTrip.Statement (.resetNotice port) := fun h => absurd h (by simp [Instr.wf])

theorem RoundTrip.linkTraining (port : Nat) (peer : Nat) : RoundTrip.Statement (.linkTraining port peer) := fun h => absurd h (by simp [Instr.wf])

theorem RoundTrip.farLinkFailure (port : Nat) : RoundTrip.Statement (.farLinkFailure port) := fun h => absurd h (by simp [Instr.wf])

theorem RoundTrip.powerWindow (watts : Nat) (temp : Nat) : RoundTrip.Statement (.powerWindow watts temp) := fun h => absurd h (by simp [Instr.wf])

theorem RoundTrip.thermalTrip : RoundTrip.Statement (.thermalTrip) := fun h => absurd h (by simp [Instr.wf])

theorem RoundTrip.packageReset : RoundTrip.Statement (.packageReset) := fun h => absurd h (by simp [Instr.wf])

theorem RoundTrip.bootStage : RoundTrip.Statement (.bootStage) := fun h => absurd h (by simp [Instr.wf])

theorem RoundTrip.getVersion : RoundTrip.Statement (.getVersion) := fun h => absurd h (by simp [Instr.wf])

theorem RoundTrip.getCapabilities : RoundTrip.Statement (.getCapabilities) := fun h => absurd h (by simp [Instr.wf])

theorem RoundTrip.negotiateAlgorithms (sm2 : Bool) (sm3 : Bool) : RoundTrip.Statement (.negotiateAlgorithms sm2 sm3) := fun h => absurd h (by simp [Instr.wf])

theorem RoundTrip.getDigests : RoundTrip.Statement (.getDigests) := fun h => absurd h (by simp [Instr.wf])

theorem RoundTrip.getCertificate (slot : Nat) : RoundTrip.Statement (.getCertificate slot) := fun h => absurd h (by simp [Instr.wf])

theorem RoundTrip.challenge (slot : Nat) (nonce : W64) : RoundTrip.Statement (.challenge slot nonce) := fun h => absurd h (by simp [Instr.wf])

theorem RoundTrip.getMeasurements (index : Nat) : RoundTrip.Statement (.getMeasurements index) := fun h => absurd h (by simp [Instr.wf])

theorem RoundTrip.spdmSessionRequest : RoundTrip.Statement (.spdmSessionRequest) := fun h => absurd h (by simp [Instr.wf])

theorem RoundTrip.firmwareUpdate (index : Nat) (version : Nat) : RoundTrip.Statement (.firmwareUpdate index version) := fun h => absurd h (by simp [Instr.wf])

theorem RoundTrip.illegalInstruction (w : W64) : RoundTrip.Statement (.illegalInstruction w) := fun h => absurd h (by simp [Instr.wf])

theorem RoundTrip.atsTranslationAnswer (pasid : Nat) (page : Nat) (r : AtsResult) : RoundTrip.Statement (.atsTranslationAnswer pasid page r) := fun h => absurd h (by simp [Instr.wf])

theorem RoundTrip.pageRequestAnswer (e : Ent) (ok : Bool) : RoundTrip.Statement (.pageRequestAnswer e ok) := fun h => absurd h (by simp [Instr.wf])

theorem RoundTrip.temperature95c : RoundTrip.Statement (.temperature95c) := fun h => absurd h (by simp [Instr.wf])

theorem RoundTrip.haltOnBreakArm (arm : Bool) (restart : Option Ent) : RoundTrip.Statement (.haltOnBreakArm arm restart) := fun h => absurd h (by simp [Instr.wf])

theorem RoundTrip.msixTableAccess (a : Bar2Span) (write : Option W64) : RoundTrip.Statement (.msixTableAccess a write) := fun h => absurd h (by simp [Instr.wf])

end Sys2Proof.Laws
end

