-- ==== Sys2Proof/Tests/Slice0.lean ====
section
/-! SUPPORT. Tests: words and results of the spec's own tables and examples, and for each statement states and operands that meet
its hypotheses. -/

namespace Sys2Proof.Tests

open Sys2Proof Sys2Proof.Machine

set_option Elab.async false

/-! ### Words of the spec's encoding tables -/

theorem test_decode_nop : decodeTableWord 64 0 = some .nop := by decide +kernel

/-- Chapter 3, worked encodings. -/
theorem test_decode_chapter3 :
    decodeWords [0x01800C1002000010] = some (.ld .always .take .b64 false (.s 3) (.s 4) (.imm 16))
    ∧ decodeWords [0xB4401C1C00100000, 0x3E8] = some (.add { g := .off 2, ty := .i32, d := .s 7, a := .s 7, b := .lit32 1000 })
    ∧ decodeWords [0x10060003FFFFFFFD] = some (.br (.on 0) (-3)) := by decide +kernel

/-- Chapter 4, worked encodings. -/
theorem test_decode_chapter4 :
    decodeWords [0x00D4140408000300] = some (.intx .always (.s 5) (.s 1) (.s 2) (.s 3))
    ∧ decodeWords [0x0114202428C80B00]
        = some (.fma { g := .always, ty := .f64, rm := .rtz, d := .s 8, a := .s 9, b := .reg (.s 10) } (.s 11))
    ∧ decodeWords [0x0140080C00700A80] = some (.cvt .always .narrow .e4m3 .f32 .e4m3 .rne true (.s 2) (.s 3))
    ∧ decodeWords [0x00141803FFFFFFFE] = some (.loop .always (.s 6) (-2)) := by decide +kernel

/-- R211. -/
theorem test_decode_system :
    decodeWords [0x001C000000000005] = some (.trap .always 5) ∧ decodeWords [0x0020000000000000] = some (.hret .always)
    ∧ decodeWords [0x0024000000000002] = some (.scall .always 2)
    ∧ decodeWords [0x00280C0000000100] = some (.srrd .always (.s 3) 0x100)
    ∧ decodeWords [0x002C001400000000] = some (.srwr .always (.s 5) 0)
    ∧ decodeWords [0x0030100000000000] = some (.flgrd .always (.s 4))
    ∧ decodeWords [0x0034000000000011] = some (.flgclr .always 0b10001)
    ∧ decodeWords [0x0038000000000000] = some (.bkpt .always 0)
    ∧ decodeWords [0x003C001800000203] = some (.modeset .always (.s 6) 0x203) := by decide +kernel

/-- R244, R301. -/
theorem test_decode_memory :
    decodeWords [0x0182141800B80006] = some (.ld .always .relaxed .n16 false .aq (.s 6) (.imm 6))
    ∧ decodeWords [0x01841C0A00680005] = some (.st .always .plain .i4 true (.s 7) (.s 2) (.imm 5))
    ∧ decodeWords [0x0188082027D00000] = some (.ldt .always .f32 (.s 2) (.s 8) (.s 9) (.imm 0))
    ∧ decodeWords [0x01900C10140B0400] = some (.amo .always (.release .package) .add .i64 (.s 3) (.s 4) (.reg (.s 5)))
    ∧ decodeWords [0x0220000000030001] = some (.fence .always .die true false)
    ∧ decodeWords [0x0220000000030002] = some (.fence .always .die false true)
    ∧ decodeWords [0x0220000000050000] = some (.fence .always .system true true)
    ∧ decodeWords [0x0224001C00040001] = some (.drain .always .package (some (.s 7)))
    ∧ decodeWords [0x0224000000030000] = some (.drain .always .die none) := by decide +kernel

/-- R315. -/
theorem test_decode_queues :
    decodeWords [0x0240001014500002] = some (.gidx .always .f32 (.s 4) (.s 5) 2)
    ∧ decodeWords [0x0244181014500002] = some (.sidx .always .f32 (.s 6) (.s 4) (.s 5) 2)
    ∧ decodeWords [0x0248080000000000] = some (.aqclr .always (.s 2))
    ∧ decodeWords [0x024C080000000000] = some (.qstat .always (.s 2))
    ∧ decodeWords [0x025000080C000033] = some (.send { g := .always, d := .s 0, a := .s 2, b := .s 3, words := 3, ctr := 6, noCtr := false })
    ∧ decodeWords [0x025404080C000033] = some (.callr { g := .always, d := .s 1, a := .s 2, b := .s 3, words := 3, ctr := 6, noCtr := false })
    ∧ decodeWords [0x025800080C000000] = some (.reply .always (.s 2) (.s 3))
    ∧ decodeWords [0x025C001014000000] = some (.slpush .always (.s 4) (.s 5))
    ∧ decodeWords [0x0260080000000000] = some (.slpop .always (.s 2))
    ∧ decodeWords [0x0264080000000000] = some (.slsteal .always (.s 2))
    ∧ decodeWords [0x0268080C10000001] = some (.mjob .always (.s 2) (.s 3) (.s 4) 1)
    ∧ decodeWords [0x026C080C10000000] = some (.launch .always (.s 2) (.s 3) (.s 4))
    ∧ decodeWords [0x0300080C10000500] = some (.xcopy .always .b64 (.s 2) (.s 3) (.s 4) (.s 5))
    ∧ decodeWords [0x030C200000000000] = some (.cmdnext .always 8)
    ∧ decodeWords [0x031000080C000403] = some (.cmddone .always (.s 2) (.s 3) (.s 4) true true) := by decide +kernel

/-- R344. -/
theorem test_decode_tables :
    decodeWords [0x0280000C00000000] = some (.dtld .always (.s 3) .own)
    ∧ decodeWords [0x028408000C000002] = some (.dtrd .always (.s 2) (.reg (.s 3)) .cc1)
    ∧ decodeWords [0x0288001000000002] = some (.srfence .always true (some (.s 4)))
    ∧ decodeWords [0x028C00181C000000] = some (.tbfill .always (.s 6) (.s 7))
    ∧ decodeWords [0x0290081800000001] = some (.tbinv .always (.s 2) (some (.s 6)) true)
    ∧ decodeWords [0x0294141800000000] = some (.tbprobe .always (.s 5) (.s 6))
    ∧ decodeWords [0x029814080C000000] = some (.grpfind { g := .always, d := .s 5, a := .s 2, b := .reg (.s 3) })
    ∧ decodeWords [0x069C081000000001, 2] = some (.sqsetOp { g := .always, d := .s 2, a := .s 4, b := .lit32 2 })
    ∧ decodeWords [0x02A00C1000000001] = some (.sqget .always (.s 3) (.s 4) 1)
    ∧ decodeWords [0x02A4080C10000500] = some (.sqbuild .always (.s 2) (.s 3) (.s 4) (.s 5))
    ∧ decodeWords [0x02A800080C000400] = some (.erset .always (.s 2) (.s 3) (.s 4))
    ∧ decodeWords [0x02AC14080C000000] = some (.erget { g := .always, d := .s 5, a := .s 2, b := .reg (.s 3) } 0)
    ∧ decodeWords [0x02B000080C000401] = some (.tolset .always (.s 2) (.s 3) (.s 4) 1)
    ∧ decodeWords [0x0308080C00000000] = some (.route .always (.s 2) (.s 3)) := by decide +kernel

/-- R368. -/
theorem test_decode_counters :
    decodeWords [0x02C0000000000003] = some (.tbind .always 3)
    ∧ decodeWords [0x02C4000014000003] = some (.tcset .always (.reg (.s 5)) 3)
    ∧ decodeWords [0x02C8080000000003] = some (.tcrd .always (.s 2) 3)
    ∧ decodeWords [0x06CC081000000001, 0x200] = some (.pegarmAdd { g := .always, d := .s 2, a := .s 4, b := .lit32 512 })
    ∧ decodeWords [0x02D0181014000000] = some (.pegwait { g := .always, d := .s 6, a := .s 4, b := .reg (.s 5) })
    ∧ decodeWords [0x02D4000C10000000] = some (.rcsnap .always (.s 3) (.reg (.s 4)))
    ∧ decodeWords [0x06D8080000000000, 13] = some (.rcrd .always (.s 2) (.lit32 13))
    ∧ decodeWords [0x06DC080000000001, 96] = some (.bump .always (.s 2) (.lit32 96) 1)
    ∧ decodeWords [0x02E0080C10000001] = some (.bumpset .always (.s 2) (.s 3) (.s 4) 1) := by decide +kernel

/-- Chapters 5 and 15, R187, R301, R328: syllables. -/
theorem test_decode_syllables :
    decSlot decS SSyl.wf 0x04D0840200000064 = .op 0 (.cmp 2 .lt 4 (.imm 100))
    ∧ decSlot decS SSyl.wf 0x0121C000FFFFFFFD = .op 0 (.loopc 7 0xFFFFFFFD)
    ∧ decSlot decVSyl VSyl.wf 0x0040500100803928 = .op 0 (.fma .f64 .rtz 2 (.v 20) (.v 1) (.v 2) (.v 3))
    ∧ decSlot decVSyl VSyl.wf 0x00C0300300280CA0 = .op 0 (.cvt .bf16 .e4m3 .f32 .e4m3 .sr false 0 (.v 12) (.v 3))
    ∧ decSlot decLd LdSyl.wf 0x0010A020C0100000 = .op 0 (.vld (.v 40) 2 3 256)
    ∧ decSlot decMSyl MSyl.wf 0x0010000820000000 = .op 0 (.mma 0 2 2)
    ∧ decSlot decSt StSyl.wf 0x0011904000000A00 = .op 0 (.vst .f32 false 0 (.v 100) 4 0 0)
    ∧ decSlot decSy SySyl.wf 0x00B0000000000000 = .op 0 .fencec := by decide +kernel

/-! ### Ill-formed instructions: one for each check -/

/-- Terms that break a check of the lap words: a destination or source that may not stand there, a type, a range, a class. -/
def badWords : List Instr :=
  let g := Guard.always
  let a := LSpec.s 1
  let r := BSrc.reg (.s 2)
  [.jmp g .dq a, .jmp g a .aq, .call g (.h 7) 0, .ret g .aq, .loop g .aq 0, .loop g .tid 0, .srrd g .clk 0, .srrd g a 7,
   .srwr g .aq 0, .srwr g a 1, .flgrd g .kid, .modeset g .aq 0x203, .modeset g a 0x204,
   .add { g := g, ty := .f32, d := a, a := a, b := r }, .add { g := g, ty := .i8, d := .mb, a := a, b := r },
   .add { g := g, ty := .i8, d := a, a := .aq, b := r }, .add { g := g, ty := .i8, d := a, a := a, b := .reg .aq },
   .neg { g := g, ty := .b64, d := a, a := a }, .bswap { g := g, ty := .i8, d := a, a := a },
   .bswap { g := g, ty := .n8, d := a, a := a }, .mov g .lap r, .mov g a (.reg .aq), .bfx g a a 63 1, .bfi g a a 1 63,
   .bfi g .aq a 0 0, .lea g .cid a (.imm 0), .cmp g .i64 .unordered 0 a r, .cmp g .f64 .lt 0 a r, .pmov g a a, .pmov g .dq (.p 0),
   .sel g .dq a r 0, .pfxc g a .aq a, .intx g a a a .aq,
   .fadd { g := g, ty := .f32, rm := .sr, d := a, a := a, b := r }, .fadd { g := g, ty := .i32, rm := .rne, d := a, a := a, b := r },
   .fadd { g := g, ty := .bf16, rm := .rne, d := a, a := a, b := .lit32 0x10000 },
   .fma { g := g, ty := .f32, rm := .rne, d := a, a := a, b := r } .aq, .fmin { g := g, ty := .narrow, d := a, a := a, b := r },
   .fcmp g .n8 .lt 0 a r, .fclass { g := g, ty := .i8, d := a, a := a },
   .cvt g .b64 .e4m3 .f32 .e4m3 .rne false a a, .cvt g .f32 .e4m3 .f32 .e4m3 .rne false a a,
   .cvt g .f32 .e5m2 .f16 .e4m3 .rne false a a, .cvt g .i8 .e4m3 .i16 .e4m3 .rtz false a a,
   .cvt g .i8 .e4m3 .f32 .e4m3 .rne true a a, .cvt g .narrow .e2m1 .f32 .e4m3 .rne true a a,
   .cvt g .narrow .mxi8 .f32 .e4m3 .rne false a a, .cvtd { g := g, ty := .i4, rm := .rne, d := a, a := a },
   .ld g .plain .b64 false .aq a (.imm 0), .ld g .relaxed .b64 false a a (.imm 0), .ld g (.release .die) .b64 false a a (.imm 0),
   .ld g .take .i4 false a a (.imm 0), .ld g .plain .i8 true a a (.imm 0), .ld g .plain .dt false a a (.imm 0),
   .st g .peek .b64 false a a (.imm 0), .ldt g .f16 a a a (.imm 0), .addm g .take .f32 a a (.imm 0), .addm g .plain .f16 a a (.imm 0),
   .amo g .take .add .i64 a a r, .amo g .relaxed .add .i64 a a r, .amo g .plain .add .i16 a a r, .cas g .plain .f64 a a a,
   .sts g (.acquire .die) .i8 a a a, .sts g .plain .b64 a a a, .topen g .i8 .e4m3 false a a a, .topen g .f32 .e4m3 true a a a,
   .fence g .die false false, .drain g .die (some .aq), .gidx g .i4 a a 0, .sidx g .dt a a a 0, .aqclr g .cid,
   .tbinv g a none true, .sqget g .dq a 0, .cmdnext g 120,
   .xconv g .narrow .e4m3 .narrow .e5m2 .rne false a a a a, .xcopy g .i4 a a a a]

theorem test_illFormed_words : (badWords.all fun i => !i.wf && decodeWords (encode i) != some i) = true := by decide +kernel

/-- The same for the syllables of a bundle, slot by slot. -/
theorem test_illFormed_syllables :
    SSyl.wf (.cmp 0 .lt 1 (.imm 0)) = false ∧ SSyl.wf (.sel 1 1 (.imm 0) 0) = false
    ∧ VSyl.wf (.bin .add .b64 .rne 0 (.v 1) (.v 2) (.v 3)) = false ∧ VSyl.wf (.bin .add .f32 .sr 0 (.v 1) (.v 2) (.v 3)) = false
    ∧ VSyl.wf (.bin .xor .f32 .rne 0 (.v 1) (.v 2) (.v 3)) = false ∧ VSyl.wf (.bin .add .f32 .rne 0 (.v 768) (.v 2) (.v 3)) = false
    ∧ VSyl.wf (.bin .add .f32 .rne 0 .fl (.v 2) (.v 3)) = false ∧ VSyl.wf (.fma .i8 .rne 0 (.v 1) (.v 2) (.v 3) (.v 4)) = false
    ∧ VSyl.wf (.cmp .i8 .ordered 0 0 (.v 1) (.v 2)) = false ∧ VSyl.wf (.ocGet .f16 0 (.v 1) (.v 2)) = false
    ∧ VSyl.wf (.cvt .narrow .mxe4m3 .f32 .e4m3 .rne false 1 (.v 1) (.v 2)) = false
    ∧ VSyl.wf (.cvt .narrow .mxe4m3 .f32 .e4m3 .rne false 0 (.v 1) (.v 767)) = false
    ∧ VSyl.wf (.trans .exp2 .f32 .rne true 0 (.v 1) (.v 2)) = false ∧ VSyl.wf (.li .f16 0x10000 0 (.v 1)) = false
    ∧ MSyl.wf (.accdrain 0 (.v 705)) = false ∧ MSyl.wf (.pins 0 (.v 767) 0 0) = false ∧ MSyl.wf (.pfloor 0 .fl) = false
    ∧ MSyl.wf (.accdecl 0 1 0) = false ∧ LdSyl.wf (.vlds .i4 (.v 1) 0 0 0) = false ∧ StSyl.wf (.vst .f32 false 0 .fl 0 0 0) = false
    ∧ SySyl.wf (.jigld 0 0) = false ∧ SySyl.wf (.jigld 0 17) = false ∧ Bundle.wf ⟨.nop, .nop, .nop, .nop, .nop, .nop, .illegal 1, .nop⟩ = false := by decide +kernel

/-! ### A small state: one hart about to issue a word -/

/-- A hart in a handler at supervisor level, its release made, with these registers. -/
def hart1 (regs : List (Fin 128 × W64)) : Hart :=
  { Hart.zero with
    rot := .ready, size := 128, relDone := true, pc := 0x1000
    s := regs.foldl (fun v x => v.set x.1 x.2) Hart.zero.s
    tr := { Hart.zero.tr with level := 1, hnd := true } }

/-- Reset with one hart of entity e, whose turn it is. -/
def hartState (e : Ent) (h : Hart) : State := { State.reset with actor := e, harts := [(e, h)] }

def lap0 : Ent := .lap 0 0 0

def lapS (regs : List (Fin 128 × W64)) : State := hartState lap0 (hart1 regs)

/-- The state after a word. -/
def after (i : Instr) (s : State) : State := match exec i s with | .next t => t | _ => s

/-- What a word with destination s0 and sources s1, s2, s3 writes. -/
def r0 (i : Instr) (a b : W64) (c : W64 := 0) : W64 := ((after i (lapS [(1, a), (2, b), (3, c)])).hart lap0).s[0]

/-- What is still to land. -/
def lands (i : Instr) (a b : W64) : Option Ans := ((after i (lapS [(1, a), (2, b)])).hart lap0).pend.bind (·.ans)

def alu (t : Ty) : Alu := { g := .always, ty := t, d := .s 0, a := .s 1, b := .reg (.s 2) }
def alu1 (t : Ty) : Alu1 := { g := .always, ty := t, d := .s 0, a := .s 1 }
def falu (t : Ty) (rm : Rm) : FAlu := { g := .always, ty := t, rm := rm, d := .s 0, a := .s 1, b := .reg (.s 2) }
def falu1 (t : Ty) (rm : Rm) : FAlu1 := { g := .always, ty := t, rm := rm, d := .s 0, a := .s 1 }
def dab : Dab := { g := .always, d := .s 0, a := .s 1, b := .reg (.s 2) }

/-! ### Integer words: the examples of R116, R125 and hand calculation from R116 to R124 -/

theorem test_add : r0 (.add (alu .i32)) 0x7FFFFFFF 1 = 0xFFFFFFFF80000000 ∧ r0 (.add (alu .n32)) 0x7FFFFFFF 1 = 0x80000000 := by
  decide +kernel
theorem test_sub : r0 (.sub (alu .n8)) 0 1 = 0xFF ∧ r0 (.sub (alu .i8)) 0 1 = 0xFFFFFFFFFFFFFFFF := by decide +kernel
theorem test_mul : r0 (.mul (alu .i8)) 0x10 0x18 = 0xFFFFFFFFFFFFFF80 ∧ r0 (.mul (alu .n16)) 0x100 0x101 = 0x100 := by decide +kernel
theorem test_mulh : r0 (.mulh (alu .i8)) 0x80 2 = 0xFFFFFFFFFFFFFFFF ∧ r0 (.mulhn (alu .n8)) 0x80 2 = 1 := by decide +kernel
theorem test_div : lands (.div (alu .i8)) 0x80 0xFF = some (.ok 0xFFFFFFFFFFFFFF80) ∧ lands (.div (alu .i8)) 0xF9 2 = some (.ok 0xFFFFFFFFFFFFFFFD)
    ∧ lands (.divn (alu .n8)) 0xF9 2 = some (.ok 0x7C) ∧ lands (.div (alu .i8)) 1 0x100 = some (.err 0x0E 0) := by decide +kernel
theorem test_rem : lands (.rem (alu .i8)) 0x80 0xFF = some (.ok 0) ∧ lands (.rem (alu .i8)) 0xF9 2 = some (.ok 0xFFFFFFFFFFFFFFFF)
    ∧ lands (.remn (alu .n8)) 0xF9 2 = some (.ok 1) := by decide +kernel
theorem test_neg_abs : r0 (.neg (alu1 .i8)) 0x80 0 = 0xFFFFFFFFFFFFFF80 ∧ r0 (.abs (alu1 .i8)) 0x80 0 = 0xFFFFFFFFFFFFFF80
    ∧ r0 (.abs (alu1 .i8)) 0xFF 0 = 1 := by decide +kernel
theorem test_min : r0 (.min (alu .i8)) 0xFF 1 = 0xFFFFFFFFFFFFFFFF ∧ r0 (.minn (alu .n8)) 0xFF 1 = 1 := by decide +kernel
theorem test_max : r0 (.max (alu .i8)) 0xFF 1 = 1 ∧ r0 (.maxn (alu .n8)) 0xFF 1 = 0xFF := by decide +kernel
theorem test_logic : r0 (.and (alu .n8)) 0xC 0xA = 8 ∧ r0 (.or (alu .n8)) 0xC 0xA = 0xE ∧ r0 (.xor (alu .n8)) 0xC 0xA = 6
    ∧ r0 (.andn (alu .n8)) 0xC 0xA = 4 := by decide +kernel
theorem test_shifts : r0 (.shl (alu .n8)) 0x81 9 = 2 ∧ r0 (.shr (alu .n8)) 0x81 9 = 0x40 ∧ r0 (.sra (alu .i8)) 0x81 9 = 0xFFFFFFFFFFFFFFC0
    ∧ r0 (.rot (alu .n8)) 0x81 9 = 3 := by decide +kernel
theorem test_counts : r0 (.pcnt (alu1 .n8)) 0x1F1 0 = 5 ∧ r0 (.clz (alu1 .n8)) 0x11 0 = 3 ∧ r0 (.ctz (alu1 .n8)) 0 0 = 8
    ∧ r0 (.brev (alu1 .n8)) 0x1 0 = 0x80 ∧ r0 (.bswap (alu1 .n32)) 0x01020304 0 = 0x04030201 := by decide +kernel
theorem test_fields : r0 (.bfx .always (.s 0) (.s 1) 4 7) 0xABCD 0 = 0xBC
    ∧ r0 (.bfi .always (.s 1) (.s 2) 4 7) 0xABCD 0 = 0 ∧ ((after (.bfi .always (.s 1) (.s 2) 4 7) (lapS [(1, 0xABCD), (2, 0x1EF)])).hart lap0).s[1] = 0xAEFD := by
  decide +kernel
theorem test_mov_lea : r0 (.mov .always (.s 0) (.lit32 0xFFFFFFFF)) 0 0 = 0xFFFFFFFFFFFFFFFF
    ∧ r0 (.lea .always (.s 0) (.s 1) (.imm 0x7FFFF)) 0 0 = 0xFFFFFFFFFFFFFFFF := by decide +kernel
theorem test_cmp : (((after (.cmp .always .i8 .lt 6 (.s 1) (.reg (.s 2))) (lapS [(1, 0xFF), (2, 1)])).hart lap0).p[6]) = true
    ∧ (((after (.cmp .always .n8 .lt 6 (.s 1) (.reg (.s 2))) (lapS [(1, 0xFF), (2, 1)])).hart lap0).p[6]) = false := by decide +kernel
/-- R122: 0x4 is pa and not pb. -/
theorem test_plog : (((after (.plog .always 0 1 2 4) (hartState lap0 { hart1 [] with p := Hart.zero.p.set 1 true })).hart lap0).p[0]) = true
    ∧ (((after (.plog .always 0 2 1 4) (hartState lap0 { hart1 [] with p := Hart.zero.p.set 1 true })).hart lap0).p[0]) = false := by decide +kernel
theorem test_pmov_sel : (((after (.pmov .always (.p 3) (.s 1)) (lapS [(1, 4)])).hart lap0).p[3]) = true ∧ r0 (.sel .always (.s 0) (.s 1) (.reg (.s 2)) 0) 5 6 = 6 := by
  decide +kernel
theorem test_pfxc : r0 (.pfxc .always (.s 0) (.s 1) .z) 0x69 0 = 4 := by decide +kernel
theorem test_intx : r0 (.intx .always (.s 0) (.s 1) (.s 2) (.s 3)) 0x69 0x34 = 0x06050202
    ∧ r0 (.intx .always (.s 0) (.s 1) (.s 2) (.s 3)) 0x69 0x34 0x06050202 = 0x8000000000000000
    ∧ r0 (.intx .always (.s 0) (.s 1) (.s 2) (.s 3)) 0x0F 0xF0 = 0x8000000000000000 := by decide +kernel

/-! ### Float words: IEEE 754 values, and the examples of R59 -/

theorem test_fadd : r0 (.fadd (falu .f32 .rne)) 0x3F800000 0x33800000 = 0x3F800000 ∧ r0 (.fadd (falu .f32 .rup)) 0x3F800000 0x33800000 = 0x3F800001
    ∧ r0 (.fsub (falu .f64 .rdn)) 0x3FF0000000000000 0x3FF0000000000000 = 0x8000000000000000 := by decide +kernel
theorem test_fmul_fma : r0 (.fmul (falu .bf16 .rne)) 0x3FC0 0x4000 = 0x4040
    ∧ r0 (.fma (falu .f32 .rne) (.s 3)) 0x3FC00000 0x40000000 0xC0400000 = 0 := by decide +kernel
theorem test_fdiv : lands (.fdiv (falu .f32 .rne)) 0x3F800000 0x40400000 = some (.ok 0x3EAAAAAB)
    ∧ lands (.fsqrt (falu1 .f64 .rne)) 0x4000000000000000 0 = some (.ok 0x3FF6A09E667F3BCD) := by decide +kernel
/-- R53: -0 lies below +0. -/
theorem test_fmin_fmax : r0 (.fmin (alu .f32)) 0 0x80000000 = 0x80000000 ∧ r0 (.fmax (alu .f32)) 0x7FC00000 0x3F800000 = 0x3F800000 := by
  decide +kernel
theorem test_fcmp : ((after (.fcmp .always .f32 .lt 0 (.s 1) (.reg (.s 2))) (lapS [(1, 0x80000000), (2, 0)])).hart lap0).p[0] = true
    ∧ ((after (.fcmp .always .f32 .lt 0 (.s 1) (.reg (.s 2))) (lapS [(1, 0x7FC00000), (2, 0)])).hart lap0).flg = 16 := by decide +kernel
theorem test_fclass : r0 (.fclass (alu1 .f16)) 0x0001 0 = 32 ∧ r0 (.fclass (alu1 .f32)) 0xFF800000 0 = 1 := by decide +kernel
theorem test_fsgn : r0 (.fsgn (alu .f16) .xor) 0xBC00 0x8000 = 0x3C00 ∧ r0 (.fsgn (alu .f16) .neg) 0x3C00 0x0000 = 0xBC00 := by decide +kernel
/-- R59: 0.3, 0.25, 2.5 and 7.0 into e2m1, with the flags 3, 3, 1 and 5 (NX 1, UF 2, OF 4). -/
theorem test_cvt_e2m1 : (roundVal fmtE2m1 .rne false 0 (fpVal .f32 0x3E99999A)) = (1, 3) ∧ roundVal fmtE2m1 .rne false 0 (fpVal .f32 0x3E800000) = (0, 3)
    ∧ roundVal fmtE2m1 .rne false 0 (fpVal .f32 0x40200000) = (4, 1) ∧ roundVal fmtE2m1 .rne false 0 (fpVal .f32 0x40E00000) = (7, 5) := by
  decide +kernel
theorem test_cvt : r0 (.cvt .always .narrow .e2m1 .f32 .e4m3 .rne false (.s 0) (.s 1)) 0x40200000 0 = 4
    ∧ r0 (.cvt .always .i8 .e4m3 .f32 .e4m3 .rtz false (.s 0) (.s 1)) 0xC0200000 0 = 0xFFFFFFFFFFFFFFFE := by decide +kernel
theorem test_frnd : r0 (.frnd (falu1 .f32 .rne)) 0x40200000 0 = 0x40000000 ∧ r0 (.frnd (falu1 .f32 .rup)) 0xBF000000 0 = 0x80000000 := by
  decide +kernel

/-- R348: the table of the example. -/
def tab348 : DTab :=
  { width := 4, tiny := 0x3F000000
    entries := [0x00080000, 0x0001F800, 0x0001FC00, 0x00020000, 0x00180000, 0x00180000, 0x0001FE00, 0x00180000, 0x000C0000]
      ++ List.replicate 247 0x00180000 }

def tabS (regs : List (Fin 128 × W64)) : State := { lapS regs with tabs := [(.core 0 0, tab348)] }

theorem test_dtrd_header : ((after (.dtrd .always (.s 0) (.lit32 512) .own) (tabS [])).hart lap0).s[0] = 0x3F00000000000604 := by decide +kernel
theorem test_dtrd_permutation :
    [256, 257, 258, 259, 260, 261, 262].map (tableWord tab348) = [0x108, 0x100, 0x101, 0x102, 0x106, 0x103, 0].map some := by decide +kernel
/-- 1.25, 0.2, 2.25, 2.25 with no saturation, 2.5. -/
theorem test_cvte : encTable tab348.encTab .rne false 0 (fpVal .f32 0x3FA00000) = some (2, 1)
    ∧ encTable tab348.encTab .rne false 0 (fpVal .f32 0x3E4CCCCD) = some (0, 3)
    ∧ encTable tab348.encTab .rne false 0 (fpVal .f32 0x40100000) = some (3, 5)
    ∧ encTable tab348.encTab .rne true 0 (fpVal .f32 0x40100000) = some (4, 5)
    ∧ encTable tab348.encTab .rne false 0 (fpVal .f32 0x40200000) = some (3, 5) := by decide +kernel
theorem test_cvte_cvtd : ((after (.cvte (falu1 .f32 .rne) false) (tabS [(1, 0x3FA00000)])).hart lap0).s[0] = 2
    ∧ ((after (.cvtd (falu1 .f32 .rne)) (tabS [(1, 6)])).hart lap0).s[0] = 0x3FC00000 := by decide +kernel

/-! ### Tables, counters and queues: the spec's examples -/

/-- Words of 64 bits in the scratchpad of cluster 0. -/
def withCsp (s : State) (l : List (Nat × W64)) : State := l.foldl (fun s x => s.wr64 (cspBase 0 + x.1) x.2) s

/-- Words of 64 bits in the local memory of core 0 of cluster 0. -/
def withLocal (s : State) (l : List (Nat × W64)) : State := l.foldl (fun s x => s.wr64 (localBase 0 0 + x.1) x.2) s

def cspA (off : Nat) : W64 := BitVec.ofNat 64 (0x9000000000000000 + off)
def localA (off : Nat) : W64 := BitVec.ofNat 64 (0x8000000000000000 + off)

/-- The state of hart lap0, and what is still to land for it. -/
def h0 (s : State) : Hart := s.hart lap0
def landsIn (i : Instr) (s : State) : Option Ans := (h0 (after i s)).pend.bind (·.ans)

/-- R352: G = 3 with rows 70, 0 and 20; the record at offset 0x40, its vector at 0x200. -/
def grpS (t : W64) : State :=
  withCsp (lapS [(1, cspA 0x40), (2, t)]) [(0x40, 0x1502), (0x48, cspA 0x200), (0x50, 3), (0x70, 8), (0x200, 0),
    (0x208, 0x0000000200000046), (0x210, 0x0000000200000046), (0x218, 0x000000030000005A)]

theorem test_grpfind : landsIn (.grpfind dab) (grpS 1) = some (.ok 0x0006000000400000)
    ∧ landsIn (.grpfind dab) (grpS 2) = some (.ok 0x0014000000460002)
    ∧ landsIn (.grpfind dab) (grpS 3) = some (.ok 0x8000000000000000) := by decide +kernel

/-- R380: allocator 1 of the example. -/
def bumpS (ptr lim : W64) (chain size : W64) : State :=
  let s := withCsp (lapS [(2, size)]) [(0x20000, 0x1000)]
  s.setCluster 0 { s.cluster 0 with bumps := (s.cluster 0).bumps.set 1 (0x8000000000000000 ||| (3 <<< 46) ||| (lim <<< 23) ||| ptr, chain) }

theorem test_bump : landsIn (.bump .always (.s 0) (.reg (.s 2)) 1) (bumpS 0x10000 0x10100 0x20000 96) = some (.ok (cspA 0x10000))
    ∧ landsIn (.bump .always (.s 0) (.reg (.s 2)) 1) (bumpS 0x10080 0x10100 0x20000 200) = some (.ok (cspA 0x20040))
    ∧ (h0 (after (.bump .always (.s 0) (.reg (.s 2)) 1) (bumpS 0x20140 0x21000 0 0x1000))).tr.cause.extractLsb' 0 8 = 0x1B := by decide +kernel

/-- R254: the word holds 5: X compares with 5 and writes 9, then Y adds 1. -/
theorem test_cas : r0 (.cas .always .plain .i64 (.s 0) (.s 1) (.s 2)) 0x9000000000000040 9 = 0
    ∧ memRead (after (.cas .always .plain .i64 (.s 3) (.s 1) (.s 2)) (withCsp (lapS [(1, cspA 64), (2, 9), (3, 5)]) [(64, 5)])).mem (cspBase 0 + 64) 8 = 9 := by
  decide +kernel
theorem test_amo : memRead (after (.amo .always .plain .add .i64 (.s 0) (.s 1) (.lit32 1)) (withCsp (lapS [(1, cspA 64)]) [(64, 9)])).mem (cspBase 0 + 64) 8 = 10
    ∧ (h0 (after (.amo .always .plain .min .i32 (.s 0) (.s 1) (.lit32 1)) (withLocal (lapS [(1, localA 64)]) [(64, 0xFFFFFFFF)]))).s[0] = 0xFFFFFFFFFFFFFFFF := by
  decide +kernel
theorem test_ld_st : (h0 (after (.ld .always .plain .i8 false (.s 0) (.s 1) (.imm (-1))) (withLocal (lapS [(1, localA 8)]) [(0, 0x8000000000000000)]))).s[0] = 0xFFFFFFFFFFFFFF80
    ∧ (h0 (after (.ld .always .plain .i4 true (.s 0) (.s 1) (.imm 0)) (withLocal (lapS [(1, localA 0)]) [(0, 0x92)]))).s[0] = 0xFFFFFFFFFFFFFFF9
    ∧ memRead (after (.st .always .plain .n16 false (.s 2) (.s 1) (.imm 2)) (withLocal (lapS [(1, localA 0), (2, 0xABCD)]) [(0, 0x1111111111111111)])).mem (localBase 0 0) 8
        = 0x11111111ABCD1111 := by decide +kernel

/-- R325: the thief's core 5 gets A, B, C of the five records of core 6. -/
theorem test_slsteal :
    let e := Ent.lap 0 5 0
    let t := after (.longOpLanding e) (after (.slsteal .always (.s 2))
      ((hartState e (hart1 [])).setCore 0 6 { LapCore.zero with sled := [(1, 0), (2, 0), (3, 0), (4, 0), (5, 0)] }))
    (t.core 0 5).sled = [(1, 0), (2, 0), (3, 0)] ∧ (t.core 0 6).sled = [(4, 0), (5, 0)] ∧ (t.hart e).pend.bind (·.ans) = some (.ok 3) := by decide +kernel
/-- R324. -/
theorem test_slpush_slpop :
    ((after (.slpush .always (.s 1) (.s 2)) (lapS [(1, 7), (2, 8)])).core 0 0).sled = [(7, 8)]
    ∧ (let t := h0 (after (.slpop .always (.s 0)) ((lapS []).setCore 0 0 { LapCore.zero with sled := [(1, 2), (7, 8)] }))
       t.s[0] = 1 ∧ t.h[3] = 7 ∧ t.h[4] = 8) := by decide +kernel

/-- R357, R359: the entries of the example: state 3 decode, 2 prefill, 1 waiting; word 0 holds state, prio from bit 8 and stamp from bit 32,
word 1 ctxlen and pend, word 2 gen and maxgen. -/
def seqE (st prio stamp ctx pend gen maxgen : Nat) : List W64 :=
  [BitVec.ofNat 64 (st + prio * 2 ^ 8 + stamp * 2 ^ 32), BitVec.ofNat 64 (ctx + pend * 2 ^ 32), BitVec.ofNat 64 (gen + maxgen * 2 ^ 32), 0]

def buildS : State :=
  let s := lapS [(1, localA 0x100), (2, BitVec.ofNat 64 (10 + 3 * 2 ^ 16))]
  s.setDie 0 { Die.zero with builds := 17, seqs := [(5, seqE 3 1 10 40 0 3 4), (9, seqE 3 1 12 22 0 0 8), (2, seqE 2 1 14 8 12 0 8), (7, seqE 1 2 20 0 5 0 8)] }

theorem test_sqbuild :
    let t := after (.sqbuild .always (.s 0) (.s 1) (.s 2) .z) buildS
    (h0 t).pend.bind (·.ans) = some (.ok 3)
    ∧ [0, 8, 24, 40].map (fun o => memRead t.mem (localBase 0 0 + 0x100 + o) 8)
        = [0x0000001100070003, 0x0000002800010005, 0x0000001600010009, 0x0000000000051007]
    ∧ (t.seqAt 0 5).map (·.toNat % 2 ^ 32) = [6 + 256, 41, 4, 0] := by decide +kernel

/-! ### Control flow, traps and system registers (R126, R199 to R212) -/

/-- A thread outside a handler, its cluster delegating these codes to 0x2000. -/
def userS (deleg : W32) (regs : List (Fin 128 × W64)) : State :=
  let h := hart1 regs
  (hartState lap0 { h with tr := .zero }).setCluster 0 { Cluster.zero with clsvec := 0x2000, cldeleg := deleg }

theorem test_trap : let t := h0 (after (.trap .always 5) (userS 0x20000000 []))
    t.pc = 0x2000 ∧ t.tr.epc = 0x1008 ∧ t.tr.cause = 0x051D ∧ t.tr.insn = 0x001C000000000005 ∧ t.tr.level = 1 ∧ t.tr.hnd = true := by decide +kernel
theorem test_trap_escalated : let t := h0 (after (.trap .always 5) (userS 0 []))
    t.rot = .trapped ∧ t.tr.cause = 0x0400051D ∧ t.tr.level = 0 := by decide +kernel
theorem test_scall : let t := h0 (after (.scall .always 2) (userS 0 []))
    t.pc = 0x2000 ∧ t.tr.epc = 0x1008 ∧ t.tr.cause = 0x0200021D := by decide +kernel
theorem test_bkpt : (h0 (after (.bkpt .always 1) (userS 0 []))).tr.cause = 0x0400011C
    ∧ (h0 (after (.bkpt .always 1) { userS 0 [] with haltOnBreak := true })).rot = .debug := by decide +kernel
theorem test_hret : let t := h0 (after (.hret .always) (hartState lap0 { hart1 [] with tr := { TrapRegs.zero with epc := 0x3008, level := 1, hnd := true } }))
    t.pc = 0x3008 ∧ t.tr.level = 0 ∧ t.tr.hnd = false := by decide +kernel
theorem test_hret_outside : (h0 (after (.hret .always) (userS 0 []))).tr.cause = 0x04000003 := by decide +kernel
theorem test_srrd : r0 (.srrd .always (.s 0) 1) 0 0 = 5 ∧ r0 (.srrd .always (.s 0) 2) 0 0 = 0 := by decide +kernel
/-- R199: the value 5 of drm is refused; the other bits are written. -/
theorem test_srwr : (h0 (after (.srwr .always (.s 1) 0) (lapS [(1, 0xFFF)]))).flg = 0xFF ∧ (h0 (after (.srwr .always (.s 1) 6) (lapS [(1, 7)]))).tr.scr = 7 := by
  decide +kernel
theorem test_flgrd_flgclr : (h0 (after (.flgclr .always 0b10001) (hartState lap0 { hart1 [] with flg := 0xFF }))).flg = 0xEE
    ∧ (h0 (after (.flgrd .always (.s 0)) (hartState lap0 { hart1 [] with flg := 0xFF }))).s[0] = 0xFF := by decide +kernel
theorem test_modeset : (h0 (after (.modeset .always (.s 1) 0x203) (lapS [(1, 2)]))).rot = .out
    ∧ ((after (.modeset .always (.s 1) 0x245) (lapS [(1, 0)])).ctx 0 1 1).wchk = false := by decide +kernel
theorem test_modeset_task : (h0 (after (.modeset .always (.s 1) 0x203) (userS 0 []))).tr.cause = 0x04000003 := by decide +kernel
theorem test_br : (h0 (after (.br .always (-3)) (lapS []))).pc = 0xFE8 ∧ (h0 (after (.br (.on 0) (-3)) (lapS []))).pc = 0x1008 := by decide +kernel
theorem test_jmp_ret : (h0 (after (.jmp .always (.s 0) (.s 1)) (lapS [(1, 0x80)]))).pc = 0x80 ∧ r0 (.jmp .always (.s 0) (.s 1)) 0x80 0 = 0x1008
    ∧ (h0 (after (.ret .always (.s 1)) (lapS [(1, 0x84)]))).tr.cause = 0x04000004 := by decide +kernel
theorem test_call : (h0 (after (.call .always (.s 0) 2) (lapS []))).pc = 0x1010 ∧ r0 (.call .always (.s 0) 2) 0 0 = 0x1008 := by decide +kernel
theorem test_loop : (h0 (after (.loop .always (.s 1) (-2)) (lapS [(1, 1)]))).pc = 0x1008 ∧ (h0 (after (.loop .always (.s 1) (-2)) (lapS [(1, 2)]))).pc = 0xFF0
    ∧ (h0 (after (.loop .always (.s 1) (-2)) (lapS [(1, 0)]))).s[1] = 0xFFFFFFFFFFFFFFFF := by decide +kernel
theorem test_halt : (h0 (after (.halt .always) (lapS []))).rot = .halted := by decide +kernel
theorem test_nop : (h0 (after .nop (lapS []))).pc = 0x1008 := by decide +kernel
theorem test_window : (h0 (after (.mov .always (.s 0) (.reg (.s 64))) (hartState lap0 { hart1 [] with size := 64 }))).tr.cause = 0x0000004004000002 := by
  decide +kernel
theorem test_illegal : (h0 (after (.illegalInstruction 0x1234) (lapS []))).tr.cause.extractLsb' 0 8 = 1 := by decide +kernel

/-- R232: the example. -/
theorem test_home : homeDie 0x123440 = 1 ∧ homeSlice 0x123440 = 0x41 := by decide +kernel

/-! ### Token buffer, triggers, pegs, queues -/

theorem test_tbfill : ((after (.tbfill .always (.s 1) (.s 2)) (lapS [(1, 0xFFFF000400000009), (2, 0x77)])).core 0 0).toks[0]
    = { v := true, blk := 9, seq := 4, addr := 0x77 } := by decide +kernel
/-- R355: a hit, and a miss that goes to the vector. -/
theorem test_tbprobe :
    let c := { LapCore.zero with tokVec := 0x4000, toks := LapCore.zero.toks.set 3 { v := true, blk := 9, seq := 4, addr := 0x77 } }
    (h0 (after (.tbprobe .always (.s 0) (.s 1)) ((lapS [(1, 0x400000009)]).setCore 0 0 c))).s[0] = 0x77
    ∧ (let t := h0 (after (.tbprobe .always (.s 0) (.s 1)) ((lapS [(1, 0x500000009)]).setCore 0 0 c))
       t.pc = 0x4000 ∧ t.h[8] = 0x500000009 ∧ t.h[9] = 0x1000) := by decide +kernel
theorem test_tbinv :
    let c := { LapCore.zero with toks := (LapCore.zero.toks.set 3 { v := true, blk := 9, seq := 4, addr := 1 }).set 5 { v := true, blk := 8, seq := 4, addr := 1 } }
    (h0 (after (.tbinv .always (.s 0) (some (.s 1)) true) ((lapS [(1, 0x400000009)]).setCore 0 0 c))).s[0] = 2
    ∧ (h0 (after (.tbinv .always (.s 0) (some (.s 1)) false) ((lapS [(1, 0x400000009)]).setCore 0 0 c))).s[0] = 1
    ∧ (h0 (after (.tbinv .always (.s 0) none false) ((lapS []).setCore 0 0 c))).s[0] = 2 := by decide +kernel
/-- R369: the word of a bound counter with count 7 of slot 2. -/
theorem test_tcrd : (h0 (after (.tcrd .always (.s 0) 3) ((lapS []).setCore 0 0 { LapCore.zero with
    trig := LapCore.zero.trig.set 3 { count := 7, slot := 2, bound := true, under := false, acq := none } }))).s[0] = 0x1200000007 := by decide +kernel
theorem test_tcset_tbind : ((after (.tcset .always (.lit32 9) 3) (lapS [])).core 0 0).trig[3].count = 9
    ∧ (h0 (after (.tbind .always 3) ((lapS []).setCore 0 0 { LapCore.zero with trig := LapCore.zero.trig.set 3 { Trig.zero with count := 1 } }))).rot = .parked
    ∧ (h0 (after (.tbind .always 3) (lapS []))).rot = .ready := by decide +kernel
/-- R374: a peg of target 4 with count 3 and generation 255. -/
theorem test_pegarm : memRead (after (.pegarmAdd dab) (withCsp (lapS [(1, cspA 64), (2, 1)]) [(64, 0xFF00000040000003)])).mem (cspBase 0 + 64) 8 = 0x0000000040000000
    ∧ (h0 (after (.pegarmAdd dab) (withCsp (lapS [(1, cspA 64), (2, 2)]) [(64, 0xFF00000040000003)]))).tr.cause.extractLsb' 0 8 = 0x1A
    ∧ memRead (after (.pegarm dab) (withCsp (lapS [(1, cspA 64), (2, 5)]) [(64, 0xFF00000040000003)])).mem (cspBase 0 + 64) 8 = 0xFF00000050000000 := by decide +kernel
theorem test_pegwait : (h0 (after (.pegwait dab) (withCsp (lapS [(1, cspA 64), (2, 0xFE)]) [(64, 0xFF00000040000003)]))).s[0] = 0xFF00000040000003
    ∧ (h0 (after (.pegwait dab) (withCsp (lapS [(1, cspA 64), (2, 0)]) [(64, 0xFF00000040000003)]))).rot = .parked := by decide +kernel
/-- R319: two gathers, one word, three sled records. -/
theorem test_qstat_aqclr :
    let g : Gath := { addr := 0, ty := .b64, hi := false, no := 0 }
    let s := (hartState lap0 { hart1 [] with aq := [(g, 1), (g, 1)], dq := [.word 5] }).setCore 0 0 { LapCore.zero with sled := [(1, 1), (2, 2), (3, 3)] }
    (h0 (after (.qstat .always (.s 0)) s)).s[0] = 0xC0012 ∧ (h0 (after (.aqclr .always (.s 0)) s)).s[0] = 3
    ∧ (h0 (after (.aqclr .always (.s 0)) s)).aq = [] := by decide +kernel
/-- R318: the address is (A + (B << FN)) mod 2^64. -/
theorem test_gidx : (h0 (after (.gidx .always .f32 (.s 1) (.s 2) 2) (lapS [(1, localA 16), (2, 0xFFFFFFFFFFFFFFFF)]))).aq.map (·.1.addr) = [localA 12] := by decide +kernel
/-- R110: a word pushed north by core 4 is popped by core 0 with its read of south. -/
theorem test_ports :
    let s := (lapS []).setCore 0 (neighbour 0 .south) { LapCore.zero with north := { words := [(0, 42)], popAt := none } }
    (h0 (after (.mov .always (.s 0) (.reg (.port .south))) { s with clk := 1 })).s[0] = 42
    ∧ (h0 (after (.mov .always (.s 0) (.reg (.port .south))) s)).rot = .parked := by decide +kernel
theorem test_fence : (h0 (after (.fence .always .die false true) (lapS []))).rot = .out := by decide +kernel
theorem test_rcrd : landsIn (.rcrd .always (.s 0) (.lit32 13)) ((lapS []).setDie 0 { Die.zero with rcs := [(13, 0x42)] }) = some (.ok 0x42) := by decide +kernel
/-- R361: destination core 5 of cluster 3, span 1. -/
theorem test_erget : landsIn (.erget dab 0) ((lapS [(1, 2), (2, 4)]).setDie 0 { Die.zero with experts := [(2, (0x8000000000000065, 0))] }) = some (.ok 0x65)
    ∧ landsIn (.erget dab 0) (lapS [(1, 2), (2, 4)]) = some (.ok 0x8000000000000000) := by decide +kernel
theorem test_sqset : landsIn (.sqsetOp dab) ((lapS [(1, 5), (2, 2)]).setDie 0 { Die.zero with seqs := [(5, seqE 4 0 0 0 9 0 0)] }) = some (.ok 0)
    ∧ ((after (.sqsetOp dab) ((lapS [(1, 5), (2, 2)]).setDie 0 { Die.zero with seqs := [(5, seqE 4 0 0 0 9 0 0)] })).seqAt 0 5).headD 0 = 1 := by decide +kernel

/-! ### Control cores (R46, R62, R64, R141 to R153, R181 to R186) -/

/-- Context 0 of control core 0 of cluster 0, about to issue, with these scalar registers. -/
def ctxS (regs : List (Fin 64 × W64)) (q : List (Fin 16) := []) : State :=
  let s := { State.reset with actor := .ctx 0 0 0 }
  let s := s.setCc 0 0 { CcState.zero with loaded := 0x20000 }
  s.setCtx 0 0 0 { Ctx.zero with
    state := 1, pc := 0x80, npc := 0xC0, nnpc := 0x100
    c := regs.foldl (fun (v : Vector W64 64) (x : Fin 64 × W64) => v.set x.1 x.2) Ctx.zero.c
    q := q.foldl (fun (v : Vector Bool 16) (x : Fin 16) => v.set x true) Ctx.zero.q }

def nopB : Bundle := ⟨.nop, .nop, .nop, .nop, .nop, .nop, .nop, .nop⟩

/-- The results still to land after a bundle: register and latency. -/
def pendsOf (b : Bundle) (s : State) : List (CReg × Nat) := ((after (.bundleIssue b) s).cc 0 0).pending.map fun p => (p.reg, p.left)

/-- The first lanes of the first result still to land. -/
def lanesOf (b : Bundle) (s : State) (w n : Nat) : List Nat :=
  match ((after (.bundleIssue b) s).cc 0 0).pending with
  | p :: _ => (List.range n).map (laneAt w p.val)
  | [] => []

/-- A state whose vector registers hold these lanes. -/
def vecS (w : Nat) (l : List (Nat × List Nat)) : State :=
  (ctxS []).setCc 0 0 { CcState.zero with loaded := 0x20000, v := l.map fun x => (x.1, ofLanes w x.2) }

theorem test_s_add : pendsOf { nopB with s := .op 0 (.bin .add 4 4 (.imm 64)) } (ctxS [(4, 1)]) = [(.c 0 4, 1)]
    ∧ lanesOf { nopB with s := .op 0 (.bin .add 4 4 (.imm 64)) } (ctxS [(4, 1)]) 64 1 = [65]
    ∧ pendsOf { nopB with s := .op 0 (.bin .mul 4 4 (.imm 64)) } (ctxS [(4, 1)]) = [(.c 0 4, 3)] := by decide +kernel
theorem test_s_cmp_sel : lanesOf { nopB with s := .op 0 (.cmp 2 .ltu 4 (.imm 0xFFFFFFFF)) } (ctxS [(4, 1)]) 64 1 = [1]
    ∧ lanesOf { nopB with s := .op 0 (.cmp 2 .lt 4 (.imm 0xFFFFFFFF)) } (ctxS [(4, 1)]) 64 1 = [0]
    ∧ lanesOf { nopB with s := .op 0 (.sel 5 4 (.imm 7) 3) } (ctxS [(4, 1)] [3]) 64 1 = [1] := by decide +kernel
/-- R145, R153: the address triple after a taken branch, and LOOPC at 1. -/
theorem test_s_loopc :
    (let t := (after (.bundleIssue { nopB with s := .op 0 (.loopc 7 (-1)) }) (ctxS [(7, 3)])).ctx 0 0 0
     (t.pc, t.npc, t.nnpc) = (0xC0, 0x100, 0x40))
    ∧ (let t := (after (.bundleIssue { nopB with s := .op 0 (.loopc 7 (-1)) }) (ctxS [(7, 1)])).ctx 0 0 0
       (t.pc, t.npc, t.nnpc) = (0xC0, 0x100, 0x140)) := by decide +kernel
theorem test_s_call : lanesOf { nopB with s := .op 0 (.call 5 2) } (ctxS []) 64 1 = [0x140] := by decide +kernel
theorem test_s_haltc : ((after (.bundleIssue { nopB with s := .op 0 .haltc }) (ctxS [])).ctx 0 0 0).state = 4 := by decide +kernel
/-- R91, R206: an illegal syllable traps the context with its slot. -/
theorem test_bundle_illegal : let t := (after (.bundleIssue { nopB with cp := .illegal 0x0990000000000000 }) (ctxS [])).ctx 0 0 0
    t.state = 5 ∧ t.epc = 0x80 ∧ t.cau = 0x0000009904C00001 := by decide +kernel
theorem test_v_add : lanesOf { nopB with v0 := .op 0 (.bin .add .f32 .rne 0 (.v 5) (.v 9) (.v 13)) } (vecS 32 [(9, [0x3F800000, 0]), (13, [0x3F800000, 0x40000000])]) 32 3
    = [0x40000000, 0x40000000, 0] := by decide +kernel
theorem test_v_min_int : lanesOf { nopB with v0 := .op 0 (.bin .min .i8 .rne 0 (.v 5) (.v 9) (.v 13)) } (vecS 8 [(9, [0xFF, 3]), (13, [1, 2])]) 8 2 = [0xFF, 2] := by
  decide +kernel
theorem test_v_bcast_li : lanesOf { nopB with v0 := .op 0 (.bcast .n16 1 0 (.v 5) (.v 9)) } (vecS 16 [(9, [1, 7])]) 16 2 = [7, 7]
    ∧ lanesOf { nopB with v1 := .op 0 (.li .f32 0x0FE00000 0 (.v 5)) } (ctxS []) 32 2 = [0x3F800000, 0x3F800000] := by decide +kernel
/-- R46: lane 3 of the example. -/
theorem test_sr : srNumber 0x0123456789ABCDEF 3 = 0x30811B47
    ∧ roundVal fmtBf16 .sr false (srNumber 0x0123456789ABCDEF 3) (fpVal .f32 0x3F804000) = (0x3F81, 1) := by decide +kernel
/-- R64: the example, and the flag of its tie. -/
theorem test_v_red : treeFold (redNode .f32 .sum .rne) 10 (([0x3F800000, 0x33800000, 0x33800000, 0xBF800000] ++ List.replicate 124 0).map some)
    = (some 0x33800000, 1) := by decide +kernel
/-- R62: the example: two products of 2^-18 are summed before the one rounding. -/
theorem test_mma_group :
    let p : FVal × Flags := fMul (decF fmtE4m3 1) (decF fmtE4m3 1)
    addGroup fmtF32 (0x42800000, 0) [p, p] = (0x42800001, 0) ∧ addGroup fmtF32 (addGroup fmtF32 (0x42800000, 0) [p]) [p] = (0x42800000, 1) := by decide +kernel
/-- R181, R184: the bounds of the example's three elements. -/
theorem test_bound :
    [0x40A00000, 0x40200000, 0xC0800000].map (fun v => roundVal fmtF32 .rne false 0 (stepBound .half false 1 (f32v 0x3FC00000) (f32v 0x40000000) (f32v v)))
      = [(0x40400101, 0), (0x404000B1, 0), (0x404000E1, 0)] := by decide +kernel
/-- A podium of three pairs. -/
def pod3 : Accu := { Accu.zero with st := BitVec.ofNat 64 (2 + 2 * 2 ^ 10) }
/-- R185, R186: the example: values 4.0, 5.0, 4.0, -0 and 3.5 with their indices, then a raise to 4.5. -/
theorem test_podium :
    let ins (a : Accu) (p : Nat × Nat) : Accu := (a.insert 0 (BitVec.ofNat 32 p.1) (BitVec.ofNat 32 p.2)).1
    let a := [(0x40800000, 7), (0x40A00000, 9), (0x40800000, 2), (0x80000000, 3), (0x40600000, 1)].foldl ins pod3
    let b := (a.praise 0 0x40900000).1
    a.pairs 0 = [0x0000000940A00000, 0x0000000240800000, 0x0000000740800000] ∧ a.floor 0 = 0x40800000
    ∧ b.pairs 0 = [0x0000000940A00000] ∧ b.floor 0 = 0x40900000
    ∧ (ins b (0x40900000, 0)).pairs 0 = [0x0000000940A00000, 0x0000000040900000] := by decide +kernel
/-- R142: a result lands when its last cycle ends. -/
theorem test_landing :
    let s := (ctxS []).setCc 0 0 { CcState.zero with pending := [{ x := 0, reg := .c 0 4, val := 65, mask := none, left := 1, flags := 1 }] }
    let t := after (.resultLanding 0 0) s
    (t.ctx 0 0 0).c[4] = 65 ∧ (t.ctx 0 0 0).flg = 1 ∧ (t.cc 0 0).pending = [] ∧ (t.cc 0 0).scyc = 1 := by decide +kernel

/-- R363: the experts of the example's two tokens, a NaN never chosen. -/
theorem test_route_best : bestOf [0x3F800000, 0x40200000, 0x40000000, 0x40400000] 2 = [3, 1]
    ∧ bestOf [0, 0x3FC00000, 0x40000000, 0x7FC00000] 2 = [2, 1] := by decide +kernel

/-! ### Witnesses: states and operands that meet the hypotheses of the statements -/

/-- No source that a read pops. -/
def plainSpec : LSpec → Bool
  | .port _ | .dq | .mb => false
  | _ => true

theorem popAll_plain {e : Ent} {s : State} : ∀ rs : List LSpec, rs.all plainSpec = true → popAll e rs [] s = .ok [] s := by
  intro rs
  induction rs with
  | nil => intro _; rfl
  | cons r t ih =>
    intro h
    simp only [List.all_cons, Bool.and_eq_true] at h
    have : popOne e r [] s = .ok [] s := by cases r <;> first | rfl | exact absurd h.1 (by simp [plainSpec])
    simp only [popAll, this]
    exact ih h.2

/-- A word with no popped source that issues in this state. -/
def issuesNow (i : Instr) (s : State) : Bool :=
  entIsHart s.actor && (lapCheck i s.actor s).isNone && guardHolds (s.hart s.actor) (lapGuard i) && (lapSrcs i).all plainSpec
  && ((lapDst i).bind (pushBlocked s s.actor)).isNone

theorem issues_of {i : Instr} {s : State} (h : issuesNow i s = true) : Issues i s.actor s [] s := by
  simp only [issuesNow, Bool.and_eq_true, Option.isNone_iff_eq_none] at h
  exact ⟨rfl, h.1.1.1.1, h.1.1.1.2, h.1.1.2, popAll_plain _ h.1.2, h.2⟩

/-- One word of each constructor that a lap thread issues. -/
def lapWords : List Instr :=
  let g := Guard.always
  let a := LSpec.s 1
  let b := LSpec.s 2
  let c := LSpec.s 3
  let d := LSpec.s 0
  let r := BSrc.reg b
  let o := Disp.imm 0
  let i1 := alu1 .i64
  let m : Msg := { g := g, d := d, a := a, b := b, words := 0, ctr := 0, noCtr := true }
  [.nop, .br g 1, .jmp g d a, .call g d 1, .ret g a, .loop g d 1, .halt g, .trap g 0, .hret g, .scall g 255, .srrd g d 0x200, .srwr g a 0,
   .flgrd g d, .flgclr g 31, .bkpt g 0, .modeset g a 0x203, .add (alu .i8), .sub (alu .n8), .mul (alu .i16), .mulh (alu .i64), .mulhn (alu .n64),
   .div (alu .i32), .divn (alu .n32), .rem (alu .i64), .remn (alu .n64), .neg i1, .abs i1, .min (alu .i8), .max (alu .i8), .minn (alu .n8),
   .maxn (alu .n8), .mov g d (.lit64 5), .and (alu .i8), .or (alu .i8), .xor (alu .i8), .andn (alu .i8), .shl (alu .i8), .shr (alu .i8),
   .sra (alu .i8), .rot (alu .i8), .bfx g d a 0 63, .bfi g d a 63 0, .pcnt i1, .clz i1, .ctz i1, .brev i1, .bswap i1, .lea g d a o,
   .cmp g .i8 .lt 0 a r, .plog g 0 1 2 0xF, .pmov g d (.p 0), .sel g d a r 6, .pfxc g d a b, .intx g d a b c, .fadd (falu .f32 .rne),
   .fsub (falu .f64 .rtz), .fmul (falu .f16 .rdn), .fdiv (falu .bf16 .rup), .fsqrt (falu1 .f32 .rna), .fma (falu .f32 .dyn) c, .fmin (alu .f32),
   .fmax (alu .f64), .fcmp g .f32 .unordered 0 a r, .fclass (alu1 .f16), .fsgn (alu .f32) .copy, .cvt g .f32 .e4m3 .f64 .e4m3 .rne false d a,
   .cvtd (falu1 .f32 .rne), .cvte (falu1 .f32 .rne) true, .frnd (falu1 .f32 .rne), .ld g .plain .b64 false d a o, .st g .plain .b64 false d a o,
   .ldt g .f32 d a b o, .addm g .plain .f32 d a o, .amo g .plain .add .i64 d a r, .cas g .plain .b64 d a b, .sts g .plain .i8 d a b, .pref g a o,
   .topen g .f32 .e4m3 false d a b, .tvalid g a r, .seal g a, .tfree g a, .tstat g d a, .fence g .system true true, .drain g .die none,
   .gidx g .f32 a b 0, .sidx g .f32 d a b 7, .aqclr g d, .qstat g d, .send { m with d := .z }, .callr m, .reply g a b, .slpush g a b, .slpop g d,
   .slsteal g d, .mjob g d a b 1, .launch g d a b, .dtld g a .cc1, .dtrd g d r .own, .srfence g true (some a), .tbfill g a b, .tbfillVec g a,
   .tbinv g d (some a) true, .tbprobe g d a, .grpfind dab, .sqset dab, .sqsetOp dab, .sqsetUser dab, .sqsetPrio dab, .sqget g d a 3,
   .sqbuild g d a b c, .erset g a b c, .erget dab 2, .tolset g a b c 3, .tbind g 15, .tcset g r 0, .tcrd g d 0, .pegarm dab, .pegarmAdd dab,
   .pegwait dab, .rcsnap g a r, .rcrd g d r, .bump g d r 7, .bumpset g d a b 0]

/-- Every word of a lap thread issues from a small state. -/
theorem test_witness_issues : (lapWords.all fun i => issuesNow i (lapS [(1, 8), (2, 3)])) = true := by decide +kernel

/-- The words of the engines issue on their harts. -/
theorem test_witness_issues_engines :
    issuesNow (.xcopy .always .b64 (.s 0) (.s 1) (.s 2) (.s 3)) (hartState (.ce 0) (hart1 [])) = true
    ∧ issuesNow (.xconv .always .bf16 .e4m3 .f32 .e4m3 .rne false (.s 0) (.s 1) (.s 2) (.s 3)) (hartState (.ce 511) (hart1 [])) = true
    ∧ issuesNow (.route .always (.s 0) (.s 1)) (hartState (.re 3) (hart1 [])) = true
    ∧ issuesNow (.cmdnext .always 119) (hartState (.hart 0) (hart1 [])) = true
    ∧ issuesNow (.cmddone .always (.s 1) (.s 2) (.s 3) true true) (hartState (.hart 3) (hart1 [])) = true := by decide +kernel

/-- A word that pops: the three queues give their oldest words. -/
theorem test_witness_pops :
    let h := { hart1 [] with dq := [.word 5, .word 6] }
    let s := ((hartState lap0 h).setCore 0 0 { LapCore.zero with inbox := [{ words := [7, 8], head := false, scope := .thread }] }).setCore 0
      (neighbour 0 .south) { LapCore.zero with north := { words := [(0, 9)], popAt := none } }
    let t := { s with clk := 1 }
    let i := Instr.intx .always (.s 0) .dq .mb (.port .south)
    (match popAll lap0 (lapSrcs i) [] t with
      | .ok v u => decide ((readSpec t lap0 v .dq, readSpec t lap0 v .mb, readSpec t lap0 v (.port .south)) = (5, 7, 9))
          && decide ((h0 u).dq = [.word 6]) && (lapCheck i lap0 t).isNone && guardHolds (h0 t) .always
      | _ => false) = true := by decide +kernel

/-- R72, R83, R85: a word that an engine may not run, one above the thread's level, a register beyond the window, a return outside a
handler, and a guard that does not hold. -/
theorem test_witness_checks :
    let task := userS 0 []
    (isLapWord (.tbind .always 0) = true ∧ lapRunsOn (.tbind .always 0) (.re 0) = false)
    ∧ (isLapWord (.modeset .always (.s 1) 0x203) = true ∧ task.level lap0 < lapLevel (.modeset .always (.s 1) 0x203))
    ∧ (.s 127 ∈ lapSpecs (.ret .always (.s 127)) ∧ (h0 (hartState lap0 { hart1 [] with size := 127 })).size ≤ 127)
    ∧ (isLapWord (.hret .always) = true ∧ lapLevel (.hret .always) ≤ task.level lap0 ∧ (h0 task).tr.hnd = false)
    ∧ lapCheck (.br (.on 6) 1) lap0 (lapS []) = none ∧ guardHolds (h0 (lapS [])) (.on 6) = false := by decide +kernel

/-- R110, R111: moves that cannot be made. -/
theorem test_witness_blocked :
    let g : Gath := { addr := 0, ty := .b64, hi := false, no := 0 }
    let full := (lapS []).setCore 0 0 { LapCore.zero with east := { words := List.replicate 4 (0, 1), popAt := none } }
    let eight := hartState lap0 { hart1 [] with aq := List.replicate 8 (g, 0) }
    (lapCheck (.mov .always (.s 0) (.reg .dq)) lap0 (lapS []) = none ∧ (h0 (lapS [])).dq = [] ∧ (h0 (lapS [])).aq = [] ∧ (h0 (lapS [])).rot = .ready)
    ∧ (lapCheck (.mov .always (.s 0) (.reg .dq)) lap0 eight = none ∧ (h0 eight).dq = [] ∧ (h0 eight).aq ≠ [])
    ∧ (lapCheck (.mov .always (.s 0) (.reg (.port .east))) lap0 (lapS []) = none ∧ (((lapS []).core 0 (neighbour 0 .east)).link .west).words = [])
    ∧ (lapCheck (.mov .always (.s 0) (.reg .mb)) lap0 (lapS []) = none ∧ ((lapS []).core 0 0).inbox = [])
    ∧ (lapCheck (.mov .always (.port .east) (.lit64 1)) lap0 full = none ∧ ((full.core 0 0).link .east).words.length = 4)
    ∧ lapCheck (.mov .always .aq (.lit64 1)) lap0 eight = none ∧ (h0 eight).aq.length = 8 := by decide +kernel

/-- The register words and float words of the frames, all of which issue. -/
theorem test_witness_frames : (lapWords.filter registerOnly).length = 37 ∧ (lapWords.filter floatAtOnce).length = 13
    ∧ NoneDue (h0 (lapS [])) := by decide +kernel

/-- R55, R61: float operands: an offcut, a finite value, and a flag whose trap is enabled. -/
theorem test_witness_float_operands : isOffcut .f32 0x7FA80000 = true ∧ isOffcut .f64 0x7FF5000000000000 = true ∧ isOffcut .f32 0x7FC00000 = false
    ∧ flgTrapped 0xE0 0b11111 = 0b11100 ∧ flgTrapped 0x1F 0b11111 = 0 := by decide +kernel

theorem test_witness_exactly : Exactly (.num false 3 1 false) 6 ∧ Exactly (.num true 3 1 false) (-6) ∧ Exactly (.zero true) 0 := by
  norm_num [Exactly, isFinite, ratOf]

/-- R38, R45: finite codes at the ends of the types, and roundings that overflow and that do not. -/
theorem test_witness_rounding :
    isFinite (fpVal .f32 0x7F7FFFFF) = true ∧ isFinite (fpVal .bf16 0x0001) = true ∧ isFinite (fpVal .f64 0x8000000000000000) = true
    ∧ (rounded .f16 .rup (.num false 65521 0 false, 0)).2.getLsbD 2 = true ∧ (rounded .f16 .rtz (.num true 65519 0 false, 0)).2.getLsbD 2 = false
    ∧ (rounded .f32 .rdn (.num false 3 0 false, 0)).2.getLsbD 2 = false := by decide +kernel

/-- R133, R134: conversions that have a code, that have none, and of an offcut. -/
theorem test_witness_conversions :
    (convert .narrow .e2m1 .f32 .e4m3 DTab.zero .rne false 0 0x40200000).isSome = true
    ∧ convert .dt .e4m3 .f32 .e4m3 DTab.zero .rne false 0 0x40200000 = none
    ∧ encTable DTab.zero.encTab .rne false 0 (fpVal .f32 0x3F800000) = none ∧ (encTable tab348.encTab .rne false 0 (fpVal .f32 0x3F800000)).isSome = true
    ∧ (fpVal .f32 0x3F800000).isSig = false := by decide +kernel

/-! #### Places -/

theorem localPlace_of {s : State} {k c n : Nat} {ea : W64} {b p : Nat}
    (h : decide (ea.toNat / 2 ^ 15 = 2 ^ 48 ∧ p = localBase k c + ea.toNat % 2 ^ 15 ∧ ea.toNat % b = 0 ∧ s.postedAt (.lap k c n) ea = false
      ∧ s.bankFree k (localBank c p) = true ∧ ∀ w ∈ s.bad, w + 8 ≤ p ∨ p + b ≤ w) = true) : LocalPlace s k c n ea b p := by
  have h := of_decide_eq_true h
  exact ⟨h.1, h.2.1, h.2.2.1, h.2.2.2.1, h.2.2.2.2.1, h.2.2.2.2.2⟩

theorem scratchPlace_of {s : State} {k c n : Nat} {ea : W64} {b off : Nat}
    (h : decide (ea.toNat / 2 ^ 22 = 0x24000000000 ∧ off = ea.toNat % 2 ^ 22 ∧ ea.toNat % b = 0 ∧ s.postedAt (.lap k c n) ea = false
      ∧ (∀ w ∈ s.bad, w + 8 ≤ cspBase k + off ∨ cspBase k + off + b ≤ w) ∧ s.bankFree k (off / 8 % 64) = true
      ∧ (off / 8 * 8 ≠ 0x3FFF00 ∧ off / 8 * 8 ≠ 0x3FFF08)
      ∧ ∀ x ∈ (s.cluster k).tiles, x.2.state = 0 ∨ off + b ≤ x.2.base ∨ x.2.base + x.2.size ≤ off) = true) : ScratchPlace s k c n ea b off := by
  have h := of_decide_eq_true h
  exact ⟨h.1, h.2.1, h.2.2.1, h.2.2.2.1, h.2.2.2.2.1, h.2.2.2.2.2.1, h.2.2.2.2.2.2.1, h.2.2.2.2.2.2.2⟩

/-- Local memory: its first word, its last and its last byte, beside an uncorrectable word. -/
theorem test_witness_local :
    let s := { withLocal (lapS []) [(8, 0x11)] with bad := [localBase 0 0 + 8] }
    MemOk s ∧ LocalPlace s 0 0 0 (localA 0) 8 (localBase 0 0) ∧ LocalPlace s 0 0 0 (localA 0x7FF8) 8 (localBase 0 0 + 0x7FF8)
    ∧ LocalPlace s 0 0 0 (localA 0x7FFF) 1 (localBase 0 0 + 0x7FFF) ∧ LocalPlace s 0 0 0 (localA 16) 2 (localBase 0 0 + 16) := by
  refine ⟨?_, localPlace_of ?_, localPlace_of ?_, localPlace_of ?_, localPlace_of ?_⟩
  · show memWf _ = true; decide +kernel
  all_goals decide +kernel

/-- A live tile buffer at offset 0 of 1,024 bytes. -/
def tile0 : Tile := { Tile.zero with base := 0, state := 1, gen := 1, ty := .narrow, xrows := 64, vmask := 0 }

/-- The scratchpad: past a live buffer and before the kick words. -/
theorem test_witness_scratch :
    let s := (withCsp (lapS []) [(0x2000, 7)]).setCluster 0 { Cluster.zero with tiles := [(0, tile0)] }
    MemOk s ∧ ScratchPlace s 0 0 0 (cspA 0x2000) 8 0x2000 ∧ ScratchPlace s 0 0 0 (cspA 0x3FFEF8) 8 0x3FFEF8 ∧ ScratchPlace s 0 0 0 (cspA 0x3FFFFC) 4 0x3FFFFC := by
  refine ⟨?_, scratchPlace_of ?_, scratchPlace_of ?_, scratchPlace_of ?_⟩
  · show memWf _ = true; decide +kernel
  all_goals decide +kernel

/-- R245: takes and gives on full and empty words issue. -/
theorem test_witness_full_empty :
    let s := (lapS [(1, cspA 64)]).setFull (cspBase 0 + 64)
    s.isFull ((cspBase 0 + 64) / 8 * 8) = true ∧ s.isFull ((cspBase 0 + 72) / 8 * 8) = false
    ∧ ([.ld .always .take .b64 false (.s 0) (.s 1) (.imm 0), .ld .always .peek .n8 false (.s 0) (.s 1) (.imm 8), .ld .always .plain .f16 false (.s 0) (.s 1) (.imm 8),
        .st .always .plain .f32 false (.s 0) (.s 1) (.imm 8), .st .always .give .b64 false (.s 0) (.s 1) (.imm 8), .ld .always .plain .i4 true (.s 0) (.s 1) (.imm 8),
        .st .always .plain .i4 false (.s 0) (.s 1) (.imm 8), .amo .always .relaxed .swap .i32 (.s 0) (.s 1) (.reg (.s 2)),
        .cas .always .relaxed .n64 (.s 0) (.s 1) (.s 2)].all fun i => issuesNow i s) = true
    ∧ (h0 s).relDone = true ∧ NoneDue (h0 s) ∧ (h0 s).rot = .ready := by decide +kernel

/-- R227, R228, R231, R244: addresses that fault. -/
theorem test_witness_bad_addresses :
    let top (x : W64) : Nat := (x.extractLsb' 60 4).toNat
    (top 0x1000000000000000 = 1 ∧ top 0xF000000000000000 = 15) ∧ (top 0x0100000000000000 = 0 ∧ (0x0100000000000000 : W64).extractLsb' 56 4 ≠ 0#4)
    ∧ (top 0x8000000000008000 = 8 ∧ (0x8000000000008000 : W64).extractLsb' 15 45 ≠ 0#45)
    ∧ (top 0x9000000000400000 = 9 ∧ (0x9000000000400000 : W64).extractLsb' 22 38 ≠ 0#38)
    ∧ (top 0xA000008000000000 = 10 ∧ (0xA000008000000000 : W64).extractLsb' 39 21 ≠ 0#21)
    ∧ ((localA 4).toNat / 2 ^ 15 = 2 ^ 48 ∧ (localA 4).toNat % 8 ≠ 0)
    ∧ (top 0xB000000800000008 = 11 ∧ mmioOk 0xB000000800000008 = true ∧ (userS 0 []).level lap0 = 0) := by decide +kernel

/-! #### A launch that runs, and requests -/

def img0 : Image :=
  { reloc := false, rinks := 1, lapOff := 64, lapSize := 64, bunOff := 0, bunSize := 0, engOff := 128, engSize := 64, datOff := 0, datSize := 0,
    hasHandler := false, handler := 0, deleg := 0, map := [[1, 0, 2, 3, 0, 0, 128, 0, 8, 0, 0, 0, 0, 0, 0, 0]] }

def launch0 : Launch :=
  { count := 1, die := 0, queue := 0, prio := 0, pasid := 7, pkt := List.replicate 8 0, img := img0, rinks := [0], saved := none, kept := [], reCmds := [],
    restores := 0, faultEnd := none, stopping := false, badRinks := [], vec := 0 }

/-- A state whose cluster 0 runs a launch of PASID 7. -/
def running (s : State) : State := { s with launches := [launch0] }.setCluster 0 { s.cluster 0 with launch := some 1 }

def req0 (op : AccOp) (ph : Phase) (a : W64) : Req :=
  { who := lap0, pasid := some 7, level := 0, addr := a, op := op, phase := ph, due := 0, posted := false, dpa := a.toNat, kid := 0, dest := 0 }

def withReq (s : State) (r : Req) : State := { s with reqs := [(3, r)], fresh := 9 }

def pend0 : Pend := { insn := 0, next := 0x2000, dst := some (.s 0), acq := none, act := .plain, due := none, ans := none, long := false }

/-- A thread out of the rotation. -/
def waiting (p : Pend) : State := hartState lap0 { hart1 [] with rot := .out, pend := some p }

/-- R247, R248, R252: global accesses of a launch, a posted store, a range, and a prefetch outside global space. -/
theorem test_witness_sends :
    let s := running (lapS [(1, 0xFFFFFFFFFFFFF8), (2, 0x0000000800000008), (3, localA 0x7FF8)])
    let ea : W64 := 0xFFFFFFFFFFFFF8
    (ea.toNat < 2 ^ 56 ∧ ea.toNat % alignOf .b64 = 0 ∧ s.postedAt lap0 ea = false ∧ (s.cluster 0).cch = [] ∧ s.entPasid lap0 ≠ none)
    ∧ s.postedCount lap0 < 8 ∧ ((localA 0x7FF8).toNat / 2 ^ 15 = 2 ^ 48 ∧ (localA 0x7FF8).toNat % alignOf .b64 = 0)
    ∧ (match stsSource s lap0 (localA 0) .i64 9 with | .ok l => l.length | _ => 0) = 9
    ∧ (((0x0000000800000008 : W64).extractLsb' 0 32).signExtend 64).toInt % alignOf .i64 = 0
    ∧ ([.ld .always .plain .b64 false (.s 0) (.s 1) (.imm 0), .ldt .always .f32 (.s 0) (.s 1) (.s 2) (.imm 0), .st .always .plain .b64 false (.s 0) (.s 1) (.imm 0),
        .st .always .relaxed .b64 false (.s 0) (.s 3) (.imm 0), .sts .always .relaxed .i64 (.s 3) (.s 1) (.s 2), .ld .always .relaxed .b64 false .aq (.s 3) (.imm 0),
        .pref .always (.s 1) (.imm 0), .pref .always (.s 3) (.imm 0), .sidx .always .f32 (.s 0) (.s 1) (.z) 0].all fun i => issuesNow i s) = true := by decide +kernel

/-- R252: a source range that ends with the local memory. -/
theorem test_witness_range : (localA 0x7F00).toNat % 8 = 0 ∧ (localA 0x7F00).toNat / 2 ^ 15 = 2 ^ 48 ∧ (localA 0x7F00).toNat % 2 ^ 15 + 32 * 8 ≤ 2 ^ 15
    ∧ (lapS []).bad = [] := by decide +kernel

/-- R107, R109: a value and a fault that are due, of a long operation and of an access. -/
theorem test_witness_landings :
    let a := waiting { pend0 with ans := some (.ok 5), due := some 0 }
    let b := waiting { pend0 with ans := some (.err 0x0E 0), due := some 0, long := true, act := .flags 1 }
    (∃ p, (h0 a).pend = some p ∧ p.ans = some (.ok 5) ∧ (∀ d, p.due = some d → d ≤ a.clk) ∧ p.acq = none ∧ p.dst = some (.s 0) ∧ p.act = .plain
      ∧ pushBlocked a lap0 (.s 0) = none)
    ∧ ∃ p, (h0 b).pend = some p ∧ p.ans = some (.err 0x0E 0) ∧ (∀ d, p.due = some d → d ≤ b.clk) ∧ p.acq = none ∧ p.long = true ∧ p.act = .flags 1 :=
  ⟨⟨_, rfl, rfl, by simp [pend0], rfl, rfl, rfl, rfl⟩, ⟨_, rfl, rfl, by simp, rfl, rfl, rfl⟩⟩

/-- R216, R241, R245: a gather that may land, one at uncorrectable data, and a fault at the head of dq. -/
theorem test_witness_gathers :
    let g : Gath := { addr := localA 8, ty := .b64, hi := false, no := 0 }
    let s := hartState lap0 { hart1 [] with aq := [(g, 0)], dq := [.word 1] }
    let t := { hartState lap0 { hart1 [] with aq := [(g, 0)] } with bad := [localBase 0 0 + 8] }
    let u := hartState lap0 { hart1 [] with dq := [.fault 0x13 g] }
    ((h0 s).aq = [(g, 0)] ∧ 0 ≤ s.clk ∧ (h0 s).dq.length < 8 ∧ LocalPlace s 0 0 0 g.addr 8 (localBase 0 0 + 8))
    ∧ ((h0 t).aq = [(g, 0)] ∧ (h0 t).dq = [] ∧ t.postedAt lap0 g.addr = false ∧ (localBase 0 0 + g.addr.toNat % 2 ^ 15) ∈ t.bad)
    ∧ lapCheck (.mov .always (.s 0) (.reg .dq)) lap0 u = none ∧ (h0 u).dq = [.fault 0x13 g] :=
  ⟨⟨by decide +kernel, by decide +kernel, by decide +kernel, localPlace_of (by decide +kernel)⟩, by decide +kernel, by decide +kernel, by decide +kernel⟩

/-- R278, R290: fences with nothing outstanding and with a gather outstanding, releases in both stages. -/
theorem test_witness_fences :
    let g : Gath := { addr := 0, ty := .b64, hi := false, no := 0 }
    let s := lapS []
    let r (x : Option Nat) := hartState lap0 { hart1 [] with rot := .out, rel := some { scope := .die, target := x } }
    (NoneDue (h0 s) ∧ (h0 s).aq = [] ∧ ∀ q ∈ s.reqs, q.2.who ≠ lap0)
    ∧ (h0 (hartState lap0 { hart1 [] with relDone := false, aq := [(g, 0)] })).relDone = false
    ∧ ((h0 (r none)).rel = some { scope := .die, target := none } ∧ (h0 (r none)).rot = .out ∧ (h0 (r none)).aq = [])
    ∧ (h0 (r (some 5))).rel = some { scope := .die, target := some 5 } ∧ issuesNow (.fence .always .core true true) s = true
    ∧ issuesNow (.fence .always .system false true) s = true ∧ issuesNow (.drain .always .die (some (.s 1))) (lapS [(1, 64)]) = true := by decide +kernel

theorem test_witness_drain :
    let s := waiting { pend0 with dst := none, act := .drainFence }
    ∃ p, (h0 s).pend = some p ∧ p.act = .drainFence ∧ p.long = false ∧ p.due = none ∧ p.dst = none ∧ p.acq = none ∧ ∀ q ∈ s.reqs, q.2.who ≠ lap0 :=
  ⟨_, rfl, rfl, rfl, rfl, rfl, rfl, by intro q hq; cases hq⟩

/-! #### Posted stores, fabric accesses, messages -/

/-- R245, R282: a posted store that is due, at a place it may take and at one that refuses it. -/
theorem test_witness_posted :
    let r (a : W64) : Req := { req0 (.store .i16 false 0x1234) .posted a with posted := true }
    let s := withReq (lapS []) (r (localA 0x7FFE))
    let t := withReq (lapS []) (r (localA 0x7FFF))
    (MemOk s ∧ mfind s.reqs 3 = some (r (localA 0x7FFE)) ∧ (∀ q ∈ s.reqs, q.1 ≠ 3 → q.2.who ≠ lap0) ∧ (h0 s).aq = [] ∧ s.bad = [])
    ∧ (localA 0x7FFE).toNat / 2 ^ 15 = 2 ^ 48 ∧ (localA 0x7FFE).toNat % (tyW .i16 / 8) = 0
    ∧ mfind t.reqs 3 = some (r (localA 0x7FFF)) ∧ (localA 0x7FFF).toNat % (tyW .i16 / 8) ≠ 0 := by
  refine ⟨⟨?_, rfl, by decide +kernel, rfl, rfl⟩, by decide +kernel, by decide +kernel, rfl, by decide +kernel⟩
  show memWf _ = true; decide +kernel

/-- R229, R230: fabric traffic of the running launch, of another, and one told to retry; its last address before the kick words. -/
theorem test_witness_fabric :
    let a : W64 := 0xA0000000003FFEF8
    let s (p : Nat) (ph : Phase) := withReq (running (waiting pend0)) { req0 (.load .b64 false) ph a with pasid := some p }
    let r := { req0 (.load .b64 false) .fabric a with pasid := some 7 }
    (mfind (s 7 .fabric).reqs 3 = some r ∧ (h0 (s 7 .fabric)).pend = some pend0 ∧ (∀ q ∈ (s 7 .fabric).reqs, q.1 ≠ 3 → q.2.who ≠ lap0)
      ∧ ((s 7 .fabric).cluster 0).launch.bind ((s 7 .fabric).launch 0) = some launch0 ∧ (∀ x ∈ (s 7 .fabric).launches, x.saved = none)
      ∧ (s 7 .fabric).bad = [] ∧ ((s 7 .fabric).cluster 0).tiles = [] ∧ a.toNat % 2 ^ 22 < 0x3FFF00)
    ∧ ((mfind (s 8 .fabric).reqs 3).bind (·.pasid) = some 8 ∧ some 8 ≠ some launch0.pasid)
    ∧ (mfind (s 7 .retry).reqs 3).map (·.phase) = some .retry ∧ a.toNat / 2 ^ 60 = 10 ∧ a.toNat % 2 ^ 60 < 2 ^ 39 := by decide +kernel

/-- R320 to R322: a message to an inbox with room and to a full one, and a reply. -/
theorem test_witness_messages :
    let m : InMsg := { words := [1], head := false, scope := .cluster }
    let box (n : Nat) := (running (waiting pend0)).setCore 0 31 { LapCore.zero with inbox := List.replicate n m }
    let r : Req := { req0 (.msg [1, 2] none) .message 0 with dest := 31 }
    let s := withReq (box 31) r
    let back := withReq (running (hartState lap0 { hart1 [] with rot := .out, slot := some 5, pend := some { pend0 with act := .replySlot 0 } }))
      { req0 (.reply 5 42) .replying 0 with dest := 0 }
    (mfind s.reqs 3 = some r ∧ (h0 s).pend = some pend0 ∧ (s.core r.kid (r.dest.toNat % 32)).inbox.length < 32 ∧ r.pasid = some launch0.pasid
      ∧ (s.cluster r.kid).launch.bind (s.launch (r.kid / 128)) = some launch0)
    ∧ 32 ≤ ((withReq (box 32) r).core r.kid (r.dest.toNat % 32)).inbox.length
    ∧ (headerEnt 0 = lap0 ∧ (h0 back).slot = some 5 ∧ (h0 back).pend = some { pend0 with act := .replySlot 0 }) := by decide +kernel

/-- R320: SEND, CALLR and REPLY whose words go, and operands that fault. -/
theorem test_witness_message_words :
    let s := running (lapS [(1, 0x3FFF), (2, cspA 8), (3, 0x40000000)])
    ((h0 s).relDone = true ∧ (h0 s).pwf = none ∧ NoneDue (h0 s) ∧ (0x3FFF : W64).toNat / 2 ^ 14 = s.node ∧ s.node < 256
      ∧ (cspA 8).toNat % 8 = 0 ∧ (0x40000000 : W64).getLsbD 30 = true ∧ (0x40000000 : W64).toNat / 2 ^ 19 % 256 = s.node)
    ∧ (match s.plainWords lap0 (cspA 8) 8 with | .ok ws u => decide (ws = List.replicate 8 0 ∧ u = s) | _ => false) = true
    ∧ 2 ^ 22 ≤ (0x400000 : W64).toNat ∧ (cspA 4).toNat % 8 ≠ 0 := by decide +kernel

/-! #### Tiles -/

/-- R256, R272: the largest footprint that ends at the kick words. -/
theorem test_witness_topen :
    let desc : W64 := 0x0000000000002040
    let s := lapS [(1, cspA 0), (2, desc)]
    MemOk s ∧ issuesNow (.topen .always .f32 .e4m3 false (.s 0) (.s 1) (.s 2)) s = true ∧ (cspA 0).toNat / 2 ^ 22 = 0x24000000000
    ∧ 0 + (512 + 64 * rowBytes .f32 .e4m3 false) ≤ 0x3FFF00 ∧ desc.toNat < 2 ^ 40 ∧ desc.toNat % 2 ^ 7 ≤ 64 ∧ desc.toNat / 2 ^ 7 % 2 ^ 10 ≤ 512
    ∧ desc.toNat / 2 ^ 7 % 2 ^ 10 ≤ rowBytes .f32 .e4m3 false ∧ (s.cluster 0).tiles = [] ∧ (s.tile 0 0).state = 0 := by
  refine ⟨?_, ?_⟩
  · show memWf _ = true; decide +kernel
  · decide +kernel

/-- An open buffer of index 5 that expects its rows, its seal timer due, and one that is not open. -/
def openS (h : W64) : State :=
  (lapS [(1, h), (2, 1)]).setCluster 0 { Cluster.zero with tiles := [(5, { tile0 with expn := 10000, timer := 1, gen := 255 }), (6, { tile0 with state := 4 })] }

/-- R257, R273 to R276. -/
theorem test_witness_tile_words :
    let s := openS 0xFF05
    ((s.tile 0 5).state = 1 ∧ (s.tile 0 5).gen = (0xFF05 : Nat) / 256 % 256 ∧ s.bankFree 0 0 = true)
    ∧ ((s.tile 0 6).state = 4 ∧ (s.tile 0 6).gen = (0x0106 : Nat) / 256 % 256)
    ∧ (s.tile 0 7).state = 0 ∧ (s.tile 0 5).arrn + 2 * (s.tile 0 5).rb * ones (1#64 &&& ~~~(s.tile 0 5).vmask) < (s.tile 0 5).expn := by decide +kernel

/-- R263, R264, R274: what seals a buffer: a word, a context's SEAL, the timer. -/
theorem test_witness_sealing :
    let s := { openS 0xFF05 with pt := 1 }
    let u := s.setCtx 0 1 3 { Ctx.zero with seals := [(0xFF05, 0)] }
    ((s.tile 0 5).state = 1 ∧ (s.ctx 0 0 0).handles.length < 16 ∧ (s.cluster 0).posts = [] ∧ (s.tile 0 5).due ≤ s.pt ∧ 0 < (s.tile 0 5).timer)
    ∧ issuesNow (.seal .always (.s 1)) s = true ∧ (u.ctx 0 1 3).seals = [(BitVec.ofNat 16 ((u.tile 0 5).gen * 256 + 5), 0)]
    ∧ (1, 3) ≠ ((u.tile 0 5).dest / 4, (u.tile 0 5).dest % 4) ∧ (s.tile 0 6).state ≠ 1 := by decide +kernel

/-! #### Sleds, jobs, tokens and tables -/

/-- R324, R325: a full sled, an empty one, and one with a record on top. -/
theorem test_witness_sled :
    let s (n : Nat) := (lapS []).setCore 0 0 { LapCore.zero with sled := List.replicate n (1, 2) }
    64 ≤ ((s 64).core 0 0).sled.length ∧ ((s 63).core 0 0).sled.length < 64 ∧ ((s 0).core 0 0).sled = [] ∧ ((s 2).core 0 0).sled = [(1, 2)] ++ [(1, 2)] := by
  decide +kernel

/-- R327: a job queue with room, a full one, a misaligned entry, and the reply of a job. -/
theorem test_witness_job :
    let s (n : Nat) := (lapS [(1, 64)]).setCc 0 1 { CcState.zero with jobs := List.replicate n { entry := 0, arg := 0, tag := 0 } }
    let p := { pend0 with act := .job, ans := some (.ok 1) }
    ((s 3).cc 0 1).jobs.length < 4 ∧ 4 ≤ ((s 4).cc 0 1).jobs.length ∧ (65 : W64).toNat % 64 ≠ 0 ∧ (h0 (s 4)).rot = .ready
    ∧ (h0 (waiting p)).pend = some p ∧ p.dst = some (.s 0) ∧ p.acq = none := by decide +kernel

/-- R353, R354: a buffer with the key, one with a place, and a full one without the key. -/
theorem test_witness_tokens :
    let y : TokEnt := { v := true, blk := 1, seq := 1, addr := 0 }
    let full : LapCore := { LapCore.zero with toks := Vector.replicate 64 y, victim := 63 }
    (∃ i : Fin 64, full.toks[i].v = true ∧ full.toks[i].seq = 1 ∧ full.toks[i].blk = 1) ∧ full.victim < 64
    ∧ (∀ i : Fin 64, ¬((full.toks[i].v = true ∧ full.toks[i].seq = 2) ∧ full.toks[i].blk = 1) ∧ full.toks[i].v = true)
    ∧ ∃ i : Fin 64, LapCore.zero.toks[i].v = false := by decide +kernel

/-- R346: a well-formed image of a 4-bit table at the start of the local memory, and one that is not. -/
theorem test_witness_image :
    let s := withLocal (lapS [(1, localA 0)]) [(0, 4), (8, 0x000000003F000000)]
    let t := (List.range 8).foldl (fun (s : State) j => s.wr64 (localBase 0 0 + 16 + 8 * j) 0x0018000000180000) s
    let w (s : State) (j : Nat) : W32 := BitVec.ofNat 32 (memRead s.mem (localBase 0 0 + 4 * j) 4)
    ((w t 0).toNat = 4 ∧ w t 1 = 0 ∧ w t 3 = 0 ∧ 0 < (w t 2).toNat ∧ (w t 2).toNat < 0x7F800000
      ∧ ∀ j < 16, (w t (4 + j)).toNat / 2 ^ 21 = 0 ∧ (w t (4 + j)).toNat / 2 ^ 19 % 4 ≠ 0 ∧ (w t (4 + j)).toNat % 2 ^ 18 = 0)
    ∧ (w s 4).toNat / 2 ^ 19 % 4 = 0 ∧ (w s 4).toNat % 2 ^ 18 = 0
    ∧ LocalPlace t 0 0 0 (localA 0 + BitVec.ofNat 64 (4 * 259)) 4 (localBase 0 0 + 4 * 259) := by
  refine ⟨?_, ?_, ?_, localPlace_of ?_⟩ <;> decide +kernel

/-- R347: the table of the own core and that of a control core whose step runs. -/
theorem test_witness_table_landing :
    let p (t : TabId) := { pend0 with dst := none, act := .table t DTab.zero }
    let st : AStep := { acc := 0, x := 0, a := 0, b := none, left := 1 }
    let s := (waiting (p (.cc 0 1))).setCc 0 1 { CcState.zero with run := some st }
    ((h0 (waiting (p (.core 0 0)))).pend = some (p (.core 0 0)) ∧ (p (.core 0 0)).acq = none ∧ (p (.core 0 0)).due = none)
    ∧ ((s.cc 0 1).run.isSome = true ∧ (h0 s).pend = some (p (.cc 0 1))) ∧ (tab348.width ≤ 8 ∧ tab348.entries.length = 256) := by decide +kernel

/-- R351: a well-formed record, cached and not, one that is not, and a tile in the last group. -/
theorem test_witness_groups :
    let s := grpS 2
    let c := s.setCluster 0 { s.cluster 0 with shapes := [(cspA 0x40, [0x1502, cspA 0x200, 3, 0, 0, 0, 8])] }
    (issuesNow (.grpfind dab) s = true ∧ (cspA 0x40).toNat / 2 ^ 22 = 0x24000000000 ∧ 0x40 % 64 = 0 ∧ 0x40 + 192 ≤ 2 ^ 22
      ∧ ∀ j < 24, j ∉ [0, 1, 2, 6] → memRead s.mem (cspBase 0 + 0x40 + 8 * j) 8 = 0)
    ∧ (∀ i < 3, memRead s.mem (cspBase 0 + 0x200 + 8 * i) 8 / 2 ^ 32 ≤ memRead s.mem (cspBase 0 + 0x200 + 8 * (i + 1)) 8 / 2 ^ 32)
    ∧ memRead s.mem (cspBase 0 + 0x200) 8 / 2 ^ 32 = 0 ∧ (issuesNow (.grpfind dab) c = true ∧ ((c.cluster 0).shapes.find? fun x => x.1 = cspA 0x40).isSome = true)
    ∧ memRead (lapS []).mem (cspBase 0 + 0x40) 8 ≠ 0x1502 := by decide +kernel

/-! #### Counters, pegs, allocators and die tables -/

/-- R369 to R371: a counter bound to a waiting thread at 1, one at 0, and one bound to another. -/
theorem test_witness_triggers :
    let t : Trig := { count := 1, slot := 5, bound := true, under := false, acq := none }
    let s := (lapS [(2, 0)]).setCore 0 0 { LapCore.zero with trig := LapCore.zero.trig.set 15 t }
    let u := s.setHart (.lap 0 0 5) { Hart.zero with rot := .parked, wait := .trigger 15 }
    ((u.core 0 0).trigAt 15 = t ∧ (u.hart (.lap 0 0 5)).rot = .parked ∧ (u.hart (.lap 0 0 5)).wait = .trigger 15 ∧ Ent.lap 0 0 5 ≠ lap0)
    ∧ t.bound = true ∧ t.slot ≠ 0 ∧ t.count < 2 ^ 32 ∧ ((s.core 0 0).trigAt 0).count = 0 ∧ ((s.core 0 0).trigAt 0).bound = false
    ∧ 2 ^ 32 ≤ (0x100000000 : W64).toNat ∧ (0xFFFFFFFF : W64).toNat < 2 ^ 32 := by decide +kernel

/-- R373, R374: pegs of each case. -/
theorem test_witness_pegs :
    let m : W64 := 0xFF00000040000003
    let cnt := (m.extractLsb' 0 28).toNat
    let tgt := m.extractLsb' 28 28
    let gen := m.extractLsb' 56 8
    let s := running (lapS [(1, 8), (2, 3)])
    (cnt + 1 = tgt.toNat ∧ tgt.toNat < cnt + 2 ∧ (0xFF00000050000003 : W64).extractLsb' 28 28 = 5#28 ∧ cnt + 1 < 5)
    ∧ (gen - (0xFF : W64).extractLsb' 0 8).toNat < 128 ∧ 128 ≤ (gen - (0 : W64).extractLsb' 0 8).toNat
    ∧ ((h0 s).relDone = true ∧ (h0 s).pwf = none ∧ s.postedAt lap0 8 = false ∧ s.entPasid lap0 ≠ none)
    ∧ 2 ^ 28 ≤ (0x10000000 : W64).toNat ∧ 2 ^ 8 ≤ (0x100 : W64).toNat ∧ (0xFF : W64).toNat < 2 ^ 8 := by decide +kernel

theorem test_witness_peg_place : ScratchPlace (lapS []) 0 0 0 (cspA 64) 8 64 := scratchPlace_of (by decide +kernel)

/-- R376: the last bank, to the last block before the kick words. -/
theorem test_witness_snapshot :
    let s := lapS [(1, cspA 0x3FFE00), (2, 7)]
    issuesNow (.rcsnap .always (.s 1) (.reg (.s 2))) s = true ∧ (cspA 0x3FFE00).toNat / 2 ^ 22 = 0x24000000000 ∧ (cspA 0x3FFE00).toNat % 8 = 0
    ∧ (7 : W64).toNat ≤ 7 ∧ (8 : W64).toNat > 7 ∧ (cspA 0x3FFE00).toNat % 2 ^ 22 + 256 ≤ 0x3FFF00 ∧ (s.cluster 0).tiles = [] ∧ s.bad = [] := by decide +kernel

/-- R378, R379: allocators: a legal word and one that is not, a chunk with room, one without, and headers good and bad. -/
theorem test_witness_bump :
    let f (v : W64) (p m : Nat) : Nat := v.toNat / 2 ^ p % 2 ^ m
    let A : W64 := 0x8000000000000000 ||| (3 <<< 46) ||| (0x400000 <<< 23) ||| 0x400000
    (A.getLsbD 63 = true ∧ f A 49 14 = 0 ∧ f A 46 3 ≠ 7 ∧ f A 0 23 ≤ f A 23 23 ∧ f A 23 23 ≤ 0x400000)
    ∧ ((A ||| (7 <<< 46)).getLsbD 63 = true ∧ f (A ||| (7 <<< 46)) 46 3 = 7)
    ∧ (let s := bumpS 0x10080 0x10100 0x20000 200
       let w := (s.cluster 0).bumps[1]
       w.1.getLsbD 63 = true ∧ f w.1 23 23 < f w.1 0 23 + 256 ∧ f w.2 0 22 % 8 = 0 ∧ memRead s.mem (cspBase 0 + 0x20000) 8 % 2 ^ 22 = 0x1000
       ∧ 0x20040 + 256 ≤ 0x20000 + 0x1000 ∧ memRead s.mem (cspBase 0 + 0x30000) 8 < 8)
    ∧ (2097152 : W64).toNat ≤ 2 ^ 21 ∧ 2 ^ 21 < (2097153 : W64).toNat := by decide +kernel

/-- R357, R358: entries of every state, an image that is admitted and one that is not, indices at the end of the table. -/
theorem test_witness_sequences :
    let s := withLocal ((lapS [(1, 4095), (2, localA 0)]).setDie 0 { Die.zero with seqs := (List.range 7).map fun i => (i, seqE i 0 0 i (i % 2) 0 0) })
      [(8, 0x100000000)]
    let img (a : Nat) := memRead s.mem (localBase 0 0 + a + 8) 8
    ((s.seqAt 0 4095).headD 0 = 0 ∧ 2 ^ 32 ≤ img 0 ∧ img 64 < 2 ^ 32 ∧ (s.seqAt 0 6).headD 0 = 6 ∧ (s.seqAt 0 1).headD 0 = 1)
    ∧ (4096 : W64).toNat > 4095 ∧ (4095 : W64).toNat ≤ 4095 ∧ LocalPlace s 0 0 0 (localA 24) 8 (localBase 0 0 + 24) := by
  refine ⟨by decide +kernel, by decide +kernel, by decide +kernel, localPlace_of (by decide +kernel)⟩

/-- R359: a build whose largest record ends with the local memory. -/
theorem test_witness_build :
    let s := (buildS).setHart lap0 { h0 buildS with s := (h0 buildS).s.set 1 (localA (0x8000 - 8 - 48)) }
    issuesNow (.sqbuild .always (.s 0) (.s 1) (.s 2) .z) s = true ∧ ((s.die 0).seqs.map (·.1)).Nodup
    ∧ (localA (0x8000 - 56)).toNat % 2 ^ 15 + 8 + 16 * 3 ≤ 2 ^ 15 ∧ (localA (0x8000 - 56)).toNat % 8 = 0 ∧ s.bad = [] := by decide +kernel

/-- R360, R365: legal and malformed entries. -/
theorem test_witness_entries :
    let f (v : W64) (p m : Nat) : Nat := v.toNat / 2 ^ p % 2 ^ m
    (f 0x800000000000001F 0 5 + f 0x800000000000001F 22 5 ≤ 31 ∧ (0x800000000000001F : W64).getLsbD 63 = true)
    ∧ 31 < f 0x800000000040001F 0 5 + f 0x800000000040001F 22 5 ∧ (255 : W64).toNat ≤ 255 ∧ 255 < (256 : W64).toNat
    ∧ (f 0x0000001000000000 60 4 = 0 ∧ f 0x0000001000000000 36 20 = 1 ∧ 0 < (0x3F800000 : W64).toNat ∧ (0x3F800000 : W64).toNat < 0x7F800000)
    ∧ f 0x0300000000000000 56 2 = 3 ∧ (63 : W64).toNat ≤ 63 ∧ 63 < (64 : W64).toNat := by decide +kernel

theorem test_witness_region :
    let p := { pend0 with dst := none, act := .region 1 5 0x1000000000 0x3F800000 }
    ((h0 (waiting p)).pend = some p ∧ p.acq = none ∧ p.due = none ∧ ((waiting p).die 1).allows = [])
    ∧ ∃ m, ({ p with due := some 5 } : Pend).due = some m ∧ (waiting p).clk < m := by
  refine ⟨by decide +kernel, 5, rfl, by decide +kernel⟩

/-! #### Engines, launches and host queues -/

/-- A copy engine about to issue: D at element n, its addresses and strides in C. -/
def ceS (n : W64) (da sa c : W64) (p : Option Nat) : State :=
  let s := hartState (.ce 511) (hart1 [(0, n), (1, da), (2, sa), (3, c)])
  s.setEngine (.ce 511) { Engine.zero with run := .cmd 0 0 511, progress := p }

/-- R338 to R340: an earlier element, the last one below the kick words, a source in no space, and a packed side whose stride is not 1. -/
theorem test_witness_engine_copies :
    let c : W64 := 1 ||| (1 <<< 22) ||| (0x1FFFFF <<< 43)
    let i := Instr.xcopy .always .b64 (.s 0) (.s 1) (.s 2) (.s 3)
    let j := Instr.xconv .always .bf16 .e4m3 .f32 .e4m3 .rne false (.s 0) (.s 1) (.s 2) (.s 3)
    let s := ceS 0 (cspA 0x3FFEF8) (cspA 0) c none
    let t := ceS 0 (cspA 0x3FFEF8) (cspA 0x3FFEF0) c (some 1)
    (MemOk s ∧ s.bad = [] ∧ (s.cluster 511).tiles = [] ∧ issuesNow i s = true ∧ issuesNow j s = true ∧ s.actor = .ce 511)
    ∧ (c.toNat % 2 ^ 22 + 1 = 2 ∧ (s.engine (.ce 511)).progress = none ∧ (cspA 0x3FFEF8).toNat % 2 ^ 22 < 0x3FFF00 ∧ (cspA 0x3FFEF8).toNat % 8 = 0)
    ∧ (issuesNow i t = true ∧ (t.engine (.ce 511)).progress = some 1 ∧ (cspA 0x3FFEF0 + 8).toNat % 2 ^ 22 < 0x3FFF00
      ∧ ((c.extractLsb' 43 21).signExtend 64 : W64) = -1 ∧ (cspA 0x3FFEF8 - 8).toNat / 2 ^ 22 = 0x24000000000)
    ∧ ((0xF000000000000000 : W64).extractLsb' 60 4).toNat = 15
    ∧ (tyBits .narrow .e2m1 8 = 4 ∧ tyBits .narrow .e3m2 8 = 6 ∧ tyBits .bf16 .e4m3 8 = 16)
    ∧ isOffcut .f32 0x3F800000 = false ∧ (convert .bf16 .e4m3 .f32 .e4m3 DTab.zero .rne false 0 0x3F800001).isSome = true := by
  refine ⟨⟨?_, ?_⟩, ?_⟩
  · show memWf _ = true; decide +kernel
  all_goals decide +kernel

/-- A kind-3 record of two tokens, in the records of the routing engine of die 3. -/
def passRec : List W64 := [0x2A03, 0x100000, 2, 4, 0, 0, 16, 4, 0, 0, 0, 0x200000, 0x300000, 0x22] ++ List.replicate 10 0

def leaf0 (a : Nat) : Leaf := { absent := false, dpa := a, host := false, rd := true, wr := true, ex := true, usr := true }

/-- Its run is of a launch of PASID 7, whose pages at 1, 2 and 3 MiB are mapped to the same addresses. -/
def passS (n : W64) (r : List W64) : State :=
  let s := { (hartState (.re 3) (hart1 [(0, n), (1, 0x40)])) with launches := [{ launch0 with die := 3 }] }
  let s := [0x100000, 0x200000, 0x300000].foldl (fun (s : State) a => s.putLeaf 3 7 a (leaf0 a)) s
  (s.setEngine (.re 3) { Engine.zero with run := .cmd 0 0 384, launch := some (3, 1) }).setShapes (.re 3) [(0x40, r)]

theorem test_witness_routing_pass :
    let found (s : State) := (s.shapesOf (.re 3)).find? fun x => x.1 = 0x40
    (∃ p, parsePass passRec = some p ∧ p.n = 2 ∧ p.k = 2) ∧ parsePass (passRec.set 3 0) = none ∧ (0x40 : W64).toNat % 64 = 0
    ∧ found (passS 1 passRec) = some (0x40, passRec) ∧ found (passS 2 (passRec.set 3 0)) = some (0x40, passRec.set 3 0)
    ∧ ([0, 1, 2].all fun n => issuesNow (.route .always (.s 0) (.s 1)) (passS n passRec)) = true
    ∧ ∀ x ∈ [0x3F800000, 0x7FC00000, 0x80000000], x < 2 ^ 32 := by
  refine ⟨⟨_, rfl, by decide +kernel, by decide +kernel⟩, ?_⟩
  decide +kernel

theorem test_witness_routes : ∀ n ∈ [0, 1], (match (passS (BitVec.ofNat 64 n) passRec), parsePass passRec with
    | s, some p => (match routeToken s (.re 3) p n with | .ok _ _ => true | _ => false)
    | _, none => false) = true := by decide +kernel

/-- A queue with these fields, whose ring stands at address 0x100000. -/
def queueOf (st lsz : Nat) (hd tl : W32) : HQueue :=
  { HQueue.zero with base := 0x100000, state := st, head := hd, tail := tl, cfg := BitVec.ofNat 64 lsz }

/-- R306, R311, R316, R317: a queue that is not active, a full ring, one with room, and the last queue number. -/
theorem test_witness_host_queues :
    let s (st : Nat) (h t : W32) := (lapS [(1, cspA 64), (2, 4095)]).setHq 4095 (queueOf st 4 h t)
    let full := s 1 0xFFFFFFF8 8
    let some_ := s 1 0xFFFFFFF8 7
    ((h0 full).relDone = true ∧ issuesNow (.launch .always (.s 0) (.s 1) (.s 2)) full = true ∧ (cspA 64).toNat / 2 ^ 22 = 0x24000000000
      ∧ (cspA 64).toNat % 64 = 0 ∧ (cspA 32).toNat % 64 ≠ 0 ∧ ((s 0 0 0).hq 4095).state ≠ 1)
    ∧ ((full.hq 4095).lsz = 4 ∧ (full.hq 4095).pending = 16 ∧ (some_.hq 4095).pending = 15 ∧ (4095 : W64).toNat < 2 ^ 12 ∧ 2 ^ 12 ≤ (4096 : W64).toNat)
    ∧ (hartState (.hart 0) (hart1 [])).nextPacket 0 = none ∧ ((hartState (.hart 0) (hart1 [])).hart (.hart 0)).rot = .ready := by decide +kernel

/-- A die with one active queue whose ring, mapped by a leaf to the same address, holds this packet; the home's slice has its line. -/
def ringS (p : List W64) : State :=
  let q := { queueOf 1 4 0 1 with cfg := 0xE04 }
  let s := { (hartState (.hart 0) (hart1 [])) with queues := [(5, q)] }
  ((p.zipIdx).foldl (fun (s : State) x => s.wr64 (0x100000 + 8 * x.2) x.1) (s.putLeaf 0 7 0x100000 (leaf0 0x100000))).l2Touch 0x100000 false

def headIs (s : State) (f : Head → Bool) : Bool := f (s.headPkt 5).1 && decide ((s.headPkt 5).2 = s)

/-- R308 to R311: heads that are ready, bad, and at an address whose page is not mapped; a barrier left to complete. -/
theorem test_witness_queue_heads :
    let nop : List W64 := [0, 0, 0, 0, 0, 0, 0, 0]
    let noPage := { ringS nop with leaves := [] }
    let bar := (ringS nop).setHq 5 { (ringS nop).hq 5 with barrier := some nop }
    ((ringS nop).queueOrder 0 = [5] ∧ (ringS nop).queueOrder 1 = [])
    ∧ headIs (ringS nop) (fun h => match h with | .ready p => decide (p = nop) && pktOp p == 0 | _ => false) = true
    ∧ headIs (ringS [9]) (fun h => match h with | .bad _ => true | _ => false) = true
    ∧ ((match (noPage.headPkt 5).1 with | .fault _ _ => true | _ => false) = true ∧ (noPage.headPkt 5).2.queues = noPage.queues)
    ∧ ((bar.hq 5).barrier = some nop ∧ bar.launches = [] ∧ (running bar).launches = [launch0] ∧ launch0.queue = 0)
    ∧ ((ringS nop).nextPacket 0 = some (5, nop) ∧ issuesNow (.cmdnext .always 119) (ringS nop) = true) := by decide +kernel

/-- R316: a completion record that can be written, and a queue number that is none. -/
theorem test_witness_cmddone :
    let s := ringS [0, 0, 0, 0, 0, 0, 0, 0]
    let s := s.setHart (.hart 0) { s.hart (.hart 0) with s := (s.hart (.hart 0)).s.set 1 0x100040 |>.set 3 5 }
    let i := Instr.cmddone .always (.s 1) (.s 2) (.s 3) true true
    issuesNow i s = true ∧ (s.hart (.hart 0)).relDone = true ∧ (s.hart (.hart 0)).pwf = none ∧ (0x100078 : W64).toNat % 8 = 0 ∧ (5 : W64).toNat < 2 ^ 12
    ∧ (match s.gwrite (.hart 0) (some (s.hq 5).pasid) 0x100078 (.store .b64 false 1) with | .ok _ _ => true | _ => false) = true := by decide +kernel

/-- A copy engine of a cluster that runs a launch. -/
def engineS (g : Engine) : State :=
  let s := running (hartState (.ce 0) (hart1 []))
  s.setEngine (.ce 0) g

def cmd0 (w : W64) : EngCmd := { word := some w, tag := 9, scope := none, launch := some (0, 1), kid := 0 }

/-- R326, R338: commands with and without a reserved bit, a run that faults and one at each stage of its end, and jobs with a context for
them and with none. -/
theorem test_witness_engine_runs :
    let q := engineS { Engine.zero with queue := [cmd0 0x100000008, cmd0 0x400000] }
    let r := engineS { Engine.zero with run := .cmd 8 9 0 }
    let e := engineS { Engine.zero with run := .ending 0x3FFEF8 9 0 0 }
    let w := e.setHart (.ce 0) { e.hart (.ce 0) with rel := some { scope := .die, target := some 0 } }
    let job : MJob := { entry := 64, arg := 1, tag := 2 }
    let j := (running (lapS [])).setCc 0 1 { CcState.zero with jobs := [job] }
    let n := (List.range 4).foldl (fun (s : State) x => s.setCtx 0 1 x { Ctx.zero with state := 1 }) j
    ((q.engine (.ce 0)).run = .idle ∧ (q.cluster 0).launch.bind (q.launch 0) = some launch0 ∧ launch0.stopping = false ∧ launch0.saved = none
      ∧ (0x100000008 : W64).extractLsb' 22 10 = 0#10 ∧ (0x400000 : W64).extractLsb' 22 10 ≠ 0#10)
    ∧ (r.engine (.ce 0)).run = .cmd 8 9 0
    ∧ ((e.engine (.ce 0)).run = .ending 0x3FFEF8 9 0 0 ∧ (e.hart (.ce 0)).rel = none ∧ e.reqs = [] ∧ (e.hart (.ce 0)).aq = [])
    ∧ ((w.hart (.ce 0)).rel = some { scope := .die, target := some 0 } ∧ 0x3FFEF8 % 2 ^ 22 / 8 * 8 < 0x3FFF00 ∧ (w.cluster 0).tiles = [] ∧ w.bad = []
      ∧ w.isFull (cspBase 0 + 0x3FFEF8) = false ∧ (w.setFull (cspBase 0 + 0x3FFEF8)).isFull (cspBase 0 + 0x3FFEF8) = true)
    ∧ ((j.cc 0 1).jobs = [job] ∧ (j.ctx 0 1 0).state = 0 ∧ (j.ctx 0 1 0).job = none)
    ∧ ((n.cc 0 1).jobs = [job] ∧ ∀ x < 4, (n.ctx 0 1 x).state = 1) := by decide +kernel

/-- R306, R307: ring sizes at and beyond the ends of their range, in every state of a queue. -/
theorem test_witness_queue_commands :
    let s (st lsz : Nat) := { (lapS []) with bootStage := 5 }.setHq 4095 (queueOf st lsz 0 0)
    (((s 0 4).hq 4095).lsz = 4 ∧ ((s 2 12).hq 4095).lsz = 12 ∧ ((s 0 3).hq 4095).lsz = 3 ∧ ((s 2 13).hq 4095).lsz = 13)
    ∧ (((s 1 4).hq 4095).state = 1 ∧ ((s 3 4).hq 4095).state = 3 ∧ (s 0 4).launches = [])
    ∧ ((s 0 4).bootStage = 5 ∧ (lapS []).bootStage ∉ [5, 7])
    ∧ (2 ^ ((s 1 4).hq 4095).lsz < ((17 : W64).setWidth 32 - ((s 1 4).hq 4095).head).toNat ∧ ((16 : W64).setWidth 32 - ((s 1 4).hq 4095).head).toNat = 16) := by
  decide +kernel

/-- R27, R30, R214: a placement entry; a launch that has finished and may end, one that waits for its writes, and one whose thread runs. -/
theorem test_witness_launches :
    let s := running State.reset
    let late := s.setCluster 7 { Cluster.zero with launch := some 1, horizon := 5 }
    let busy := running (lapS [])
    let pre := { s with launches := [{ launch0 with stopping := true }] }
    let at_ (e : List Byte) (i : Nat) : Nat := (e.getD i 0).toNat
    (launch0.img.map.all (fun e => at_ e 0 = 1 ∧ at_ e 1 = 0 ∧ at_ e 2 = 2 ∧ at_ e 3 = 3) = true ∧ launch0.img.map.length = 1)
    ∧ (s.launchOf 0 1 = some launch0 ∧ launch0.kids = [0, 1, 2, 3, 4, 5, 6, 7] ∧ s.canFinish launch0 = true ∧ (∀ k ∈ launch0.kids, (s.cluster k).cch = [])
      ∧ s.horizonOf launch0.kids = 0 ∧ (launch0.pkt.getD 0 0).getLsbD 8 = false)
    ∧ (late.canFinish launch0 = true ∧ late.pt < late.horizonOf launch0.kids) ∧ busy.canFinish launch0 = false
    ∧ (launch0.saved = none ∧ launch0.stopping = false)
    ∧ (pre.launchOf 0 1 = some { launch0 with stopping := true } ∧ (∀ k ∈ launch0.kids, pre.quiet k = true)
      ∧ pre.reBusyRun { launch0 with stopping := true } = false ∧ pre.horizonOf launch0.kids ≤ pre.pt)
    ∧ (({ launch0 with saved := some [] } : Launch).saved.isSome = true) := by decide +kernel

/-- R215, R216: the last thread of a cluster, on the last cluster, with bytes in its memories. -/
theorem test_witness_save :
    let e := Ent.lap 511 31 15
    let s := ((hartState e (hart1 [(1, 7)])).wr64 (cspBase 511 + 0x3FFFF8) 5).wr64 (localBase 511 31 + 0x7FF8) 6
    MemOk s ∧ MemOk State.reset ∧ (s.harts.map (·.1)).Nodup ∧ mfind s.harts e ≠ none ∧ (2 : Nat) ^ 17 ≤ 2 ^ 17
    ∧ (s.hart e).rot = .ready := by
  refine ⟨?_, ?_, ?_⟩
  · show memWf _ = true; decide +kernel
  · show memWf _ = true; decide +kernel
  · decide +kernel

/-! #### Traps answered from outside, control cores, the array -/

/-- A trapped thread with this cause word. -/
def trappedS (cause : W64) : State := running (hartState lap0 { hart1 [] with rot := .trapped, tr := { TrapRegs.zero with cause := cause, addr := 0x12345678 } })

/-- R203, R207, R210: trapped threads and contexts, escalated faults of an absent page and of another cause, at each stage. -/
theorem test_witness_trapped :
    let c := (ctxS []).setCtx 0 0 0 { (ctxS []).ctx 0 0 0 with state := 5 }
    let w (m : Option Nat) := { trappedS 0x04000006 with escalated := [(lap0, m)], clk := 5 }
    ((h0 (trappedS 0x04000006)).rot = .trapped ∧ (h0 (lapS [])).rot ≠ .trapped ∧ (c.ctx 0 0 0).state = 5 ∧ (c.ctx 0 0 0).job = none ∧ ((ctxS []).ctx 0 0 0).state ≠ 5)
    ∧ ((h0 (trappedS 0x04000006)).tr.cause.getLsbD 26 = true ∧ (h0 (trappedS 0x04000006)).tr.cause.toNat % 256 = 6
      ∧ (h0 (trappedS 0x04000007)).tr.cause.toNat % 256 = 7 ∧ (trappedS 0x04000006).escalated = [] ∧ ((trappedS 0x04000006).die 0).logTail - ((trappedS 0x04000006).die 0).logHead < 256)
    ∧ ((w none).escalated = [(lap0, none)] ∧ (h0 (w none)).rot = .trapped ∧ (w (some 5)).escalated = [(lap0, some 5)] ∧ 5 ≤ (w (some 5)).clk ∧ (w (some 6)).clk < 6) := by
  decide +kernel

/-- R33, R209, R384: park counts at the threshold and below it, the least threshold and the one that counts as 2^24; a halted thread. -/
theorem test_witness_watchdog :
    let s (n thr : Nat) (en : Bool) := (hartState lap0 { hart1 [] with rot := .parked, parkN := n }).setCore 0 0 { LapCore.zero with thr := thr, wen := en }
    ((h0 (s 1 1 true)).rot = .parked ∧ ((s 1 1 true).core 0 0).wen = true ∧ ((s 1 1 true).core 0 0).thr = 1 ∧ (h0 (s 1 1 true)).parkN = 1)
    ∧ (((s 16777216 0 true).core 0 0).thr = 0 ∧ (h0 (s 16777216 0 true)).parkN = 2 ^ 24 ∧ (h0 (s 16777215 0 true)).parkN < 2 ^ 24)
    ∧ ((s 1 1 false).core 0 0).wen = false ∧ (h0 (hartState lap0 { hart1 [] with rot := .debug })).rot = .debug ∧ (lapS []).actor = lap0 := by decide +kernel

/-- R86, R142 to R145: a context about to issue, aligned and misaligned targets, LOOPC's count, a result due and one that is not; R146: a
freeze at its limit and beyond. -/
theorem test_witness_bundles :
    let s := ctxS [(4, 0x1000), (5, 0x1001), (7, 1)]
    let t := s.ctx 0 0 0
    let c := s.cc 0 0
    let p (n : Nat) := (ctxS []).setCc 0 0 { CcState.zero with pending := [{ x := 0, reg := .c 0 4, val := 65, mask := none, left := n + 1, flags := 0 }] }
    let f (n : Nat) := (ctxS []).setCc 0 0 { CcState.zero with freeze := n }
    (s.actor = .ctx 0 0 0 ∧ t.pc.toNat < c.loaded ∧ t.jig.running = false ∧ t.jig.recording = false ∧ c.pending = [] ∧ c.overlay = [] ∧ c.pre = none
      ∧ c.ldNeed = none ∧ t.refused = false ∧ t.sbuf = [])
    ∧ (t.c[4].extractLsb' 0 6 = 0#6 ∧ t.c[5].extractLsb' 0 6 ≠ 0#6 ∧ t.c[7] = 1)
    ∧ (s.setCc 0 0 { c with loaded := 0x80 }).cc 0 0 = { c with loaded := 0x80 } ∧ t.pc = 0x80
    ∧ (((p 0).cc 0 0).freeze = 0 ∧ ((p 0).cc 0 0).pending.map (·.left) = [1] ∧ ((p 1).cc 0 0).pending.map (·.left) = [2] ∧ ∀ y < 4, ((p 0).ctx 0 0 y).job = none)
    ∧ ((f 4097).cc 0 0).freeze ≤ 4097 ∧ 4097 < ((f 4098).cc 0 0).freeze := by decide +kernel

/-- A control core with a step of two f32 tiles, in the queue and in the array. -/
def arrayS (left : Nat) (queued : Bool) : State :=
  let q : AStep := { acc := 3, x := 0, a := 0x0100, b := some 0x0101, left := left }
  let t := { tile0 with ty := .f32, vmask := 1, state := 2 }
  let s := (ctxS []).setCluster 0 { Cluster.zero with tiles := [(0, t), (1, { t with base := 0x4200 })] }
  s.setCc 0 0 (if queued then { CcState.zero with queue := [q] } else { CcState.zero with run := some q })

/-- R62, R174, R177, R188. -/
theorem test_witness_array :
    let q := arrayS 0 true
    let r := arrayS 0 false
    let cls (s : State) : Option PClass := ((s.cc 0 0).queue ++ (s.cc 0 0).run.toList).head?.bind fun x => (s.stepImgs 0 x).bind fun i => pairClass i.1 i.2
    let a := (q.tileImg 0 0)
    ((q.cc 0 0).run = none ∧ (q.cc 0 0).queue.length = 1 ∧ cls q = some .f32 ∧ ((q.cc 0 0).accu 3).st.extractLsb' 0 2 = 0#2)
    ∧ ((r.cc 0 0).run.map (·.left) = some 0 ∧ ((arrayS 1 false).cc 0 0).run.map (·.left) = some 1 ∧ cls r = some .f32)
    ∧ (a.present 0 = true ∧ a.present 1 = false ∧ isFinite (a.value DTab.zero 0 63) = true ∧ isFinite (decF fmtF32 0x7F7FFFFF) = true
      ∧ (0xFFFFFFFF : W64).toNat < 2 ^ 32) := by decide +kernel

/-- R32, R168 to R170, R335, R337: a store that may be written up to the kick words, a command whose reserved entry is first, one that waits,
and a generator with two places and with one. -/
theorem test_witness_context_queues :
    let st : StEnt := { give := false, elems := [(0x3FFEF8, 7, cspA 0x3FFEF8)], ty := .b64, need := [0x3FFEF8], age := none }
    let s := (ctxS []).setCtx 0 0 0 { (ctxS []).ctx 0 0 0 with sbuf := [st], cpgos := [(5, 0), (6, 1)] }
    let s := s.setCluster 0 { Cluster.zero with ce := { Engine.zero with queue := [{ cmd0 0 with word := none, tag := s.issuerTag (.ctx 0 0 0) }] } }
    let g (n : Nat) := (ctxS []).setCluster 0 { Cluster.zero with rngQ := List.replicate n 0 }
    ((s.ctx 0 0 0).sbuf = [st] ∧ 0x3FFEF8 % 8 = 0 ∧ 0x3FFEF8 + 8 ≤ 0x3FFF00 ∧ (s.cluster 0).tiles = [] ∧ s.bad = [] ∧ s.bankFree 0 (0x3FFEF8 / 8 % 64) = true)
    ∧ ((s.ctx 0 0 0).cpgos = [(5, 0), (6, 1)] ∧ ((s.cluster 0).ce.queue.map fun q => (q.word, decide (q.tag = s.issuerTag (.ctx 0 0 0)))) = [(none, true)])
    ∧ (((g 62).cluster 0).rngQ.length ≤ 62 ∧ 62 < ((g 63).cluster 0).rngQ.length) ∧ ((ctxS []).ctx 0 0 0).sbuf = [] := by decide +kernel

/-! #### Translation, homes and caches -/

/-- A PASID table at 0, and tables whose entries for address 0 are these, level 4 at 0x1000 to level 0 at 0x5000. -/
def ptS (p0 : W64) (es : List W64) : State :=
  es.zipIdx.foldl (fun (s : State) x => s.wr64 (0x1000 * (x.2 + 1)) x.1) ((hartState (.hart 0) (hart1 [])).wr64 0 p0)

/-- R235 to R237, R239: entries of each case at each level. -/
theorem test_witness_walks :
    let walk (es : List W64) := ((ptS 0x1001 es).walkPage (fun _ => none) 0 0).res
    (ptS 0x1001 [0]).bad = [] ∧ walk [0] = .fault 0x06 none ∧ walk [0x81] = .fault 0x07 (some 0x1000) ∧ walk [0x0010000000000001] = .fault 0x07 (some 0x1000)
    ∧ walk [3] = .fault 0x07 (some 0x1000) ∧ walk [0x2001, 0x3001, 0x1003] = .fault 0x07 (some 0x3000) ∧ walk [0x2001, 5] = .fault 0x07 (some 0x2000)
    ∧ walk [0x2001, 0x3001, 0x4001, 0x5001, 0x6001] = .fault 0x07 (some 0x5000)
    ∧ walk [0x2001, 0xFFFFFFFFFF001] = .fault 0x07 (some 0x2000) ∧ ((ptS 0xFFFFFFFFFF001 []).walkPage (fun _ => none) 0 0).res = .fault 0x07 (some 0)
    ∧ walk [0x2001, 0x3001, 0x4000003F] = .leaf (leaf0 0x40000000)
    ∧ ((ptS 3 []).walkPage (fun _ => none) 0 0).res = .host ∧ ((ptS 0x1005 []).walkPage (fun _ => none) 0 0).res = .fault 0x07 none
    ∧ ((ptS 0 []).walkPage (fun _ => none) 0 0).res = .fault 0x07 none := by decide +kernel

/-- A thread that waits for a request of page 0x100000, PASID 7, with what its station holds. -/
def atStation (op : AccOp) (ph : Phase) (l : Option Leaf) : State :=
  let s := withReq (running (waiting pend0)) { req0 op ph 0x100040 with dpa := 0x100040 }
  match l with
  | some l => s.putLeaf 0 7 0x100000 l
  | none => s

/-- A line of a cluster cache that holds address 0x100040. -/
def line0 : CchLine := { CchLine.fresh 7 0x100040 (leaf0 0x100000) with expiry := 5 }

def withLine (s : State) (l : CchLine) : State := s.setCluster 0 { s.cluster 0 with cch := [l] }

/-- R237, R239, R240, R286: a request with a leaf that permits it, one that does not, an absent one, a walk of its page and none. -/
theorem test_witness_stations :
    let s := atStation (.load .b64 false) .station (some (leaf0 0x100000))
    let ro := { leaf0 0x100000 with rd := false }
    let n := atStation (.cas .b64 1 2) .station none
    let w : Walk := { die := 0, pasid := 7, page := 0x100000, reqs := [1], due := 0, ats := false, begun := true }
    let st := withLine (atStation (.store .b64 false 5) .station (some (leaf0 0x100000))) line0
    (∃ r, mfind s.reqs 3 = some r ∧ r.pasid = some 7 ∧ r.phase = .station ∧ r.due ≤ s.clk ∧ (leaf0 0x100000).permits r.op.need r.level = true
      ∧ ro.permits r.op.need r.level = false ∧ waited r)
    ∧ (s.leafAt 0 7 0x100040 = some (leaf0 0x100000) ∧ (atStation (.load .b64 false) .station (some ro)).leafAt 0 7 0x100040 = some ro
      ∧ (atStation (.load .b64 false) .station (some { ro with absent := true })).leafAt 0 7 0x100040 = some { ro with absent := true })
    ∧ (n.leafAt 0 7 0x100040 = none ∧ n.walks = [] ∧ ({ n with walks := [w] }).walks = [w] ∧ w.page = pageOf 0x100040)
    ∧ (st.cchAt 0 7 (lineOf 0x100040) = some line0 ∧ 0x100040 % (tyW .b64 / 8) = 0 ∧ 3 < st.fresh ∧ Ty.b64.isPlain = true) := by
  refine ⟨⟨_, rfl, by decide +kernel, by decide +kernel, by decide +kernel, by decide +kernel, by decide +kernel, ?_⟩, ?_⟩
  · exact ⟨rfl, (by intro h; cases h), rfl, rfl, (by intro n h; cases h)⟩
  · decide +kernel

/-- R235, R239, R240: a walk that is due and one that is not, of a page that is mapped and of one that is not, and one of the host. -/
theorem test_witness_walk_ends :
    let w (due : Nat) (ats : Bool) : Walk := { die := 0, pasid := 0, page := 0x5000, reqs := [3], due := due, ats := ats, begun := true }
    let s (es : List W64) := { ptS 0x1001 es with walks := [w 0 false], reqs := [(3, { req0 (.load .b64 false) .miss 0x5008 with pasid := some 0 })] }
    ((s [0]).walks = [w 0 false] ∧ 0x5000 % 4096 = 0 ∧ (mfind (s [0]).reqs 3).isSome = true ∧ (s [0]).clk < (w 1 false).due)
    ∧ (((s [0x2001, 0x3001, 0x3F]).walkPage ((s [0x2001, 0x3001, 0x3F]).tableAt 0 0 0x5000) 0 0x5000).res = .leaf (leaf0 0x5000)
      ∧ ((s [0]).walkPage ((s [0]).tableAt 0 0 0x5000) 0 0x5000).res = .fault 0x06 none ∧ (w 0 true).ats = true) := by
  decide +kernel

/-- R240: leaves and lines within and outside a range, a request under one of them; an invalidation that waits and one that is complete. -/
theorem test_witness_invalidation :
    let s := withLine (atStation (.load .b64 false) .home (some (leaf0 0x100000))) line0
    inRange 0x100000 1 0x100FFF = true ∧ inRange 0x100000 1 0x101000 = false ∧ inRange 0x100000 1 0xFFFFF = false ∧ (s.reqs.map (·.1)) = [3]
    ∧ (mfind s.reqs 3).map (·.phase) = some .home ∧ s.tinval = none ∧ ({ s with tinval := some [3] }).tinval = some [3]
    ∧ ({ s with tinval := some [4] }).tinval = some [4] := by decide +kernel

/-- A region of one block from address 0x100000, bounded by 1.0. -/
def tolS (s : State) : State :=
  s.setDie (homeDie 0x100040) { s.die (homeDie 0x100040) with regions := [(0, (0x0000001000000010, 0x3F800000))], allows := [((0x100040, 5), 0x3F000000)] }

/-- R286, R298: a load at its home, of a thread whose cluster has the line and of a routing engine; one in a tolerance region with an
allowance outstanding. -/
theorem test_witness_global_reads :
    let s := withLine (atStation (.load .b64 false) .home (some (leaf0 0x100000))) line0
    let t := tolS s
    let u := { s with reqs := [(3, { req0 (.load .b64 false) .tolerant 0x100040 with who := .re 2, dpa := Config.hbmEnd - 64 })] }
    PlainHomes s ∧ (s.cchAt 0 7 (lineOf 0x100040) = some line0 ∧ line0.dpa = lineOf 0x100040 ∧ line0.dirty = 0 ∧ s.leafAt 0 7 0x100040 = some (leaf0 0x100000))
    ∧ ((mfind s.reqs 3).map (·.phase) = some .home ∧ 0x100040 % (tyW .b64 / 8) = 0 ∧ 0x100040 + 64 ≤ Config.hbmEnd ∧ ∀ q ∈ s.reqs, q.2.phase ≠ .write)
    ∧ ((∃ g, t.regionAt 0x100040 = some g ∧ isFinite (trackVal g.ty 0x3F000000) = true ∧ 0 < ratOf (trackVal g.ty 0x3F000000))
      ∧ t.allowsOn (lineOf 0x100040) = [(5, 0x3F000000)])
    ∧ PlainHomes u ∧ (mfind u.reqs 3).map (·.phase) = some .tolerant
    ∧ (s.setDie (homeDie 0x100040) { s.die (homeDie 0x100040) with forced := [(0x100040, 5)] }).forcedOn 0x100040 = true := by
  refine ⟨⟨by decide +kernel, fun d => ?_⟩, by decide +kernel, by decide +kernel, ⟨⟨_, rfl, by decide +kernel, ?_⟩, by decide +kernel⟩, ⟨by decide +kernel, fun d => ?_⟩, by decide +kernel⟩
  · exact ⟨rfl, rfl, rfl, rfl⟩
  · have : trackVal Ty.f32 0x3F000000 = .num false 0x800000 (-24) false := by decide +kernel
    show 0 < ratOf (trackVal Ty.f32 0x3F000000)
    rw [this]; norm_num [ratOf]
  · exact ⟨rfl, rfl, rfl, rfl⟩

/-- R249 to R251, R285, R299: each operation at the last word of memory, and a store to a line with allowances. -/
theorem test_witness_home_writes :
    let s (op : AccOp) := withReq (running (waiting pend0)) { req0 op .write 0x100040 with dpa := Config.hbmEnd - 8 }
    let t := tolS (withReq (running (waiting pend0)) { req0 (.store .b64 false 1) .write 0x100040 with dpa := 0x100040 })
    (∀ op, MemOk (s op) ∧ PlainHomes (s op) ∧ (mfind (s op).reqs 3).map (·.op) = some op ∧ (∀ q ∈ (s op).reqs, q.1 = 3))
    ∧ (Config.hbmEnd - 8 + 8 ≤ Config.hbmEnd ∧ Ty.n64.isInt = true ∧ Ty.n64.isPlain = true)
    ∧ (mfind t.reqs 3).map (·.phase) = some .write ∧ t.allowsOn (lineOf 0x100040) ≠ [] := by
  refine ⟨fun op => ⟨?_, ⟨rfl, fun d => ⟨rfl, rfl, rfl, rfl⟩⟩, rfl, ?_⟩, by decide +kernel⟩
  · show memWf _ = true; rfl
  · intro q hq; simp only [withReq, List.mem_singleton] at hq; rw [hq]

/-- R286, R289, R389: a line that is leased, one whose lease is over, and one with a write on its way. -/
theorem test_witness_lines :
    let s (pt : Nat) (n : Nat) := { withLine (lapS []) { line0 with inflight := n } with pt := pt }
    ((s 4 0).pt < line0.expiry ∧ line0.expiry ≤ (s 5 0).pt ∧ (s 5 0).cchAt 0 7 0x100040 = some { line0 with inflight := 0 })
    ∧ (s 5 1).cchAt 0 7 0x100040 = some { line0 with inflight := 1 } ∧ (s 5 1).cchAt 0 7 0x100080 = none
    ∧ (withLine (lapS []) { line0 with dpa := hostBase + 64 }).cchByDpa 0 (hostBase + lineOf 100) = some { line0 with dpa := hostBase + 64 } := by
  decide +kernel

/-- R296 to R298: a forced drain whose cluster holds an allowance, one whose cluster holds no line, and the fold of a sum at a line's end. -/
theorem test_witness_drains :
    let d := homeDie 0x100040
    let f (s : State) := s.setDie d { s.die d with forced := [(0x100040, 0)] }
    let s := f (withLine (lapS []) { line0 with allow := some 0x3F000000, sums := [(60, 0x3F800000)] })
    let u := withReq (lapS []) { req0 (.drain .f32 [(60, 0x3F800000)] true) .write 0x100040 with dpa := Config.hbmEnd - 64 }
    ((0x100040, 0) ∈ (s.die d).forced ∧ ∃ l, s.cchByDpa 0 0x100040 = some l ∧ l.allow = some 0x3F000000)
    ∧ ((f (lapS [])).cchByDpa 0 0x100040 = none ∧ (f (lapS [])).reqs = [] ∧ ((lapS []).die d).forced = [])
    ∧ (MemOk u ∧ (mfind u.reqs 3).map (·.phase) = some .write ∧ u.bad = [] ∧ (∀ d, (u.die d).regs = []) ∧ (∀ q ∈ u.reqs, q.1 = 3)
      ∧ lineOf (Config.hbmEnd - 64) + 64 ≤ Config.hbmEnd ∧ 60 + tyW .f32 / 8 ≤ 64 ∧ Ty.f32.isFloat = true) := by
  refine ⟨⟨by decide +kernel, _, rfl, rfl⟩, by decide +kernel, ?_, by decide +kernel, rfl, fun d => rfl, by decide +kernel⟩
  show memWf _ = true; decide +kernel

/-! #### The outside -/

/-- R387 to R389: bytes at the end of HBM, and bytes across a line. -/
theorem test_witness_host : MemOk (lapS []) ∧ PlainHomes (lapS []) ∧ (lapS []).reqs = []
    ∧ (Config.hbmEnd - 8) / 64 = (Config.hbmEnd - 8 + 8 - 1) / 64 ∧ Config.hbmEnd - 8 + 8 ≤ Config.hbmEnd ∧ 60 / 64 ≠ (60 + 8 - 1) / 64 := by
  refine ⟨?_, ⟨rfl, fun d => ⟨rfl, rfl, rfl, rfl⟩⟩, by decide +kernel⟩
  show memWf _ = true; decide +kernel

/-- R387, R397: the vector enabled, open and masked. -/
theorem test_witness_vectors :
    let s := { State.reset with evvec := 0xFFF, msixOpen := [2047] }
    s.evvec.getLsbD 11 = true ∧ s.evvec.toNat % 2 ^ 11 ∈ s.msixOpen ∧ State.reset.evvec.getLsbD 11 = false ∧ 0xFFF % 2 ^ 11 ∉ State.reset.msixOpen := by
  decide +kernel

/-- R394, R395: a port at its seventh retry and at its sixth, and a request that waits behind it. -/
theorem test_witness_links :
    let s (n : Nat) := { (withReq (running (waiting pend0)) (req0 (.store .b64 false 1) .link 0xA000000080000000)) with
      ports := [(11, { up := true, peer := 1, status := 0xFFFFFFFF0000, fails := n })], routes := [(1, 0x1B)] }
    7 ≤ ((s 7).port 11).fails ∧ ((s 6).port 11).fails < 7 ∧ ((mfind (s 7).reqs 3).map fun r => (r.phase, (s 7).behindPort 11 r.node)) = some (.link, true)
    ∧ ((s 7).port 11).status.extractLsb' 32 16 = 0xFFFF#16 ∧ ((s 7).die 3).logTail - ((s 7).die 3).logHead < 256 := by decide +kernel

/-- R229, R394: an address of this node, one with a bit that must be zero, one at the scratchpad's end and one of another node, a
message's destination, and a request that waits on a link. -/
theorem test_witness_inbound :
    let s := withReq (running (waiting pend0)) (req0 (.store .b64 false 1) .link 0xA000000080000000)
    ((0xA0000000003FFFF8 : W64).extractLsb' 60 4 = 0xA#4 ∧ (0xA0000000003FFFF8 : W64).toNat / 2 ^ 31 % 2 ^ 8 = s.node
      ∧ (0xA0000000003FFFF8 : W64).extractLsb' 39 21 = 0#21 ∧ (0xA0000000003FFFF8 : W64).toNat % 2 ^ 22 + 8 ≤ 2 ^ 22)
    ∧ (0xA0000080003FFFF8 : W64).extractLsb' 39 21 ≠ 0#21 ∧ 2 ^ 22 < (0xA0000000003FFFFC : W64).toNat % 2 ^ 22 + 8
    ∧ (0xA0000000003FFFF4 : W64).toNat % 2 ^ 22 % 8 ≠ 0 ∧ (0xA000000080000000 : W64).toNat / 2 ^ 31 % 2 ^ 8 ≠ s.node
    ∧ ((0x3FFF : W64).toNat / 2 ^ 22 = 0 ∧ (0x3FFF : W64).toNat / 2 ^ 14 % 2 ^ 8 = s.node)
    ∧ (mfind s.reqs 3).map (·.phase) = some .link ∧ (mfind (withReq s (req0 (.load .b64 false) .home 8)).reqs 3).map (·.phase) = some .home := by
  decide +kernel

/-- R402: the clock and the count of steps at the ends of their ranges. -/
theorem test_witness_power : RangesOk State.reset ∧ RangesOk { State.reset with mhz := 1000, thr := 65535, powerCap := 1000, lease := 100, bootStage := 7 }
    ∧ 20 * 2280 ≤ 19 * State.reset.powerCap ∧ ¬20 * 2281 ≤ 19 * State.reset.powerCap := by
  refine ⟨?_, ?_, by decide⟩ <;> simp only [RangesOk, State.reset] <;> decide

/-! #### The machine -/

theorem codeAt_of {s : State} {a : Nat} {i : Instr}
    (h : (if (s.rd64 a).extractLsb' 58 2 = 0#2 then decide (decodeWords [s.rd64 a] = some i) else decide (decodeWords [s.rd64 a, s.rd64 (a + 8)] = some i)) = true) :
    CodeAt s a i := by
  show if _ then _ else _
  split at h <;> rename_i hc <;> simp only [hc, if_true, if_false] <;> exact of_decide_eq_true h

/-- A lap thread, a command stream hart, and a routing engine whose words stand where they fetch, the last with a literal word; a word that
is no instruction; a context's bundle; turns of events and of an entity that may not issue. -/
theorem test_witness_turns :
    let w : W64 := 0x01800C1002000010
    let lap := (State.reset.withFetchWord 64 w.toNat).putLeaf 0 0 0x10000 (leaf0 0x10000)
    let re := { lap with turns := [.fetch (.re 0)] }.setHart (.re 0) { hart1 [] with pc := 0x10FF0 }
    let re := ((re.setEngine (.re 0) { Engine.zero with run := .cmd 0 0 0, launch := some (0, 1) }).wr64 0x10FF0 0xB4401C1C00100000).wr64 0x10FF8 0x3E8
    let cmd := { (hartState (.hart 2) (hart1 [])).wr64 0x1000 w with turns := [.fetch (.hart 2)] }
    let ctx := State.reset.withFetchWord 512 (0x0411040000000040 : Nat)
    ((lap.turns = [.fetch lap0] ∧ (lap.hart lap0).rot = .ready ∧ (lap.hart lap0).pc = 0x10000 ∧ lap.entPasid lap0 = some 0 ∧ lap.kidStops 0 = false)
      ∧ (lap.leafAt 0 0 0x10000 = some (leaf0 0x10000) ∧ (leaf0 0x10000).permits .ex (lap.level lap0) = true ∧ lap.reqs = [] ∧ (lap.cluster 0).cch = [])
      ∧ CodeAt lap 0x10000 (.ld .always .take .b64 false (.s 3) (.s 4) (.imm 16)))
    ∧ ((re.hart (.re 0)).rot = .ready ∧ (re.engine (.re 0)).runs = true ∧ re.entPasid (.re 0) = some 0 ∧ 0x10FF0 % 4096 + 16 ≤ 4096
      ∧ re.leafAt 0 0 0x10FF0 = some (leaf0 0x10000)
      ∧ CodeAt re (0x10000 + 0xFF0) (.add { g := .off 2, ty := .i32, d := .s 7, a := .s 7, b := .lit32 1000 }))
    ∧ ((cmd.hart (.hart 2)).rot = .ready ∧ CodeAt cmd 0x1000 (.ld .always .take .b64 false (.s 3) (.s 4) (.imm 16))
      ∧ decodeWords [(0x8000000000000000 : W64)] = none ∧ (0x8000000000000000 : W64).extractLsb' 58 2 = 0#2)
    ∧ (ctx.turns = [.fetch (.ctx 0 0 0)] ∧ ctx.canIssue (.ctx 0 0 0) = true ∧ (ctx.ctx 0 0 0).pc = 0
      ∧ decodeWords ((List.range 8).map fun j => ctx.rd64 (bundleBase 0 0 + 8 * j)) = some (.bundleIssue { nopB with s := .op 0 (.bin .add 4 4 (.imm 64)) }))
    ∧ State.reset.canIssue lap0 = false ∧ encodeLap (.stepStart 0 0) = none := by
  refine ⟨⟨?_, ?_, codeAt_of ?_⟩, ⟨?_, ?_, ?_, ?_, ?_, codeAt_of ?_⟩, ⟨?_, codeAt_of ?_, ?_⟩, ?_⟩ <;> decide +kernel

/-- The placed states meet PlainHomes: nothing stands between the homes and memory. -/
theorem test_witness_plain_homes : PlainHomes ((State.reset.withFetchWord 64 0x01800C1002000010).putLeaf 0 0 0x10000 (leaf0 0x10000)) := by
  have : ((State.reset.withFetchWord 64 0x01800C1002000010).putLeaf 0 0 0x10000 (leaf0 0x10000)).dies = [] := by decide +kernel
  refine ⟨by decide +kernel, fun d => ?_⟩
  simp only [State.die, this]
  exact ⟨rfl, rfl, rfl, rfl⟩

/-- R20, R381: the end of a clk of reset, and a placed word that runs. -/
theorem test_witness_step :
    (∃ t : State, step State.reset = .next t) ∧ MemOk State.reset ∧ State.reset.turns = [] ∧ State.reset.phase < State.reset.mhz
    ∧ (match step (State.reset.withFetchWord 64 0x01800C1002000010) with | .next _ => true | _ => false) = true := by
  refine ⟨⟨_, rfl⟩, ?_, ?_⟩
  · show memWf _ = true; decide +kernel
  · decide +kernel

/-! #### Clauses of the statements on caches, launches, saves, banks and kept records -/

/-- R247, R286: a line in the cache of a running launch, leased and valid from its first byte to its last. -/
theorem test_witness_cached_load :
    let l := { CchLine.fresh 7 0x100040 (leaf0 0x100000) with expiry := 5, valid := BitVec.allOnes 64 }
    let s := withLine (running (lapS [(1, 0x100078)])) l
    (issuesNow (.ld .always .plain .b64 false (.s 0) (.s 1) (.imm 0)) s = true ∧ issuesNow (.ldt .always .f64 (.s 0) (.s 1) (.s 2) (.imm 0)) s = true)
    ∧ ((0x100078 : W64).toNat % 8 = 0 ∧ s.postedAt lap0 0x100078 = false ∧ s.entPasid lap0 = some 7)
    ∧ ((s.cluster 0).cch.find? (fun x => x.pasid = 7 ∧ x.line = (0x100078 : W64).toNat / 64 * 64) = some l ∧ l.rd = true ∧ l.usr = true
      ∧ (∀ j < 8, l.valid.getLsbD (0x100078 % 64 + j) = true) ∧ s.pt < l.expiry ∧ s.regionAt l.dpa = none) := by decide +kernel

/-- R242, R249: words of an rl class with the release made, and addends in the scratchpad: an integer, a float, a NaN, an offcut. -/
theorem test_witness_atomics :
    let s := lapS [(1, cspA 64), (2, 1)]
    ((h0 s).relDone = true ∧ (h0 s).pwf = none ∧ issuesNow (.amo .always (.release .package) .add .i64 (.s 0) (.s 1) (.reg (.s 2))) s = true
      ∧ issuesNow (.cas .always (.acquire .system) .b64 (.s 0) (.s 1) (.s 2)) s = true ∧ issuesNow (.addm .always .plain .i8 (.s 0) (.s 1) (.imm 0)) s = true)
    ∧ (isOffcut .f32 0x7FA80000 = true ∧ (decF (tyFmt .f32) 0x7FC00000).isNan = true ∧ (decF (tyFmt .f32) 0x3F800000).isNan = false) := by decide +kernel

/-- A die whose queue 5 holds a launch packet: its image at 0x100400 has no section, its task words stand at 0x100840, its set descriptor
goes to 0x100800, all on one page. -/
def launchS : State :=
  [(0x400, 0x000100014B5A4931), (0x408, 1)].foldl (fun (s : State) (x : Nat × W64) => s.wr64 (0x100000 + x.1) x.2)
    (ringS [0x1001, 0x100400, 0, 0, 0, 0, 0x100800, 0x100840])

/-- R28, R29, R97, R98, R309, R313: every read of a launch's start is answered, its checks hold, and its descriptor is written. -/
theorem test_witness_launch_start :
    let s := launchS
    let p : List W64 := [0x1001, 0x100400, 0, 0, 0, 0, 0x100800, 0x100840]
    (s.owed = [] ∧ s.queueOrder 0 = [5] ∧ (s.hq 5).die = 0 ∧ headIs s (fun h => match h with | .ready q => decide (q = p) | _ => false) = true ∧ pktOp p ∉ [0, 2] ∧ s.givesWay 0 0xE (pktRinks p) = false
      ∧ (pktRinks p).all (s.rinkFree 0) = true)
    ∧ (match s.hread 0 7 0x100400 8 with
      | .ok hd u =>
        headerOk hd && half (wd hd 6) 1 == 0 && mapOk (parseHeader hd []) && (placeCheck (parseHeader hd []) 0 (pktRinks p)).isNone
        && (match u.hread 0 7 0x100840 5 with
          | .ok _ v => match v.writeDesc { launch0 with count := (v.die 0).launches + 1, queue := 5, pkt := p, img := parseHeader hd [] } with
            | .ok w => decide (w.queues = s.queues)
            | _ => false
          | _ => false)
      | _ => false) = true := by decide +kernel

/-- R133 to R135, R198, R213: the system words and conversions issue while no trap of a float flag is enabled, and have codes. -/
theorem test_witness_system_words :
    let s := running (lapS [(1, 0x3FC00000)])
    let d := tabS [(1, 0x3FA00000)]
    (h0 s).flg.extractLsb' 5 3 = 0#3 ∧ (h0 d).flg.extractLsb' 5 3 = 0#3 ∧ isOffcut .f32 0x3FA00000 = false
    ∧ ([.flgrd .always (.s 0), .srrd .always (.s 0) 0x247, .srwr .always (.s 1) 0x23F, .srwr .always (.s 1) 0x006, .flgclr .always 0x1F,
        .modeset .always (.s 1) 0x203, .modeset .always (.s 1) 0x247, .cvt .always .bf16 .e4m3 .f32 .e4m3 .rne false (.s 0) (.s 1),
        .frnd (falu1 .f32 .rne)].all fun i => issuesNow i s) = true
    ∧ (issuesNow (.cvtd (falu1 .f32 .rne)) d = true ∧ issuesNow (.cvte (falu1 .f32 .rne) false) d = true)
    ∧ ((convert .bf16 .e4m3 .f32 .e4m3 DTab.zero .rne false 0 0x3FC00000).isSome = true
      ∧ (convert .dt .e4m3 .f32 .e4m3 (d.tab (ownTab lap0)) .rne false 0 0x3FA00000).isSome = true) := by decide +kernel

/-- R252: the words of a range of 32 from the end of the local memory. -/
theorem test_witness_range_words :
    let s := (running (lapS [(0, localA 0x7F00), (1, 0x100000), (2, 0x0000001F00000008)])).putLeaf 0 7 0x100000 (leaf0 0x100000)
    issuesNow (.sts .always .plain .i64 (.s 0) (.s 1) (.s 2)) s = true ∧ issuesNow (.pref .always (.s 1) (.imm 0)) s = true ∧ ((0x0000001F00000008 : W64).extractLsb' 32 12).toNat + 1 = 32
    ∧ (localA 0x7F00).toNat % 2 ^ 15 + 32 * 8 ≤ 2 ^ 15 ∧ NoneDue (h0 s) ∧ s.bad = [] ∧ s.reqs = [] ∧ s.entPasid lap0 = some 7
    ∧ ((List.range 32).all fun i => decide ((0x100000 + BitVec.ofNat 64 i * (8 : W64)).toNat < 2 ^ 56)
        && decide (s.leafAt 0 7 (0x100000 + BitVec.ofNat 64 i * (8 : W64)).toNat = some (leaf0 0x100000))) = true
    ∧ (leaf0 0x100000).permits .wr (s.level lap0) = true := by decide +kernel

/-- R316, R320: a message of eight words that end with the local memory, and a record on a mapped page. -/
theorem test_witness_queue_words :
    let s := running (lapS [(1, 0x3FFF), (2, localA 0x7FC0)])
    let m : Msg := { g := .always, d := .s 0, a := .s 1, b := .s 2, words := 7, ctr := 0, noCtr := false }
    let q := ringS [0, 0, 0, 0, 0, 0, 0, 0]
    let q := q.setHart (.hart 0) { q.hart (.hart 0) with s := (q.hart (.hart 0)).s.set 1 0x100040 |>.set 3 5 }
    ((h0 s).relDone = true ∧ (h0 s).pwf = none ∧ (0x3FFF : W64).toNat / 2 ^ 14 = s.node ∧ s.node < 256 ∧ (localA 0x7FC0).toNat / 2 ^ 15 = 2 ^ 48
      ∧ (localA 0x7FC0).toNat % 2 ^ 15 + 8 * 8 ≤ 2 ^ 15 ∧ s.bad = [] ∧ s.reqs = [] ∧ issuesNow (.send { m with d := .z }) s = true ∧ issuesNow (.callr m) s = true)
    ∧ (issuesNow (.cmddone .always (.s 1) (.s 2) (.s 3) true false) q = true ∧ (q.hart (.hart 0)).relDone = true ∧ q.reqs = []
      ∧ q.leafAt 0 (q.hq 5).pasid 0x100078 = some (leaf0 0x100000) ∧ (leaf0 0x100000).permits .wr (q.level (.hart 0)) = true
      ∧ 0x100078 + 8 ≤ Config.hbmEnd) := by decide +kernel

/-- R32, R290: a posted store and a gather whose bank is taken; a re-sent gather of a thread that may halt or release. -/
theorem test_witness_banks_taken :
    let r : Req := { req0 (.store .i16 false 0x1234) .posted (localA 0x7FFE) with posted := true }
    let s := (withReq (lapS []) r).grantBanks 0 [localBank 0 (localBase 0 0 + 0x7FFE)]
    let g : Gath := { addr := localA 8, ty := .b64, hi := false, no := 0 }
    let t := hartState lap0 { hart1 [] with aq := [(g, 0)] }
    (s.bankFree 0 (localBank 0 (localBase 0 0 + r.addr.toNat % 2 ^ 15)) = false ∧ mfind s.reqs 3 = some r ∧ r.due ≤ s.clk)
    ∧ (t.bankFree 0 (localBank 0 (localBase 0 0 + 8)) = true ∧ g.no ≤ t.fresh ∧ g.ty = .b64 ∧ g.hi = false)
    ∧ (lapS []).postedCount lap0 = 0 ∧ s.postedCount lap0 = 1 ∧ (∀ q m, DqEnt.flying q m ∉ (h0 (lapS [])).dq) := by
  refine ⟨by decide +kernel, by decide +kernel, by decide +kernel, by decide +kernel, ?_⟩
  intro q m h; cases h

/-- R279: an answer that is due and acquires. -/
theorem test_witness_landing_acquires :
    let p := { pend0 with ans := some (.ok 5), due := some 0, acq := some .die }
    (h0 (waiting p)).pend = some p ∧ (∀ d, p.due = some d → d ≤ (waiting p).clk) ∧ p.dst = some (.s 0) ∧ p.act = .plain
    ∧ pushBlocked (waiting p) lap0 (.s 0) = none :=
  ⟨rfl, by simp [pend0, waiting, hartState, State.reset], rfl, rfl, by decide +kernel⟩

/-- R263, R273: an open buffer that one validated row brings to its expected count, its bank free. -/
theorem test_witness_tvalid_seals :
    let s := (lapS [(1, 0x0105), (2, 1)]).setCluster 0 { Cluster.zero with tiles := [(5, { tile0 with expn := 128 })] }
    let t := s.tile 0 5
    issuesNow (.tvalid .always (.s 1) (.reg (.s 2))) s = true ∧ t.state = 1 ∧ s.bankFree 0 (t.base / 8 % 64) = true ∧ t.due ≤ s.pt
    ∧ (0x0105 : W64).toNat % 256 = 5 ∧ (0x0105 : W64).toNat / 256 % 256 = t.gen ∧ 0 < t.expn
    ∧ t.expn ≤ min (t.arrn + 2 * (if t.xper = 0 then t.rb else t.xper) * ones (1#64 &&& ~~~t.vmask)) (2 ^ 32 - 1) := by decide +kernel

/-- R319: SIDX to global memory and AQCLR of queues that hold something. -/
theorem test_witness_gather_words :
    let g : Gath := { addr := 0, ty := .b64, hi := false, no := 0 }
    let s := running (lapS [(1, 0x100000), (2, 8)])
    let t := hartState lap0 { hart1 [] with aq := [(g, 0)], dq := [.word 1, .resend g] }
    (issuesNow (.sidx .always .f32 (.s 0) (.s 1) (.s 2) 3) s = true ∧ (0x100000 + (8 <<< 3) : W64).toNat < 2 ^ 56 ∧ s.entPasid lap0 ≠ none
      ∧ s.postedCount lap0 < 8)
    ∧ (issuesNow (.aqclr .always (.s 0)) t = true ∧ (h0 t).aq.length + (h0 t).dq.length = 3 ∧ NoneDue (h0 t)) := by decide +kernel

/-- R325: a steal whose time it is, on sleds that are taken in this clk and on ones that are not, and its answer. -/
theorem test_witness_steal :
    let p := { pend0 with act := .steal, due := some 24 }
    let s (x : Option Nat) := ({ waiting p with clk := 24 }.setCore 0 0 { LapCore.zero with sledAt := x }).setCore 0 1 { LapCore.zero with sled := [(1, 2)] }
    let d := { p with ans := some (.ok 1) }
    ((h0 (s none)).pend = some p ∧ p.ans = none ∧ ((s none).core 0 0).sledAt ≠ some 24 ∧ ((s none).core 0 1).sledAt ≠ some 24)
    ∧ ((s (some 24)).core 0 0).sledAt = some (s (some 24)).clk
    ∧ (d.dst = some (.s 0) ∧ d.long = false ∧ d.acq = none ∧ ∀ x, d.due = some x → x ≤ 24) := by
  refine ⟨by decide +kernel, by decide +kernel, rfl, rfl, rfl, by simp⟩

/-- R320, R393: payloads in the scratchpad and the local memory; nodes with a route and without. -/
theorem test_witness_other_nodes :
    let s := running (lapS [(1, 0x4000), (2, cspA 8), (3, 0x40080000)])
    let t := { s with routes := [(1, 0x10)], ports := [(0, { up := true, peer := 1, status := 0, fails := 0 })] }
    (s.node = 0 ∧ (0x4000 : W64).toNat / 2 ^ 14 = 1 ∧ (0x40080000 : W64).getLsbD 30 = true ∧ (0x40080000 : W64).toNat / 2 ^ 19 % 256 = 1)
    ∧ (s.routeOk 1 = false ∧ t.routeOk 1 = true)
    ∧ (match s.plainWords lap0 (cspA 8) 8 with | .ok ws u => decide (ws = List.replicate 8 0 ∧ u = s) | _ => false) = true
    ∧ (match t.plainWords lap0 (cspA 8) 8 with | .ok ws u => decide (ws = List.replicate 8 0 ∧ u = t) | _ => false) = true := by decide +kernel

/-- R371: a counter at 0 that is not bound and one that is bound to the thread itself, with an acquire. -/
theorem test_witness_tbind :
    let s := (lapS []).setCore 0 0 { LapCore.zero with
      trig := (LapCore.zero.trig.set 1 { count := 0, slot := 0, bound := true, under := false, acq := some .die }).set 2
        { count := 3, slot := 7, bound := false, under := true, acq := none } }
    (((s.core 0 0).trigAt 1).bound = true ∧ ((s.core 0 0).trigAt 1).slot = 0 ∧ ((s.core 0 0).trigAt 1).count = 0 ∧ ((s.core 0 0).trigAt 1).acq = some .die)
    ∧ (((s.core 0 0).trigAt 2).bound = false ∧ ((s.core 0 0).trigAt 2).count ≠ 0) ∧ issuesNow (.tbind .always 1) s = true ∧ issuesNow (.tbind .always 2) s = true := by
  decide +kernel

/-- R32, R282: every bank is free, and no request of the engine is on its way. -/
theorem test_witness_engine_banks : (∀ j m, (ceS 0 0 0 0 none).bankFree j m = true) ∧ (ceS 0 0 0 0 none).reqs = [] := by
  refine ⟨fun j m => ?_, rfl⟩
  have hs : (ceS 0 0 0 0 none).clusters = [(511, { Cluster.zero with ce := { Engine.zero with run := .cmd 0 0 511 } })] := by decide +kernel
  have hc : ((ceS 0 0 0 0 none).cluster j).grants = [] := by
    rw [State.cluster, hs]
    by_cases h : (511 : Nat) = j
    · subst h; rfl
    · simp only [mget, h]; rfl
  simp only [State.bankFree, hc]
  simp

/-- R363: a pass under way keeps its record, and one that has no token left. -/
theorem test_witness_kept_record :
    let s := passS 1 []
    let t := s.setEngine (.re 3) { s.engine (.re 3) with pass := some passRec, progress := some 2 }
    (t.engine (.re 3)).pass = some passRec ∧ (t.engine (.re 3)).progress = some 2 ∧ ((parsePass passRec).map (·.n)) = some 2
    ∧ issuesNow (.route .always (.s 0) (.s 1)) t = true := by decide +kernel

/-- R317: a packet that is written at the tail of a queue whose ring is mapped. -/
theorem test_witness_push :
    let s := { (lapS [(1, cspA 64), (2, 5)]) with queues := (ringS []).queues, leaves := (ringS []).leaves }
    (s.hq 5).state = 1 ∧ (s.hq 5).pending < 2 ^ (s.hq 5).lsz ∧ issuesNow (.launch .always (.s 0) (.s 1) (.s 2)) s = true ∧ s.reqs = [] ∧ s.bad = []
    ∧ (h0 s).relDone = true ∧ 64 < 0x3FFF00 := by decide +kernel

theorem test_witness_pushed :
    let s := { (lapS [(1, cspA 64), (2, 5)]) with queues := (ringS []).queues, leaves := (ringS []).leaves }
    (match (s.draw.2.pushPacket 5 ((List.range 8).map fun j => s.rd64 (cspBase 0 + 64 + 8 * j))).1 with | some (.ok 0) => true | _ => false) = true := by decide +kernel

/-- A launch that is saved, and a state whose memories are empty, with the page of its descriptor mapped. -/
def savedL : Launch := { launch0 with saved := some [] }

def savedS : State := { State.reset with launches := [savedL] }.putLeaf 0 7 0 (leaf0 0)

theorem windowsFit_of_empty {s : State} (h : s.mem = []) (l : Launch) (rk : List Nat) : s.windowsFit l rk = true := by
  have h : ∀ a n, s.rd a n = 0 := by
    intro a n
    induction n generalizing a with
    | zero => rfl
    | succ n ih => simp only [State.rd, memRead, h] at ih ⊢; simp [ih, memGet]
  simp [State.windowsFit, h]

theorem windowsFit_false {s : State} {l : Launch} {rk : List Nat} (hl : 0 < 8 * l.rinks.length)
    (h : 2048 < s.rd (coreRecs (areaCores (saveBase l.die l.count 0)) + 0x10) 2) : s.windowsFit l rk = false := by
  have hc : Config.lcap (posKid l.die rk 0) 0 ≤ 2048 := by simp [Config.lcap]
  cases hw : s.windowsFit l rk with
  | false => rfl
  | true =>
    simp only [State.windowsFit, List.all_eq_true, List.mem_range, decide_eq_true_eq] at hw
    have := hw 0 hl 0 (by omega) 0 (by omega)
    change s.rd (coreRecs (areaCores (saveBase l.die l.count 0)) + 0x10) 2 + s.rd (coreRecs (areaCores (saveBase l.die l.count 0)) + 0x12) 1 ≤ _ at this
    omega

/-- R214, R219, R220: a launch that is saved, whose windows fit the cores of free rinks; one with a window beyond every LCAP; one that stops. -/
theorem test_witness_restore :
    let s := savedS
    let w := s.wr (coreRecs (areaCores (saveBase 0 1 0)) + 0x10) 2 65528
    (s.launchOf 0 1 = some savedL ∧ s.restoresOn savedL = some [0] ∧ w.restoresOn savedL = some [0] ∧ w.launchOf 0 1 = some savedL)
    ∧ (s.windowsFit savedL [0] = true ∧ w.windowsFit savedL [0] = false)
    ∧ ((match s.hread 0 7 0 0 with | .ok [] u => decide (u = s) | _ => false) = true
      ∧ (match s.writeDesc { savedL with rinks := [0], saved := none, restores := 1, kept := [], reCmds := [] } with
          | .ok v => decide (v.launches = s.launches) | _ => false) = true)
    ∧ (running s).restoresOn savedL = none
    ∧ ∀ k < 8, s.quiet k = true ∧ s.unlanded k 0 = false ∧ s.unlanded k 1 = false := by
  refine ⟨by decide +kernel, ⟨windowsFit_of_empty rfl _ _, windowsFit_false (by decide) (by decide +kernel)⟩, by decide +kernel, by decide +kernel,
    by decide +kernel⟩

/-- R215, R216: a thread whose queues hold a word, a fault and a gather, and one that waits for a matrix job. -/
theorem test_witness_records :
    let g : Gath := { addr := 8, ty := .i16, hi := false, no := 3 }
    let h := { hart1 [] with dq := [.word 5, .fault 0x13 g, .resend g], aq := [(g, 0)], wait := .trigger 15, rot := .parked }
    let j := { hart1 [] with rot := .out, pend := some { pend0 with act := .job } }
    (h.size ≤ 128 ∧ h.base < 2 ^ 16 ∧ h.tr.level < 4 ∧ h.dq.length ≤ 8 ∧ h.aq.length ≤ 8 ∧ (0 < 0x13 ∧ 0x13 < 256) ∧ decTy (encTy .i16) = .i16)
    ∧ (h.rot = .parked ∧ h.wait = .trigger 15 ∧ h.pend = none) ∧ (j.rot = .out ∧ j.pend.map (·.act) = some .job)
    ∧ (∀ t : Ty, decTy (encTy t) = t) := by
  refine ⟨by decide +kernel, by decide +kernel, by decide +kernel, fun t => by cases t <;> rfl⟩

/-- R150: a context that faults with writes pending, and one whose trap is entered in this clk. -/
theorem test_witness_falls :
    let p (n : Nat) : PWrite := { x := 0, reg := .c 0 4, val := 65, mask := none, left := n, flags := 0 }
    let s := (ctxS []).setCc 0 0 { CcState.zero with pending := [p 2, p 5] }
    let f : Fall := { cau := 0x0C, adr := 0, code := 0x0C, left := 1 }
    let t := (ctxS []).setCtx 0 0 0 { (ctxS []).ctx 0 0 0 with fall := some f }
    ((s.cc 0 0).pending.map (·.left) = [2, 5] ∧ (∃ q ∈ (s.cc 0 0).pending, q.left = 5) ∧ ∀ q ∈ (s.cc 0 0).pending, q.left ≤ 5)
    ∧ ((t.ctx 0 0 0).fall = some f ∧ f.left = 1 ∧ (t.cc 0 0).freeze = 0) ∧ ((ctxS []).cc 0 0).pending = [] := by
  refine ⟨⟨by decide +kernel, ⟨_, List.mem_cons_of_mem _ (List.mem_singleton_self _), rfl⟩, by decide +kernel⟩, by decide +kernel, by decide +kernel⟩

/-- R240: a walk whose station holds the table of level 3, and one that has not begun. -/
theorem test_witness_held_tables :
    let held (n : Nat) : Option W64 := if n = 3 then some 0x3001 else none
    let s := ptS 0x1001 [0x2001, 0, 0x4001]
    let w : Walk := { die := 0, pasid := 0, page := 0x5000, reqs := [3], due := 0, ats := false, begun := false }
    held 3 = some 0x3001 ∧ (walkFrom s held 0 3 0x2000).res = (walkFrom s held 0 2 0x3000).res ∧ w.begun = false := by decide +kernel

/-- R299: a store on its own at an aligned place of a line with allowances. -/
theorem test_witness_forced_write :
    let t := tolS (withReq (running (waiting pend0)) { req0 (.store .b64 false 1) .write 0x100040 with dpa := 0x100040 })
    (∀ q ∈ t.reqs, q.1 = 3) ∧ t.bad = [] ∧ 0x100040 % (tyW .b64 / 8) = 0 ∧ MemOk t ∧ t.allowsOn (lineOf 0x100040) = [(5, 0x3F000000)] := by
  refine ⟨by decide +kernel, by decide +kernel, by decide +kernel, ?_, by decide +kernel⟩
  show memWf _ = true; decide +kernel

/-! #### Clauses of the widened statements -/

/-- R249 to R251, R253: atomic words and additions to global memory, relaxed and not, and a relaxed AMO without a result to the own local
memory. -/
theorem test_witness_atomics_sent :
    let s := running (lapS [(1, 0xFFFFFFFFFFFFF8), (2, 3), (3, localA 0x7FF8)])
    let glob (x : W64) : Bool := decide (x.toNat < 2 ^ 56 ∧ x.toNat % alignOf .i64 = 0 ∧ s.postedAt lap0 x = false ∧ (s.cluster 0).cch = [] ∧ s.entPasid lap0 ≠ none)
    glob 0xFFFFFFFFFFFFF8 = true ∧ (h0 s).relDone = true ∧ NoneDue (h0 s) ∧ s.postedCount lap0 < 8 ∧ (Ty.i64.isFloat && isOffcut .i64 3) = false
    ∧ ((localA 0x7FF8).toNat / 2 ^ 15 = 2 ^ 48 ∧ (localA 0x7FF8).toNat % alignOf .i64 = 0)
    ∧ ([.amo .always (.release .die) .add .i64 (.s 0) (.s 1) (.reg (.s 2)), .amo .always .relaxed .add .i64 .z (.s 1) (.reg (.s 2)),
        .amo .always .relaxed .add .i64 .z (.s 3) (.reg (.s 2)), .cas .always (.acquire .package) .i64 (.s 0) (.s 1) (.s 2),
        .addm .always .plain .i64 (.s 2) (.s 1) (.imm 0), .addm .always .relaxed .i64 (.s 2) (.s 1) (.imm 0)].all fun i => issuesNow i s) = true := by decide +kernel

/-- R32: three words in three banks, all free, and with the bank of the second one taken. -/
theorem test_witness_granted_reads :
    let s := lapS []
    let l := [localA 0x7FF8, localA 0, localA 8]
    let t := s.grantBanks 0 [localBank 0 (localBase 0 0)]
    let bank (a : W64) : Nat := localBank 0 (localBase 0 0 + a.toNat % 2 ^ 15)
    ((h0 s).early = [] ∧ (l.all fun a => decide (a.toNat / 2 ^ 15 = 2 ^ 48)) = true ∧ (l.map (fun a => a.toNat / 8 % 8)).Nodup ∧ (h0 s).reads = 0 ∧ (l.all fun a => s.bankFree 0 (bank a)) = true)
    ∧ (t.bankFree 0 (bank (localA 0x7FF8)) = true ∧ t.bankFree 0 (bank (localA 0)) = false ∧ (h0 t).reads = 0 ∧ l = [localA 0x7FF8] ++ localA 0 :: [localA 8])
    ∧ (stsReads (localA 0x7F00) .i64 32).length = 32 ∧ ((s.takeReads lap0 l).toOption.isSome = true ∧ (t.takeReads lap0 l).toOption.isSome = false) := by decide +kernel

/-- R36, R340: the packed side of a conversion as source and as destination, at a stride of 1 and at another; a whole group of 6-bit results. -/
theorem test_witness_packed_sides :
    let c (ssrc sdst : Nat) : W64 := BitVec.ofNat 64 (3 + ssrc * 2 ^ 22 + sdst * 2 ^ 43)
    let i (dty : Ty) (dn : Nk) (sty : Ty) (sn : Nk) := Instr.xconv .always dty dn sty sn .rne false (.s 0) (.s 1) (.s 2) (.s 3)
    let s (ssrc sdst : Nat) : State := withCsp (ceS 0 (cspA 0x1000) (cspA 8) (c ssrc sdst) none) []
    let words := wordsIn (unitAddrs (cspA 8) 1 0 4 32) ++ wordsIn (unitAddrs (cspA 0x1000) 1 0 4 6)
    (issuesNow (i .bf16 .e4m3 .narrow .e2m1) (s 2 1) = true ∧ tyBits .narrow .e2m1 8 = 4 ∧ ((c 2 1).extractLsb' 22 21).signExtend 64 ≠ (1 : W64))
    ∧ (issuesNow (i .narrow .e3m2 .f32 .e4m3) (s 1 2) = true ∧ tyBits .narrow .e3m2 8 = 6 ∧ ((c 1 2).extractLsb' 43 21).signExtend 64 ≠ (1 : W64))
    ∧ (issuesNow (i .narrow .e3m2 .f32 .e4m3) (s 1 1) = true ∧ ((c 1 1).extractLsb' 43 21).signExtend 64 = (1 : W64) ∧ (c 1 1).toNat % 2 ^ 22 + 1 = 4
      ∧ (convert .narrow .e3m2 .f32 .e4m3 DTab.zero .rne false 0 0).isSome = true ∧ isOffcut .f32 0 = false)
    ∧ (((s 1 1).hart (.ce 511)).early = [] ∧ ((s 1 1).hart (.ce 511)).reads = 0 ∧ (words.map fun x => x.toNat % 2 ^ 22 / 8 % 64).Nodup) := by decide +kernel

/-- R307: a routing engine whose launch has been killed: between instructions, within one, and at the end of its release. -/
theorem test_witness_killed_run :
    let r := Ent.re 0
    let s (run : EngRun) (p : Option Nat) (rel : Option Release) : State :=
      ({ (hartState r { hart1 [] with rel := rel }) with launches := [{ launch0 with killed := true }] }).setEngine r
        { Engine.zero with run := run, launch := some (0, 1), progress := p }
    let x := s (.cmd 0 9 0) none none
    let y := s (.cmd 0 9 0) (some 1) none
    let z := s (.ending 0 9 0 0) none (some { scope := .die, target := some 0 })
    ((x.engine r).launch.bind (fun y => x.launch y.1 y.2) = some { launch0 with killed := true } ∧ (x.engine r).run = .cmd 0 9 0
      ∧ (x.hart r).rot ≠ .out ∧ (x.engine r).progress = none ∧ (x.engine r).pass = none)
    ∧ (y.engine r).progress ≠ none ∧ (z.engine r).run = .ending 0 9 0 0 ∧ (z.hart r).rel = some { scope := .die, target := some 0 } ∧ 0 ≤ z.pt := by decide +kernel

/-- R307: a kill of a queue whose launch runs, and of one whose launch is saved; a cluster of neither. -/
theorem test_witness_kill :
    let s := running (lapS [])
    let t := { s with launches := [{ launch0 with saved := some [] }] }
    (s.launch 0 1 = some launch0 ∧ launch0.queue = 0 ∧ launch0.saved = none ∧ launch0.kids = [0, 1, 2, 3, 4, 5, 6, 7] ∧ entIn 7 (.lap 7 31 15) = true)
    ∧ (t.launch 0 1).map (·.saved.isSome) = some true ∧ (launch0.kids.all fun k => entIn k (.lap 8 0 0) = false) = true
    ∧ ({ s with bootStage := 7 }.bootStage ∈ [5, 7] ∧ State.reset.bootStage ∉ [5, 7]) := by decide +kernel

/-- A launch that is done, whose record lies on a mapped page, or on none; killed, ended by a fault, and of system scope with a vector. -/
def doneS (l : Launch) (page : Bool) : State :=
  let s := { (running State.reset) with launches := [l] }
  if page then s.putLeaf 0 7 0 (leaf0 0) else s

/-- R30, R307, R310: the ends of a launch: the record is written, and it waits for the host's answers or for the horizon. -/
theorem test_witness_launch_ends :
    let sys : Launch := { launch0 with pkt := 0x301 :: List.replicate 7 0, vec := 3 }
    let s := doneS sys true
    let w := { s with snoops := [(0, some 3)] }
    let d : Launch := { launch0 with killed := true }
    let f : Launch := { launch0 with faultEnd := some 0x13 }
    let v : W64 := BitVec.ofNat 64 (0 + 0 * 2 ^ 8 + s.pt % 2 ^ 48 * 2 ^ 16)
    (s.launchOf 0 1 = some sys ∧ s.canFinish sys = true ∧ (sys.pkt.getD 0 0).getLsbD 8 = true ∧ (sys.pkt.getD 0 0).getLsbD 9 = true ∧ s.horizonOf sys.kids ≤ s.pt
      ∧ s.snoops = [] ∧ (∀ k ∈ sys.kids, (s.cluster k).cch = []))
    ∧ ((match s.gwrite (.hart 0) (some 7) 56 (.store .b64 false v) with | .ok _ _ => true | _ => false) = true)
    ∧ ((match (doneS launch0 false).gwrite (.hart 0) (some 7) 56 (.store .b64 false v) with | .ok _ _ => false | .fault _ _ => true | _ => false) = true)
    ∧ (w.snoops = [(0, some 3)] ∧ 3 ∈ sys.kids ∧ w.canFinish sys = true)
    ∧ ((doneS d true).canFinish d = true ∧ (doneS d true).launchOf 0 1 = some d ∧ (doneS f true).canFinish f = true ∧ f.faultEnd.getD 0 = 0x13) := by decide +kernel

/-- R235, R310: the page of a record is asked of the host: the record waits. -/
theorem test_witness_record_waits :
    let s := (doneS launch0 false).wr64 (16 * 7) 3
    s.canFinish launch0 = true ∧ (match s.gwrite (.hart 0) (some 7) 56 (.store .b64 false 0) with | .wait _ => true | _ => false) = true := by decide +kernel

/-- A context that may issue, with these registers, of a control core with these vectors. -/
def quietS (regs : List (Fin 64 × W64)) (v : List (Nat × VReg)) : State :=
  let s := ctxS regs
  s.setCc 0 0 { s.cc 0 0 with v := v }

theorem ctxIssues_of {s : State} {k cc x : Nat}
    (h : decide (s.actor = .ctx k cc x ∧ (s.ctx k cc x).pc.toNat < (s.cc k cc).loaded ∧ ((s.ctx k cc x).jig.running = false ∧ (s.ctx k cc x).jig.recording = false)
      ∧ ((s.cc k cc).pending = [] ∧ (s.cc k cc).overlay = [] ∧ (s.cc k cc).flq = [] ∧ (s.cc k cc).ldNeed = none)) = true) : CtxIssues s k cc x :=
  have h := of_decide_eq_true h
  ⟨h.1, h.2.1, h.2.2.1, h.2.2.2⟩

/-- R87, R140, R154: a context that may issue a V syllable, float lanes with no offcut, with one, and a flag whose trap is enabled. -/
theorem test_witness_vectors_issue :
    let s := quietS [] [(3, ofLanes 32 (List.replicate 128 0x3F800000)), (4, ofLanes 32 [0x7FA80000])]
    let lane (n i : Nat) := BitVec.ofNat 64 (laneAt 32 ((s.cc 0 0).vreg n) i)
    CtxIssues s 0 0 0 ∧ (s.cc 0 0).pre = none ∧ (Ty.n8.isInt = true ∧ Ty.f32.isFloat = true ∧ Ty.bf16.isLane = true ∧ Rel.eq.isOrder = true)
    ∧ ((List.range 128).all fun i => !isOffcut .f32 (lane 3 i)) = true ∧ isOffcut .f32 (lane 4 0) = true
    ∧ (flgTrapped (s.ctx 0 0 0).flg fNV = 0 ∧ flgTrapped 0xE0 fNV ≠ 0) := by
  refine ⟨ctxIssues_of ?_, ?_⟩ <;> decide +kernel

/-- R331 to R333: a jig that neither records nor runs, one that records its last entry, and one that runs: an entry within the registers,
one that leaves them, the last entry, and the last pass. -/
theorem test_witness_jig :
    let e (n : Nat) : JigEntry := { v0 := .op 0 (.li .n8 5 0 (.v n)), v1 := .nop, m := .nop, ld := .nop, st := .nop }
    let j : JigState := { n := 2, recording := false, running := true, waiting := false, recorded := 2, next := 1, stride := 1, passes := 2, pass := 2, entries := [e 765, e 766] }
    let s (j : JigState) : State := (quietS [(3, 1)] []).setCtx 0 0 0 { (quietS [(3, 1)] []).ctx 0 0 0 with jig := j }
    let rec_ := { j with running := false, recording := true, recorded := 1, entries := [e 0] }
    let r (n : Nat) (j : JigState) : Int := n + j.pass * (j.stride.extractLsb' 0 8).toInt
    (CtxIssues (quietS [] []) 0 0 0 ∧ ((quietS [] []).cc 0 0).pre = none)
    ∧ ((s rec_).actor = .ctx 0 0 0 ∧ ((s rec_).ctx 0 0 0).jig = rec_ ∧ rec_.recorded + 1 = rec_.n)
    ∧ (((s j).ctx 0 0 0).jig = j ∧ j.entries[j.next]? = some (e 766) ∧ (r 766 j = 768 ∧ r 765 j = 767 ∧ 767 < 768) ∧ ¬(j.next + 1 < j.recorded) ∧ ¬(j.pass < j.passes)) := by
  refine ⟨⟨ctxIssues_of ?_, ?_⟩, ?_⟩ <;> decide +kernel

/-- A control core that may issue an M syllable, with two sealed f32 tiles and accumulators of these kinds. -/
def arrayIssues (accs : Nat → Accu) (latch : Latch) : State :=
  let t := { tile0 with ty := .f32, vmask := 1, state := 2 }
  let s := quietS [(4, 0x0100), (5, 0x0101), (6, 63), (7, 64)] []
  let s := s.setCluster 0 { s.cluster 0 with tiles := [(0, t), (1, { t with base := 0x4200, gen := 1 })], latch := latch }
  s.setCc 0 0 { s.cc 0 0 with acc := Vector.ofFn fun i => accs i.val }

/-- R171 to R194: accumulators of each kind, tiles that form a product class, one that is not sealed, latches of each kind, rows at the end
and beyond, declarations that are legal and not, and ACCLD at its first, its middle and its last read. -/
theorem test_witness_matrix :
    let ver : Accu := { Accu.zero with st := BitVec.ofNat 64 (1 + 5 * 2 ^ 10) }
    let accs (i : Nat) : Accu := if i = 2 then pod3 else if i = 1 then ver else Accu.zero
    let s := arrayIssues accs .empty
    let lat := arrayIssues accs (.podium pod3.st [] (List.replicate 64 0xFF800000))
    let pre (n : Option Nat) := s.setCc 0 0 { s.cc 0 0 with pre := n }
    let inc := s.setCluster 0 { s.cluster 0 with incoming := .podium 0 [] [] }
    let full := s.setCluster 1 { Cluster.zero with incoming := .podium 0 [] [] }
    let sole := s.setCluster 0 { s.cluster 0 with mumode := 2 }
    let im (i : Nat) := s.tileImg 0 i
    let dec (d : BitVec 25) (lo n : Nat) : Nat := (d.extractLsb' lo n).toNat
    let nan : W64 := 0x000000057FC00000
    let one : W64 := 0x000000053F800000
    (CtxIssues s 0 0 0 ∧ CtxIssues (pre (some 0)) 0 0 0 ∧ CtxIssues (pre (some 63)) 0 0 0)
    ∧ ((s.cluster 0).mumode = 0 ∧ (s.cc 0 0).queue = [] ∧ (s.cc 0 0).run = none ∧ (s.cc 0 0).pre = none ∧ (s.cc 0 0).rotBy = none ∧ (sole.cluster 0).mumode = 2)
    ∧ ((s.tileOf 0 0x0100).map (fun x => (x.1, x.2.state)) = some (0, 2) ∧ s.tileOf 0 0x0105 = none ∧ pairClass (im 0) (im 1) = some .f32
      ∧ Accu.zero.kind = 0 ∧ Accu.zero.atype = PClass.f32.accType ∧ Accu.zero.done = false ∧ ver.kind = 1 ∧ ver.step < ver.len ∧ pod3.kind = 2)
    ∧ ((s.cluster 0).latch = .empty ∧ (lat.cluster 0).latch ≠ .empty ∧ (s.cluster 0).incoming = .empty ∧ (s.cluster 1).incoming = .empty
      ∧ (inc.cluster 0).incoming ≠ .empty ∧ (full.cluster 1).incoming ≠ .empty ∧ (lat.cluster 0).latch.img = none)
    ∧ (dec 0 0 2 = 0 ∧ dec 0 4 6 = 0 ∧ dec 0x1401 0 2 = 1 ∧ dec 0x1401 10 15 = 5 ∧ dec 0xFC02 0 2 = 2 ∧ dec 0xFC02 10 15 = 63 ∧ dec 3 0 2 = 3)
    ∧ (((s.ctx 0 0 0).c[6]).toNat = 63 ∧ ((s.ctx 0 0 0).c[7]).toNat = 64 ∧ (insertAll pod3 63 [nan, one]).2 = true ∧ (insertAll pod3 63 [one]).2 = false
      ∧ isOffcut .f32 0 = false ∧ isOffcut .f32 0x7FA80000 = true) := by
  refine ⟨⟨ctxIssues_of ?_, ctxIssues_of ?_, ctxIssues_of ?_⟩, ?_⟩ <;> decide +kernel

/-- R185, R192, R193: a row that holds one pair above a raise value of 1.0; values that are an offcut, a NaN, below, held, and above. -/
theorem test_witness_podium_rows :
    let a := ((pod3.praise 63 0x3F800000).1.insert 63 0x40400000 7).1
    let above (q : W64) : Bool := ranksAbove (pairVal 0x0000000840800000) (pairVal q) (pairIdx 0x0000000840800000) (pairIdx q)
    (a.kind = 2 ∧ a.raise.length = 64 ∧ a.pairs 63 = [0x0000000740400000] ∧ a.raiseAt 63 = 0x3F800000 ∧ a.podLen = 3)
    ∧ (isOffcut .f32 0x7FA80000 = true ∧ (f32v 0x7FC00000).isNan = true ∧ podBelow (f32v 0x3F000000) (f32v (a.raiseAt 63).toNat) = true)
    ∧ ((0x0000000740400000 : W64) ∈ a.pairs 63 ∧ podBelow (f32v 0x40800000) (f32v (a.raiseAt 63).toNat) = false ∧ (0x0000000840800000 : W64) ∉ a.pairs 63
      ∧ above 0x0000000740400000 = true)
    ∧ (podBelow (f32v (a.raiseAt 63).toNat) (f32v 0x3F000000) = false ∧ podBelow (f32v (a.raiseAt 63).toNat) (f32v 0x40A00000) = true) := by decide +kernel

/-- R168, R262, R328 to R330, R335, R336, R341: places at the end of the scratchpad, aligned and not, with their banks free and one taken; handles,
a full word and an empty one, a full copy engine, and a store buffer with and without room. -/
theorem test_witness_memory_syllables :
    let regs : List (Fin 64 × W64) := [(1, cspA 0x3FFD00), (2, cspA 0x3FFEF8), (3, cspA 0x3FFCFC), (4, 0x0100), (5, cspA 0x3FFF00), (6, 63), (7, 64), (8, cspA 0x3FFF08)]
    let s := quietS regs []
    let st : StEnt := { give := false, elems := [], ty := .b64, need := [], age := none }
    let buf (n : Nat) := s.setCtx 0 0 0 { s.ctx 0 0 0 with sbuf := List.replicate n st }
    let tile (n : Nat) (b : Bool) := (s.setCluster 0 { s.cluster 0 with tiles := [(0, { tile0 with state := n })] }).setCtx 0 0 0
      { s.ctx 0 0 0 with handles := if b then [0x0100] else [] }
    let taken := s.grantBanks 0 [0x3FFEF8 / 8 % 64]
    let ce (n : Nat) := s.setCluster 0 { s.cluster 0 with ce := { Engine.zero with queue := List.replicate n (cmd0 0) } }
    let C (n : Nat) : W64 := (s.ctx 0 0 0).c.toList.getD n 0
    let own (a : W64) (n : Nat) : Bool := decide (a.toNat / 2 ^ 22 = 0x24000000000 ∧ a.toNat % 2 ^ 22 + n ≤ 0x3FFF00)
    (CtxIssues s 0 0 0 ∧ CtxIssues (buf 1) 0 0 0 ∧ CtxIssues (buf 4) 0 0 0 ∧ CtxIssues (tile 2 true) 0 0 0 ∧ CtxIssues (ce 8) 0 0 0 ∧ CtxIssues taken 0 0 0)
    ∧ ((s.cc 0 0).pre = none ∧ s.bad = [] ∧ (s.ctx 0 0 0).sbuf = [] ∧ (s.ctx 0 0 0).cpgos = [] ∧ (s.ctx 0 0 0).seals = [] ∧ (s.cluster 0).tiles = []
      ∧ (s.cluster 0).posts = [] ∧ (s.ctx 0 0 0).refused = false)
    ∧ (own (C 1) 512 = true ∧ (C 1).toNat % 8 = 0 ∧ own (C 3) 512 = true ∧ (C 3).toNat % 8 = 4 ∧ own (C 2) 8 = true ∧ own (C 5) 8 = false
      ∧ C 8 ∈ [0x90000000003FFF00, 0x90000000003FFF08] ∧ (C 6).toNat ≤ 63 ∧ 63 < (C 7).toNat ∧ (0 : W64).extractLsb' 60 4 ≠ 9#4)
    ∧ (s.bankFree 0 (0x3FFEF8 / 8 % 64) = true ∧ taken.bankFree 0 (0x3FFEF8 / 8 % 64) = false
      ∧ (s.setFull (cspBase 0 + 0x3FFEF8)).isFull (cspBase 0 + 0x3FFEF8) = true ∧ s.isFull (cspBase 0 + 0x3FFEF8) = false)
    ∧ (((buf 1).ctx 0 0 0).sbuf.length < 4 ∧ 4 ≤ ((buf 4).ctx 0 0 0).sbuf.length ∧ 8 ≤ ((ce 8).cluster 0).ce.queue.length ∧ (s.cluster 0).ce.run = .idle)
    ∧ (((tile 2 true).ctx 0 0 0).handles = [0x0100] ∧ ((tile 2 true).tileOf 0 0x0100).map (fun x => (x.1, x.2.state)) = some (0, 2)
      ∧ ((tile 3 false).tileOf 0 0x0100).map (fun x => x.2.state) = some 3 ∧ (tile 3 false).stepsName 0 0x0100 = false ∧ s.tileOf 0 0x0100 = none
      ∧ ((tile 1 false).tileOf 0 0x0100).map (fun x => x.2.state) = some 1) := by
  refine ⟨⟨ctxIssues_of ?_, ctxIssues_of ?_, ctxIssues_of ?_, ctxIssues_of ?_, ctxIssues_of ?_, ctxIssues_of ?_⟩, ?_⟩ <;> decide +kernel

/-- R239: slots of tables that lie in HBM, beyond it, and held. -/
theorem test_witness_walk_holes :
    let slot (level table va : Nat) : Nat := table + 8 * (va / 2 ^ (12 + 9 * level) % (if level = 4 then 256 else 512))
    (slot 3 0x2000 (2 ^ 48 - 1) = 0x2FF8 ∧ slot 3 0x2000 (2 ^ 48 - 1) < Config.hbmEnd)
    ∧ (slot 2 (Config.hbmEnd - 4096) (511 * 2 ^ 30) = Config.hbmEnd - 8 ∧ Config.hbmEnd ≤ slot 0 Config.hbmEnd 0 ∧ slot 0 Config.hbmEnd 0 < Config.farBase)
    ∧ (State.reset.pasidBase.toNat + 16 * 0xFFFFF < Config.hbmEnd ∧ State.reset.bad = []) := by decide +kernel

/-- R240: a station with all its miss registers in use, and a posted store behind one to the same word. -/
theorem test_witness_station_waits :
    let w (i : Nat) : Walk := { die := 0, pasid := 7, page := 0x100000 + i * 0x2000000, reqs := [], due := 0, ats := false, begun := true }
    let s := atStation (.load .b64 false) .station none
    let f := { s with walks := (List.range 512).map w }
    let p := { req0 (.store .b64 false 5) .station 0x100040 with posted := true }
    let b := { s with reqs := [(2, p), (3, p)] }
    ((f.walks.filter fun w => stationOf w.die w.pasid w.page = stationOf 0 7 0x100040).length = 512 ∧ f.stationFull (stationOf 0 7 0x100040) = true
      ∧ s.stationFull (stationOf 0 7 0x100040) = false)
    ∧ (p.isPosted = true ∧ b.postHeld 3 p = true ∧ b.postHeld 2 p = false) := by decide +kernel

/-- R299: the home's own line has nothing withheld, and with something withheld its sums are not empty. -/
theorem test_witness_own_sums :
    let t := tolS (withReq (running (waiting pend0)) { req0 (.store .b64 false 1) .write 0x100040 with dpa := 0x100040 })
    (t.cchByDpa 0 (lineOf 0x100040)).isNone = true ∧ ((withLine t line0).cchByDpa 0 (lineOf 0x100040)).map (·.sums) = some [] := by decide +kernel

/-- R389, R390: lines of a host line under two pages, one with additions withheld. -/
theorem test_witness_snooped :
    let l := { line0 with dpa := hostBase + 0x100040 }
    let s := (lapS []).setCluster 0 { Cluster.zero with cch := [l, { l with line := 0x200040, allow := some 0x3F000000 }] }
    hostBase + lineOf 0x100040 = l.dpa ∧ ((s.cluster 0).cch.filter fun x => x.dpa = l.dpa).length = 2
    ∧ (((after (.hostSnoop ⟨0x100044, 0x1234⟩) s).cluster 0).cch.map fun x => (x.line, x.valid)) = [(0x200040, 0)] := by decide +kernel

/-- R298: a forced drain whose cluster holds none, while a drain is on its way to the line. -/
theorem test_witness_drain_on_way :
    let d := homeDie 0x100040
    let s := (lapS []).setDie d { (lapS []).die d with forced := [(0x100040, 0)] }
    let w := withReq s { req0 (.drain .f32 [] true) .write 0x100040 with dpa := 0x100040 }
    (s.cchByDpa 0 0x100040 = none ∧ s.drainOn 0x100040 = false ∧ w.drainOn 0x100040 = true ∧ (0x100040, 0) ∈ (w.die d).forced) := by decide +kernel

/-- R387: the last entry of the table in words of 4 bytes, its mask word, the pending bits, and offsets that are turned away. -/
theorem test_witness_bar2 :
    let s := { State.reset with msixOpen := [3], msixPend := [2047] }
    (0x7FFC % 4 = 0 ∧ 0x7FFC / 16 = 2047 ∧ 0x7FFC % 16 = 12 ∧ 2047 ∈ s.msixPend ∧ 2047 ∉ s.msixOpen)
    ∧ (2047 ∈ (after (.msixTableAccess ⟨0x7FFC, 4⟩ (some 0)) s).msixOpen ∧ 2047 ∉ (after (.msixTableAccess ⟨0x7FFC, 4⟩ (some 0)) s).msixPend)
    ∧ (after (.msixTableAccess ⟨0x80F8, 8⟩ none) s).outbox = [.bar2Data 0x80F8 0x8000000000000000]
    ∧ (after (.msixTableAccess ⟨0x7FFC, 4⟩ none) s).outbox = [.bar2Data 0x7FFC 1] ∧ (0x8002 % 4 ≠ 0 ∧ 2 ^ 16 ≤ 0x10000) := by decide +kernel

/-- R392, R395: a port silent for 10,000 pt and for one less, a request of its peer, and a modified line of a failed range. -/
theorem test_witness_silence :
    let s (pt : Nat) := { State.reset with pt := pt, ports := [(11, { up := true, peer := 1, status := 0, fails := 0 })], routes := [(1, 0x1B)], fars := [(1, 0x1080)] }
    ((s 10000).port 11).flitAt + 10000 ≤ (s 10000).pt ∧ (s 9999).pt < ((s 9999).port 11).flitAt + 10000
    ∧ (withReq (s 0) { req0 (.load .b64 false) .fabric 8 with who := .far 1 }).behindPort 11 1 = true ∧ (s 0).behindPort 11 2 = false
    ∧ (((s 0).setDie 0 { Die.zero with l2 := [(Config.farBase + 192, true)] }).die 0).l2 = [(Config.farBase + 192, true)] ∧ (s 0).farPort (Config.farBase + 192) = some 1 := by decide +kernel

/-- R252, R32: the words of a range's source, each in a bank of its own that is free. -/
theorem test_witness_range_banks :
    let s := (running (lapS [(0, localA 0x7FE0), (1, 0x100000), (2, 0x0000000300000008)])).putLeaf 0 7 0x100000 (leaf0 0x100000)
    let l := stsReads (localA 0x7FE0) .i64 4
    (h0 s).early = [] ∧ (h0 s).reads = 0 ∧ (l.map fun x => x.toNat / 8 % 8).Nodup ∧ (l.all fun x => s.bankFree 0 (localBank 0 (localBase 0 0 + x.toNat % 2 ^ 15))) = true
    ∧ s.roomFor 0 4 = true ∧ (List.range 4).all (fun i => !s.stationFull (stationOf 0 7 (0x100000 + 8 * i))) = true
    ∧ (issuesNow (.sts .always .relaxed .i64 (.s 0) (.s 1) (.s 2)) s = true ∧ s.bad = [] ∧ s.reqs = []) := by decide +kernel

/-- R320: a payload of eight words whose banks are free; R316: a station that takes the record. -/
theorem test_witness_payload_banks :
    let s := lapS []
    let q := ringS [0, 0, 0, 0, 0, 0, 0, 0]
    ((List.range 8).all fun j => s.bankFree 0 (localBank 0 (localBase 0 0 + 0x7FC0 + 8 * j))) = true ∧ (h0 s).early = [] ∧ (h0 s).reads = 0 ∧ NoneDue (h0 s)
    ∧ (s.takeReads lap0 (wordAddrs (cspA 0x3FFEC0) 8)).toOption.isSome = true ∧ q.stationFull (stationOf 0 (q.hq 5).pasid 0x100078) = false := by decide +kernel

/-- R288, R392: a line of the cache that nothing has acquired since it came, of HBM. -/
theorem test_witness_fresh_line : line0.acquired = false ∧ State.reset.farFailed line0.dpa = false := by decide +kernel

/-- R214, R230: a saved launch with a kept request, restored on its own rinks; a stopped one with a request of its own still on its way. -/
theorem test_witness_kept_traffic :
    let r : Req := { req0 (.store .b64 false 5) .fabric 0xA0000000003FFEF8 with pasid := some 7 }
    let s := withReq savedS r
    let l := { savedL with kept := [3] }
    let t := withReq (running (lapS [])) { r with phase := .posted, posted := true }
    (s.restoresOn l = some [0] ∧ (mfind s.reqs 3).isSome = true ∧ 3 ∈ l.kept)
    ∧ ((launch0.kids.any fun k => entIn k (.lap 0 0 0)) = true ∧ (mfind t.reqs 3).map (fun q => (q.early, q.posted)) = some (false, true)) := by decide +kernel

end Sys2Proof.Tests
end

section
/-! Integer, bit and shift words: what each writes (R102, R107, R109, R116, R117). The frame of such a word is shown once, for every
word of its shape; what is left for each word is one fact about bit vectors. -/

namespace Sys2Proof

open Sys2Proof.Machine

/-! ### The shapes: two sources, one source, a division -/

/-- R107, R116: a word of two sources writes g when its meaning is an integer whose low bits are g. -/
theorem intWrites_of_aluOp {k : Alu → Instr} {f : Ty → W64 → W64 → Int} {g : (w : Nat) → BitVec w → BitVec w → W64 → BitVec w}
    (hk : ∀ o s, exec (k o) s = aluOp (k o) o f s)
    (hf : ∀ t, t.isInt = true → ∀ a b, BitVec.ofInt (tyW t) (f t a b) = g (tyW t) (a.setWidth _) (b.setWidth _) b) :
    IntWrites k g := by
  intro o ho e s vals s₁ h
  rw [hk, aluOp, runLap_of_issues h]
  simp only [finish, doneWith, h.actor₁, extend_eq ho, hf _ ho]

/-- R107, R116: the same of a word of one source. -/
theorem intWrites1_of_aluOp1 {k : Alu1 → Instr} {f : Ty → W64 → Int} {g : (w : Nat) → BitVec w → BitVec w}
    (hk : ∀ o s, exec (k o) s = aluOp1 (k o) o f s)
    (hf : ∀ t, t.isInt = true → ∀ a, BitVec.ofInt (tyW t) (f t a) = g (tyW t) (a.setWidth _)) :
    IntWrites1 k g := by
  intro o ho e s vals s₁ h
  rw [hk, aluOp1, runLap_of_issues h]
  simp only [finish, doneWith, h.actor₁, extend_eq ho, hf _ ho]

/-- R117: the zero test of a divisor reads it at its width. -/
theorem isZeroAt_iff (t : Ty) (v : W64) : isZeroAt t v = true ↔ v.setWidth (tyW t) = 0 := by
  rw [isZeroAt, rdU_eq, beq_iff_eq]
  exact BitVec.toNat_eq (y := 0).symm

/-- The pops of a word leave its hart's pc, so the word after it stands where it stood. -/
theorem Issues.nextPc_eq {i : Instr} {e : Ent} {s s₁ : State} {vals : List (LSpec × W64)} (h : Issues i e s vals s₁) :
    nextPc s₁ e i = nextPc s e i := by
  obtain ⟨q, hq⟩ := h.leaves.hart
  simp only [nextPc, hq]

/-- R109, R117: a division leaves the rotation with its result or its fault; g gives the low bits of its meaning. -/
theorem divLands_of_divOp {k : Alu → Instr} {f : Ty → W64 → W64 → Int} {g : (w : Nat) → BitVec w → BitVec w → BitVec w}
    (hk : ∀ o s, exec (k o) s = divOp (k o) o isZeroAt f s)
    (hf : ∀ t, t.isInt = true → ∀ a b, BitVec.ofInt (tyW t) (f t a b) = g (tyW t) (a.setWidth _) (b.setWidth _)) :
    DivLands k g := by
  intro o ho e s vals s₁ h a b
  obtain ⟨hclk, -⟩ := h.leaves.only.time
  split
  case isTrue hb =>
    rw [LeavesFor, hk, divOp, runLap_of_issues h]
    simp only [(isZeroAt_iff _ _).2 hb, if_true, faultsIn, finish, h.actor₁, h.nextPc_eq, hclk, divClks]
  case isFalse hb =>
    rw [LeavesFor, hk, divOp, runLap_of_issues h]
    simp only [mt (isZeroAt_iff _ _).1 hb, if_false, landsIn, finish, h.actor₁, h.nextPc_eq, hclk, divClks, extend_eq ho, hf _ ho,
      Bool.false_eq_true, a, b]

/-! ### Sums, products and divisions -/

theorem intWrites_add : IntWrites .add (fun _ a b _ => a + b) :=
  intWrites_of_aluOp (fun _ _ => by rw [exec, execAdd]) fun t _ a b => by simp only [rdU_eq, ofInt_add_toNat]

theorem intWrites_sub : IntWrites .sub (fun _ a b _ => a - b) :=
  intWrites_of_aluOp (fun _ _ => by rw [exec, execSub]) fun t _ a b => by simp only [rdU_eq, ofInt_sub_toNat]

theorem intWrites_mul : IntWrites .mul (fun _ a b _ => a * b) :=
  intWrites_of_aluOp (fun _ _ => by rw [exec, execMul]) fun t _ a b => by simp only [rdU_eq, ofInt_mul_toNat]

theorem intWrites_mulh : IntWrites .mulh (fun w a b _ => BitVec.ofInt w (a.toInt * b.toInt / 2 ^ w)) :=
  intWrites_of_aluOp (fun _ _ => by rw [exec, execMulh]) fun t ht a b => by
    simp only [rdS_eq ht, Int.fdiv_eq_ediv_of_nonneg _ (pow_nonneg (zero_le_two (α := Int)) _)]

theorem intWrites_mulhn : IntWrites .mulhn (fun w a b _ => BitVec.ofNat w (a.toNat * b.toNat / 2 ^ w)) :=
  intWrites_of_aluOp (fun _ _ => by rw [exec, execMulhn]) fun t _ a b => by simp only [rdU_eq, ofInt_natCast]

theorem divLands_div : DivLands .div (fun w a b => BitVec.ofInt w (a.toInt.tdiv b.toInt)) :=
  divLands_of_divOp (fun _ _ => by rw [exec, execDiv]) fun t ht a b => by simp only [rdS_eq ht]

theorem divLands_divn : DivLands .divn (fun _ a b => a / b) :=
  divLands_of_divOp (fun _ _ => by rw [exec, execDivn]) fun t _ a b => by simp only [rdU_eq, ofInt_natCast, BitVec.udiv_def]

theorem divLands_rem : DivLands .rem (fun w a b => BitVec.ofInt w (a.toInt - b.toInt * a.toInt.tdiv b.toInt)) :=
  divLands_of_divOp (fun _ _ => by rw [exec, execRem]) fun t ht a b => by simp only [rdS_eq ht, Int.tmod_def]

theorem divLands_remn : DivLands .remn (fun _ a b => a % b) :=
  divLands_of_divOp (fun _ _ => by rw [exec, execRemn]) fun t _ a b => by
    rw [rdU_eq, rdU_eq, ofInt_natCast, ← BitVec.toNat_umod, BitVec.ofNat_toNat, BitVec.setWidth_eq]

/-! ### Signs and choices -/

theorem intWrites1_neg : IntWrites1 .neg (fun _ a => -a) :=
  intWrites1_of_aluOp1 (fun _ _ => by rw [exec, execNeg]) fun t ht a => by simp only [rdS_eq ht, ofInt_neg_toInt]

theorem intWrites1_abs : IntWrites1 .abs (fun w a => BitVec.ofInt w |a.toInt|) :=
  intWrites1_of_aluOp1 (fun _ _ => by rw [exec, execAbs]) fun t ht a => by simp only [rdS_eq ht, Int.natCast_natAbs]

theorem intWrites_min : IntWrites .min (fun _ a b _ => if a.toInt ≤ b.toInt then a else b) :=
  intWrites_of_aluOp (fun _ _ => by rw [exec, execMin]) fun t ht a b => by
    simp only [rdS_eq ht, min_def, apply_ite (BitVec.ofInt _), ofInt_toInt]

theorem intWrites_max : IntWrites .max (fun _ a b _ => if a.toInt ≤ b.toInt then b else a) :=
  intWrites_of_aluOp (fun _ _ => by rw [exec, execMax]) fun t ht a b => by
    simp only [rdS_eq ht, max_def, apply_ite (BitVec.ofInt _), ofInt_toInt]

/-- The unsigned reading of a bit vector, taken back to its width. -/
theorem ofInt_toNat {w : Nat} (a : BitVec w) : BitVec.ofInt w (a.toNat : Int) = a := by
  rw [ofInt_natCast, BitVec.ofNat_toNat, BitVec.setWidth_eq]

theorem intWrites_minn : IntWrites .minn (fun _ a b _ => if a ≤ b then a else b) :=
  intWrites_of_aluOp (fun _ _ => by rw [exec, execMinn]) fun t _ a b => by
    simp only [rdU_eq, min_def, ← BitVec.le_def, apply_ite (Nat.cast (R := Int)), apply_ite (BitVec.ofInt _), ofInt_toNat]

theorem intWrites_maxn : IntWrites .maxn (fun _ a b _ => if a ≤ b then b else a) :=
  intWrites_of_aluOp (fun _ _ => by rw [exec, execMaxn]) fun t _ a b => by
    simp only [rdU_eq, max_def, ← BitVec.le_def, apply_ite (Nat.cast (R := Int)), apply_ite (BitVec.ofInt _), ofInt_toNat]

/-! ### Bits and shifts -/

theorem intWrites_and : IntWrites .and (fun _ a b _ => a &&& b) :=
  intWrites_of_aluOp (fun _ _ => by rw [exec, execAnd]) fun t _ a b => by rw [rdU_eq, rdU_eq, ← BitVec.toNat_and, ofInt_toNat]

theorem intWrites_or : IntWrites .or (fun _ a b _ => a ||| b) :=
  intWrites_of_aluOp (fun _ _ => by rw [exec, execOr]) fun t _ a b => by rw [rdU_eq, rdU_eq, ← BitVec.toNat_or, ofInt_toNat]

theorem intWrites_xor : IntWrites .xor (fun _ a b _ => a ^^^ b) :=
  intWrites_of_aluOp (fun _ _ => by rw [exec, execXor]) fun t _ a b => by rw [rdU_eq, rdU_eq, ← BitVec.toNat_xor, ofInt_toNat]

theorem intWrites_andn : IntWrites .andn (fun _ a b _ => a &&& ~~~b) :=
  intWrites_of_aluOp (fun _ _ => by rw [exec, execAndn]) fun t ht a b => by
    obtain ⟨-, hle, -⟩ := tyW_pos ht
    rw [rdU_eq, ofInt_toNat, BitVec.setWidth_and, BitVec.setWidth_not hle]

theorem intWrites_shl : IntWrites .shl (fun w a _ b => a <<< (b.toNat % w)) :=
  intWrites_of_aluOp (fun _ _ => by rw [exec, execShl]) fun t _ a b => by
    rw [rdU_eq, ofInt_natCast, shiftBy]
    exact BitVec.eq_of_toNat_eq (by rw [BitVec.toNat_ofNat, BitVec.toNat_shiftLeft, Nat.shiftLeft_eq])

theorem intWrites_shr : IntWrites .shr (fun w a _ b => a >>> (b.toNat % w)) :=
  intWrites_of_aluOp (fun _ _ => by rw [exec, execShr]) fun t _ a b => by
    rw [rdU_eq, shiftBy, ← Nat.shiftRight_eq_div_pow, ← BitVec.toNat_ushiftRight, ofInt_toNat]

theorem intWrites_sra : IntWrites .sra (fun w a _ b => a.sshiftRight (b.toNat % w)) :=
  intWrites_of_aluOp (fun _ _ => by rw [exec, execSra]) fun t ht a b => by
    rw [rdS_eq ht, Int.fdiv_eq_ediv_of_nonneg _ (pow_nonneg zero_le_two _), BitVec.sshiftRight_eq, Int.shiftRight_eq_div_pow,
      shiftBy, Nat.cast_pow, Nat.cast_two]

/-- The bits of the model's rotation: those shifted left, and below them those that left at the top. -/
theorem ofNat_rotateLeft {w : Nat} (x : BitVec w) {k : Nat} (hk : k < w) :
    BitVec.ofNat w (rotateLeft w x.toNat k) = x.rotateLeft k := by
  have hlow : x.toNat / 2 ^ (w - k) < 2 ^ k := by
    rw [Nat.div_lt_iff_lt_mul (Nat.two_pow_pos _), ← Nat.pow_add, Nat.add_sub_cancel' hk.le]
    exact x.isLt
  refine BitVec.eq_of_getLsbD_eq fun i hi => ?_
  rw [BitVec.getLsbD_rotateLeft_of_le hk, BitVec.getLsbD_ofNat, rotateLeft, Nat.testBit_mod_two_pow, Nat.mul_comm,
    Nat.testBit_two_pow_mul_add _ hlow]
  by_cases h : i < k
  · simp [h, hi, Nat.testBit_div_two_pow, Nat.add_comm, BitVec.testBit_toNat]
  · simp [h, hi, BitVec.testBit_toNat]

theorem intWrites_rot : IntWrites .rot (fun w a _ b => a.rotateLeft (b.toNat % w)) :=
  intWrites_of_aluOp (fun _ _ => by rw [exec, execRot]) fun t ht a b => by
    obtain ⟨hge, -, -⟩ := tyW_pos ht
    rw [rdU_eq, ofInt_natCast, shiftBy, ofNat_rotateLeft _ (Nat.mod_lt _ (by omega))]

/-! ### Counts and orders of bits -/

/-- Tests that agree on a list take the same start of it. -/
theorem takeWhile_congr_of_mem {α : Type} {p q : α → Bool} {l : List α} (h : ∀ x ∈ l, p x = q x) :
    l.takeWhile p = l.takeWhile q := by
  induction l with
  | nil => rfl
  | cons x l ih =>
    rw [List.takeWhile_cons, List.takeWhile_cons, h x List.mem_cons_self, ih fun y hy => h y (List.mem_cons_of_mem _ hy)]

/-- A bit below a width stays when the rest is dropped. -/
theorem getLsbD_setWidth_of_lt {v w i : Nat} (x : BitVec v) (h : i < w) : (x.setWidth w).getLsbD i = x.getLsbD i := by
  rw [BitVec.getLsbD_setWidth, decide_eq_true h, Bool.true_and]

theorem popcount_eq_ones {w v : Nat} (x : BitVec v) (h : w ≤ v) : popcount w x.toNat = ones (x.setWidth w) := by
  rw [popcount_eq w x h, ones]
  exact List.countP_congr fun i hi => by rw [getLsbD_setWidth_of_lt x (List.mem_range.1 hi)]

theorem leadingZeros_eq_zerosAbove {w v : Nat} (x : BitVec v) : leadingZeros w x.toNat = zerosAbove (x.setWidth w) := by
  rw [leadingZeros_eq, zerosAbove]
  exact congrArg _ (takeWhile_congr_of_mem fun i hi => by
    rw [getLsbD_setWidth_of_lt x (List.mem_range.1 (List.mem_reverse.1 hi))])

theorem trailingZeros_eq_zerosBelow {w v : Nat} (x : BitVec v) : trailingZeros w 0 x.toNat = zerosBelow (x.setWidth w) := by
  rw [trailingZeros_eq, zerosBelow, ← List.range_eq_range']
  exact congrArg _ (takeWhile_congr_of_mem fun i hi => by rw [getLsbD_setWidth_of_lt x (List.mem_range.1 hi)])

theorem ofNat_reverseBits {w : Nat} (x : BitVec w) :
    BitVec.ofNat w (reverseBits w x.toNat) = BitVec.ofFnLE fun i : Fin w => x.getLsbD (w - 1 - i) :=
  BitVec.eq_of_getLsbD_eq fun i hi => by
    rw [BitVec.getLsbD_ofNat, reverseBits_testBit, BitVec.getLsbD_ofFnLE, dif_pos hi, BitVec.testBit_toNat, decide_eq_true hi,
      Bool.true_and, Bool.true_and]

theorem ofNat_reverseBytes {w : Nat} (x : BitVec w) (hw : 8 ∣ w) :
    BitVec.ofNat w (reverseBytes (w / 8) x.toNat)
      = BitVec.ofFnLE fun i : Fin w => x.getLsbD (8 * (w / 8 - 1 - i / 8) + i % 8) :=
  BitVec.eq_of_getLsbD_eq fun i hi => by
    rw [BitVec.getLsbD_ofNat, reverseBytes_testBit, Nat.mul_div_cancel' hw, BitVec.getLsbD_ofFnLE, dif_pos hi,
      BitVec.testBit_toNat, decide_eq_true hi, Bool.true_and, Bool.true_and]

theorem intWrites1_pcnt : IntWrites1 .pcnt (fun w a => BitVec.ofNat w (ones a)) :=
  intWrites1_of_aluOp1 (fun _ _ => by rw [exec, execPcnt]) fun t ht a => by
    obtain ⟨-, hle, -⟩ := tyW_pos ht
    rw [ofInt_natCast, popcount_eq_ones a hle]

theorem intWrites1_clz : IntWrites1 .clz (fun w a => BitVec.ofNat w (zerosAbove a)) :=
  intWrites1_of_aluOp1 (fun _ _ => by rw [exec, execClz]) fun t _ a => by rw [ofInt_natCast, leadingZeros_eq_zerosAbove]

theorem intWrites1_ctz : IntWrites1 .ctz (fun w a => BitVec.ofNat w (zerosBelow a)) :=
  intWrites1_of_aluOp1 (fun _ _ => by rw [exec, execCtz]) fun t _ a => by rw [ofInt_natCast, trailingZeros_eq_zerosBelow]

theorem intWrites1_brev : IntWrites1 .brev (fun w a => BitVec.ofFnLE fun i : Fin w => a.getLsbD (w - 1 - i)) :=
  intWrites1_of_aluOp1 (fun _ _ => by rw [exec, execBrev]) fun t _ a => by rw [rdU_eq, ofInt_natCast, ofNat_reverseBits]

theorem intWrites1_bswap :
    IntWrites1 .bswap (fun w a => BitVec.ofFnLE fun i : Fin w => a.getLsbD (8 * (w / 8 - 1 - i / 8) + i % 8)) :=
  intWrites1_of_aluOp1 (fun _ _ => by rw [exec, execBswap]) fun t ht a => by
    obtain ⟨-, -, hbytes⟩ := tyW_pos ht
    rw [rdU_eq, ofInt_natCast, ofNat_reverseBytes _ hbytes]

/-! ### The statement -/

/-- Settles O1: each word by the frame of its shape and its own fact about bit vectors. -/
theorem integerResults : Obligations.IntegerResults :=
  ⟨intWrites_add, intWrites_sub, intWrites_mul, intWrites_mulh, intWrites_mulhn, divLands_div, divLands_divn, divLands_rem,
    divLands_remn, intWrites1_neg, intWrites1_abs, intWrites_min, intWrites_max, intWrites_minn, intWrites_maxn, intWrites_and,
    intWrites_or, intWrites_xor, intWrites_andn, intWrites_shl, intWrites_shr, intWrites_sra, intWrites_rot, intWrites1_pcnt,
    intWrites1_clz, intWrites1_ctz, intWrites1_brev, intWrites1_bswap⟩

end Sys2Proof
end

section
/-! How a lap thread enters its trap (R204, R205): the hart it meets the fault with, and the two ways on from there. -/

namespace Sys2Proof

open Sys2Proof.Machine

/-! ### The harts of a trap entry -/

/-- R204, R205: the hart of a lap thread of core c as fault t meets it: what the thread waited for is dropped, its gathers stay, and an
asynchronous fault that is due is kept for the return. -/
def trapHart (h : Hart) (c : LapCore) (t : Trap) : Hart :=
  let stall := t.code != 0x10 && (h.stall || h.stalled c)
  { h with wait := .none, parkN := 0, pend := none, rel := none, relDone := false, forfeit := none, reads := 0, seen := none,
           lateHeld := h.lateHeld || h.late.isSome || stall, stall := stall, early := h.early.filter (·.gather) }

/-- R205: a hart that goes to its supervisor handler at the vector. -/
def enterHandler (h : Hart) (vec epc cause addr insn : W64) : Hart :=
  { h with rot := .ready, pc := vec
           tr := { h.tr with cause := cause, addr := addr, insn := insn, epc := epc, level := 1, hnd := true } }

/-- R205: a hart that leaves the rotation, trapped at its resume point. The cause is a parameter, so that reading another field back never
makes the kernel evaluate it. -/
def leaveTrapped (h : Hart) (epc cause addr insn : W64) : Hart :=
  { h with rot := .trapped, pc := epc, tr := { h.tr with cause := cause, addr := addr, insn := insn } }

/-- R205: an escalated fault leaves TEPC and TPRV as they were. -/
theorem leaveTrapped_keeps (h : Hart) (epc cause addr insn : W64) :
    let r := (leaveTrapped h epc cause addr insn).tr
    r.epc = h.tr.epc ∧ r.level = h.tr.level ∧ r.hnd = h.tr.hnd :=
  ⟨rfl, rfl, rfl⟩

/-! ### Taking a fault -/

section

variable {s : State} {k c n : Nat} {t : Trap}

/-- R205: a delegated fault outside a handler, with a vector set, enters the handler. -/
theorem takeTrap_of_delegated (epc insn : W64)
    (h : delegated (s.cluster k) t = true ∧ (s.hart (.lap k c n)).tr.hnd = false ∧ (s.cluster k).clsvec ≠ 0) :
    s.takeTrap (.lap k c n) t epc insn = s.setHart (.lap k c n)
      (enterHandler (trapHart (s.hart (.lap k c n)) (s.core k c) t) (s.cluster k).clsvec epc t.cause t.addr insn) :=
  if_pos h

/-- R205: any other fault is escalated: esc is set in its cause, and the thread stands trapped. -/
theorem takeTrap_of_not_delegated (epc insn : W64)
    (h : ¬(delegated (s.cluster k) t = true ∧ (s.hart (.lap k c n)).tr.hnd = false ∧ (s.cluster k).clsvec ≠ 0)) :
    s.takeTrap (.lap k c n) t epc insn = s.setHart (.lap k c n)
      (leaveTrapped (trapHart (s.hart (.lap k c n)) (s.core k c) t) epc (t.cause ||| (1#64 <<< 26)) t.addr insn) :=
  if_neg h

end

/-! ### The statement -/

/-- Settles O4: by whether the fault is delegated to a handler that can take it, reading the hart that each way leaves. -/
theorem trapEntry : Obligations.TrapEntry := by
  intro s k c n t epc insn e h s' h' deleg
  by_cases hd : delegated (s.cluster k) t = true ∧ h.tr.hnd = false ∧ (s.cluster k).clsvec ≠ 0
  case pos =>
    have hh : h' = enterHandler (trapHart h (s.core k c) t) (s.cluster k).clsvec epc t.cause t.addr insn := by
      simp only [h', s', e, h, takeTrap_of_delegated epc insn hd, State.setHart_hart_self]
    rw [hh]
    exact ⟨rfl, rfl, (if_pos hd).mpr ⟨rfl, rfl, rfl, rfl, rfl, rfl⟩⟩
  case neg =>
    have hh : h' = leaveTrapped (trapHart h (s.core k c) t) epc (t.cause ||| (1#64 <<< 26)) t.addr insn := by
      simp only [h', s', e, h, takeTrap_of_not_delegated epc insn hd, State.setHart_hart_self]
    rw [hh]
    exact ⟨rfl, rfl, (if_neg hd).mpr ⟨rfl, rfl, leaveTrapped_keeps ..⟩⟩

end Sys2Proof
end
